-- ==== Sys2Proof/Word.lean ====
section
/-! DEFINITION. The word types of the Renyx 2048 (00 Terms, R23, R312): the 36-bit word, the 72-bit double, the quad,
the stored nonet of 14 bits, the octet of the host and MRAM boundaries, and the table type in which sparse state is kept. -/
namespace Sys2Proof

/-- A 36-bit word, the addressing unit (00 Terms). -/
abbrev Word := BitVec 36

/-- A double: 72 bits, low word at the lower address (R24). -/
abbrev Dbl := BitVec 72

/-- A stored nonet: nine data bits in 13..5 and the check field in 4..0 (R312). -/
abbrev Stored := BitVec 14

/-- An octet; it exists only at the host and MRAM boundaries (00 Terms). -/
abbrev Octet := BitVec 8

/-- Four words, the bank access unit (00 Terms). -/
structure Quad where
  w0 : Word := 0
  w1 : Word := 0
  w2 : Word := 0
  w3 : Word := 0
deriving DecidableEq, Repr

/-- A sparse table: keys strictly rising, no entry equal to what an unlisted key reads as. -/
abbrev Tab (α : Type) := List (Nat × α)

end Sys2Proof
end

