-- ==== Sys2Proof/Syntax.lean ====
section
/-! DEFINITION. The commands of the block: one constructor of `Instr` for each row of spec/opcode_table.json, with its operands.
An instruction of a lathe core carries its thread and every field of its word that its opcode and function do not fix (R195),
reserved fields included, so that a nonzero reserved field can be commanded and is judged by the meaning (R196). -/
namespace Sys2Proof

/-- A thread of a lathe core (R9, R10). -/
structure Th where
  l : Fin 16
  t : Fin 8
deriving DecidableEq, Repr

/-- The fields of format T beside OP and FUNC (R195). -/
structure TFld where
  rd : BitVec 5 := 0
  ra : BitVec 5 := 0
  rb : BitVec 5 := 0
  mod : BitVec 3 := 0
  form : BitVec 3 := 0
deriving DecidableEq, Repr

/-- The fields of format I beside OP (R195). -/
structure IFld where
  rd : BitVec 5 := 0
  ra : BitVec 5 := 0
  imm : BitVec 18 := 0
deriving DecidableEq, Repr

/-- The fields of a vector-issue word beside bits 35..34 (R113); `rsv` is the reserved field 2..0. -/
structure VFld where
  vfunc : BitVec 6 := 0
  dw : BitVec 4 := 0
  da : BitVec 4 := 0
  db : BitVec 4 := 0
  dc : BitVec 4 := 0
  sp0 : BitVec 3 := 0
  scnt : BitVec 3 := 0
  rm : BitVec 3 := 0
  rsv : BitVec 3 := 0
deriving DecidableEq, Repr

/-- A master of the fabric with its ID (R345). Link 6 of WOVAS is the local service of R19. -/
inductive Master where
  | core (th : Th)
  | stream (s : Fin 128)
  | dma (c : Fin 8)
  | wovas (k : Fin 7)
  | head
  | tail
  | test
  | scrub
  | pciein (fn : Fin 16)
  | debugPort
deriving DecidableEq, Repr

/-- What an untimed load brings back from a target outside the model (host window, array window): each word with its poison
mark, an error, or for the host the completion timeout or a completion that fails its ECRC and is discarded (R442, R444, R458, R464). A bank,
scratchpad or register load ignores it. -/
inductive LoadResp where
  | words (ws : List (Word × Bool))
  | error
  | timeout
  | ecrc
deriving DecidableEq, Repr

/-- A requester at a bank port, in the order of R50. -/
inductive Requester where
  | writer
  | readStream (i : Fin 3)
  | remote (m : Master)
  | scrubber
deriving DecidableEq, Repr

/-- A request for one quad at a bank port (R42, R54, R55). -/
structure PortReq where
  who : Requester
  row : BitVec 14 := 0
  inst : BitVec 4 := 0
  epoch : BitVec 9 := 0
  data : Quad := {}
  mask : BitVec 16 := 0
deriving DecidableEq, Repr

/-- The accesses of one BANK_ACCESS command: the next element of the group that runs in a spindle, at every bank its streams
touch; or one bank cycle of one bank, with the requests presented at its two ports. -/
inductive BankOp where
  | element (s : Fin 128)
  | cycle (n : Fin 1024) (reads writes : List PortReq)
deriving DecidableEq, Repr

/-- A memory region of the scrubber (R319). -/
inductive Region where
  | banks | scratch | hsram
deriving DecidableEq, Repr

/-- A target port of the fabric (R346, R349). -/
inductive Target where
  | bank (n : Fin 1024)
  | scratch (l : Fin 16)
  | hsram | hsrom | regs | mram | staging | array | host
deriving DecidableEq, Repr

/-- How the host completes a read request: with data, an error, or not within the completion timeout; a completion that fails its ECRC is
discarded (R442, R443). -/
inductive HostCpl where
  | data (octets : List Octet) (ep : Bool)
  | unsupported
  | aborted
  | timeout
  | ecrc
deriving DecidableEq, Repr

/-- A burst waiting at a target arbiter (R347): its master, whether a table walk of a core presents it (R348), its first word
address, and for a write the quads with their nonet masks. A read names only how many quads. -/
structure Burst where
  m : Master
  walk : Bool := false
  addr : BitVec 34
  write : Bool := false
  inst : BitVec 4 := 0
  epoch : BitVec 9 := 0
  quads : Nat := 1
  data : List (Quad × BitVec 16) := []
  back : List HostCpl := []
deriving DecidableEq, Repr

/-- A failing cell found by a March run: bank, quad row and nonet column 0 to 15 (R325, R331). -/
structure CellFail where
  bank : Fin 1024
  row : BitVec 14
  col : Fin 16
deriving DecidableEq, Repr

/-- A tamper sensor in the bit order of R406. -/
inductive Sensor where
  | mesh | xmesh | glitch | tempt | light | bond
deriving DecidableEq, Repr

/-- A command slot of a function's window: function, mailbox, slot (R416). -/
structure SlotRef where
  i : Fin 16
  m : Fin 4
  k : Fin 64
deriving DecidableEq, Repr

/-- A TLP of the host as it arrives: whole, with EP set, or failing its ECRC (R442). -/
inductive TlpMark where
  | good
  | poisoned
  | ecrc
deriving DecidableEq, Repr

/-- A request from another device, as it arrives at the Wovas engine (R462): its target, its requester's device, class and ID, and the tag that its
answer names. -/
structure RemoteReq where
  dest : BitVec 6
  dev : BitVec 6
  cl : BitVec 4
  id : BitVec 7
  tag : Nat
  inst : BitVec 4
  epoch : BitVec 9
  inc : BitVec 8
  addr : BitVec 26
  write : Bool
  data : Quad := {}
  mask : BitVec 16 := 0
  poison : BitVec 16 := 0
deriving DecidableEq, Repr

/-- A leaf digest that another device's spindles formed, as its headstock message brings it: the leaf's words and poisoned elements, and the
digest (R380, R470). -/
structure AwayLeaf where
  words : Nat
  pcnt : Nat
  digest : List Octet
deriving DecidableEq, Repr

/-- A leaf as a digest message names it: its number and, where spindles of another device formed it, that device and what it sends (R380, R470). -/
structure LeafRef where
  leaf : Nat
  away : Option (BitVec 6 × AwayLeaf) := none
deriving DecidableEq, Repr

/-- A read TLP of the host: the octets that it asks for, and whether it fails its ECRC (R438, R439, R442). -/
structure HostRead where
  size : Nat
  ecrc : Bool := false
deriving DecidableEq, Repr

/-- The data of a configuration request, and whether the TLP fails its ECRC (R442, R448). -/
structure ConfigTlp where
  value : BitVec 32
  ecrc : Bool := false
deriving DecidableEq, Repr

/-- What a link-state message says of its link, and whether it goes down by a notice (R460, R472). -/
structure LinkNews where
  up : Bool
  notice : Bool := false
deriving DecidableEq, Repr

/-- Where a reply goes: the requester's device and the tag of its operation (R462, R463). -/
structure ReplyTo where
  dest : BitVec 6
  tag : Nat
deriving DecidableEq, Repr

/-- A report of barrier arrivals: the device that sends it and the one whose lathes it names (R467, R468). -/
structure ReportFrom where
  dev : BitVec 6
  about : BitVec 6
deriving DecidableEq, Repr

/-- An epoch message's sender, and whether it asks the root for an advance in place of acknowledging one (R469). -/
structure EpochFrom where
  dev : BitVec 6
  ask : Bool := false
deriving DecidableEq, Repr

/-- What comes back for a remote operation (R462, R463, R471): the quad with the poison marks of its 16 nonets, an acknowledgement, or a
refusal. -/
inductive RemoteResult where
  | data (q : Quad) (poison : BitVec 16)
  | ack
  | refused
  | targetReset
  | linkDown
deriving DecidableEq, Repr

/-- A completion entry's fields (R421); `fwd` is the number of the forwarding that an entry of another device answers (R465, R466). -/
structure Entry where
  jseq : BitVec 64 := 0
  tag : BitVec 16 := 0
  mbx : Fin 4 := 0
  slot : Fin 64 := 0
  status : BitVec 16 := 0
  kind : BitVec 2 := 0
  qpos : BitVec 8 := 0
  result0 : BitVec 64 := 0
  result1 : BitVec 64 := 0
  fwd : Nat := 0
deriving DecidableEq, Repr

/-- An input slot of a seal context as MIGRATE hands it to another device: its copied range and its root (R387, R470). -/
structure MovedIn where
  slot : Fin 16
  first : Nat
  words : Nat
  pcnt : Nat
  root : List Octet
deriving DecidableEq, Repr

/-- An output slot so handed on: its TYPE, its streams and sealed words, and the saved states of its stopped groups by their keys and r_k (R386, R470). -/
structure MovedOut where
  slot : Fin 16
  typ : BitVec 4
  broken : Bool
  spans : Tab Nat
  words : Tab (Option Word)
  stopped : List (Nat × List Nat)
deriving DecidableEq, Repr

/-- A seal context so handed on: it stays on its device, and the other one judges by what it is given here (R470). -/
structure MovedCtx where
  ctx : BitVec 8
  ins : List MovedIn
  outs : List MovedOut
deriving DecidableEq, Repr

/-- A job so handed on: its new lathes, those still running, its status so far, and the context it names (R426, R470). -/
structure MovedJob where
  lathes : BitVec 16
  left : BitVec 16
  status : Word
  ctx : BitVec 8
  sealed : Bool
deriving DecidableEq, Repr

/-- What the headstock of a device sends to that of another beside entries: a command, with the number of its forwarding and the channel of the root that
is kept for its transfer; the trigger of its armed transfer; a placement that MIGRATE moves, before its quads, with the scratchpads and the SKEW of its
groups, and after them; the stop of a moved job; and the end of a context that it names (R465, R470). -/
inductive Cargo where
  | command (num : Nat) (chan : Option (Fin 8))
  | start
  | place (lathes : BitVec 16) (skews : List (Nat × Bool)) (pads : List (Fin 16 × Tab Stored))
  | placed (home : BitVec 6) (job : MovedJob) (locked : List Nat) (ctxs : List MovedCtx)
  | stop (code : Nat)
  | drop (ctx : BitVec 8)
deriving DecidableEq, Repr

/-- A forwarded message: the copy of the command slot that it carries, and what it asks for (R465). -/
structure Parcel where
  copy : List Octet
  cargo : Cargo
deriving DecidableEq, Repr

/-- An entry that another device sends to the root, with the octets that it delivers, each with its poison (R465). -/
structure SentEntry where
  entry : Entry
  data : List (Octet × Bool) := []
deriving DecidableEq, Repr

/-- What a checker self-test failure can name (R324). -/
inductive ChkFail where
  | bankDecoder (n : Fin 1024)
  | icache (l : Fin 16)
  | dcache (l : Fin 16)
  | scratch (l : Fin 16)
  | hsram
  | staging
deriving DecidableEq, Repr

/-- A failing nonet that a background tester finds, by its index in the tester's memory (R329). -/
structure MemFail where
  tester : Fin 18
  nonet : BitVec 22
deriving DecidableEq, Repr

/-- What the self-tests of a boot find in the silicon: checkers, background testers over a full pass, March runs (R324, R325, R488). -/
structure BootFindings where
  checks : List ChkFail := []
  mems : List MemFail := []
  cells : List CellFail := []
deriving DecidableEq, Repr

/-- What wakes the device from Rest (R520, R525). -/
inductive WakeSrc where
  | doorbell | tlp | eventPin (p : Fin 16) | tamper
deriving DecidableEq, Repr

/-- The token of AUTH (R531). -/
structure Token where
  pub : List Octet
  scope : BitVec 16
  expiry : BitVec 32
  sig : List Octet
deriving DecidableEq, Repr

/-- Why a debug request frame is answered and not performed (R528, R529). -/
inductive BadFrame where
  | crc | tag | type
deriving DecidableEq, Repr

/-- A register selector of RDREG and WRREG (R535). -/
abbrev RegSel := BitVec 16

/-- An MRAM access that exceeds its limit, by its master (R400). -/
inductive MramOp where
  | journalWrite
  | checkpointWrite
  | commandWrite (r : SlotRef)
  | headOther
  | tailOther
deriving DecidableEq, Repr

/-- The commands of the block, in the order of spec/opcode_table.json. -/
inductive Instr where
  -- 08 integer register operations (R199)
  | add (th : Th) (f : TFld)
  | sub (th : Th) (f : TFld)
  | andG (th : Th) (f : TFld)
  | orG (th : Th) (f : TFld)
  | xorG (th : Th) (f : TFld)
  | andn (th : Th) (f : TFld)
  | shl (th : Th) (f : TFld)
  | shr (th : Th) (f : TFld)
  | shra (th : Th) (f : TFld)
  | rol (th : Th) (f : TFld)
  | slt (th : Th) (f : TFld)
  | sltu (th : Th) (f : TFld)
  | seq (th : Th) (f : TFld)
  | minG (th : Th) (f : TFld)
  | maxG (th : Th) (f : TFld)
  | minu (th : Th) (f : TFld)
  | maxu (th : Th) (f : TFld)
  | clz (th : Th) (f : TFld)
  | popc (th : Th) (f : TFld)
  -- 08 immediate operations (R200, R201)
  | addi (th : Th) (f : IFld)
  | andi (th : Th) (f : IFld)
  | ori (th : Th) (f : IFld)
  | xori (th : Th) (f : IFld)
  | slti (th : Th) (f : IFld)
  | sltiu (th : Th) (f : IFld)
  | shifti (th : Th) (f : IFld)
  | lui (th : Th) (f : IFld)
  -- 08 multiply and divide (R202 to R206)
  | mul (th : Th) (f : TFld)
  | mulu (th : Th) (f : TFld)
  | madd (th : Th) (f : TFld)
  | maddu (th : Th) (f : TFld)
  | productWrite (th : Th)
  | div (th : Th) (f : TFld)
  | divu (th : Th) (f : TFld)
  | rem (th : Th) (f : TFld)
  | remu (th : Th) (f : TFld)
  | divideDone (l : Fin 16)
  -- 08 loads, stores and descriptors (R207 to R209)
  | lw (th : Th) (f : IFld)
  | ln (th : Th) (f : IFld)
  | lfs (th : Th) (f : IFld)
  | lf (th : Th) (f : IFld)
  | sw (th : Th) (f : IFld)
  | sn (th : Th) (f : IFld)
  | sfs (th : Th) (f : IFld)
  | sf (th : Th) (f : IFld)
  | swm (th : Th) (f : IFld)
  | ldd (th : Th) (f : IFld)
  | stdd (th : Th) (f : IFld)
  | mtd (th : Th) (f : IFld)
  | mfd (th : Th) (f : IFld)
  | loadComplete (th : Th) (resp : LoadResp)
  -- 08 control transfer (R210, R211)
  | beq (th : Th) (f : IFld)
  | bne (th : Th) (f : IFld)
  | blt (th : Th) (f : IFld)
  | bge (th : Th) (f : IFld)
  | bltu (th : Th) (f : IFld)
  | bgeu (th : Th) (f : IFld)
  | dbnz (th : Th) (f : IFld)
  | jal (th : Th) (off : BitVec 28)
  | j (th : Th) (off : BitVec 28)
  | jalr (th : Th) (f : IFld)
  -- 08, 10 floating point (R212 to R215, R241 to R250)
  | fadd (th : Th) (f : TFld)
  | fsub (th : Th) (f : TFld)
  | fmul (th : Th) (f : TFld)
  | fma (th : Th) (f : TFld)
  | fms (th : Th) (f : TFld)
  | fnma (th : Th) (f : TFld)
  | fdiv (th : Th) (f : TFld)
  | fsqrt (th : Th) (f : TFld)
  | fmin (th : Th) (f : TFld)
  | fmax (th : Th) (f : TFld)
  | fabs (th : Th) (f : TFld)
  | fneg (th : Th) (f : TFld)
  | fmov (th : Th) (f : TFld)
  | frint (th : Th) (f : TFld)
  | fcmpeq (th : Th) (f : TFld)
  | fcmplt (th : Th) (f : TFld)
  | fcmple (th : Th) (f : TFld)
  | fcmpun (th : Th) (f : TFld)
  | fcvtsd (th : Th) (f : TFld)
  | fcvtds (th : Th) (f : TFld)
  | fcvtis (th : Th) (f : TFld)
  | fcvtid (th : Th) (f : TFld)
  | fcvtsi (th : Th) (f : TFld)
  | fcvtdi (th : Th) (f : TFld)
  | fmvgfL (th : Th) (f : TFld)
  | fmvgfH (th : Th) (f : TFld)
  | fmvfgL (th : Th) (f : TFld)
  | fmvfgH (th : Th) (f : TFld)
  | fpCompletion (th : Th)
  | fptrap (th : Th)
  -- 08 system, vector control, fences (R216)
  | eret (th : Th) (f : TFld)
  | wait (th : Th) (f : TFld)
  | waitWake (th : Th)
  | fbar (th : Th) (f : TFld)
  | vfence (th : Th) (f : TFld)
  | fenceR (th : Th) (f : TFld)
  | fenceW (th : Th) (f : TFld)
  | fenceRW (th : Th) (f : TFld)
  | tlbsync (th : Th) (f : TFld)
  | afence (th : Th) (f : TFld)
  | fenceComplete (th : Th)
  | wrpkr (th : Th) (f : TFld)
  | setvl (th : Th) (f : TFld)
  | setvli (th : Th) (f : IFld)
  | setsvl (th : Th) (f : TFld)
  | vchain (th : Th) (f : TFld)
  | vsusp (th : Th) (f : TFld)
  | vresume (th : Th) (f : TFld)
  | tlbinv (th : Th) (f : TFld)
  | tlbinvall (th : Th) (f : TFld)
  | mfsr (th : Th) (f : IFld)
  | mtsr (th : Th) (f : IFld)
  | syscall (th : Th) (f : IFld)
  | vectorIssue (th : Th) (v : VFld)
  -- 11, 09 events of a thread and its core
  | interruptEntry (th : Th)
  | upcall (th : Th)
  | mwdog (th : Th)
  | lthCorecfgWrite (m : Master) (l : Fin 16) (w : Word)
  | corecfgDrainEnd (l : Fin 16)
  -- 05 groups
  | groupStart (s : Fin 128)
  | groupEnd (s : Fin 128)
  | spnCtlSusp (m : Master) (s : Fin 128)
  | spnCtlAbort (m : Master) (s : Fin 128)
  -- 03 banks
  | bankAccess (op : BankOp)
  | starvationPromotion (n : Fin 1024) (write : Bool) (req : PortReq) (others : List PortReq)
  | bnkOwnWrite (m : Master) (n : Fin 1024) (w : Word)
  | handoverDrainEnd (n : Fin 1024)
  | bankWatchdog (n : Fin 1024) (outstanding : List Master)
  | bnkCfgWrite (m : Master) (n : Fin 1024) (w : Word)
  | skewDrainEnd (s : Fin 128)
  | lock (n : Fin 1024)
  | release (n : Fin 1024)
  | sealLockDrainEnd (n : Fin 1024)
  -- 14 scrubber and tests
  | scrubRead (r : Region)
  | scrubWriteback (r : Region)
  | marchGo (m : Master) (w : Word)
  | marchGroupDone (fails : List CellFail)
  | bgTestRegion (tester : Fin 18) (fails : List (Fin 256))
  | elogPop (m : Master)
  -- 15 fabric
  | fabricGrant (tgt : Target) (waiting : List Burst)
  | fabricTimeout (m : Master) (addr : BitVec 34) (write : Bool)
  | lateAck
  -- 16 event fabric
  | heldEventPass (c : Fin 128)
  | rememberedTrigger (n : BitVec 10)
  | evfFire (m : Master) (w : Word)
  | lutFilterExpiry (n : Fin 32)
  | timer (t : Fin 16)
  | eventPin (p : Fin 16) (level : Bool)
  | pinPulseEnd (p : Fin 16)
  | pps (level : Bool)
  | ppsTimeout
  | temp (celsius : Int)
  | overtemp (celsius : Int)
  -- 17 tailstock
  | leafDigest (ctx : BitVec 8) (slot : Fin 16) (leaf : LeafRef) (epoch : BitVec 9)
  | spongeState (ctx : BitVec 8) (slot : Fin 16) (epoch : BitVec 9) (away : Option (BitVec 6))
  | signatureDone
  | journalWrite
  | checkpointWritten
  | mramTimeout (op : MramOp)
  | logTamper (s : Sensor)
  | lockdownTamper (s : Sensor)
  | wrapKeyZeroise
  | backupTamper (s : Sensor)
  | bondTest (broken : Bool)
  -- 18 headstock
  | doorbell (i : Fin 16) (m : Fin 4) (bits : BitVec 64)
  | commandAdmission (r : SlotRef)
  | delayedReevaluation
  | ringcfg (i : Fin 16) (v : BitVec 32)
  | ringhead (i : Fin 16) (v : BitVec 32)
  | commandDeadline (r : SlotRef)
  | nop (r : SlotRef)
  | instcfg (r : SlotRef)
  | grant (r : SlotRef)
  | grantRevoke (r : SlotRef)
  | instreset (r : SlotRef)
  | query (r : SlotRef)
  | abort (r : SlotRef)
  | dmain (r : SlotRef)
  | dmaout (r : SlotRef)
  | dmaReadCompletion (c : Fin 8) (cpl : HostCpl)
  | dmaTransferDone (c : Fin 8)
  | run (r : SlotRef)
  | migrate (r : SlotRef)
  | sealopen (r : SlotRef)
  | sealslot (r : SlotRef)
  | sealclose (r : SlotRef)
  | recfetch (r : SlotRef)
  | jnlread (r : SlotRef)
  | jnldrain (r : SlotRef)
  | certread (r : SlotRef)
  | timeset (r : SlotRef)
  | modeset (r : SlotRef)
  | updload (r : SlotRef) (cpl : HostCpl)
  | updverify (r : SlotRef)
  | updactivate (r : SlotRef)
  | updconfirm (r : SlotRef)
  | flr (fn : Fin 16)
  | instanceZeroing (i : Fin 16)
  | zeroingDone (i : Fin 16)
  -- 19 PCI Express
  | hostBar0Read (fn : Fin 16) (off : BitVec 20) (ask : HostRead)
  | hostBar0Write (fn : Fin 16) (off : BitVec 20) (octets : List Octet) (mark : TlpMark)
  | hostBar2Read (off : BitVec 28) (ask : HostRead)
  | hostBar2Write (off : BitVec 28) (octets : List Octet) (mark : TlpMark)
  | msixUnmask (fn : Fin 16) (vec : Fin 64)
  | completionTimeout (c : Fin 8)
  | dataLinkDown
  | pcieLinkTraining (speed : BitVec 3) (width : BitVec 5)
  -- 20 Wovas
  | wovasLinkTrained (k : Fin 6) (lanes : Fin 5) (nbr : BitVec 6) (nbrLink : BitVec 3) (inc : BitVec 8)
  | wovasLinkDown (k : Fin 6)
  | linkIdleTimeout (k : Fin 6)
  | linkStateMessage (dev : BitVec 6) (k : Fin 6) (news : LinkNews)
  | downNotice (k : Fin 6)
  | remoteRequest (k : Fin 7) (q : RemoteReq)
  | remoteReply (addr : ReplyTo) (inc : BitVec 8) (res : RemoteResult)
  | remoteTimeout (tag : Nat)
  | forwardedCommand (r : SlotRef) (parcel : Parcel) (arrival : BitVec 72)
  | forwardedEntry (i : Fin 16) (dev : BitVec 6) (sent : SentEntry)
  | barrierArrival (i : Fin 16) (report : ReportFrom) (lathes gone : BitVec 16)
  | barrierRelease (i : Fin 16) (broken : Bool)
  | epochMessage (i : Fin 16) (epoch : BitVec 9)
  -- 21, 22 resets, boot, power
  | por
  | brownout
  | backupSupplyRise
  | pin (ticks : Nat)
  | perst (asserted : Bool)
  | hotrst
  | hswdog
  | hslock
  | tsfault
  | boottmo
  | update
  | swsys (m : Master)
  | swcore (m : Master)
  | swlathe (m : Master) (l : Fin 16)
  | lockup (l : Fin 16)
  | boot (found : BootFindings)
  | confirm (m : Master)
  | kick (m : Master)
  | wake (src : WakeSrc)
  | jnlHeadlRead (m : Master) (drained : Bool)
  -- 23 debug port
  | hello
  | chal
  | auth (tok : Token)
  | halt (l : Fin 16) (mask : BitVec 8)
  | haltTakesEffect (th : Th)
  | resume (l : Fin 16) (mask : BitVec 8)
  | step (th : Th)
  | rdreg (th : Th) (sel : RegSel)
  | wrreg (th : Th) (sel : RegSel) (value : List Word)
  | exec (th : Th) (w : Word)
  | rdcsr (addr : Word)
  | wrcsr (addr : Word) (w : Word)
  | resetreq (level : BitVec 8)
  | close
  | frameTimeout
  | sessionExpiry
  -- the rest of the table
  | registerWrite (m : Master) (addr : BitVec 34) (mask : BitVec 4) (w : Word)
  | backupSupplyLoss
  | tamperConditionEnd (s : Sensor)
  | headstockLockup
  | instructionFetchComplete (th : Th)
  | lockBindingHashDone (ctx : BitVec 8) (slot : Fin 16)
  | copiedRangeRoot (ctx : BitVec 8) (slot : Fin 16) (first : BitVec 34) (root : List Octet)
  | epochAcknowledgement (i : Fin 16) (sender : EpochFrom)
  | incarnationAnnouncement (k : Fin 6) (inc : BitVec 8)
  | framingError
  | brk
  | badRequestFrame (why : BadFrame)
  | configurationRequest (fn : Fin 16) (write : Bool) (reg : BitVec 12) (tlp : ConfigTlp)
  | backgroundSlotCheck
deriving DecidableEq, Repr

end Sys2Proof
end

