-- ==== Sys2Proof/Decode.lean ====
section
/-! DEFINITION. The command that a word of the opcode table's bits spells. No row of spec/opcode_table.json gives a bit, so no word
spells a command; the words of lathe-core instructions, which the manual does lay out (R195), are read in Machine/Isa.lean. -/
namespace Sys2Proof

/-- The command of a word in the table's numbering: none, since every row's list of bit fields is empty. (DESIGN CHOICE: log entry 3) -/
def decodeTableWord (_nbits _w : Nat) : Option Instr := none

end Sys2Proof
end

