-- ==== Sys2Proof/Config.lean ====
section
/-! DEFINITION. The values the manual leaves open: opaque constants with no body, applied to the model's counter `State.free`
or to the operands they depend on. Nothing can be proved of their values, so a claim holds whatever they are. -/
namespace Sys2Proof.Config

/-- A choice between two permitted outcomes (R91, R110: whether the readers or the writer of a spindle goes next; R293: the old or the new
translation), or an undefined level (R365). (DESIGN CHOICE: log entries 14, 15, 21) -/
opaque freeBool : Nat → Bool

/-- A number out of a range the manual leaves open, such as the victim of a cache, TLB or predictor replacement (R225, R227, R288) or the slots
that pass empty over a tick (R220). (DESIGN CHOICE: log entries 10, 13, 16) -/
opaque freeNat : Nat → Nat

/-- A word whose value the manual does not state (R8). -/
opaque freeWord : Nat → Word

/-- A 16-octet challenge nonce (R531). -/
opaque freeNonce : Nat → List Octet

/-- An ephemeral P-256 public key of the device, 65 octets (R531). -/
opaque freePublicKey : Nat → List Octet

/-- The ECDH shared secret of the ephemeral key drawn at a counter value with the debugger's public key (R531). -/
opaque sharedSecret : Nat → List Octet → List Octet

/-- The device's private key, which never leaves the package: one less than it, before it is brought into its range (R391, R392). -/
opaque deviceKey : Nat

/-- The device certificate and the endorsement certificate (R392), by the selector of CERTREAD. -/
opaque certificate : Bool → List Octet

/-- Whether the signature that ends a firmware image verifies under the firmware key (R493, R496). -/
opaque firmwareSignatureOk : List Octet → Bool

/-- The signature that the debug authority makes of an octet string (R531). -/
opaque authoritySignature : List Octet → List Octet

/-- Whether a signature that the authority did not make so verifies under its key: the signed octets and the signature. -/
opaque otherSignatureOk : List Octet → List Octet → Bool

/-- Whether a debug token's signature verifies under the debug authority key (R531): what the authority signs does. -/
def tokenSignatureOk (octets sig : List Octet) : Bool := sig = authoritySignature octets || otherSignatureOk octets sig

/-- What an entry reads as that the ring has overwritten between a JNLREAD's admission and its run (R426). -/
opaque overwrittenEntry : Nat → List Octet

/-- The lathe monitor's version, of which the manual does not say where the firmware image holds it (R389). -/
opaque monitorVersion : List (Nat × Octet) → BitVec 32

/-- The lathes in service of an instance on another device, which that device's own configuration holds (R467): device, instance. (DESIGN CHOICE: log entry 58) -/
opaque remoteLathes : Nat → Nat → BitVec 16

/-- Whether an instance on another device holds a bank there by GRANT: device, instance, bank (R470). (DESIGN CHOICE: log entry 58) -/
opaque remoteBanks : Nat → Nat → Nat → Bool

/-- The words that lie between one capability structure of configuration space and the next, which the manual does not place (R434, R435). -/
opaque lowGap : Nat → Fin 8
opaque extGap : Nat → Fin 8

/-- Offsets of the capability structures: power management, PCI Express and MSI-X; then advanced error reporting, SR-IOV, L1 PM substates and, from
the last, those that the rates of R434 need. (PRESUMED and DESIGN CHOICE: log entry 47) -/
def pmAt : Nat := 0x40 + 4 * (lowGap 0).val
def pcieAt : Nat := pmAt + 8 + 4 * (lowGap 1).val
def msixAt : Nat := pcieAt + 60 + 4 * (lowGap 2).val
def aerAt : Nat := 0x100
def sriovAt : Nat := aerAt + 72 + 4 * (extGap 0).val
def l1At : Nat := sriovAt + 64 + 4 * (extGap 1).val
def rateAt : Nat := l1At + 16 + 4 * (extGap 2).val

/-- The offset of the word that holds MSI-X Message Control. (PRESUMED and DESIGN CHOICE: log entry 47) -/
def msixCap : BitVec 12 := BitVec.ofNat 12 msixAt
/-- The offset of the word that holds Device Control. (PRESUMED and DESIGN CHOICE: log entry 47) -/
def pcieControl : BitVec 12 := BitVec.ofNat 12 (pcieAt + 8)
/-- The offset of the word that holds SR-IOV Control. (PRESUMED and DESIGN CHOICE: log entry 47) -/
def sriovControl : BitVec 12 := BitVec.ofNat 12 (sriovAt + 8)

/-- What a configuration register reads that the manual does not describe, by function, register and the word last written (R434). (PRESUMED and DESIGN CHOICE: log entry 47) -/
opaque configWord : Nat → BitVec 12 → BitVec 32 → BitVec 32

/-- What the headstock writes into a lathe's scratchpad from a monitor image, by offset in the scratchpad, and the MENTRY it gives (R483
step 6): the manual does not state the image's form. -/
opaque monitorWords : List Octet → List (BitVec 18 × Word)
opaque monitorEntry : List Octet → Word

/-- What the headstock loads into its SRAM from a firmware image, by offset in the SRAM (R488 step 6). -/
opaque firmwareWords : List (Nat × Octet) → List (BitVec 20 × Word)

end Sys2Proof.Config
end

