-- ==== Sys2Proof/Machine/State.lean ====
section
/-! DEFINITION. The machine's state as plain data: every register, buffer, counter, mode and pin the manual gives the device,
the queue of waiting commands, the outputs it has sent, and the counter of the free values. Default field values are the reset
values; where the manual gives "—" the value is named in the assumption log (notes/assumptions/1.md). Also the closed lists of
faults and refusals. -/
namespace Sys2Proof.Machine

/-! ## 08 to 12: threads and lathe cores -/

/-- Privilege levels (R255). -/
inductive Level where
  | user | supervisor | machine
deriving DecidableEq, Repr

/-- Exception causes (R257). -/
inductive Cause where
  | illegal | priv | align | xlate | keyv | buserr | poison | syscall | fptrap | upframe
deriving DecidableEq, Repr

/-- A product on its way to PH:PL: its value and how many instructions of the thread still read the old one (R203). -/
structure Product where
  value : Dbl
  left : Nat
deriving DecidableEq, Repr

/-- A floating-point instruction that has issued and not completed (R250): the halves of F registers that it writes, by 2 r for the low half of
F[r] and 2 r + 1 for the high one (R245), its flags, and the slot of its core's clock by which it has completed at the latest; none for a
divide or square root, which completes when the core's stall ends (R226). -/
structure FpPend where
  fw : List (Nat × Word) := []
  gw : Option (BitVec 5 × Word) := none
  flags : BitVec 5 := 0
  due : Option Nat := none
deriving DecidableEq, Repr

/-- A translation context, as a thread holds it and as a group captures it (R276, R278). -/
structure Ctx where
  level : Level := .machine
  en : Bool := false
  gran : BitVec 2 := 0
  root : BitVec 27 := 0
  asid : BitVec 8 := 0
  pkr : Dbl := 0
deriving DecidableEq, Repr

/-- A member of a group: its instruction fields, the VL and the descriptors it captured (R74, R115). `dm` is the mask descriptor
that MREG of the destination names, captured with the others. -/
structure Member where
  v : VFld
  vl : Nat := 0
  dw : Quad := {}
  da : Quad := {}
  db : Quad := {}
  dc : Quad := {}
  dm : Quad := {}
deriving DecidableEq, Repr

/-- A group being collected under VCHAIN (R116, R117), and its members so far. -/
structure OpenGroup where
  want : Nat
  level : Level
  members : List Member := []
deriving DecidableEq, Repr

/-- SXCAUSE, SXCAUSE2 and MXCAUSE (R264). -/
structure CauseReg where
  int : Bool := false
  esc : Bool := false
  fromLevel : BitVec 2 := 0
  code : BitVec 6 := 0
deriving DecidableEq, Repr

/-- The registers of supervisor or machine level that entry and return use (R258, R271, R273). (DESIGN CHOICE: log entry 1) -/
structure LevelRegs where
  busy : Bool := false
  ie : Bool := false
  xpc : Word := 0
  pie : Bool := false
  plv : BitVec 2 := 0
  cause : CauseReg := {}
  info : Word := 0
  entry : Word := 0
  ip : BitVec 16 := 0
  ien : BitVec 16 := 0
  scr0 : Word := 0
  scr1 : Word := 0
deriving DecidableEq, Repr

/-- TFSR (R299). -/
structure Tfsr where
  valid : Bool := false
  reason : BitVec 4 := 0
  level : BitVec 3 := 0
  acc : BitVec 2 := 0
deriving DecidableEq, Repr

/-- The registers of a thread that its instructions may write while an access is outstanding, as they stood before the access issued: what an
exception of it puts back (R221, R258). (DEDUCED and DESIGN CHOICE: log entry 12) -/
structure Snap where
  g : Tab Word := []
  f : Tab Dbl := []
  d : Tab Quad := []
  ph : Word := 0
  pl : Word := 0
  vl : Word := 0
  svl : Word := 0
  pkr : Dbl := 0
  pc : Word := 0
  level : Level := .machine
  ften : BitVec 5 := 0
  fpend : BitVec 5 := 0
  fflags : BitVec 5 := 0
  fpOut : List FpPend := []
  trapReq : Bool := false
  inup : Bool := false
  uie : Bool := false
  uentry : Word := 0
  uee : BitVec 16 := 0
  usplo : Word := 0
  usphi : Word := 0
  s : LevelRegs := {}
  cause2 : CauseReg := {}
  m : LevelRegs := {}
  tctlEn : Bool := false
  gran : BitVec 2 := 0
  root : BitVec 27 := 0
  asid : BitVec 8 := 0
  tfsr : Tfsr := {}
  products : List Product := []
  tbh : Option Word := none
  openGrp : Option OpenGroup := none
  dead : List (Nat × Nat) := []
deriving DecidableEq, Repr

/-- Which access is outstanding, and where its result goes (R207, R221): a load, the frame read of ERET at user level (R270), an
instruction fetch from the array or host window, a store into the array window that awaits its acknowledgement (R300), or the frame
write of an upcall that does (R269). -/
inductive LoadKind where
  | lw (rd : BitVec 5)
  | ln (rd : BitVec 5) (j : BitVec 2)
  | lfs (rd : BitVec 5)
  | lf (rd : BitVec 5)
  | ldd (rd : BitVec 5)
  | frame
  | fetch
  | store
  | upframe (line : BitVec 6)
deriving DecidableEq, Repr

/-- An untimed access that has not completed (R221, R233): `num` numbers the accesses of its thread, `tag` is the remote operation that
serves it (R464), and `snap` the registers before it issued. -/
structure PendLoad where
  kind : LoadKind
  va : Word
  pa : Nat
  num : Nat := 0
  tag : Option Nat := none
  resp : Option LoadResp := none         -- what a remote device has answered (R463), or the bus error that a timeout delivered (R353)
  debug : Bool := false                  -- an access that EXEC of the debug port performs (R536)
  snap : Snap := {}
  ticks : Nat := 0                       -- for which its target has not acknowledged it (R353)
deriving DecidableEq, Repr

/-- What holds a thread at its instruction (R219, R304, R253, R254): `mem` is FENCE.R, FENCE.W or FENCE.RW, by whether it waits for earlier loads
and for earlier stores, and whether it invalidates the instruction cache too. -/
inductive Hold where
  | free
  | vfence (groups : List Nat)
  | fbar
  | mem (loads stores code : Bool)
  | tlbsync (tags : List Nat) (accs : List (Nat × Nat)) (elems : List (Nat × Nat × Nat))
  | afence (arrived : Bool) (groups : List Nat)
deriving DecidableEq, Repr

/-- One hardware thread: the registers of R192, R249, R271 and R295, and the state of its pipeline (R203, R219 to R224, R250). The number
of its first group after lathe reset is 0: R118 gives its counter no start value. (DESIGN CHOICE: log entries 1, 62) -/
structure Thread where
  g : Tab Word := []
  f : Tab Dbl := []
  d : Tab Quad := []
  ph : Word := 0
  pl : Word := 0
  vl : Word := 0
  svl : Word := 0
  pkr : Dbl := 0
  pc : Word := 0
  level : Level := .machine
  -- FCSR (R249, R250)
  ften : BitVec 5 := 0
  fpend : BitVec 5 := 0
  fflags : BitVec 5 := 0
  fpOut : List FpPend := []
  trapReq : Bool := false
  -- user level (R271, R272)
  inup : Bool := false
  uie : Bool := false
  uentry : Word := 0
  uep : BitVec 16 := 0
  uee : BitVec 16 := 0
  usplo : Word := 0
  usphi : Word := 0
  -- supervisor and machine level
  s : LevelRegs := {}
  cause2 : CauseReg := {}
  m : LevelRegs := {}
  mwdEn : Bool := false
  mwdCount : BitVec 30 := 0
  mwdRun : Bool := false                 -- the watchdog counts: it has not stopped at zero (R274)
  mwdAsk : Option Word := none           -- a write of MWDOG that the next tick captures (R15, R274)
  mwdJob : Bool := false                 -- MWDOG counts the remaining deadline of a RUN command (R428)
  -- translation (R295 to R299)
  tctlEn : Bool := false
  gran : BitVec 2 := 0
  root : BitVec 27 := 0
  asid : BitVec 8 := 0
  tfsr : Tfsr := {}
  -- pipeline
  products : List Product := []
  tbh : Option Word := none
  started : Bool := false
  fetched : List (Word × Word) := []     -- words fetched, with their addresses: the instruction at the PC and up to two after it (R224)
  checked : Bool := false                -- the fetch comparators have judged the instruction at the PC (R537)
  waiting : Bool := false
  hold : Hold := .free
  loads : List PendLoad := []            -- outstanding accesses, oldest first (R221)
  fencedAt : Option (Word × Bool) := none  -- an AFENCE that was interrupted after its lathe's arrival: its address, and whether the release has come (R467)
  fetchPend : Option PendLoad := none    -- an outstanding fetch from the array or host window (R227)
  accNum : Nat := 0                      -- number of the thread's next outstanding access
  dead : List (Nat × Nat) := []          -- parts of registers that an outstanding load is not to write, since a younger instruction has: its number, the part (R221)
  lat : Tab Nat := []                    -- by register: the slot from which the value that a load brought may be read (R221, R235)
  busy : Nat := 0                        -- the first slot in which the thread may issue again (R235, R246)
  askTicks : Nat := 0                    -- for which the access that its instruction makes has stalled (R353)
  -- groups (R116, R118, R304)
  groupNum : Word := 0
  openGrp : Option OpenGroup := none
  suspended : List Nat := []
  -- run control (R533)
  halted : Bool := false
  haltReq : Bool := false
deriving DecidableEq, Repr

/-- A TLB entry: one leaf translation, tagged with ASID and granule (R288). `bits` is log2 of the block size. -/
structure TlbEntry where
  asid : BitVec 8
  gran : BitVec 2
  vbase : Nat
  bits : Nat
  level : Nat
  pbase : Nat
  leafAddr : Nat
  key : BitVec 5
  sealWr : Bool
  u : Bool
  x : Bool
  w : Bool
  r : Bool
  d : Bool
deriving DecidableEq, Repr

/-- A cache line: one quad by its physical quad number, as sixteen stored nonets with their check bits (R227, R229). -/
structure CacheLine where
  quad : Nat
  cells : List Stored
deriving DecidableEq, Repr

/-- A divide, remainder or square root in progress (R206, R226): the thread, and what an integer one writes; a floating-point one is the
last of its thread's outstanding instructions. -/
structure DivPend where
  t : Fin 8
  gw : Option (BitVec 5 × Word) := none
deriving DecidableEq, Repr

/-- An entry of the branch predictor, tagged by thread and PC (R225): its target and its 2-bit counter. -/
structure PredEntry where
  t : Fin 8
  pc : Word
  target : Word
  count : BitVec 2
deriving DecidableEq, Repr

/-- LTH_VSAVEt and LTH_RSAVEt (R144, R190). -/
structure SaveArea where
  en : Bool := false
  offset : BitVec 18 := 0
deriving DecidableEq, Repr

/-- A debug comparator (R537, R541). -/
structure Comparator where
  en : Bool := false
  kind : BitVec 2 := 0
  data : Bool := false
  action : Bool := false
  tmask : BitVec 8 := 0
  value : Word := 0
deriving DecidableEq, Repr

/-- One lathe: the registers of its LTH block (R238, R239, R240, R275, R430, R144, R190), its issue state (R219 to R225, R232), its shared
stall, caches and TLB. No thread has issued after lathe reset: the order of R220 then begins at thread 0. (DESIGN CHOICE: log entry 10) -/
structure Lathe where
  det : Bool := false
  dual : Bool := true
  pred : Bool := true
  icoff : Bool := false
  dcoff : Bool := false
  ten : BitVec 8 := 0
  detact : Bool := false
  drain : Bool := false
  wturn : BitVec 16 := 0
  varcnt : BitVec 18 := 0
  slotcnt : Word := 0
  clock : Nat := 0                       -- the number of the next issue slot: since lathe reset, and in deterministic operation as R232 numbers it
  lastThr : Fin 8 := 7                   -- the thread that issued most recently (R220)
  pair : Option (Fin 8) := none          -- the thread whose second instruction still issues in the slot of its first (R222)
  predictor : List PredEntry := []
  lockValid : Bool := false
  lockThr : BitVec 3 := 0
  lockFrom : BitVec 2 := 0
  lockCode : BitVec 6 := 0
  lockPc : Word := 0
  epoch : BitVec 9 := 0
  vsave : Tab SaveArea := []
  rsave : Tab SaveArea := []
  stall : Option DivPend := none
  locked : Bool := false
  lockTicks : Nat := 0                   -- ticks since the core locked (R263)
  inSvc : Bool := true
  tlb : List TlbEntry := []
  icache : List CacheLine := []
  dcache : List CacheLine := []
  icBad : Bool := false
  dcBad : Bool := false
  -- the debug domain's registers of this lathe (R540)
  hor : Bool := false
  hit : Bool := false
  hitCmp : BitVec 3 := 0
  hitThr : BitVec 3 := 0
  cmps : Tab Comparator := []
deriving DecidableEq, Repr

/-! ## 03: banks -/

/-- Why a bank drains (R57, R60, R62, R46). -/
inductive Drain where
  | handover
  | sealLock
  | cancelled
  | skew
deriving DecidableEq, Repr

/-- BNK_FAULT (R67). -/
structure BankFault where
  wr : Bool := false
  mcl : BitVec 3 := 0
  mid : BitVec 7 := 0
  minst : BitVec 4 := 0
  row : BitVec 14 := 0
deriving DecidableEq, Repr

/-- One bank's BNK block (R64 to R70, R344) and the state of its ports (R51). `skew` and `skewNext` count in bank b = 0 only;
`granted` is the instance that holds the bank (R415); `pendRows` are the rows of its pending hard failures, each with the nonet column of its first (R333). -/
structure Bank where
  ownCl : BitVec 3 := 6
  ownId : BitVec 7 := 0
  inst : BitVec 4 := 0
  lend : BitVec 2 := 0
  lscope : BitVec 2 := 0
  epoch : BitVec 9 := 0
  sealed : Bool := false
  retired : Bool := false
  drain : Option Drain := none
  march : Bool := false
  heldLock : Bool := false
  horej : Bool := false
  nown : Bool := false
  wdog : Bool := false
  nownCnt : BitVec 18 := 0
  fault : BankFault := {}
  rd1 : BitVec 18 := 0
  rd2 : BitVec 18 := 0
  rmtr : BitVec 18 := 0
  rmtw : BitVec 18 := 0
  scrr : BitVec 18 := 0
  scrw : BitVec 18 := 0
  stallRmtR : Nat := 0
  stallRmtW : Nat := 0
  stallScrR : Nat := 0
  stallScrW : Nat := 0
  lastEp : BitVec 9 := 0
  staleCnt : BitVec 18 := 0
  skew : Bool := false
  skewNext : Bool := false
  rused : BitVec 6 := 0
  cused : BitVec 2 := 0
  pendRows : List (BitVec 14 × Fin 16) := []
  granted : Option (Fin 16) := some 0
  newEpoch : Option (BitVec 9) := none
  parkOld : Option Nat := none           -- during a handover: the master of the old owner, on which the remote port still parks (R349)
  drainTicks : Nat := 0                  -- ticks since the drain in progress began (R59)
deriving DecidableEq, Repr

/-! ## 04 to 07: spindles and groups -/

/-- One element or node value as it moves through a group: its bits (low 36 for 36-bit types), poison and activity (R121). -/
structure Elem where
  bits : Dbl := 0
  poison : Bool := false
  active : Bool := true
deriving DecidableEq, Repr

/-- A node of the canonical tree (R176): the positions it covers and its value, absent when no element of it is active. -/
structure Node where
  lo : Nat
  n : Nat
  val : Option Elem
deriving DecidableEq, Repr

/-- The partial state of a reduction or scan member (R181 to R188): the nodes not yet joined (floating-point sums), the fold
value and index (the other families), and where the current segment starts. -/
structure Acc where
  nodes : List Node := []
  fold : Option Elem := none
  index : Nat := 0
  segst : Nat := 0
deriving DecidableEq, Repr

/-- A failing check or fault: its code, the rank of its stream in the order of R100, and SIDX. -/
structure Fail where
  code : Nat
  rank : Nat
  sidx : Nat
deriving DecidableEq, Repr

/-- An element that the readers of a spindle have presented and its writer has not taken (R132, R303): what stands of it in each chain slot
(R121), the results for memory destinations (member, second destination, position, value), the fault that reading it met with its
address, and the members' state after it. -/
structure Front where
  slots : List (Nat × Elem) := []
  outs : List (Nat × Bool × Nat × Elem) := []
  fault : Option (Fail × Word) := none
  kflag : BitVec 30 := 0
  poisoned : Bool := false
  ones : List Nat := []
  accs : List Acc := []
  runs : List Acc := []
deriving DecidableEq, Repr

/-- What a remote answer belongs to: the quad's address, whether it is a write, and which of the element's requests of that kind it is. -/
structure RKey where
  pa : Nat
  write : Bool
  n : Nat
deriving DecidableEq, Repr

/-- A group's part in one spindle of its span (R102, R120, R121, R130, R132). -/
structure Part where
  first : Nat := 0
  last1 : Nat := 0                       -- one past the last element of the block
  next : Nat := 0                        -- the first element not yet written
  start : Nat := 0                       -- the first element that this run processes
  stop : Option Nat := none              -- where the readers stop, once fixed (R132)
  cause : BitVec 6 := 0                  -- the status of that stop (R134)
  sidx : BitVec 3 := 5
  fva : Word := 0
  kflag : BitVec 30 := 0
  pcnt : Nat := 0
  poisoned : Bool := false               -- a poisoned element was carried (DONEP)
  ones : List Nat := []                  -- by member: selected positions before element `next` (R161)
  accs : List Acc := []                  -- by member: state over the elements this spindle has finished (R188)
  runs : List Acc := []                  -- by member: that state joined to what lies before the block (R174)
  tables : List (List Word) := []        -- by member: the spindle's copy of its table (R168)
  ahead : List Front := []               -- elements presented from `next` on: the contents of the chain slots (R121, R132)
  remote : List (RKey × Option RemoteResult) := []  -- answers to remote requests; none is a timeout (R462, R464)
  bound : List (RKey × Word) := []       -- remote requests that have left, with their virtual addresses: their translations stand (R292, R293)
  faulted : Bool := false                -- the part ends with a fault at its stop (R102, R191)
  drainTicks : Nat := 0
  drained : Bool := false                -- the readers have stopped by request
  written : Bool := false                -- the reduction results have been written (R173)
  ended : Bool := false
deriving DecidableEq, Repr

/-- A group: what it captured at issue (R115, R278) and where it stands. -/
structure Group where
  th : Th
  num : Word := 0
  inst : BitVec 4 := 0
  epoch : BitVec 9 := 0
  ctx : Ctx := {}
  vl : Nat := 0
  sp0 : Nat := 0
  scnt : Nat := 0
  members : List Member := []
  dmix : Bool := false                   -- members captured different contents of one register (R137)
  resumed : Bool := false
  started : Bool := false
  sealKey : Nat := 0                     -- the group, in issue order, whose sealed words these are (R377)
  tb0 : BitVec 72 := 0                   -- the time of its start
  parts : List Part := []
  olds : List (Nat × Word × Bool) := []  -- words that the group has overwritten and may read once more, as they were (R303)
  reached : List (Nat × Nat) := []       -- bank groups checked for SKEWMIS: stream and group (R101, R103)
deriving DecidableEq, Repr

/-- One spindle: its STR and SPN blocks (R105 to R109, R139 to R143), its queue of groups and its stream TLB. -/
structure Spindle where
  valid : Bool := false
  code : BitVec 6 := 0
  sidx : BitVec 3 := 0
  seqno : BitVec 5 := 0
  elem : BitVec 21 := 0
  fva : Word := 0
  pcnt : BitVec 21 := 0
  refcnt : BitVec 18 := 0
  inSvc : Bool := true
  runSeq : BitVec 5 := 0
  runThr : BitVec 3 := 0
  xflag : BitVec 30 := 0
  xacc : BitVec 5 := 0
  drainTicks : BitVec 18 := 0
  queue : List Nat := []
  gate : Bool := false                   -- a start trigger has been delivered (R361)
  askTicks : Nat := 0                    -- for which an access of its streams through the fabric has stalled (R353)
  tlb : List TlbEntry := []
deriving DecidableEq, Repr

/-! ## 14, 15: scrubber, tests, fabric -/

/-- An entry of the error log (R336, R341). -/
structure ErrEntry where
  code : BitVec 6
  mem : BitVec 2 := 0
  nonet : BitVec 2 := 0
  syn : BitVec 5 := 0
  bank : BitVec 10 := 0
  pa : BitVec 34 := 0
deriving DecidableEq, Repr

/-- A March run in progress (R326). -/
structure March where
  first : Nat
  last : Nat
  pres : Bool
  repair : Bool
  group : Nat
  inst : Option (Fin 16) := none
deriving DecidableEq, Repr

/-- One region of the scrubber: its next quad, what it found in this and the last pass (nonets with a correctable error), and
the writes that wait for SCRUB_WRITEBACK: nonet key and the stored nonet to write (R319 to R323). -/
structure Walk where
  next : Nat := 0
  thisPass : List Nat := []
  lastPass : List Nat := []
  fixes : List (Nat × Stored) := []
  window : Nat := 0                      -- the 10 µs window of the latest read, and the reads issued in it (R319)
  reads : Nat := 0
deriving DecidableEq, Repr

/-- The SCR block (R338 to R343) with the state of the scrubber and the test engines. -/
structure Scr where
  logce : Bool := false
  bgint : BitVec 12 := 0
  rateBank : BitVec 12 := 0
  rateScratch : BitVec 12 := 0
  rateHsram : BitVec 12 := 0
  ce : BitVec 18 := 0
  ue : BitVec 18 := 0
  log : List ErrEntry := []
  ovf : Bool := false
  done : Bool := false
  rej : Bool := false
  fail : Bool := false
  cur : BitVec 10 := 0
  nfail : BitVec 18 := 0
  march : Option March := none
  walkBank : Walk := {}
  walkScratch : Walk := {}
  walkHsram : Walk := {}
  bgNext : Tab Nat := []
  bgLast : Tab (Option (BitVec 72)) := []  -- by tester: the time at which it started its last region (R329)
  memPend : Tab (List Nat) := []         -- quad rows of the pending hard failures of a tester's memory (R330, R334)
  memUsed : Tab Nat := []                -- spare rows in use of a tester's memory (R331)
deriving DecidableEq, Repr

/-- What the fabric last delivered to a master: the address and the words with their poison marks, or a bus error (R346). -/
structure Reply where
  addr : Nat := 0
  words : List (Word × Bool) := []
  error : Bool := false
deriving DecidableEq, Repr

/-- A granted burst that holds its path (R348): what is left of it, the address it began at, the words its master has received, and the
ticks since it moved a quad (R353). -/
structure Transfer where
  b : Burst
  start : Nat
  got : List (Word × Bool) := []
  ticks : Nat := 0
deriving DecidableEq, Repr

/-- The arbiter of one target port (R348): the master granted last, by class and ID, the run of first-order grants, whether requests were
left waiting behind the last grant, and the burst that holds the path. -/
structure Arbiter where
  last : Option Nat := none
  firstRun : Nat := 0
  waited : Bool := false
  held : Option Transfer := none
deriving DecidableEq, Repr

/-- The FAB block (R354 to R356), the arbiters, the parts of split bursts that wait at a target (R347), the bursts queued in the PCIe (0),
MRAM (1) and Wovas (2 + link) converters (R350), and the last reply to each master. -/
structure Fab where
  tmo : BitVec 16 := 100
  tmoAsk : Option (BitVec 16) := none    -- a write of TMO that the next tick captures (R15)
  valid : Bool := false
  kind : Bool := false
  wr : Bool := false
  mcl : BitVec 4 := 0
  mid : BitVec 7 := 0
  count : BitVec 18 := 0
  eaddr : BitVec 34 := 0
  late : BitVec 18 := 0
  arb : Tab Arbiter := []
  rest : List (Target × Burst × Nat) := []  -- with the ticks for which each has waited (R353)
  conv : Tab Nat := []
  mram : Tab (List Octet) := []          -- quads that bursts have written into MRAM, in PACK9 order, by quad address (R350)
  reply : Tab Reply := []
deriving DecidableEq, Repr

/-! ## 16: event fabric -/

/-- EVF_CHc (R371); `held` is the producer's held event (R359). -/
structure Channel where
  level : Bool := false
  merge : Bool := false
  edge : BitVec 2 := 0
  psel : BitVec 9 := 0
  held : Bool := false
deriving DecidableEq, Repr

/-- EVF_CIN (R373). -/
structure Cin where
  en : Bool := false
  mode : Bool := false
  cen : Bool := false
  ovr : Bool := false
  pend : Bool := false
  tmask : BitVec 8 := 0
  ccnt : BitVec 8 := 0
  cch : BitVec 7 := 0
  ch : BitVec 7 := 0
deriving DecidableEq, Repr

/-- A LUT cell (R363, R374): `stored` is its stored bit. -/
structure Lut where
  in0 : BitVec 7 := 0
  in1 : BitVec 7 := 0
  in2 : BitVec 7 := 0
  in3 : BitVec 7 := 0
  out : Bool := false
  stored : Bool := false
  ff : Bool := false
  clk : BitVec 7 := 0
  filt : BitVec 8 := 0
  tt : BitVec 16 := 0
  diff : Nat := 0                        -- ticks for which `stored` has differed from OUT (R364)
  filtAsk : Option (BitVec 8) := none    -- a write of FILT that the next tick captures (R15)
deriving DecidableEq, Repr

/-- An event-fabric timer (R366, R376). A start, a stop and a register write are captured at the next tick (R15): `ask` is the start (true)
or stop that waits for it, `perAsk` and `reloadAsk` what a write leaves. -/
structure Tmr where
  run : Bool := false
  per : Bool := false
  count : BitVec 30 := 0
  reload : BitVec 30 := 0
  ask : Option Bool := none
  perAsk : Option Bool := none
  reloadAsk : Option (BitVec 30) := none
deriving DecidableEq, Repr

/-- An event pin (R367, R368, R375). `level` is its level after the filter, `raw` the level at the ball, and `diff` the ticks for which they
have differed; `written` says software has written EVF_PINp since the reset; `drive` is the level an output drives, `pulsing` that a pulse
is being driven, and `left` the ticks that remain of it. `filtAsk` and `widthAsk` are what a write leaves for the next tick (R15). -/
structure Pin where
  level : Bool := false
  dir : Bool := false
  omode : BitVec 2 := 0
  filt : BitVec 8 := 0
  width : BitVec 16 := 0
  written : Bool := false
  drive : Bool := false
  pulsing : Bool := false
  raw : Bool := false
  diff : Nat := 0
  left : Nat := 0
  filtAsk : Option (BitVec 8) := none
  widthAsk : Option (BitVec 16) := none
deriving DecidableEq, Repr

/-- The EVF block (R370 to R376) and the levels of the device's own level producers (R358): `pps` after its filter, `ppsRaw` at the ball, and
`ppsDiff` the ticks for which they have differed (R369). -/
structure Evf where
  ch : Tab Channel := []
  cin : Tab Cin := []
  lut : Tab Lut := []
  tmr : Tab Tmr := []
  pins : Tab Pin := []
  cancnt : BitVec 18 := 0
  ovrcnt : BitVec 18 := 0
  pps : Bool := false
  ppsRaw : Bool := false
  ppsDiff : Nat := 0
  temp : Bool := false
  tamper : Bool := false
  jnlfill : Bool := false
deriving DecidableEq, Repr

/-! ## 17: tailstock and journal -/

/-- An input slot of a seal context (R387, R388). `hashing` says its lock binding has not been hashed yet. -/
structure InSlot where
  bound : Bool := false
  hashing : Bool := false
  broken : Bool := false
  first : Nat := 0
  words : Nat := 0
  pcnt : Nat := 0
  root : List Octet := []
  owner : Option SlotRef := none         -- the SEALSLOT command that waits for the binding
deriving DecidableEq, Repr

/-- The state that a stopped group leaves for an output slot (R386): its key, its r_k, and the span positions of the pool that it holds. -/
structure SavedSeal where
  key : Nat
  rks : List Nat
  held : Nat
deriving DecidableEq, Repr

/-- An output slot of a seal context (R383, R386): `spans` the length in words of each stream that the slot's groups write, by group in issue order;
`words` the sealed words by 2^22 · group + position in its stream; `digests` the leaf digests that have arrived, `away` those from other devices with
what they stand for; `stopped` the saved states of stopped groups. -/
structure OutSlot where
  typ : Option (BitVec 4) := none
  declared : Nat := 0
  th : Option Th := none
  spans : Tab Nat := []
  words : Tab (Option Word) := []
  digests : Tab (List Octet) := []
  away : Tab (Option AwayLeaf) := []
  pcnt : Nat := 0
  broken : Bool := false
  stopped : List SavedSeal := []
deriving DecidableEq, Repr

/-- The state of a seal context (R383). -/
inductive CtxState where
  | closed | opened | closing
deriving DecidableEq, Repr

/-- A seal context (R383, R389, R390). -/
structure SealCtx where
  st : CtxState := .closed
  inst : BitVec 4 := 0
  jseq : BitVec 64 := 0
  dig : List Octet := []
  epoch : BitVec 9 := 0
  tstart : BitVec 72 := 0
  tainted : Bool := false
  resumed : Bool := false
  migrated : Bool := false
  ins : Tab InSlot := []
  outs : Tab OutSlot := []
  away : List (BitVec 6) := []           -- devices to which MIGRATE has moved groups that name it (R470)
  home : Option (BitVec 6) := none       -- the device where it is open, of what stands here for a context of another device (R470)
  base : Nat := 0                        -- the first number in issue order for groups that name it here
deriving DecidableEq, Repr

/-- A seal record: its octets without the signature, and the signature once made (R389, R391). -/
structure SealRec where
  jseq : BitVec 64
  inst : BitVec 4
  body : List Octet
  sig : List Octet := []
deriving DecidableEq, Repr

/-- The tailstock: TS_STAT, TS_STALE, TS_PPS and TS_TAMP (R410 to R412), contexts, records, PPS discipline, tamper sequence. (DESIGN CHOICE: log entry 5) -/
structure Ts where
  lockdn : Bool := false
  wrapKey : Bool := true
  taint : Bool := false
  stale : BitVec 18 := 0
  locked : Bool := false
  set : Bool := false
  err : BitVec 11 := 0
  live : BitVec 6 := 0
  ldcause : BitVec 6 := 0
  logcnt : BitVec 16 := 0
  tsetSeq : BitVec 64 := 0
  ctxs : Tab SealCtx := []
  lockCnt : Tab Nat := []
  unsigned : List SealRec := []
  records : List SealRec := []
  closeWait : List (BitVec 8 × SlotRef) := []
  pool : Nat := 0                        -- span positions of saved state in use, of 64 (R386)
  ppsLast : Option (BitVec 72) := none
  ppsGood : Nat := 0
  discs : List (Int × Nat) := []         -- seconds under discipline: the ticks to omit over one, and those of it that have passed (R393)
  ticks : BitVec 72 := 0                 -- resonator ticks, undisciplined (R13)
  tbAsk : Option (BitVec 72) := none     -- a value of the timebase that the next tick captures (R15, R394)
  glitches : List (BitVec 72) := []
  backupLog : List Sensor := []
  pendingLock : Option Sensor := none    -- a lockdown sequence in progress (R408)
  lockTicks : Nat := 0                   -- ticks since its detection
  lockPend : Bool := false               -- a lockdown on backup power that no journal entry records yet (R409)
  halted : Bool := false                 -- the tailstock has halted on a control-path bus error (R318, R492)
deriving DecidableEq, Repr

/-- A journal entry (R396) without SEQ, TIME and LINK, which committing supplies. -/
structure JProto where
  kind : BitVec 8
  ref : BitVec 64 := 0
  inst : BitVec 8 := 0
  mbx : BitVec 8 := 0
  slot : BitVec 8 := 0
  code : BitVec 16 := 0
  dig : List Octet := []
deriving DecidableEq, Repr

/-- A committed journal entry (R396). -/
structure JEntry where
  body : JProto
  time : BitVec 72
  link : List Octet
deriving DecidableEq, Repr

/-- A checkpoint to be written: what it covers (R398). -/
structure Ckpt where
  seqno : Nat
  hash : List Octet
  time : BitVec 72
  mode : BitVec 4
deriving DecidableEq, Repr

/-- The journal: JNL block (R413, R414), ring, staging, chain, checkpoints and the redundant head (R395 to R403). (DESIGN CHOICE: log entries 5, 56) -/
structure Jnl where
  entries : Tab JEntry := []
  head : Nat := 0                        -- SEQ of the entry committed last
  written : Nat := 0                     -- SEQ of the entry written to MRAM last
  copyA : Nat := 0
  copyB : Nat := 0
  crcA : Bool := true
  crcB : Bool := true
  drained : Nat := 0
  hash : List Octet := []                -- H of `head`; empty stands for H_0 (R395)
  withheld : List (JProto × Option (SlotRef × Entry)) := []   -- with the FINISH entry that follows the commit (R422)
  frozen : Bool := false
  resolved : Bool := false               -- the head has been resolved since the last reset (R403, R482)
  ovwr : Bool := false
  thr : BitVec 20 := 720896
  ckptBusy : List Ckpt := []
  wrTicks : Nat := 0                     -- ticks since the MRAM write of the next staged entry was presented (R400)
  ckTicks : Nat := 0                     -- ticks since that of the oldest checkpoint was
  ckpts : Tab (List Octet) := []
  latchHead : Tab Word := []             -- by master and thread, with bit 35 set: the latched H word (R413)
  latchDrn : Tab Word := []
deriving DecidableEq, Repr

/-! ## 18, 19: headstock and host -/

/-- A job a RUN command started (R426): lathes it names, lathes still running, the first failing status, its context. -/
structure Job where
  lathes : BitVec 16
  left : BitVec 16
  status : Word := 0
  vec : Option (BitVec 6) := none
  ctx : BitVec 8 := 0
  sealed : Bool := false
  moved : Option (BitVec 6) := none      -- the device to which MIGRATE has moved it (R470)
deriving DecidableEq, Repr

/-- A job that MIGRATE has moved to this device: the device and slot of its RUN command (R470). -/
structure Guest where
  home : BitVec 6
  r : SlotRef
  job : Job
deriving DecidableEq, Repr

/-- A command slot's status entry (R422), the headstock's copy (R420) and the execution of the command. While another device has a forwarded
command, `fwdTo` names it, `fst` is the STATE that the host reads, and `st`, this headstock's own work on the slot, is 0 (R465). -/
structure Slot where
  st : BitVec 8 := 0
  status : BitVec 16 := 0
  tag : BitVec 16 := 0
  qpos : BitVec 8 := 0
  jseq : BitVec 64 := 0
  copy : List Octet := []
  arrival : BitVec 72 := 0
  ticks : Nat := 0                       -- since the doorbell's arrival (R428)
  order : Nat := 0
  job : Option Job := none
  begun : Bool := false
  ended : Bool := false                  -- its end is due and waits for the FINISH entry's commit (R422)
  fwdTo : Option (BitVec 6) := none
  fst : BitVec 8 := 0
  asked : Bool := false                  -- its MIGRATE has asked the root for the epoch advance (R469)
  chan : Option (Fin 8) := none          -- the channel of the root's DMA engine that a forwarded transfer holds (R465)
  fwd : Nat := 0                         -- the number of the forwarding, which the entries of the target carry (R465, R466)
deriving DecidableEq, Repr

/-- An instance: its configuration (R415), epoch (R429), window registers and ring (R416 to R421). (DEDUCED: log entry 60) -/
structure Inst where
  lathes : BitVec 16 := 0
  slotq : Nat := 256
  bufq : Nat := 256
  share : BitVec 32 := 0
  epoch : BitVec 9 := 0
  resetting : Bool := false
  zeroing : Bool := false
  resetCmds : List SlotRef := []         -- the INSTRESET commands that end with the zeroing (R431)
  spindleTime : Nat := 0
  bufs : Nat := 0
  win : Tab Octet := []
  winBad : Tab Bool := []                -- octets of the slots whose stored nonet reads uncorrectable (R318)
  ringbase : BitVec 64 := 0
  en : Bool := false
  vec : BitVec 6 := 0
  log2n : BitVec 5 := 10
  ringHead : BitVec 32 := 0
  ringTail : BitVec 32 := 0
  phase : Bool := true
  ringerr : Bool := false
  dbign : BitVec 16 := 0
  held : List Entry := []
deriving DecidableEq, Repr

/-- A DMA channel's transfer (R426, R436). -/
structure Xfer where
  ref : SlotRef
  out : Bool
  host : Nat
  dev : Nat
  count : Nat
  packing : BitVec 2
  ctx : BitVec 8 := 0
  slot : Fin 16 := 0
  bind : Bool := false
  armed : Bool := false
  running : Bool := false
  done : Nat := 0                        -- device words moved so far
  got : Nat := 0                         -- octets received from the host so far
  octets : List (Octet × Bool) := []     -- ingress octets that do not yet make a whole group, each marked where its completion had EP set
  owners : List (Nat × Word) := []       -- the BNK_OWN words of the banks that an ingress binding borrowed (R387)
  poison : Bool := false
  pcnt : Nat := 0
  failed : Option (BitVec 16 × BitVec 64 × BitVec 64) := none
  far : Option (BitVec 6) := none        -- the device whose transfer the root's channel serves (R465)
deriving DecidableEq, Repr

/-- The headstock: instances, slots, DMA channels, staging pool; `locked` is its lockup (R263), `halted` the halt of R492. -/
structure Hs where
  insts : Tab Inst := [(0, { lathes := 0xFFFF })]
  slots : Tab Slot := []
  chans : List (Option Xfer) := [none, none, none, none, none, none, none, none]
  pool : Nat := 0                        -- staging buffers in use, of 256
  guests : List Guest := []              -- jobs of other devices that run here (R470)
  arrivals : Nat := 0
  locked : Bool := false
  halted : Bool := false
deriving DecidableEq, Repr

/-- A TLP the endpoint transmits (R300, R310, R440 to R444), or its answer to a host request. -/
inductive Tlp where
  | write (fn : Fin 16) (addr : Nat) (octets : List Octet) (ro ep : Bool)
  | msix (fn : Fin 16) (addr : BitVec 64) (data : BitVec 32)
  | readReq (fn : Fin 16) (addr : Nat) (octets : Nat)
  | cpl (fn : Fin 16) (octets : List Octet) (ep : Bool)
  | cplUr (fn : Fin 16)
  | cplCa (fn : Fin 16)
  | cplCrs (fn : Fin 16)
deriving DecidableEq, Repr

/-- A host-window table entry (R452). -/
structure Hwt where
  v : Bool := false
  wr : Bool := false
  fn : BitVec 4 := 0
  haddrh : BitVec 28 := 0
  haddrl : BitVec 10 := 0
deriving DecidableEq, Repr

/-- An MSI-X table entry and its pending bit (R437, R440). -/
structure Msix where
  addr : BitVec 64 := 0
  data : BitVec 32 := 0
  mask : Bool := true
  pend : Bool := false
deriving DecidableEq, Repr

/-- What the model keeps of a function's configuration space (R434, R440, R441, R446). (PRESUMED and DESIGN CHOICE: log entry 47) -/
structure FnCfg where
  msixEn : Bool := false
  fmask : Bool := false
  ro : Bool := true
  mps : BitVec 3 := 0                    -- Max_Payload_Size and Max_Read_Request_Size: 128 octets times a power of two (R434)
  mrrs : BitVec 3 := 2
  d3 : Bool := false                     -- the function is in D3hot (R434)
  aspm : BitVec 2 := 0
  aerUnc : BitVec 32 := 0                -- AER: uncorrectable errors reported, the first of them, and the header logged with it (R442)
  aerFirst : BitVec 5 := 0
  aerHdr : List (BitVec 32) := []
  present : Bool := true
  regs : Tab (BitVec 32) := []
deriving DecidableEq, Repr

/-- A request of the host to function 0, the one function whose BAR2 accesses a bank may stall (R309, R439). -/
inductive HostReq where
  | bar0Read (off : BitVec 20) (size : Nat)
  | bar0Write (off : BitVec 20) (octets : List Octet) (ep : Bool)
  | bar2Read (off : BitVec 28) (size : Nat)
  | bar2Write (off : BitVec 28) (octets : List Octet) (ep : Bool)
  | ring (m : Fin 4) (bits : BitVec 64)
  | ringcfg (v : BitVec 32)
  | ringhead (v : BitVec 32)
  | unmask (vec : Fin 64)
  | config (write : Bool) (reg : BitVec 12) (value : BitVec 32)
deriving DecidableEq, Repr

/-- The PCI block (R450 to R452), the endpoint's functions, the requests to function 0 that wait behind one that a bank stalls (R309), and
what the endpoint has transmitted. (DESIGN CHOICE: log entry 58) -/
structure Pci where
  up : Bool := false
  speed : BitVec 3 := 0
  width : BitVec 5 := 0
  half : Bool := false
  apb : BitVec 4 := 0
  eprx : BitVec 18 := 0
  cto : BitVec 18 := 0
  disc : BitVec 18 := 0
  ecrc : BitVec 18 := 0
  hwt : Tab Hwt := []
  msix : Tab Msix := []
  fns : Tab FnCfg := []
  functionsUp : Bool := false
  vfEnable : Bool := false
  stalled : List HostReq := []
  tx : List Tlp := []
deriving DecidableEq, Repr

/-! ## 20: Wovas -/

/-- WOV_LSTATl (R475). -/
structure WLink where
  up : Bool := false
  miswire : Bool := false
  width : BitVec 2 := 0
  nbr : BitVec 6 := 0
  nbrLink : BitVec 3 := 0
  ninc : BitVec 8 := 0
  downs : BitVec 15 := 0
deriving DecidableEq, Repr

/-- WOV_BARi (R476) and the generation's arrivals and removals as (device, lathe) codes 16·d + l (R467, R468). -/
structure Bar where
  broken : Bool := false
  gen : Bool := false
  done : BitVec 18 := 0
  arrived : List Nat := []
  removed : List Nat := []
deriving DecidableEq, Repr

/-- A remote operation waiting for its reply (R462, R464). -/
inductive RKind where
  | load (th : Th)
  | store (th : Th)
  | stream (s : Fin 128) (group : Nat) (key : RKey)
  | command (r : SlotRef)
  | burst (m : Master) (addr : Nat)
deriving DecidableEq, Repr

/-- An outstanding remote operation: what waits for it, its target and the incarnation it expects (R471). -/
structure ROp where
  tag : Nat
  kind : RKind
  dev : BitVec 6
  inc : BitVec 8
  ticks : Nat := 0                       -- since its issue (R464)
deriving DecidableEq, Repr

/-- A message the Wovas engine sends (R459 to R472). (DEDUCED and DESIGN CHOICE: log entry 49) -/
inductive WMsg where
  | request (dev src : BitVec 6) (tag : Nat) (cl : BitVec 4) (id : BitVec 7) (addr : BitVec 26) (write : Bool) (inst : BitVec 4)
      (epoch : BitVec 9) (inc : BitVec 8) (data : List Octet) (mask poison : BitVec 16)
  | reply (dev : BitVec 6) (tag : Nat) (inc : BitVec 8) (res : RemoteResult)
  | linkState (dev : BitVec 6) (k : Fin 6) (up notice : Bool)
  | down (k : Fin 6)
  | incarnation (k : Fin 6) (inc : BitVec 8)
  | forward (dev : BitVec 6) (r : SlotRef) (copy : List Octet) (arrival : BitVec 72) (cargo : Cargo)
  | entry (dev : BitVec 6) (i : Fin 16) (e : Entry)
  | hostData (i : Fin 16) (addr : Nat) (octets : List (Octet × Bool))
  | hostCpl (dev : BitVec 6) (c : Nat) (cpl : HostCpl)
  | arrival (dev about : BitVec 6) (i : Fin 16) (lathes gone : BitVec 16)
  | release (i : Fin 16) (broken : Bool)
  | epoch (i : Fin 16) (epoch : BitVec 9)
  | epochAck (i : Fin 16) (ask : Bool)
  | leaf (dev : BitVec 6) (ctx : BitVec 8) (slot : Fin 16) (leaf : Nat) (epoch : BitVec 9) (away : AwayLeaf)
  | copiedRoot (dev : BitVec 6) (ctx : BitVec 8) (slot : Fin 16) (first : Nat) (root : List Octet)
deriving DecidableEq, Repr

/-- The WOV block (R473 to R478) and the state of the engine. (DESIGN CHOICE: log entry 58) -/
structure Wov where
  rto : BitVec 18 := 0
  late : BitVec 18 := 0
  links : Tab WLink := []
  deadLinks : List Nat := []             -- links of other devices known down, as 8·d + k (R460)
  bars : Tab Bar := []
  fwd : Tab (BitVec 24) := []
  ops : List ROp := []
  nextTag : Nat := 0
  ackWait : Tab (List (BitVec 6)) := []  -- by instance: on the root the devices that have not acknowledged an epoch, elsewhere the root while its value is awaited (R469)
  moved : Tab Nat := []                  -- by device: the operations with a lower tag were issued before its route changed (R461)
  heldReq : List (BitVec 6 × Nat × WMsg) := []  -- requests held by device and tag until those operations have ended (R461)
  waiting : List RemoteReq := []         -- requests of other devices that a bank stalls, and those of the same master behind them (R461, R462)
  tx : List WMsg := []
deriving DecidableEq, Repr

/-! ## 21, 22: reset, boot, update, modes -/

/-- One of the three copies of a backup-domain counter (R405). -/
structure CtrCopy where
  val : Nat := 0
  num : BitVec 36 := 0
  bad : Bool := false
deriving DecidableEq, Repr

/-- A backup-domain counter (R405, R484). (DESIGN CHOICE: log entry 56) -/
structure Ctr where
  a : CtrCopy := {}
  b : CtrCopy := {}
  c : CtrCopy := {}
deriving DecidableEq, Repr

/-- An option-byte copy (R486): its fields, and whether MAGIC and CRC are right. (DESIGN CHOICE: log entries 5, 56) -/
structure OptCopy where
  ok : Bool := true
  seqno : BitVec 32 := 1
  active : Bool := false
  trial : Bool := false
  maxfail : BitVec 8 := 3
  defmode : BitVec 8 := 5
  topo : BitVec 8 := 0
  boottmo : BitVec 16 := 200
  trialtmo : BitVec 16 := 60
deriving DecidableEq, Repr

/-- What the repair map records of a bank (R332). -/
structure BankMap where
  retired : Bool := false
  rused : BitVec 6 := 0
  cused : BitVec 2 := 0
  pendRows : List (BitVec 14 × Fin 16) := []
deriving DecidableEq, Repr

/-- A copy of the repair map in MRAM (R332): its sequence number, whether its CRC-32 is valid, and its records of the banks and of the
testers' memories. (DESIGN CHOICE: log entry 5) -/
structure MapCopy where
  ok : Bool := true
  seqno : Nat := 0
  banks : Tab BankMap := []
  pend : Tab (List Nat) := []
  used : Tab Nat := []
deriving DecidableEq, Repr

/-- The state of a firmware slot (R494). -/
inductive SlotState where
  | invalid | loading | loaded | verified
deriving DecidableEq, Repr

/-- A firmware slot: its state record and its octets (R493, R494). (DESIGN CHOICE: log entry 56) -/
structure FwSlot where
  st : SlotState := .invalid
  len : Nat := 0
  octets : Tab Octet := []
deriving DecidableEq, Repr

/-- Reset levels, deepest first (R479). -/
inductive RstLevel where
  | powerOn | system | core | lathe
deriving DecidableEq, Repr

/-- The RST and OPT blocks (R503 to R508), the backup domain's counters, the option bytes and the firmware slots. (DESIGN CHOICE: log entry 5) -/
structure Rst where
  cause : BitVec 6 := 1
  level : BitVec 2 := 0
  hist : BitVec 17 := 2
  conf : Bool := false
  remain : BitVec 27 := 0
  remainSub : Nat := 0                   -- ticks that have passed of the current millisecond of REMAIN
  hswdEn : Bool := false
  hswdCount : BitVec 17 := 0
  kicked : Bool := false                 -- a KICK that the next tick captures (R15, R492)
  min : Bool := false
  minCause : BitVec 6 := 0
  minDetail : BitVec 29 := 0
  inProgress : Option RstLevel := some .powerOn
  perstLow : Bool := false
  ctrReset : Ctr := {}
  ctrFail : Ctr := {}
  ctrOpt : Ctr := { a := { val := 1 }, b := { val := 1 }, c := { val := 1 } }
  ctrHead : Ctr := {}
  ctrInc : Ctr := {}
  ctrArc : Ctr := {}
  opt0 : OptCopy := {}
  opt1 : OptCopy := { ok := false }
  activated : Bool := false              -- an UPDACTIVATE is complete and its reset is due (R497)
  slotA : FwSlot := {}
  slotB : FwSlot := {}
  mapA : MapCopy := {}
  mapB : MapCopy := { ok := false }
deriving DecidableEq, Repr

/-- What L4 and L5 record (R518, R519): the block settings and window state at entry. -/
structure RestRec where
  banks : Tab Bank := []
  scr : Scr := {}
  fab : Fab := {}
  pci : Pci := {}
  fwd : Tab (BitVec 24) := []
  hs : Hs := {}
deriving DecidableEq, Repr

/-- The PWR block (R523 to R525), the supplies, the backup integrity word (R515) and the Rest record. (DESIGN CHOICE: log entry 5) -/
structure Pwr where
  mode : BitVec 4 := 3
  prev : BitVec 4 := 0
  rung : BitVec 3 := 0
  rfrom : BitVec 4 := 0
  cfgRung : BitVec 3 := 1
  pinwake : BitVec 16 := 0
  wValid : Bool := false
  wSrc : BitVec 3 := 0
  wPin : BitVec 4 := 0
  wRung : BitVec 3 := 0
  wExit : BitVec 18 := 0
  main12 : Bool := true
  vbat : Bool := true
  intact : Bool := true
  rest : Option RestRec := none
  hot : Bool := false                    -- core power is off above 115 °C (R547)
  zeroBusy : Bool := false               -- the zeroing of a wake from L4 or L5 is not over (R521)
deriving DecidableEq, Repr

/-! ## 23, 24: debug port, fuses -/

/-- The debug domain beside the per-lathe registers: session, challenge, responses (R526 to R540). (DESIGN CHOICE: log entry 58) -/
structure Dbg where
  opened : Bool := false
  sess : BitVec 16 := 0
  ferr : BitVec 18 := 0
  scope : BitVec 16 := 0
  expiry : Nat := 0
  idle : Nat := 0
  reqno : BitVec 32 := 0
  key : List Octet := []
  chal : Option (Nat × List Octet) := none
  frame : Bool := false
  gap : Nat := 0                         -- ticks of high time since the last symbol of the frame in progress (R527)
  tx : List (List Octet) := []
deriving DecidableEq, Repr

/-- The fuse map and what is fixed at manufacture (R553, R554, R543), and the straps (R456). (DESIGN CHOICE: log entry 5) -/
structure Fus where
  xmesh : Bool := false
  refsel : Bool := false
  dbgdis : Bool := false
  pina : Word := 0
  pinb : BitVec 12 := 0
  devsn : BitVec 64 := 0
  straps : BitVec 6 := 0
deriving DecidableEq, Repr

/-! ## The machine -/

/-- The whole device. `mem` holds the stored nonets of banks, scratchpads, headstock SRAM and ROM by 4 × place
+ nonet, where the place of a bank word is 65,536 · bank + 4 · row + word (R45) and that of any other word its physical address;
an unlisted nonet is the clean zero nonet. Units are keyed by their numbers (R10); threads by 8·l + t; slots by
256·i + 64·m + k. `free` is the model's own counter of free values. (DESIGN CHOICE: log entry 6) -/
structure State where
  pending : List Instr := []
  tb : BitVec 72 := 0
  mem : Tab Stored := []
  banks : Tab Bank := []
  spindles : Tab Spindle := []
  lathes : Tab Lathe := []
  threads : Tab Thread := []
  groups : Tab (Option Group) := []
  nextGroup : Nat := 0
  scr : Scr := {}
  fab : Fab := {}
  evf : Evf := {}
  ts : Ts := {}
  jnl : Jnl := {}
  hs : Hs := {}
  pci : Pci := {}
  wov : Wov := {}
  rst : Rst := {}
  pwr : Pwr := {}
  dbg : Dbg := {}
  fus : Fus := {}
  free : Nat := 0
deriving DecidableEq, Repr

/-- The machine right after a power-on reset (R479): every field at the manual's reset value, the mode Self-test (R523),
no memory listed, the queue empty. Values the manual gives as "—" are named in the assumption log. (DESIGN CHOICE: log entries 1, 3, 5) -/
def State.reset : State := {}

/-- Why the machine stops. The block never stops by itself: what the manual calls a fault is a status, an exception of a
thread, or a reset, and the machine goes on. The one constructor is kept for a state no command can answer. -/
inductive Fault where
  /-- Raised by no meaning: the manual describes an effect for every command (safe). -/
  | none_
deriving DecidableEq, Repr

/-- Why a command has no meaning here. -/
inductive Refusal where
  /-- The command of this mnemonic is not modelled; raised only by an arm of `exec` (safe). -/
  | notModelled (mnemonic : String)
deriving DecidableEq, Repr

end Sys2Proof.Machine
end

