-- ==== Sys2Proof/Machine/Tables.lean ====
section
/-! DEFINITION. Sparse tables: reading with a default, and a write that keeps keys rising and lists no default value. -/
namespace Sys2Proof.Machine

/-- What a table holds at a key; an unlisted key reads as the default. -/
def tget {α : Type} (d : α) : Tab α → Nat → α
  | [], _ => d
  | (k', v) :: r, k => if k' = k then v else tget d r k

/-- Places an entry before the first greater key. -/
def tinsert {α : Type} (k : Nat) (v : α) : Tab α → Tab α
  | [] => [(k, v)]
  | (k', v') :: r => if k < k' then (k, v) :: (k', v') :: r else (k', v') :: tinsert k v r

/-- The table without the entries of a key. -/
def terase {α : Type} (k : Nat) : Tab α → Tab α
  | [] => []
  | (k', v') :: r => if k' = k then terase k r else (k', v') :: terase k r

/-- Writes a key; writing the default removes the entry. -/
def tput {α : Type} [DecidableEq α] (d : α) (t : Tab α) (k : Nat) (v : α) : Tab α :=
  if v = d then terase k t else tinsert k v (terase k t)

/-- Changes what a key holds. -/
def tmod {α : Type} [DecidableEq α] (d : α) (t : Tab α) (k : Nat) (f : α → α) : Tab α := tput d t k (f (tget d t k))

/-- Every entry of a table replaced, as its key gives; entries that become the default leave it. -/
def tmapKeys {α : Type} [DecidableEq α] (d : α) (f : Nat → α → α) : Tab α → Tab α
  | [] => []
  | (k, x) :: r => if f k x = d then terase k (tmapKeys d f r) else (k, f k x) :: terase k (tmapKeys d f r)
def tmapVals {α : Type} [DecidableEq α] (d : α) (f : α → α) (t : Tab α) : Tab α := tmapKeys d (fun _ x => f x) t

/-- The keys of a table rise strictly from a bound. -/
def trising {α : Type} : Nat → Tab α → Bool
  | _, [] => true
  | b, (k, _) :: r => decide (b ≤ k) && trising (k + 1) r

/-- The canonical form: keys strictly rising and no default value listed. -/
def twf {α : Type} [DecidableEq α] (d : α) (t : Tab α) : Bool := trising 0 t && t.all (fun e => decide (e.2 ≠ d))

/-- Replaces element `i` of a list, if there is one. -/
def setAt {α : Type} : List α → Nat → α → List α
  | [], _, _ => []
  | _ :: r, 0, v => v :: r
  | x :: r, i + 1, v => x :: setAt r i v

/-- Changes element `i` of a list, if there is one. -/
def modAt {α : Type} : List α → Nat → (α → α) → List α
  | [], _, _ => []
  | x :: r, 0, f => f x :: r
  | x :: r, i + 1, f => x :: modAt r i f

/-- Adds without passing the limit of a saturating counter. -/
def satAdd {n : Nat} (c : BitVec n) (k : Nat) : BitVec n :=
  if c.toNat + k < 2 ^ n then BitVec.ofNat n (c.toNat + k) else BitVec.allOnes n

/-- Bit `i` of a word put to `b`. -/
def setBit {n : Nat} (w : BitVec n) (i : Nat) (b : Bool) : BitVec n :=
  if b then w ||| BitVec.ofNat n (2 ^ i) else w &&& ~~~ BitVec.ofNat n (2 ^ i)

/-- The field of `len` bits that starts at bit `lo`, as a number. -/
def fld {n : Nat} (w : BitVec n) (lo len : Nat) : Nat := w.toNat / 2 ^ lo % 2 ^ len

/-- A field value placed at bit `lo` of a word. -/
def put (lo len v : Nat) : Word := BitVec.ofNat 36 (v % 2 ^ len * 2 ^ lo)

/-- A flag placed at bit `i` of a word. -/
def putB (i : Nat) (b : Bool) : Word := if b then BitVec.ofNat 36 (2 ^ i) else 0

end Sys2Proof.Machine
end

