-- ==== Sys2Proof/Machine/Flags.lean ====
section
/-! DEFINITION. Floating point (R28 to R32, R148 to R152, R155 to R157, R40): F36, F72 and the host's binary32 and binary64 in
one set of functions over a format. Each operation computes exactly and rounds once, and answers the encoding and its flags. -/
namespace Sys2Proof.Machine

/-- The five flags in the order of R32: NV DZ OF UF NX from bit 4 down. -/
abbrev Flags5 := BitVec 5
def fNV : Flags5 := 16
def fDZ : Flags5 := 8
def fOF : Flags5 := 4
def fUF : Flags5 := 2
def fNX : Flags5 := 1

/-- The flag, raised or not. -/
def flagIf (b : Bool) (f : Flags5) : Flags5 := if b then f else 0

/-- A floating-point format: widths of its exponent and fraction (R28). -/
structure Fmt where
  eb : Nat
  fb : Nat
deriving DecidableEq, Repr

def fmt36 : Fmt := ⟨8, 27⟩
def fmt72 : Fmt := ⟨11, 60⟩
def fmt32 : Fmt := ⟨8, 23⟩
def fmt64 : Fmt := ⟨11, 52⟩

/-- A decoded operand: a NaN, an infinity, or the exact value ± m × 2^q. -/
inductive FVal where
  | nan
  | inf (neg : Bool)
  | fin (neg : Bool) (m : Nat) (q : Int)
deriving DecidableEq, Repr

def Fmt.signBit (F : Fmt) : Nat := 2 ^ (F.eb + F.fb)
def Fmt.bias (F : Fmt) : Nat := 2 ^ (F.eb - 1) - 1
def Fmt.expMax (F : Fmt) : Nat := 2 ^ F.eb - 1
def Fmt.neg (F : Fmt) (x : Nat) : Bool := x / F.signBit % 2 = 1
def Fmt.exp (F : Fmt) (x : Nat) : Nat := x / 2 ^ F.fb % 2 ^ F.eb
def Fmt.frac (F : Fmt) (x : Nat) : Nat := x % 2 ^ F.fb

/-- The encoding with the given sign, exponent field and fraction. -/
def Fmt.mk3 (F : Fmt) (neg : Bool) (e f : Nat) : Nat := (if neg then F.signBit else 0) + e * 2 ^ F.fb + f

def Fmt.infinity (F : Fmt) (neg : Bool) : Nat := F.mk3 neg F.expMax 0
def Fmt.zero (F : Fmt) (neg : Bool) : Nat := F.mk3 neg 0 0
def Fmt.largest (F : Fmt) (neg : Bool) : Nat := F.mk3 neg (F.expMax - 1) (2 ^ F.fb - 1)

/-- The canonical quiet NaN (R29). -/
def Fmt.qnan (F : Fmt) : Nat := F.mk3 false F.expMax (2 ^ (F.fb - 1))

def Fmt.isNan (F : Fmt) (x : Nat) : Bool := F.exp x = F.expMax && F.frac x ≠ 0
def Fmt.isSnan (F : Fmt) (x : Nat) : Bool := F.isNan x && F.frac x < 2 ^ (F.fb - 1)

/-- A NaN with its quiet bit set, its sign and other payload kept (R31). -/
def Fmt.quiet (F : Fmt) (x : Nat) : Nat := if F.isSnan x then x + 2 ^ (F.fb - 1) else x

/-- The operand an encoding stands for (R29). -/
def Fmt.val (F : Fmt) (x : Nat) : FVal :=
  if F.exp x = F.expMax then (if F.frac x = 0 then .inf (F.neg x) else .nan)
  else if F.exp x = 0 then .fin (F.neg x) (F.frac x) (1 - F.bias - F.fb)
  else .fin (F.neg x) (2 ^ F.fb + F.frac x) (F.exp x - F.bias - F.fb)

/-- The first NaN of an operand list, quietened, with NV for any signalling NaN (R31). -/
def nanOf (F : Fmt) (xs : List Nat) : Option (Nat × Flags5) :=
  (xs.find? F.isNan).map (fun x => (F.quiet x, flagIf (xs.any F.isSnan) fNV))

/-- Number of bits of a natural number. -/
def bitLen (n : Nat) : Nat := if n = 0 then 0 else n.log2 + 1

/-- Drops `sh` low bits of a magnitude under a rounding direction (R32); `sticky` says that a nonzero rest lies below. Answers the
rounded number and whether it is inexact. -/
def roundAt (rm : BitVec 3) (neg : Bool) (m sh : Nat) (sticky : Bool) : Nat × Bool :=
  let k := m / 2 ^ sh
  let rem := m % 2 ^ sh
  let inexact := rem ≠ 0 || sticky
  let above := 2 * rem > 2 ^ sh || (2 * rem = 2 ^ sh && sticky)
  let tie := 2 * rem = 2 ^ sh && !sticky
  let up := match rm.toNat with
    | 0 => above || (tie && k % 2 = 1)
    | 1 => false
    | 2 => neg && inexact
    | 3 => !neg && inexact
    | _ => above || tie
  (if up then k + 1 else k, inexact)

/-- Rounds m × 2^q to a multiple of 2^qr. -/
def roundAtQ (rm : BitVec 3) (neg : Bool) (m : Nat) (q qr : Int) (sticky : Bool) : Nat × Bool :=
  if q ≥ qr then (m * 2 ^ (q - qr).toNat, sticky) else roundAt rm neg m (qr - q).toNat sticky

/-- Rounds ± m × 2^q (m nonzero; `sticky` for a nonzero rest below a magnitude of at least two bits more than the precision) into
a format, with overflow, underflow after rounding, and inexact (R30). -/
def Fmt.round (F : Fmt) (rm : BitVec 3) (neg : Bool) (m : Nat) (q : Int) (sticky : Bool) : Nat × Flags5 :=
  let emin : Int := 1 - F.bias
  let e : Int := q + bitLen m - 1
  let qr : Int := max (e - F.fb) (emin - F.fb)
  let (r, inexact) := roundAtQ rm neg m q qr sticky
  let (ru, _) := roundAtQ rm neg m q (e - F.fb) sticky
  let tiny : Bool := e - F.fb + bitLen ru - 1 < emin
  let er : Int := qr + bitLen r - 1
  if r = 0 then (F.zero neg, flagIf inexact (fUF ||| fNX))
  else if er > F.bias then
    let toInf := match rm.toNat with
      | 0 => true
      | 1 => false
      | 2 => neg
      | 3 => !neg
      | _ => true
    (if toInf then F.infinity neg else F.largest neg, fOF ||| fNX)
  else
    let fl := flagIf inexact fNX ||| flagIf (inexact && tiny) fUF
    if r < 2 ^ F.fb then (F.mk3 neg 0 r, fl)
    else (F.mk3 neg (er + F.bias).toNat (r / 2 ^ (bitLen r - 1 - F.fb) % 2 ^ F.fb), fl)

/-- Rounds the exact signed value v × 2^q; `z` is the sign of an exact zero. -/
def Fmt.roundInt (F : Fmt) (rm : BitVec 3) (v : Int) (q : Int) (z : Bool) : Nat × Flags5 :=
  if v = 0 then (F.zero z, 0) else F.round rm (v < 0) v.natAbs q false

/-- Rounds the quotient of two naturals, the divisor nonzero. -/
def Fmt.roundRat (F : Fmt) (rm : BitVec 3) (neg : Bool) (num den : Nat) (q : Int) : Nat × Flags5 :=
  if num = 0 then (F.zero neg, 0)
  else
    let k := F.fb + 4 + bitLen den
    F.round rm neg (num * 2 ^ k / den) (q - k) (num * 2 ^ k % den ≠ 0)

/-- Sign applied to a magnitude. -/
def signed (neg : Bool) (m : Nat) : Int := if neg then -(m : Int) else m

/-- The exact sum of two finite values, rounded once; an exact zero of unlike signs is −0 only toward −∞. -/
def Fmt.sumFin (F : Fmt) (rm : BitVec 3) (n1 : Bool) (m1 : Nat) (q1 : Int) (n2 : Bool) (m2 : Nat) (q2 : Int) : Nat × Flags5 :=
  let q := min q1 q2
  let v := signed n1 (m1 * 2 ^ (q1 - q).toNat) + signed n2 (m2 * 2 ^ (q2 - q).toNat)
  F.roundInt rm v q (if n1 = n2 then n1 else rm = 2)

/-- The sum of two decoded values that are not NaNs. -/
def Fmt.sumVal (F : Fmt) (rm : BitVec 3) (a b : FVal) : Nat × Flags5 :=
  match a, b with
  | .inf n, .inf n' => if n = n' then (F.infinity n, 0) else (F.qnan, fNV)
  | .inf n, _ => (F.infinity n, 0)
  | _, .inf n => (F.infinity n, 0)
  | .fin n1 m1 q1, .fin n2 m2 q2 => F.sumFin rm n1 m1 q1 n2 m2 q2
  | _, _ => (F.qnan, fNV)

/-- A decoded value with its sign inverted when asked. -/
def FVal.flip (b : Bool) : FVal → FVal
  | .nan => .nan
  | .inf n => .inf (n != b)
  | .fin n m q => .fin (n != b) m q

/-- The exact product of two decoded values; none when it is invalid (zero times infinity). -/
def FVal.mul : FVal → FVal → Option FVal
  | .fin n1 m1 q1, .fin n2 m2 q2 => some (.fin (n1 != n2) (m1 * m2) (q1 + q2))
  | .inf n1, .inf n2 => some (.inf (n1 != n2))
  | .inf n1, .fin n2 m _ => if m = 0 then none else some (.inf (n1 != n2))
  | .fin n1 m _, .inf n2 => if m = 0 then none else some (.inf (n1 != n2))
  | _, _ => none

/-- ADD, and SUB when `sub` (R150). -/
def fpAdd (F : Fmt) (rm : BitVec 3) (sub : Bool) (a b : Nat) : Nat × Flags5 :=
  match nanOf F [a, b] with
  | some r => r
  | none => F.sumVal rm (F.val a) ((F.val b).flip sub)

/-- MUL (R150). -/
def fpMul (F : Fmt) (rm : BitVec 3) (a b : Nat) : Nat × Flags5 :=
  match nanOf F [a, b] with
  | some r => r
  | none => match (F.val a).mul (F.val b) with
    | none => (F.qnan, fNV)
    | some (.inf n) => (F.infinity n, 0)
    | some (.fin n m q) => if m = 0 then (F.zero n, 0) else F.round rm n m q false
    | some .nan => (F.qnan, fNV)

/-- FMA, FMS (`subC`) and FNMA (`negP`), rounded once; an invalid product raises invalid even beside a quiet NaN (R148). -/
def fpFma (F : Fmt) (rm : BitVec 3) (negP subC : Bool) (a b c : Nat) : Nat × Flags5 :=
  match nanOf F [a, b, c] with
  | some (r, fl) =>
    if F.isNan a || F.isNan b then (r, fl)
    else (r, match (F.val a).mul (F.val b) with | none => fl ||| fNV | some _ => fl)
  | none => match (F.val a).mul (F.val b) with
    | none => (F.qnan, fNV)
    | some p => F.sumVal rm (p.flip negP) ((F.val c).flip subC)

/-- DIV on F: correctly rounded; x / 0 raises DZ, 0 / 0 and inf / inf are invalid (R150). -/
def fpDiv (F : Fmt) (rm : BitVec 3) (a b : Nat) : Nat × Flags5 :=
  match nanOf F [a, b] with
  | some r => r
  | none => match F.val a, F.val b with
    | .inf _, .inf _ => (F.qnan, fNV)
    | .inf n, .fin n' _ _ => (F.infinity (n != n'), 0)
    | .fin n _ _, .inf n' => (F.zero (n != n'), 0)
    | .fin n m q, .fin n' m' q' =>
      if m' = 0 then (if m = 0 then (F.qnan, fNV) else (F.infinity (n != n'), fDZ))
      else F.roundRat rm (n != n') m m' (q - q')
    | _, _ => (F.qnan, fNV)

/-- Integer square root, bit by bit from bit `i` down. -/
def isqrtFrom : Nat → Nat → Nat → Nat
  | 0, n, r => if (r + 1) * (r + 1) ≤ n then r + 1 else r
  | i + 1, n, r => isqrtFrom i n (if (r + 2 ^ (i + 1)) * (r + 2 ^ (i + 1)) ≤ n then r + 2 ^ (i + 1) else r)

/-- The integer square root. -/
def isqrt (n : Nat) : Nat := isqrtFrom (bitLen n / 2 + 1) n 0

/-- SQRT (R150): correctly rounded; √−0 = −0; a negative operand is invalid. -/
def fpSqrt (F : Fmt) (rm : BitVec 3) (a : Nat) : Nat × Flags5 :=
  match nanOf F [a] with
  | some r => r
  | none => match F.val a with
    | .inf n => if n then (F.qnan, fNV) else (F.infinity false, 0)
    | .fin n m q =>
      if m = 0 then (F.zero n, 0)
      else if n then (F.qnan, fNV)
      else
        let odd := q % 2 = 1
        let x := (if odd then 2 * m else m) * 2 ^ (2 * (F.fb + 4))
        let r := isqrt x
        F.round rm false r ((if odd then q - 1 else q) / 2 - (F.fb + 4)) (r * r ≠ x)
    | .nan => (F.qnan, fNV)

/-- Whether a decoded value is below another; −0 is below +0 when `signedZero`. -/
def FVal.lt (signedZero : Bool) : FVal → FVal → Bool
  | .inf n, .inf n' => n && !n'
  | .inf n, .fin _ _ _ => n
  | .fin _ _ _, .inf n => !n
  | .fin n m q, .fin n' m' q' =>
    let e := min q q'
    let x := signed n (m * 2 ^ (q - e).toNat)
    let y := signed n' (m' * 2 ^ (q' - e).toNat)
    x < y || (signedZero && m = 0 && m' = 0 && n && !n')
  | _, _ => false

/-- MIN and MAX on F: IEEE 754-2019 minimum and maximum; when the two are equal the result is a (R152). -/
def fpMinMax (F : Fmt) (isMax : Bool) (a b : Nat) : Nat × Flags5 :=
  match nanOf F [a, b] with
  | some r => r
  | none =>
    let less := if isMax then FVal.lt true (F.val a) (F.val b) else FVal.lt true (F.val b) (F.val a)
    (if less then b else a, 0)

/-- ABS and NEG on F: the sign bit only; a NaN is returned under R31 with its sign unchanged (R150). -/
def fpAbs (F : Fmt) (a : Nat) : Nat × Flags5 :=
  match nanOf F [a] with
  | some r => r
  | none => (a % F.signBit, 0)
def fpNeg (F : Fmt) (a : Nat) : Nat × Flags5 :=
  match nanOf F [a] with
  | some r => r
  | none => (if F.neg a then a % F.signBit else a + F.signBit, 0)

/-- The comparisons of R154. -/
inductive Cmp where
  | eq | ne | lt | le | gt | ge | un
deriving DecidableEq, Repr

/-- A comparison on F: its truth and NV; −0 equals +0 (R154). -/
def fpCmp (F : Fmt) (c : Cmp) (a b : Nat) : Bool × Flags5 :=
  let un := F.isNan a || F.isNan b
  let sn := flagIf (F.isSnan a || F.isSnan b) fNV
  let l := FVal.lt false (F.val a) (F.val b)
  let g := FVal.lt false (F.val b) (F.val a)
  match c with
  | .eq => (!un && !l && !g, sn)
  | .ne => (un || l || g, sn)
  | .un => (un, sn)
  | .lt => (!un && l, flagIf un fNV)
  | .le => (!un && !g, flagIf un fNV)
  | .gt => (!un && g, flagIf un fNV)
  | .ge => (!un && !l, flagIf un fNV)

/-- A comparison of two integers. -/
def intCmp (c : Cmp) (a b : Int) : Bool :=
  match c with
  | .eq => a = b
  | .ne => a ≠ b
  | .lt => a < b
  | .le => a ≤ b
  | .gt => a > b
  | .ge => a ≥ b
  | .un => false

/-- RINT: an integral value of the same format; NV for a signalling NaN and no other flag (R157). -/
def fpRint (F : Fmt) (rm : BitVec 3) (a : Nat) : Nat × Flags5 :=
  match nanOf F [a] with
  | some r => r
  | none => match F.val a with
    | .fin n m q =>
      if q ≥ 0 then (a, 0)
      else
        let r := (roundAtQ rm n m q 0 false).1
        (if r = 0 then F.zero n else (F.round 0 n r 0 false).1, 0)
    | _ => (a, 0)

/-- A NaN carried to another format: the sign and the leading payload bits kept, quietened (R155, R40). -/
def nanConv (F G : Fmt) (a : Nat) : Nat :=
  let p := F.frac a % 2 ^ (F.fb - 1)
  let p' := if G.fb ≥ F.fb then p * 2 ^ (G.fb - F.fb) else p / 2 ^ (F.fb - G.fb)
  G.mk3 (F.neg a) G.expMax (2 ^ (G.fb - 1) + p')

/-- A conversion between two formats (R155). -/
def fpConv (F G : Fmt) (rm : BitVec 3) (a : Nat) : Nat × Flags5 :=
  match F.val a with
  | .nan => (nanConv F G a, flagIf (F.isSnan a) fNV)
  | .inf n => (G.infinity n, 0)
  | .fin n m q => if m = 0 then (G.zero n, 0) else G.round rm n m q false

/-- An integer converted to a format (R155). -/
def intToFp (F : Fmt) (rm : BitVec 3) (v : Int) : Nat × Flags5 := F.roundInt rm v 0 false

/-- A conversion to an integer range (R156): saturating with NV, a NaN gives 0 with NV. -/
def fpToInt (F : Fmt) (rm : BitVec 3) (lo hi : Int) (a : Nat) : Int × Flags5 :=
  match F.val a with
  | .nan => (0, fNV)
  | .inf n => (if n then lo else hi, fNV)
  | .fin n m q =>
    let (r, inexact) := roundAtQ rm n m q 0 false
    let v := signed n r
    if v > hi then (hi, fNV) else if v < lo then (lo, fNV) else (v, flagIf inexact fNX)

/-- A conversion to A36: rounded to units, then reduced modulo 2^36; NaN or infinity gives 0 and NV (R155). -/
def fpToA36 (F : Fmt) (rm : BitVec 3) (a : Nat) : Int × Flags5 :=
  match F.val a with
  | .fin n m q =>
    let (r, inexact) := roundAtQ rm n m q 0 false
    (signed n r % 2 ^ 36, flagIf inexact fNX)
  | _ => (0, fNV)

/-- IEEE ingress: exact, NaNs of both kinds carried unchanged (R39). -/
def ieeeIn36 (x : Nat) : Nat := fmt36.mk3 (fmt32.neg x) (fmt32.exp x) (fmt32.frac x * 2 ^ 4)
def ieeeIn72 (x : Nat) : Nat := fmt72.mk3 (fmt64.neg x) (fmt64.exp x) (fmt64.frac x * 2 ^ 8)

/-- IEEE egress: rounded under RNE, a NaN leaves quiet, no flag (R40). -/
def ieeeOut36 (x : Nat) : Nat := (fpConv fmt36 fmt32 0 x).1
def ieeeOut72 (x : Nat) : Nat := (fpConv fmt72 fmt64 0 x).1

end Sys2Proof.Machine
end

