-- ==== Sys2Proof/Machine/Ops.lean ====
section
/-! DEFINITION. The named operations over registers and memory: access to each unit's state, the nonet code (R312 to R316), raw
memory by place, the product register (R203 to R205), completion of floating-point instructions (R250), and taking an exception
(R258, R262, R263) with the return beside it (R260). -/
namespace Sys2Proof.Machine

/-! ## Access to units -/

/-- The key of a thread: 8 · lathe + thread. -/
def thKey (th : Th) : Nat := 8 * th.l.val + th.t.val

def State.thr (s : State) (th : Th) : Thread := tget {} s.threads (thKey th)
def State.setThr (s : State) (th : Th) (t : Thread) : State := { s with threads := tput {} s.threads (thKey th) t }
def State.modThr (s : State) (th : Th) (f : Thread → Thread) : State := s.setThr th (f (s.thr th))

def State.lathe (s : State) (l : Fin 16) : Lathe := tget {} s.lathes l.val
def State.setLathe (s : State) (l : Fin 16) (x : Lathe) : State := { s with lathes := tput {} s.lathes l.val x }
def State.modLathe (s : State) (l : Fin 16) (f : Lathe → Lathe) : State := s.setLathe l (f (s.lathe l))

def State.bank (s : State) (n : Nat) : Bank := tget {} s.banks n
def State.setBank (s : State) (n : Nat) (x : Bank) : State := { s with banks := tput {} s.banks n x }
def State.modBank (s : State) (n : Nat) (f : Bank → Bank) : State := s.setBank n (f (s.bank n))

def State.spin (s : State) (k : Nat) : Spindle := tget {} s.spindles k
def State.setSpin (s : State) (k : Nat) (x : Spindle) : State := { s with spindles := tput {} s.spindles k x }
def State.modSpin (s : State) (k : Nat) (f : Spindle → Spindle) : State := s.setSpin k (f (s.spin k))

def State.group (s : State) (g : Nat) : Option Group := tget none s.groups g
def State.setGroup (s : State) (g : Nat) (x : Option Group) : State := { s with groups := tput none s.groups g x }
def State.modGroup (s : State) (g : Nat) (f : Group → Group) : State := s.setGroup g ((s.group g).map f)

def State.inst (s : State) (i : Fin 16) : Inst := tget {} s.hs.insts i.val
/-- The instance of a lathe, where it has one (R415). -/
def instanceOf (s : State) (l : Fin 16) : Option (Fin 16) := (List.finRange 16).find? (fun i => (s.inst i).lathes.getLsbD l.val)
def State.setInst (s : State) (i : Fin 16) (x : Inst) : State :=
  { s with hs := { s.hs with insts := tput {} s.hs.insts i.val x } }
def State.modInst (s : State) (i : Fin 16) (f : Inst → Inst) : State := s.setInst i (f (s.inst i))

/-- The key of a command slot: 256 · instance + 64 · mailbox + slot. -/
def slotKey (r : SlotRef) : Nat := 256 * r.i.val + 64 * r.m.val + r.k.val

def State.slot (s : State) (r : SlotRef) : Slot := tget {} s.hs.slots (slotKey r)
def State.setSlot (s : State) (r : SlotRef) (x : Slot) : State :=
  { s with hs := { s.hs with slots := tput {} s.hs.slots (slotKey r) x } }
def State.modSlot (s : State) (r : SlotRef) (f : Slot → Slot) : State := s.setSlot r (f (s.slot r))

def State.ctx (s : State) (c : Nat) : SealCtx := tget {} s.ts.ctxs c
/-- The entry of a group's seal context among the contexts: this device's own, or what stands here for that of another device under a number of 256 on
(R383, R470). -/
def groupCtx (s : State) (inst : BitVec 4) (c : Nat) : Nat :=
  if (s.ctx c).st ≠ .closed && (s.ctx c).inst = inst then c
  else match s.ts.ctxs.find? (fun x => decide (256 ≤ x.1 ∧ x.1 % 256 = c) && x.2.st ≠ .closed && x.2.inst = inst) with
    | some x => x.1
    | none => c
def State.setCtx (s : State) (c : Nat) (x : SealCtx) : State := { s with ts := { s.ts with ctxs := tput {} s.ts.ctxs c x } }
def State.modCtx (s : State) (c : Nat) (f : SealCtx → SealCtx) : State := s.setCtx c (f (s.ctx c))

/-- The threads of a lathe. -/
def threadsOf (l : Fin 16) : List Th := (List.finRange 8).map (fun t => ⟨l, t⟩)

/-- The next counter value for a free value, and the state with the counter advanced. (DESIGN CHOICE: log entry 16) -/
def State.takeFree (s : State) : Nat × State := (s.free, { s with free := s.free + 1 })

/-! ## Registers of a thread (R192, R194) -/

/-- The low and high word of a double (R23). -/
def dLo (d : Dbl) : Word := d.setWidth 36
def dHi (d : Dbl) : Word := (d >>> 36).setWidth 36
/-- A double of its two words. -/
def mkD (hi lo : Word) : Dbl := hi.setWidth 72 <<< 36 ||| lo.setWidth 72

/-- Reads a general register; G0 reads zero. -/
def Thread.rg (t : Thread) (r : BitVec 5) : Word := if r = 0 then 0 else tget 0 t.g r.toNat
/-- Writes a general register; a write to G0 is discarded. -/
def Thread.wg (t : Thread) (r : BitVec 5) (v : Word) : Thread := if r = 0 then t else { t with g := tput 0 t.g r.toNat v }
def Thread.rf (t : Thread) (r : Nat) : Dbl := tget 0 t.f r
def Thread.wf (t : Thread) (r : Nat) (v : Dbl) : Thread := { t with f := tput 0 t.f r v }
def Thread.rd (t : Thread) (r : Nat) : Quad := tget {} t.d r
/-- Writes half of an F register: 2 r names the low half of F[r], 2 r + 1 the high one. -/
def Thread.wHalf (t : Thread) (k : Nat) (w : Word) : Thread :=
  let x := t.rf (k / 2)
  t.wf (k / 2) (if k % 2 = 0 then mkD (dHi x) w else mkD w (dLo x))
def Thread.wd (t : Thread) (r : Nat) (v : Quad) : Thread := { t with d := tput {} t.d r v }

/-- Puts the PC at an address; every fetched word is dropped. -/
def Thread.goto (t : Thread) (a : Word) : Thread := { t with pc := a, fetched := [], fetchPend := none, checked := false }

/-- Goes on at an address after the instruction at the PC: successors that were fetched from there are kept, others are killed (R224). -/
def Thread.follow (t : Thread) (a : Word) : Thread :=
  match t.fetched.drop 1 with
  | [] => { t with pc := a, fetched := [], checked := false
                   fetchPend := t.fetchPend.bind (fun p => if p.va = a then some p else none) }
  | x :: r => if x.1 = a then { t with pc := a, fetched := x :: r, checked := false } else t.goto a

/-- The fetched word of the instruction at the PC. -/
def Thread.word (t : Thread) : Option Word :=
  match t.fetched with
  | [] => none
  | x :: _ => if x.1 = t.pc then some x.2 else none

def quadGet (q : Quad) (j : Nat) : Word :=
  match j % 4 with
  | 0 => q.w0
  | 1 => q.w1
  | 2 => q.w2
  | _ => q.w3
def quadPut (q : Quad) (j : Nat) (w : Word) : Quad :=
  match j % 4 with
  | 0 => { q with w0 := w }
  | 1 => { q with w1 := w }
  | 2 => { q with w2 := w }
  | _ => { q with w3 := w }

/-! ## The nonet code (R312 to R316) -/

/-- The parity of a bit vector. -/
def parity {n : Nat} (w : BitVec n) : Bool := (List.range n).foldl (fun a i => a != w.getLsbD i) false

/-- The check bits c8 c4 c2 c1 that the data give (R312). -/
def checksOf (d : BitVec 9) : BitVec 4 :=
  let b := d.getLsbD
  let c8 := b 4 ^^ b 5 ^^ b 6 ^^ b 7 ^^ b 8
  let c4 := b 1 ^^ b 2 ^^ b 3 ^^ b 7 ^^ b 8
  let c2 := b 0 ^^ b 2 ^^ b 3 ^^ b 5 ^^ b 6
  let c1 := b 0 ^^ b 1 ^^ b 3 ^^ b 4 ^^ b 6 ^^ b 8
  BitVec.ofBool c8 ++ BitVec.ofBool c4 ++ BitVec.ofBool c2 ++ BitVec.ofBool c1

/-- The stored nonet of nine data bits (R312). -/
def encNonet (d : BitVec 9) : Stored :=
  let c := checksOf d
  d ++ (BitVec.ofBool (parity d != parity c)) ++ c

/-- The poison check pattern (R314). -/
def poisonNonet : Stored := 0b00000000011111

/-- The classes of R313. -/
inductive NonetClass where
  | clean | correctable | poison | uncorrectable
deriving DecidableEq, Repr

/-- The syndrome c8 c4 c2 c1 of a stored nonet (R312). -/
def syndrome (x : Stored) : BitVec 4 := x.extractLsb' 0 4 ^^^ checksOf (x.extractLsb' 5 9)

/-- How a read classifies a stored nonet (R313). -/
def classify (x : Stored) : NonetClass :=
  let syn := (syndrome x).toNat
  if parity x then (if syn = 15 then .poison else if syn = 14 then .uncorrectable else .correctable)
  else if syn = 0 then .clean else .uncorrectable

/-- The data bit at a Hamming position, if the position holds one (R312). -/
def dataBitAt (pos : Nat) : Option Nat :=
  match pos with
  | 3 => some 0 | 5 => some 1 | 6 => some 2 | 7 => some 3 | 9 => some 4
  | 10 => some 5 | 11 => some 6 | 12 => some 7 | 13 => some 8
  | _ => none

/-- The data a read delivers for a clean or correctable nonet (R313). -/
def delivered (x : Stored) : BitVec 9 :=
  let d : BitVec 9 := x.extractLsb' 5 9
  if classify x = .correctable then
    match dataBitAt (syndrome x).toNat with
    | some i => d ^^^ BitVec.ofNat 9 (2 ^ i)
    | none => d
  else d

/-- Whether a read delivers the nonet poisoned (R313). -/
def isBad (x : Stored) : Bool := classify x = .poison || classify x = .uncorrectable

/-! ## Raw memory by place -/

def State.cell (s : State) (a : Nat) : Stored := tget 0 s.mem a
def State.setCell (s : State) (a : Nat) (v : Stored) : State := { s with mem := tput 0 s.mem a v }

/-- The canonical form of memory. (DESIGN CHOICE: log entry 6) -/
def Memory.wf (m : Tab Stored) : Bool := twf 0 m

/-- Writes the enabled nonets of a word with fresh check bits (R34, R316). -/
def State.writeWord (s : State) (place : Nat) (w : Word) (mask : BitVec 4) : State :=
  (List.range 4).foldl (fun s j =>
    if mask.getLsbD j then s.setCell (4 * place + j) (encNonet (w.extractLsb' (9 * j) 9)) else s) s

/-- Writes the poison check pattern into the enabled nonets of a word (R314). -/
def State.writePoison (s : State) (place : Nat) (mask : BitVec 4) : State :=
  (List.range 4).foldl (fun s j => if mask.getLsbD j then s.setCell (4 * place + j) poisonNonet else s) s

/-- The word at a place as a read delivers it, and whether it is poisoned (R315). -/
def State.readWord (s : State) (place : Nat) : Word × Bool :=
  ((List.range 4).foldl (fun (w : Word) j => w ||| (delivered (s.cell (4 * place + j))).setWidth 36 <<< (9 * j)) 0,
   (List.range 4).any (fun j => isBad (s.cell (4 * place + j))))

/-! ## The product register (R203 to R205) -/

/-- One issue slot of the thread passes for every product on its way (R203). -/
def Thread.tickProducts (t : Thread) : Thread :=
  { t with products := t.products.map (fun p => { p with left := p.left - 1 }) }

/-- The due products are written to PH:PL, oldest first (R203, R204). -/
def Thread.landDue (t : Thread) : Thread :=
  match (t.products.filter (fun p => p.left = 0)).getLast? with
  | none => t
  | some p => { t with ph := dHi p.value, pl := dLo p.value, products := t.products.filter (fun p => p.left ≠ 0) }

/-- Every pending product is written (R205, R237). -/
def Thread.landAll (t : Thread) : Thread :=
  match t.products.getLast? with
  | none => t
  | some p => { t with ph := dHi p.value, pl := dLo p.value, products := [] }

/-! ## Completion of floating-point instructions (R250) -/

/-- Flags are recorded at a completion: when one of them has its trap enabled, all of them are pending and a trap is requested (R250). -/
def Thread.fpDone (t : Thread) (fl : Flags5) : Thread :=
  if fl &&& t.ften = 0 then { t with fflags := t.fflags ||| fl }
  else { t with fflags := t.fflags ||| fl, fpend := t.fpend ||| fl, trapReq := true }

/-- One floating-point instruction completes: its result is written and its flags are recorded (R250). -/
def Thread.fpEnd (t : Thread) (p : FpPend) : Thread :=
  let t := p.fw.foldl (fun t x => t.wHalf x.1 x.2) t
  (match p.gw with
   | some (r, v) => t.wg r v
   | none => t).fpDone p.flags

/-- Every outstanding floating-point instruction completes, oldest first (R252). -/
def Thread.fpAll (t : Thread) : Thread := t.fpOut.foldl Thread.fpEnd { t with fpOut := [] }

/-- Whether a floating-point instruction has completed by a slot of the core's clock. -/
def FpPend.overBy (p : FpPend) (c : Nat) : Bool :=
  match p.due with
  | some d => decide (d ≤ c)
  | none => false

/-- The floating-point instructions whose latency is over complete (R235, R250). -/
def Thread.fpBy (t : Thread) (c : Nat) : Thread :=
  (t.fpOut.filter (fun p => p.overBy c)).foldl Thread.fpEnd { t with fpOut := t.fpOut.filter (fun p => !p.overBy c) }

/-! ## Registers before an outstanding access (R221) -/

/-- The registers as they stand. -/
def Thread.snap (t : Thread) : Snap :=
  { g := t.g, f := t.f, d := t.d, ph := t.ph, pl := t.pl, vl := t.vl, svl := t.svl, pkr := t.pkr, pc := t.pc, level := t.level, ften := t.ften,
    fpend := t.fpend, fflags := t.fflags, fpOut := t.fpOut, trapReq := t.trapReq, inup := t.inup, uie := t.uie, uentry := t.uentry,
    uee := t.uee, usplo := t.usplo, usphi := t.usphi, s := t.s, cause2 := t.cause2, m := t.m, tctlEn := t.tctlEn, gran := t.gran,
    root := t.root, asid := t.asid, tfsr := t.tfsr, products := t.products, tbh := t.tbh, openGrp := t.openGrp, dead := t.dead }

/-- The registers as they stood; lines that have been raised since stay pending. -/
def Thread.restore (t : Thread) (x : Snap) : Thread :=
  { t with g := x.g, f := x.f, d := x.d, ph := x.ph, pl := x.pl, vl := x.vl, svl := x.svl, pkr := x.pkr, pc := x.pc, level := x.level,
           ften := x.ften, fpend := x.fpend, fflags := x.fflags, fpOut := x.fpOut, trapReq := x.trapReq, inup := x.inup, uie := x.uie,
           uentry := x.uentry, uee := x.uee, usplo := x.usplo, usphi := x.usphi, s := { x.s with ip := t.s.ip }, cause2 := x.cause2,
           m := { x.m with ip := t.m.ip }, tctlEn := x.tctlEn, gran := x.gran, root := x.root, asid := x.asid, tfsr := x.tfsr,
           products := x.products, tbh := x.tbh, openGrp := x.openGrp, dead := x.dead }

/-- An outstanding access begins: it is numbered, with the registers as they stand. -/
def Thread.addLoad (t : Thread) (p : PendLoad) : Thread :=
  { t with loads := t.loads ++ [{ p with num := t.accNum, snap := t.snap }], accNum := t.accNum + 1 }

/-! ## Exceptions (R255 to R264) -/

/-- The code of a level (R255). -/
def lvNum : Level → BitVec 2
  | .user => 0
  | .supervisor => 1
  | .machine => 2

/-- The level of a code; 3 is reserved and never held (R255, R261). -/
def lvOf (n : BitVec 2) : Level :=
  match n.toNat with
  | 0 => .user
  | 1 => .supervisor
  | _ => .machine

/-- Cause codes (R257). -/
def causeCode : Cause → BitVec 6
  | .illegal => 1
  | .priv => 2
  | .align => 3
  | .xlate => 4
  | .keyv => 5
  | .buserr => 6
  | .poison => 7
  | .syscall => 8
  | .fptrap => 9
  | .upframe => 10

/-- An exception to be raised: its cause, XINFO, and whether it enters machine level whatever the current one (SEALWR, R287). -/
structure Exc where
  cause : Cause
  info : Word := 0
  toMachine : Bool := false
deriving DecidableEq, Repr

/-- The IE bit of a level's status register (R258). -/
def Thread.ieOf (t : Thread) (l : Level) : Bool :=
  match l with
  | .user => t.uie
  | .supervisor => t.s.ie
  | .machine => t.m.ie

/-- What entry saves in the shadow registers of the entered level (R258 steps 1 to 4). -/
def LevelRegs.saved (r : LevelRegs) (t : Thread) (c : CauseReg) (info xpc : Word) : LevelRegs :=
  { r with xpc := xpc, plv := lvNum t.level, pie := t.ieOf t.level, cause := c, info := info, busy := true, ie := false }

/-- The thread released from whatever held it (R267). -/
def Thread.released (t : Thread) : Thread :=
  { t with hold := .free, waiting := false, loads := [], dead := [],
           fencedAt := match t.hold with | .afence true _ => some (t.pc, false) | _ => t.fencedAt }

/-- Entry to supervisor or machine level (R258). -/
def Thread.enter (t : Thread) (machine : Bool) (c : CauseReg) (info xpc : Word) : Thread :=
  if machine then
    ({ t.released with m := t.m.saved t c info xpc, level := .machine }).goto t.m.entry
  else
    ({ t.released with s := t.s.saved t c info xpc, level := .supervisor }).goto t.s.entry

/-- The core locks up: LTH_LOCK and LTH_LOCKPC capture the event while VALID is 0; LTH_LOCKPC takes the address of the instruction at the PC,
which raised it (R263, R275). -/
def lockup (s : State) (th : Th) (fromLevel : BitVec 2) (code : BitVec 6) : State :=
  s.modLathe th.l (fun x =>
    if x.lockValid then { x with locked := true }
    else { x with locked := true, lockValid := true, lockThr := BitVec.ofFin th.t, lockFrom := fromLevel, lockCode := code,
                  lockPc := (s.thr th).pc })

/-- The level an exception enters: the more privileged of its target and the current level (R257). -/
def targetMachine (t : Thread) (e : Exc) : Bool :=
  e.toMachine || t.level = .machine || (e.cause = .syscall && t.level = .supervisor)

/-- Entry, escalation or lockup of an exception whose earlier work is complete (R258, R262, R263). -/
def enterException (s : State) (th : Th) (e : Exc) (xpc : Word) : State :=
  let t := s.thr th
  let lv := lvNum t.level
  let c : CauseReg := { fromLevel := lv, code := causeCode e.cause }
  if targetMachine t e then
    (if t.m.busy then lockup s th lv c.code else s.setThr th (t.enter true c e.info xpc))
  else if t.s.busy then
    (if t.m.busy then lockup s th lv c.code else s.setThr th (t.enter true { c with esc := true } e.info xpc))
  else s.setThr th (t.enter false c e.info xpc)

/-- What every entry completes first: floating-point instructions (R252) and products (R205). -/
def Thread.settle (t : Thread) : Thread := t.fpAll.landAll

/-- The floating-point trap is taken with XPC naming an instruction (R251 to R253); the request is consumed. -/
def takeFpTrap (s : State) (th : Th) (xpc : Word) : State :=
  let s := s.modThr th (fun t => { t.settle with trapReq := false })
  enterException s th { cause := .fptrap, info := (s.thr th).fpend.setWidth 36 } xpc

/-- Taking a synchronous exception of the instruction at the PC (R258). A trap request that exists once the outstanding
floating-point instructions have completed is taken in its place, with XPC naming that instruction (R252). -/
def takeException (s : State) (th : Th) (e : Exc) (xpc : Word) : State :=
  let s := s.modThr th Thread.settle
  let t := s.thr th
  if t.trapReq then takeFpTrap s th t.pc else enterException s th e xpc

/-- The return from supervisor or machine level through the shadow registers (R260). -/
def Thread.eretLevel (t : Thread) (r : LevelRegs) (machine : Bool) : Thread :=
  let lv := lvOf r.plv
  let t := if machine then { t with m := { t.m with busy := false } } else { t with s := { t.s with busy := false } }
  let t := { t with level := lv }
  let t := match lv with
    | .user => { t with uie := r.pie }
    | .supervisor => { t with s := { t.s with ie := r.pie } }
    | .machine => { t with m := { t.m with ie := r.pie } }
  t.goto r.xpc

/-! ## Interrupts (R265, R266) -/

/-- The lowest set bit of a line register. -/
def lowestBit {n : Nat} (w : BitVec n) : Option Nat := (List.range n).find? (fun i => w.getLsbD i)

/-- The machine lines that can be taken: enabled ones, and the watchdog line whatever the enable (R266). -/
def Thread.mLines (t : Thread) : BitVec 16 := t.m.ip &&& (t.m.ien ||| 0x8000)

/-- The interrupt that a boundary of the thread takes: level and line (R266). -/
def Thread.pick (t : Thread) : Option (Bool × Nat) :=
  let mOk := !t.m.busy && (t.level ≠ .machine || t.m.ie)
  let sOk := !t.s.busy && (t.level = .user || (t.level = .supervisor && t.s.ie))
  match (if mOk then lowestBit t.mLines else none) with
  | some n => some (true, n)
  | none => (if sOk then lowestBit (t.s.ip &&& t.s.ien) else none).map (fun n => (false, n))

/-- The user event that a boundary of the thread delivers, if none of the interrupts can be taken (R268). -/
def Thread.pickUser (t : Thread) : Option Nat :=
  if t.level = .user && t.uie && !t.inup && t.pick.isNone then lowestBit (t.uep &&& t.uee) else none

/-- Whether the thread stands between two instructions, its core running: no access of it is outstanding, no divide stops the core, and
no pair is half issued (R223, R226, R263). (DEDUCED: log entry 12) -/
def State.between (s : State) (th : Th) : Bool :=
  let t := s.thr th
  let x := s.lathe th.l
  t.started && x.ten.getLsbD th.t.val && !t.halted && t.loads.isEmpty && x.stall.isNone && !x.locked && !x.drain &&
    decide (x.pair ≠ some th.t)

/-- Whether the thread stands at an instruction boundary at which an interrupt may be taken (R205, R223, R226, R263, R266). -/
def State.atBoundary (s : State) (th : Th) : Bool := s.between th && (s.thr th).products.all (fun p => p.left < 2)

/-- LOCKUP_N: low while any lathe core or the headstock is locked (R263). -/
def State.lockupN (s : State) : Bool := !s.hs.locked && (List.finRange 16).all (fun l => !(s.lathe l).locked)

/-! ## Issue slots (R219, R232, R240) -/

/-- The first slot from `a` on in which a thread may issue: any slot, or its next turn under strict rotation (R232). -/
def Lathe.turnFrom (x : Lathe) (t : Fin 8) (a : Nat) : Nat := if x.detact then a + (t.val + 8 - a % 8) % 8 else a

/-- The slot that the issuing instruction has: the one before the core's next. -/
def Lathe.slot (x : Lathe) : Nat := x.clock - 1

/-- Slots that a divide or square root takes: they count, and strict rotation does not number them (R226, R232, R240). -/
def freezeSlots (s : State) (l : Fin 16) (n : Nat) : State :=
  s.modLathe l (fun x => { x with slotcnt := x.slotcnt + BitVec.ofNat 36 n, clock := if x.detact then x.clock else x.clock + n })

/-- The issuing instruction takes `n` slots: its thread's next `n` turns under strict rotation, else `n` slots of the core (R235, R246). -/
def takeSlots (s : State) (th : Th) (n : Nat) : State :=
  let x := s.lathe th.l
  if x.detact then s.modThr th (fun t => { t with busy := x.slot + 8 * n })
  else s.modLathe th.l (fun x => { x with slotcnt := x.slotcnt + BitVec.ofNat 36 (n - 1), clock := x.clock + (n - 1) })

/-- Two turns from a slot on under strict rotation: a taken branch, a jump, an entry or ERET (R235). -/
def twoTurns (s : State) (th : Th) (slot : Nat) : State :=
  if (s.lathe th.l).detact then s.modThr th (fun t => { t with busy := slot + 16 }) else s

/-- An entry between instructions takes the thread's next turn and the one after it (R235). -/
def entryTurns (s : State) (th : Th) : State :=
  let x := s.lathe th.l
  twoTurns s th (x.turnFrom th.t (max x.clock (s.thr th).busy))

/-- A register's value may be read from a slot on (R221, R235). -/
def Thread.usable (t : Thread) (r n : Nat) : Thread := { t with lat := tput 0 t.lat r n }

end Sys2Proof.Machine
end

