-- ==== Sys2Proof/Machine/Isa.lean ====
section
/-! DEFINITION. The instruction words of a lathe core: the formats of R195 and R113, the opcode map of R198 and the tables of
R199, R200, R202, R207, R210, R212, R215, R216 and R217, as a packing of each instruction's word and its reading back. -/
namespace Sys2Proof.Machine

/-- Format T (R195): OP 35..28, RD 27..23, RA 22..18, RB 17..13, FUNC 12..6, MOD 5..3, FORM 2..0. -/
def packT (op : BitVec 8) (func : BitVec 7) (f : TFld) : Word :=
  op ++ f.rd ++ f.ra ++ f.rb ++ func ++ f.mod ++ f.form

/-- Format I (R195): OP 35..28, RD 27..23, RA 22..18, IMM 17..0. -/
def packI (op : BitVec 8) (f : IFld) : Word := op ++ f.rd ++ f.ra ++ f.imm

/-- Format J (R195): OP 35..28, OFFSET 27..0. -/
def packJ (op : BitVec 8) (off : BitVec 28) : Word := op ++ off

/-- Format V (R113): 0b10, VFUNC, DW, DA, DB, DC, SP0, SCNT, RM, reserved. -/
def packV (v : VFld) : Word :=
  (0b10 : BitVec 2) ++ v.vfunc ++ v.dw ++ v.da ++ v.db ++ v.dc ++ v.sp0 ++ v.scnt ++ v.rm ++ v.rsv

def wordOp (w : Word) : BitVec 8 := w.extractLsb' 28 8
def wordFunc (w : Word) : BitVec 7 := w.extractLsb' 6 7
def wordT (w : Word) : TFld :=
  { rd := w.extractLsb' 23 5, ra := w.extractLsb' 18 5, rb := w.extractLsb' 13 5, mod := w.extractLsb' 3 3,
    form := w.extractLsb' 0 3 }
def wordI (w : Word) : IFld := { rd := w.extractLsb' 23 5, ra := w.extractLsb' 18 5, imm := w.extractLsb' 0 18 }
def wordJ (w : Word) : BitVec 28 := w.extractLsb' 0 28
def wordV (w : Word) : VFld :=
  { vfunc := w.extractLsb' 28 6, dw := w.extractLsb' 24 4, da := w.extractLsb' 20 4, db := w.extractLsb' 16 4,
    dc := w.extractLsb' 12 4, sp0 := w.extractLsb' 9 3, scnt := w.extractLsb' 6 3, rm := w.extractLsb' 3 3,
    rsv := w.extractLsb' 0 3 }

/-- The thread and the word of an instruction of a lathe core; none for every other command. -/
def instrWord : Instr → Option (Th × Word)
  | .add th f => some (th, packT 0o001 0o000 f)
  | .sub th f => some (th, packT 0o001 0o001 f)
  | .andG th f => some (th, packT 0o001 0o002 f)
  | .orG th f => some (th, packT 0o001 0o003 f)
  | .xorG th f => some (th, packT 0o001 0o004 f)
  | .andn th f => some (th, packT 0o001 0o005 f)
  | .shl th f => some (th, packT 0o001 0o010 f)
  | .shr th f => some (th, packT 0o001 0o011 f)
  | .shra th f => some (th, packT 0o001 0o012 f)
  | .rol th f => some (th, packT 0o001 0o013 f)
  | .slt th f => some (th, packT 0o001 0o020 f)
  | .sltu th f => some (th, packT 0o001 0o021 f)
  | .seq th f => some (th, packT 0o001 0o022 f)
  | .minG th f => some (th, packT 0o001 0o023 f)
  | .maxG th f => some (th, packT 0o001 0o024 f)
  | .minu th f => some (th, packT 0o001 0o025 f)
  | .maxu th f => some (th, packT 0o001 0o026 f)
  | .clz th f => some (th, packT 0o001 0o030 f)
  | .popc th f => some (th, packT 0o001 0o031 f)
  | .mul th f => some (th, packT 0o002 0o000 f)
  | .mulu th f => some (th, packT 0o002 0o001 f)
  | .madd th f => some (th, packT 0o002 0o002 f)
  | .maddu th f => some (th, packT 0o002 0o003 f)
  | .div th f => some (th, packT 0o002 0o010 f)
  | .divu th f => some (th, packT 0o002 0o011 f)
  | .rem th f => some (th, packT 0o002 0o012 f)
  | .remu th f => some (th, packT 0o002 0o013 f)
  | .fadd th f => some (th, packT 0o003 0o000 f)
  | .fsub th f => some (th, packT 0o003 0o001 f)
  | .fmul th f => some (th, packT 0o003 0o002 f)
  | .fma th f => some (th, packT 0o003 0o003 f)
  | .fms th f => some (th, packT 0o003 0o004 f)
  | .fnma th f => some (th, packT 0o003 0o005 f)
  | .fdiv th f => some (th, packT 0o003 0o010 f)
  | .fsqrt th f => some (th, packT 0o003 0o011 f)
  | .fmin th f => some (th, packT 0o003 0o020 f)
  | .fmax th f => some (th, packT 0o003 0o021 f)
  | .fabs th f => some (th, packT 0o003 0o022 f)
  | .fneg th f => some (th, packT 0o003 0o023 f)
  | .fmov th f => some (th, packT 0o003 0o024 f)
  | .frint th f => some (th, packT 0o003 0o025 f)
  | .fcmpeq th f => some (th, packT 0o004 0o000 f)
  | .fcmplt th f => some (th, packT 0o004 0o001 f)
  | .fcmple th f => some (th, packT 0o004 0o002 f)
  | .fcmpun th f => some (th, packT 0o004 0o003 f)
  | .fcvtsd th f => some (th, packT 0o004 0o010 f)
  | .fcvtds th f => some (th, packT 0o004 0o011 f)
  | .fcvtis th f => some (th, packT 0o004 0o012 f)
  | .fcvtid th f => some (th, packT 0o004 0o013 f)
  | .fcvtsi th f => some (th, packT 0o004 0o014 f)
  | .fcvtdi th f => some (th, packT 0o004 0o015 f)
  | .fmvgfL th f => some (th, packT 0o004 0o020 f)
  | .fmvgfH th f => some (th, packT 0o004 0o021 f)
  | .fmvfgL th f => some (th, packT 0o004 0o022 f)
  | .fmvfgH th f => some (th, packT 0o004 0o023 f)
  | .eret th f => some (th, packT 0o060 0o001 f)
  | .wait th f => some (th, packT 0o060 0o002 f)
  | .fbar th f => some (th, packT 0o060 0o010 f)
  | .vfence th f => some (th, packT 0o060 0o011 f)
  | .fenceR th f => some (th, packT 0o060 0o012 f)
  | .fenceW th f => some (th, packT 0o060 0o013 f)
  | .fenceRW th f => some (th, packT 0o060 0o014 f)
  | .tlbsync th f => some (th, packT 0o060 0o015 f)
  | .afence th f => some (th, packT 0o060 0o016 f)
  | .wrpkr th f => some (th, packT 0o060 0o020 f)
  | .setvl th f => some (th, packT 0o060 0o021 f)
  | .setsvl th f => some (th, packT 0o060 0o022 f)
  | .vchain th f => some (th, packT 0o060 0o030 f)
  | .vsusp th f => some (th, packT 0o060 0o031 f)
  | .vresume th f => some (th, packT 0o060 0o032 f)
  | .tlbinv th f => some (th, packT 0o060 0o040 f)
  | .tlbinvall th f => some (th, packT 0o060 0o041 f)
  | .addi th f => some (th, packI 0o010 f)
  | .andi th f => some (th, packI 0o011 f)
  | .ori th f => some (th, packI 0o012 f)
  | .xori th f => some (th, packI 0o013 f)
  | .slti th f => some (th, packI 0o014 f)
  | .sltiu th f => some (th, packI 0o015 f)
  | .shifti th f => some (th, packI 0o016 f)
  | .lui th f => some (th, packI 0o017 f)
  | .lw th f => some (th, packI 0o020 f)
  | .ln th f => some (th, packI 0o021 f)
  | .lfs th f => some (th, packI 0o022 f)
  | .lf th f => some (th, packI 0o023 f)
  | .sw th f => some (th, packI 0o024 f)
  | .sn th f => some (th, packI 0o025 f)
  | .sfs th f => some (th, packI 0o026 f)
  | .sf th f => some (th, packI 0o027 f)
  | .swm th f => some (th, packI 0o030 f)
  | .ldd th f => some (th, packI 0o031 f)
  | .stdd th f => some (th, packI 0o032 f)
  | .mtd th f => some (th, packI 0o033 f)
  | .mfd th f => some (th, packI 0o034 f)
  | .beq th f => some (th, packI 0o040 f)
  | .bne th f => some (th, packI 0o041 f)
  | .blt th f => some (th, packI 0o042 f)
  | .bge th f => some (th, packI 0o043 f)
  | .bltu th f => some (th, packI 0o044 f)
  | .bgeu th f => some (th, packI 0o045 f)
  | .dbnz th f => some (th, packI 0o046 f)
  | .jalr th f => some (th, packI 0o052 f)
  | .mfsr th f => some (th, packI 0o061 f)
  | .mtsr th f => some (th, packI 0o062 f)
  | .syscall th f => some (th, packI 0o063 f)
  | .setvli th f => some (th, packI 0o064 f)
  | .jal th off => some (th, packJ 0o050 off)
  | .j th off => some (th, packJ 0o051 off)
  | .vectorIssue th v => some (th, packV v)
  | _ => none

/-- The instruction of a FUNC value of major opcode 0o001 (R199). -/
def readInt (th : Th) (func : Nat) (f : TFld) : Option Instr :=
  match func with
  | 0o000 => some (.add th f)
  | 0o001 => some (.sub th f)
  | 0o002 => some (.andG th f)
  | 0o003 => some (.orG th f)
  | 0o004 => some (.xorG th f)
  | 0o005 => some (.andn th f)
  | 0o010 => some (.shl th f)
  | 0o011 => some (.shr th f)
  | 0o012 => some (.shra th f)
  | 0o013 => some (.rol th f)
  | 0o020 => some (.slt th f)
  | 0o021 => some (.sltu th f)
  | 0o022 => some (.seq th f)
  | 0o023 => some (.minG th f)
  | 0o024 => some (.maxG th f)
  | 0o025 => some (.minu th f)
  | 0o026 => some (.maxu th f)
  | 0o030 => some (.clz th f)
  | 0o031 => some (.popc th f)
  | _ => none

/-- The instruction of a FUNC value of major opcode 0o002 (R202). -/
def readMul (th : Th) (func : Nat) (f : TFld) : Option Instr :=
  match func with
  | 0o000 => some (.mul th f)
  | 0o001 => some (.mulu th f)
  | 0o002 => some (.madd th f)
  | 0o003 => some (.maddu th f)
  | 0o010 => some (.div th f)
  | 0o011 => some (.divu th f)
  | 0o012 => some (.rem th f)
  | 0o013 => some (.remu th f)
  | _ => none

/-- The instruction of a FUNC value of major opcode 0o003 (R212). -/
def readFp (th : Th) (func : Nat) (f : TFld) : Option Instr :=
  match func with
  | 0o000 => some (.fadd th f)
  | 0o001 => some (.fsub th f)
  | 0o002 => some (.fmul th f)
  | 0o003 => some (.fma th f)
  | 0o004 => some (.fms th f)
  | 0o005 => some (.fnma th f)
  | 0o010 => some (.fdiv th f)
  | 0o011 => some (.fsqrt th f)
  | 0o020 => some (.fmin th f)
  | 0o021 => some (.fmax th f)
  | 0o022 => some (.fabs th f)
  | 0o023 => some (.fneg th f)
  | 0o024 => some (.fmov th f)
  | 0o025 => some (.frint th f)
  | _ => none

/-- The instruction of a FUNC value of major opcode 0o004 (R215). -/
def readCvt (th : Th) (func : Nat) (f : TFld) : Option Instr :=
  match func with
  | 0o000 => some (.fcmpeq th f)
  | 0o001 => some (.fcmplt th f)
  | 0o002 => some (.fcmple th f)
  | 0o003 => some (.fcmpun th f)
  | 0o010 => some (.fcvtsd th f)
  | 0o011 => some (.fcvtds th f)
  | 0o012 => some (.fcvtis th f)
  | 0o013 => some (.fcvtid th f)
  | 0o014 => some (.fcvtsi th f)
  | 0o015 => some (.fcvtdi th f)
  | 0o020 => some (.fmvgfL th f)
  | 0o021 => some (.fmvgfH th f)
  | 0o022 => some (.fmvfgL th f)
  | 0o023 => some (.fmvfgH th f)
  | _ => none

/-- The instruction of a FUNC value of major opcode 0o060 (R216). -/
def readSys (th : Th) (func : Nat) (f : TFld) : Option Instr :=
  match func with
  | 0o001 => some (.eret th f)
  | 0o002 => some (.wait th f)
  | 0o010 => some (.fbar th f)
  | 0o011 => some (.vfence th f)
  | 0o012 => some (.fenceR th f)
  | 0o013 => some (.fenceW th f)
  | 0o014 => some (.fenceRW th f)
  | 0o015 => some (.tlbsync th f)
  | 0o016 => some (.afence th f)
  | 0o020 => some (.wrpkr th f)
  | 0o021 => some (.setvl th f)
  | 0o022 => some (.setsvl th f)
  | 0o030 => some (.vchain th f)
  | 0o031 => some (.vsusp th f)
  | 0o032 => some (.vresume th f)
  | 0o040 => some (.tlbinv th f)
  | 0o041 => some (.tlbinvall th f)
  | _ => none

/-- The instruction that a word spells for a thread (R198); none for an undefined opcode or FUNC (R196). -/
def readInstr (th : Th) (w : Word) : Option Instr :=
  if w.extractLsb' 34 2 = 0b10 then some (.vectorIssue th (wordV w))
  else match (wordOp w).toNat with
  | 0o001 => readInt th (wordFunc w).toNat (wordT w)
  | 0o002 => readMul th (wordFunc w).toNat (wordT w)
  | 0o003 => readFp th (wordFunc w).toNat (wordT w)
  | 0o004 => readCvt th (wordFunc w).toNat (wordT w)
  | 0o060 => readSys th (wordFunc w).toNat (wordT w)
  | 0o010 => some (.addi th (wordI w))
  | 0o011 => some (.andi th (wordI w))
  | 0o012 => some (.ori th (wordI w))
  | 0o013 => some (.xori th (wordI w))
  | 0o014 => some (.slti th (wordI w))
  | 0o015 => some (.sltiu th (wordI w))
  | 0o016 => some (.shifti th (wordI w))
  | 0o017 => some (.lui th (wordI w))
  | 0o020 => some (.lw th (wordI w))
  | 0o021 => some (.ln th (wordI w))
  | 0o022 => some (.lfs th (wordI w))
  | 0o023 => some (.lf th (wordI w))
  | 0o024 => some (.sw th (wordI w))
  | 0o025 => some (.sn th (wordI w))
  | 0o026 => some (.sfs th (wordI w))
  | 0o027 => some (.sf th (wordI w))
  | 0o030 => some (.swm th (wordI w))
  | 0o031 => some (.ldd th (wordI w))
  | 0o032 => some (.stdd th (wordI w))
  | 0o033 => some (.mtd th (wordI w))
  | 0o034 => some (.mfd th (wordI w))
  | 0o040 => some (.beq th (wordI w))
  | 0o041 => some (.bne th (wordI w))
  | 0o042 => some (.blt th (wordI w))
  | 0o043 => some (.bge th (wordI w))
  | 0o044 => some (.bltu th (wordI w))
  | 0o045 => some (.bgeu th (wordI w))
  | 0o046 => some (.dbnz th (wordI w))
  | 0o052 => some (.jalr th (wordI w))
  | 0o061 => some (.mfsr th (wordI w))
  | 0o062 => some (.mtsr th (wordI w))
  | 0o063 => some (.syscall th (wordI w))
  | 0o064 => some (.setvli th (wordI w))
  | 0o050 => some (.jal th (wordJ w))
  | 0o051 => some (.j th (wordJ w))
  | _ => none

end Sys2Proof.Machine
end

