-- ==== Sys2Proof/Machine/Evf.lean ====
section
/-! DEFINITION. The event fabric (R357 to R369): channels and their producers, consumer inputs and their arbiters, LUT cells. All
channels that one producer occurrence fires stand in one arbiter window; separate commands stand more than 3.0 ns apart. -/
namespace Sys2Proof.Machine

/-- Producer codes (R358). -/
def pselSpnEnd (s : Nat) : Nat := 1 + s
def pselSpnStrip (s : Nat) : Nat := 0o201 + s
def pselLut (n : Nat) : Nat := 0o401 + n
def pselTimer (t : Nat) : Nat := 0o441 + t
def pselPin (p : Nat) : Nat := 0o461 + p
def pselPps : Nat := 0o501
def pselJnlFill : Nat := 0o502
def pselTemp : Nat := 0o503
def pselLink (w : Nat) : Nat := 0o504 + w
def pselTamper : Nat := 0o512
def pselMemErr : Nat := 0o513
def pselDmaDone (c : Nat) : Nat := 0o514 + c

/-- Whether a producer code is reserved (R358). -/
def pselReserved (p : Nat) : Bool := decide (p > 0o523)

/-- The consumers of R361. -/
inductive Consumer where
  | gate (s : Nat)
  | dma (c : Nat)
  | timerStart (t : Nat)
  | timerStop (t : Nat)
  | checkpoint
  | pin (p : Nat)
  | line (l : Fin 16) (k : Nat)
  | reserved
deriving DecidableEq, Repr

/-- The consumer of an input number (R361). -/
def consumerOf (n : Nat) : Consumer :=
  if n < 0o200 then .gate n
  else if n < 0o210 then .dma (n - 0o200)
  else if n < 0o230 then .timerStart (n - 0o210)
  else if n < 0o250 then .timerStop (n - 0o230)
  else if n = 0o250 then .checkpoint
  else if n < 0o271 then .pin (n - 0o251)
  else if n < 0o300 then .reserved
  else if h : (n - 0o300) / 48 < 16 then
    (if (n - 0o300) % 48 = 31 then .reserved else .line ⟨(n - 0o300) / 48, h⟩ ((n - 0o300) % 48))
  else .reserved

def State.chan (s : State) (c : Nat) : Channel := tget {} s.evf.ch c
def State.modChan (s : State) (c : Nat) (f : Channel → Channel) : State :=
  { s with evf := { s.evf with ch := tmod {} s.evf.ch c f } }
def State.cin (s : State) (n : Nat) : Cin := tget {} s.evf.cin n
def State.modCin (s : State) (n : Nat) (f : Cin → Cin) : State :=
  { s with evf := { s.evf with cin := tmod {} s.evf.cin n f } }
def State.lut (s : State) (n : Nat) : Lut := tget {} s.evf.lut n
def State.modLut (s : State) (n : Nat) (f : Lut → Lut) : State :=
  { s with evf := { s.evf with lut := tmod {} s.evf.lut n f } }
def State.tmr (s : State) (n : Nat) : Tmr := tget {} s.evf.tmr n
def State.modTmr (s : State) (n : Nat) (f : Tmr → Tmr) : State :=
  { s with evf := { s.evf with tmr := tmod {} s.evf.tmr n f } }
def State.epin (s : State) (n : Nat) : Pin := tget {} s.evf.pins n
def State.modPin (s : State) (n : Nat) (f : Pin → Pin) : State :=
  { s with evf := { s.evf with pins := tmod {} s.evf.pins n f } }

/-- The signal of a level producer; none for a pulse producer (R357, R358). -/
def producerLevel (s : State) (p : Nat) : Option Bool :=
  if 0o401 ≤ p ∧ p < 0o441 then some (s.lut (p - 0o401)).out
  else if 0o461 ≤ p ∧ p < 0o501 then some (s.epin (p - 0o461)).level
  else if p = pselPps then some s.evf.pps
  else if p = pselJnlFill then some s.evf.jnlfill
  else if p = pselTemp then some s.evf.temp
  else if p = pselTamper then some s.evf.tamper
  else none

/-- The line bit of a lathe-line input in a thread (R361). -/
def lineBit (t : Thread) (k : Nat) : Bool :=
  if k < 16 then t.s.ip.getLsbD k else if k < 31 then t.m.ip.getLsbD (k - 16) else t.uep.getLsbD (k - 32)

/-- The thread with the line bit set (R361). -/
def setLine (t : Thread) (k : Nat) : Thread :=
  if k < 16 then { t with s := { t.s with ip := setBit t.s.ip k true } }
  else if k < 31 then { t with m := { t.m with ip := setBit t.m.ip (k - 16) true } }
  else { t with uep := setBit t.uep (k - 32) true }

/-- The threads of a lathe that a mask names. -/
def maskThreads (l : Fin 16) (mask : BitVec 8) : List Th := (threadsOf l).filter (fun th => mask.getLsbD th.t.val)

/-- Whether the group at the head of a spindle's queue waits to start. -/
def headWaits (s : State) (k : Nat) : Bool :=
  match (s.spin k).queue with
  | [] => false
  | g :: _ => match s.group g with
    | some x => !x.started
    | none => false

/-- Whether a reset holds the lathes (R479, R482). -/
def lathesReset (s : State) : Bool := s.rst.inProgress.isSome

/-- Whether a consumer is busy (R361). -/
def consumerBusy (s : State) (n : Nat) : Bool :=
  match consumerOf n with
  | .gate k => !headWaits s k
  | .dma c => match s.hs.chans.getD c none with
    | some x => !x.armed || x.running
    | none => true
  | .timerStart t => (s.tmr t).run
  | .timerStop _ => false
  | .checkpoint => !s.jnl.ckptBusy.isEmpty
  | .pin p => (s.epin p).pulsing
  | .line l k => lathesReset s || (maskThreads l (s.cin n).tmask).any (fun th => lineBit (s.thr th) k)
  | .reserved => true

/-- Whether a trigger of an input may be remembered: not one that reaches a lathe in reset (R361). -/
def remembers (s : State) (n : Nat) : Bool :=
  (s.cin n).mode && !(s.cin n).pend && (match consumerOf n with | .line _ _ => !lathesReset s | _ => true)

/-- A checkpoint of the entry committed last is due, one for each entry; H_0 stands as the empty string (R395, R398). -/
def startCheckpoint (s : State) : State :=
  if s.jnl.ckptBusy.any (fun c => c.seqno = s.jnl.head) then s
  else { s with jnl := { s.jnl with ckptBusy := s.jnl.ckptBusy ++
      [{ seqno := s.jnl.head, hash := s.jnl.hash, time := s.tb, mode := s.pwr.mode }] } }

/-! ## The start of a DMA transfer -/

/-- The Wovas engine sends a message. -/
def sendMsg (s : State) (m : WMsg) : State := { s with wov := { s.wov with tx := s.wov.tx ++ [m] } }

/-- The endpoint transmits a TLP; with the link down it is discarded (R447). -/
def transmit (s : State) (t : Tlp) : State := if s.pci.up then { s with pci := { s.pci with tx := s.pci.tx ++ [t] } } else s

def State.fnCfg (s : State) (f : Nat) : FnCfg := tget {} s.pci.fns f
def State.modFn (s : State) (f : Nat) (g : FnCfg → FnCfg) : State := { s with pci := { s.pci with fns := tmod {} s.pci.fns f g } }

/-- Four words of a header that the manual does not lay out: free values. -/
def freeHeader (s : State) : State × List (BitVec 32) :=
  (List.range 4).foldl (fun (x : State × List (BitVec 32)) _ =>
    let (i, s) := x.1.takeFree
    (s, x.2 ++ [(Config.freeWord i).setWidth 32])) (s, [])

/-- An error is reported through AER of a function; the first one logs its header (R434, R442). (PRESUMED: log entry 47) -/
def reportAer (s : State) (fn : Fin 16) (b : Nat) : State :=
  let f := s.fnCfg fn.val
  if f.aerUnc = 0 then
    let (s, h) := freeHeader s
    s.modFn fn.val (fun f => { f with aerUnc := setBit f.aerUnc b true, aerFirst := BitVec.ofNat 5 b, aerHdr := h })
  else s.modFn fn.val (fun f => { f with aerUnc := setBit f.aerUnc b true })

/-- A TLP of a function fails its ECRC: it is discarded, reported and counted (R442, R451). -/
def ecrcFails (s : State) (fn : Fin 16) : State := reportAer { s with pci := { s.pci with ecrc := satAdd s.pci.ecrc 1 } } fn 19

/-- A completion timeout is counted (R443, R451). -/
def countCto (s : State) : State := { s with pci := { s.pci with cto := satAdd s.pci.cto 1 } }

/-- Octets of a size field: 128 times a power of two, up to a limit (R434). -/
def sizeOctets (v : BitVec 3) (most : Nat) : Nat := min most (128 * 2 ^ v.toNat)

/-- Octets of a transfer (R37). -/
def octetLen (packing n : Nat) : Nat :=
  match packing with
  | 0 => 8 * n
  | 1 => 9 * (n / 2) + 5 * (n % 2)
  | _ => 4 * n

/-- The octets that one read request may ask for from an address: Max_Read_Request_Size, and no crossing of a 4,096-octet boundary (R434, R436). -/
def readLen (s : State) (fn : Fin 16) (a left : Nat) : Nat := min left (min (sizeOctets (s.fnCfg fn.val).mrrs 4096) (4096 - a % 4096))

/-- The next read request of an ingress transfer. (DEDUCED and DESIGN CHOICE: log entry 45) -/
def nextRequest (s : State) (x : Xfer) : Option (Nat × Nat) :=
  let left := octetLen x.packing.toNat x.count - x.got
  if left = 0 then none else some (x.host + x.got, readLen s x.ref.i (x.host + x.got) left)

/-- A running ingress transfer sends its next read request. -/
def sendRequest (s : State) (x : Xfer) : State :=
  match nextRequest s x with
  | some (a, n) => transmit s (.readReq x.ref.i a n)
  | none => s

/-- The read requests of a range of host memory (R436). -/
def requestRange : Nat → State → Fin 16 → Nat → Nat → State
  | 0, s, _, _, _ => s
  | fuel + 1, s, i, a, left =>
    if left = 0 then s
    else
      let k := readLen s i a left
      requestRange fuel (transmit s (.readReq i a k)) i (a + k) (left - k)

/-- The effect of a delivered trigger; a timer's start or stop waits for the tick that captures it, and a pulse of no ticks drives nothing (R15,
R361, R366, R368). -/
def deliver (s : State) (n : Nat) : State :=
  match consumerOf n with
  | .gate k => s.modSpin k (fun x => { x with gate := true })
  | .dma c =>
    let s := { s with hs := { s.hs with chans := modAt s.hs.chans c (Option.map (fun x => { x with running := true })) } }
    match s.hs.chans.getD c none with
    | some x =>
      if !x.out then sendRequest s x
      else match x.far with
        | some d => sendMsg s (.forward d x.ref [] 0 .start)
        | none => s
    | none => s
  | .timerStart t => s.modTmr t (fun x => { x with ask := some true })
  | .timerStop t => s.modTmr t (fun x => { x with ask := some false })
  | .checkpoint => startCheckpoint s
  | .pin p => s.modPin p (fun x =>
      if x.dir = false then x
      else match x.omode.toNat with
        | 1 => if x.width = 0 then x else { x with drive := true, pulsing := true, left := x.width.toNat }
        | 2 => { x with drive := !x.drive }
        | _ => x)
  | .line l k => (maskThreads l (s.cin n).tmask).foldl (fun s th => s.modThr th (fun t => setLine t k)) s
  | .reserved => s

/-- A trigger that an arbiter decides (R362). -/
def decideTrigger (s : State) (n : Nat) : State :=
  if !consumerBusy s n then deliver s n
  else if remembers s n then s.modCin n (fun x => { x with pend := true })
  else
    let s := s.modCin n (fun x => { x with ovr := true })
    { s with evf := { s.evf with ovrcnt := satAdd s.evf.ovrcnt 1 } }

/-- What one window brings to an input: a trigger, a cancel, or both, where the cancel wins (R362). (DESIGN CHOICE: log entry 33) -/
def decideInput (cs : List Nat) (s : State) (n : Nat) : State :=
  let x := s.cin n
  let trig := x.en && cs.contains x.ch.toNat
  let can := x.en && x.cen && cs.contains x.cch.toNat
  if trig && can then
    let s := s.modCin n (fun x => { x with pend := false, ccnt := satAdd x.ccnt 1 })
    { s with evf := { s.evf with cancnt := satAdd s.evf.cancnt 1 } }
  else if can then s.modCin n (fun x => { x with pend := false })
  else if trig then decideTrigger s n
  else s

/-- The LUT value of a cell (R363). -/
def lutValue (s : State) (n : Nat) : Bool :=
  let x := s.lut n
  let b (c : BitVec 7) : Nat := if (s.chan c.toNat).level then 1 else 0
  x.tt.getLsbD (8 * b x.in3 + 4 * b x.in2 + 2 * b x.in1 + b x.in0)

/-- A cell with its stored bit at a value; a change begins its filter anew (R364). -/
def Lut.store (x : Lut) (b : Bool) : Lut := if x.stored = b then x else { x with stored := b, diff := 0 }

/-- The events of one window: registered LUT cells are clocked and every input decides (R360, R362, R363). (DESIGN CHOICE: log entry 33) -/
def window (s : State) (cs : List Nat) : State :=
  if cs.isEmpty then s
  else
    let s := (s.evf.lut.map Prod.fst).foldl (fun s n =>
      let x := s.lut n
      if x.ff && cs.contains x.clk.toNat then s.modLut n (fun x => x.store (lutValue s n)) else s) s
    (s.evf.cin.map Prod.fst).foldl (decideInput cs) s

/-- Output pins in follow mode take the level of their channel, once software has written EVF_PINp (R367, R368). -/
def followPins (s : State) : State :=
  (s.evf.pins.map Prod.fst).foldl (fun s p =>
    let x := s.epin p
    let c := s.cin (0o251 + p)
    if x.dir && x.written && x.omode = 0 && c.en then s.modPin p (fun x => { x with drive := (s.chan c.ch.toNat).level }) else s) s

/-- The channels of a level producer take its signal; those whose edge is selected fire (R357). -/
def applyLevel (s : State) (p : Nat) (b : Bool) : State × List Nat :=
  (s.evf.ch.map Prod.fst).foldl (fun (s, cs) c =>
    let x := s.chan c
    if x.psel.toNat = p ∧ x.level ≠ b then
      let s := s.modChan c (fun x => { x with level := b })
      (s, if x.edge = 2 || (x.edge = 0 && b) || (x.edge = 1 && !b) then cs ++ [c] else cs)
    else (s, cs)) (s, [])

/-- A set of channels that each have one occurrence: a ready channel passes it, a channel that still holds an event merges it
(R359). Answers the channels that pass. -/
def acceptEvents (s : State) (cs : List Nat) : State × List Nat :=
  (cs.foldl (fun s c => if (s.chan c).held then s.modChan c (fun x => { x with merge := true }) else s) s,
   cs.filter (fun c => !(s.chan c).held))

/-- A cell whose output follows its inputs at once. -/
def lutDirect (s : State) (n : Nat) : Bool := !(s.lut n).ff && (s.lut n).filt = 0

/-- The cells that a cell reads, through the channels that they drive (R358, R363). -/
def lutReads (s : State) (n : Nat) : List Nat :=
  let x := s.lut n
  [x.in0, x.in1, x.in2, x.in3].filterMap (fun c =>
    let p := (s.chan c.toNat).psel.toNat
    if 0o401 ≤ p ∧ p < 0o441 then some (p - 0o401) else none)

/-- The direct cells among those that cells of a list come to read within some steps. -/
def lutReach (s : State) : Nat → List Nat → List Nat
  | 0, ns => ns
  | fuel + 1, ns => lutReach s fuel (ns ++ (ns.flatMap (lutReads s)).filter (fun m => lutDirect s m && !ns.contains m)).eraseDups

/-- Whether a cell stands in a loop of direct cells, which software must not form (R365). -/
def lutLoops (s : State) (n : Nat) : Bool :=
  lutDirect s n && (lutReach s 32 ((lutReads s n).filter (lutDirect s))).contains n

/-- Unregistered cells follow their LUT value (R363). -/
def followLuts (s : State) : State :=
  (s.evf.lut.map Prod.fst).foldl (fun s n =>
    if (s.lut n).ff then s else s.modLut n (fun x => x.store (lutValue s n))) s

/-- The cells outside the list of loops whose output follows the stored bit at once and differs from it (R364). -/
def unsettled (s : State) (loops : List Nat) : List Nat :=
  (s.evf.lut.map Prod.fst).filter (fun n => let x := s.lut n; x.filt = 0 && x.out != x.stored && !loops.contains n)

/-- A cell's output put to a value, its channels following (R364). -/
def setLutOut (s : State) (n : Nat) (b : Bool) : State × List Nat :=
  applyLevel (s.modLut n (fun x => { x with out := b, diff := 0 })) (pselLut n) b

/-- Outputs of cells change together, and their channels' events pass in one window. -/
def moveLuts (s : State) (ns : List (Nat × Bool)) : State :=
  let (s, cs) := ns.foldl (fun (s, cs) (n, b) =>
    let (s, cs') := setLutOut s n b
    (s, cs ++ cs')) (s, [])
  let (s, cs) := acceptEvents s cs
  window s cs

/-- The cells outside loops settle, one window after another. -/
def settleLuts (loops : List Nat) : Nat → State → State
  | 0, s => s
  | fuel + 1, s =>
    let s := followLuts s
    match unsettled s loops with
    | [] => s
    | ns => settleLuts loops fuel (moveLuts s (ns.map (fun n => (n, (s.lut n).stored))))

/-- The cells of forbidden loops have undefined outputs: free values (R365). (DESIGN CHOICE: log entry 15) -/
def moveLoops (s : State) (loops : List Nat) : State :=
  let (s, ns) := loops.foldl (fun (s, ns) n =>
    let (i, s) := s.takeFree
    (s, ns ++ [(n, Config.freeBool i)])) (s, [])
  if loops.isEmpty then s else moveLuts s ns

/-- After any change of channel levels: cells settle and follow-mode pins move. -/
def settleFabric (s : State) : State :=
  let loops := (s.evf.lut.map Prod.fst).filter (lutLoops s)
  followPins (settleLuts loops 64 (moveLoops s loops))

/-- The channels in `cs` pass their events in one window. (DESIGN CHOICE: log entry 33) -/
def passEvents (s : State) (cs : List Nat) : State := settleFabric (window s cs)

/-- Whether a channel's producer is a level producer. -/
def isLevelChan (s : State) (c : Nat) : Bool := (producerLevel s (s.chan c).psel.toNat).isSome

/-- Occurrences in one window on channels of level producers, whose levels have moved, and of pulse producers, which toggle as they pass
(R357, R359, R362). -/
def passTogether (s : State) (levels pulses : List Nat) : State :=
  let (s, cs) := acceptEvents s (levels ++ pulses)
  passEvents ((cs.filter (fun c => pulses.contains c)).foldl (fun s c => s.modChan c (fun x => { x with level := !x.level })) s) cs

/-- One occurrence on each of a set of pulse channels: those that pass toggle their level and fire (R357, R359). -/
def pulseChans (s : State) (cs : List Nat) : State := passTogether s [] cs

/-- The channels that select a producer. -/
def chansOf (s : State) (p : Nat) : List Nat :=
  (s.evf.ch.map Prod.fst).filter (fun c => (s.chan c).psel.toNat = p)

/-- An occurrence of a pulse producer (R357). -/
def firePulse (s : State) (p : Nat) : State :=
  let cs := chansOf s p
  if cs.isEmpty then s else pulseChans s cs

/-- Several occurrences of one pulse producer in one window: the first passes, the next is held, any further one merges (R359). (DESIGN CHOICE: log entry 33) -/
def firePulses (s : State) (p k : Nat) : State :=
  if k = 0 then s
  else
    let s := firePulse s p
    if k = 1 then s
    else (chansOf s p).foldl (fun s c => s.modChan c (fun x =>
      { x with held := true, merge := x.merge || x.held || k > 2 })) s

/-- The signals of level producers have moved, in one window with occurrences of pulse producers (R357, R362). -/
def occur (s : State) (moves : List (Nat × Bool)) (pulses : List Nat) : State :=
  let (s, cs) := moves.foldl (fun (s, cs) (p, b) =>
    let (s, cs') := applyLevel s p b
    (s, cs ++ cs')) (s, [])
  passTogether s cs (pulses.flatMap (chansOf s))

/-- A level producer's signal has moved: its channels follow and fire (R357). -/
def moveLevel (s : State) (p : Nat) (b : Bool) : State := occur s [(p, b)] []

/-- A held event passes once its channel is ready again (R359). -/
def passHeld (s : State) (c : Nat) : State :=
  if (s.chan c).held then
    let s := s.modChan c (fun x => { x with held := false })
    if isLevelChan s c then passEvents s [c]
    else passEvents (s.modChan c (fun x => { x with level := !x.level })) [c]
  else s

/-- EVF_FIRE: the named channel fires once, after a producer event that it still holds; a pulse or NONE channel also toggles its level (R357,
R359). -/
def fireChannel (s : State) (c : Nat) : State :=
  let s := passHeld s c
  if isLevelChan s c then passEvents s [c] else pulseChans s [c]

/-- A remembered trigger is delivered once its consumer ceases to be busy (R362). -/
def deliverRemembered (s : State) (n : Nat) : State :=
  if (s.cin n).en && (s.cin n).pend && !consumerBusy s n then
    (deliver s n).modCin n (fun x => { x with pend := false })
  else s

/-- Fill: the head of R399, which is the SEQ of the entry written last, minus the drained SEQ (R399 to R401). (DEDUCED: log entry 38) -/
def State.jnlFill (s : State) : Nat := min (s.jnl.written - s.jnl.drained) 786432

/-- The JNLFILL producer follows the journal's fill (R358, R401). -/
def updateJnlFill (s : State) : State :=
  let b : Bool := s.jnlFill ≥ s.jnl.thr.toNat
  if s.evf.jnlfill = b then s
  else moveLevel { s with evf := { s.evf with jnlfill := b } } pselJnlFill b

end Sys2Proof.Machine
end

