-- ==== Sys2Proof/Machine/Mem.lean ====
section
/-! DEFINITION. Memory as its masters reach it: the physical map (R16), interleave (R45), the ownership judgement (R54, R55), the
error counters and the error log (R313 to R318, R335, R336), and the reads and writes of banks, scratchpads, headstock SRAM and
ROM that every path uses. -/
namespace Sys2Proof.Machine

/-! ## The physical map -/

/-- What a word address selects: an area of the physical map (R16), or the staging pool, which lies outside it (R346). -/
inductive Area where
  | bank
  | scratch (l : Nat)
  | hsram
  | hsrom
  | regs (off : Nat)
  | array (d : BitVec 6) (off : BitVec 26)
  | host (off : BitVec 33)
  | staging
  | reserved
deriving DecidableEq, Repr

/-- Where the model keeps the staging pool's 256 buffers of 4,096 words: beyond every physical address, by word index (R341, R346). (DESIGN CHOICE: log entry 65) -/
def stagingBase : Nat := 2 ^ 34

/-- The area of an address (R16). -/
def areaOf (pa : Nat) : Area :=
  if pa < 0o000400000000 then .bank
  else if pa < 0o000420000000 then .scratch ((pa - 0o000400000000) / 0o1000000)
  else if pa < 0o000440000000 then .reserved
  else if pa < 0o000444000000 then .hsram
  else if pa < 0o000444200000 then .hsrom
  else if pa < 0o000450000000 then .reserved
  else if pa < 0o000454000000 then
    (if pa - 0o000450000000 < 0o650000 then .regs (pa - 0o000450000000) else .reserved)
  else if pa < 0o040000000000 then .reserved
  else if pa < 0o100000000000 then
    .array (BitVec.ofNat 6 ((pa - 0o040000000000) / 0o400000000)) (BitVec.ofNat 26 (pa - 0o040000000000))
  else if pa < 0o200000000000 then .host (BitVec.ofNat 33 (pa - 0o100000000000))
  else if pa < stagingBase + 2 ^ 20 then .staging
  else .reserved

/-- The bank that holds an address of the bank range, under the group's skew (R45). -/
def bankOf (s : State) (a : Nat) : Nat :=
  let sp := a / 2 ^ 19
  let b := a / 4 % 8
  8 * sp + (if (s.bank (8 * sp)).skew then b ^^^ (a / 1024 % 8) else b)

/-- The quad row of an address of the bank range (R45). -/
def rowOf (a : Nat) : Nat := a / 32 % 16384

/-- The place of a word in memory: its bank, row and word for the bank range, its address elsewhere (R45). -/
def placeOf (s : State) (pa : Nat) : Nat :=
  if pa < 0o000400000000 then 65536 * bankOf s pa + 4 * rowOf pa + pa % 4 else pa

/-! ## Instances -/

/-- The instance of a lathe (R415). A lathe of no instance has none the manual states: a free value. (DESIGN CHOICE: log entry 16) -/
def latheInst (s : State) (l : Nat) : BitVec 4 :=
  match (List.range 16).find? (fun i => (tget {} s.hs.insts i).lathes.getLsbD l) with
  | some i => BitVec.ofNat 4 i
  | none => BitVec.ofNat 4 (Config.freeNat l)

/-- Whether a MIGRATE of an instance is running (R54, R470). -/
def migrating (s : State) (i : BitVec 4) : Bool :=
  s.hs.slots.any (fun (k, x) => x.st = 3 && x.copy.head? = some 0x11 && k / 256 = i.toNat)

/-! ## Requests at a bank -/

/-- A bank request's sender: class of R53, ID, instance, its lathe, the epoch its writes carry, and whether it is the scrubber. -/
structure Req where
  cl : BitVec 3
  id : Nat := 0
  inst : BitVec 4 := 0
  lathe : Option Nat := none
  epoch : Option (BitVec 9) := none
  scrub : Bool := false
deriving DecidableEq, Repr

def reqCore (s : State) (l : Nat) : Req :=
  { cl := 1, id := l, inst := latheInst s l, lathe := some l, epoch := some (tget {} s.lathes l).epoch }
/-- A table walk carries no epoch (R283). -/
def reqWalk (s : State) (l : Nat) : Req := { reqCore s l with epoch := none }
def reqStream (k : Nat) (inst : BitVec 4) (ep : BitVec 9) : Req :=
  { cl := 0, id := k, inst := inst, lathe := some (k / 8), epoch := some ep }
def reqDma (c : Nat) (inst : BitVec 4) : Req := { cl := 2, id := c, inst := inst }
def reqWovas (inst : BitVec 4) (ep : Option (BitVec 9)) : Req := { cl := 3, inst := inst, epoch := ep }
def reqTail : Req := { cl := 4 }
def reqTest : Req := { cl := 5 }
def reqHead : Req := { cl := 7 }
def reqScrub : Req := { cl := 6, scrub := true }

/-- Whether a bank refuses every write for a seal lock (R54, R60, R62). -/
def Bank.writeLocked (b : Bank) : Bool := b.sealed || b.drain = some .sealLock || b.drain = some .cancelled

/-- PENDING of BNK_OWN (R64). -/
def Bank.isPending (b : Bank) : Bool := b.drain.isSome || b.march

/-- Whether R54 permits a request, retirement and pending state apart. -/
def permits (s : State) (n : Nat) (q : Req) (write : Bool) : Bool :=
  let b := s.bank n
  let idle := !b.isPending && !b.sealed && !b.retired
  if write && b.writeLocked then false
  else if q.scrub then !write || idle
  else
    (q.cl = b.ownCl && q.id = b.ownId.toNat && q.inst = b.inst) ||
    ((b.lend = 2 || (b.lend = 1 && !write)) && q.inst = b.inst &&
      (match b.lscope.toNat with
       | 0 => (q.cl = 0 || q.cl = 1) && q.lathe = some (n / 64)
       | 1 => q.cl ≠ 3
       | 2 => true
       | _ => false)) ||
    (q.cl = 4 && !write && b.sealed) ||
    (q.cl = 7 && (if write then idle else !b.retired)) ||
    (q.cl = 3 && !write && migrating s b.inst && q.inst = b.inst)

/-- What becomes of a bank request. -/
inductive Verdict where
  | granted
  | nonOwner
  | retired
  | stalls
  | stale
deriving DecidableEq, Repr

/-- The judgement of a request at a bank: retirement (R71), R54, then the stall of a pending bank (R57, R46, R60, R326), then the
epoch of a permitted write (R55). -/
def judge (s : State) (n : Nat) (q : Req) (write : Bool) : Verdict :=
  let b := s.bank n
  if q.scrub then (if permits s n q write then .granted else .nonOwner)
  else if b.retired then .retired
  else if !permits s n q write then .nonOwner
  else if b.march && q.cl ≠ 5 then .stalls
  else if b.drain = some .handover || b.drain = some .skew then .stalls
  else if write then
    match q.epoch with
    | some e => if e = b.epoch then .granted else .stale
    | none => .granted
  else .granted

/-- A non-owner access is counted, and captured while NOWN is 0 (R66, R67). -/
def recordNown (s : State) (n : Nat) (q : Req) (write : Bool) (row : Nat) : State :=
  s.modBank n (fun b =>
    let b := if b.nown then b else
      { b with fault := { wr := write, mcl := q.cl, mid := BitVec.ofNat 7 q.id, minst := q.inst, row := BitVec.ofNat 14 row } }
    { b with nown := true, nownCnt := satAdd b.nownCnt 1 })

/-- A discarded write of a stale epoch is counted (R55, R69). -/
def recordStale (s : State) (n : Nat) (q : Req) : State :=
  s.modBank n (fun b => { b with staleCnt := satAdd b.staleCnt 1, lastEp := q.epoch.getD 0 })

/-! ## The error log (R335, R336) -/

def errCE : BitVec 6 := 1
def errUE : BitVec 6 := 2
def errCtlBus : BitVec 6 := 3
def errHard : BitVec 6 := 4
def errRepair : BitVec 6 := 5
def errRetire : BitVec 6 := 6
def errBankWd : BitVec 6 := 7
def errChkFail : BitVec 6 := 8
def errMarch : BitVec 6 := 9
def errBgTest : BitVec 6 := 10
def errMapErr : BitVec 6 := 11

/-- Events enter the 64-entry log and fire MEMERR; with the log full an entry is dropped and OVF set (R336). -/
def logErrs (s : State) (es : List ErrEntry) : State :=
  if es.isEmpty then s
  else
    let room := 64 - s.scr.log.length
    let fit := es.take room
    let s := { s with scr := { s.scr with log := s.scr.log ++ fit, ovf := s.scr.ovf || es.length > room } }
    firePulses s pselMemErr fit.length

/-- An error entry about a nonet at a physical address (R341). -/
def errAt (s : State) (code : BitVec 6) (pa j : Nat) : ErrEntry :=
  let x := s.cell (4 * placeOf s pa + j)
  { code := code,
    mem := match areaOf pa with | .bank => 0 | .scratch _ => 1 | .staging => 3 | _ => 2,
    nonet := BitVec.ofNat 2 j,
    syn := syndrome x ++ BitVec.ofBool (parity x),
    bank := match areaOf pa with | .bank => BitVec.ofNat 10 (bankOf s pa) | _ => 0,
    pa := BitVec.ofNat 34 (match areaOf pa with | .staging => pa - stagingBase | _ => pa) }

/-- The nonets of a word that a read examines, counted and logged (R317, R318): `ctl` for a control path. -/
def examine (s : State) (ctl : Bool) (pa : Nat) (mask : BitVec 4) : State :=
  let js := (List.range 4).filter (fun j => mask.getLsbD j)
  let cls := fun j => classify (s.cell (4 * placeOf s pa + j))
  let ce := (js.filter (fun j => cls j = .correctable)).length
  let ue := (js.filter (fun j => cls j = .uncorrectable)).length
  let es := js.filterMap (fun j => match cls j with
    | .correctable => if s.scr.logce then some (errAt s errCE pa j) else none
    | .uncorrectable => some (errAt s (if ctl then errCtlBus else errUE) pa j)
    | .poison => if ctl then some (errAt s errCtlBus pa j) else none
    | .clean => none)
  if ce = 0 && ue = 0 && es.isEmpty then s
  else logErrs { s with scr := { s.scr with ce := satAdd s.scr.ce ce, ue := satAdd s.scr.ue ue } } es

/-! ## Reads and writes of stored words -/

/-- The arbiter of the target at an address: each bank group, scratchpad, memory and window has one (R346, R348). -/
def portKey (pa : Nat) : Option Nat :=
  match areaOf pa with
  | .bank => some (pa / 2 ^ 19)
  | .scratch l => some (1024 + l)
  | .hsram => some 1040
  | .hsrom => some 1041
  | .staging => some 1044
  | .array _ _ => some 1045
  | .host _ => some 1046
  | _ => none

/-- Whether a request goes past the fabric's arbiters: a spindle's to its own banks (R44), in deterministic operation a core's to its scratchpad
and the ROM (R233), and the scrubber's, which yields at the port itself (R50). -/
def Req.direct (s : State) (q : Req) (pa : Nat) : Bool :=
  q.scrub || (q.cl = 0 && areaOf pa = .bank && pa / 2 ^ 19 = q.id) ||
    (q.cl = 1 && (tget {} s.lathes q.id).detact && (areaOf pa = .scratch q.id || areaOf pa = .hsrom))

/-- Whether a request waits at its target behind a burst that holds the path (R348). (DESIGN CHOICE: log entry 31) -/
def pathBusy (s : State) (q : Req) (pa : Nat) : Bool :=
  !q.direct s pa && (portKey pa).any (fun k => (tget {} s.fab.arb k).held.isSome)

/-- Whether a request is presented at a target and stalls there: behind a held burst, or at a pending bank (R57, R348). -/
def reqStalls (s : State) (q : Req) (pa : Nat) (write : Bool) : Bool :=
  pathBusy s q pa || (areaOf pa = .bank && judge s (bankOf s pa) q write = .stalls)

/-- The outcome of a read: words with their poison marks, a bus error, or a request that still stalls. -/
inductive Rd where
  | ok (ws : List (Word × Bool))
  | bus
  | stall
deriving DecidableEq, Repr

/-- The outcome of a write. -/
inductive Wr where
  | ok
  | bus
  | stall
deriving DecidableEq, Repr

/-- A word with only the enabled nonets judged for poison (R315, R317). -/
def State.readMasked (s : State) (place : Nat) (mask : BitVec 4) : Word × Bool :=
  ((s.readWord place).1, (List.range 4).any (fun j => mask.getLsbD j && isBad (s.cell (4 * place + j))))

/-- Reads `k` consecutive words of one quad at an address of banks, scratchpads, headstock SRAM or ROM. `mask` names the nonets
of each word that the path uses, `exam` those it examines (R317). -/
def readMem (s : State) (q : Req) (ctl : Bool) (pa k : Nat) (mask exam : BitVec 4) : State × Rd :=
  let go (s : State) : State × Rd :=
    ((List.range k).foldl (fun s i => examine s ctl (pa + i) exam) s,
     .ok ((List.range k).map (fun i => s.readMasked (placeOf s (pa + i)) mask)))
  if pathBusy s q pa then (s, .stall)
  else match areaOf pa with
  | .bank =>
    let n := bankOf s pa
    match judge s n q false with
    | .granted => go s
    | .stale => go s
    | .nonOwner => (recordNown s n q false (rowOf pa), .bus)
    | .retired => (s, .bus)
    | .stalls => (s, .stall)
  | .scratch _ => go s
  | .hsram => go s
  | .hsrom => go s
  | .staging => go s
  | _ => (s, .bus)

/-- A granted write of a quad cancels the scrubber's waiting writes to it (R321). -/
def cancelFixes (s : State) (place : Nat) : State :=
  let f (w : Walk) : Walk := { w with fixes := w.fixes.filter (fun x => x.1 / 16 ≠ place / 4) }
  { s with scr := { s.scr with walkBank := f s.scr.walkBank, walkScratch := f s.scr.walkScratch, walkHsram := f s.scr.walkHsram } }

/-- Stores a word, or the poison pattern, under a mask at a place; an empty mask changes nothing (R34, R35, R316). -/
def State.store (s : State) (place : Nat) (w : Word) (mask : BitVec 4) (poison : Bool) : State :=
  if mask = 0 then s else cancelFixes (if poison then s.writePoison place mask else s.writeWord place w mask) place

/-- An area whose words can be written (R16, R17). -/
def Area.writable : Area → Bool
  | .bank => true
  | .scratch _ => true
  | .hsram => true
  | .staging => true
  | _ => false

/-- Writes several words of one quad of banks, scratchpads, headstock SRAM or the staging pool, judged once; a refusal writes none of them (R209,
R269). Under empty masks the write completes and changes nothing (R35); the headstock ROM refuses every write (R17). -/
def writeQuad (s : State) (q : Req) (pa : Nat) (ws : List (Word × BitVec 4 × Bool)) : State × Wr :=
  let go (s : State) : State :=
    (ws.zipIdx).foldl (fun s (x, i) => s.store (placeOf s (pa + i)) x.1 x.2.1 x.2.2) s
  if !(areaOf pa).writable then (s, .bus)
  else if ws.all (fun x => x.2.1 = 0) then (s, .ok)
  else if pathBusy s q pa then (s, .stall)
  else match areaOf pa with
  | .bank =>
    let n := bankOf s pa
    match judge s n q true with
    | .granted => (go s, .ok)
    | .stale => (recordStale s n q, .ok)
    | .nonOwner => (recordNown s n q true (rowOf pa), .bus)
    | .retired => (s, .bus)
    | .stalls => (s, .stall)
  | _ => (go s, .ok)

/-- Writes one word. -/
def writeMem (s : State) (q : Req) (pa : Nat) (w : Word) (mask : BitVec 4) (poison : Bool) : State × Wr :=
  writeQuad s q pa [(w, mask, poison)]

/-! ## The fabric's paths (R345, R346) -/

/-- Class code and ID of a master (R345). -/
def masterCode : Master → BitVec 4 × BitVec 7
  | .core th => (0, BitVec.ofNat 7 th.l.val)
  | .stream k => (1, BitVec.ofNat 7 k.val)
  | .dma c => (2, BitVec.ofNat 7 c.val)
  | .wovas k => (3, BitVec.ofNat 7 k.val)
  | .head => (4, 0)
  | .tail => (5, 0)
  | .test => (6, 0)
  | .scrub => (7, 0)
  | .pciein f => (8, BitVec.ofNat 7 f.val)
  | .debugPort => (9, 0)

/-- The base of the register region (R16). -/
def regBase : Nat := 0o000450000000

/-- A fabric error: captured while VALID is 0, and counted (R355). -/
def fabricError (s : State) (m : Master) (timeout write : Bool) (pa : Nat) : State :=
  let f := s.fab
  let f := if f.valid then f else
    { f with valid := true, kind := timeout, wr := write, mcl := (masterCode m).1, mid := (masterCode m).2,
             eaddr := BitVec.ofNat 34 pa }
  { s with fab := { f with count := satAdd f.count 1 } }

/-- Whether a path exists from a master to an area (R346); the banks are open to the host in Open mode alone. -/
def reaches (openMode : Bool) (m : Master) : Area → Bool
  | .reserved => false
  | .staging => match m with
    | .dma _ => true
    | .wovas _ => true
    | .head => true
    | .tail => true
    | _ => false
  | .bank => match m with
    | .pciein _ => openMode
    | .debugPort => false
    | _ => true
  | .scratch l => match m with
    | .core th => th.l.val = l
    | .stream k => k.val / 8 = l
    | .dma _ => true
    | .head => true
    | .scrub => true
    | _ => false
  | .hsram => match m with
    | .wovas _ => true
    | .head => true
    | .tail => true
    | .scrub => true
    | _ => false
  | .hsrom => match m with
    | .core _ => true
    | .head => true
    | .tail => true
    | _ => false
  | .regs _ => match m with
    | .core _ => true
    | .head => true
    | .tail => true
    | .pciein _ => true
    | .debugPort => true
    | _ => false
  | .array _ _ => match m with
    | .core _ => true
    | .stream _ => true
    | .head => true
    | _ => false
  | .host _ => match m with
    | .core _ => true
    | .head => true
    | _ => false

/-- Whether a path exists from a master to the area of an address (R346). (DEDUCED: log entry 57) -/
def hasPath (s : State) (m : Master) (pa : Nat) : Bool := reaches (s.pwr.mode = 6) m (areaOf pa)

/-- Whether a master's read is a control access (R318): the firmware and data of the headstock, and of the tailstock outside the banks,
whose contents it hashes. -/
def controlRead (m : Master) (pa : Nat) : Bool :=
  match m with
  | .head => true
  | .tail => areaOf pa ≠ .bank
  | _ => false

/-- A control-path bus error of the headstock or the tailstock halts it (R318, R492). -/
def haltEngine (s : State) (m : Master) : State :=
  match m with
  | .head => { s with hs := { s.hs with halted := true } }
  | .tail => { s with ts := { s.ts with halted := true } }
  | _ => s

/-- What a master's read of whole words comes to: a control access that meets poison is a bus error of its engine (R318). -/
def judgeRead (s : State) (m : Master) (pa : Nat) (ws : List (Word × Bool)) : State × Option (List (Word × Bool)) :=
  if controlRead m pa && ws.any Prod.snd then (haltEngine s m, none) else (s, some ws)

end Sys2Proof.Machine
end

