-- ==== Sys2Proof/Machine/Mmu.lean ====
section
/-! DEFINITION. Address translation (R276 to R294): the granules, the walk, the leaf checks, the setting of A and D, and the TLBs
of lathe cores and spindles. -/
namespace Sys2Proof.Machine

/-- Access kinds, with the codes of TFSR.ACC (R299). -/
inductive AccKind where
  | fetch | read | write
deriving DecidableEq, Repr

def accCode : AccKind → BitVec 2
  | .fetch => 0
  | .read => 1
  | .write => 2

/-- Reasons of R285. -/
def xInvalid : BitVec 4 := 1
def xRsvd : BitVec 4 := 2
def xMisalign : BitVec 4 := 3
def xRights : BitVec 4 := 4
def xUser : BitVec 4 := 5
def xSealWr : BitVec 4 := 6
def xKey : BitVec 4 := 7
def xWalkBus : BitVec 4 := 8

/-- log2 of the granule in words (R279). -/
def granBits (g : BitVec 2) : Nat :=
  match g.toNat with
  | 0 => 10
  | 1 => 8
  | _ => 7

/-- The lowest bit of each level's index field, level 0 first (R279). -/
def levelLows (g : BitVec 2) : List Nat :=
  match g.toNat with
  | 0 => [28, 19, 10]
  | 1 => [29, 22, 15, 8]
  | _ => [31, 25, 19, 13, 7]

/-- Index of a virtual address at a level: the bits from the level's low bit up to the level above (R279). -/
def levelIdx (g : BitVec 2) (lv : Nat) (va : Word) : Nat :=
  let lo := (levelLows g).getD lv 0
  let hi := if lv = 0 then 36 else (levelLows g).getD (lv - 1) 36
  va.toNat / 2 ^ lo % 2 ^ (hi - lo)

/-- A table entry: low and high word (R281). -/
structure Pte where
  lo : Word
  hi : Word
deriving DecidableEq, Repr

def Pte.key (e : Pte) : BitVec 5 := e.lo.extractLsb' 25 5
def Pte.sealWr (e : Pte) : Bool := e.lo.getLsbD 24
def Pte.u (e : Pte) : Bool := e.lo.getLsbD 23
def Pte.x (e : Pte) : Bool := e.lo.getLsbD 22
def Pte.w (e : Pte) : Bool := e.lo.getLsbD 21
def Pte.r (e : Pte) : Bool := e.lo.getLsbD 20
def Pte.leaf (e : Pte) : Bool := e.lo.getLsbD 19
def Pte.v (e : Pte) : Bool := e.lo.getLsbD 18
def Pte.d (e : Pte) : Bool := e.lo.getLsbD 9
def Pte.a (e : Pte) : Bool := e.lo.getLsbD 0
/-- The physical address of the block or next table (R281). -/
def Pte.base (e : Pte) : Nat := (e.hi.extractLsb' 0 27).toNat * 128

/-- A reserved field is nonzero, or a reserved combination stands (R281, R282, R285). -/
def Pte.rsvd (e : Pte) (last : Bool) : Bool :=
  e.lo.extractLsb' 30 6 ≠ 0 || e.lo.extractLsb' 10 8 ≠ 0 || e.lo.extractLsb' 1 8 ≠ 0 || e.hi.extractLsb' 27 9 ≠ 0 ||
  (if e.leaf then e.w && !e.r else last || e.lo.extractLsb' 20 10 ≠ 0 || e.d || e.a)

/-- One level of a walk as the table stands: the entry's address and the entry. -/
structure WalkStep where
  addr : Nat
  e : Pte
deriving DecidableEq, Repr

/-- How a walk ends (R282). -/
inductive WalkEnd where
  | leaf (lv : Nat) (addr : Nat) (e : Pte)
  | fault (reason : BitVec 4) (lv : Nat)
deriving DecidableEq, Repr

/-- The entry at a physical address, as the memory holds it. -/
def pteAt (s : State) (pa : Nat) : Pte := { lo := (s.readWord (placeOf s pa)).1, hi := (s.readWord (placeOf s (pa + 1))).1 }

/-- The walk of R282 from a table, over the level bits that remain. -/
def walkFrom (s : State) (g : BitVec 2) (va : Word) : List Nat → Nat → Nat → List WalkStep × WalkEnd
  | [], lv, _ => ([], .fault xRsvd lv)
  | lo :: rest, lv, tbl =>
    let a := tbl + 2 * levelIdx g lv va
    let e := pteAt s a
    let st : WalkStep := ⟨a, e⟩
    if !e.v then ([st], .fault xInvalid lv)
    else if e.rsvd rest.isEmpty then ([st], .fault xRsvd lv)
    else if e.base % 2 ^ (if e.leaf then lo else granBits g) ≠ 0 then ([st], .fault xMisalign lv)
    else if e.leaf then ([st], .leaf lv a e)
    else
      let (ss, r) := walkFrom s g va rest (lv + 1) e.base
      (st :: ss, r)

/-- The whole walk; a root that is not a multiple of the granule faults at level 0 (R282). -/
def walkTables (s : State) (c : Ctx) (va : Word) : List WalkStep × WalkEnd :=
  if c.root.toNat * 128 % 2 ^ granBits c.gran ≠ 0 then ([], .fault xMisalign 0)
  else walkFrom s c.gran va (levelLows c.gran) 0 (c.root.toNat * 128)

/-- Which TLB an access uses: a lathe core's or a spindle's (R288). -/
inductive TlbSel where
  | core (l : Fin 16)
  | spindle (k : Nat)
deriving DecidableEq, Repr

def TlbSel.lathe : TlbSel → Nat
  | .core l => l.val
  | .spindle k => k / 8

def getTlb (s : State) : TlbSel → List TlbEntry
  | .core l => (s.lathe l).tlb
  | .spindle k => (s.spin k).tlb

def putTlb (s : State) (sel : TlbSel) (es : List TlbEntry) : State :=
  match sel with
  | .core l => s.modLathe l (fun x => { x with tlb := es })
  | .spindle k => s.modSpin k (fun x => { x with tlb := es })

/-- Capacity of a TLB (R288). -/
def tlbSize : TlbSel → Nat
  | .core _ => 256
  | .spindle _ => 32

/-- The entry that a leaf gives (R288). -/
def tlbEntryOf (c : Ctx) (va : Word) (lv addr : Nat) (e : Pte) (d : Bool) : TlbEntry :=
  let bits := (levelLows c.gran).getD lv 0
  { asid := c.asid, gran := c.gran, vbase := va.toNat / 2 ^ bits * 2 ^ bits, bits := bits, level := lv, pbase := e.base,
    leafAddr := addr, key := e.key, sealWr := e.sealWr, u := e.u, x := e.x, w := e.w, r := e.r, d := d }

/-- Whether an entry translates an address for a context (R288). -/
def TlbEntry.hits (t : TlbEntry) (c : Ctx) (va : Word) : Bool :=
  t.asid = c.asid && t.gran = c.gran && t.vbase = va.toNat / 2 ^ t.bits * 2 ^ t.bits

/-- Adds an entry, in place of one for the same block or, with the TLB full, of a victim the manual leaves open. The entry `old`, which the
tables no longer bear out, stays beside it (R293). (DESIGN CHOICE: log entries 13, 14) -/
def fillTlb (s : State) (sel : TlbSel) (t : TlbEntry) (old : Option TlbEntry) : State :=
  let es := (getTlb s sel).filter (fun x =>
    some x = old || !(x.asid = t.asid && x.gran = t.gran && x.vbase = t.vbase && x.bits = t.bits))
  if es.length < tlbSize sel then putTlb s sel (es ++ [t])
  else
    let (i, s) := s.takeFree
    let v := Config.freeNat i % es.length
    putTlb s sel (es.take v ++ es.drop (v + 1) ++ [t])

/-- The outcome of a translation: a physical address, a fault with its reason and level, an address whose bits 35..34 are set
(R276), or a table request that still stalls. -/
inductive Xl where
  | ok (pa : Nat)
  | fault (reason : BitVec 4) (lv : Nat)
  | bus
  | stall
deriving DecidableEq, Repr

/-- The leaf checks in the order of R285, codes RIGHTS to KEY. -/
def leafCheck (c : Ctx) (acc : AccKind) (key : BitVec 5) (sealWr u x w r : Bool) : Option (BitVec 4) :=
  let pk (i : Nat) : Bool := c.pkr.getLsbD (2 * key.toNat + i)
  if (match acc with | .fetch => !x | .read => !r | .write => !w) then some xRights
  else if (c.level = .user && !u) || (c.level = .supervisor && acc = .fetch && u) then some xUser
  else if acc = .write && sealWr then some xSealWr
  else if acc ≠ .fetch && (pk 0 || (acc = .write && pk 1)) then some xKey
  else none

/-- Whether table words may lie at an address: banks, or the issuing lathe's scratchpad (R283). -/
def tableArea (l pa : Nat) : Bool :=
  match areaOf pa with
  | .bank => true
  | .scratch l' => l' = l
  | _ => false

/-- The master in whose name a TLB's walker asks: the lathe core's (R283, R345). -/
def TlbSel.master (sel : TlbSel) : Master := .core ⟨Fin.ofNat 16 sel.lathe, 0⟩

/-- Reads the table words of a walk in order, as the walker's requests (R283): the level at which one fails, if any. A word where no path
leads is recorded by the fabric (R346, R355). -/
def readSteps (s : State) (sel : TlbSel) : List WalkStep → Nat → State × Option Xl
  | [], _ => (s, none)
  | st :: rest, lv =>
    let l := sel.lathe
    if !tableArea l st.addr then
      (if hasPath s sel.master st.addr then s else fabricError s sel.master false false st.addr, some (.fault xWalkBus lv))
    else
      match readMem s (reqWalk s l) true st.addr 2 0xF 0xF with
      | (s, .ok ws) => if ws.any Prod.snd then (s, some (.fault xWalkBus lv)) else readSteps s sel rest (lv + 1)
      | (s, .bus) => (s, some (.fault xWalkBus lv))
      | (s, .stall) => (s, some .stall)

/-- The table word at which a walk stalls, with its level. -/
def walkStall (s : State) (c : Ctx) (l : Nat) (va : Word) : Option (Nat × Nat) :=
  (((walkTables s c va).1.zipIdx).find? (fun (st, _) => reqStalls s (reqWalk s l) st.addr false)).map (fun (st, lv) => (st.addr, lv))

/-- Sets A, and for a write D, where they read 0, each by a one-nonet write (R284). -/
def setAD (s : State) (l : Nat) (addr lv : Nat) (e : Pte) (write : Bool) : State × Option Xl :=
  let wr (s : State) (j : Nat) (v : Word) : State × Option Xl :=
    match writeMem s (reqWalk s l) addr v (BitVec.ofNat 4 (2 ^ j)) false with
    | (s, .ok) => (s, none)
    | (s, .bus) => (s, some (.fault xWalkBus lv))
    | (s, .stall) => (s, some .stall)
  let (s, r) := if e.a then (s, none) else wr s 0 1
  match r with
  | some x => (s, some x)
  | none => if write && !e.d then wr s 1 0o1000 else (s, none)

/-- A miss: the walk, the leaf checks, A and D, and the new entry (R282 to R285, R288). `dirty` is false for a translation at the issue
of a group, which sets no D (R557). -/
def translateMiss (s : State) (c : Ctx) (sel : TlbSel) (acc : AccKind) (va : Word) (dirty : Bool := true)
    (old : Option TlbEntry := none) : State × Xl :=
  let l := sel.lathe
  let (steps, r) := walkTables s c va
  match readSteps s sel steps 0 with
  | (s, some x) => (s, x)
  | (s, none) =>
    match r with
    | .fault reason lv => (s, .fault reason lv)
    | .leaf lv addr e =>
      match leafCheck c acc e.key e.sealWr e.u e.x e.w e.r with
      | some reason => (s, .fault reason lv)
      | none =>
        match setAD s l addr lv e (dirty && acc = .write) with
        | (s, some x) => (s, x)
        | (s, none) =>
          let t := tlbEntryOf c va lv addr e (e.d || (dirty && acc = .write))
          (fillTlb s sel t old, .ok (t.pbase + va.toNat % 2 ^ t.bits))

/-- Whether an entry still stands in the tables as it was read (R293). (DESIGN CHOICE: log entry 14) -/
def entryCurrent (s : State) (c : Ctx) (va : Word) (t : TlbEntry) : Bool :=
  match (walkTables s c va).2 with
  | .leaf lv addr e => tlbEntryOf c va lv addr e t.d = t
  | .fault _ _ => false

/-- Whether a context translates (R276). -/
def Ctx.translates (c : Ctx) : Bool := c.en && c.level ≠ .machine

/-- Translation of one access (R276, R282 to R288). A hit through an entry that the tables no longer bear out uses the old or the
new translation, a choice R293 leaves open. Answers also whether the TLB missed (R291). (DESIGN CHOICE: log entry 14) -/
def translate (s : State) (c : Ctx) (sel : TlbSel) (acc : AccKind) (va : Word) (dirty : Bool := true) : State × Xl × Bool :=
  if !c.translates then
    (s, if va.toNat < 2 ^ 34 then .ok va.toNat else .bus, false)
  else
    let miss (s : State) (old : Option TlbEntry) : State × Xl × Bool :=
      let (s, r) := translateMiss s c sel acc va dirty old
      (s, r, true)
    match (getTlb s sel).find? (fun t => t.hits c va) with
    | none => miss s none
    | some t =>
      let current := entryCurrent s c va t
      let anew (s : State) : State × Xl × Bool := miss s (if current then none else some t)
      let useOld (s : State) : State × Xl × Bool :=
        match leafCheck c acc t.key t.sealWr t.u t.x t.w t.r with
        | some reason => (s, .fault reason t.level, false)
        | none => if dirty && acc = .write && !t.d then anew s else (s, .ok (t.pbase + va.toNat % 2 ^ t.bits), false)
      if current then useOld s
      else
        let (i, s) := s.takeFree
        if Config.freeBool i then useOld s else anew s

/-- The context of a thread (R276). -/
def Thread.ctx (t : Thread) : Ctx :=
  { level := t.level, en := t.tctlEn, gran := t.gran, root := t.root, asid := t.asid, pkr := t.pkr }

/-- The TLBs of a lathe: its core's and its eight spindles' (R289). -/
def tlbsOf (l : Fin 16) : List TlbSel := .core l :: (List.range 8).map (fun k => .spindle (8 * l.val + k))

/-- TLBINV: every entry whose block contains the address is removed, in any ASID or granule (R289). -/
def tlbInvalidate (s : State) (l : Fin 16) (va : Word) : State :=
  (tlbsOf l).foldl (fun s sel => putTlb s sel ((getTlb s sel).filter (fun t =>
    t.vbase ≠ va.toNat / 2 ^ t.bits * 2 ^ t.bits))) s

/-- TLBINVALL: every entry is removed (R289). -/
def tlbInvalidateAll (s : State) (l : Fin 16) : State :=
  (tlbsOf l).foldl (fun s sel => putTlb s sel []) s

end Sys2Proof.Machine
end

