-- ==== Sys2Proof/Machine/Operands.lean ====
section
/-! DEFINITION. Operand forms of the lathe core and the issue of an instruction: immediates (R195, R200), effective addresses
(R207, R208), short-vector groups (R214, R241 to R246), what an instruction does to the flow of its thread, and the registers that it
reads and writes (R219, R221, R222). -/
namespace Sys2Proof.Machine

/-! ## Immediates and addresses -/

/-- s18 and u18 (R195). -/
def sx18 (imm : BitVec 18) : Word := imm.signExtend 36
def zx18 (imm : BitVec 18) : Word := imm.setWidth 36

/-- The effective address of a load or store: G[RA] + IMM, modulo 2^36 (R207, R208). -/
def eaI (t : Thread) (f : IFld) : Word := t.rg f.ra + sx18 f.imm
/-- The effective address and nonet of LN and SN (R207). -/
def eaN (t : Thread) (f : IFld) : Word := t.rg f.ra + (f.imm.extractLsb' 2 16).signExtend 36
def nonetOf (f : IFld) : BitVec 2 := f.imm.extractLsb' 0 2
/-- The effective address of SWM, IMM 13..0 signed (R207). -/
def eaM (t : Thread) (f : IFld) : Word := t.rg f.ra + (f.imm.extractLsb' 0 14).signExtend 36

/-! ## What an instruction does to its thread's flow -/

/-- The outcome of an instruction's operation: the next instruction follows; it follows and is fetched anew; a transfer of control; an
exception with XPC at the instruction, or at the one after it; the instruction has issued and holds its thread; or it does not issue
yet (R118). -/
inductive Res where
  | seq
  | refetch
  | jump (target : Word)
  | exc (e : Exc)
  | excNext (e : Exc)
  | hold
  | wait
deriving DecidableEq, Repr

/-- ILLEGAL of an instruction word (R196, R257). -/
def illegal (w : Word) : Res := .exc { cause := .illegal, info := w }
/-- PRIV of an instruction word (R216, R257). -/
def privRes (w : Word) : Res := .exc { cause := .priv, info := w }

/-- A level as a number, for comparison (R255). -/
def levelRank : Level → Nat
  | .user => 0
  | .supervisor => 1
  | .machine => 2

/-- Whether an interrupt, a trap request, an upcall or a halt stands to be taken before the next instruction (R266, R251, R268,
R533). -/
def eventDue (s : State) (th : Th) : Bool :=
  let t := s.thr th
  t.trapReq || (s.atBoundary th && (t.haltReq || t.pick.isSome || t.pickUser.isSome))

/-- An issue slot passes in a core (R240). -/
def addSlot (s : State) (l : Fin 16) : State :=
  s.modLathe l (fun x => { x with slotcnt := x.slotcnt + 1, clock := x.clock + 1 })

/-- Every product on its way comes one instruction nearer (R203). -/
def countInstr (s : State) (th : Th) : State := s.modThr th Thread.tickProducts

/-- The slot of an issuing instruction: it counts, and the thread is the one that issued most recently (R203, R220, R240). -/
def startSlot (s : State) (th : Th) : State :=
  countInstr ((addSlot s th.l).modLathe th.l (fun x => { x with lastThr := th.t })) th

/-- The slot or turn that an entry between instructions takes (R235). -/
def nextTurn (s : State) (th : Th) : Nat := (s.lathe th.l).turnFrom th.t (max (s.lathe th.l).clock (s.thr th).busy)

/-- The end of an instruction's operation; `slot` is the slot it has. An instruction that does not issue leaves the state before. -/
def finish (th : Th) (slot : Nat) (before : State) (r : State × Res) : State :=
  let s := r.1
  match r.2 with
  | .seq => s.modThr th (fun t => t.follow (t.pc + 1))
  | .refetch => s.modThr th (fun t => t.goto (t.pc + 1))
  | .jump a => twoTurns (s.modThr th (fun t => t.follow a)) th slot
  | .exc e => twoTurns (takeException s th e (s.thr th).pc) th slot
  | .excNext e => twoTurns (takeException s th e ((s.thr th).pc + 1)) th slot
  | .hold => s
  | .wait => before

/-- An operation that only computes a new thread and goes on. -/
def opThread (th : Th) (f : Thread → Thread) (s : State) : State × Res := (s.modThr th f, .seq)

/-! ## Short-vector groups (R214, R241 to R246) -/

/-- Registers in a group: 1, 2, 4 or 8 (R214). -/
def formRegs (form : BitVec 3) : Nat := 2 ^ (form.toNat % 4)
/-- Whether the elements are F72 (R214). -/
def formWide (form : BitVec 3) : Bool := form.getLsbD 2
/-- Elements in a group (R242). -/
def formCount (form : BitVec 3) : Nat := if formWide form then formRegs form else 2 * formRegs form
/-- The format of the elements (R242). -/
def formFmt (form : BitVec 3) : Fmt := if formWide form then fmt72 else fmt36

/-- Element `e` of the group that starts at register `r` (R242). -/
def Thread.elem (t : Thread) (wide : Bool) (r e : Nat) : Nat :=
  if wide then (t.rf (r + e)).toNat
  else if e % 2 = 0 then (dLo (t.rf (r + e / 2))).toNat else (dHi (t.rf (r + e / 2))).toNat

/-- Writes element `e` of the group that starts at register `r` (R242). -/
def Thread.setElem (t : Thread) (wide : Bool) (r e v : Nat) : Thread :=
  if wide then t.wf (r + e) (BitVec.ofNat 72 v)
  else
    let x := t.rf (r + e / 2)
    if e % 2 = 0 then t.wf (r + e / 2) (mkD (dHi x) (BitVec.ofNat 36 v))
    else t.wf (r + e / 2) (mkD (BitVec.ofNat 36 v) (dLo x))

/-- Whether SVL enables an element (R244). -/
def Thread.svlOn (t : Thread) (e : Nat) : Bool := t.svl = 0 || decide (e < t.svl.toNat)

/-- The enabled elements of a group (R244). -/
def Thread.onElems (t : Thread) (form : BitVec 3) : List Nat :=
  (List.range (formCount form)).filter t.svlOn

/-- Slots of a short-vector instruction: one for each register that holds an enabled element, at least one (R246). -/
def Thread.formSlots (t : Thread) (form : BitVec 3) : Nat :=
  let n := (t.onElems form).length
  max 1 (if formWide form then n else (n + 1) / 2)

/-- A register field names the first register of a group (R214). -/
def grpOk (form : BitVec 3) (r : BitVec 5) : Bool := r.toNat % formRegs form = 0

/-- A rounding code in MOD (R32, R33). -/
def rmOk (rm : BitVec 3) : Bool := rm.toNat < 5

/-! ## The registers an instruction reads and writes (R219, R221, R222) -/

/-- A general register, an F register and a descriptor register, as `Thread.lat` numbers them. -/
def regG (r : BitVec 5) : Nat := r.toNat
def regF (r : BitVec 5) : Nat := 32 + r.toNat
def regD (r : Nat) : Nat := 64 + r

/-- What the issue of an instruction looks at: the registers it reads and writes, and whether it accesses memory. -/
structure Deps where
  reads : List Nat := []
  writes : List Nat := []
  mem : Bool := false
deriving DecidableEq, Repr

/-- The registers of a short-vector group (R214). -/
def grpF (form : BitVec 3) (r : BitVec 5) : List Nat := (List.range (formRegs form)).map (fun i => regF r + i)

/-- Short-vector arithmetic (R212). -/
def depsFp (func : Nat) (f : TFld) : Deps :=
  { reads := grpF f.form f.ra ++ (if func = 0o011 || func ≥ 0o022 then [] else grpF f.form f.rb) ++
      (if 3 ≤ func && func ≤ 5 then grpF f.form f.rd else [])
    writes := grpF f.form f.rd }

/-- Compares, conversions and moves (R215). -/
def depsCvt (func : Nat) (f : TFld) : Deps :=
  if func < 8 then { reads := grpF f.form f.ra ++ grpF f.form f.rb, writes := [regG f.rd] }
  else if func = 0o010 || func = 0o011 then { reads := [regF f.ra], writes := [regF f.rd] }
  else if func = 0o012 || func = 0o013 || func = 0o022 || func = 0o023 then { reads := [regF f.ra], writes := [regG f.rd] }
  else { reads := [regG f.ra], writes := [regF f.rd] }

/-- System instructions (R216); ERET at user level reads G30 (R270). -/
def depsSys (func : Nat) (f : TFld) : Deps :=
  if func = 0o020 then { reads := [regG f.ra, regG f.rb] }
  else if func = 0o021 || func = 0o022 then { reads := [regG f.ra], writes := [regG f.rd] }
  else if func = 0o001 then { reads := [regG 30] }
  else { reads := [regG f.ra, regG f.rb] }

/-- Immediates, loads, stores, branches and special registers (R200, R207, R210, R217). -/
def depsImm (op : Nat) (f : IFld) : Deps :=
  let a := regG f.ra
  match op with
  | 0o020 | 0o021 => { reads := [a], writes := [regG f.rd], mem := true }
  | 0o022 | 0o023 => { reads := [a], writes := [regF f.rd], mem := true }
  | 0o024 | 0o025 | 0o030 => { reads := [a, regG f.rd], mem := true }
  | 0o026 | 0o027 => { reads := [a, regF f.rd], mem := true }
  | 0o031 => { reads := [a], writes := [regD f.rd.toNat], mem := true }
  | 0o032 => { reads := [a, regD f.rd.toNat], mem := true }
  | 0o033 => { reads := [a], writes := [regD f.rd.toNat] }
  | 0o034 => { reads := [regD f.ra.toNat], writes := [regG f.rd] }
  | 0o046 => { reads := [regG f.rd], writes := [regG f.rd] }
  | 0o050 => { writes := [regG 31] }
  | 0o051 => {}
  | 0o061 => { writes := [regG f.rd] }
  | 0o062 => { reads := [a] }
  | 0o063 => { reads := [regG 1] }
  | 0o064 => { writes := [regG f.rd] }
  | _ => if 0o040 ≤ op && op ≤ 0o045 then { reads := [a, regG f.rd] } else { reads := [a], writes := [regG f.rd] }

/-- The registers of an instruction word. -/
def depsOf (t : Thread) (w : Word) : Deps :=
  let f := wordT w
  if w.extractLsb' 34 2 = 0b10 then
    let v := wordV w
    { reads := ([v.dw, v.da, v.db, v.dc].map (fun r => regD r.toNat)) ++ [regD (fld (t.rd v.dw.toNat).w2 4 4)] }
  else match (wordOp w).toNat with
    | 0o001 => { reads := [regG f.ra, regG f.rb], writes := [regG f.rd] }
    | 0o002 => { reads := [regG f.ra, regG f.rb], writes := [regG f.rd] }
    | 0o003 => depsFp (wordFunc w).toNat f
    | 0o004 => depsCvt (wordFunc w).toNat f
    | 0o060 => depsSys (wordFunc w).toNat f
    | op => depsImm op (wordI w)

/-- The parts of a register that instructions write apart: a general register, the halves of an F register (as `Thread.wHalf` numbers them, from
32 on), the words of a descriptor register (from 96 on). -/
def partsOf (r : Nat) : List Nat :=
  if r = 0 then []
  else if r < 32 then [r]
  else if r < 64 then [32 + 2 * (r - 32), 33 + 2 * (r - 32)]
  else (List.range 4).map (fun j => 96 + 4 * (r - 64) + j)

/-- The registers that an outstanding access will write. -/
def LoadKind.writes : LoadKind → List Nat
  | .lw rd => [regG rd]
  | .ln rd _ => [regG rd]
  | .lfs rd => [regF rd]
  | .lf rd => [regF rd]
  | .ldd rd => [regD rd.toNat]
  | _ => []

/-- Whether an outstanding access holds its thread whatever its next instruction: the frame of ERET or of an upcall, on which its flow depends
(R269, R270). -/
def LoadKind.holds : LoadKind → Bool
  | .frame => true
  | .upframe _ => true
  | _ => false

/-- Whether an outstanding access is a store. -/
def LoadKind.isStore : LoadKind → Bool
  | .store => true
  | .upframe _ => true
  | _ => false

/-- Whether an outstanding access of a thread is still to write a register: some part of it, which no younger instruction has written. -/
def Thread.awaits (t : Thread) (p : PendLoad) (r : Nat) : Bool :=
  p.kind.writes.contains r && (partsOf r).any (fun k => !t.dead.contains (p.num, k))

/-- Whether an instruction may issue beside the outstanding accesses of its thread: it reads no register that one of them is to write (R219,
R221). (DEDUCED and DESIGN CHOICE: log entry 12) -/
def Thread.clearOf (t : Thread) (d : Deps) : Bool :=
  t.loads.all (fun p => !p.kind.holds && !p.debug && d.reads.all (fun r => !t.awaits p r))

/-- The registers that a floating-point instruction is to write. -/
def FpPend.regs (p : FpPend) : List Nat := p.fw.map (fun x => 32 + x.1 / 2) ++ (p.gw.map (fun x => regG x.1)).toList

/-- The slot from which the registers that an instruction reads have reached their result latency (R221, R235). (DEDUCED: log entry 12) -/
def Thread.regsFrom (t : Thread) (d : Deps) : Nat :=
  t.fpOut.foldl (fun a p => if d.reads.any (fun r => r ≠ 0 && p.regs.contains r) then max a (p.due.getD 0) else a)
    (d.reads.foldl (fun a r => max a (tget 0 t.lat r)) 0)

/-! ## Results in program order (R221, R245) -/

/-- A floating-point result without the parts that a younger instruction has written. -/
def FpPend.without (p : FpPend) (parts : List Nat) : FpPend :=
  { p with fw := p.fw.filter (fun x => !parts.contains (32 + x.1)), gw := p.gw.filter (fun x => !parts.contains (regG x.1)) }

/-- The parts that an instruction of word `w` has written or is to write, its thread standing as `t` after it and having had `nf` floating-point
instructions outstanding before it: those of its own result, the one word of MTD, or its whole registers. -/
def Thread.partsPut (t : Thread) (nf : Nat) (w : Word) (d : Deps) : List Nat :=
  match (t.fpOut.drop nf).head? with
  | some p => p.fw.map (fun x => 32 + x.1) ++ (d.writes.filter (fun r => r < 32)).flatMap partsOf
  | none => if (wordOp w).toNat = 0o033 && w.extractLsb' 34 2 ≠ 0b10 then [96 + 4 * (wordI w).rd.toNat + (wordI w).imm.toNat % 4]
    else d.writes.flatMap partsOf

/-- A younger instruction has been performed, or has its result on the way: what older ones of the thread `t0` before it were still to write into
the same parts is not written any more, and the latency of what a load brought there ends with the new value, unless that is another load's. -/
def Thread.supersede (t t0 : Thread) (w : Word) (d : Deps) : Thread :=
  let put := t.partsPut t0.fpOut.length w d
  if put = [] || (t0.fpOut = [] && t0.loads = [] && t0.lat = []) then t
  else
    { t with
      fpOut := (t.fpOut.take t0.fpOut.length).map (fun p => p.without put) ++ t.fpOut.drop t0.fpOut.length
      dead := t.dead ++ t0.loads.flatMap (fun p => (put.filter (fun k => (p.kind.writes.flatMap partsOf).contains k)).map (fun k => (p.num, k)))
      lat := if d.mem && t.accNum = t0.accNum then t.lat
        else d.writes.foldl (fun m r => if (partsOf r).all (fun k => put.contains k) then tput 0 m r 0 else m) t.lat }

/-! ## The end of an outstanding access (R197, R221, R258) -/

/-- Words that a load moves. -/
def LoadKind.count : LoadKind → Nat
  | .lf _ => 2
  | .ldd _ => 4
  | .frame => 4
  | _ => 1

/-- The loaded words reach their register (R207), but for the parts of it in `dead`, which a younger instruction has written. -/
def landReg (k : LoadKind) (dead : List Nat) (ws : List (Word × Bool)) (t : Thread) : Thread :=
  let w (i : Nat) : Word := (ws.getD i (0, false)).1
  let half (r : BitVec 5) (lo hi : Word) : Dbl :=
    let x := t.rf r.toNat
    mkD (if dead.contains (33 + 2 * r.toNat) then dHi x else hi) (if dead.contains (32 + 2 * r.toNat) then dLo x else lo)
  let word (r : BitVec 5) (j : Nat) : Word := if dead.contains (96 + 4 * r.toNat + j) then quadGet (t.rd r.toNat) j else w j
  match k with
  | .lw rd => if dead.contains rd.toNat then t else t.wg rd (w 0)
  | .ln rd j => if dead.contains rd.toNat then t else t.wg rd (BitVec.ofNat 36 (fld (w 0) (9 * j.toNat) 9))
  | .lfs rd => t.wf rd.toNat (half rd (w 0) 0)
  | .lf rd => t.wf rd.toNat (half rd (w 0) (w 1))
  | .ldd rd => t.wd rd.toNat { w0 := word rd 0, w1 := word rd 1, w2 := word rd 2, w3 := word rd 3 }
  | _ => t

/-- The parts that an access is not to write. -/
def deadOf (num : Nat) (dead : List (Nat × Nat)) : List Nat := (dead.filter (fun x => x.1 = num)).map Prod.snd

/-- Registers that a younger access keeps, after the words of an older one have landed in them too. -/
def Snap.land (x : Snap) (p : PendLoad) (ws : List (Word × Bool)) : Snap :=
  (landReg p.kind (deadOf p.num x.dead) ws (({} : Thread).restore x)).snap

/-- An access of a thread is outstanding no more; the younger ones keep the registers with its words in them. -/
def Thread.endAcc (t : Thread) (p : PendLoad) (ws : List (Word × Bool)) : Thread :=
  { t with dead := t.dead.filter (fun x => x.1 ≠ p.num)
           loads := (t.loads.filter (fun q => q.num ≠ p.num)).map (fun q => if q.num > p.num then { q with snap := q.snap.land p ws } else q) }

/-- Whether a divide of the thread itself, or the half of a pair, stands before what its outstanding access does to it (R223, R226). -/
def midInstr (s : State) (th : Th) : Bool :=
  (s.lathe th.l).stall.any (fun d => d.t = th.t) || (s.lathe th.l).pair = some th.t

/-- An outstanding access of a thread raises an exception, with every register as it stood before the access, and the younger accesses are
dropped; it waits while an older access is outstanding or a divide of the thread runs. The state before it and the one that its own work leaves. (DEDUCED and DESIGN CHOICE: log entry 12) -/
def accFault (s s' : State) (th : Th) (p : PendLoad) (e : Exc) : State :=
  if ((s.thr th).loads.head?).any (fun q => q.num ≠ p.num) || midInstr s th then s
  else finish th (nextTurn s th) s (s'.modThr th (fun t => { t.restore p.snap with loads := [] }), .exc e)

end Sys2Proof.Machine
end

