-- ==== Sys2Proof/Machine/Backup.lean ====
section
/-! DEFINITION. The backup domain's counters in three copies (R405, R484) and the resolution of the option bytes (R404, R486). -/
namespace Sys2Proof.Machine

/-- The better of two copies: one without an uncorrectable nonet, and of two such the one with the larger write number (R405). -/
def betterCopy (a b : CtrCopy) : CtrCopy :=
  if a.bad then b else if b.bad then a else if b.num.toNat > a.num.toNat then b else a

/-- The copy a read takes (R405). -/
def Ctr.copy (c : Ctr) : CtrCopy := betterCopy (betterCopy c.a c.b) c.c

/-- The value of a counter (R405). -/
def Ctr.read (c : Ctr) : Nat := c.copy.val

/-- One change: the new value, with a write number one above the largest, into all three copies (R405). -/
def Ctr.write (c : Ctr) (v : Nat) : Ctr :=
  let x : CtrCopy := { val := v, num := c.copy.num + 1 }
  { a := x, b := x, c := x }

/-- An increment that saturates at a width. -/
def Ctr.incSat (c : Ctr) (bits : Nat) : Ctr := c.write (if c.read + 1 < 2 ^ bits then c.read + 1 else 2 ^ bits - 1)
/-- An increment that wraps at a width. -/
def Ctr.incWrap (c : Ctr) (bits : Nat) : Ctr := c.write ((c.read + 1) % 2 ^ bits)

/-- A copy that the loader accepts: valid CRC and MAGIC, and the sequence number of the option counter (R404, R486). -/
def optValid (s : State) (o : OptCopy) : Bool := o.ok && o.seqno.toNat = s.rst.ctrOpt.read

/-- The values the option loader substitutes (R486). -/
def OptCopy.substituted (o : OptCopy) : OptCopy :=
  { o with
    maxfail := if o.maxfail = 0 || o.maxfail.toNat > 6 then 3 else o.maxfail
    defmode := if o.defmode.toNat < 5 || o.defmode.toNat > 7 then 5 else o.defmode
    boottmo := if o.boottmo.toNat < 100 then 200 else o.boottmo
    trialtmo := if o.trialtmo = 0 then 60 else o.trialtmo }

/-- The option bytes in force, as loaded; none when no copy qualifies (R404, R486). -/
def State.optInForce (s : State) : Option OptCopy :=
  if optValid s s.rst.opt0 then some s.rst.opt0.substituted
  else if optValid s s.rst.opt1 then some s.rst.opt1.substituted
  else none

/-- The option bytes in force; with none in force, the values the loader substitutes for empty fields. -/
def State.opt (s : State) : OptCopy := s.optInForce.getD ({ ok := false, seqno := 0 } : OptCopy).substituted

/-- Whether copy 0 is the copy in force; a write goes to the other (R487). -/
def copy0InForce (s : State) : Bool := optValid s s.rst.opt0

/-- The copy not in force takes option bytes with SEQ one above the counter; `ok` says whether they stand complete there (R487). -/
def writeCopy (s : State) (f : OptCopy → OptCopy) (ok : Bool) : State :=
  let new := { f s.opt with ok := ok, seqno := BitVec.ofNat 32 (s.rst.ctrOpt.read + 1) }
  { s with rst := if copy0InForce s then { s.rst with opt1 := new } else { s.rst with opt0 := new } }

/-- A write of the option bytes by the headstock: the copy, then the counter (R487). The read-back of the model's MRAM always agrees.
(DESIGN CHOICE: log entry 56) -/
def writeOptions (s : State) (f : OptCopy → OptCopy) : State :=
  let s := writeCopy s f true
  { s with rst := { s.rst with ctrOpt := s.rst.ctrOpt.incWrap 32 } }

/-- A write of the option bytes that does not complete: the counter stands; whether the copy does is a free value (R400, R487, R501). (DESIGN
CHOICE: log entry 56) -/
def tornOptions (s : State) (f : OptCopy → OptCopy) : State :=
  let (i, s) := s.takeFree
  writeCopy s f (Config.freeBool i)

end Sys2Proof.Machine
end

