-- ==== Sys2Proof/Machine/Sha3.lean ====
section
/-! DEFINITION. SHA3-256 and SHA3-384 as FIPS 202 defines them (R378, R391), HMAC over them (R531), and the CRC-16 of a debug frame (R528), over lists of
octets. -/
namespace Sys2Proof.Machine

/-- The lanes of the state: lane (x, y) stands at place x + 5 y. -/
abbrev Lanes := List (BitVec 64)

def lane (a : Lanes) (x y : Nat) : BitVec 64 := a.getD (x % 5 + 5 * (y % 5)) 0

/-- The state whose lane (x, y) is f x y. -/
def lanesOf (f : Nat → Nat → BitVec 64) : Lanes := (List.range 25).map (fun i => f (i % 5) (i / 5))

/-- Theta: every lane takes the parities of the column before it and of the column after it, the latter one bit on. -/
def keccakTheta (a : Lanes) : Lanes :=
  let col := (List.range 5).map (fun x => (List.range 5).foldl (fun v y => v ^^^ lane a x y) 0)
  lanesOf (fun x y => lane a x y ^^^ lane col (x + 4) 0 ^^^ (lane col (x + 1) 0).rotateLeft 1)

/-- Rho and pi as one walk over the lanes but (0, 0): from lane (x, y) the walk goes to (y, 2 x + 3 y), which is where pi puts the lane, and at
its step t rho turns the lane by (t + 1)(t + 2) / 2. The lanes moved are written into b. -/
def keccakMoves (a : Lanes) : Nat → Nat → Nat → Nat → Lanes → Lanes
  | 0, _, _, _, b => b
  | k + 1, t, x, y, b =>
    let y2 := (2 * x + 3 * y) % 5
    keccakMoves a k (t + 1) y y2 (b.set (y + 5 * y2) ((lane a x y).rotateLeft ((t + 1) * (t + 2) / 2 % 64)))

/-- Chi: the one step that is not linear, along the rows. -/
def keccakChi (a : Lanes) : Lanes := lanesOf (fun x y => lane a x y ^^^ (lane a (x + 2) y &&& ~~~ lane a (x + 1) y))

/-- The bits of the round constants, one from each step of the LFSR x^8 + x^6 + x^5 + x^4 + 1: bit j of a round is bit 2^j - 1 of its
constant. Answered: the constant of the round and the LFSR after its seven steps. -/
def keccakConst (r : BitVec 8) : BitVec 64 × BitVec 8 :=
  (List.range 7).foldl (fun (c, r) j =>
    (c ||| (r.extractLsb' 0 1).setWidth 64 <<< (2 ^ j - 1), if r.msb then r <<< 1 ^^^ 0x71 else r <<< 1)) (0, r)

/-- The rounds left of Keccak-f[1600], with the LFSR as it stands. -/
def keccakRounds : Nat → BitVec 8 → Lanes → Lanes
  | 0, _, a => a
  | k + 1, r, a =>
    let t := keccakTheta a
    let (c, r) := keccakConst r
    keccakRounds k r ((keccakChi (keccakMoves t 24 0 1 0 t)).modifyHead (· ^^^ c))

def keccakF (a : Lanes) : Lanes := keccakRounds 24 1 a

/-- A lane of eight octets, least significant first. -/
def laneOf (o : List Octet) : BitVec 64 := o.foldr (fun b v => v <<< 8 ||| b.setWidth 64) 0

/-- A block of the rate added to the state. -/
def addBlock : Lanes → List Octet → Lanes
  | a, [] => a
  | [], _ => []
  | v :: a, o => (v ^^^ laneOf (o.take 8)) :: addBlock a (o.drop 8)

/-- The padding of a message to whole blocks of a rate: the domain bits 01 of SHA-3, then 10*1. -/
def sha3Pad (rate : Nat) (m : List Octet) : List Octet :=
  let z := rate - 1 - m.length % rate
  m ++ (if z = 0 then [0x86] else 0x06 :: List.replicate (z - 1) 0 ++ [0x80])

/-- Blocks of a rate taken in, one after another. -/
def spongeOver (rate : Nat) : Nat → Lanes → List Octet → Lanes
  | 0, a, _ => a
  | n + 1, a, m => spongeOver rate n (keccakF (addBlock a (m.take rate))) (m.drop rate)

/-- SHA-3 with a digest of `len` octets, whose rate is 200 octets less twice the digest. -/
def sha3Of (len : Nat) (m : List Octet) : List Octet :=
  let rate := 200 - 2 * len
  let p := sha3Pad rate m
  let a := spongeOver rate (p.length / rate) (List.replicate 25 0) p
  (List.range len).map (fun i => (a.getD (i / 8) 0).extractLsb' (8 * (i % 8)) 8)

/-- SHA3-256: 32 octets. -/
def sha3 (m : List Octet) : List Octet := sha3Of 32 m

/-- HMAC over SHA-3, whose block is the rate. -/
def hmacOf (len : Nat) (key m : List Octet) : List Octet :=
  let rate := 200 - 2 * len
  let k := if key.length > rate then sha3Of len key else key
  let k := k ++ List.replicate (rate - k.length) 0
  sha3Of len (k.map (· ^^^ 0x5C) ++ sha3Of len (k.map (· ^^^ 0x36) ++ m))

/-- HMAC-SHA3-256 (R531). -/
def hmacSha3 (key m : List Octet) : List Octet := hmacOf 32 key m

/-- One octet into a CRC-16 with polynomial 0x1021, most significant bit first. -/
def crc16Octet (c : BitVec 16) (b : Octet) : BitVec 16 :=
  (List.range 8).foldl (fun (c : BitVec 16) _ => if c.getLsbD 15 then (c <<< 1) ^^^ 0x1021 else c <<< 1) (c ^^^ (b.setWidth 16 <<< 8))

/-- CRC-16 with initial value 0xFFFF. -/
def crc16 (m : List Octet) : BitVec 16 := m.foldl crc16Octet 0xFFFF

/-- Little-endian octets of a bit vector, whole octets (R389, R395). -/
def leOctets {n : Nat} (k : Nat) (v : BitVec n) : List Octet := (List.range k).map (fun i => v.extractLsb' (8 * i) 8)

/-- PACK9 octets of words (R37). -/
def pack9 : List Word → List Octet
  | a :: b :: r => leOctets 9 (mkD b a) ++ pack9 r
  | [a] => leOctets 5 a
  | [] => []

end Sys2Proof.Machine
end

