-- ==== Sys2Proof/Machine/Route.lean ====
section
/-! DEFINITION. Topologies, routes and the sending of remote operations (R19, R454 to R464, R471), and the device's accesses to host
memory through the host window (R444, R445). -/
namespace Sys2Proof.Machine

/-! ## Identity and topology (R456, R457) -/

/-- The device ID: the ID straps (R456). -/
def State.devId (s : State) : Nat := s.fus.straps.toNat

/-- The topology (R456) and the ring's size, from the option bytes: bits 1..0 TOPO, bits 4..2 RINGN (R473, R486). -/
def State.shape (s : State) : Nat := s.opt.topo.toNat % 4
def State.ringSize (s : State) : Nat := s.opt.topo.toNat / 4 % 8 + 1

/-- The device is the root, or stands alone (R457, R473). -/
def State.isRoot (s : State) : Bool := s.shape = 0 || s.devId = 0

/-- Devices that a topology includes (R456). -/
def shapeSize (shape ring : Nat) : Nat :=
  match shape with
  | 0 => 0
  | 1 => ring
  | 2 => 16
  | _ => 64

/-- The number of dimensions of a topology (R456, R459). -/
def shapeDims (shape : Nat) : Nat :=
  match shape with
  | 0 => 0
  | 1 => 1
  | 2 => 2
  | _ => 3

/-- The coordinate of a device in a dimension (R456). -/
def coordOf (shape ring dim d : Nat) : Nat := if shape = 1 then d % ring else d / 4 ^ dim % 4

/-- The length of a dimension. -/
def dimLen (shape ring : Nat) : Nat := if shape = 1 then ring else 4

/-- The neighbour of a device at a link and that neighbour's link, where the shape uses the link (R456). -/
def neighbour (shape ring d k : Nat) : Option (Nat × Nat) :=
  let dim := k / 2
  if dim ≥ shapeDims shape || d ≥ shapeSize shape ring then none
  else
    let n := dimLen shape ring
    let c := coordOf shape ring dim d
    let c' := if k % 2 = 0 then (c + 1) % n else (c + n - 1) % n
    let step := if shape = 1 then 1 else 4 ^ dim
    some (d - c * step + c' * step, if k % 2 = 0 then k + 1 else k - 1)

/-! ## Routes (R458 to R460) -/

/-- Whether an end of a link is up as this device knows it: its own ends by their state, any other by the flooded messages. -/
def endLive (s : State) (d k : Nat) : Bool := (d ≠ s.devId || (tget {} s.wov.links k).up) && !s.wov.deadLinks.contains (8 * d + k)

/-- Whether a link of a device is live as this device knows it: both of its ends are up. -/
def linkLive (s : State) (d k : Nat) : Bool :=
  match neighbour s.shape s.ringSize d k with
  | some (d', k') => endLive s d k && endLive s d' k'
  | none => false

/-- The devices next to one over live links. -/
def liveNext (s : State) (d : Nat) : List Nat :=
  (List.range 6).filterMap (fun k => if linkLive s d k then (neighbour s.shape s.ringSize d k).map Prod.fst else none)

/-- Distances to a device over live links, ring by ring from it; links are two-way. -/
def rings (s : State) : Nat → List Nat → List Nat → Nat → List (Nat × Nat)
  | 0, _, _, _ => []
  | fuel + 1, seen, front, h =>
    let next := (front.flatMap (liveNext s)).eraseDups.filter (fun d => !seen.contains d)
    if next.isEmpty then []
    else next.map (fun d => (d, h)) ++ rings s fuel (seen ++ next) next (h + 1)

/-- Hops from a device to every device it reaches. -/
def hopsFrom (s : State) (d : Nat) : List (Nat × Nat) := (d, 0) :: rings s 64 [d] [d] 1

def hopsTo (dist : List (Nat × Nat)) (d : Nat) : Option Nat := (dist.find? (fun p => p.1 = d)).map Prod.snd

/-- The dimension-ordered next link of a device to another: x, then y, then z, the shorter way, the even link on a tie (R459). -/
def orderedLink (s : State) (e d : Nat) : Option Nat :=
  let n := dimLen s.shape s.ringSize
  ((List.range (shapeDims s.shape)).find? (fun dim =>
      coordOf s.shape s.ringSize dim e ≠ coordOf s.shape s.ringSize dim d)).map (fun dim =>
    let a := coordOf s.shape s.ringSize dim e
    let b := coordOf s.shape s.ringSize dim d
    let up := (b + n - a) % n
    if up ≤ n - up then 2 * dim else 2 * dim + 1)

/-- The output link and hops of a device's route to another, from the distances to that one (R459, R460). (DEDUCED and DESIGN CHOICE: log entry 49) -/
def routeFrom (s : State) (dist : List (Nat × Nat)) (e d : Nat) : Option (Nat × Nat) :=
  match hopsTo dist e with
  | none => none
  | some h =>
    let good (k : Nat) : Bool := linkLive s e k &&
      (match neighbour s.shape s.ringSize e k with
       | some (d', _) => hopsTo dist d' = some (h - 1)
       | none => false)
    match orderedLink s e d with
    | some k => if good k then some (k, h) else ((List.range 6).find? good).map (fun k => (k, h))
    | none => none

/-- The route to a device: output link and hops, by the table of R459 and R460; link 7 and 0 hops for the device itself. -/
def routeTo (s : State) (d : Nat) : Option (Nat × Nat) :=
  if d = s.devId then some (7, 0) else routeFrom s (hopsFrom s d) s.devId d

/-- The links that a packet takes from one device to another, hop by hop (R459, R460). -/
def pathFrom (s : State) (dist : List (Nat × Nat)) (d : Nat) : Nat → Nat → List Nat
  | 0, _ => []
  | fuel + 1, e =>
    match (routeFrom s dist e d).bind (fun r => (neighbour s.shape s.ringSize e r.1).map (fun n => (r.1, n.1))) with
    | some (k, e') => k :: pathFrom s dist d fuel e'
    | none => []

/-- The route to a device, as the links that its packets take. -/
def pathTo (s : State) (d : Nat) : List Nat := pathFrom s (hopsFrom s d) d 64 s.devId

/-- The link of this device at which a message that has come to device `e` arrives, on the routes of the devices between. -/
def arriveFrom (s : State) (dist : List (Nat × Nat)) : Nat → Nat → Option Nat
  | 0, _ => none
  | fuel + 1, e =>
    match (routeFrom s dist e s.devId).bind (fun r => neighbour s.shape s.ringSize e r.1) with
    | none => none
    | some (d, k) => if d = s.devId then some k else arriveFrom s dist fuel d

/-- The link at which a device's messages arrive (R358, R459). -/
def arrivalLink (s : State) (d : Nat) : Option Nat := if d = s.devId then none else arriveFrom s (hopsFrom s s.devId) 64 d

/-- Whether a device is present (R458). -/
def devicePresent (s : State) (d : Nat) : Bool := (routeTo s d).isSome

/-- The incarnation a request carries (R462): a neighbour's as learned at training or announced; that of a device behind another is
not stated to be learned, and is a free value. (DESIGN CHOICE: log entry 16) -/
def targetInc (s : State) (d : Nat) : BitVec 8 :=
  match (List.range 6).find? (fun k => let x := tget {} s.wov.links k; x.up && x.nbr.toNat = d) with
  | some k => (tget {} s.wov.links k).ninc
  | none => BitVec.ofNat 8 (Config.freeNat d)

/-! ## What the fabric answers -/

/-- The fabric refuses what has no path: an error is captured and counted (R355). -/
def noPath (s : State) (m : Master) (write : Bool) (pa : Nat) : State := fabricError s m false write pa

/-- What the fabric delivers to a master (R346). -/
def deliverReply (s : State) (m : Master) (addr : Nat) (ws : List (Word × Bool)) (error : Bool) : State :=
  let key := 128 * (masterCode m).1.toNat + (masterCode m).2.toNat
  { s with fab := { s.fab with reply := tput {} s.fab.reply key { addr := addr, words := ws, error := error } } }

/-- An access without a path is a bus error of its master (R17, R346). -/
def pathError (s : State) (m : Master) (write : Bool) (pa : Nat) : State := deliverReply (noPath s m write pa) m pa [] true

/-! ## Converters (R350, R351) -/

/-- The converter on the way to an address, with the bursts that its queue holds: the PCIe converter, or that of the output link. An access to the
device's own number passes none. -/
def convOf (s : State) (pa : Nat) : Option (Nat × Nat) :=
  match areaOf pa with
  | .host _ => some (0, 32)
  | .array d _ => if d.toNat = s.devId then none else (routeTo s d.toNat).map (fun r => (2 + r.1, 16))
  | _ => none

/-- Whether a converter's queue has room. -/
def convRoom (s : State) (c : Option (Nat × Nat)) : Bool := c.all (fun (k, cap) => decide (tget 0 s.fab.conv k < cap))

/-- A burst enters a converter's queue. -/
def intoConv (s : State) (c : Option (Nat × Nat)) : State :=
  match c with
  | some (k, _) => { s with fab := { s.fab with conv := tmod 0 s.fab.conv k (· + 1) } }
  | none => s

/-- Whether a request of a core or a stream is taken at a window: no burst holds the path, and the converter's queue has room. Else the requester
stalls (R348, R351). -/
def windowOpen (s : State) (pa : Nat) : Bool :=
  convRoom s (convOf s pa) && !(portKey pa).any (fun k => (tget {} s.fab.arb k).held.isSome)

/-! ## Sending -/

/-- The master in whose name a remote operation is sent (R345, R462). -/
def RKind.master : RKind → Master
  | .load th => .core th
  | .store th => .core th
  | .stream k _ _ => .stream k
  | .command _ => .head
  | .burst m _ => m

/-- A quad as the far side of a converter carries it (R37, R350). -/
def quadOctets (q : Quad) : List Octet := pack9 [q.w0, q.w1, q.w2, q.w3]

/-- Whether a new operation to a device is held: its route has changed while an older one, that has left, is outstanding to it (R461). -/
def Wov.holdsTo (w : Wov) (d : BitVec 6) : Bool :=
  w.ops.any (fun o => o.dev = d && decide (o.tag < tget 0 w.moved d.toNat) && !w.heldReq.any (fun x => x.2.1 = o.tag))

/-- A remote operation leaves for a device that is present: its tag is recorded with what waits for it (R462, R464). Its request is held
while an operation issued before the route changed is outstanding (R461). -/
def sendRemote (s : State) (kind : RKind) (d : BitVec 6) (off : BitVec 26) (write : Bool) (inst : BitVec 4) (ep : BitVec 9)
    (data : Quad) (mask : BitVec 16) (poison : BitVec 16 := 0) : State :=
  let tag := s.wov.nextTag
  let inc := targetInc s d.toNat
  let who := masterCode kind.master
  let m : WMsg := .request d (BitVec.ofNat 6 s.devId) tag who.1 who.2 off write inst ep inc (quadOctets data) mask poison
  let held := s.wov.holdsTo d
  let s := { s with wov := { s.wov with nextTag := tag + 1, ops := s.wov.ops ++ [{ tag := tag, kind := kind, dev := d, inc := inc }] } }
  if held then { s with wov := { s.wov with heldReq := s.wov.heldReq ++ [(d, tag, m)] } } else sendMsg s m

/-- The place a local array-window access names in this device's banks (R19, R462). -/
def localArray (off : BitVec 26) : Nat := off.toNat

/-! ## The host window (R444) -/

def hwtOf (s : State) (off : BitVec 33) : Hwt := tget {} s.pci.hwt (off.toNat / 2 ^ 23)

/-- The host octet address of a word of the host window (R444). -/
def hostAddr (s : State) (off : BitVec 33) : Nat :=
  let e := hwtOf s off
  (e.haddrh.toNat * 2 ^ 10 + e.haddrl.toNat) * 2 ^ 26 + 8 * (off.toNat % 2 ^ 23)

/-- The octets of a value, least significant first. -/
def octetsLE (k v : Nat) : List Octet := (List.range k).map (fun i => BitVec.ofNat 8 (v / 256 ^ i))

/-- The value of octets, least significant first. -/
def octetsToNat : List Octet → Nat
  | [] => 0
  | b :: r => b.toNat + 256 * octetsToNat r

/-- Whether a read through the host window is forwarded (R444). -/
def hostReadable (s : State) (off : BitVec 33) : Bool := (hwtOf s off).v
def hostWritable (s : State) (off : BitVec 33) : Bool := (hwtOf s off).v && (hwtOf s off).wr

/-- The read requests of `k` words through the host window: one of 8 octets for each word (R444). -/
def hostReadReq (s : State) (off : BitVec 33) (k : Nat) : State :=
  (List.range k).foldl (fun s i =>
    transmit s (.readReq ⟨(hwtOf s off).fn.toNat, (hwtOf s off).fn.isLt⟩ (hostAddr s off + 8 * i) 8)) s

/-- Word writes through the host window: one posted write of 8 octets for each word (R444). -/
def hostWrite (s : State) (off : BitVec 33) (ws : List Word) : State :=
  (ws.zipIdx).foldl (fun s (w, i) =>
    transmit s (.write ⟨(hwtOf s off).fn.toNat, (hwtOf s off).fn.isLt⟩ (hostAddr s off + 8 * i) (octetsLE 8 w.toNat) false false)) s

end Sys2Proof.Machine
end

