-- ==== Sys2Proof/Machine/CoreAcc.lean ====
section
/-! DEFINITION. Memory accesses of a lathe core: translation with the fault record (R285, R287, R299), caches (R227 to R230), reads
and writes of every area but the register region, and debug comparators (R537). -/
namespace Sys2Proof.Machine

/-! ## Translation -/

/-- How a core access translates: a physical address, a precise exception, or a table request that still stalls. -/
inductive CoreXl where
  | ok (pa : Nat)
  | exc (e : Exc)
  | stall
deriving DecidableEq, Repr

/-- BUSERR at a virtual address (R257). -/
def busExc (va : Word) : Exc := { cause := .buserr, info := va }

/-- The exception of a translation fault (R285, R287). -/
def xlExc (va : Word) (reason : BitVec 4) : Exc :=
  if reason = xKey then { cause := .keyv, info := va }
  else if reason = xWalkBus then busExc va
  else { cause := .xlate, info := va, toMachine := reason = xSealWr }

/-- An untimed access in deterministic operation is counted (R233, R239). (DEDUCED: log entry 20) -/
def countVar (s : State) (l : Fin 16) : State :=
  s.modLathe l (fun x => if x.detact then { x with varcnt := satAdd x.varcnt 1 } else x)

/-- Whether an access has a fixed latency: to the lathe's own scratchpad, and a load or a fetch from the ROM (R221, R233). (DEDUCED: log entry 12) -/
def timedArea (l : Fin 16) (pa : Nat) : Bool :=
  match areaOf pa with
  | .scratch k => k = l.val
  | .hsrom => true
  | _ => false

/-- Translation of a core access; a fault is recorded in TFSR (R299). An access that misses the TLB, or goes to no area of fixed latency, is
untimed and counted once (R233, R291); a fetch is counted for its miss alone. -/
def coreTranslate (s : State) (th : Th) (acc : AccKind) (va : Word) : State × CoreXl :=
  let (s, r, missed) := translate s (s.thr th).ctx (.core th.l) acc va
  let untimed : Bool := missed || (match r with | .ok pa => acc ≠ .fetch && (!timedArea th.l pa || (acc = .write && areaOf pa = .hsrom)) | _ => false)
  let s := if untimed then countVar s th.l else s
  match r with
  | .ok pa => (s, .ok pa)
  | .bus => (s, .exc (busExc va))
  | .stall => (s, .stall)
  | .fault reason lv =>
    (s.modThr th (fun t => { t with tfsr := { valid := true, reason := reason, level := BitVec.ofNat 3 lv, acc := accCode acc } }),
     .exc (xlExc va reason))

/-! ## Caches (R227 to R230) -/

/-- Whether a cache of a lathe serves accesses (R230, R231, R324). -/
def cacheOn (x : Lathe) (ic : Bool) : Bool :=
  !x.detact && (if ic then !x.icoff && !x.icBad else !x.dcoff && !x.dcBad)

def cacheLines (x : Lathe) (ic : Bool) : List CacheLine := if ic then x.icache else x.dcache
def setLines (x : Lathe) (ic : Bool) (ls : List CacheLine) : Lathe :=
  if ic then { x with icache := ls } else { x with dcache := ls }

/-- The line that holds a word, if the cache has it. -/
def cacheFind (x : Lathe) (ic : Bool) (pa : Nat) : Option CacheLine := (cacheLines x ic).find? (fun c => c.quad = pa / 4)

/-- The stored nonet that a cache array holds for one of memory: its delivered data with fresh check bits, or the poison mark (R229). -/
def cacheNonet (x : Stored) : Stored := if isBad x then poisonNonet else encNonet (delivered x)

/-- The quad of an address as a cache holds it (R229). -/
def lineFor (s : State) (pa : Nat) : CacheLine :=
  let b := pa / 4 * 4
  { quad := pa / 4, cells := (List.range 16).map (fun i => cacheNonet (s.cell (4 * placeOf s (b + i / 4) + i % 4))) }

/-- Sets and ways of a cache: 8 Ki words in lines of one quad, 4-way set-associative (R227). (DESIGN CHOICE: log entry 13) -/
def cacheSets : Nat := 512
def cacheWays : Nat := 4

/-- A line enters its set, in place of an older copy or, with the set full, of a victim the manual leaves open. (DESIGN CHOICE: log entry 13) -/
def fillLine (s : State) (l : Fin 16) (ic : Bool) (c : CacheLine) : State :=
  let ls := (cacheLines (s.lathe l) ic).filter (fun x => x.quad ≠ c.quad)
  let set := ls.filter (fun x => x.quad % cacheSets = c.quad % cacheSets)
  if set.length < cacheWays then s.modLathe l (fun x => setLines x ic (ls ++ [c]))
  else
    let (i, s) := s.takeFree
    match set[Config.freeNat i % set.length]? with
    | some v => s.modLathe l (fun x => setLines x ic (ls.filter (fun y => y.quad ≠ v.quad) ++ [c]))
    | none => s

/-- A nonet of a line. -/
def CacheLine.cell (c : CacheLine) (i : Nat) : Stored := c.cells.getD i 0

/-- Words of a line from an address on, each with whether an enabled nonet is poisoned; correctable errors are corrected (R229). -/
def CacheLine.words (c : CacheLine) (pa k : Nat) (mask : BitVec 4) : List (Word × Bool) :=
  (List.range k).map (fun i =>
    let n := 4 * (pa % 4 + i)
    ((List.range 4).foldl (fun (w : Word) j => w ||| (delivered (c.cell (n + j))).setWidth 36 <<< (9 * j)) 0,
     (List.range 4).any (fun j => mask.getLsbD j && classify (c.cell (n + j)) = .poison)))

/-- Whether a line holds an uncorrectable error (R229). -/
def CacheLine.broken (c : CacheLine) : Bool := c.cells.any (fun x => classify x = .uncorrectable)

/-- Reads `k` words of one quad from memory for a core, filling a line where the cache is on (R227, R317). -/
def memWords (s : State) (th : Th) (ic ctl : Bool) (pa k : Nat) (mask : BitVec 4) : State × Rd :=
  if cacheOn (s.lathe th.l) ic then
    match readMem s (reqCore s th.l) ctl (pa / 4 * 4) 4 mask 0xF with
    | (s', .ok _) =>
      let c := lineFor s' pa
      (fillLine s' th.l ic c, .ok (c.words pa k mask))
    | r => r
  else readMem s (reqCore s th.l) ctl pa k mask mask

/-- A cached copy that the access uses; a line with an uncorrectable error is discarded (R229). -/
def tryCache (s : State) (l : Fin 16) (ic : Bool) (pa k : Nat) (mask : BitVec 4) : State × Option (List (Word × Bool)) :=
  if cacheOn (s.lathe l) ic then
    match cacheFind (s.lathe l) ic pa with
    | none => (s, none)
    | some c =>
      if c.broken then
        (s.modLathe l (fun x => setLines x ic ((cacheLines x ic).filter (fun y => y.quad ≠ c.quad))), none)
      else (s, some (c.words pa k mask))
  else (s, none)

/-- VFENCE and the fences drop every line of a cache (R228). -/
def dropCache (s : State) (l : Fin 16) (ic : Bool) : State := s.modLathe l (fun x => setLines x ic [])

/-- A store updates the cached copy of a word in the same action (R228). -/
def updateLine (s : State) (l : Fin 16) (pa : Nat) (w : Word) (mask : BitVec 4) : State :=
  s.modLathe l (fun x => { x with dcache := x.dcache.map (fun c =>
    if c.quad = pa / 4 then
      { c with cells := (c.cells.zipIdx).map (fun (y, i) =>
          if i / 4 = pa % 4 && mask.getLsbD (i % 4) then encNonet (w.extractLsb' (9 * (i % 4)) 9) else y) }
    else c) })

/-! ## The predictor (R224, R225) -/

/-- Entries of the predictor. -/
def predSize : Nat := 512

/-- Whether the predictor of a core serves (R225). -/
def predOn (x : Lathe) : Bool := x.pred && !x.detact

/-- Branches, DBNZ, J and JAL, whose targets are predicted (R225). -/
def predBranch (w : Word) : Bool :=
  let op := (wordOp w).toNat
  (decide (0o040 ≤ op) && decide (op ≤ 0o046)) || op = 0o050 || op = 0o051

/-- The entry of a thread for an address. -/
def predFind (x : Lathe) (t : Fin 8) (pc : Word) : Option PredEntry := x.predictor.find? (fun e => e.t = t && e.pc = pc)

/-- The address that is fetched after an instruction: the target that the predictor supplies where its counter says taken, else the next
word (R224, R225). (DESIGN CHOICE: log entry 13) -/
def predNext (x : Lathe) (t : Fin 8) (pc : Word) : Word :=
  match (if predOn x then predFind x t pc else none) with
  | some e => if e.count.toNat ≥ 2 then e.target else pc + 1
  | none => pc + 1

/-- A branch, DBNZ, J or JAL has been executed: its counter moves, and a taken one that has no entry takes one (R225). (DESIGN CHOICE: log entry 13) -/
def predLearn (s : State) (th : Th) (pc target : Word) (taken : Bool) : State :=
  let x := s.lathe th.l
  if !predOn x then s
  else match predFind x th.t pc with
    | some e =>
      let n := if taken then min 3 (e.count.toNat + 1) else e.count.toNat - 1
      s.setLathe th.l { x with predictor := x.predictor.map (fun y =>
        if y = e then { e with count := BitVec.ofNat 2 n, target := if taken then target else e.target } else y) }
    | none =>
      if !taken then s
      else
        let new : PredEntry := { t := th.t, pc := pc, target := target, count := 2 }
        if x.predictor.length < predSize then s.setLathe th.l { x with predictor := x.predictor ++ [new] }
        else
          let (i, s) := s.takeFree
          let v := Config.freeNat i % x.predictor.length
          s.setLathe th.l { x with predictor := x.predictor.take v ++ x.predictor.drop (v + 1) ++ [new] }

/-! ## Reads and writes -/

/-- What becomes of a core write that is not to the register region: done, a bus error, a stall, or waiting for a remote device. -/
inductive St where
  | ok
  | bus
  | stall
  | remote
deriving DecidableEq, Repr

/-- The quad and the 16-nonet mask of a few words that start at an address. -/
def packQuad (pa : Nat) (ws : List (Word × BitVec 4)) : Quad × BitVec 16 :=
  (ws.zipIdx).foldl (fun (q, m) (x, i) =>
    (quadPut q (pa % 4 + i) x.1, m ||| x.2.setWidth 16 <<< (4 * ((pa % 4 + i) % 4)))) ({}, 0)

/-- How a core's store ended. -/
def stOf : Wr → St
  | .ok => .ok
  | .bus => .bus
  | .stall => .stall

/-- A core's store into the array window: its own device through the local service, another device by a request (R19, R458, R462). -/
def coreWriteArray (s : State) (th : Th) (d : BitVec 6) (off : BitVec 26) (pa : Nat) (ws : List (Word × BitVec 4)) : State × St :=
  if d.toNat = s.devId then
    let (s, e) := writeQuad s (reqWovas (latheInst s th.l) (some (s.lathe th.l).epoch)) off.toNat (ws.map (fun x => (x.1, x.2, false)))
    (s, stOf e)
  else if !devicePresent s d.toNat then (s, .bus)
  else if !windowOpen s pa then (s, .stall)
  else
    let (q, m) := packQuad pa ws
    (sendRemote (intoConv s (convOf s pa)) (.store th) d (off / 4 * 4) true (latheInst s th.l) (s.lathe th.l).epoch q m, .remote)

/-- Whether a core's write lands: a bank may refuse it, other places do not (R54, R228). -/
def coreLands (s : State) (l : Fin 16) (pa : Nat) : Bool :=
  match areaOf pa with
  | .bank => decide (judge s (bankOf s pa) (reqCore s l) true = Verdict.granted)
  | _ => true

/-- A core's store to a bank, a scratchpad or the headstock SRAM; the core's own cached copy follows it. -/
def coreWritePlace (s : State) (th : Th) (pa : Nat) (ws : List (Word × BitVec 4)) : State × St :=
  let lands := coreLands s th.l pa
  let (s, e) := writeQuad s (reqCore s th.l) pa (ws.map (fun x => (x.1, x.2, false)))
  (if e = .ok ∧ lands then (ws.zipIdx).foldl (fun s (x, i) => updateLine s th.l (pa + i) x.1 x.2) s else s, stOf e)

/-- A write of one to four words of one quad by a core, to any area but the register region (R34, R35, R209, R300, R444, R462). (DESIGN CHOICE: log entry 8) -/
def coreWrite (s : State) (th : Th) (pa : Nat) (ws : List (Word × BitVec 4)) : State × St :=
  if !hasPath s (.core th) pa then (noPath s (.core th) true pa, .bus)
  else
    match areaOf pa with
    | .array d off => coreWriteArray s th d off pa ws
    | .host off =>
      if !(ws.all (fun x => x.2 = 0xF) && hostWritable s off) then (s, .bus)
      else if !windowOpen s pa then (s, .stall)
      else (hostWrite (intoConv s (convOf s pa)) off (ws.map Prod.fst), .ok)
    | .regs _ => (s, .bus)
    | .hsrom => (s, .bus)
    | _ => coreWritePlace s th pa ws

/-! ## Debug comparators (R537, R540) -/

/-- The number of the first comparator of a lathe that matches an access of a thread. -/
def comparatorMatch (x : Lathe) (t : Fin 8) (kind : Nat) (va : Word) (values : List Word) : Option Nat :=
  (List.range 8).find? (fun n =>
    let c : Comparator := tget {} x.cmps n
    c.en && c.tmask.getLsbD t.val &&
      (match kind with
       | 0 => c.kind = 0
       | 1 => c.kind = 1 || c.kind = 3
       | _ => c.kind = 2 || c.kind = 3) &&
      (if c.data && kind ≠ 0 then values.contains c.value else c.value = va))

/-- A comparator matched: it is recorded while HIT is 0, and the thread, or every thread of the core, is to halt (R537). -/
def comparatorHit (s : State) (th : Th) (n : Nat) (atOnce : Bool) : State :=
  let c : Comparator := tget {} (s.lathe th.l).cmps n
  let s := s.modLathe th.l (fun x =>
    if x.hit then x else { x with hit := true, hitCmp := BitVec.ofNat 3 n, hitThr := BitVec.ofFin th.t })
  let s := s.modThr th (fun t => if atOnce then { t with halted := true } else { t with haltReq := true })
  if c.action then
    (threadsOf th.l).foldl (fun s th' => s.modThr th' (fun t => if t.halted then t else { t with haltReq := true })) s
  else s

/-- A load or store has been performed: the data comparators judge it (R537). (DEDUCED: log entry 20) -/
def dataCompare (s : State) (th : Th) (store : Bool) (va : Word) (values : List Word) : State :=
  match comparatorMatch (s.lathe th.l) th.t (if store then 2 else 1) va values with
  | some n => comparatorHit s th n false
  | none => s

end Sys2Proof.Machine
end

