-- ==== Sys2Proof/Machine/Streams.lean ====
section
/-! DEFINITION. Stream descriptors (R74 to R86), element types, the table of long-vector operations (R145), the legality of a
vector-issue word (R114), and the streams of a group with their ports and their order (R100, R123). -/
namespace Sys2Proof.Machine

/-! ## Element types and spaces -/

/-- Element types (R78). -/
inductive ET where
  | i36 | u36 | f36 | f72 | i72 | a36 | mask | nonet
deriving DecidableEq, Repr

def etOf (c : Nat) : Option ET :=
  match c with
  | 0 => some .i36
  | 1 => some .u36
  | 2 => some .f36
  | 3 => some .f72
  | 4 => some .i72
  | 5 => some .a36
  | 6 => some .mask
  | 7 => some .nonet
  | _ => none

/-- A 72-bit type (R78). -/
def ET.wide : ET → Bool
  | .f72 => true
  | .i72 => true
  | _ => false
def ET.isF : ET → Bool
  | .f36 => true
  | .f72 => true
  | _ => false
def ET.isZ : ET → Bool
  | .i36 => true
  | .u36 => true
  | .i72 => true
  | _ => false
/-- The floating-point format of a type. -/
def ET.fmt : ET → Fmt
  | .f72 => fmt72
  | _ => fmt36
/-- Words per element, of a word or double type. -/
def ET.w : ET → Nat
  | .f72 => 2
  | .i72 => 2
  | _ => 1
/-- Width of a value in bits. -/
def ET.bits : ET → Nat
  | .f72 => 72
  | .i72 => 72
  | .mask => 1
  | .nonet => 9
  | _ => 36

def spLocal : Nat := 0
def spRemote : Nat := 1
def spScratch : Nat := 2
def spBcast : Nat := 3
def spIota : Nat := 4
def spChain : Nat := 5

/-! ## Descriptor fields (R74 to R77) -/

def dBase (q : Quad) : Word := q.w0
def dStride (q : Quad) : Int := (q.w1.extractLsb' 12 24).toInt
def dType (q : Quad) : Nat := fld q.w1 8 4
def dSpace (q : Quad) : Nat := fld q.w1 5 3
def dS (q : Quad) : Bool := q.w1.getLsbD 4
def dP (q : Quad) : Bool := q.w1.getLsbD 3
def dK (q : Quad) : Bool := q.w1.getLsbD 2
def dM (q : Quad) : Bool := q.w1.getLsbD 1
def dRsv1 (q : Quad) : Bool := q.w1.getLsbD 0
def dRsv2 (q : Quad) : Bool := fld q.w2 9 27 ≠ 0
def dMen (q : Quad) : Bool := q.w2.getLsbD 8
def dMreg (q : Quad) : Nat := fld q.w2 4 4
def dMsense (q : Quad) : Bool := q.w2.getLsbD 3
def dSlot (q : Quad) : Nat := fld q.w2 0 3
def dTag (q : Quad) : Word := q.w3
def dEt (q : Quad) : Option ET := etOf (dType q)
/-- Whether a stream lies in memory (R80). -/
def dMem (q : Quad) : Bool := dSpace q ≤ 2

/-! ## Operations (R145) -/

/-- What a register field of a vector-issue word names (R145). -/
inductive Role where
  | unused | src | maskOp | flag | table | dst2
deriving DecidableEq, Repr

/-- The long-vector operations (R145). -/
inductive VOp where
  | add | sub | mul | mulhi | fma | fms | fnma | div | sqrt | min | max | abs | neg
  | and | or | xor | andn | not | shl | shr | shra
  | cmpeq | cmpne | cmplt | cmple | cmpgt | cmpge | cmpun
  | mov | cvt | rint | pair | ascl
  | merge | compress | expand | iclass | sproj | ilook
  | rsum | rmin | rmax | rminx | rmaxx | rpopc | ssum | smin | smax | sgsum | sgmin | sgmax
deriving DecidableEq, Repr

/-- VFUNC assignments (R145). -/
def vopOf (f : Nat) : Option VOp :=
  match f with
  | 0o00 => some .add
  | 0o01 => some .sub
  | 0o02 => some .mul
  | 0o03 => some .mulhi
  | 0o04 => some .fma
  | 0o05 => some .fms
  | 0o06 => some .fnma
  | 0o07 => some .div
  | 0o10 => some .sqrt
  | 0o11 => some .min
  | 0o12 => some .max
  | 0o13 => some .abs
  | 0o14 => some .neg
  | 0o20 => some .and
  | 0o21 => some .or
  | 0o22 => some .xor
  | 0o23 => some .andn
  | 0o24 => some .not
  | 0o25 => some .shl
  | 0o26 => some .shr
  | 0o27 => some .shra
  | 0o30 => some .cmpeq
  | 0o31 => some .cmpne
  | 0o32 => some .cmplt
  | 0o33 => some .cmple
  | 0o34 => some .cmpgt
  | 0o35 => some .cmpge
  | 0o36 => some .cmpun
  | 0o40 => some .mov
  | 0o41 => some .cvt
  | 0o42 => some .rint
  | 0o43 => some .pair
  | 0o44 => some .ascl
  | 0o50 => some .merge
  | 0o51 => some .compress
  | 0o52 => some .expand
  | 0o54 => some .iclass
  | 0o55 => some .sproj
  | 0o56 => some .ilook
  | 0o60 => some .rsum
  | 0o61 => some .rmin
  | 0o62 => some .rmax
  | 0o63 => some .rminx
  | 0o64 => some .rmaxx
  | 0o65 => some .rpopc
  | 0o66 => some .ssum
  | 0o67 => some .smin
  | 0o70 => some .smax
  | 0o71 => some .sgsum
  | 0o72 => some .sgmin
  | 0o73 => some .sgmax
  | _ => none

/-- The DB field's role (R145). -/
def VOp.roleB : VOp → Role
  | .sqrt | .abs | .neg | .not | .mov | .cvt | .rint | .compress => .unused
  | .rsum | .rmin | .rmax | .rminx | .rmaxx | .rpopc | .ssum | .smin | .smax => .unused
  | .iclass | .ilook => .table
  | .sgsum | .sgmin | .sgmax => .flag
  | _ => .src

/-- The DC field's role (R145). -/
def VOp.roleC : VOp → Role
  | .fma | .fms | .fnma => .src
  | .merge | .compress | .expand => .maskOp
  | .sproj | .rminx | .rmaxx => .dst2
  | _ => .unused

/-- Whether RM is used (R145). -/
def VOp.rounds : VOp → Bool
  | .add | .sub | .mul | .fma | .fms | .fnma | .div | .sqrt | .cvt | .rint | .ascl | .sproj | .rsum | .ssum | .sgsum => true
  | _ => false

/-- A reduction (R172, R173). -/
def VOp.isRed : VOp → Bool
  | .rsum | .rmin | .rmax | .rminx | .rmaxx | .rpopc => true
  | _ => false
/-- A scan (R174). -/
def VOp.isScan : VOp → Bool
  | .ssum | .smin | .smax | .sgsum | .sgmin | .sgmax => true
  | _ => false
def VOp.isSeg : VOp → Bool
  | .sgsum | .sgmin | .sgmax => true
  | _ => false
def VOp.isCmp : VOp → Bool
  | .cmpeq | .cmpne | .cmplt | .cmple | .cmpgt | .cmpge | .cmpun => true
  | _ => false

/-- Whether a vector-issue word is legal (R114). -/
def vLegal (v : VFld) : Bool :=
  match vopOf v.vfunc.toNat with
  | none => false
  | some o =>
    v.rsv = 0 && (o.roleB ≠ .unused || v.db = 0) && (o.roleC ≠ .unused || v.dc = 0) &&
      (if o.rounds then rmOk v.rm else v.rm = 0)

/-- The operation of a member that issued. -/
def Member.op (m : Member) : VOp := (vopOf m.v.vfunc.toNat).getD .mov

/-! ## The streams of a group -/

/-- A field of a member that names a stream: DA, DB, DC, the mask of MREG, DW. -/
inductive Field where
  | fa | fb | fc | fm | fw
deriving DecidableEq, Repr

def Field.num : Field → Nat
  | .fa => 0
  | .fb => 1
  | .fc => 2
  | .fw => 3
  | .fm => 4

/-- One stream of a group: member, field, descriptor register and captured contents, and its role. `mask` is a stream named by MREG,
`dst` a destination. -/
inductive SRole where
  | src | maskOp | flag | table | mask | dst | dst2
deriving DecidableEq, Repr

structure Str where
  j : Nat
  f : Field
  reg : Nat
  q : Quad
  role : SRole
deriving DecidableEq, Repr

def sroleOf : Role → SRole
  | .maskOp => .maskOp
  | .flag => .flag
  | .table => .table
  | .dst2 => .dst2
  | _ => .src

/-- The streams of member `j`, in the field order DA, DB, DC, mask, DW. The op has one mask, that of DW; MEN, MREG and MSENSE of a second
destination's descriptor select nothing. (DESIGN CHOICE: log entry 63) -/
def memberStrs (j : Nat) (m : Member) : List Str :=
  [⟨j, .fa, m.v.da.toNat, m.da, .src⟩] ++
    (if m.op.roleB = .unused then [] else [⟨j, .fb, m.v.db.toNat, m.db, sroleOf m.op.roleB⟩]) ++
    (if m.op.roleC = .unused then [] else [⟨j, .fc, m.v.dc.toNat, m.dc, sroleOf m.op.roleC⟩]) ++
    (if dMen m.dw then [⟨j, .fm, dMreg m.dw, m.dm, .mask⟩] else []) ++
    [⟨j, .fw, m.v.dw.toNat, m.dw, .dst⟩]

def strsOf (ms : List Member) : List Str := (ms.zipIdx).flatMap (fun (m, j) => memberStrs j m)

def Str.isDst (x : Str) : Bool := x.role = .dst || x.role = .dst2

/-- The number of a stream within its group. -/
def Str.id (x : Str) : Nat := 8 * x.j + x.f.num

/-- Whether a stream takes a read port: a source, mask operand, flag or mask stream in memory (R123, R166). -/
def Str.reads (x : Str) : Bool := !x.isDst && x.role ≠ .table && dMem x.q

/-- The memory read streams in port order, one for each register and contents (R123). -/
def readPorts (ss : List Str) : List (Nat × Quad) := ((ss.filter Str.reads).map (fun x => (x.reg, x.q))).eraseDups

/-- The read port of a stream, 0 to 2, if it has one. -/
def Str.port (ss : List Str) (x : Str) : Option Nat :=
  if x.reads then
    match (readPorts ss).findIdx? (fun p => p = (x.reg, x.q)) with
    | some i => if i < 3 then some i else none
    | none => none
  else none

/-- SIDX of a stream (R100). -/
def Str.sidx (ss : List Str) (x : Str) : Nat :=
  if x.role = .mask then 3
  else if x.isDst then (if dMem x.q then 4 else 5)
  else match x.port ss with
    | some i => i
    | none => 5

/-- The rank of a stream in the order of R100. -/
def Str.rank (ss : List Str) (x : Str) : Nat :=
  let i := x.sidx ss
  if i < 5 then 100 * i + (if i < 3 then 0 else 8 * x.j + x.f.num) else 1000 + 8 * x.j + x.f.num

/-- A memory read stream of the group that found no port, or the third memory destination (R123). -/
def portless (ss : List Str) : List Str :=
  (ss.filter (fun x => x.reads && (x.port ss).isNone)) ++ ((ss.filter (fun x => x.isDst && dMem x.q)).drop 2)

/-- Whether any stream of the group is a mask in memory (R89). -/
def q144 (ss : List Str) : Bool := ss.any (fun x => dType x.q = 6 && dMem x.q && x.role ≠ .table)

/-- Block granularity (R89). -/
def qOf (ss : List Str) : Nat := if q144 ss then 144 else 16

/-- The block of spindle `k` of a span of `n`: its first element, and one past its last (R89). -/
def blockOf (q vl n k : Nat) : Nat × Nat :=
  let b := q * ((vl + q * n - 1) / (q * n))
  (min (k * b) vl, min ((k + 1) * b) vl)

/-! ## Element addresses (R79) -/

/-- The word address of element `i` as an exact integer, and its nonet or bit within the word. -/
def elemAddr (q : Quad) (t : ET) (i : Nat) : Int × Nat :=
  let b : Int := (dBase q).toNat
  match t with
  | .mask => (b + i / 36, i % 36)
  | .nonet =>
    let n : Int := i * dStride q
    (b + n / 4, (n % 4).toNat)
  | _ => (b + i * dStride q * t.w, 0)

/-- The number of elements that a destination or a source has: one for a reduction's results (R173). -/
def Str.len (ms : List Member) (x : Str) (vl : Nat) : Nat :=
  if x.isDst && ((ms[x.j]?).map (fun m => m.op.isRed)).getD false then min vl 1 else vl

/-- Words of a sealed stream of `n` elements (R377). -/
def sealedWordsOf (t : ET) (n : Nat) : Nat :=
  match t with
  | .mask => (n + 35) / 36
  | .nonet => (n + 3) / 4
  | _ => t.w * n

/-- The place of a group's first sealed word among those of its slot (R377). -/
def OutSlot.base (o : OutSlot) (g : Nat) : Nat := ((o.spans.filter (fun x => x.1 < g)).map Prod.snd).sum

/-- A group's stream takes its place among those of an output slot; digests of leaves behind it no longer stand for their words (R377, R380). -/
def OutSlot.setSpan (o : OutSlot) (g n : Nat) : OutSlot :=
  if tget 0 o.spans g = n then o
  else { o with spans := tput 0 o.spans g n, digests := o.digests.filter (fun x => x.1 < o.base g / 4096) }

/-- Words of an element: the whole quad for the segment operand of SPROJ (R169). -/
def Str.width (ms : List Member) (x : Str) (t : ET) : Nat :=
  if x.f = .fb && ((ms[x.j]?).map (fun m => decide (m.op = VOp.sproj))).getD false then 4 else t.w

/-- Words of a table: L keys, and for ILOOK L + 1 values (R166). -/
def tableWords (o : VOp) (q : Quad) : Nat :=
  let l := (dStride q).toNat
  if o = .ilook then 2 * l + 1 else l

/-- The extent of a memory stream: its lowest and highest word (R97, R166, R169, R173). -/
def Str.extent (ms : List Member) (x : Str) (vl : Nat) : Option (Int × Int) :=
  if !dMem x.q then none
  else if x.role = .table then
    (if vl = 0 then none else
      some (((dBase x.q).toNat : Int), ((dBase x.q).toNat : Int) +
        tableWords (((ms[x.j]?).map Member.op).getD .iclass) x.q - 1))
  else match dEt x.q with
    | none => none
    | some t =>
      let n := x.len ms vl
      if n = 0 then none
      else
        let a := (elemAddr x.q t 0).1
        let b := (elemAddr x.q t (n - 1)).1
        let w : Int := x.width ms t
        some (min a b, max a b + w - 1)

end Sys2Proof.Machine
end

