-- ==== Sys2Proof/Machine/Vops.lean ====
section
/-! DEFINITION. What each long-vector operation computes on one element (R150 to R170), and the canonical order of reductions and
scans (R176 to R182). -/
namespace Sys2Proof.Machine

/-! ## Elements -/

/-- The integer an element stands for: U36 unsigned, every other type signed (R23, R25). -/
def zval (t : ET) (x : Nat) : Int :=
  match t with
  | .u36 => x
  | .i72 => (BitVec.ofNat 72 x).toInt
  | .mask => x
  | .nonet => x
  | _ => (BitVec.ofNat 36 x).toInt

/-- An integer wrapped into a type (R26). -/
def zput (t : ET) (v : Int) : Nat := (BitVec.ofInt t.bits v).toNat

/-- The integer that orders an element: unsigned for U36 and A36 (R152, R154, R172). -/
def zord (t : ET) (x : Nat) : Int :=
  match t with
  | .a36 => x
  | _ => zval t x

/-- The smallest and largest value of an integer type (R156). -/
def zmin : ET → Int
  | .u36 => 0
  | .i72 => -(2 ^ 71)
  | _ => -(2 ^ 35)
def zmax : ET → Int
  | .u36 => 2 ^ 36 - 1
  | .i72 => 2 ^ 71 - 1
  | _ => 2 ^ 35 - 1

/-- MIN and MAX on a type: when the two are equal the result is the first (R152). -/
def minMaxEl (t : ET) (isMax : Bool) (a b : Nat) : Nat × Flags5 :=
  if t.isF then fpMinMax t.fmt isMax a b
  else (if isMax then (if zord t a < zord t b then b else a) else (if zord t b < zord t a then b else a), 0)

/-- A comparison on a type (R154). -/
def cmpEl (t : ET) (c : Cmp) (a b : Nat) : Bool × Flags5 :=
  if t.isF then fpCmp t.fmt c a b else (intCmp c (zord t a) (zord t b), 0)

/-- The comparison of an operation. -/
def VOp.cmp : VOp → Cmp
  | .cmpeq => .eq
  | .cmpne => .ne
  | .cmplt => .lt
  | .cmple => .le
  | .cmpgt => .gt
  | .cmpge => .ge
  | _ => .un

/-! ## CVT and ASCL (R155, R156, R158) -/

/-- Whether CVT converts a type into another (R155). -/
def cvtOk (f t : ET) : Bool :=
  match f, t with
  | .f36, .f72 => true
  | .f72, .f36 => true
  | .i36, .f36 => true
  | .u36, .f36 => true
  | .i36, .f72 => true
  | .u36, .f72 => true
  | .i72, .f36 => true
  | .i72, .f72 => true
  | .f36, .i36 => true
  | .f36, .u36 => true
  | .f36, .i72 => true
  | .f72, .i36 => true
  | .f72, .u36 => true
  | .f72, .i72 => true
  | .i36, .i72 => true
  | .u36, .i72 => true
  | .i72, .i36 => true
  | .i72, .u36 => true
  | .i36, .u36 => true
  | .i36, .a36 => true
  | .u36, .i36 => true
  | .u36, .a36 => true
  | .a36, .i36 => true
  | .a36, .u36 => true
  | .a36, .i72 => true
  | .a36, .f36 => true
  | .a36, .f72 => true
  | .f36, .a36 => true
  | .f72, .a36 => true
  | .nonet, .i36 => true
  | .nonet, .u36 => true
  | .i36, .nonet => true
  | .u36, .nonet => true
  | .mask, .i36 => true
  | .mask, .u36 => true
  | .i36, .mask => true
  | .u36, .mask => true
  | _, _ => false

/-- CVT (R155, R156). -/
def cvtEl (rm : BitVec 3) (f t : ET) (a : Nat) : Nat × Flags5 :=
  if f.isF then
    (if t.isF then fpConv f.fmt t.fmt rm a
     else if t = .a36 then (let r := fpToA36 f.fmt rm a; (r.1.toNat, r.2))
     else (let r := fpToInt f.fmt rm (zmin t) (zmax t) a; (zput t r.1, r.2)))
  else if t.isF then intToFp t.fmt rm (zval f a)
  else if t = .mask then (if a = 0 then 0 else 1, 0)
  else (zput t (zval f a), 0)

/-- ASCL: the signed A36 value times an F36 value, rounded to an I36 (R158). -/
def asclEl (rm : BitVec 3) (a b : Nat) : Nat × Flags5 :=
  let x := zval .i36 a
  match fmt36.val b with
  | .nan => (0, fNV)
  | .inf n => if x = 0 then (0, fNV) else (zput .i36 (if n = decide (x < 0) then zmax .i36 else zmin .i36), fNV)
  | .fin n m q =>
    let neg : Bool := n ^^ decide (x < 0)
    let (r, inexact) := roundAtQ rm neg (x.natAbs * m) q 0 false
    let v := signed neg r
    if v > zmax .i36 then (zput .i36 (zmax .i36), fNV)
    else if v < zmin .i36 then (zput .i36 (zmin .i36), fNV)
    else (zput .i36 v, flagIf inexact fNX)

/-! ## SPROJ (R170) -/

/-- The two results of SPROJ and NX: `p` the point as a double, `sg` the segment's four words. -/
def sprojEl (rm : BitVec 3) (p : Nat) (sg : List Nat) : Nat × Nat × Flags5 :=
  let i (x : Nat) : Int := (BitVec.ofNat 36 x).toInt
  let px := i p
  let py := i (p / 2 ^ 36)
  let x0 := i (sg.getD 0 0)
  let y0 := i (sg.getD 1 0)
  let x1 := i (sg.getD 2 0)
  let y1 := i (sg.getD 3 0)
  let dx := x1 - x0
  let dy := y1 - y0
  let wx := px - x0
  let wy := py - y0
  let dot := wx * dx + wy * dy
  let len2 := dx * dx + dy * dy
  if len2 = 0 || dot ≤ 0 then
    let d := fmt72.roundInt rm (wx * wx + wy * wy) 0 false
    (fmt36.zero false, d.1, d.2 &&& fNX)
  else if dot ≥ len2 then
    let d := fmt72.roundInt rm ((px - x1) * (px - x1) + (py - y1) * (py - y1)) 0 false
    ((fmt36.roundInt rm 1 0 false).1, d.1, d.2 &&& fNX)
  else
    let t := fmt36.roundRat rm false dot.toNat len2.toNat 0
    let c := wx * dy - wy * dx
    let d := fmt72.roundRat rm false (c * c).toNat len2.toNat 0
    (t.1, d.1, (t.2 ||| d.2) &&& fNX)

/-! ## The element operations -/

/-- The result of an operation on one element: `ta` the type of a, `td` that of d; `m` the bit of the mask operand (R150 to R160). -/
def evalOp (o : VOp) (rm : BitVec 3) (ta td : ET) (a b c : Nat) (m : Bool) : Nat × Flags5 :=
  let F := ta.fmt
  let za := zval ta a
  let zb := zval ta b
  let zc := zval ta c
  let w := ta.bits
  match o with
  | .add => if ta.isF then fpAdd F rm false a b else (zput ta (za + zb), 0)
  | .sub => if ta.isF then fpAdd F rm true a b else (zput ta (za - zb), 0)
  | .mul => if ta.isF then fpMul F rm a b else (zput ta (za * zb), 0)
  | .mulhi => ((BitVec.ofInt 72 (za * zb)).toNat / 2 ^ 36, 0)
  | .fma => if ta.isF then fpFma F rm false false a b c else (zput ta (za * zb + zc), 0)
  | .fms => if ta.isF then fpFma F rm false true a b c else (zput ta (za * zb - zc), 0)
  | .fnma => if ta.isF then fpFma F rm true false a b c else (zput ta (-(za * zb) + zc), 0)
  | .div =>
    if ta.isF then fpDiv F rm a b
    else if b = 0 then (2 ^ w - 1, fDZ)
    else (zput ta (za.tdiv zb), 0)
  | .sqrt => fpSqrt F rm a
  | .min => minMaxEl ta false a b
  | .max => minMaxEl ta true a b
  | .abs => if ta.isF then fpAbs F a else (zput ta (if za < 0 then -za else za), 0)
  | .neg => if ta.isF then fpNeg F a else (zput ta (-za), 0)
  | .and => (a &&& b, 0)
  | .or => (a ||| b, 0)
  | .xor => (a ^^^ b, 0)
  | .andn => (a &&& (2 ^ w - 1 - b), 0)
  | .not => (2 ^ w - 1 - a, 0)
  | .shl => (if b < w then a * 2 ^ b % 2 ^ w else 0, 0)
  | .shr => (if b < w then a / 2 ^ b else 0, 0)
  | .shra =>
    let s := if ta = .i72 then (BitVec.ofNat 72 a).toInt else (BitVec.ofNat 36 a).toInt
    (zput ta (s / 2 ^ (min b w)), 0)
  | .mov => (a, 0)
  | .cvt => cvtEl rm ta td a
  | .rint => fpRint F rm a
  | .pair => (a + b * 2 ^ 36, 0)
  | .ascl => asclEl rm a b
  | .merge => (if m then a else b, 0)
  | .expand => (if m then a else b, 0)
  | .compress => (a, 0)
  | _ =>
    if o.isCmp then
      let (r, fl) := cmpEl ta o.cmp a b
      (if r then 1 else 0, fl)
    else (a, 0)

/-! ## Tables (R167) -/

/-- The search of R167 over keys: the interval index and NV for a NaN comparison. -/
def searchTable (t : ET) (keys : List Word) (x : Nat) : Nat → Nat → Nat → Flags5 → Nat × Flags5
  | 0, lo, _, fl => (lo, fl)
  | fuel + 1, lo, hi, fl =>
    if lo < hi then
      let mid := (lo + hi) / 2
      let (b, f) := cmpEl t .lt x ((keys.getD mid 0).toNat)
      if b then searchTable t keys x fuel lo mid (fl ||| f) else searchTable t keys x fuel (mid + 1) hi (fl ||| f)
    else (lo, fl)

/-- ICLASS and ILOOK on one key (R166, R167). -/
def tableEl (o : VOp) (t : ET) (l : Nat) (table : List Word) (x : Nat) : Nat × Flags5 :=
  let (j, fl) := searchTable t (table.take l) x (l + 1) 0 l 0
  if o = .ilook then ((table.getD (l + j) 0).toNat, fl) else (j, fl)

/-! ## The canonical order (R176 to R182) -/

/-- The family of a reduction or scan (R178). -/
inductive Family where
  | sum | mini | maxi | minx | maxx | popc
deriving DecidableEq, Repr

def VOp.family : VOp → Family
  | .rmin => .mini
  | .smin => .mini
  | .sgmin => .mini
  | .rmax => .maxi
  | .smax => .maxi
  | .sgmax => .maxi
  | .rminx => .minx
  | .rmaxx => .maxx
  | .rpopc => .popc
  | _ => .sum

/-- A floating-point sum keeps nodes; every other family one fold value (R179, R188). -/
def byNodes (o : VOp) (t : ET) : Bool := o.family = .sum && t.isF

/-- The sum of two element values: comb of the sum family (R178). -/
def combSum (t : ET) (rm : BitVec 3) (l r : Elem) : Elem × Flags5 :=
  if l.poison || r.poison then ({ bits := 0, poison := true }, 0)
  else
    let (v, fl) := if t.isF then fpAdd t.fmt rm false l.bits.toNat r.bits.toNat
      else (zput t (zval t l.bits.toNat + zval t r.bits.toNat), 0)
    ({ bits := BitVec.ofNat 72 v }, fl)

/-- comb on nodes, either of which may be absent (R176, R178). -/
def combOpt (t : ET) (rm : BitVec 3) (l r : Option Elem) : Option Elem × Flags5 :=
  match l, r with
  | none, _ => (r, 0)
  | _, none => (l, 0)
  | some x, some y => let (z, fl) := combSum t rm x y; (some z, fl)

/-- A node joins the list of complete nodes: it forms its parent with the last one while the two are siblings (R176, R188). Nodes are
kept with the last first. -/
def pushNode (t : ET) (rm : BitVec 3) : Nat → List Node → Node → Flags5 → List Node × Flags5
  | 0, rev, x, fl => (x :: rev, fl)
  | fuel + 1, rev, x, fl =>
    match rev with
    | p :: rest =>
      if p.n = x.n && p.lo % (2 * p.n) = 0 && p.lo + p.n = x.lo then
        let (v, f) := combOpt t rm p.val x.val
        pushNode t rm fuel rest ⟨p.lo, 2 * p.n, v⟩ (fl ||| f)
      else (x :: rev, fl)
    | [] => ([x], fl)

/-- Nodes in position order with one more (R176). -/
def addNode (t : ET) (rm : BitVec 3) (ns : List Node) (x : Node) (fl : Flags5) : List Node × Flags5 :=
  let (rev, fl) := pushNode t rm 80 ns.reverse x fl
  (rev.reverse, fl)

/-- Two node lists in position order, the second after the first. -/
def joinNodes (t : ET) (rm : BitVec 3) (a b : List Node) (fl : Flags5) : List Node × Flags5 :=
  b.foldl (fun (ns, fl) x => addNode t rm ns x fl) (a, fl)

/-- The value of a tree whose nodes stand to the left of a right subtree: partial right subtrees join from the right (R176). -/
def treeOnto (t : ET) (rm : BitVec 3) (right : Option Elem) : List Node → Option Elem × Flags5
  | [] => (right, 0)
  | x :: rest =>
    let (r, fl) := treeOnto t rm right rest
    let (v, f) := combOpt t rm x.val r
    (v, fl ||| f)

/-- The value of the whole tree over a node list (R176). -/
def treeValue (t : ET) (rm : BitVec 3) (ns : List Node) : Option Elem × Flags5 := treeOnto t rm none ns

/-- One step of a fold of an associative family: value, index, flags (R178, R179). `lx` is the index of the left value. -/
def combFold (o : VOp) (t : ET) (l : Elem) (lx : Nat) (r : Elem) (rx : Nat) : Elem × Nat × Flags5 :=
  if l.poison || r.poison then ({ bits := 0, poison := true }, 0, 0)
  else
    let a := l.bits.toNat
    let b := r.bits.toNat
    match o.family with
    | .sum => ({ bits := BitVec.ofNat 72 (zput t (zval t a + zval t b)) }, 0, 0)
    | .popc => ({ bits := BitVec.ofNat 72 ((a + b) % 2 ^ 36) }, 0, 0)
    | f =>
      let isMax : Bool := f = Family.maxi || f = Family.maxx
      let takeR : Bool :=
        if t.isF then
          (if t.fmt.isNan a then false
           else if t.fmt.isNan b then true
           else if isMax then FVal.lt true (t.fmt.val a) (t.fmt.val b) else FVal.lt true (t.fmt.val b) (t.fmt.val a))
        else if isMax then decide (zord t a < zord t b) else decide (zord t b < zord t a)
      (if takeR then r else l, if takeR then rx else lx, 0)

/-- The fold of an accumulator with another that follows it (R179). -/
def joinFold (o : VOp) (t : ET) (a b : Acc) : Acc × Flags5 :=
  match a.fold, b.fold with
  | none, _ => ({ a with fold := b.fold, index := b.index }, 0)
  | _, none => (a, 0)
  | some x, some y =>
    let (v, i, fl) := combFold o t x a.index y b.index
    ({ a with fold := some v, index := i }, fl)

/-- elem(x) of R177: an active element, quietened, with NV for a signalling NaN; RPOPC takes the bit. -/
def leafElem (t : ET) (e : Elem) : Elem × Flags5 :=
  if e.poison then (e, 0)
  else if t.isF then
    ({ e with bits := BitVec.ofNat 72 (t.fmt.quiet e.bits.toNat) }, flagIf (t.fmt.isSnan e.bits.toNat) fNV)
  else (e, 0)

/-- An accumulator takes the element at a position; `start` says a segment starts there (R177, R182). -/
def Acc.take (o : VOp) (t : ET) (rm : BitVec 3) (a : Acc) (pos : Nat) (start : Bool) (e : Elem) : Acc × Flags5 :=
  let a : Acc := if start then { segst := pos } else a
  if byNodes o t then
    let (v, fl) := if e.active then (let (x, f) := leafElem t e; (some x, f)) else (none, 0)
    let (ns, fl) := addNode t rm a.nodes ⟨pos - a.segst, 1, v⟩ fl
    ({ a with nodes := ns }, fl)
  else if e.active then
    let (x, fl) := leafElem t e
    let (a, f) := joinFold o t a { fold := some x, index := pos }
    (a, fl ||| f)
  else (a, 0)

/-- An accumulator followed by another over the next positions of the op; a segment that starts inside the second drops the first. -/
def Acc.join (o : VOp) (t : ET) (rm : BitVec 3) (a b : Acc) (first : Nat) : Acc × Flags5 :=
  if o.isSeg && b.segst ≥ first then (b, 0)
  else if byNodes o t then
    let (ns, fl) := joinNodes t rm a.nodes b.nodes 0
    ({ a with nodes := ns }, fl)
  else joinFold o t a b

/-- The value an accumulator stands for (R176, R181). -/
def Acc.value (o : VOp) (t : ET) (rm : BitVec 3) (a : Acc) : Option Elem × Flags5 :=
  if byNodes o t then treeValue t rm a.nodes else (a.fold, 0)

/-- The least value of a type, as an empty maximum gives it. -/
def leastOf (t : ET) : Nat :=
  if t.isF then t.fmt.infinity true else match t with | .a36 => 0 | .u36 => 0 | _ => zput t (zmin t)
/-- The greatest value of a type, as an empty minimum gives it. -/
def greatestOf (t : ET) : Nat :=
  if t.isF then t.fmt.infinity false else match t with | .a36 => 2 ^ 36 - 1 | _ => zput t (zmax t)

/-- What a reduction writes when no element is active: value and index (R180). -/
def emptyResult (o : VOp) (t : ET) : Nat × Nat :=
  let none_ := 2 ^ 36 - 1
  match o.family with
  | .mini => (greatestOf t, none_)
  | .minx => (greatestOf t, none_)
  | .maxi => (leastOf t, none_)
  | .maxx => (leastOf t, none_)
  | _ => (0, none_)

end Sys2Proof.Machine
end

