-- ==== Sys2Proof/Machine/GroupCheck.lean ====
section
/-! DEFINITION. The issue checks of a group (R88, R90, R96 to R101, R114, R122, R123, R127, R162, R166, R169, R173, R174, R183, R384,
R557): every check that fails is listed with its code and its stream, and the lowest code decides. -/
namespace Sys2Proof.Machine

/-! ## Status codes (R104) -/

def stDONE : Nat := 0o00
def stDONEP : Nat := 0o01
def stSUSPENDED : Nat := 0o02
def stDESCRSV : Nat := 0o10
def stSTYPE : Nat := 0o11
def stSPACE : Nat := 0o12
def stALIGN : Nat := 0o13
def stRANGE : Nat := 0o14
def stMASKREF : Nat := 0o15
def stSEALREF : Nat := 0o16
def stSPANERR : Nat := 0o17
def stOVERLAP : Nat := 0o20
def stSKEWMIS : Nat := 0o21
def stCHAINSLOT : Nat := 0o22
def stCHAINFAN : Nat := 0o23
def stCHAINLEN : Nat := 0o24
def stCHAINVL : Nat := 0o25
def stXLATE : Nat := 0o40
def stNOWNER : Nat := 0o41
def stRETIRED : Nat := 0o42
def stBUSERR : Nat := 0o43
def stLOCALITY : Nat := 0o44
def stPOISON : Nat := 0o45
def stREMOTETO : Nat := 0o46
def stUNITFAIL : Nat := 0o47
def stDEADLINE : Nat := 0o50
def stABORTED : Nat := 0o51
def stTGTRESET : Nat := 0o52
def stLINKDOWN : Nat := 0o53

/-- The failure that is reported: the lowest code, then the first stream (R100, R103). -/
def Fail.before (a b : Fail) : Bool := a.code < b.code || (a.code = b.code && a.rank < b.rank)
def firstFail : List Fail → Option Fail
  | [] => none
  | x :: r => match firstFail r with
    | none => some x
    | some y => if y.before x then some y else some x

def strFail (ss : List Str) (code : Nat) (x : Str) : Fail := ⟨code, x.rank ss, x.sidx ss⟩
/-- A failure that no stream causes (R105). (DEDUCED: log entry 25) -/
def opFail (code : Nat) : Fail := ⟨code, 9999, 5⟩
/-- The failure of each stream for which a check fails. -/
def failsIf (ss : List Str) (code : Nat) (p : Str → Bool) : List Fail := (ss.filter p).map (strFail ss code)

def Str.op (ms : List Member) (x : Str) : VOp := ((ms[x.j]?).map Member.op).getD .mov
/-- The destination of a member. -/
def Str.dw (ms : List Member) (x : Str) : Quad := ((ms[x.j]?).map (fun m => m.dw)).getD {}

/-! ## DESCRSV (R76, R77, R79, R82, R84, R85, R101, R166) -/

def descrsvTable (x : Str) : Bool :=
  dRsv1 x.q || (dEt x.q).isNone || dSpace x.q ≥ 6 || dStride x.q < 1 || dStride x.q > 4096 ||
    dS x.q || dP x.q || dK x.q || dM x.q || x.q.w2 ≠ 0 || x.q.w3 ≠ 0

def descrsv (x : Str) : Bool :=
  let wide := match dEt x.q with | some t => t.wide | none => false
  let bc := dSpace x.q = spBcast
  let ch := dSpace x.q = spChain
  if x.role = .table then descrsvTable x
  else if x.role = .mask then false
  else
    dRsv1 x.q || dRsv2 x.q || (dEt x.q).isNone || dSpace x.q ≥ 6 ||
    (!dMen x.q && (dMreg x.q ≠ 0 || dMsense x.q)) ||
    (!ch && dSlot x.q ≠ 0) ||
    (!x.isDst && dMen x.q) ||
    (x.isDst && dP x.q) ||
    (bc && (dStride x.q ≠ 0 || (wide && dS x.q))) ||
    (ch && (dBase x.q ≠ 0 || dStride x.q ≠ 0 || dK x.q || dM x.q || dP x.q || dS x.q)) ||
    (dType x.q = 6 && !ch && x.role ≠ .flag && dStride x.q ≠ 1) ||
    (!(bc && wide) && dS x.q != decide (dTag x.q ≠ 0))

/-! ## STYPE (R82, R83, R146, R150 to R159, R166, R169, R172) -/

/-- Types that an operation takes for a. -/
def aTypeOk (o : VOp) (t : ET) : Bool :=
  match o with
  | .add | .sub => t.isF || t.isZ || t = .a36
  | .mul | .fma | .fms | .fnma | .min | .max => t.isF || t.isZ
  | .mulhi => t = .i36 || t = .u36
  | .div => t.isF || t = .i36 || t = .u36
  | .sqrt | .rint | .cmpun => t.isF
  | .abs => t.isF || t = .i36 || t = .i72
  | .neg => t.isF || t = .i36 || t = .i72 || t = .a36
  | .and | .or | .xor | .andn | .not => t.isZ || t = .a36 || t = .mask || t = .nonet
  | .shl | .shr | .shra => t.isZ
  | .mov => true
  | .cvt => true
  | .pair => t = .i36 || t = .u36 || t = .a36
  | .ascl => t = .a36
  | .merge | .compress | .expand => t ≠ .mask
  | .iclass | .ilook => t = .i36 || t = .u36 || t = .f36 || t = .a36
  | .sproj => t = .i72
  | .rpopc => t = .mask
  | _ => t.isF || t.isZ || t = .a36

/-- Whether a source other than a may have a type. -/
def srcTypeOk (o : VOp) (ta t : ET) : Bool :=
  match o with
  | .pair => t = .i36 || t = .u36 || t = .a36
  | .ascl => t = .f36
  | .sproj => t = .i72
  | _ => t = ta && aTypeOk o t

/-- Whether a destination may have a type. (DEDUCED: log entry 25) -/
def dstTypeOk (o : VOp) (ta t : ET) : Bool :=
  match o with
  | .cvt => cvtOk ta t
  | .pair => t = .i72
  | .ascl => t = .i36
  | .iclass => t = .u36
  | .ilook => t = .i36 || t = .u36 || t = .f36 || t = .a36
  | .sproj => t = .f36
  | .rpopc => t = .u36
  | _ => t = ta && aTypeOk o t

/-- Whether a stream's type is one its field takes; `ta` is the type of a. (DESIGN CHOICE: log entry 66) -/
def typeOk (o : VOp) (x : Str) (ta : ET) (t : ET) : Bool :=
  match x.role with
  | .mask => true
  | .flag => true
  | .maskOp => t = .mask
  | .table => t = ta && aTypeOk o t
  | .dst2 => if o = .sproj then t = .f72 else t = .u36
  | .src => if x.f = .fa then aTypeOk o t else srcTypeOk o ta t
  | .dst => if o.isCmp then t = .mask else dstTypeOk o ta t

def aType (ms : List Member) (j : Nat) : Option ET := (ms[j]?).bind (fun m => dEt m.da)

def stype (ms : List Member) (x : Str) : Bool :=
  match dEt x.q with
  | none => false
  | some t =>
    (x.role ≠ .mask && dSpace x.q = spBcast && (t = .mask || t = .nonet)) ||
    (x.role ≠ .mask && dSpace x.q = spIota && !(t = .i36 || t = .u36 || t = .a36 || t = .i72)) ||
    (match aType ms x.j with
     | some ta => !typeOk (x.op ms) x ta t
     | none => false)

/-! ## SPACE (R101, R122, R162, R166, R169, R173, R174) -/

/-- Chain slots: producers and consumers (R122). -/
def producers (ss : List Str) (slot : Nat) : List Str :=
  ss.filter (fun x => x.isDst && dSpace x.q = spChain && dSlot x.q = slot)
def consumers (ss : List Str) (slot : Nat) : List Str :=
  ss.filter (fun x => !x.isDst && x.role ≠ .table && dSpace x.q = spChain && dSlot x.q = slot)

def spaceBad (ms : List Member) (ss : List Str) (x : Str) : Bool :=
  let sp := dSpace x.q
  let o := x.op ms
  (x.isDst && (sp = spBcast || sp = spIota)) ||
  (x.role = .maskOp && (sp = spChain || sp = spBcast || sp = spIota)) ||
  (o = .compress && x.role = .dst && (sp = spLocal || sp = spChain)) ||
  (o = .expand && x.f = .fa && (sp = spLocal || sp = spChain)) ||
  (o = .sproj && x.f = .fb && x.role = .src && !dMem x.q) ||
  (x.role = .table && sp < 6 && sp ≠ spScratch) ||
  (o.isRed && x.isDst && sp = spChain) ||
  (o.isScan && (x.f = .fa || x.role = .flag) && sp = spChain) ||
  (x.isDst && sp = spChain && (consumers ss (dSlot x.q)).isEmpty) ||
  (portless ss).contains x

/-! ## ALIGN, RANGE, MASKREF -/

def alignBad (ms : List Member) (x : Str) : Bool :=
  if x.role = .table || !dMem x.q then false
  else if x.op ms = .sproj && x.f = .fb && x.role = .src then
    (dBase x.q).toNat % 4 ≠ 0 || dStride x.q % 2 ≠ 0
  else x.role ≠ .mask && (match dEt x.q with | some t => t.wide && (dBase x.q).getLsbD 0 | none => false)

/-- An element address, or a word of a table, outside 0 to 2^36 − 1; a table is judged at VL = 0 too (R88, R101, R166). -/
def rangeBad (ms : List Member) (x : Str) : Bool :=
  let vl := ((ms[x.j]?).map (fun m => m.vl)).getD 0
  match x.extent ms (if x.role = .table then max vl 1 else vl) with
  | some (lo, hi) => lo < 0 || hi ≥ 2 ^ 36
  | none => false

def maskrefBad (ms : List Member) (x : Str) : Bool :=
  let sp := dSpace x.q
  (x.role = .mask && !(dType x.q = 6 && dStride x.q = 1 && !dMen x.q && !dS x.q && (dMem x.q || sp = spChain))) ||
  (x.role = .flag && !(dType x.q = 6 && dStride x.q = 1 && !dP x.q && dMem x.q)) ||
  (x.role = .dst && (x.op ms = .compress || x.op ms = .expand) && dMen x.q)

/-! ## SEALREF (R96, R127, R162, R382 to R384) -/

/-- SEALTAG fields (R382). -/
def tagOk (w : Word) : Bool := fld w 33 3 = 1 && fld w 24 9 = 0 && fld w 0 11 = 0
def tagCtx (w : Word) : Nat := fld w 16 8
def tagOut (w : Word) : Bool := w.getLsbD 15
def tagSlot (w : Word) : Nat := fld w 11 4

/-- The slots that members with MEN = 1, or with a source in one of the slots `bad`, produce. -/
def slotsFed (ms : List Member) (bad : List Nat) : List Nat :=
  (ms.zipIdx).flatMap (fun (m, j) =>
    let mine := memberStrs j m
    let fed : Bool := dMen m.dw || mine.any (fun x => !x.isDst && x.role ≠ .table && dSpace x.q = spChain && bad.contains (dSlot x.q))
    if fed then (mine.filter (fun x => x.isDst && dSpace x.q = spChain)).map (fun x => dSlot x.q) else [])

/-- Slots fed, directly or through further slots, by a member with MEN = 1, whatever the order of the members (R127). -/
def maskedSlots (ms : List Member) : List Nat := (List.range ms.length).foldl (fun bad _ => slotsFed ms bad) []

/-- The saved positions of a group: where each spindle of its span starts. -/
def Group.rks (g : Group) : List Nat := g.parts.map (fun p => p.next)

/-- Whether the tailstock accepts a sealed stream (R384). -/
def sealAccepts (s : State) (g : Group) (x : Str) : Bool :=
  let w := dTag x.q
  let c := s.ctx (groupCtx s g.inst (tagCtx w))
  tagOk w && c.st = .opened && c.inst = g.inst && tagOut w = x.isDst &&
    (if x.isDst then
      let o : OutSlot := tget {} c.outs (tagSlot w)
      !o.broken && (o.typ.isNone || o.typ = some (BitVec.ofNat 4 (dType x.q))) &&
        (if g.resumed then o.stopped.any (fun x => x.rks = g.rks)
         else o.th.isNone || o.th = some g.th)
     else
      let i : InSlot := tget {} c.ins (tagSlot w)
      i.bound && !i.broken)

/-- Whether word 3 is a value and no SEALTAG: a 72-bit broadcast (R77, R82). -/
def wideBcast (q : Quad) : Bool := dSpace q = spBcast && (match dEt q with | some t => t.wide | none => false)

def sealrefBad (s : State) (g : Group) (x : Str) : Bool :=
  let mine := match g.members[x.j]? with | some m => memberStrs x.j m | none => []
  x.role ≠ .mask && x.role ≠ .table && dS x.q && dSpace x.q ≠ spChain && !wideBcast x.q &&
    (!sealAccepts s g x ||
     (x.isDst && (dMen x.q || dMen (x.dw g.members))) ||
     (x.role = .dst && x.op g.members = .compress) ||
     (x.isDst && mine.any (fun y => !y.isDst && y.role ≠ .table && dSpace y.q = spChain &&
       (maskedSlots g.members).contains (dSlot y.q))))

/-! ## OVERLAP (R97, R98, R162) -/

def sameStream (a b : Quad) : Bool :=
  dSpace a = dSpace b && dBase a = dBase b && dStride a = dStride b && dType a = dType b
/-- LOCAL and REMOTE are one space for the overlap rule (R97). -/
def sameArea (a b : Quad) : Bool := (dSpace a = spScratch) == (dSpace b = spScratch)

def meets (a b : Option (Int × Int)) : Bool :=
  match a, b with
  | some (l, h), some (l', h') => l ≤ h' && l' ≤ h
  | _, _ => false

/-- The VL that the member of a stream captured (R115). -/
def Str.vl (ms : List Member) (x : Str) : Nat := ((ms[x.j]?).map (fun m => m.vl)).getD 0

/-- Whether a destination and another stream break R97 or R162. (DESIGN CHOICE: log entry 66) -/
def overlaps (ms : List Member) (d x : Str) : Bool :=
  if d = x then false
  else
    let hit := sameArea d.q x.q && meets (d.extent ms (d.vl ms)) (x.extent ms (x.vl ms))
    if x.isDst then hit
    else (hit && !(x.role ≠ .table && sameStream d.q x.q)) ||
      (x.role = .maskOp && dMem x.q && dMem d.q && sameStream d.q x.q && x.vl ms ≠ 0 && d.vl ms ≠ 0)

def overlapBad (ms : List Member) (ss : List Str) (x : Str) : Bool :=
  ss.any (fun y => (x.isDst && overlaps ms x y) || (y.isDst && overlaps ms y x))

/-! ## Chain codes (R122) -/

def chainslotBad (ss : List Str) (x : Str) : Bool :=
  if x.role = .table || dSpace x.q ≠ spChain then false
  else
    let ps := producers ss (dSlot x.q)
    if x.isDst then (ps.drop 1).contains x
    else match ps with
      | [] => true
      | p :: _ => decide (x.j ≤ p.j) || ps.any (fun q => q.j = x.j)

/-- A consumer whose type differs from its producer's, the first in member order, wherever that stands (R122). (DESIGN CHOICE: log entry 66) -/
def chainTypeBad (ss : List Str) (x : Str) : Bool :=
  if x.role = .table || x.isDst || dSpace x.q ≠ spChain then false
  else match producers ss (dSlot x.q) with
    | [] => false
    | p :: _ => dType p.q ≠ dType x.q

/-- A consumer beyond the third of its slot; an op counts once (R122). (DESIGN CHOICE: log entry 66) -/
def chainfanBad (ss : List Str) (x : Str) : Bool :=
  if x.role = .table || x.isDst || dSpace x.q ≠ spChain then false
  else ((((consumers ss (dSlot x.q)).map (fun y => y.j)).eraseDups).drop 3).contains x.j

/-! ## Spans -/

/-- Spindles of a group within its lathe (R90, R114). -/
def Group.span (g : Group) : Nat := g.scnt + 1
def Group.spindle (g : Group) (k : Nat) : Nat := 8 * g.th.l.val + g.sp0 + k
/-- The spindles of the span that exist. -/
def Group.spindles (g : Group) : List Nat := ((List.range g.span).filter (fun k => g.sp0 + k < 8)).map g.spindle

/-- The most members of a group (R122). -/
def maxMembers : Nat := 6

/-- The span that a member captured, as SP0 and SCNT; a resumed group's members take the span of its VRESUME (R115, R138). -/
def Group.spanOf (g : Group) (j : Nat) : Nat × Nat :=
  if g.resumed then (g.sp0, g.scnt)
  else match g.members[j]? with
    | some m => (m.v.sp0.toNat, m.v.scnt.toNat)
    | none => (g.sp0, g.scnt)

/-- The members captured different VL or spans (R122). -/
def Group.mixed (g : Group) : Bool :=
  match g.members with
  | [] => false
  | m :: r => r.any (fun x => x.vl ≠ m.vl || x.v.sp0 ≠ m.v.sp0 || x.v.scnt ≠ m.v.scnt)

/-- A span is usable: it exists, its spindles are in service and its lathe belongs to the issuing instance (R90). -/
def spanUsable (s : State) (g : Group) (sp : Nat × Nat) : Bool :=
  decide (sp.1 + sp.2 ≤ 7) && (List.range (sp.2 + 1)).all (fun k => (s.spin (8 * g.th.l.val + sp.1 + k)).inSvc) &&
    (tget {} s.hs.insts g.inst.toNat).lathes.getLsbD g.th.l.val

/-- The group's span and that of every member are usable (R90). -/
def spanOk (s : State) (g : Group) : Bool :=
  spanUsable s g (g.sp0, g.scnt) && (List.range g.members.length).all (fun j => spanUsable s g (g.spanOf j))

/-! ## Checks on translated addresses (R101, R557) -/

/-- An element whose address the issue checks need: its index, its spindle and its virtual word address. -/
structure IssueEl where
  i : Nat
  k : Nat
  va : Word
deriving DecidableEq, Repr

/-- Consecutive elements of one word taken once. -/
def dedupRuns : List IssueEl → List IssueEl
  | [] => []
  | [x] => [x]
  | x :: y :: r => if x.k = y.k && x.va = y.va then dedupRuns (x :: r) else x :: dedupRuns (y :: r)

/-- The elements of a memory stream, over the VL and the span of its member; one for a reduction's result (R89, R173). -/
def elemVas (g : Group) (ss : List Str) (x : Str) : List IssueEl :=
  match dEt x.q with
  | none => []
  | some t =>
    let vl := x.vl g.members
    let n := x.len g.members vl
    let (sp0, scnt) := g.spanOf x.j
    dedupRuns (((List.range (scnt + 1)).filter (fun k => sp0 + k < 8)).flatMap (fun k =>
      let (f, l) := blockOf (qOf ss) vl (scnt + 1) k
      (List.range (min l n - f)).map (fun d => ⟨f + d, 8 * g.th.l.val + sp0 + k, BitVec.ofInt 36 (elemAddr x.q t (f + d)).1⟩)))

/-- The bank address that an array-window access of this device's own number names (R19). -/
def ownArray (s : State) (pa : Nat) : Option Nat :=
  match areaOf pa with
  | .array d off => if d.toNat = s.devId then some off.toNat else none
  | _ => none

/-- The elements with the physical addresses at which they lie; one whose translation faults is left out (R557). None while a table
request stalls. -/
def issueAddrs (acc : AccKind) (c : Ctx) : List IssueEl → State → State × Option (List (IssueEl × Nat))
  | [], s => (s, some [])
  | e :: r, s =>
    match translate s c (.spindle e.k) acc e.va false with
    | (s, .ok pa, _) =>
      match issueAddrs acc c r s with
      | (s, some l) => (s, some ((e, pa) :: l))
      | (s, none) => (s, none)
    | (s, .stall, _) => (s, none)
    | (s, _, _) => issueAddrs acc c r s

/-- The bank address at which an element of a stream lies, where the stream may reach it: a LOCAL element in the banks of its spindle, a REMOTE
one in the banks of this device, or with M = 1 in the array window of the device's own number (R19, R81). -/
def issuePlace (s : State) (x : Str) (a : IssueEl × Nat) : Option Nat :=
  let place : Option Nat := if dSpace x.q = spRemote && dM x.q then ownArray s a.2 else some a.2
  place.filter (fun pa => areaOf pa = .bank && (dSpace x.q ≠ spLocal || pa / 2 ^ 19 = a.1.k))

/-- The bank groups that SKEWMIS is judged on at issue: those a LOCAL stream touches, and that of element 0 of a REMOTE stream, its first
(R101). -/
def skewGroups (s : State) (x : Str) (as : List (IssueEl × Nat)) : List Nat :=
  ((as.filter (fun a => dSpace x.q = spLocal || a.1.i = 0)).filterMap (fun a => (issuePlace s x a).map (· / 2 ^ 19))).eraseDups

/-- SKEWMIS and the lock check of one stream, on the physical addresses of its elements (R77, R101, R557). -/
def physFails (s : State) (ss : List Str) (x : Str) (as : List (IssueEl × Nat)) : List Fail :=
  let skewBad : Bool := (skewGroups s x as).any (fun k => (s.bank (8 * k)).skew != dK x.q)
  let sealBad : Bool := dS x.q && !x.isDst && as.any (fun a => (issuePlace s x a).any (fun pa => !(s.bank (bankOf s pa)).sealed))
  (if skewBad then [strFail ss stSKEWMIS x] else []) ++ (if sealBad then [strFail ss stSEALREF x] else [])

/-- The elements whose physical addresses the issue checks need: all of a LOCAL stream and of a sealed source, element 0 of a REMOTE
stream (R101). -/
def physElems (g : Group) (ss : List Str) (x : Str) : List IssueEl :=
  if x.role = .table || !dMem x.q || dSpace x.q = spScratch then []
  else if dSpace x.q = spLocal || (dS x.q && !x.isDst) then elemVas g ss x
  else (elemVas g ss x).filter (fun e => e.i = 0)

/-- The checks on bank state over every stream, with the bank groups that they judged; none while a table request stalls. -/
def physChecks (g : Group) (ss : List Str) : List Str → State → State × Option (List Fail × List (Nat × Nat))
  | [], s => (s, some ([], []))
  | x :: r, s =>
    match issueAddrs (if x.isDst then .write else .read) g.ctx (physElems g ss x) s with
    | (s, none) => (s, none)
    | (s, some as) =>
      match physChecks g ss r s with
      | (s, some (fs, ks)) => (s, some (physFails s ss x as ++ fs, (skewGroups s x as).map (fun k => (x.id, k)) ++ ks))
      | (s, none) => (s, none)

/-! ## All checks -/

/-- The checks that depend on captured contents alone, and the span and seal checks (R88). -/
def plainFails (s : State) (g : Group) (ss : List Str) : List Fail :=
  let ms := g.members
  failsIf ss stDESCRSV descrsv ++
  failsIf ss stSTYPE (fun x => stype ms x || chainTypeBad ss x) ++
  failsIf ss stSPACE (spaceBad ms ss) ++
  failsIf ss stALIGN (alignBad ms) ++
  failsIf ss stRANGE (rangeBad ms) ++
  failsIf ss stMASKREF (maskrefBad ms) ++
  failsIf ss stSEALREF (sealrefBad s g) ++
  (if spanOk s g then [] else [opFail stSPANERR]) ++
  failsIf ss stOVERLAP (overlapBad ms ss) ++
  failsIf ss stCHAINSLOT (chainslotBad ss) ++
  failsIf ss stCHAINFAN (chainfanBad ss) ++
  (if g.members.length > maxMembers then [opFail stCHAINLEN] else []) ++
  (if g.mixed then [opFail stCHAINVL] else [])

/-- The issue checks of a group: the failure reported, if any, and the bank groups checked for SKEWMIS (R100). The checks on addresses are
made when no lower code decides; a member with VL = 0 has no address to check (R88). Members that captured different VL or spans are each
judged with their own (R122). None while a table request stalls. (DEDUCED: log entry 25) -/
def checkGroup (s : State) (g : Group) : State × Option (Option Fail × List (Nat × Nat)) :=
  let ss := strsOf g.members
  let plain := plainFails s g ss
  if plain.any (fun f => f.code < stSEALREF) then (s, some (firstFail plain, []))
  else
    match physChecks g ss ss s with
    | (s, none) => (s, none)
    | (s, some (fs, ks)) => (s, some (firstFail (plain ++ fs), ks))

end Sys2Proof.Machine
end

