-- ==== Sys2Proof/Machine/Elements.lean ====
section
/-! DEFINITION. The elements of a group in one spindle: the reads of its streams (R79 to R83, R103, R313 to R318, R458, R462), what its
members compute from them (R126 to R130, R160 to R170, R177 to R185), and the writes of its destinations (R95, R129, R135). The readers
present an element whole, and the writer takes the presented elements in order. -/
namespace Sys2Proof.Machine

/-- A remote quad that an element needs: what its answer belongs to, the virtual address, and, for a write, what it stores. -/
structure Need where
  key : RKey
  va : Word := 0
  data : Quad := {}
  mask : BitVec 16 := 0
  poison : BitVec 16 := 0
deriving DecidableEq, Repr

/-- What one access of a stream brings: the physical address and the words with their poison marks, a fault with its status code, a
remote quad to wait for, or a request that stalls. -/
inductive Got where
  | ok (pa : Nat) (ws : List (Word × Bool))
  | fault (code : Nat)
  | need (n : Need)
  | stall
deriving DecidableEq, Repr

/-! ## Where an element lies -/

/-- The bank group of an address, for SKEWMIS: a stream's number and the group's (R101). -/
def reachOf (s : State) (x : Str) (pa : Nat) : List (Nat × Nat) :=
  let pb := (ownArray s pa).getD pa
  if areaOf pb = .bank then [(x.id, pb / 2 ^ 19)] else []

/-- The status of an address that a stream may not reach, before the bank judges it (R81, R103, R387). K is judged in a bank group that the
stream reaches for the first time (R101, R557). -/
def placeFault (s : State) (g : Group) (k : Nat) (x : Str) (pa : Nat) : Option Nat :=
  let sp := dSpace x.q
  let isBank : Bool := areaOf pa = .bank
  if sp = spLocal then
    (if !isBank || pa / 2 ^ 19 ≠ k then some stLOCALITY else bankFault pa)
  else if sp = spScratch then
    (match areaOf pa with
     | .scratch l => if l ≠ g.th.l.val then some stSPACE else if dS x.q && !x.isDst then some stSEALREF else none
     | _ => some stSPACE)
  else if dM x.q then
    (match areaOf pa with
     | .array _ _ => (match ownArray s pa with
       | some off => bankFault off
       | none => if outsideSlot pa then some stSEALREF else none)
     | _ => some stSPACE)
  else if !isBank then some stSPACE
  else bankFault pa
where
  outsideSlot (pb : Nat) : Bool :=
    dS x.q && !x.isDst && (
      let i : InSlot := tget {} (s.ctx (groupCtx s g.inst (tagCtx (dTag x.q)))).ins (tagSlot (dTag x.q))
      pb < i.first || pb ≥ i.first + i.words)
  bankFault (pb : Nat) : Option Nat :=
    if outsideSlot pb || (dS x.q && !x.isDst && !(s.bank (bankOf s pb)).sealed) then some stSEALREF
    else if !g.reached.contains (x.id, pb / 2 ^ 19) && (s.bank (8 * (pb / 2 ^ 19))).skew != dK x.q then some stSKEWMIS
    else none

/-- The status that a bank's judgement gives a stream (R54, R61, R71). -/
def bankStatus (s : State) (n : Nat) (q : Req) (write : Bool) : Option Nat :=
  match judge s n q write with
  | .nonOwner => some stNOWNER
  | .retired => some stRETIRED
  | _ => none

/-- Words of a remote quad with the poison of the nonets that count (R462). -/
def remoteWords (q : Quad) (po : BitVec 16) (pa n : Nat) (mask : BitVec 4) : List (Word × Bool) :=
  (List.range n).map (fun i => (quadGet q (pa % 4 + i), po.extractLsb' (4 * (pa % 4 + i)) 4 &&& mask ≠ 0))

/-- What a remote quad has brought so far (R458, R462, R464, R471). -/
def remoteGot (s : State) (p : Part) (pa : Nat) (n : Need) (words : Nat) (mask : BitVec 4) : Got :=
  let dev : Nat := match areaOf pa with | .array d _ => d.toNat | _ => 64
  match (p.remote.find? (fun r => r.1 = n.key)).map Prod.snd with
  | some (some (.data q po)) => .ok pa (remoteWords q po pa words mask)
  | some (some .ack) => .ok pa []
  | some (some .refused) => .fault stNOWNER
  | some (some .targetReset) => .fault stTGTRESET
  | some (some .linkDown) => .fault stLINKDOWN
  | some none => .fault stREMOTETO
  | none => if devicePresent s dev then .need n else .fault stLINKDOWN

/-- Translation of a stream access (R278, R285): WALKBUS is BUSERR, every other reason XLATE. An access whose request has left keeps the
translation by which it left (R292, R293). -/
def streamXlate (s : State) (g : Group) (k : Nat) (p : Part) (acc : AccKind) (va : Word) : State × Got :=
  match p.bound.find? (fun b => b.1.write = decide (acc = .write) && b.2.toNat / 4 = va.toNat / 4) with
  | some b => (s, .ok (b.1.pa + va.toNat % 4) [])
  | none =>
    match translate s g.ctx (.spindle k) acc va with
    | (s, .ok pa, _) => (s, .ok pa [])
    | (s, .fault r _, _) => (s, .fault (if r = xWalkBus then stBUSERR else stXLATE))
    | (s, .bus, _) => (s, .fault stBUSERR)
    | (s, .stall, _) => (s, .stall)

/-- A word overwritten in place by the same group reads as before the group (R303). -/
def oldWords (s : State) (g : Group) (pa : Nat) (ws : List (Word × Bool)) : List (Word × Bool) :=
  (ws.zipIdx).map (fun (w, i) => match g.olds.find? (fun o => o.1 = placeOf s (pa + i)) with
    | some o => o.2
    | none => w)

/-- Reads words of one quad for a stream: `mask` names the nonets whose poison counts, `exam` those examined (R315, R317), `nth` the remote
request of the element that asks for the quad. -/
def streamRead (s : State) (g : Group) (k : Nat) (p : Part) (x : Str) (va : Word) (n : Nat) (mask exam : BitVec 4) (nth : Nat := 0) :
    State × Got :=
  match streamXlate s g k p .read va with
  | (s, .ok pa _) =>
    (match placeFault s g k x pa with
     | some c => (s, .fault c)
     | none =>
       let own := ownArray s pa
       let (q, pa') := match own with
         | some off => (reqWovas g.inst (some g.epoch), off)
         | none => (reqStream k g.inst g.epoch, pa)
       let isArray : Bool := match areaOf pa' with | .array _ _ => true | _ => false
       if isArray then
         (match remoteGot s p pa { key := ⟨pa / 4 * 4, false, nth⟩, va := va } n mask with
          | .ok pa ws => (s, .ok pa (oldWords s g pa ws))
          | r => (s, r))
       else
         let code := if own.isSome then some stNOWNER else if areaOf pa' = .bank then bankStatus s (bankOf s pa') q false else none
         match readMem s q false pa' n mask exam with
         | (s, .ok ws) => (s, .ok pa (oldWords s g pa' ws))
         | (s, .bus) => (s, .fault (code.getD stBUSERR))
         | (s, .stall) => (s, .stall))
  | r => r

/-! ## Reading the streams of an element -/

/-- A fault with the virtual address of its element. -/
abbrev EFail := Fail × Word

/-- The fault an element reports (R103). -/
def firstEFail : List EFail → Option EFail
  | [] => none
  | x :: r => match firstEFail r with
    | none => some x
    | some y => if y.1.before x.1 then some y else some x

/-- The virtual address of an element of a stream. -/
def strVa (x : Str) (i : Nat) : Word :=
  match dEt x.q with
  | some t => BitVec.ofInt 36 (elemAddr x.q t i).1
  | none => dBase x.q

/-- What the reads of an element have gathered. -/
structure Gather where
  st : State
  reads : List ((Nat × Quad) × List (Word × Bool)) := []
  fails : List EFail := []
  needs : List Need := []
  stall : Bool := false
  reach : List (Nat × Nat) := []

/-- A 36-bit or 72-bit element needs whole words; NONET and MASK elements one nonet (R315, R317). -/
def nonetMask (t : ET) (sub : Nat) : BitVec 4 :=
  match t with
  | .nonet => BitVec.ofNat 4 (2 ^ sub)
  | .mask => BitVec.ofNat 4 (2 ^ (sub / 9))
  | _ => 0xF

/-- Reads one element of a stream into the gathering under a key. A mask nonet is examined at its first element; the nonets of an inactive
element are examined like any other that the read names (R94, R317). (DESIGN CHOICE: log entry 63) -/
def gatherOne (ss : List Str) (g : Group) (k : Nat) (p : Part) (i : Nat) (x : Str) (key : Nat × Quad) (wide : Bool) (a : Gather) :
    Gather :=
  match dEt x.q with
  | none => a
  | some t =>
    let (_, sub) := elemAddr x.q t i
    let va := strVa x i
    let mask := nonetMask t sub
    let exam := if t = .mask && i % 9 ≠ 0 && i ≠ p.start then 0 else mask
    match streamRead a.st g k p x va (if wide then 4 else t.w) mask exam with
    | (s, .ok pa ws) => { a with st := s, reads := a.reads ++ [(key, ws)], reach := a.reach ++ reachOf s x pa }
    | (s, .fault c) => { a with st := s, fails := a.fails ++ [(strFail ss c x, va)] }
    | (s, .need n) => { a with st := s, needs := a.needs ++ [n] }
    | (s, .stall) => { a with st := s, stall := true }

/-- The key under which EXPAND keeps its own reading of a. -/
def expandKey (j : Nat) : Nat × Quad := (100 + j, {})

/-- Whether a stream is a of an EXPAND: it is read at j(i) where m is 1 (R161). -/
def isExpandA (ms : List Member) (x : Str) : Bool := x.f = .fa && x.op ms = .expand
/-- Whether a stream is b of a SPROJ: its element is a whole quad (R169). -/
def isSegB (ms : List Member) (x : Str) : Bool := x.f = .fb && x.op ms = .sproj

/-- Reads every port of an element once (R123), in the order of R100; of the streams only those that `use` names. -/
def gatherPorts (ss : List Str) (g : Group) (k : Nat) (p : Part) (i : Nat) (use : Str → Bool) (s : State) : Gather :=
  let xs := ss.filter (fun x => x.reads && use x && !isExpandA g.members x)
  let firsts := (readPorts ss).filterMap (fun key => xs.find? (fun x => (x.reg, x.q) = key))
  firsts.foldl (fun a x =>
    gatherOne ss g k p i x (x.reg, x.q) (xs.any (fun y => (y.reg, y.q) = (x.reg, x.q) && isSegB g.members y)) a) { st := s }

/-- The value of an element in the words of its reading. -/
def elemOf (t : ET) (sub : Nat) (ws : List (Word × Bool)) : Elem :=
  let w (i : Nat) : Word × Bool := ws.getD i (0, false)
  match t with
  | .nonet => { bits := BitVec.ofNat 72 (fld (w 0).1 (9 * sub) 9), poison := (w 0).2 }
  | .mask => { bits := BitVec.ofNat 72 (fld (w 0).1 sub 1), poison := (w 0).2 }
  | _ => if t.wide then { bits := mkD (w 1).1 (w 0).1, poison := (w 0).2 || (w 1).2 }
    else { bits := (w 0).1.setWidth 72, poison := (w 0).2 }

def readOf (rs : List ((Nat × Quad) × List (Word × Bool))) (key : Nat × Quad) : List (Word × Bool) :=
  ((rs.find? (fun r => r.1 = key)).map Prod.snd).getD []

/-- The value a stream has at an element (R79, R82, R83, R121). -/
def strVal (rs : List ((Nat × Quad) × List (Word × Bool))) (slots : List (Nat × Elem)) (x : Str) (i : Nat) : Elem :=
  match dEt x.q with
  | none => {}
  | some t =>
    let sp := dSpace x.q
    if sp = spBcast then
      { bits := if t.wide then mkD x.q.w0 x.q.w3 else x.q.w0.setWidth 72 }
    else if sp = spIota then
      { bits := BitVec.ofNat 72 (zput t ((dBase x.q).toInt + i * dStride x.q)) }
    else if sp = spChain then
      ((slots.find? (fun e => e.1 = dSlot x.q)).map Prod.snd).getD {}
    else elemOf t (elemAddr x.q t i).2 (readOf rs (x.reg, x.q))

/-! ## Computing the members of an element -/

/-- What the members of one element have computed. -/
structure Ev where
  slots : List (Nat × Elem) := []
  outs : List (Str × Nat × Elem) := []
  fails : List EFail := []
  p : Part

def addFlags (p : Part) (j : Nat) (fl : Flags5) : Part := { p with kflag := p.kflag ||| fl.setWidth 30 <<< (5 * j) }

/-- The activity of a member's element (R94, R126): active, and poisoned by its mask (R128). A mask taken from a chain slot carries its
poison mark as P = 1 does. (DESIGN CHOICE: log entry 66) -/
def activity (val : Str → Elem) (mine : List Str) (m : Member) : Bool × Bool :=
  let chained := (mine.filter (fun x => !x.isDst && x.role ≠ .table && dSpace x.q = spChain)).all (fun x => (val x).active)
  if !dMen m.dw then (chained, false)
  else match mine.find? (fun x => x.role = .mask) with
    | none => (chained, false)
    | some x =>
      let e := val x
      (chained && (e.poison || ((e.bits = 1) != dMsense m.dw)), chained && e.poison)

/-- The result of an element goes to a destination: a chain slot takes it with its marks, memory takes an active one. -/
def emit (ev : Ev) (x : Str) (pos : Nat) (e : Elem) : Ev :=
  if dSpace x.q = spChain then { ev with slots := ev.slots ++ [(dSlot x.q, e)] }
  else if e.active then { ev with outs := ev.outs ++ [(x, pos, e)] }
  else ev

def poisoned : Elem := { bits := 0, poison := true }

/-- One member on one element. (DESIGN CHOICE: log entry 66) -/
def evalMember (ss : List Str) (rs : List ((Nat × Quad) × List (Word × Bool))) (i : Nat) (ev : Ev) (mj : Member × Nat) : Ev :=
  let (m, j) := mj
  let mine := memberStrs j m
  let o := m.op
  -- EXPAND reads its a at j(i) (R161)
  let posOf (x : Str) : Nat := if o = .expand && x.f = .fa then ev.p.ones.getD j 0 else i
  let val (x : Str) : Elem :=
    if o = .expand && x.f = .fa && dMem x.q then (match dEt x.q with
      | some t => elemOf t (elemAddr x.q t (posOf x)).2 (readOf rs (expandKey j))
      | none => {})
    else
      let e := strVal rs ev.slots x (posOf x)
      -- the segment of SPROJ is a whole quad (R169, R170)
      if o = .sproj && x.f = .fb then { e with poison := (readOf rs (x.reg, x.q)).any Prod.snd } else e
  let fv (f : Field) : Elem := ((mine.find? (fun x => x.f = f)).map val).getD {}
  let str (f : Field) : Option Str := mine.find? (fun x => x.f = f)
  let (act, mpoison) := activity val mine m
  -- a poisoned element of a stream that stops the op: P = 0, or whatever P is
  let stops (f : Field) (always : Bool) : List EFail := match str f with
    | some x => if (val x).poison && dMem x.q && (always || !dP x.q) then [(strFail ss stPOISON x, strVa x (posOf x))] else []
    | none => []
  let ta := (dEt m.da).getD .i36
  let td := (dEt m.dw).getD .i36
  let put2 (ev : Ev) (e e2 : Elem) : Ev :=
    let ev := match str .fw with | some x => emit ev x i e | none => ev
    match mine.find? (fun x => x.role = .dst2) with | some x => emit ev x i e2 | none => ev
  let isSelector : Bool := o = .compress || o = .expand
  let always : List EFail := (if isSelector then stops .fc true else []) ++ (if o.isSeg then stops .fb true else [])
  let sel : Bool := (fv .fc).bits = 1
  let mfails := if act then stops .fm false else []
  let count (p : Part) : Part := if isSelector && sel then { p with ones := modAt p.ones j (· + 1) } else p
  let segStart : Bool := o.isSeg && (fv .fb).bits = 1
  if o.isRed || o.isScan then
    let e := fv .fa
    let fails := always ++ mfails ++ (if act then stops .fa false else [])
    let x : Elem := { e with active := act, poison := act && (e.poison || mpoison) }
    let (acc, fl) := Acc.take o ta m.v.rm (ev.p.accs.getD j {}) i segStart x
    let p := { ev.p with accs := setAt ev.p.accs j acc, poisoned := ev.p.poisoned || x.poison }
    if o.isRed then { ev with p := addFlags p j fl, fails := ev.fails ++ fails }
    else
      let (run, f1) := Acc.take o ta m.v.rm (ev.p.runs.getD j {}) i segStart x
      let (v, f2) := if act then run.value o ta m.v.rm else (none, 0)
      let p := addFlags { p with runs := setAt p.runs j run } j (f1 ||| f2)
      put2 { ev with p := p, fails := ev.fails ++ fails }
        (if act then v.getD {} else { active := false }) {}
  else if !act then
    put2 { ev with p := count ev.p, fails := ev.fails ++ always } { active := false } { active := false }
  else
    let used : List Field := match o with
      | .merge => [.fc, if sel then .fa else .fb]
      | .expand => [if sel then .fa else .fb]
      | .compress => if sel then [.fa] else []
      | _ => (mine.filter (fun x => x.role = .src)).map (fun x => x.f)
    let fails := always ++ mfails ++ used.flatMap (fun f => stops f false)
    let bad := mpoison || used.any (fun f => (fv f).poison)
    let a := (fv .fa).bits.toNat
    let b := (fv .fb).bits.toNat
    let ev := { ev with fails := ev.fails ++ fails, p := { ev.p with poisoned := ev.p.poisoned || bad } }
    if o = .compress then
      let ev' := match str .fw with
        | some x => if sel then emit ev x (ev.p.ones.getD j 0) (if bad then poisoned else fv .fa) else ev
        | none => ev
      { ev' with p := count ev'.p }
    else if bad then put2 { ev with p := count ev.p } poisoned poisoned
    else if o = .sproj then
      let (t, d, fl) := sprojEl m.v.rm a ((readOf rs ((str .fb).map (fun x => (x.reg, x.q)) |>.getD (0, {}))).map (fun w => w.1.toNat))
      put2 { ev with p := addFlags ev.p j fl } { bits := BitVec.ofNat 72 t } { bits := BitVec.ofNat 72 d }
    else
      let (v, fl) :=
        if o = .iclass || o = .ilook then tableEl o ta (dStride m.db).toNat (ev.p.tables.getD j []) a
        else evalOp o m.v.rm ta td a b (fv .fc).bits.toNat sel
      put2 { ev with p := addFlags (count ev.p) j fl } { bits := BitVec.ofNat 72 v } {}

/-- What evaluating an element answers: the values and the bank groups reached, a fault, remote quads to wait for, or a stall. -/
inductive EvalRes where
  | ok (s : State) (ev : Ev) (reach : List (Nat × Nat))
  | fault (s : State) (f : EFail) (p : Part)
  | need (ns : List Need)
  | stall

/-- EXPAND reads its a where m is 1, at its own position (R161). -/
def gatherExpand (ss : List Str) (g : Group) (k : Nat) (p : Part) (i : Nat) (use : Str → Bool) (a : Gather) : Gather :=
  (ss.filter (fun x => isExpandA g.members x && x.reads && use x)).foldl (fun a x =>
    match g.members[x.j]? with
    | none => a
    | some m =>
      let mv : Elem := match (memberStrs x.j m).find? (fun y => y.f = .fc) with | some y => strVal a.reads [] y i | none => {}
      if mv.bits = 1 then gatherOne ss g k p (p.ones.getD x.j 0) x (expandKey x.j) false a else a) a

/-- Evaluates an element of a group in the spindle `k`: reads, then members in order. `use` names the streams to read. (DESIGN CHOICE: log entry 21) -/
def evalElement (s : State) (g : Group) (ss : List Str) (k : Nat) (p : Part) (i : Nat) (use : Str → Bool) : EvalRes :=
  let a := gatherExpand ss g k p i use (gatherPorts ss g k p i use s)
  if a.stall then .stall
  else if !a.needs.isEmpty then .need a.needs
  else
    let ev := (g.members.zipIdx).foldl (evalMember ss a.reads i) { p := p }
    match firstEFail (a.fails ++ ev.fails) with
    | some f => .fault a.st f ev.p
    | none => .ok a.st ev a.reach

/-! ## Presenting elements (R121, R132) -/

/-- The members' state after every element presented so far. -/
def Part.front (p : Part) : Part :=
  match p.ahead.getLast? with
  | none => p
  | some f => { p with kflag := f.kflag, poisoned := f.poisoned, ones := f.ones, accs := f.accs, runs := f.runs }

/-- The members' state once an element is written. -/
def Part.take (p : Part) (f : Front) : Part :=
  { p with kflag := f.kflag, poisoned := f.poisoned, ones := f.ones, accs := f.accs, runs := f.runs }

/-- The next element to present. -/
def Part.head (p : Part) : Nat := p.next + p.ahead.length

/-- Where the writer stops. -/
def Part.limit (p : Part) : Nat := min p.last1 (p.stop.getD p.last1)

/-- An element as the readers present it, with the members' state after it. -/
def frontOf (p : Part) (slots : List (Nat × Elem)) (outs : List (Str × Nat × Elem)) (fault : Option EFail) : Front :=
  { slots := slots, outs := outs.map (fun o => (o.1.j, o.1.role = .dst2, o.2.1, o.2.2)), fault := fault,
    kflag := p.kflag, poisoned := p.poisoned, ones := p.ones, accs := p.accs, runs := p.runs }

/-- The contents of a chain slot of the spindle, first in first out (R121). -/
def Part.slot (p : Part) (n : Nat) : List Elem :=
  p.ahead.filterMap (fun f => (f.slots.find? (fun e => e.1 = n)).map Prod.snd)

/-- Elements that a chain slot holds: 64 words in each of 16 lanes (R121). -/
def slotRoom (q : Quad) : Nat := match dEt q with | some t => 1024 / t.w | none => 1024

/-- Elements that the readers may be ahead of the writer in a group without chain slots: those of the 6 bank cycles in which an op delivers its
result (R78, R112). (DEDUCED: log entry 22) -/
def pipeRoom (ss : List Str) : Nat := if ss.any (fun x => match dEt x.q with | some t => t.wide | none => false) then 48 else 96

/-- Whether the readers may present another element: none at or above the stop, none after a fault, and every producer's slot has room
(R124, R132). -/
def readersGo (ss : List Str) (p : Part) : Bool :=
  let prods := ss.filter (fun x => x.isDst && dSpace x.q = spChain)
  decide (p.head < p.limit) && (match p.ahead.getLast? with | some f => f.fault.isNone | none => true) &&
    (if prods.isEmpty then decide (p.ahead.length < pipeRoom ss)
     else prods.all (fun x => decide ((p.slot (dSlot x.q)).length < slotRoom x.q)))

/-! ## Writing the destinations -/

/-- One judged write: the stream, its address, the stores (offset, word, nonets, poison), the position and the element of a sealed stream, how
many elements count as poisoned results, and the words it replaces. -/
structure Write where
  x : Str
  va : Word
  pa : Nat
  stores : List (Nat × Word × BitVec 4 × Bool)
  pos : Nat
  e : Elem
  counts : Nat
  olds : List (Nat × Word × Bool)
deriving DecidableEq, Repr

/-- A write's words, if it is local: the bank, or this device's own array window as the local service (R19). -/
def writeReq (s : State) (g : Group) (k pa : Nat) : Req × Nat :=
  match ownArray s pa with
  | some off => (reqWovas g.inst (some g.epoch), off)
  | none => (reqStream k g.inst g.epoch, pa)

def isRemote (s : State) (pa : Nat) : Bool :=
  match areaOf pa with
  | .array _ _ => (ownArray s pa).isNone
  | _ => false

/-- The judgement of a write at its target, before anything is stored; the local service answers as another device would (R19, R462). -/
def judgeWrite (s : State) (g : Group) (k : Nat) (p : Part) (x : Str) (va : Word) : State × Got :=
  match streamXlate s g k p .write va with
  | (s, .ok pa _) =>
    (match placeFault s g k x pa with
     | some c => (s, .fault c)
     | none =>
       if isRemote s pa then (s, .ok pa [])
       else
         let (q, pa') := writeReq s g k pa
         if pathBusy s q pa' then (s, .stall)
         else if areaOf pa' = .bank then
           (match judge s (bankOf s pa') q true with
            | .nonOwner => (recordNown s (bankOf s pa') q true (rowOf pa'), .fault stNOWNER)
            | .retired => (s, .fault (if (ownArray s pa).isSome then stNOWNER else stRETIRED))
            | .stalls => (s, .stall)
            | _ => (s, .ok pa []))
         else (s, .ok pa []))
  | r => r

/-- Stores the parts of a judged write; a stale epoch discards them (R55). -/
def storeParts (s : State) (q : Req) (pa : Nat) (ps : List (Nat × Word × BitVec 4 × Bool)) : State :=
  let go (s : State) : State := ps.foldl (fun s (o, w, m, po) => s.store (placeOf s (pa + o)) w m po) s
  if areaOf pa = .bank then
    (if judge s (bankOf s pa) q true = .stale then recordStale s (bankOf s pa) q else go s)
  else go s

/-- The remote request of a write to the array window, the `nth` of its elements' writes. -/
def needOf (va : Word) (pa nth : Nat) (ps : List (Nat × Word × BitVec 4 × Bool)) : Need :=
  ps.foldl (fun (n : Need) (o, w, m, po) =>
    let i := (pa + o) % 4
    let keep (j : Nat) : Word := if m.getLsbD j then (w.extractLsb' (9 * j) 9).setWidth 36 <<< (9 * j) else 0
    let mk : BitVec 16 := m.setWidth 16 <<< (4 * i)
    { n with data := quadPut n.data i (quadGet n.data i ||| keep 0 ||| keep 1 ||| keep 2 ||| keep 3)
             mask := n.mask ||| mk, poison := if po then n.poison ||| mk else n.poison }) { key := ⟨pa / 4 * 4, true, nth⟩, va := va }

/-- Whether the group may read a word of a destination once more after it has written it: EXPAND reads its a at positions behind its own, and a
stream of STRIDE 0 reads one word at every element (R97, R161, R303). -/
def rereads (g : Group) (x : Str) : Bool :=
  (strsOf g.members).any (fun y => !y.isDst && dMem y.q && y.role ≠ .table && sameStream y.q x.q &&
    (isExpandA g.members y || (dStride x.q = 0 && dType x.q ≠ 6)))

/-- What preparing writes has gathered: `sent` counts the remote ones. Faults stand with their element. -/
structure Prep where
  st : State
  ws : List Write := []
  fails : List (Nat × EFail) := []
  needs : List Need := []
  stall : Bool := false
  sent : Nat := 0
  reach : List (Nat × Nat) := []
  olds : List (Nat × Word × Bool) := []

/-- The place of a word that a group's write stores to. -/
def storePlace (s : State) (g : Group) (k pa : Nat) : Nat := placeOf s (if isRemote s pa then pa else (writeReq s g k pa).2)

/-- The words that a write replaces, where the group may read them once more and has not kept them yet. Of another device's they are read there; no
other write reads what it replaces (R34, R135, R303). (DEDUCED: log entry 21) -/
def replaced (s : State) (g : Group) (k : Nat) (p : Part) (x : Str) (va : Word) (pa : Nat) (stores : List (Nat × Word × BitVec 4 × Bool)) : Got :=
  if !rereads g x || stores.all (fun o => g.olds.any (fun y => y.1 = storePlace s g k (pa + o.1))) then .ok pa []
  else if isRemote s pa then
    match remoteGot s p pa { key := ⟨pa / 4 * 4, false, 1⟩, va := va } (4 - pa % 4) 0xF with
    | .ok pa ws => .ok pa (stores.map (fun o => ws.getD o.1 (0, false)))
    | r => r
  else .ok pa (stores.map (fun o => s.readWord (placeOf s ((writeReq s g k pa).2 + o.1))))

/-- A judged write joins the others; a remote one needs its acknowledgement (R300, R462). `e` is the element of a fault. -/
def addWrite (ss : List Str) (g : Group) (k : Nat) (p : Part) (a : Prep) (e : Nat) (w : Write) : Prep :=
  let s := a.st
  let bad (c : Nat) : Prep := { a with fails := a.fails ++ [(e, (strFail ss c w.x, w.va))] }
  match replaced s g k p w.x w.va w.pa w.stores with
  | .need n => { a with needs := a.needs ++ [n] }
  | .fault c => bad c
  | .stall => { a with stall := true }
  | .ok _ ws =>
    let w := { w with olds := (w.stores.zip ws).map (fun (o, v) => (storePlace s g k (w.pa + o.1), v)) }
    let b := { a with ws := a.ws ++ [w], reach := a.reach ++ reachOf s w.x w.pa, olds := a.olds ++ w.olds }
    if isRemote s w.pa then
      match remoteGot s p w.pa (needOf w.va w.pa a.sent w.stores) 0 0 with
      | .need n => { b with needs := b.needs ++ [n], sent := b.sent + 1 }
      | .fault c => { bad c with sent := b.sent + 1 }
      | _ => { b with sent := b.sent + 1 }
    else b

/-- Whether a destination is a mask in memory, whose words the writer collects (R95). -/
def isMaskDst (x : Str) : Bool := x.isDst && dMem x.q && dType x.q = 6

/-- Judges and forms the write of one result that is no mask bit; `el` is its element. -/
def prepOne (ss : List Str) (g : Group) (k : Nat) (p : Part) (el : Nat) (a : Prep) (o : Str × Nat × Elem) : Prep :=
  let (x, i, e) := o
  match dEt x.q with
  | none => a
  | some t =>
    let va := strVa x i
    match judgeWrite a.st g k p x va with
    | (s, .fault c) => { a with st := s, fails := a.fails ++ [(el, (strFail ss c x, va))] }
    | (s, .stall) => { a with st := s, stall := true }
    | (s, .need n) => { a with st := s, needs := a.needs ++ [n] }
    | (s, .ok pa _) =>
      let v := e.bits
      let stores : List (Nat × Word × BitVec 4 × Bool) := match t with
        | .nonet =>
          let n := (elemAddr x.q t i).2
          [(0, BitVec.ofNat 36 (v.toNat % 512 * 2 ^ (9 * n)), BitVec.ofNat 4 (2 ^ n), e.poison)]
        | _ => if t.wide then [(0, dLo v, 0xF, e.poison), (1, dHi v, 0xF, e.poison)] else [(0, v.setWidth 36, 0xF, e.poison)]
      addWrite ss g k p { a with st := s } el ⟨x, va, pa, stores, i, e, if e.poison then 1 else 0, []⟩

/-! ### Mask words (R27, R95, R129, R135) -/

/-- The elements of a mask word that a write gives, and how: from `i0` up to `i1`, with the active ones' results; `merges` where the word is
read first, `inact` where one of its elements is inactive. -/
structure MaskBits where
  vl : Nat
  i0 : Nat
  i1 : Nat
  given : List (Nat × Elem)
deriving DecidableEq, Repr

/-- An element of the word is inactive below VL (R95). -/
def MaskBits.inact (b : MaskBits) : Bool := decide (b.given.length < b.i1 - b.i0)
/-- The writer reads the word: it holds an inactive element, or the op starts or stops inside it (R95, R135). -/
def MaskBits.merges (b : MaskBits) : Bool := b.inact || b.i0 % 36 ≠ 0 || (b.i1 ≠ b.vl && b.i1 % 36 ≠ 0)
/-- The results that lie in nonet `n` of the word. -/
def MaskBits.here (b : MaskBits) (n : Nat) : List (Nat × Elem) :=
  let lo := b.i0 / 36 * 36 + 9 * n
  b.given.filter (fun e => lo ≤ e.1 && e.1 < lo + 9)

/-- Bit `j` of nonet `n` as it is written: the result there; a bit that the op does not give keeps its value, and one at or above VL
becomes zero. -/
def MaskBits.bit (b : MaskBits) (old : Word) (bad : Bool) (n j : Nat) : Bool :=
  let pos := b.i0 / 36 * 36 + 9 * n + j
  match (b.here n).find? (fun e => e.1 = pos) with
  | some (_, e) => e.bits.getLsbD 0
  | none => b.merges && !bad && (decide (pos < b.vl) || decide (b.i1 < b.vl)) && old.getLsbD (9 * n + j)

/-- The op gives every bit of a nonet. -/
def MaskBits.whole (b : MaskBits) (n : Nat) : Bool :=
  let lo := b.i0 / 36 * 36 + 9 * n
  decide (lo ≥ b.i0) && (decide (lo + 9 ≤ b.i1) || decide (b.i1 = b.vl))

/-- Whether nonet `n` is written though it holds no result: it lies wholly at or above VL, and no element of the word is inactive (R27, R95). -/
def MaskBits.above (b : MaskBits) (n : Nat) : Bool :=
  !b.inact && decide (b.i1 = b.vl) && decide (b.vl ≤ b.i0 / 36 * 36 + 9 * n)

/-- One nonet of the word as it is written; none where it is not enabled. A nonet that read poisoned and that holds bits the op does not reach
stays poisoned. (DESIGN CHOICE: log entry 63) -/
def MaskBits.nonet (b : MaskBits) (old : Word) (bad : Bool) (n : Nat) : Option (Nat × Word × BitVec 4 × Bool) :=
  if b.merges && (b.here n).isEmpty && !b.above n then none
  else
    let v := (List.range 9).foldl (fun (v : Nat) j => v + (if b.bit old bad n j = true then 2 ^ (9 * n + j) else 0)) 0
    some (0, BitVec.ofNat 36 v, BitVec.ofNat 4 (2 ^ n), (b.here n).any (fun e => e.2.poison) || (bad && (b.inact || !b.whole n)))

/-- Whether a nonet of the word just read is poisoned. -/
def nonetBad (s : State) (g : Group) (k : Nat) (p : Part) (pa n : Nat) : Bool :=
  let m : BitVec 4 := BitVec.ofNat 4 (2 ^ n)
  if isRemote s pa then
    match remoteGot s p pa { key := ⟨pa / 4 * 4, false, 1⟩ } 1 m with
    | .ok _ ws => (ws.headD (0, false)).2
    | _ => false
  else (s.readMasked (placeOf s (writeReq s g k pa).2) m).2

/-- The mask word that the presented elements of one word give a destination. A merge read that finds poison under active elements follows P
of the mask stream; with no mask stream, the inactive marks of a chain slot being all, it stops as P = 0 does. (DESIGN CHOICE: log entry 63) -/
def prepMask (ss : List Str) (g : Group) (k : Nat) (p : Part) (i0 i1 : Nat) (fs : List Front) (a : Prep) (x : Str) : Prep :=
  let given := fs.flatMap (fun f => (f.outs.filter (fun o => o.1 = x.j && o.2.1 == decide (x.role = .dst2))).map (fun o => o.2.2))
  let b : MaskBits := ⟨g.vl, i0, i1, given⟩
  let va := strVa x i0
  let el := ((given.head?).map Prod.fst).getD i0
  let carries := match (memberStrs x.j (g.members.getD x.j { v := {} })).find? (fun y => y.role = .mask) with
    | some y => dP y.q
    | none => false
  let fault (s : State) (e c : Nat) : Prep := { a with st := s, fails := a.fails ++ [(e, (strFail ss c x, va))] }
  match (if given.isEmpty then (a.st, Got.ok 0 []) else judgeWrite a.st g k p x va) with
  | (s, .fault c) => fault s el c
  | (s, .stall) => { a with st := s, stall := true }
  | (s, .need n) => { a with st := s, needs := a.needs ++ [n] }
  | (s, .ok pa _) =>
    match (if b.merges then streamRead s g k p x va 1 0xF 0xF 1 else (s, Got.ok pa [])) with
    | (s, .fault c) => fault s el c
    | (s, .stall) => { a with st := s, stall := true }
    | (s, .need n) => { a with st := s, needs := a.needs ++ [n] }
    | (s, .ok pr ws) =>
      let old := (ws.headD (0, false)).1
      let bad (n : Nat) : Bool := b.merges && nonetBad s g k p pa n
      let poisonedNonets := (List.range 4).filter (fun n => bad n && b.inact && !(b.here n).isEmpty)
      match (if carries then [] else poisonedNonets) with
      | n :: _ => fault s (((b.here n).head?.map Prod.fst).getD el) stPOISON
      | [] =>
        if given.isEmpty then { a with st := s, reach := a.reach ++ reachOf s x pr }
        else
          let stores := (List.range 4).filterMap (fun n => b.nonet old (bad n) n)
          let counts := (given.filter (fun e => e.2.poison || poisonedNonets.contains (e.1 % 36 / 9))).length
          addWrite ss g k p { a with st := s } el ⟨x, va, pa, stores, i0, {}, counts, []⟩

/-! ### Batches -/

/-- The stream of a result. -/
def outStr (ss : List Str) (j : Nat) (second : Bool) : Option Str :=
  ss.find? (fun x => x.j = j && x.role = (if second then SRole.dst2 else SRole.dst))

/-- How far the writer goes in one action: one element, or the rest of a mask word (R27, R95). -/
def batchEnd (ss : List Str) (p : Part) : Nat :=
  if ss.any isMaskDst then min p.limit (p.next / 36 * 36 + 36) else p.next + 1

/-- The presented elements that the writer takes in one action, none while more of them must be presented first. -/
def batchOf (ss : List Str) (p : Part) : Option (List Front) :=
  let n := batchEnd ss p - p.next
  let fs := p.ahead.take n
  match fs.find? (fun f => f.fault.isSome) with
  | some f => some (if (fs.head?.bind Front.fault).isSome then [f] else fs.takeWhile (fun f => f.fault.isNone))
  | none => if fs.length < n || fs.isEmpty then none else some fs

/-- Judges and forms the writes of elements from `i0` on. -/
def formBatch (s : State) (ss : List Str) (g : Group) (k : Nat) (p : Part) (i0 : Nat) (fs : List Front) : Prep :=
  let a := (fs.zipIdx).foldl (fun a (f, d) => f.outs.foldl (fun (a : Prep) o =>
    match outStr ss o.1 o.2.1 with
    | some x => if isMaskDst x then a else prepOne ss g k p (i0 + d) a (x, o.2.2)
    | none => a) a) { st := s }
  (ss.filter isMaskDst).foldl (prepMask ss g k p i0 (i0 + fs.length) fs) a

/-- What forming writes has come to: the writes of a number of elements, the fault of the first element, remote requests to wait for, or a
stall. -/
inductive Formed where
  | ok (s : State) (ws : List Write) (n : Nat) (reach : List (Nat × Nat))
  | fault (s : State) (f : EFail)
  | need (ns : List Need) (olds : List (Nat × Word × Bool))
  | stall

/-- The lowest element that a write faults at. -/
def lowestFault (a : Prep) : Option Nat :=
  match a.fails with
  | [] => none
  | f :: r => some (r.foldl (fun m x => min m x.1) f.1)

/-- The writes of a batch; where one of them faults, those of the elements below, so that a fault stops at its element (R102). None is
performed unless all may be. -/
def formWrites (s : State) (ss : List Str) (g : Group) (k : Nat) (p : Part) (i0 : Nat) : Nat → List Front → Formed
  | 0, _ => .stall
  | fuel + 1, fs =>
    let a := formBatch s ss g k p i0 fs
    if a.stall then .stall
    else match lowestFault a with
      | some e =>
        if fs.length ≤ 1 then
          (match firstEFail (a.fails.map Prod.snd) with
           | some f => .fault a.st f
           | none => .stall)
        else formWrites s ss g k p i0 fuel (fs.take (max 1 (e - i0)))
      | none => if a.needs.isEmpty then .ok a.st a.ws fs.length a.reach else .need a.needs a.olds

/-! ## Sealed words (R377, R381) -/

/-- The nonets of `m` in `old` replaced by those of `w`. -/
def mergeNonets (old w : Word) (m : BitVec 4) : Word :=
  (List.range 4).foldl (fun a j => a ||| ((if m.getLsbD j then w else old).extractLsb' (9 * j) 9).setWidth 36 <<< (9 * j)) 0

/-- The first sealed word that an element's stores touch (R377). -/
def sealedIndex (t : ET) (i : Nat) : Nat :=
  match t with
  | .mask => i / 36
  | .nonet => i / 4
  | _ => t.w * i

/-- Where a write's nonets lie in the sealed word: NONET elements are packed in order whatever the stride (R377). -/
def sealedStores (t : ET) (i : Nat) (e : Elem) (stores : List (Nat × Word × BitVec 4 × Bool)) : List (Nat × Word × BitVec 4 × Bool) :=
  match t with
  | .nonet => [(0, BitVec.ofNat 36 (e.bits.toNat % 512 * 2 ^ (9 * (i % 4))), BitVec.ofNat 4 (2 ^ (i % 4)), e.poison)]
  | _ => stores

/-- A sealed destination's words reach the tailstock with the writer's epoch; those of another epoch than the context's are discarded
(R385). A word that goes to a leaf leaves it without a digest (R380). A poisoned nonet counts as zero (R377), a poisoned element in the slot's
count (R381). (DEDUCED: log entry 24) -/
def sealWrite (s : State) (g : Group) (w : Write) : State :=
  if !dS w.x.q || dSpace w.x.q = spChain then s
  else match dEt w.x.q with
    | none => s
    | some t =>
      let c := groupCtx s g.inst (tagCtx (dTag w.x.q))
      if (s.ctx c).st ≠ .opened && (s.ctx c).st ≠ .closing then s
      else if (s.ctx c).epoch ≠ g.epoch then s
      else s.modCtx c (fun x => { x with outs := tmod {} x.outs (tagSlot (dTag w.x.q)) (fun (o : OutSlot) =>
        let o := (sealedStores t w.pos w.e w.stores).foldl (fun (o : OutSlot) (off, v, m, po) =>
          let i := sealedIndex t w.pos + off
          let key := 2 ^ 22 * g.sealKey + i
          let old : Word := (tget none o.words key).getD 0
          { o with words := tput none o.words key (some (mergeNonets old (if po then 0 else v) m)),
                   digests := tput [] o.digests ((o.base g.sealKey + i) / 4096) [] }) o
        { o with pcnt := o.pcnt + w.counts }) })

/-! ## Performing writes -/

/-- A group keeps words as they were before it (R303). -/
def Group.keepOlds (g : Group) (os : List (Nat × Word × Bool)) : Group :=
  os.foldl (fun (g : Group) o => if g.olds.any (fun x => x.1 = o.1) then g else { g with olds := g.olds ++ [o] }) g

/-- Performs a local write; a remote one has been acknowledged already. The words it replaces are kept as they were before the group
(R303). -/
def performWrite (k : Nat) (sg : State × Group) (w : Write) : State × Group :=
  let (s, g) := sg
  let s' := if isRemote s w.pa then s
    else
      let (q, pa) := writeReq s g k w.pa
      storeParts s q pa w.stores
  (sealWrite s' g w, g.keepOlds w.olds)

end Sys2Proof.Machine
end

