-- ==== Sys2Proof/Machine/GroupEnd.lean ====
section
/-! DEFINITION. How a group ends: the combination of a reduction (R173 to R185), the status of a spindle (R105 to R107, R134, R140 to R143),
and the suspend record, spill nodes and saved seal state of a stopped group (R135 to R137, R188, R189, R386). -/
namespace Sys2Proof.Machine

/-! ## Parts -/

/-- The place of a word of a lathe's scratchpad (R16). -/
def scratchPlace (l : Fin 16) (off : Nat) : Nat := 0o000400000000 + l.val * 0o1000000 + off

def Group.part (g : Group) (i : Nat) : Part := g.parts.getD i {}
def Group.setPart (g : Group) (i : Nat) (p : Part) : Group := { g with parts := setAt g.parts i p }

/-- Whether a group holds a reduction: its result is written by spindle 0 (R173). -/
def Group.hasRed (g : Group) : Bool := g.members.any (fun m => m.op.isRed) && g.vl ≠ 0

/-- Every element of the part's block is written, and for spindle 0 of a reduction the result (R134, R173). -/
def Group.blockDone (g : Group) (i : Nat) : Bool :=
  let p := g.part i
  decide (p.next ≥ p.last1) && (i ≠ 0 || !g.hasRed || p.written)

/-- The status a part ends with (R134, R191). -/
def Group.endCode (g : Group) (i : Nat) : Nat :=
  let p := g.part i
  if p.faulted then p.cause.toNat
  else if g.blockDone i then (if p.poisoned then stDONEP else stDONE) else p.cause.toNat

def isDone (code : Nat) : Bool := code = stDONE || code = stDONEP

/-- Codes that report an element: SIDX names its stream, and those of R106 its address. -/
def hasFva (code : Nat) : Bool := [stXLATE, stNOWNER, stRETIRED, stBUSERR, stLOCALITY, stSPACE, stPOISON].contains code
def hasSidx (code : Nat) : Bool :=
  !([stDONE, stDONEP, stSUSPENDED, stABORTED, stDEADLINE, stUNITFAIL].contains code)

/-! ## Stops (R102, R131 to R134) -/

/-- Whether a reader has asked for a remote quad of the next element and waits for it: the element is presented. -/
def waitsRemote (s : State) (k gi : Nat) : Bool :=
  s.wov.ops.any (fun o => match o.kind with
    | .stream k' g key => decide (k'.val = k) && decide (g = gi) && !key.write && decide (key.n = 0)
    | _ => false)

/-- Whether a write of the group in the spindle still waits for its remote target (R120). -/
def writesOut (s : State) (k gi : Nat) : Bool :=
  s.wov.ops.any (fun o => match o.kind with
    | .stream k' g key => decide (k'.val = k) && decide (g = gi) && key.write
    | _ => false)

/-- r_k of a stop request: the lowest multiple of q above every element presented (R132). (DEDUCED: log entry 22) -/
def stopAt (g : Group) (p : Part) (waits : Bool) : Nat :=
  let q := qOf (strsOf g.members)
  let seen := if waits then p.head + 1 else p.head
  max p.first (min p.last1 ((seen + q - 1) / q * q))

/-- A part told to stop with a status: it fixes r_k; ABORT decides over SUSP, and any other further request has no effect (R134). A group
that has not started stops at first(k) in every spindle, a resumed one too, with nothing done (R131). (DEDUCED: log entry 22) -/
def stopPart (s : State) (gi : Nat) (g : Group) (i : Nat) (code : Nat) : Part :=
  let p := g.part i
  if !g.started && p.first < p.last1 then
    { p with next := p.first, stop := some p.first, cause := BitVec.ofNat 6 code, drained := true, kflag := 0, pcnt := 0, poisoned := false, accs := [] }
  else if p.ended || g.blockDone i then p
  else match p.stop with
    | some r0 =>
      let r := stopAt g p (waitsRemote s (g.spindle i) gi)
      if hasSidx p.cause.toNat && r < r0 then
        -- the fault of a first pass lies ahead, at an element the part does not reach (R164, R557)
        { p with stop := some r, cause := BitVec.ofNat 6 code, sidx := 5, fva := 0, drained := decide (r ≤ p.head) }
      else if code = stABORTED && p.cause.toNat = stSUSPENDED then { p with cause := BitVec.ofNat 6 code }
      else p
    | none =>
      let r := stopAt g p (waitsRemote s (g.spindle i) gi)
      { p with stop := some r, cause := BitVec.ofNat 6 code, drained := decide (r ≤ p.head) }

/-- A part that ends at element `e` with a status, and drops what its readers have presented. -/
def Part.cutAt (p : Part) (e code sidx : Nat) (fva : Word) : Part :=
  { p with stop := some e, cause := BitVec.ofNat 6 code, sidx := BitVec.ofNat 3 sidx, fva := if hasFva code then fva else 0,
           drained := true, faulted := hasSidx code, ahead := [] }

/-- The other parts of a group told to stop as one of them is cut. -/
def cutPart (s : State) (gi : Nat) (g : Group) (i : Nat) (p : Part) : Group :=
  let g' := g.setPart i p
  { g' with parts := (List.range g'.parts.length).map (fun j => if j = i then p else stopPart s gi g' j stSUSPENDED) }

/-- Every part of a group told to stop. -/
def stopGroupParts (s : State) (gi : Nat) (g : Group) (code : Nat) : Group :=
  { g with parts := (List.range g.parts.length).map (fun i => stopPart s gi g i code) }

/-- The first group of a RUN job to fail under R102 is noted for the command (R426). (DEDUCED: log entry 23) -/
def noteVec (s : State) (l : Fin 16) (code : Nat) : State :=
  let note (j : Job) : Job := if j.left.getLsbD l.val && j.vec.isNone then { j with vec := some (BitVec.ofNat 6 code) } else j
  { s with hs := { s.hs with
      slots := s.hs.slots.map (fun (k, x) => if x.st = 3 then (k, { x with job := x.job.map note }) else (k, x))
      guests := s.hs.guests.map (fun g => { g with job := note g.job }) } }

/-- A fault at element `e` of a part: it stops there with the fault, every other spindle at its own boundary with SUSPENDED (R102). -/
def faultPart (s : State) (gi : Nat) (g : Group) (i e code sidx : Nat) (fva : Word) : State :=
  noteVec (s.setGroup gi (some (cutPart s gi g i ((g.part i).cutAt e code sidx fva)))) g.th.l code

/-! ## Combining a reduction (R173 to R185) -/

/-- The whole accumulator of a member over the span, with the flags of the joins. -/
def spanAcc (g : Group) (j : Nat) (m : Member) : Acc × Flags5 :=
  let t := (dEt m.da).getD .i36
  g.parts.foldl (fun (a, fl) p =>
    let (a, f) := Acc.join m.op t m.v.rm a (p.accs.getD j {}) p.first
    (a, fl ||| f)) ({}, 0)

/-- The last spindle of the span that has elements. -/
def Group.lastPart (g : Group) : Nat :=
  ((List.range g.parts.length).filter (fun i => (g.part i).first < (g.part i).last1)).getLastD 0

/-- The nodes at the end of the tree that the last spindle alone has formed: those that no node of another spindle precedes as a sibling. Their
combs are its own (R184). Those of a span with one working spindle are all spindle 0's. -/
def tailNodes (g : Group) (j : Nat) : List Node :=
  if g.lastPart = 0 then []
  else (((g.part g.lastPart).accs.getD j {}).nodes).dropWhile (fun x => x.lo / x.n % 2 = 1)

/-- The value of a reduction member over the span, with the flags of the combs that join different spindles (R176, R184). -/
def spanValue (g : Group) (j : Nat) (m : Member) : Option Elem × Nat × Flags5 :=
  let t := (dEt m.da).getD .i36
  let (a, f1) := spanAcc g j m
  if byNodes m.op t then
    let tail := tailNodes g j
    let (v, f2) := treeOnto t m.v.rm (treeValue t m.v.rm tail).1 (a.nodes.take (a.nodes.length - tail.length))
    (v, 0, f1 ||| f2)
  else (a.fold, a.index, f1)

/-- The result and the index of a reduction member, with the flags of spindle 0. -/
def redResult (g : Group) (j : Nat) (m : Member) : Elem × Elem × Flags5 :=
  match spanValue g j m with
  | (some e, i, fl) => (e, if e.poison then poisoned else { bits := BitVec.ofNat 72 i }, fl)
  | (none, _, fl) =>
    let (r, x) := emptyResult m.op ((dEt m.da).getD .i36)
    ({ bits := BitVec.ofNat 72 r }, { bits := BitVec.ofNat 72 x }, fl)

/-- The last spindle's part with the flags of the combs at the end of the tree, which it forms when its block is done (R184). -/
def tailFlags (g : Group) (i : Nat) (p : Part) : Part :=
  if i = 0 || i ≠ g.lastPart || p.next < p.last1 then p
  else (g.members.zipIdx).foldl (fun p (m, j) =>
    let t := (dEt m.da).getD .i36
    if m.op.isRed && byNodes m.op t then addFlags p j (treeValue t m.v.rm (tailNodes g j)).2 else p) p

/-- What spindle 0 writes when all is combined: each result as element 0 of its destination (R173). -/
def redOuts (ss : List Str) (g : Group) : List (Str × Nat × Elem) :=
  (g.members.zipIdx).flatMap (fun (m, j) =>
    if m.op.isRed then
      let (d, d2, _) := redResult g j m
      (ss.filter (fun x => x.j = j && x.role = .dst)).map (fun x => (x, 0, d)) ++
        (ss.filter (fun x => x.j = j && x.role = .dst2)).map (fun x => (x, 0, d2))
    else [])

def redFlags (g : Group) (p : Part) : Part :=
  (g.members.zipIdx).foldl (fun p (m, j) => if m.op.isRed then addFlags p j (redResult g j m).2.2 else p) p

/-- Sends the remote requests that are not outstanding already (R300, R462). The translation of each is made as it leaves, with its A and D
bits, and stands for the access from then on (R284, R292, R293). A request that a converter has no room for waits (R351). -/
def sendNeeds (s : State) (g : Group) (gi k : Nat) (ns : List Need) : State :=
  ns.foldl (fun s n =>
    let out := s.wov.ops.any (fun o => match o.kind with
      | .stream k' g' key => decide (k'.val = k) && decide (g' = gi) && decide (key = n.key)
      | _ => false)
    if out || !windowOpen s n.key.pa then s
    else
      let (s, x, _) := translate s g.ctx (.spindle k) (if n.key.write then .write else .read) n.va
      let key : RKey := match x with | .ok pa => { n.key with pa := pa / 4 * 4 } | _ => n.key
      match areaOf key.pa with
      | .array d off =>
        let i := k - g.spindle 0
        (sendRemote (intoConv s (convOf s key.pa)) (.stream (Fin.ofNat 128 k) gi key) d off key.write g.inst g.epoch n.data n.mask
          n.poison).modGroup gi (fun g => g.setPart i { g.part i with bound := (g.part i).bound ++ [(key, n.va)] })
      | _ => s) s

/-! ## The suspend record (R136, R137, R188, R189) -/

/-- Maximal aligned blocks of positions from `a` up to `b` (R189). -/
def dyadic : Nat → Nat → Nat → List (Nat × Nat)
  | 0, _, _ => []
  | fuel + 1, a, b =>
    if a ≥ b then []
    else
      let e := ((List.range 22).reverse.find? (fun e => a % 2 ^ e = 0 && a + 2 ^ e ≤ b)).getD 0
      (a, 2 ^ e) :: dyadic fuel (a + 2 ^ e) b

/-- The nodes that R189 saves for a part: those of the current segment over what the spindle has finished. -/
def nodesDue (p : Part) (segst : Nat) : List (Nat × Nat) := dyadic 64 (max p.first segst - segst) (p.next - segst)

/-- Writes a word of a lathe's scratchpad. -/
def scratchWrite (s : State) (l : Fin 16) (off : Nat) (w : Word) (po : Bool) : State := s.store (scratchPlace l off) w 0xF po

/-- The descriptor that the first member naming a register captured (R137). -/
def recordDesc (g : Group) (j : Nat) : Quad :=
  (((strsOf g.members).find? (fun x => x.reg = j)).map (fun x => x.q)).getD {}

/-- One entry of RSTATE (R188). (DESIGN CHOICE: log entry 66) -/
def rstate (p : Part) (j : Nat) (m : Member) (spill : Bool) : List (Nat × Word) :=
  let t := (dEt m.da).getD .i36
  let a := p.accs.getD j {}
  if !(m.op.isRed || m.op.isScan) || p.first ≥ p.last1 then []
  else if byNodes m.op t then
    let n := a.nodes.length
    let nabs : Word := (a.nodes.zipIdx).foldl (fun w (x, i) => if x.val.isNone then w ||| putB i true else w) 0
    [(0, put 34 2 2 ||| put 26 6 n ||| putB 25 (n ≠ 0 && !spill) ||| put 0 21 a.segst), (1, nabs)]
  else
    let v := a.fold.getD {}
    [(0, put 34 2 1 ||| putB 33 a.fold.isNone ||| putB 32 v.poison ||| put 0 21 a.segst),
     (2, dLo v.bits), (3, if t.wide then dHi v.bits else 0),
     (4, if m.op.family = .minx || m.op.family = .maxx then BitVec.ofNat 36 a.index else 0)]

/-- The status of the group: that of the spindle with the lowest r_k among those not done, and of several such the first (R137). (DESIGN CHOICE: log entry 63) -/
def groupCode (g : Group) : Nat :=
  let bad := (List.range g.parts.length).filter (fun i => !isDone (g.endCode i))
  match bad with
  | [] => stDONE
  | i :: r => g.endCode (r.foldl (fun a b => if (g.part b).next < (g.part a).next then b else a) i)

/-- The words of a record that are not zero, by offset; word 0 last. It has room for six members, of which NOPS may count more (R137). (DESIGN CHOICE: log
entries 63, 66) -/
def recordWords (g : Group) (spill : Bool) : List (Nat × Word) :=
  let ss := strsOf g.members
  [(1, put 27 9 g.epoch.toNat ||| put 21 6 (groupCode g) ||| put 16 5 g.num.toNat ||| put 13 3 g.th.t.val ||| putB 12 g.dmix)] ++
  ((g.members.take maxMembers).zipIdx).map (fun (m, j) => (2 + j, packV m.v)) ++
  (List.range 16).flatMap (fun j => (List.range 4).map (fun i => (16 + 4 * j + i, quadGet (recordDesc g j) i))) ++
  (g.parts.zipIdx).flatMap (fun (p, k) =>
    [(80 + 64 * k, put 30 6 (g.endCode k) ||| put 0 21 p.next), (81 + 64 * k, p.kflag.setWidth 36), (82 + 64 * k, put 0 21 p.pcnt)] ++
    ((g.members.take maxMembers).zipIdx).flatMap (fun (m, j) => (rstate p j m spill).map (fun (o, w) => (88 + 64 * k + 9 * j + o, w)))) ++
  [(0, put 33 3 1 ||| putB 32 true ||| put 28 4 g.members.length ||| put 25 3 g.sp0 ||| put 22 3 g.scnt ||| putB 21 (q144 ss) |||
       put 0 21 g.vl)]

/-- The place of node `m` of member `j` in span position `k` of a spill slot (R189). -/
def nodePlace (l : Fin 16) (area slot k j m : Nat) : Nat :=
  scratchPlace l (area + 3456 * (slot % 4) + 432 * k + 72 * j + 2 * m)

/-- The spill nodes of a group go to the issuing thread's spill area (R189). -/
def writeSpill (s : State) (g : Group) (off : Nat) : State :=
  (g.parts.zipIdx).foldl (fun s (p, k) =>
    (g.members.zipIdx).foldl (fun s (m, j) =>
      let t := (dEt m.da).getD .i36
      if byNodes m.op t && (m.op.isRed || m.op.isScan) && p.first < p.last1 then
        (((p.accs.getD j {}).nodes).zipIdx).foldl (fun s (x, i) =>
          let a := nodePlace g.th.l off g.num.toNat k j i
          let v := x.val.getD {}
          (s.store a (dLo v.bits) 0xF v.poison).store (a + 1) (if t.wide then dHi v.bits else 0) 0xF v.poison) s
      else s) s) s

/-- The suspend record is written where LTH_VSAVEt allows it, nodes first and VALID last (R136, R144, R189). -/
def writeRecord (s : State) (g : Group) : State :=
  let x := s.lathe g.th.l
  let v : SaveArea := tget {} x.vsave g.th.t.val
  let r : SaveArea := tget {} x.rsave g.th.t.val
  if !v.en || v.offset.toNat + 2560 > 262144 then s
  else
    let spill : Bool := r.en && decide (r.offset.toNat + 13824 ≤ 262144)
    let s := if spill then writeSpill s g r.offset.toNat else s
    let base := v.offset.toNat + 640 * (g.num.toNat % 4)
    let ws := recordWords g spill
    let s := (List.range 592).foldl (fun s i => if i = 0 then s else
      scratchWrite s g.th.l (base + i) (((ws.find? (fun w => w.1 = i)).map Prod.snd).getD 0) false) s
    scratchWrite s g.th.l base (((ws.find? (fun w => w.1 = 0)).map Prod.snd).getD 0) false

/-! ## Saved seal state (R386) -/

/-- Sealed destinations of a group. -/
def sealedDsts (g : Group) : List Str := (strsOf g.members).filter (fun x => x.isDst && dS x.q && dSpace x.q ≠ spChain)

/-- The sponge states and leaf-buffer words of a stopped group: one for each span position whose block is begun or waits, with elements left
(R386). -/
def Group.sealStates (g : Group) : Nat := (g.parts.filter (fun p => p.first < p.last1 && p.next < p.last1)).length

/-- What stopping does to the slot of a sealed destination: the state is saved while the pool has room, else the slot is BROKEN. States of another
epoch than the context's are discarded, and each counts (R385, R386). -/
def saveSeal (g : Group) (aborted : Bool) (s : State) (x : Str) : State :=
  let c := groupCtx s g.inst (tagCtx (dTag x.q))
  let k := tagSlot (dTag x.q)
  let o : OutSlot := tget {} (s.ctx c).outs k
  let was := ((o.stopped.filter (fun y => y.key = g.sealKey)).map SavedSeal.held).sum
  let out (s : State) (f : OutSlot → OutSlot) : State := s.modCtx c (fun y => { y with outs := tmod {} y.outs k f })
  if (s.ctx c).st = .closed then s
  else if aborted then out s (fun o => { o with broken := true })
  else if (s.ctx c).epoch ≠ g.epoch then
    { s with ts := { s.ts with stale := satAdd s.ts.stale g.sealStates } }
  else if s.ts.pool + g.sealStates > 64 + was then out s (fun o => { o with broken := true })
  else
    let s := out s (fun o => { o with
      stopped := o.stopped.filter (fun y => y.key ≠ g.sealKey) ++ [{ key := g.sealKey, rks := g.rks, held := g.sealStates }] })
    { s with ts := { s.ts with pool := s.ts.pool + g.sealStates - was } }

/-- The contexts that the sealed streams of a suspended group name record the suspension (R390). -/
def recordSuspension (g : Group) (s : State) : State :=
  ((strsOf g.members).filter (fun x => dS x.q && dSpace x.q ≠ spChain)).foldl (fun s x =>
    let c := groupCtx s g.inst (tagCtx (dTag x.q))
    if (s.ctx c).inst = g.inst then s.modCtx c (fun y => { y with resumed := true }) else s) s

/-! ## Ending -/

/-- Every spindle of the span has ended: the record, the nodes and the seal state of a stopped group are saved, and the group is gone. -/
def finishGroup (s : State) (gi : Nat) (g : Group) : State :=
  let codes := (List.range g.parts.length).map g.endCode
  let s :=
    if codes.all isDone then s
    else
      let aborted := codes.contains stABORTED
      let s := if aborted then s else writeRecord s g
      let s := if codes.contains stSUSPENDED then recordSuspension g s else s
      (sealedDsts g).foldl (saveSeal g aborted) s
  s.setGroup gi none

/-- The OR of the members' flags. -/
def foldFlags (f : BitVec 30) : BitVec 5 :=
  (List.range 6).foldl (fun a j => a ||| f.extractLsb' (5 * j) 5) 0

/-- A group ends in one spindle of its span: STR and SPN registers are set, SPNEND fires, and the queue moves on (R105 to R107, R120, R130,
R140, R141, R143). (DEDUCED and DESIGN CHOICE: log entries 26, 59) -/
def endPart (s : State) (gi : Nat) (i : Nat) : State :=
  match s.group gi with
  | none => s
  | some g =>
    let p := g.part i
    let k := g.spindle i
    let code := g.endCode i
    let p := tailFlags g i p
    let s := s.modSpin k (fun x => { x with
      valid := true, code := BitVec.ofNat 6 code, sidx := if hasSidx code then p.sidx else 5, seqno := BitVec.ofNat 5 g.num.toNat,
      elem := BitVec.ofNat 21 (if isDone code then g.vl else p.next), fva := if hasFva code then p.fva else 0,
      pcnt := BitVec.ofNat 21 p.pcnt, xflag := p.kflag, xacc := x.xacc ||| foldFlags p.kflag,
      drainTicks := if p.drained then BitVec.ofNat 18 (min p.drainTicks (2 ^ 18 - 1)) else x.drainTicks,
      gate := x.gate && (g.started || x.queue.head? ≠ some gi), queue := x.queue.filter (· ≠ gi) })
    let g := g.setPart i { p with ended := true, ahead := [] }
    let s := s.setGroup gi (some g)
    let s := if g.parts.all (fun p => p.ended) then finishGroup s gi g else s
    firePulse s (pselSpnEnd k)

/-- A group that has not started ends at once in every spindle (R131). (DEDUCED: log entry 26) -/
def endUnstarted (s : State) (gi : Nat) : State :=
  match s.group gi with
  | none => s
  | some g => (List.range g.parts.length).foldl (fun s i => endPart s gi i) s

/-- A stop request on a group (R131 to R134). -/
def stopGroup (s : State) (gi : Nat) (code : Nat) : State :=
  match s.group gi with
  | none => s
  | some g =>
    let s := s.setGroup gi (some (stopGroupParts s gi g code))
    if g.started then s else endUnstarted s gi

/-- The write of a reduction's result by spindle 0, once every other spindle has ended with its block complete (R173, R175). The answer
is whether spindle 0 may end now. (DEDUCED: log entry 25) -/
def combineSpan (s : State) (gi : Nat) (g : Group) : State × Bool :=
  let ss := strsOf g.members
  let k := g.spindle 0
  let p := redFlags g (g.part 0)
  let a := (redOuts ss g).foldl (prepOne ss g k p p.last1) { st := s }
  if a.stall then (s, false)
  else match firstEFail (a.fails.map Prod.snd) with
    | some f => (faultPart a.st gi g 0 p.last1 f.1.code f.1.sidx f.2, true)
    | none =>
      if !a.needs.isEmpty then (sendNeeds s g gi k a.needs, false)
      else
        let (s, g) := a.ws.foldl (performWrite k) (a.st, g)
        let n := (a.ws.map (fun w => w.counts)).sum
        (s.setGroup gi (some (g.setPart 0 { p with written := true, pcnt := p.pcnt + n, poisoned := p.poisoned || n ≠ 0, remote := [], bound := [] })), true)

/-- GROUP_END: the group at the head of a spindle's queue ends there, once its readers have stopped, every element below its stop is
written and every remote write is acknowledged (R120); spindle 0 of a reduction once every other spindle has ended. -/
def groupEndAt (s : State) (k : Nat) : State :=
  match (s.spin k).queue with
  | [] => s
  | gi :: _ => match s.group gi with
    | none => s
    | some g =>
      let i := k - g.spindle 0
      let p := g.part i
      if !g.started || p.ended || p.next < p.limit || writesOut s k gi then s
      else if i = 0 && g.hasRed && !p.written && p.stop.isNone then
        let others := (List.range g.parts.length).filter (· ≠ 0)
        if others.all (fun j => (g.part j).ended && isDone (g.endCode j)) then
          (match combineSpan s gi g with
           | (s, true) => endPart s gi i
           | (s, false) => s)
        else s
      else endPart s gi i

end Sys2Proof.Machine
end

