-- ==== Sys2Proof/Machine/GroupRun.lean ====
section
/-! DEFINITION. How a group starts and runs: GROUP_START with its checks (R100, R120), table loads (R168), the count phase of COMPRESS and
EXPAND (R163, R164) and the first pass of scans (R174), and the next element of a running group (R102, R103). -/
namespace Sys2Proof.Machine

/-! ## Refusal (R100, R105, R107, R108) -/

/-- A group refused at issue is recorded in spindle 0 of its span and leaves every queue; a group of several members counts as one refusal.
(DEDUCED and DESIGN CHOICE: log entries 23, 63) -/
def refuseGroup (s : State) (gi : Nat) (g : Group) (f : Fail) : State :=
  let k := g.spindle 0
  let s := g.spindles.foldl (fun s k => s.modSpin k (fun x => { x with
    gate := x.gate && x.queue.head? ≠ some gi, queue := x.queue.filter (· ≠ gi) })) s
  let s := s.modSpin k (fun x => { x with
    valid := true, code := BitVec.ofNat 6 f.code, sidx := BitVec.ofNat 3 f.sidx, seqno := BitVec.ofNat 5 g.num.toNat, elem := 0,
    fva := 0, pcnt := 0, refcnt := satAdd x.refcnt 1 })
  firePulse (s.setGroup gi none) (pselSpnEnd k)

/-! ## Tables (R168) -/

/-- The words of a table as one spindle reads them: the words, or the fault with the word's address. -/
def loadTable (g : Group) (k : Nat) (p : Part) (x : Str) : List Nat → State → List Word → State × Sum (List Word) (Option (Nat × Word))
  | [], s, acc => (s, .inl acc)
  | i :: r, s, acc =>
    let va := dBase x.q + BitVec.ofNat 36 i
    match streamRead s g k p x va 1 0xF 0xF with
    | (s, .ok _ ws) =>
      let w := ws.getD 0 (0, false)
      if w.2 then (s, .inr (some (stPOISON, va))) else loadTable g k p x r s (acc ++ [w.1])
    | (s, .fault c) => (s, .inr (some (c, va)))
    | (s, _) => (s, .inr none)

/-- Loads the tables of a part's members, with the faults that end the part where it starts. None while a request stalls. -/
def loadTables (ss : List Str) (g : Group) (k : Nat) (p : Part) (s : State) : Option (State × Part × List EFail) :=
  (g.members.zipIdx).foldl (fun acc (m, j) =>
    match acc with
    | none => none
    | some (s, p, bad) =>
      match (memberStrs j m).find? (fun x => x.role = .table) with
      | none => some (s, { p with tables := p.tables ++ [[]] }, bad)
      | some x =>
        match loadTable g k p x (List.range (tableWords m.op x.q)) s [] with
        | (s, .inl ws) => some (s, { p with tables := p.tables ++ [ws] }, bad)
        | (s, .inr (some (c, va))) => some (s, { p with tables := p.tables ++ [[]] }, bad ++ [(strFail ss c x, va)])
        | (_, .inr none) => none) (some (s, { p with tables := [] }, []))

/-! ## The first pass (R163, R164, R174) -/

/-- Whether a group has a first pass. -/
def Group.twoPass (g : Group) : Bool := g.members.any (fun m => m.op = .compress || m.op = .expand || m.op.isScan)

/-- Members whose results the mask of a scan member needs, through chain slots: the producers of a slot and theirs. -/
def chainNeeds (ss : List Str) : Nat → List Nat → List Nat
  | 0, slots => slots
  | fuel + 1, slots =>
    let more := (ss.filter (fun x => x.isDst && dSpace x.q = spChain && slots.contains (dSlot x.q))).flatMap (fun d =>
      (ss.filter (fun y => y.j = d.j && !y.isDst && y.role ≠ .table && dSpace y.q = spChain)).map (fun y => dSlot y.q))
    chainNeeds ss fuel ((slots ++ more).eraseDups)

/-- The streams that the first pass reads: m of COMPRESS and EXPAND; a, f and the mask of a scan, and what feeds that mask. -/
def firstPassUse (g : Group) (ss : List Str) (scans : Bool) (x : Str) : Bool :=
  let o := x.op g.members
  let selector : Bool := (o = .compress || o = .expand) && x.role = .maskOp
  let scan : Bool := o.isScan && !x.isDst
  let slots := chainNeeds ss 6 ((ss.filter (fun y => y.role = .mask && (y.op g.members).isScan && dSpace y.q = spChain)).map
    (fun y => dSlot y.q))
  let feeder : Bool := ss.any (fun y => y.j = x.j && y.isDst && dSpace y.q = spChain && slots.contains (dSlot y.q))
  selector || (scans && (scan || feeder))

/-- What the first pass of a block has come to, with the bank groups reached. -/
inductive Pass where
  | ok (s : State) (p : Part) (reach : List (Nat × Nat))
  | fault (s : State) (p : Part) (e : Nat) (f : EFail) (reach : List (Nat × Nat))
  | need (ns : List Need)
  | stall

/-- Evaluates the elements of a list on a scratch part, for the counts and summaries alone. -/
def passOver (g : Group) (ss : List Str) (k : Nat) (scans : Bool) : List Nat → State → Part → List (Nat × Nat) → Pass
  | [], s, p, rs => .ok s p rs
  | i :: r, s, p, rs =>
    match evalElement s g ss k p i (firstPassUse g ss scans) with
    | .ok s ev reach => passOver g ss k scans r s ev.p (rs ++ reach)
    | .fault s f _ => .fault s p i f rs
    | .need ns => .need ns
    | .stall => .stall

/-- The state carried from spindle to spindle: selected positions and running accumulators by member, and whether a fault has cut the
exchange. -/
structure Carry where
  ones : List Nat
  runs : List Acc
  cut : Bool := false

/-- A member's accumulator at the start of a block: it keeps the segment that the block begins in (R182). -/
def freshAcc (prefix_ : Acc) : Acc := { segst := prefix_.segst }

/-- One spindle's first pass: its part, what it hands on, the fault it met and the bank groups it reached; else the remote quads it waits
for. -/
def firstPassPart (g : Group) (ss : List Str) (k : Nat) (p : Part) (c : Carry) (s : State) :
    Option (State × Part × Carry × Option (Nat × EFail) × List (Nat × Nat)) × List Need :=
  let fresh : Bool := p.next = p.first
  let accs := (List.range g.members.length).map (fun j => if fresh then freshAcc (c.runs.getD j {}) else p.accs.getD j {})
  let runsAt (_ : Unit) : List Acc := (g.members.zipIdx).map (fun (m, j) =>
    (Acc.join m.op ((dEt m.da).getD .i36) m.v.rm (c.runs.getD j {}) (accs.getD j {}) p.first).1)
  if c.cut then
    (some (s, { p with accs := accs, ones := c.ones, runs := runsAt (), stop := some p.next, cause := BitVec.ofNat 6 stSUSPENDED,
                       drained := true }, c, none, []), [])
  else
    let below := (List.range (p.next - p.first)).map (· + p.first)
    let rest := (List.range (p.last1 - p.next)).map (· + p.next)
    let scratch : Part := { p with accs := accs, runs := runsAt (), ones := c.ones, start := p.first }
    let finish (s : State) (ones : List Nat) (q : Part) (cut : Bool) (f : Option (Nat × EFail)) (rs : List (Nat × Nat)) :=
      (some (s, { p with accs := accs, runs := runsAt (), ones := ones },
        { ones := q.ones, cut := cut, runs := (g.members.zipIdx).map (fun (m, j) =>
            (Acc.join m.op ((dEt m.da).getD .i36) m.v.rm (c.runs.getD j {}) (q.accs.getD j {}) p.first).1) }, f, rs), [])
    match passOver g ss k false below s scratch [] with
    | .stall => (none, [])
    | .need ns => (none, ns)
    | .fault s q e f rs => finish s q.ones q true (some (max e p.next, f)) rs
    | .ok s q rs =>
      let here := q.ones
      match passOver g ss k true rest s { q with accs := accs, runs := runsAt (), start := p.next } rs with
      | .stall => (none, [])
      | .need ns => (none, ns)
      | .fault s q e f rs => finish s here q true (some (e, f)) rs
      | .ok s q rs => finish s here q false none rs

/-! ## Starting (R120) -/

/-- A fault met before the first element of a part: the part, the element, the fault, and whether the first pass met it. -/
structure EarlyFault where
  i : Nat
  e : Nat
  f : EFail
  pass : Bool
deriving DecidableEq, Repr

/-- What starting the parts of a group has come to: state, parts, what the first pass carries on, and the faults met. -/
structure Starting where
  st : State
  parts : List Part := []
  carry : Carry
  faults : List EarlyFault := []
  needs : List (Nat × Need) := []
  stall : Bool := false
  reach : List (Nat × Nat) := []

/-- The streams a of members whose spill nodes read back poisoned and that stop on poison (R191). -/
def spillPoison (g : Group) (ss : List Str) (p : Part) : List Str :=
  if !g.resumed then []
  else ss.filter (fun x => x.f = .fa && !dP x.q && byNodes (x.op g.members) ((dEt x.q).getD .i36) &&
    (p.accs.getD x.j {}).nodes.any (fun n => (n.val.getD {}).poison))

/-- The first pass of one spindle of the span, if the group has one; its part joins the others. (DESIGN CHOICE: log entry 21) -/
def passOne (g : Group) (ss : List Str) (i : Nat) (p : Part) (a : Starting) : Starting :=
  if !g.twoPass then { a with parts := a.parts ++ [p] }
  else match firstPassPart g ss (g.spindle i) p a.carry a.st with
    | (none, []) => { a with stall := true, parts := a.parts ++ [p] }
    | (none, ns) => { a with needs := a.needs ++ ns.map (fun x => (g.spindle i, x)), stall := true, parts := a.parts ++ [p] }
    | (some (s, p, c, f, rs), _) =>
      { a with st := s, parts := a.parts ++ [p], carry := c, reach := a.reach ++ rs,
               faults := a.faults ++ (f.toList.map (fun (e, f) => ⟨i, e, f, true⟩)) }

/-- One spindle of the span starts: its tables, then its first pass. (DEDUCED: log entry 25) -/
def startOne (g : Group) (ss : List Str) (a : Starting) (i : Nat) : Starting :=
  let p := { g.part i with start := (g.part i).next }
  let k := g.spindle i
  let n := g.members.length
  let accs := if p.accs.isEmpty then List.replicate n ({} : Acc) else p.accs
  let p := { p with accs := accs, runs := List.replicate n ({} : Acc), ones := List.replicate n 0 }
  if a.stall then { a with parts := a.parts ++ [p] }
  else
    -- tables of a block that still has elements
    match (if p.next < p.last1 then loadTables ss g k p a.st else some (a.st, p, [])) with
    | none => { a with stall := true, parts := a.parts ++ [p] }
    | some (s, p, bad) =>
      let bad := bad ++ (spillPoison g ss p).map (fun x => (strFail ss stPOISON x, (0 : Word)))
      passOne g ss i p { a with st := s, faults := a.faults ++ bad.map (fun f => ⟨i, p.next, f, false⟩) }

/-- The streams of a group's sealed destinations take their places among those of their slots, with the lengths that `n` gives; a resumed group's
have theirs (R377). -/
def placeStreams (g : Group) (n : Str → ET → Nat) (s : State) : State :=
  if g.resumed then s
  else (sealedDsts g).foldl (fun s x =>
    let c := groupCtx s g.inst (tagCtx (dTag x.q))
    if (s.ctx c).st = .closed || (s.ctx c).inst ≠ g.inst then s
    else match dEt x.q with
      | none => s
      | some t => s.modCtx c (fun y => { y with outs := tmod {} y.outs (tagSlot (dTag x.q)) (fun (o : OutSlot) => o.setSpan g.sealKey (n x t)) })) s

/-- The words of a group's sealed stream (R377). -/
def Group.streamWords (g : Group) (x : Str) (t : ET) : Nat := sealedWordsOf t (x.len g.members g.vl)

/-- The first group that names an output slot fixes its TYPE, lathe and thread; a resumed group takes over the saved state (R383, R386). (DEDUCED: log entry 24) -/
def claimSlot (g : Group) (s : State) (x : Str) : State :=
  let c := groupCtx s g.inst (tagCtx (dTag x.q))
  let k := tagSlot (dTag x.q)
  let o : OutSlot := tget {} (s.ctx c).outs k
  let mine (y : SavedSeal) : Bool := g.resumed && decide (y.key = g.sealKey)
  let s := s.modCtx c (fun y => { y with
    resumed := y.resumed || g.resumed,
    outs := tput {} y.outs k { o with
      typ := match o.typ with | some t => some t | none => some (BitVec.ofNat 4 (dType x.q)),
      th := some g.th, stopped := o.stopped.filter (fun y => !mine y) } })
  { s with ts := { s.ts with pool := s.ts.pool - ((o.stopped.filter mine).map SavedSeal.held).sum } }

/-- The group in issue order whose sealed words a group's are: its own, and for a resumed group those of the group that stopped, whose saved state its
record's RK values match (R377, R386). (DEDUCED: log entry 24) -/
def sealKeyOf (s : State) (gi : Nat) (g : Group) : Nat :=
  match (sealedDsts g).head? with
  | none => gi
  | some x =>
    let c := s.ctx (groupCtx s g.inst (tagCtx (dTag x.q)))
    let o : OutSlot := tget {} c.outs (tagSlot (dTag x.q))
    let saved := if g.resumed then (o.stopped.find? (fun y => y.rks = g.rks)).map SavedSeal.key else none
    saved.getD (c.base + gi)

/-- The consumers that gate a group's start: each spindle whose input is enabled needs a trigger (R361). -/
def gatesOpen (s : State) (g : Group) : Bool := g.spindles.all (fun k => !(s.cin k).en || (s.spin k).gate)

/-- The fault that a part reports of those met before its first element: the lowest element, then the lowest code, then the first stream
(R103). -/
def firstEarly (fs : List EarlyFault) : Option EarlyFault :=
  match fs with
  | [] => none
  | f :: r => some (r.foldl (fun b x => if x.e < b.e || (x.e = b.e && x.f.1.before b.f.1) then x else b) f)

/-- A part meets a fault before its first element. One of the tables or of a spill node ends it where it starts (R168, R191). One of the first
pass lies ahead: the block completes up to it, every spindle above is cut already, and spindle 0 of a reduction has no result to wait for
(R164, R173, R174). -/
def earlyFault (s : State) (gi : Nat) (x : EarlyFault) : State :=
  match s.group gi with
  | none => s
  | some g =>
    if !x.pass then faultPart s gi g x.i x.e x.f.1.code x.f.1.sidx x.f.2
    else
      let p := g.part x.i
      let g := g.setPart x.i { p with
        stop := some x.e, drained := decide (x.e ≤ p.head), cause := BitVec.ofNat 6 x.f.1.code, sidx := BitVec.ofNat 3 x.f.1.sidx,
        fva := if hasFva x.f.1.code then x.f.2 else 0 }
      let p0 := g.part 0
      let g := if g.hasRed && p0.stop.isNone && !p0.written then
          g.setPart 0 { p0 with stop := some p0.last1, cause := BitVec.ofNat 6 stSUSPENDED }
        else g
      noteVec (s.setGroup gi (some g)) g.th.l x.f.1.code

/-- A group that passes its checks starts in every spindle of its span (R120). (DEDUCED and DESIGN CHOICE: log entries 21, 26) -/
def startGroup (s : State) (gi : Nat) (g : Group) : State :=
  let ss := strsOf g.members
  let n := g.members.length
  let a := (List.range g.parts.length).foldl (startOne g ss)
    { st := s, carry := { ones := List.replicate n 0, runs := List.replicate n {} } }
  if a.stall then a.needs.foldl (fun s (k, x) => sendNeeds s g gi k [x]) s
  else
    let s := (sealedDsts g).foldl (claimSlot g) (placeStreams g g.streamWords a.st)
    let s := g.spindles.foldl (fun s k => s.modSpin k (fun x => { x with
      gate := false, runSeq := BitVec.ofNat 5 g.num.toNat, runThr := BitVec.ofFin g.th.t })) s
    let g := { g with started := true, tb0 := s.tb, parts := a.parts.map (fun p => { p with remote := [], bound := [] }),
                      reached := g.reached ++ a.reach }
    let s := s.setGroup gi (some g)
    let s := (List.range g.parts.length).foldl (fun s i =>
      match firstEarly (a.faults.filter (fun f => f.i = i)) with
      | none => s
      | some f => earlyFault s gi f) s
    -- a spindle whose block is empty ends the group at once
    (List.range g.parts.length).foldl (fun s i =>
      match s.group gi with
      | none => s
      | some g => if (g.part i).first ≥ (g.part i).last1 then endPart s gi i else s) s

/-- GROUP_START at a spindle: the group at the head of its queue starts when it heads every queue of its span and its gates are open; it is
checked first, and refused where a check fails (R100, R120). -/
def groupStartAt (s : State) (k : Nat) : State :=
  match (s.spin k).queue with
  | [] => s
  | gi :: _ => match s.group gi with
    | none => s
    | some g =>
      if g.started || !(g.spindles.all (fun k => (s.spin k).queue.head? = some gi)) || !gatesOpen s g then s
      else match checkGroup s g with
        | (_, none) => s
        | (s, some (some f, _)) => refuseGroup (placeStreams g (fun _ _ => 0) s) gi g f
        | (s, some (none, ks)) => startGroup s gi { g with reached := ks }

/-! ## The elements (R102, R103, R121, R132) -/

/-- The readers present an element: it stands ahead of the writer. -/
def pushFront (s : State) (gi : Nat) (g : Group) (i : Nat) (f : Front) (reach : List (Nat × Nat)) : State :=
  let p := g.part i
  let p := { p with ahead := p.ahead ++ [f], remote := p.remote.filter (fun r => r.1.write || r.1.n ≠ 0), bound := p.bound.filter (fun r => r.1.write || r.1.n ≠ 0),
                    drained := p.drained || p.stop = some (p.head + 1) }
  s.setGroup gi (some { g.setPart i p with reached := g.reached ++ reach.filter (fun r => !g.reached.contains r) })

/-- The readers of a spindle take the next element; the answer is whether it is presented. While a request stalls or a remote quad is awaited
it is not. -/
def present (s : State) (gi : Nat) (g : Group) (i : Nat) : State × Bool :=
  let k := g.spindle i
  let ss := strsOf g.members
  let p := (g.part i).front
  match evalElement s g ss k p (g.part i).head (fun _ => true) with
  | .stall => (s, false)
  | .need ns => (sendNeeds s g gi k ns, false)
  | .fault s f _ => (pushFront s gi g i (frontOf p [] [] (some f)) [], true)
  | .ok s ev reach => (pushFront s gi g i (frontOf ev.p ev.slots ev.outs none) reach, true)

/-- The first `n` of the presented elements are written: the part goes on past them; every 4,096 elements SPNSTRIP fires (R358). -/
def advance (s : State) (gi : Nat) (g : Group) (i n : Nat) (ws : List Write) (reach : List (Nat × Nat)) : State :=
  let k := g.spindle i
  let counts := (ws.map (fun w => w.counts)).sum
  let (s, g) := ws.foldl (performWrite k) (s, g)
  let p := g.part i
  let next := p.next + n
  let p := { p.take (p.ahead.getD (n - 1) {}) with
    next := next, ahead := p.ahead.drop n, remote := p.remote.filter (fun r => !r.1.write && r.1.n = 0),
    bound := p.bound.filter (fun r => !r.1.write && r.1.n = 0), pcnt := p.pcnt + counts }
  let p := { p with poisoned := p.poisoned || counts ≠ 0 }
  let s := s.setGroup gi (some { g.setPart i p with reached := g.reached ++ reach.filter (fun r => !g.reached.contains r) })
  if (next - p.first) / 4096 ≠ (next - n - p.first) / 4096 then firePulse s (pselSpnStrip k) else s

/-- The writer of a spindle takes presented elements: all their writes are judged, then performed together, or the first of them faults. -/
def retire (s : State) (gi : Nat) (g : Group) (i : Nat) (fs : List Front) : State :=
  let k := g.spindle i
  let ss := strsOf g.members
  let p := g.part i
  let fault (s : State) (f : EFail) : State := faultPart s gi g i p.next f.1.code f.1.sidx f.2
  match fs.head?.bind Front.fault with
  | some f => fault s f
  | none =>
    match formWrites s ss g k p p.next (fs.length + 1) fs with
    | .stall => s
    | .need ns olds =>
      let g := g.keepOlds olds
      sendNeeds (s.setGroup gi (some g)) g gi k ns
    | .fault s f => fault s f
    | .ok s ws n reach => advance s gi g i n ws reach

/-- One action of the group that runs in a spindle: its readers present the next element, or its writer takes presented ones. Where both
may go, which goes is free. (DESIGN CHOICE: log entries 8, 21) -/
def elementStep (s : State) (k : Nat) : State :=
  match (s.spin k).queue with
  | [] => s
  | gi :: _ => match s.group gi with
    | none => s
    | some g =>
      let i := k - g.spindle 0
      let p := g.part i
      let ss := strsOf g.members
      if !g.started || p.ended || p.next ≥ p.limit then s
      else match batchOf ss p with
        | none => if readersGo ss p then (present s gi g i).1 else s
        | some fs =>
          if !readersGo ss p then retire s gi g i fs
          else
            let (n, s) := s.takeFree
            if Config.freeBool n then
              (match present s gi g i with
               | (s, true) => s
               | (s, false) => retire s gi g i fs)
            else retire s gi g i fs

end Sys2Proof.Machine
end

