-- ==== Sys2Proof/Machine/Integer.lean ====
section
/-! DEFINITION. Integer register and immediate operations (R199 to R201). -/
namespace Sys2Proof.Machine

/-- A register operation of major opcode 0o001: G[RD] := f G[RA] G[RB], MOD and FORM 0; RB 0 where `unary` (R199). -/
def opAlu (unary : Bool) (fn : Word → Word → Word) (th : Th) (func : BitVec 7) (f : TFld) (s : State) : State × Res :=
  if f.mod ≠ 0 || f.form ≠ 0 || (unary && f.rb ≠ 0) then (s, illegal (packT 1 func f))
  else opThread th (fun t => t.wg f.rd (fn (t.rg f.ra) (t.rg f.rb))) s

/-- An immediate operation (R200). -/
def opImm (fn : Word → BitVec 18 → Word) (th : Th) (f : IFld) (s : State) : State × Res :=
  opThread th (fun t => t.wg f.rd (fn (t.rg f.ra) f.imm)) s

/-- A truth value as a word. -/
def ofTruth (b : Bool) : Word := if b then 1 else 0

/-- Shifts of R153: a count of the width or more gives zero, or copies of the sign. -/
def shlW (a b : Word) : Word := if b.toNat < 36 then a <<< b.toNat else 0
def shrW (a b : Word) : Word := if b.toNat < 36 then a >>> b.toNat else 0
def shraW (a b : Word) : Word := a.sshiftRight (min b.toNat 36)
/-- ROL: rotated left by b mod 36 (R199). -/
def rolW (a b : Word) : Word := a.rotateLeft (b.toNat % 36)
/-- CLZ: leading zero bits, 0 to 36 (R199). -/
def clzW (a : Word) : Word := BitVec.ofNat 36 (36 - bitLen a.toNat)
/-- POPC: one bits (R199). -/
def popW (a : Word) : Word := BitVec.ofNat 36 ((List.range 36).filter (fun i => a.getLsbD i)).length
def minS (a b : Word) : Word := if b.slt a then b else a
def maxS (a b : Word) : Word := if a.slt b then b else a
def minU (a b : Word) : Word := if b.ult a then b else a
def maxU (a b : Word) : Word := if a.ult b then b else a

def opAdd := opAlu false (fun a b => a + b)
def opSub := opAlu false (fun a b => a - b)
def opAnd := opAlu false (fun a b => a &&& b)
def opOr := opAlu false (fun a b => a ||| b)
def opXor := opAlu false (fun a b => a ^^^ b)
def opAndn := opAlu false (fun a b => a &&& ~~~ b)
def opShl := opAlu false shlW
def opShr := opAlu false shrW
def opShra := opAlu false shraW
def opRol := opAlu false rolW
def opSlt := opAlu false (fun a b => ofTruth (a.slt b))
def opSltu := opAlu false (fun a b => ofTruth (a.ult b))
def opSeq := opAlu false (fun a b => ofTruth (a = b))
def opMin := opAlu false minS
def opMax := opAlu false maxS
def opMinu := opAlu false minU
def opMaxu := opAlu false maxU
def opClz := opAlu true (fun a _ => clzW a)
def opPopc := opAlu true (fun a _ => popW a)

/-! ## Immediate operations (R200, R201) -/

/-- SHIFTI: 17..16 kind, 15..6 zero, 5..0 count; kind 3, a nonzero reserved field or a count above 35 is ILLEGAL (R200, R201). -/
def opShifti (th : Th) (f : IFld) (s : State) : State × Res :=
  let n := (f.imm.extractLsb' 0 6).toNat
  let kind := (f.imm.extractLsb' 16 2).toNat
  if kind = 3 || f.imm.extractLsb' 6 10 ≠ 0 || n > 35 then (s, illegal (packI 0o016 f))
  else opThread th (fun t =>
    let a := t.rg f.ra
    t.wg f.rd (match kind with | 0 => a <<< n | 1 => a >>> n | _ => a.sshiftRight n)) s

/-- LUI: IMM × 2^18, RA 0 (R200). -/
def opLui (th : Th) (f : IFld) (s : State) : State × Res :=
  if f.ra ≠ 0 then (s, illegal (packI 0o017 f)) else opThread th (fun t => t.wg f.rd (zx18 f.imm <<< 18)) s

def opAddi := opImm (fun a i => a + sx18 i)
def opAndi := opImm (fun a i => a &&& zx18 i)
def opOri := opImm (fun a i => a ||| zx18 i)
def opXori := opImm (fun a i => a ^^^ zx18 i)
def opSlti := opImm (fun a i => ofTruth (a.slt (sx18 i)))
def opSltiu := opImm (fun a i => ofTruth (a.ult (sx18 i)))

end Sys2Proof.Machine
end

