-- ==== Sys2Proof/Machine/SpecialRegs.lean ====
section
/-! DEFINITION. The special registers of a thread (R217, R218, R249, R261, R264, R271 to R274, R295 to R299): one read and one write,
used by MFSR, MTSR and the debug port. -/
namespace Sys2Proof.Machine

/-- The least level that may reach a special register (R217). -/
def srLevel (n : Nat) : Level :=
  if n < 0o100 then .user else if n < 0o140 then .supervisor else if n < 0o200 then .machine else .supervisor

/-- Whether a special-register number is assigned (R217, R271, R295). -/
def srAssigned (n : Nat) : Bool :=
  decide (n ≤ 0o011) || (decide (0o040 ≤ n) && decide (n ≤ 0o045)) || (decide (0o100 ≤ n) && decide (n ≤ 0o112)) ||
    (decide (0o140 ≤ n) && decide (n ≤ 0o152)) || (decide (0o200 ≤ n) && decide (n ≤ 0o203))

/-- Whether an assigned register may be written (R217). -/
def srWritable (n : Nat) : Bool :=
  n = 0o002 || n = 0o003 || n = 0o004 || decide (n ≥ 0o040)

/-- FCSR as read (R249). -/
def Thread.fcsr (t : Thread) : Word :=
  putB 20 (!t.fpOut.isEmpty) ||| put 15 5 t.ften.toNat ||| put 10 5 t.fpend.toNat ||| put 0 5 t.fflags.toNat

/-- UST as read (R272). -/
def Thread.ust (t : Thread) : Word := putB 35 t.inup ||| putB 34 t.uie ||| put 0 2 (lvNum t.level).toNat

/-- SST or MST as read (R273). -/
def LevelRegs.st (r : LevelRegs) : Word := putB 35 r.busy ||| putB 34 r.ie
/-- SXST or MXST as read (R273). -/
def LevelRegs.xst (r : LevelRegs) : Word := putB 2 r.pie ||| put 0 2 r.plv.toNat
/-- A cause register as read (R264). -/
def CauseReg.word (c : CauseReg) : Word :=
  putB 35 c.int ||| putB 34 c.esc ||| put 32 2 c.fromLevel.toNat ||| put 0 6 c.code.toNat
/-- A cause register written (R264): ESC belongs to MXCAUSE alone. -/
def causeOf (esc : Bool) (w : Word) : CauseReg :=
  { int := w.getLsbD 35, esc := esc && w.getLsbD 34, fromLevel := w.extractLsb' 32 2, code := w.extractLsb' 0 6 }
/-- TFSR as read (R299). -/
def Tfsr.word (f : Tfsr) : Word :=
  putB 35 f.valid ||| put 31 4 f.reason.toNat ||| put 28 3 f.level.toNat ||| put 26 2 f.acc.toNat

/-- TID (R218). -/
def tidWord (s : State) (th : Th) : Word := put 7 6 s.devId ||| put 3 4 th.l.val ||| put 0 3 th.t.val

/-- What a thread alone holds of a special register. -/
def Thread.srPlain (t : Thread) (n : Nat) : Word :=
  match n with
  | 0o000 => t.vl
  | 0o001 => t.svl
  | 0o002 => t.ph
  | 0o003 => t.pl
  | 0o004 => t.fcsr
  | 0o010 => dLo t.pkr
  | 0o011 => dHi t.pkr
  | 0o040 => t.ust
  | 0o041 => t.uentry
  | 0o042 => t.uep.setWidth 36
  | 0o043 => t.uee.setWidth 36
  | 0o044 => t.usplo
  | 0o045 => t.usphi
  | 0o100 => t.s.st
  | 0o101 => t.s.xpc
  | 0o102 => t.s.xst
  | 0o103 => t.s.cause.word
  | 0o104 => t.s.info
  | 0o105 => t.cause2.word
  | 0o106 => t.s.entry
  | 0o107 => t.s.ip.setWidth 36
  | 0o110 => t.s.ien.setWidth 36
  | 0o111 => t.s.scr0
  | 0o112 => t.s.scr1
  | 0o140 => t.m.st
  | 0o141 => t.m.xpc
  | 0o142 => t.m.xst
  | 0o143 => t.m.cause.word
  | 0o144 => t.m.info
  | 0o145 => t.m.entry
  | 0o146 => t.m.ip.setWidth 36
  | 0o147 => t.m.ien.setWidth 36
  | 0o150 => t.m.scr0
  | 0o151 => t.m.scr1
  | 0o152 => putB 35 t.mwdEn ||| put 0 30 t.mwdCount.toNat
  | 0o200 => putB 35 t.tctlEn ||| put 0 2 t.gran.toNat
  | 0o201 => t.root.setWidth 36
  | 0o202 => t.asid.setWidth 36
  | 0o203 => t.tfsr.word
  | _ => 0

/-- The high word of the timebase (R218). -/
def tbHigh (s : State) : Word := dHi s.tb
def tbLow (s : State) : Word := dLo s.tb

/-- A read of an assigned special register. Due products are in PH:PL first (R203); TBL latches and TBH consumes the latch (R218). -/
def srRead (s : State) (th : Th) (n : Nat) : State × Word :=
  let s := s.modThr th Thread.landDue
  let t := s.thr th
  match n with
  | 0o005 => (s, tidWord s th)
  | 0o006 => (s.setThr th { t with tbh := some (tbHigh s) }, tbLow s)
  | 0o007 =>
    match t.tbh with
    | some w => (s.setThr th { t with tbh := none }, w)
    | none => (s, tbHigh s)
  | _ => (s, t.srPlain n)

/-- A write of XST: PLV is refused for 3, above the writer or above the register's level (R261). -/
def LevelRegs.writeXst (r : LevelRegs) (top writer : Nat) (w : Word) : LevelRegs :=
  let p := w.extractLsb' 0 2
  { r with pie := w.getLsbD 2, plv := if p.toNat ≤ 2 && p.toNat ≤ writer && p.toNat ≤ top then p else r.plv }

/-- What a write of a special register does to its thread; `writer` is the writer's level as a number (R4, R5, R6, R204). -/
def Thread.srWrite (t : Thread) (writer n : Nat) (w : Word) : Thread :=
  let st (r : LevelRegs) : LevelRegs := { r with busy := w.getLsbD 35, ie := w.getLsbD 34 }
  let lines : BitVec 16 := w.extractLsb' 0 16
  match n with
  | 0o002 => { t.landDue with ph := w }
  | 0o003 => { t.landDue with pl := w }
  | 0o004 => { t with ften := w.extractLsb' 15 5, fpend := w.extractLsb' 10 5, fflags := w.extractLsb' 0 5 }
  | 0o040 => { t with uie := w.getLsbD 34 }
  | 0o041 => { t with uentry := w }
  | 0o042 => { t with uep := t.uep &&& ~~~ lines }
  | 0o043 => { t with uee := lines }
  | 0o044 => { t with usplo := w }
  | 0o045 => { t with usphi := w }
  | 0o100 => { t with s := st t.s }
  | 0o101 => { t with s := { t.s with xpc := w } }
  | 0o102 => { t with s := t.s.writeXst 1 writer w }
  | 0o103 => { t with s := { t.s with cause := causeOf false w } }
  | 0o104 => { t with s := { t.s with info := w } }
  | 0o105 => { t with cause2 := causeOf false w }
  | 0o106 => { t with s := { t.s with entry := w } }
  | 0o107 => { t with s := { t.s with ip := t.s.ip &&& ~~~ lines } }
  | 0o110 => { t with s := { t.s with ien := lines } }
  | 0o111 => { t with s := { t.s with scr0 := w } }
  | 0o112 => { t with s := { t.s with scr1 := w } }
  | 0o140 => { t with m := st t.m }
  | 0o141 => { t with m := { t.m with xpc := w } }
  | 0o142 => { t with m := t.m.writeXst 2 writer w }
  | 0o143 => { t with m := { t.m with cause := causeOf true w } }
  | 0o144 => { t with m := { t.m with info := w } }
  | 0o145 => { t with m := { t.m with entry := w } }
  | 0o146 => { t with m := { t.m with ip := t.m.ip &&& ~~~ lines } }
  | 0o147 => { t with m := { t.m with ien := lines } }
  | 0o150 => { t with m := { t.m with scr0 := w } }
  | 0o151 => { t with m := { t.m with scr1 := w } }
  | 0o152 => { t with mwdAsk := some w }
  | 0o200 => { t with tctlEn := w.getLsbD 35, gran := if w.extractLsb' 0 2 = 3 then t.gran else w.extractLsb' 0 2 }
  | 0o201 => { t with root := w.extractLsb' 0 27 }
  | 0o202 => { t with asid := w.extractLsb' 0 8 }
  | 0o203 => { t with tfsr := { t.tfsr with valid := t.tfsr.valid && !w.getLsbD 35 } }
  | _ => t

/-- A write of an assigned, writable special register by its own thread. -/
def srWrite (s : State) (th : Th) (n : Nat) (w : Word) : State :=
  s.modThr th (fun t => t.srWrite (levelRank t.level) n w)

end Sys2Proof.Machine
end

