-- ==== Sys2Proof/Machine/Loads.lean ====
section
/-! DEFINITION. Loads from issue to completion (R207 to R209, R221, R233), for every area but the register region. -/
namespace Sys2Proof.Machine

/-- The nonets of each word that a load uses (R317). -/
def LoadKind.mask : LoadKind → BitVec 4
  | .ln _ j => BitVec.ofNat 4 (2 ^ j.toNat)
  | _ => 0xF

/-- A quad of descriptor data or of a frame: control-path data, whose poison is a bus error (R209, R270, R318). -/
def LoadKind.control : LoadKind → Bool
  | .ldd _ => true
  | .frame => true
  | .fetch => true
  | _ => false

/-- Whether a load reads a whole quad, which the register region cannot serve (R209). -/
def LoadKind.quad (k : LoadKind) : Bool := k.count = 4

/-- The loaded words reach their destination (R207, R270); poison is judged first (R197). -/
def landLoad (s : State) (th : Th) (k : LoadKind) (va : Word) (dead : List Nat) (ws : List (Word × Bool)) : State × Res :=
  let w (i : Nat) : Word := (ws.getD i (0, false)).1
  if ws.any Prod.snd then (s, .exc { cause := if k.control then .buserr else .poison, info := va })
  else
    match k with
    | .frame =>
      (s.modThr th (fun t => { t with inup := false, uie := (w 1).getLsbD 34 }.wg 30 (t.rg 30 + 4)), .jump (w 0))
    | _ => ((dataCompare s th false va (ws.map Prod.fst)).modThr th (landReg k dead ws), .seq)

/-- The register of a load may be read some slots after the load's own, or under strict rotation some turns (R221, R235). -/
def loadLat (s : State) (th : Th) (k : LoadKind) (slots turns : Nat) : State :=
  let x := s.lathe th.l
  k.writes.foldl (fun s r => s.modThr th (fun t => t.usable r (x.slot + if x.detact then 8 * turns else slots))) s

/-- The latency of a load that its area serves at once (R235). -/
def areaLat (s : State) (th : Th) (k : LoadKind) (pa : Nat) : State :=
  match areaOf pa with
  | .hsrom => loadLat s th k 12 2
  | _ => loadLat s th k 6 1

/-- An outstanding access of a thread, with the remote operation that serves it. -/
def startAccess (s : State) (th : Th) (k : LoadKind) (va : Word) (pa : Nat) (tag : Option Nat) : State :=
  s.modThr th (fun t => t.addLoad { kind := k, va := va, pa := pa, tag := tag })

/-- A load whose latency is not fixed becomes outstanding, and its thread goes on with what does not depend on it (R219, R221); the frame
of ERET holds it. Requests to other devices and to the host leave. (DEDUCED: log entry 12) -/
def startLoad (s : State) (th : Th) (k : LoadKind) (va : Word) (pa : Nat) : State × Res :=
  let pend (s : State) (tag : Option Nat) : State × Res := (startAccess s th k va pa tag, if k.holds then .hold else .seq)
  match areaOf pa with
  | .array d off =>
    if d.toNat = s.devId then pend s none
    else if !devicePresent s d.toNat then (s, .exc (busExc va))
    else if !windowOpen s pa then (s, .wait)
    else pend (sendRemote (intoConv s (convOf s pa)) (.load th) d (off / 4 * 4) false (latheInst s th.l) 0 {} 0) (some s.wov.nextTag)
  | .host off =>
    if !hostReadable s off then (s, .exc (busExc va))
    else if !windowOpen s pa then (s, .wait)
    else pend (hostReadReq (intoConv s (convOf s pa)) off k.count) none
  | _ => pend s none

/-- A load at a virtual address, from its translation on (R207). A scratchpad or ROM load, and one that the data cache serves,
completes at once; any other waits. -/
def loadAt (s : State) (th : Th) (k : LoadKind) (va : Word) : State × Res :=
  match coreTranslate s th .read va with
  | (s, .exc e) => (s, .exc e)
  | (s, .stall) => (s, .wait)
  | (s, .ok pa) =>
    if !hasPath s (.core th) pa then (noPath s (.core th) false pa, .exc (busExc va))
    else
      match areaOf pa with
      | .regs _ => if k.quad then (s, .exc (busExc va)) else startLoad s th k va pa
      | .array _ _ => startLoad s th k va pa
      | .host _ => startLoad s th k va pa
      | _ =>
        match tryCache s th.l false pa k.count k.mask with
        | (s, some ws) => landLoad (loadLat s th k 3 1) th k va [] ws
        | (s, none) =>
          if timedArea th.l pa then
            match memWords s th false k.control pa k.count k.mask with
            | (s, .ok ws) => landLoad (areaLat s th k pa) th k va [] ws
            | (s, .bus) => (s, .exc (busExc va))
            | (s, .stall) => (s, .wait)
          else startLoad s th k va pa

/-- The words a response brings, judged as a bus error where it brings too few (R444, R464). -/
def respWords (k : LoadKind) (pa : Nat) (r : LoadResp) : Option (List (Word × Bool)) :=
  match r with
  | .error => none
  | .timeout => none
  | .ecrc => none
  | .words ws =>
    match areaOf pa with
    | .array _ _ => if ws.length = 4 then some ((ws.drop (pa % 4)).take k.count) else none
    | _ => if ws.length = k.count then some ws else none

/-- The access of an outstanding load or fetch outside the register region: its words, a bus error, or still outstanding (R221, R464). (DESIGN CHOICE: log entry 8) -/
def loadAccess (s : State) (th : Th) (p : PendLoad) (resp : LoadResp) : State × Rd :=
  if p.resp = some .error then (s, .bus)
  else match areaOf p.pa with
  | .array d off =>
    if d.toNat = s.devId then
      readMem s (reqWovas (latheInst s th.l) none) p.kind.control off.toNat p.kind.count p.kind.mask p.kind.mask
    else
      match p.resp with
      | none => (s, .stall)
      | some r => match respWords p.kind p.pa r with
        | some ws => (s, .ok ws)
        | none => (s, .bus)
  | .host _ => (match resp with
    | .ecrc => (s, .stall)
    | _ => match respWords p.kind p.pa resp with
      | some ws => (s, .ok ws)
      | none => (if resp = .timeout then countCto s else s, .bus))
  | _ => memWords s th false p.kind.control p.pa p.kind.count p.kind.mask

end Sys2Proof.Machine
end

