-- ==== Sys2Proof/Machine/System.lean ====
section
/-! DEFINITION. System instructions and events of a thread that need no other unit: ERET, WAIT, fences as they issue, protection keys,
vector lengths, TLB invalidation, special registers, interrupts and upcalls (R216, R217, R243, R258 to R270, R289, R304). -/
namespace Sys2Proof.Machine

/-- An instruction of major opcode 0o060: reserved fields first, then the level (R196, R197, R216). -/
def opSys (lvl : Level) (legal : TFld → Bool) (body : Th → TFld → State → State × Res) (th : Th) (func : BitVec 7) (f : TFld)
    (s : State) : State × Res :=
  if !legal f then (s, illegal (packT 0o060 func f))
  else if levelRank (s.thr th).level < levelRank lvl then (s, privRes (packT 0o060 func f))
  else body th f s

/-- No field is used (R216). -/
def noFields (f : TFld) : Bool := f = {}

/-! ## ERET, WAIT -/

/-- ERET (R260, R270). At user level it reads the frame at G30 as a quad. -/
def opEret (th : Th) (func : BitVec 7) (f : TFld) (s : State) : State × Res :=
  if !noFields f then (s, illegal (packT 0o060 func f))
  else
    let t := s.thr th
    match t.level with
    | .machine => (twoTurns (s.setThr th (t.eretLevel t.m true)) th (s.lathe th.l).slot, .hold)
    | .supervisor => (twoTurns (s.setThr th (t.eretLevel t.s false)) th (s.lathe th.l).slot, .hold)
    | .user =>
      if !t.inup then (s, illegal (packT 0o060 func f))
      else if (t.rg 30).toNat % 4 ≠ 0 then (s, .exc { cause := .align, info := t.rg 30 })
      else loadAt s th .frame (t.rg 30)

/-- WAIT: the thread issues nothing more (R216). -/
def opWait := opSys .user noFields (fun th _ s => (s.modThr th (fun t => { t with waiting := true }), .hold))

/-- Whether an interrupt or event is pending for a thread: a pending bit is set (R216, R265). -/
def Thread.anyPending (t : Thread) : Bool := t.s.ip ≠ 0 || t.m.ip ≠ 0 || t.uep ≠ 0

/-- A thread in WAIT for which an interrupt or event is pending completes the WAIT (R216); a halted one only after it resumes (R533). (DEDUCED: log entry 19) -/
def waitWake (s : State) (th : Th) : State :=
  let t := s.thr th
  if t.waiting && t.anyPending && !t.halted then s.setThr th ({ t with waiting := false }.goto (t.pc + 1)) else s
def execWaitWake (th : Th) (s : State) : Host.Outcome State Fault Refusal := .next (waitWake s th)

/-! ## Fences as they issue (R253, R290, R304) -/

def holdAs (h : Hold) (s : State) (th : Th) : State × Res := (s.modThr th (fun t => { t with hold := h }), .hold)

/-- The groups of a thread that have not ended (R118, R304). -/
def groupsOf (s : State) (th : Th) : List Nat :=
  s.groups.filterMap (fun (k, g) => match g with
    | some g => if g.th = th then some k else none
    | none => none)

def opFbar := opSys .user noFields (fun th _ s => holdAs .fbar s th)
def opVfence := opSys .user noFields (fun th _ s => holdAs (.vfence (groupsOf s th ++ (s.thr th).suspended)) s th)
/-- Whether an outstanding access of a thread is one that a fence waits for: a load or a store (R304, R307). -/
def Thread.fenced (t : Thread) (loads stores : Bool) : Bool := t.loads.any (fun p => if p.kind.isStore then stores else loads)

/-- What FENCE.R, FENCE.W and FENCE.RW do once the accesses that they wait for are performed: the caches are invalidated, and after FENCE.RW the
next instruction is fetched anew (R228, R304). -/
def memFenceEnd (s : State) (l : Fin 16) (loads code : Bool) : State × Res :=
  let s := if loads then dropCache s l false else s
  if code then (dropCache s l true, .refetch) else (s, .seq)

/-- FENCE.R, FENCE.W and FENCE.RW: the thread is held while an access that they wait for is outstanding (R304). -/
def opMemFence (loads stores code : Bool) := opSys .user noFields (fun th _ s =>
  if (s.thr th).fenced loads stores then holdAs (.mem loads stores code) s th else memFenceEnd s th.l loads code)
def opFenceR := opMemFence true false false
def opFenceW := opMemFence false true false
def opFenceRW := opMemFence true true true

/-- Remote stream operations in flight from a lathe (R290). -/
def streamTags (s : State) (l : Fin 16) : List Nat :=
  s.wov.ops.filterMap (fun o => match o.kind with
    | .stream k _ _ => if k.val / 8 = l.val then some o.tag else none
    | _ => none)

/-- The accesses of a thread that are outstanding, as TLBSYNC waits for them (R290). -/
def Thread.accNums (t : Thread) : List Nat := (t.loads ++ t.fetchPend.toList).map (fun p => p.num)

/-- The outstanding core accesses of a lathe, by thread and number (R290). -/
def coreAccs (s : State) (l : Fin 16) : List (Nat × Nat) :=
  (threadsOf l).flatMap (fun th => (s.thr th).accNums.map (fun n => (th.t.val, n)))

/-- Whether one of those accesses is still outstanding. -/
def accLeft (s : State) (l : Fin 16) (x : Nat × Nat) : Bool := (s.thr ⟨l, Fin.ofNat 8 x.1⟩).accNums.contains x.2

/-- For each group that runs in the spindles of a lathe, the spindle and how far its readers have come: elements presented, and one whose remote
requests have left (R290, R292). -/
def streamElems (s : State) (l : Fin 16) : List (Nat × Nat × Nat) :=
  (List.range 8).filterMap (fun i =>
    let k := 8 * l.val + i
    match (s.spin k).queue.head? with
    | none => none
    | some gi => match s.group gi with
      | none => none
      | some g =>
        let p := g.parts.getD (k - (8 * g.th.l.val + g.sp0)) {}
        if g.started && !p.ended then some (k, gi, p.next + p.ahead.length + (if p.bound.isEmpty then 0 else 1)) else none)

/-- Whether such a group still runs there and has not written the elements up to that one. -/
def elemsLeft (s : State) (x : Nat × Nat × Nat) : Bool :=
  match s.group x.2.1 with
  | none => false
  | some g =>
    let p := g.parts.getD (x.1 - (8 * g.th.l.val + g.sp0)) {}
    !p.ended && decide (p.next < min x.2.2 (p.stop.getD p.last1))

def opTlbsync := opSys .supervisor noFields (fun th _ s =>
  holdAs (.tlbsync (streamTags s th.l) (coreAccs s th.l) (streamElems s th.l)) s th)
def opAfence := opSys .supervisor noFields (fun th _ s => holdAs (.afence false (groupsOf s th ++ (s.thr th).suspended)) s th)

/-! ## Keys and lengths -/

/-- WRPKR: PKR := G[RB] : G[RA], bits 71..64 ignored (R216). -/
def opWrpkr := opSys .user (fun f => f.rd = 0 && f.mod = 0 && f.form = 0) (fun th f s =>
  opThread th (fun t => { t with pkr := mkD (t.rg f.rb &&& 0o1777777777) (t.rg f.ra) }) s)

/-- VLMAX (R87). -/
def vlMax : Word := 0o000004000000

/-- SETVL of a request (R87). -/
def Thread.setVl (t : Thread) (rd : BitVec 5) (req : Word) : Thread :=
  let v := minU req vlMax
  { t with vl := v }.wg rd v

def opSetvl := opSys .user (fun f => f.rb = 0 && f.mod = 0 && f.form = 0) (fun th f s =>
  opThread th (fun t => t.setVl f.rd (t.rg f.ra)) s)

def opSetvli (th : Th) (f : IFld) (s : State) : State × Res :=
  if f.ra ≠ 0 then (s, illegal (packI 0o064 f)) else opThread th (fun t => t.setVl f.rd (zx18 f.imm)) s

/-- SETSVL: SVL := min(G[RA], 16), returned in G[RD] (R243). -/
def opSetsvl := opSys .user (fun f => f.rb = 0 && f.mod = 0 && f.form = 0) (fun th f s =>
  opThread th (fun t => let v := minU (t.rg f.ra) 16; { t with svl := v }.wg f.rd v) s)

/-! ## TLB invalidation (R289) -/

def opTlbinv := opSys .supervisor (fun f => f.rd = 0 && f.rb = 0 && f.mod = 0 && f.form = 0) (fun th f s =>
  (tlbInvalidate s th.l ((s.thr th).rg f.ra), .refetch))
def opTlbinvall := opSys .supervisor noFields (fun th _ s =>
  (dropCache (dropCache (tlbInvalidateAll s th.l) th.l false) th.l true, .refetch))

/-! ## Special registers (R217, R254) -/

/-- MFSR: an access of FCSR waits until no floating-point instruction is outstanding (R254). -/
def opMfsr (th : Th) (f : IFld) (s : State) : State × Res :=
  let n := f.imm.toNat
  if f.ra ≠ 0 || !srAssigned n then (s, illegal (packI 0o061 f))
  else if levelRank (s.thr th).level < levelRank (srLevel n) then (s, privRes (packI 0o061 f))
  else if n = 0o004 && !(s.thr th).fpOut.isEmpty then (s, .wait)
  else
    let (s, w) := srRead s th n
    (s.modThr th (fun t => t.wg f.rd w), .seq)

/-- A special register whose write changes the context of the next fetch (R277). -/
def srContext (n : Nat) : Bool := decide (0o200 ≤ n) && decide (n ≤ 0o202)

/-- MTSR (R217, R254); after a change of the translation context the next instruction is fetched anew (R277). -/
def opMtsr (th : Th) (f : IFld) (s : State) : State × Res :=
  let n := f.imm.toNat
  if f.rd ≠ 0 || !srAssigned n || !srWritable n then (s, illegal (packI 0o062 f))
  else if levelRank (s.thr th).level < levelRank (srLevel n) then (s, privRes (packI 0o062 f))
  else if n = 0o004 && !(s.thr th).fpOut.isEmpty then (s, .wait)
  else (srWrite s th n ((s.thr th).rg f.ra), if srContext n then .refetch else .seq)

/-! ## Interrupts and upcalls -/

/-- What a boundary takes once the outstanding floating-point instructions have completed: the floating-point trap if one is requested, else
what it came for (R252); either entry takes its turns (R235). -/
def atEntry (s : State) (th : Th) (f : State → State) : State :=
  let s := (entryTurns s th).modThr th Thread.settle
  if (s.thr th).trapReq then takeFpTrap s th (s.thr th).pc else f s

/-- A pending enabled interrupt is taken at a permitted boundary (R252, R258, R266). -/
def interruptEntry (s : State) (th : Th) : State :=
  if s.atBoundary th then
    match (s.thr th).pick with
    | none => s
    | some (m, n) => atEntry s th (fun s =>
        let t := s.thr th
        s.setThr th (t.enter m { int := true, fromLevel := lvNum t.level, code := BitVec.ofNat 6 n } 0 t.pc))
  else s
def execInterruptEntry (th : Th) (s : State) : Host.Outcome State Fault Refusal := .next (interruptEntry s th)

/-- How the write of an upcall frame ends: written, refused, still stalling, or outstanding at another device (R269). -/
inductive FrameEnd where
  | written
  | refused
  | stall
  | remote (pa : Nat) (tag : Nat)
deriving DecidableEq, Repr

/-- The checks and the write of an upcall frame at `f`: the state after the write, or nothing written (R269). -/
def frameWrite (s : State) (th : Th) (f : Word) (ws : List Word) : State × FrameEnd :=
  let t := s.thr th
  if f.toNat % 4 ≠ 0 || f.toNat < t.usplo.toNat || f.toNat + 3 > t.usphi.toNat then (s, .refused)
  else
    match coreTranslate s th .write f with
    | (s, .exc _) => (s, .refused)
    | (s, .stall) => (s, .stall)
    | (s, .ok pa) =>
      match coreWrite s th pa (ws.map (fun w => (w, 0xF))) with
      | (s', .ok) => (s', .written)
      | (s', .remote) => (s', .remote pa s.wov.nextTag)
      | (s', .bus) => (s', .refused)
      | (s', .stall) => (s', .stall)

/-- The event cause of a user line (R264, R268). -/
def eventCause (n : BitVec 6) : CauseReg := { int := true, code := n }

/-- The frame is written: the handler starts (R268). -/
def upcallDone (s : State) (th : Th) (n : BitVec 6) (f : Word) : State :=
  s.modThr th (fun t => ({ t.released with uep := setBit t.uep n.toNat false, inup := true }.wg 30 f).goto t.uentry)

/-- The delivery is abandoned: UPFRAME (R269). -/
def upcallFails (s : State) (th : Th) (n : BitVec 6) (f : Word) : State :=
  let t := s.thr th
  let s := if t.s.busy then s else s.modThr th (fun t => { t with cause2 := eventCause n })
  enterException s th { cause := .upframe, info := f } t.pc

/-- A user event is delivered, or abandoned with UPFRAME (R268, R269); a frame that goes to another device awaits its answer. -/
def upcall (s : State) (th : Th) : State :=
  if s.atBoundary th then
    match (s.thr th).pickUser with
    | none => s
    | some i => atEntry s th (fun s1 =>
        let t := s1.thr th
        let f := t.rg 30 - 4
        let n : BitVec 6 := BitVec.ofNat 6 i
        match frameWrite s1 th f [t.pc, t.ust, (eventCause n).word, tbLow s1] with
        | (_, .stall) => s
        | (s2, .written) => upcallDone s2 th n f
        | (s2, .refused) => upcallFails s2 th n f
        | (s2, .remote pa tag) => startAccess s2 th (.upframe n) f pa (some tag))
  else s
def execUpcall (th : Th) (s : State) : Host.Outcome State Fault Refusal := .next (upcall s th)

end Sys2Proof.Machine
end

