-- ==== Sys2Proof/Machine/Issue.lean ====
section
/-! DEFINITION. The instructions that form groups: vector issue (R113 to R119), VCHAIN (R116, R117), VSUSP (R131) and VRESUME (R138, R191). -/
namespace Sys2Proof.Machine

/-- The lowest number of groups a thread or a queue may not reach (R118, R119). -/
def maxGroups : Nat := 4

/-- The member that a vector-issue word forms: it captures VL and the descriptors it names (R74, R115). -/
def captureMember (t : Thread) (v : VFld) : Member :=
  let dw := t.rd v.dw.toNat
  { v := v, vl := t.vl.toNat, dw := dw, da := t.rd v.da.toNat, db := t.rd v.db.toNat, dc := t.rd v.dc.toNat, dm := t.rd (dMreg dw) }

/-- Whether two members captured different contents of one register (R137). -/
def descMix (ms : List Member) : Bool :=
  let ss := strsOf ms
  ss.any (fun x => ss.any (fun y => x.reg = y.reg && x.q != y.q))

/-- The parts of a group before it runs: one for each spindle of its span that exists (R89). -/
def freshParts (g : Group) : List Part :=
  (List.range g.spindles.length).map (fun k =>
    let (f, l) := blockOf (qOf (strsOf g.members)) g.vl g.span k
    { first := f, last1 := l, next := f, start := f })

/-- The group that members form, seven of them too; it captures the context of its thread (R115, R116, R278). Its VL and span are those of the
first. -/
def formGroup (s : State) (th : Th) (ms : List Member) : Group :=
  let m0 := (ms.head?).getD { v := {} }
  let g : Group := {
    th := th, num := (s.thr th).groupNum, inst := latheInst s th.l, epoch := (s.lathe th.l).epoch, ctx := (s.thr th).ctx, vl := m0.vl,
    sp0 := m0.v.sp0.toNat, scnt := m0.v.scnt.toNat, members := ms, dmix := descMix ms }
  { g with parts := freshParts g }

/-- Whether a group can enter its queues: fewer than four of its thread are outstanding, and no queue of its span is full (R118, R119). -/
def hasRoom (s : State) (g : Group) : Bool :=
  decide ((groupsOf s g.th).length < maxGroups) && g.spindles.all (fun k => decide ((s.spin k).queue.length < maxGroups))

/-- The group takes its number (R118). -/
def takeNumber (s : State) (th : Th) : State := s.modThr th (fun t => { t with groupNum := t.groupNum + 1 })

/-- A group enters every queue of its span in one action; its sealed words take their place in the order of issue (R119, R377). -/
def enqueue (s : State) (g : Group) : State :=
  let gi := s.nextGroup
  let s := takeNumber { s with nextGroup := gi + 1 } g.th
  let g := { g with sealKey := sealKeyOf s gi g }
  let s := placeStreams g g.streamWords (s.setGroup gi (some g))
  g.spindles.foldl (fun s k => s.modSpin k (fun x => { x with queue := x.queue ++ [gi] })) s

/-- A vector-issue instruction (R113 to R118). -/
def opVector (th : Th) (v : VFld) (s : State) : State × Res :=
  let t := s.thr th
  let m := captureMember t v
  let submit (s : State) (ms : List Member) : State × Res :=
    let g := formGroup s th ms
    if hasRoom s g then (enqueue (s.modThr th (fun t => { t with openGrp := none })) g, .seq) else (s, .wait)
  if !vLegal v then (s, illegal (packV v))
  else match t.openGrp with
    | none => submit s [m]
    | some o =>
      if o.level ≠ t.level then (s, illegal (packV v))
      else
        let ms := o.members ++ [m]
        if ms.length ≥ o.want then submit s ms
        else (s.modThr th (fun t => { t with openGrp := some { o with members := ms } }), .seq)

/-- VCHAIN (R116, R117). -/
def opVchain (th : Th) (func : BitVec 7) (f : TFld) (s : State) : State × Res :=
  let t := s.thr th
  let n := f.mod.toNat
  if f.rd ≠ 0 || f.ra ≠ 0 || f.rb ≠ 0 || f.form ≠ 0 then (s, illegal (packT 0o060 func f))
  else if n = 0 then
    match t.openGrp with
    | none => (s, .seq)
    | some o => if levelRank t.level < levelRank o.level then (s, illegal (packT 0o060 func f))
      else opThread th (fun t => { t with openGrp := none }) s
  else if t.openGrp.isSome then (s, illegal (packT 0o060 func f))
  else opThread th (fun t => { t with openGrp := some { want := n, level := t.level } }) s

/-- VSUSP t: every outstanding group of thread t of the lathe is suspended; the issuing thread's VFENCE will wait for them (R131, R304). (DEDUCED: log entry 18) -/
def opVsusp := opSys .supervisor (fun f => f.rd = 0 && f.ra = 0 && f.rb = 0 && f.form = 0) (fun th f s =>
  let gs := groupsOf s ⟨th.l, Fin.ofNat 8 f.mod.toNat⟩
  let s := gs.foldl (fun s gi => stopGroup s gi stSUSPENDED) s
  opThread th (fun t => { t with suspended := t.suspended ++ gs }) s)

/-! ## VRESUME (R138, R191) -/

/-- Length of a suspend record (R137). -/
def recordSize : Nat := 592

/-- A word of a record in the lathe's scratchpad, as a read delivers it. -/
def recWord (s : State) (l : Fin 16) (base i : Nat) : Word := (s.readWord (scratchPlace l (base + i))).1

/-- Reads the whole record as a control path (R318): the first poisoned word, if any. -/
def readRecord (s : State) (l : Fin 16) (base : Nat) : State × Option Nat :=
  (((List.range recordSize).foldl (fun s i => examine s true (scratchPlace l (base + i)) 0xF) s),
   (List.range recordSize).find? (fun i => (s.readWord (scratchPlace l (base + i))).2))

/-- The descriptor of a record (R137). -/
def recDesc (s : State) (l : Fin 16) (base j : Nat) : Quad :=
  { w0 := recWord s l base (16 + 4 * j), w1 := recWord s l base (17 + 4 * j), w2 := recWord s l base (18 + 4 * j),
    w3 := recWord s l base (19 + 4 * j) }

/-- A member of a record. -/
def recMember (s : State) (l : Fin 16) (base i : Nat) : Member :=
  let v := wordV (recWord s l base (2 + i))
  let dw := recDesc s l base v.dw.toNat
  { v := v, vl := fld (recWord s l base 0) 0 21, dw := dw, da := recDesc s l base v.da.toNat, db := recDesc s l base v.db.toNat, dc := recDesc s l base v.dc.toNat,
    dm := recDesc s l base (dMreg dw) }

/-- Whether a member word of a record would issue (R138). -/
def recMemberOk (w : Word) : Bool := fld w 34 2 = 2 && vLegal (wordV w)

/-- The RSTATE entry of a member in a spindle, as the resumed group takes it, with whether R191 refuses it. -/
def recAcc (s : State) (th : Th) (base slot : Nat) (p : Part) (k j : Nat) (m : Member) : Acc × Bool :=
  let w (i : Nat) : Word := recWord s th.l base (88 + 64 * k + 9 * j + i)
  let t := (dEt m.da).getD .i36
  let kind := fld (w 0) 34 2
  let nn := fld (w 0) 26 6
  let segst := fld (w 0) 0 21
  let stateful : Bool := m.op.isRed || m.op.isScan
  let nodes : Bool := byNodes m.op t
  let due := if kind = 2 then nodesDue p segst else []
  let area : SaveArea := tget {} (s.lathe th.l).rsave th.t.val
  let bad : Bool := kind = 3 || (w 0).getLsbD 25 || (kind ≠ 0 && !stateful) || (kind = 1 && nodes) || (kind = 2 && !nodes) ||
    (kind = 0 && stateful && p.next > p.first) || nn ≠ due.length ||
    (nn > 0 && (!area.en || area.offset.toNat + 13824 > 262144))
  let node (mi : (Nat × Nat) × Nat) : Node :=
    let ((lo, n), i) := mi
    let a := nodePlace th.l area.offset.toNat slot k j i
    let (x, px) := s.readWord a
    let (y, py) := s.readWord (a + 1)
    { lo := lo, n := n,
      val := if (w 1).getLsbD i then none
        else some { bits := if t.wide then mkD y x else x.setWidth 72, poison := px || py } }
  let acc : Acc :=
    if kind = 2 then { segst := segst, nodes := due.zipIdx.map node }
    else if kind = 1 then
      { segst := segst, index := fld (w 4) 0 21,
        fold := if (w 0).getLsbD 33 then none
          else some { bits := if t.wide then mkD (w 3) (w 2) else (w 2).setWidth 72, poison := (w 0).getLsbD 32 } }
    else { segst := segst }
  (acc, bad)

/-- The group of a record, as a new group of the resuming thread on the span at spindle `sp0`; none where R138 or R191 refuses the record. -/
def recGroup (s : State) (th : Th) (base sp0 : Nat) : Option Group :=
  let w (i : Nat) : Word := recWord s th.l base i
  let nops := fld (w 0) 28 4
  let words := (List.range nops).map (fun i => w (2 + i))
  if fld (w 0) 33 3 ≠ 1 || !(w 0).getLsbD 32 || nops < 1 || nops > 6 || (w 1).getLsbD 12 || !words.all recMemberOk then none
  else
    let ms := (List.range nops).map (recMember s th.l base)
    let vl := fld (w 0) 0 21
    let scnt := fld (w 0) 22 3
    let slot := fld (w 1) 16 5
    let g : Group := {
      th := th, num := (s.thr th).groupNum, inst := latheInst s th.l, epoch := (s.lathe th.l).epoch, ctx := (s.thr th).ctx,
      vl := vl, sp0 := sp0, scnt := scnt, members := ms, resumed := true }
    let all := (List.range g.span).map (fun k =>
      let (f, l) := blockOf (qOf (strsOf ms)) vl g.span k
      let rk := fld (w (80 + 64 * k)) 0 21
      let n := fld (w (82 + 64 * k)) 0 21
      let p : Part := { first := f, last1 := l, next := rk, start := rk, kflag := (w (81 + 64 * k)).setWidth 30, pcnt := n,
                        poisoned := n ≠ 0 }
      let accs := (ms.zipIdx).map (fun (m, j) => recAcc s th base slot p k j m)
      let poisoned := (accs.any (fun a => (a.1.fold.getD {}).poison || a.1.nodes.any (fun x => (x.val.getD {}).poison)))
      ({ p with accs := accs.map Prod.fst, poisoned := p.poisoned || poisoned }, decide (rk < f) || decide (rk > l) || accs.any Prod.snd))
    if all.any Prod.snd then none
    else some { g with parts := (all.map Prod.fst).take g.spindles.length }

/-- A VRESUME whose record is refused with DESCRSV (R138). -/
def refuseResume (s : State) (th : Th) (sp0 : Nat) : State × Res :=
  let g : Group := { th := th, num := (s.thr th).groupNum, sp0 := sp0 }
  (refuseGroup (takeNumber { s with nextGroup := s.nextGroup + 1 } th) s.nextGroup g (opFail stDESCRSV), .seq)

/-- The spill nodes that a resumed group takes are examined as they are read (R191, R317, R318). -/
def readNodes (s : State) (g : Group) (slot : Nat) : State :=
  let area := (tget ({} : SaveArea) (s.lathe g.th.l).rsave g.th.t.val).offset.toNat
  (g.parts.zipIdx).foldl (fun s (p, k) => (p.accs.zipIdx).foldl (fun s (a, j) => (List.range a.nodes.length).foldl (fun s m =>
    let x := nodePlace g.th.l area slot k j m
    examine (examine s false x 0xF) false (x + 1) 0xF) s) s) s

/-- Whether an epoch of the lathe's instance is not yet acknowledged by every device: its suspended groups are not resumed (R429, R469).
(DEDUCED: log entry 49) -/
def epochAwaited (s : State) (l : Fin 16) : Bool := (instanceOf s l).any (fun i => !(tget [] s.wov.ackWait i.val).isEmpty)

/-- The record at an offset of the scratchpad is read and its group queued; nothing is read while the group has to wait (R118, R138, R469). (DESIGN CHOICE: log entry 66) -/
def resumeRecord (th : Th) (f : TFld) (s : State) : State × Res :=
  let t := s.thr th
  let base := (t.rg f.ra).toNat
  let sp0 := fld (t.rg f.rb) 0 3
  if (groupsOf s th).length ≥ maxGroups || epochAwaited s th.l then (s, .wait)
  else if base + recordSize > 262144 then refuseResume s th sp0
  else match readRecord s th.l base with
    | (s, some i) => (s, .exc { cause := .buserr, info := BitVec.ofNat 36 (scratchPlace th.l (base + i)) })
    | (s', none) =>
      match recGroup s th base sp0 with
      | none => refuseResume s' th sp0
      | some g =>
        if hasRoom s g then (enqueue (readNodes s' g (fld (recWord s th.l base 1) 16 5)) g, .seq) else (s, .wait)

/-- VRESUME (R138). -/
def opVresume := opSys .supervisor (fun f => f.rd = 0 && f.mod = 0 && f.form = 0) resumeRecord

end Sys2Proof.Machine
end

