-- ==== Sys2Proof/Machine/Banks.lean ====
section
/-! DEFINITION. Banks: handover, skew drain and seal lock (R46, R56 to R62),
retirement (R71, R72), and SPN_CTL (R142). -/
namespace Sys2Proof.Machine

/-! ## Who may write a block's registers -/

/-- Whether a master is machine-level code on the core of a lathe. -/
def isMachineOn (s : State) (m : Master) (l : Nat) : Bool :=
  match m with
  | .core th => th.l.val = l && (s.thr th).level = .machine
  | _ => false

/-- Whether a master is supervisor- or machine-level code on the core of a lathe. -/
def isPrivOn (s : State) (m : Master) (l : Nat) : Bool :=
  match m with
  | .core th => th.l.val = l && (s.thr th).level ≠ .user
  | _ => false

/-- The mode codes of R523 that rules name. -/
def modeOpen : BitVec 4 := 6

/-- Who may write BNK_OWN and BNK_CFG (R56). -/
def mayWriteBank (s : State) (m : Master) (n : Nat) : Bool :=
  match m with
  | .head => true
  | .pciein _ => s.pwr.mode = modeOpen
  | _ => isMachineOn s m (n / 64)

/-! ## Replies and addresses -/

/-- The address that names a row of a bank under the group's mapping (R45). -/
def addrOfRow (s : State) (n row : Nat) : Nat :=
  let b := n % 8
  let b := if (s.bank (n / 8 * 8)).skew then b ^^^ (row / 32 % 8) else b
  n / 8 * 2 ^ 19 + 32 * row + 4 * b

/-! ## Handover (R57, R58) -/

def ownWordFields (b : Bank) (w : Word) : Bank :=
  { b with ownCl := w.extractLsb' 30 3, ownId := w.extractLsb' 23 7, inst := w.extractLsb' 19 4, lend := w.extractLsb' 17 2,
           lscope := w.extractLsb' 15 2, epoch := w.extractLsb' 0 9 }

/-- Whether R58 refuses a write of BNK_OWN for what it names. -/
def ownRefused (s : State) (n : Nat) (b : Bank) : Bool :=
  (b.ownCl = 0 && (b.ownId.toNat ≠ n / 8 || !(s.spin (n / 8)).inSvc)) || b.ownCl = 7 || b.lend = 3 || b.lscope = 3

/-- The scrubber's waiting writes to a bank that becomes pending, sealed or retired are cancelled (R321). -/
def dropFixes (s : State) (n : Nat) : State :=
  { s with scr := { s.scr with walkBank := { s.scr.walkBank with
      fixes := s.scr.walkBank.fixes.filter (fun x => x.1 / 262144 ≠ n) } } }

/-- The master that a bank's remote port parks on for an owner, by (class code, ID): the headstock when OWNCL is NONE (R53, R345, R349). -/
def ownerRank (b : Bank) : Nat :=
  match b.ownCl.toNat with
  | 0 => 128 + b.ownId.toNat
  | 1 => b.ownId.toNat
  | 2 => 2 * 128 + b.ownId.toNat
  | 3 => 3 * 128
  | 4 => 5 * 128
  | 5 => 6 * 128
  | _ => 4 * 128

/-- The master on which the remote port of a bank parks: during a handover still the old owner (R349). -/
def Bank.parked (b : Bank) : Nat := b.parkOld.getD (ownerRank b)

/-- A handover from one setting of BNK_OWN to another starts (R57). -/
def handOver (old new : Bank) : Bank :=
  { new with drain := some .handover, drainTicks := 0, parkOld := some old.parked }

/-- A write of BNK_OWN that the register accepts from its writer. -/
def bnkOwn (s : State) (n : Nat) (w : Word) : State :=
  let b := s.bank n
  let x := ownWordFields b w
  let rej := s.setBank n { b with horej := true }
  if b.sealed && !b.isPending && !b.retired && x = { b with epoch := x.epoch } && x.epoch ≠ b.epoch then s.setBank n x
  else if b.isPending || b.sealed || b.retired || ownRefused s n x then rej
  else if x = b then s
  else dropFixes (s.setBank n (handOver b x)) n

/-- A master's write of the register at an offset of the region: without a path the fabric refuses it (R346, R355), and one that the
master may not make is a bus error to it and changes nothing (R21, R56). -/
def writeIf (m : Master) (off : Nat) (ok : Bool) (f : State → State) (s : State) : State :=
  if !hasPath s m (regBase + off) then pathError s m true (regBase + off)
  else if ok then f s
  else deliverReply s m (regBase + off) [] true

/-- The word of BNK_OWN that a bank's RW fields make (R64). -/
def ownWord (b : Bank) : Word :=
  put 30 3 b.ownCl.toNat ||| put 23 7 b.ownId.toNat ||| put 19 4 b.inst.toNat ||| put 17 2 b.lend.toNat ||| put 15 2 b.lscope.toNat |||
    put 0 9 b.epoch.toNat

/-- The headstock's writes of BNK_OWN over banks, each judged as any write of it (R58). -/
def giveBanks (s : State) (ns : List Nat) (f : Bank → Bank) : State := ns.foldl (fun s n => bnkOwn s n (ownWord (f (s.bank n)))) s

/-- A bank as the test engine holds it: TEST-owned and lent to none (R326). -/
def testOwned (b : Bank) : Bank := { b with ownCl := 5, ownId := 0, lend := 0, lscope := 0 }

/-- Whether the test engine may take a bank: it owns it, and the bank is neither pending nor under seal lock (R326). -/
def Bank.testReady (b : Bank) : Bool := b.ownCl = 5 && !b.isPending && !b.sealed

/-- Banks pass to TEST, each by a handover; one that is pending or under seal lock is not written yet (R57, R58, R431). -/
def takeForTest (s : State) (ns : List Nat) : State :=
  giveBanks s (ns.filter (fun n => !(s.bank n).testReady && !(s.bank n).isPending && !(s.bank n).sealed)) testOwned

def execBnkOwnWrite (m : Master) (n : Fin 1024) (w : Word) (s : State) : Host.Outcome State Fault Refusal :=
  .next (writeIf m (0o100 * n.val) (mayWriteBank s m n.val) (fun s => bnkOwn s n.val w) s)

/-- The write of BNK_OWN that gives a bank its new epoch, made once the bank is not pending: under seal lock in one action, else by a handover, and
refused by a retired bank (R57, R58, R429). -/
def applyNewEpoch (b : Bank) : Bank :=
  match b.newEpoch with
  | none => b
  | some e =>
    let x := { b with newEpoch := none }
    if b.isPending then b
    else if b.retired then { x with horej := true }
    else if b.epoch = e then x
    else if b.sealed then { x with epoch := e }
    else handOver x { x with epoch := e }

/-- What waits for a bank to cease to be pending: a new epoch, and a held LOCK (R62, R429). -/
def applyHeld (b : Bank) : Bank :=
  let b := applyNewEpoch b
  if b.heldLock && !b.isPending then { b with heldLock := false, drain := some .sealLock, drainTicks := 0 } else b

/-- A handover's drain ends: PENDING clears (R57). -/
def endHandover (b : Bank) : Bank := if b.drain = some .handover then applyHeld { b with drain := none, parkOld := none } else b

/-! ## SKEW (R46, R65) -/

def groupBanks (k : Nat) : List Nat := (List.range 8).map (fun b => 8 * k + b)

/-- A write of BNK_CFG: SKEW is writable in bank b = 0 alone. -/
def bnkCfg (s : State) (n : Nat) (w : Word) : State :=
  let b := s.bank n
  if n % 8 ≠ 0 || w.getLsbD 0 = b.skew then s
  else if (groupBanks (n / 8)).any (fun i => (s.bank i).isPending || (s.bank i).sealed) then s.setBank n { b with horej := true }
  else
    let s := s.setBank n { b with skewNext := w.getLsbD 0 }
    (groupBanks (n / 8)).foldl (fun s i => dropFixes (s.modBank i (fun b => { b with drain := some .skew, drainTicks := 0 })) i) s
def execBnkCfgWrite (m : Master) (n : Fin 1024) (w : Word) (s : State) : Host.Outcome State Fault Refusal :=
  .next (writeIf m (0o100 * n.val + 1) (mayWriteBank s m n.val) (fun s => bnkCfg s n.val w) s)

/-- The last of the eight banks has drained: SKEW changes and PENDING clears in all, in one action (R46). -/
def skewEnd (s : State) (k : Nat) : State :=
  if (s.bank (8 * k)).drain = some .skew then
    let s := s.modBank (8 * k) (fun b => { b with skew := b.skewNext })
    (groupBanks k).foldl (fun s i => s.modBank i (fun b => if b.drain = some .skew then applyHeld { b with drain := none } else b)) s
  else s

/-! ## Seal lock (R60 to R62, R70) -/

/-- A LOCK reaches a bank. One that finds the bank pending for a SKEW drain or for a March run is held like one that finds a handover: R62 names
the handover alone. (DESIGN CHOICE: log entry 64) -/
def lockBank (b : Bank) : Bank :=
  if b.heldLock || b.drain = some .sealLock || b.sealed then b
  else if b.drain = some .cancelled then { b with drain := some .sealLock }
  else if b.isPending then { b with heldLock := true }
  else { b with drain := some .sealLock, drainTicks := 0 }

def lockAt (s : State) (n : Nat) : State := dropFixes (s.modBank n lockBank) n

/-- A RELEASE reaches a bank. -/
def releaseBank (b : Bank) : Bank :=
  if b.sealed then { b with sealed := false }
  else
    let b := { b with heldLock := false }
    if b.drain = some .sealLock then { b with drain := some .cancelled } else b

/-- BNK_SEAL as the tailstock writes it; both bits together are ignored (R70). (DEDUCED: log entry 57) -/
def bnkSeal (s : State) (n : Nat) (w : Word) : State :=
  if w.getLsbD 0 && w.getLsbD 1 then s
  else if w.getLsbD 0 then lockAt s n
  else if w.getLsbD 1 then s.modBank n releaseBank
  else s

def execLock (n : Fin 1024) (s : State) : Host.Outcome State Fault Refusal := .next (lockAt s n.val)
def execRelease (n : Fin 1024) (s : State) : Host.Outcome State Fault Refusal := .next (s.modBank n.val releaseBank)

/-- A seal-lock drain ends: SEALED unless the LOCK was cancelled (R60, R62). -/
def endSealDrain (b : Bank) : Bank :=
  if b.drain = some .sealLock then applyNewEpoch { b with drain := none, sealed := true }
  else if b.drain = some .cancelled then applyNewEpoch { b with drain := none }
  else b

/-! ## Retirement (R71, R72) -/

/-- A spindle leaves service: the group that runs there ends with UNITFAIL, its other spindles at their own boundaries (R71, R131). -/
def leaveService (s : State) (k : Nat) : State :=
  let s := s.modSpin k (fun x => { x with inSvc := false })
  match (s.spin k).queue with
  | [] => s
  | gi :: _ => match s.group gi with
    | none => s
    | some g =>
      if !g.started then s
      else
        let i := k - g.spindle 0
        let p := g.part i
        if p.ended || g.blockDone i then s
        else s.setGroup gi (some (cutPart s gi g i (p.cutAt p.next stUNITFAIL 5 0)))

/-- A bank that class SPINDLE owns passes to NONE through a handover when a sibling is retired (R72). The handover of a sealed bank keeps the
seal; a seal-lock drain becomes a handover with its LOCK held; a handover, SKEW drain or March hold in progress serves as the handover. (DESIGN
CHOICE: log entry 64) -/
def passToNone (b : Bank) : Bank :=
  let x := { b with ownCl := 6, ownId := 0 }
  if b.march then x
  else match b.drain with
    | none => handOver b x
    | some .sealLock => { handOver b x with heldLock := true }
    | some .cancelled => handOver b x
    | some .handover => x
    | some .skew => x

/-- A bank is retired: its spindle leaves service, and the other banks of the spindle that class SPINDLE owns pass to NONE (R71, R72). -/
def retireBank (s : State) (n : Nat) : State :=
  if (s.bank n).retired then s
  else
    let s := leaveService (dropFixes (s.modBank n (fun b => { b with retired := true })) n) (n / 8)
    ((groupBanks (n / 8)).filter (· ≠ n)).foldl (fun s i =>
      if (s.bank i).ownCl = 0 && !(s.bank i).retired then dropFixes (s.modBank i passToNone) i else s) s

/-! ## SPN_CTL (R142) -/

/-- Who may write SPN_CTL. -/
def maySpnCtl (s : State) (m : Master) (k : Nat) : Bool := m = .head || isMachineOn s m (k / 8)

/-- Every group in a spindle's queue is told to stop. -/
def stopQueue (s : State) (k code : Nat) : State := (s.spin k).queue.foldl (fun s gi => stopGroup s gi code) s

/-- A write of SPN_CTL: ABORT decides over SUSP (R134). -/
def spnCtl (s : State) (k : Nat) (w : Word) : State :=
  if w.getLsbD 1 then stopQueue s k stABORTED else if w.getLsbD 0 then stopQueue s k stSUSPENDED else s

def execSpnCtlSusp (m : Master) (k : Fin 128) (s : State) : Host.Outcome State Fault Refusal :=
  .next (writeIf m (0o240000 + 0o200 * k.val + 3) (maySpnCtl s m k.val) (fun s => spnCtl s k.val 1) s)
def execSpnCtlAbort (m : Master) (k : Fin 128) (s : State) : Host.Outcome State Fault Refusal :=
  .next (writeIf m (0o240000 + 0o200 * k.val + 3) (maySpnCtl s m k.val) (fun s => spnCtl s k.val 2) s)

end Sys2Proof.Machine
end

