-- ==== Sys2Proof/Machine/Frames.lean ====
section
/-! DEFINITION. The responses of the debug port (R528, R529, R531): frames with their status, TAG and CRC-16. -/
namespace Sys2Proof.Machine

/-! ## Statuses (R529) -/

def dbOK : Octet := 0o00
def dbBADCRC : Octet := 0o01
def dbBADTAG : Octet := 0o02
def dbBADREQ : Octet := 0o03
def dbNOAUTH : Octet := 0o04
def dbDENIED : Octet := 0o05
def dbNOTHALT : Octet := 0o06
def dbEXCEPT : Octet := 0o07
def dbJNLBUSY : Octet := 0o10
def dbBUSERR : Octet := 0o11

/-- Requests that carry no TAG: HELLO, CHAL and AUTH (R528). -/
def untagged (type : Nat) : Bool := decide (1 ≤ type) && decide (type ≤ 3)

/-- The octets of a response: its TYPE with bit 7 set, LEN, the status and the payload, the TAG with the number of the request it answers,
and the CRC, low octet first (R528, R531). -/
def frameOctets (key : Option (List Octet)) (reqno : BitVec 32) (type : Octet) (payload : List Octet) : List Octet :=
  let o := [type ||| 0x80, BitVec.ofNat 8 payload.length] ++ payload
  let o := match key with
    | some k => o ++ (hmacSha3 k (leOctets 4 reqno ++ o)).take 8
    | none => o
  o ++ leOctets 2 (crc16 o)

/-- The device answers a request. -/
def respond (s : State) (type : Nat) (status : Octet) (payload : List Octet) : State :=
  let key := if s.dbg.opened && !untagged type then some s.dbg.key else none
  { s with dbg := { s.dbg with tx := s.dbg.tx ++ [frameOctets key s.dbg.reqno (BitVec.ofNat 8 type) (status :: payload)] } }

/-- A word as it travels: 5 octets (R529). -/
def wordOctets (w : Word) : List Octet := leOctets 5 w

/-- The end of an EXEC: done, or an exception of which nothing is performed (R536). -/
def execTYPE : Nat := 0o015
def execDone (s : State) : State := respond s execTYPE dbOK []
def execExcept (s : State) (e : Cause) : State := respond s execTYPE dbEXCEPT [(causeCode e).setWidth 8]

end Sys2Proof.Machine
end

