-- ==== Sys2Proof/Machine/Ecdsa.lean ====
section
/-! DEFINITION. Deterministic ECDSA over P-384 with SHA3-384 as the digest (R391), as FIPS 186-5 defines it. The device's private key is
an opaque constant of Config. -/
namespace Sys2Proof.Machine

/-- The curve y² = x³ - 3 x + b over the field of p: p, the order of the base point, and the base point. -/
def p384P : Nat := 2 ^ 384 - 2 ^ 128 - 2 ^ 96 + 2 ^ 32 - 1
def p384N : Nat := 0xFFFFFFFFFFFFFFFFFFFFFFFFFFFFFFFFFFFFFFFFFFFFFFFFC7634D81F4372DDF581A0DB248B0A77AECEC196ACCC52973
def p384G : Nat × Nat :=
  (0xAA87CA22BE8B05378EB1C71EF320AD746E1D3B628BA79B9859F741E082542A385502F25DBF55296C3A545E3872760AB7,
   0x3617DE4A96262C6F5D9E98BF9292DC29F8F41DBD289A147CE9DA3113B5F0B8C00A60B1CE1D7E819D7A431D7C90EA0E5F)

/-- The inverse of a modulo a prime m of 384 bits: its power m - 2. -/
def invMod (a m : Nat) : Nat :=
  (List.range 384).foldl (fun v i => let v := v * v % m; if (m - 2).testBit (383 - i) then v * a % m else v) 1

/-- The sum of two points of the curve, none being the point at infinity. -/
def ecAdd : Option (Nat × Nat) → Option (Nat × Nat) → Option (Nat × Nat)
  | none, q => q
  | q, none => q
  | some (x1, y1), some (x2, y2) =>
    if x1 = x2 && (y1 + y2) % p384P = 0 then none
    else
      let k := if x1 = x2 then (3 * x1 * x1 + p384P - 3) * invMod (2 * y1) p384P % p384P
        else (y2 + p384P - y1) * invMod (x2 + p384P - x1) p384P % p384P
      let x := (k * k + 2 * p384P - x1 - x2) % p384P
      some (x, (k * (x1 + p384P - x) + p384P - y1) % p384P)

/-- The point k G. -/
def ecMul (k : Nat) : Option (Nat × Nat) :=
  (List.range 384).foldl (fun q i => let q := ecAdd q q; if k.testBit (383 - i) then ecAdd q (some p384G) else q) none

/-- Octets of a number, most significant first, and the number of octets so. -/
def beOctets (k n : Nat) : List Octet := (List.range k).map (fun i => BitVec.ofNat 8 (n >>> (8 * (k - 1 - i))))
def ofBeOctets (o : List Octet) : Nat := o.foldl (fun v b => 256 * v + b.toNat) 0

/-- The per-message secret number: the first value of HMAC_DRBG, seeded with the private key and the digest, that the test takes, out of at most
`fuel`. K and V are the generator's own values. -/
def ecdsaTry (sign : Nat → Option (List Octet)) : Nat → List Octet → List Octet → List Octet
  | 0, _, _ => []
  | fuel + 1, k, v =>
    let v := hmacOf 48 k v
    match sign (ofBeOctets v) with
    | some o => o
    | none => let k := hmacOf 48 k (v ++ [0]); ecdsaTry sign fuel k (hmacOf 48 k v)

/-- r and s for a private key d, a digest e and a secret number k, each 48 octets, big-endian (R389); none where k, r or s is out of range. -/
def ecdsaWith (d e k : Nat) : Option (List Octet) :=
  if k = 0 || p384N ≤ k then none
  else
    let r := ((ecMul k).map (·.1)).getD 0 % p384N
    let s := (e + r * d) * invMod k p384N % p384N
    if r = 0 || s = 0 then none else some (beOctets 48 r ++ beOctets 48 s)

/-- The deterministic signature of an octet string under the private key d, 96 octets. -/
def ecdsaSign (d : Nat) (m : List Octet) : List Octet :=
  let h := sha3Of 48 m
  let e := ofBeOctets h
  let seed := beOctets 48 d ++ beOctets 48 (e % p384N)
  let k := hmacOf 48 (List.replicate 48 0) (List.replicate 48 1 ++ [0] ++ seed)
  let v := hmacOf 48 k (List.replicate 48 1)
  let k := hmacOf 48 k (v ++ [1] ++ seed)
  ecdsaTry (ecdsaWith d e) 128 k (hmacOf 48 k v)

/-- The signature that the tailstock makes of seal records and journal checkpoints (R391, R392, R398). -/
def deviceSignature (m : List Octet) : List Octet := ecdsaSign (1 + Config.deviceKey % (p384N - 1)) m

end Sys2Proof.Machine
end

