-- ==== Sys2Proof/Machine/Ring.lean ====
section
/-! DEFINITION. The completion ring and MSI-X (R310, R416 to R418, R421, R422, R440, R441), and the transmission of data to the host. -/
namespace Sys2Proof.Machine

/-! ## Command statuses (R424) -/

def csACCEPTED : BitVec 16 := 0o001
def csBUSY : BitVec 16 := 0o101
def csQUOTA : BitVec 16 := 0o102
def csNOBUF : BitVec 16 := 0o103
def csORDER : BitVec 16 := 0o104
def csJNLBUF : BitVec 16 := 0o105
def crBUSY : BitVec 16 := 0o201
def crQUOTA : BitVec 16 := 0o202
def crNOBUF : BitVec 16 := 0o203
def crFULL : BitVec 16 := 0o204
def crMODE : BitVec 16 := 0o205
def crDEADLINE : BitVec 16 := 0o206
def crBADCMD : BitVec 16 := 0o207
def crPRIV : BitVec 16 := 0o210
def crRANGE : BitVec 16 := 0o211
def crSLOTBUS : BitVec 16 := 0o212
def ceDONE : BitVec 16 := 0o300
def ceDONEP : BitVec 16 := 0o301
def cePACKERR : BitVec 16 := 0o302
def ceDEADLINE : BitVec 16 := 0o303
def ceABORTED : BitVec 16 := 0o304
def ceTGTRESET : BitVec 16 := 0o305
def ceLINKDOWN : BitVec 16 := 0o306
def ceJOBFAIL : BitVec 16 := 0o307
def ceVECFAIL : BitVec 16 := 0o310
def ceSEALFAIL : BitVec 16 := 0o311
def ceHOSTERR : BitVec 16 := 0o312
def ceUNREACH : BitVec 16 := 0o313
def ceCAPACITY : BitVec 16 := 0o314

/-! ## Functions (R434, R440) -/

def msixKey (f v : Nat) : Nat := 64 * f + v
def State.msixOf (s : State) (f v : Nat) : Msix := tget {} s.pci.msix (msixKey f v)
def State.modMsix (s : State) (f v : Nat) (g : Msix → Msix) : State :=
  { s with pci := { s.pci with msix := tmod {} s.pci.msix (msixKey f v) g } }

/-- A vector is signalled: sent, recorded while masked, or discarded with MSI-X disabled (R440). -/
def signalMsix (s : State) (i : Fin 16) (v : Nat) : State :=
  let f := s.fnCfg i.val
  let x := s.msixOf i.val v
  if !f.msixEn then s
  else if f.fmask || x.mask then s.modMsix i.val v (fun x => { x with pend := true })
  else if s.pci.up then transmit s (.msix i x.addr x.data)
  else s.modInst i (fun y => { y with ringerr := true })

/-- A headstock message of a device has arrived: the LINK producer of the link over which its messages come fires (R358). -/
def linkPulse (s : State) (dev : Nat) : State :=
  match arrivalLink s dev with
  | some k => firePulse s (pselLink k)
  | none => s

/-! ## Completion entries (R421) -/

/-- The 32 octets of an entry under a phase. -/
def entryOctets (e : Entry) (phase : Bool) : List Octet :=
  leOctets 8 e.jseq ++ leOctets 2 e.tag ++ [BitVec.ofNat 8 e.mbx.val, BitVec.ofNat 8 e.slot.val] ++ leOctets 2 e.status ++
    [e.kind.setWidth 8 <<< 1 ||| (if phase then 1 else 0), e.qpos] ++ leOctets 8 e.result0 ++ leOctets 8 e.result1

def ringLen (x : Inst) : Nat := 2 ^ x.log2n.toNat

/-- Entries in the ring that the host has not consumed. -/
def ringUsed (x : Inst) : Nat := (x.ringTail.toNat + ringLen x - x.ringHead.toNat % ringLen x) % ringLen x

/-- Whether the headstock may write an entry now (R417, R421). -/
def ringOpen (x : Inst) : Bool := x.en && decide (ringUsed x < ringLen x - 1)

/-- One entry is written at RINGTAIL, and its vector signalled. With the link down it is lost, and RINGERR is set (R418, R447). (DEDUCED: log entry 48) -/
def ringWrite (s : State) (i : Fin 16) (e : Entry) : State :=
  let x := s.inst i
  let a := x.ringbase.toNat + 32 * (x.ringTail.toNat % ringLen x)
  let s := if s.pci.up then transmit s (.write i a (entryOctets e x.phase) false false)
    else s.modInst i (fun x => { x with ringerr := true })
  let n := (x.ringTail.toNat + 1) % ringLen x
  let s := s.modInst i (fun x => { x with ringTail := BitVec.ofNat 32 n, phase := if n = 0 then !x.phase else x.phase })
  signalMsix s i x.vec.toNat

/-- Held entries are written while the ring has room. -/
def pumpRing : Nat → State → Fin 16 → State
  | 0, s, _ => s
  | fuel + 1, s, i =>
    let x := s.inst i
    match x.held with
    | [] => s
    | e :: r => if ringOpen x then pumpRing fuel (ringWrite (s.modInst i (fun x => { x with held := r })) i e) i else s

def pump (s : State) (i : Fin 16) : State := pumpRing ((s.inst i).held.length) s i

/-- An entry for an instance: to the ring, held while the ring is full or disabled, or sent to the root (R417, R421, R465). -/
def postEntry (s : State) (i : Fin 16) (e : Entry) : State :=
  if !s.isRoot then sendMsg s (.entry 0 i e)
  else pump (s.modInst i (fun x => { x with held := x.held ++ [e] })) i

/-- RINGWAIT: entries are held because the ring is full (R418). -/
def ringWait (x : Inst) : Bool := x.en && !x.held.isEmpty

/-- A NOTICE of a retired bank, to instance 0 and to the instance it was granted to (R421). -/
def postNotice (s : State) (n : Nat) (granted : Option (Fin 16)) : State :=
  let e : Entry := { status := ceCAPACITY, kind := 2, result0 := BitVec.ofNat 64 n }
  let s := postEntry s 0 e
  match granted with
  | some i => if i = 0 then s else postEntry s i e
  | none => s

/-! ## Data to the host -/

/-- A piece of a transfer to the host: it ends at a boundary of the function's Max_Payload_Size, at most 512 octets (R434). -/
def pieceLen (s : State) (i : Fin 16) (a n : Nat) : Nat :=
  let m := sizeOctets (s.fnCfg i.val).mps 512
  min n (m - a % m)

/-- Octets written to host memory in TLPs of at most Max_Payload_Size; each octet with its poison mark. -/
def hostPieces : Nat → State → Fin 16 → Nat → List (Octet × Bool) → Bool → State
  | 0, s, _, _, _, _ => s
  | fuel + 1, s, i, a, o, ro =>
    if o.isEmpty then s
    else
      let k := pieceLen s i a o.length
      let p := o.take k
      hostPieces fuel (transmit s (.write i a (p.map Prod.fst) ro (p.any Prod.snd))) i (a + k) (o.drop k) ro

/-- Data of a command to the host; relaxed ordering as the function enables it (R441). The target of a forwarded command sends it to the root (R465). -/
def hostData (s : State) (i : Fin 16) (a : Nat) (o : List (Octet × Bool)) : State :=
  if !s.isRoot then sendMsg s (.hostData i a o)
  else hostPieces (o.length / 128 + 2) s i a o (s.fnCfg i.val).ro

def hostOctets (s : State) (i : Fin 16) (a : Nat) (o : List Octet) : State := hostData s i a (o.map (fun b => (b, false)))

end Sys2Proof.Machine
end

