-- ==== Sys2Proof/Machine/Scrub.lean ====
section
/-! DEFINITION. The Rasp scrubber (R319 to R323), the March and background tests (R325 to R330), repair and retirement (R331 to R334), and
the error log's reading (R336, R341). -/
namespace Sys2Proof.Machine

/-- Who may write SCR_CTL, SCR_RATE and SCR_TCMD (R337). -/
def mayWriteScr (s : State) (m : Master) : Bool :=
  match m with
  | .head => true
  | .pciein _ => s.pwr.mode = modeOpen
  | _ => false

/-! ## The repair map (R332) -/

/-- What the map records of a bank. -/
def Bank.toMap (b : Bank) : BankMap := { retired := b.retired, rused := b.rused, cused := b.cused, pendRows := b.pendRows }

/-- Whether copy A of the map is the one in use: valid, and of the higher sequence number where copy B is valid too. -/
def mapUsesA (r : Rst) : Bool := r.mapA.ok && (!r.mapB.ok || decide (r.mapB.seqno < r.mapA.seqno))

/-- The copy of the map in use; none when neither CRC is valid. -/
def mapInUse (r : Rst) : Option MapCopy := if mapUsesA r then some r.mapA else if r.mapB.ok then some r.mapB else none

/-- The map as the machine stands. -/
def mapNow (s : State) (seqno : Nat) : MapCopy :=
  { ok := true, seqno := seqno, pend := s.scr.memPend, used := s.scr.memUsed
    banks := (s.banks.map (fun x => (x.1, x.2.toMap))).filter (fun x => x.2 ≠ {}) }

/-- An update of the map writes the copy that is not in use with the next sequence number. -/
def saveMap (s : State) : State :=
  let c := mapNow s (((mapInUse s.rst).map (fun c => c.seqno + 1)).getD 1)
  { s with rst := if mapUsesA s.rst then { s.rst with mapB := c } else { s.rst with mapA := c } }

/-! ## Hard failures (R323, R333) -/

/-- A log entry that concerns a bank as a whole. -/
def bankErr (code : BitVec 6) (n pa : Nat) : ErrEntry := { code := code, bank := BitVec.ofNat 10 n, pa := BitVec.ofNat 34 pa }

/-- A bank is retired, RETIRE is logged, and a NOTICE is posted (R334, R421). -/
def retireLogged (s : State) (n pa : Nat) : State :=
  if (s.bank n).retired then s
  else
    let g := (s.bank n).granted
    postNotice (logErrs (saveMap (retireBank s n)) [bankErr errRetire n pa]) n g

/-- A hard failure in a row of a bank: a pending entry, its log entry, and retirement when the spares could not cover it (R333). -/
def hardBank (s : State) (n row col : Nat) (e : ErrEntry) : State :=
  let b := s.bank n
  if b.retired || b.pendRows.any (fun x => x.1.toNat = row) then s
  else
    let s := saveMap (s.setBank n { b with pendRows := b.pendRows ++ [(BitVec.ofNat 14 row, Fin.ofNat 16 col)] })
    let s := logErrs s [e]
    if b.pendRows.length + 1 > (32 - b.rused.toNat) + (2 - b.cused.toNat) then retireLogged s n e.pa.toNat else s

/-- A hard failure in a quad row of a scratchpad, the headstock SRAM or the staging pool becomes pending and is logged; one in a row that
already is pending adds nothing (R330, R332, R335). (DEDUCED: log entry 61) -/
def hardMem (s : State) (tester row : Nat) (e : ErrEntry) : State :=
  let l := tget [] s.scr.memPend tester
  if l.contains row then s
  else logErrs (saveMap { s with scr := { s.scr with memPend := tput [] s.scr.memPend tester (l ++ [row]) } }) [e]

/-- The tester of a memory region's address: the scratchpad's lathe, or 16 for the headstock SRAM. -/
def testerOf (pa : Nat) : Nat := match areaOf pa with | .scratch l => l | _ => 16

/-- The memory of a tester: its first word's place and its number of regions (R329). -/
def testerSpan (t : Nat) : Nat × Nat :=
  if t < 16 then (0o000400000000 + t * 0o1000000, 4096)
  else if t = 16 then (0o000440000000, 16384)
  else (stagingBase, 16384)

/-- Spare quad rows of a tester's memory (R331). -/
def memSpares (t : Nat) : Nat := if t < 16 then 64 else 128

/-- A hard failure at a nonet that the scrubber found; rows count from the first quad of their memory. (DEDUCED: log entry 61) -/
def hardAt (s : State) (r : Region) (pa j : Nat) : State :=
  match r with
  | .banks => hardBank s (bankOf s pa) (rowOf pa) (pa % 4 * 4 + j) (errAt s errHard pa j)
  | _ => hardMem s (testerOf pa) ((pa - (testerSpan (testerOf pa)).1) / 4) (errAt s errHard pa j)

/-! ## The scrubber (R319 to R322) -/

/-- First word address and number of quads of a region (R319). -/
def regionSpan : Region → Nat × Nat
  | .banks => (0, 2 ^ 24)
  | .scratch => (0o000400000000, 2 ^ 20)
  | .hsram => (0o000440000000, 2 ^ 18)

def walkOf (s : State) : Region → Walk
  | .banks => s.scr.walkBank
  | .scratch => s.scr.walkScratch
  | .hsram => s.scr.walkHsram
def setWalk (s : State) (r : Region) (w : Walk) : State :=
  match r with
  | .banks => { s with scr := { s.scr with walkBank := w } }
  | .scratch => { s with scr := { s.scr with walkScratch := w } }
  | .hsram => { s with scr := { s.scr with walkHsram := w } }

/-- RATE of a region (R339). -/
def scrubRate (s : State) : Region → BitVec 12
  | .banks => s.scr.rateBank
  | .scratch => s.scr.rateScratch
  | .hsram => s.scr.rateHsram

/-- Whether the scrubber skips a bank entirely (R63, R322). -/
def scrubSkips (s : State) (r : Region) (pa : Nat) : Bool :=
  match r with
  | .banks => let b := s.bank (bankOf s pa); b.isPending || b.retired || b.ownCl = 5
  | _ => false

/-- Whether the scrubber may write a quad (R63, R321). -/
def scrubMayWrite (s : State) (r : Region) (pa : Nat) : Bool :=
  match r with
  | .banks => let b := s.bank (bankOf s pa); !b.isPending && !b.sealed && !b.retired && b.ownCl ≠ 5
  | _ => true

/-- A write that waits for SCRUB_WRITEBACK, where the scrubber may write the quad (R321). -/
def addFix (s : State) (r : Region) (pa key : Nat) (v : Stored) (w : Walk) : Walk :=
  if scrubMayWrite s r pa then { w with fixes := w.fixes ++ [(key, v)] } else w

/-- What the scrubber makes of one nonet: a write to wait for, a mark for the next pass, a hard failure (R320, R323). -/
def scrubNonet (r : Region) (s : State) (paj : Nat × Nat) : State :=
  let key := 4 * placeOf s paj.1 + paj.2
  let x := s.cell key
  let w := walkOf s r
  if classify x = .correctable then
    let s' := setWalk s r (addFix s r paj.1 key (encNonet (delivered x)) { w with thisPass := w.thisPass ++ [key] })
    if w.lastPass.contains key then hardAt s' r paj.1 paj.2 else s'
  else if classify x = .uncorrectable then hardAt (setWalk s r (addFix s r paj.1 key poisonNonet w)) r paj.1 paj.2
  else s

/-- The number of the current 10 µs window of timebase ticks. -/
def scrubWindow (s : State) : Nat := s.tb.toNat / 1000

/-- Quad reads that the scrubber has issued in a region in the current window. -/
def readsNow (s : State) (r : Region) : Nat := let w := walkOf s r; if w.window = scrubWindow s then w.reads else 0

/-- Whether RATE lets the scrubber issue a read in a region: at most 10 × RATE in a window; a RATE of zero stops the walk (R319). -/
def scrubMayRead (s : State) (r : Region) : Bool := decide (readsNow s r < 10 * (scrubRate s r).toNat)

/-- The address of a region's next quad. -/
def scrubAddr (s : State) (r : Region) : Nat := (regionSpan r).1 + 4 * (walkOf s r).next

/-- SCRUB_READ: the region's next quad is read within the rate and each nonet judged; the walk restarts after its last quad (R319, R320). -/
def scrubRead (s : State) (r : Region) : State :=
  if !scrubMayRead s r then s
  else
    let n := (regionSpan r).2
    let pa := scrubAddr s r
    let s := setWalk s r { walkOf s r with window := scrubWindow s, reads := readsNow s r + 1 }
    let s :=
      if scrubSkips s r pa then s
      else
        let s := (List.range 4).foldl (fun s i => examine s false (pa + i) 0xF) s
        (List.range 16).foldl (fun s i => scrubNonet r s (pa + i / 4, i % 4)) s
    let w := walkOf s r
    setWalk s r (if w.next + 1 ≥ n then { w with next := 0, lastPass := w.thisPass, thisPass := [] } else { w with next := w.next + 1 })
def execScrubRead (r : Region) (s : State) : Host.Outcome State Fault Refusal := .next (scrubRead s r)

/-- SCRUB_WRITEBACK: the waiting writes of the oldest quad are made, each under a mask of one nonet, or cancelled (R320, R321). -/
def scrubWriteback (s : State) (r : Region) : State :=
  let w := walkOf s r
  match w.fixes with
  | [] => s
  | (k, _) :: _ =>
    let mine := w.fixes.filter (fun x => x.1 / 16 = k / 16)
    let s' := setWalk s r { w with fixes := w.fixes.filter (fun x => x.1 / 16 ≠ k / 16) }
    let ok : Bool := match r with
      | .banks => let b := s.bank (k / 262144); !b.isPending && !b.sealed && !b.retired && b.ownCl ≠ 5
      | _ => true
    if ok then mine.foldl (fun s x => s.setCell x.1 x.2) s' else s'
def execScrubWriteback (r : Region) (s : State) : Host.Outcome State Fault Refusal := .next (scrubWriteback s r)

/-! ## March runs (R325 to R328) -/

/-- Whether a GO is refused (R326). -/
def marchRefused (s : State) (first count : Nat) : Bool :=
  s.scr.march.isSome || first + count > 1023 ||
  (List.range (count + 1)).any (fun i => let b := s.bank (first + i); !b.retired && (b.ownCl ≠ 5 || b.isPending || b.sealed))

/-- The banks of a group that a run has still to test. -/
def marchBanks (s : State) (m : March) (g : Nat) : List Nat :=
  (groupBanks g).filter (fun n => m.first ≤ n && n ≤ m.last && (s.bank n).march)

/-- The run goes on with the first group from `g` on that holds a bank to test, or ends (R326, R343). -/
def marchNext (s : State) (m : March) (g : Nat) : State :=
  match (List.range 128).find? (fun i => decide (g ≤ i) && !(marchBanks s m i).isEmpty) with
  | some i => { s with scr := { s.scr with march := some { m with group := i }, cur := BitVec.ofNat 10 ((marchBanks s m i).headD 0) } }
  | none => { s with scr := { s.scr with march := none, done := true } }

/-- A run starts over those banks of a list that are not retired: PENDING in each (R326). -/
def marchOver (s : State) (ns : List Nat) (pres repair : Bool) (inst : Option (Fin 16)) : State :=
  let m : March := { first := ns.headD 0, last := ns.getLastD 0, pres := pres, repair := repair, group := 0, inst := inst }
  let s := { s with scr := { s.scr with cur := BitVec.ofNat 10 m.first, nfail := 0 } }
  let s := ns.foldl (fun s n => if (s.bank n).retired then s else dropFixes (s.modBank n (fun b => { b with march := true })) n) s
  marchNext s m 0

/-- A write of SCR_TCMD. -/
def scrTcmd (s : State) (w : Word) : State :=
  if !w.getLsbD 35 then s
  else
    let first := fld w 0 10
    let count := fld w 10 10
    if marchRefused s first count then { s with scr := { s.scr with rej := true } }
    else marchOver s ((List.range (count + 1)).map (first + ·)) (w.getLsbD 34) (w.getLsbD 33) none
def execMarchGo (m : Master) (w : Word) (s : State) : Host.Outcome State Fault Refusal :=
  .next (writeIf m 0o520005 (mayWriteScr s m) (fun s => scrTcmd s w) s)

/-- The nonets of the listed banks that the first reads of a preserving run examine (R317, R325): those that are stored otherwise than as the
clean zero nonet. A destroying run reads only what it has itself written, and as raw patterns. (DEDUCED: log entry 30) -/
def marchExamine (s : State) (ns : List Nat) : State :=
  (s.mem.filter (fun x => ns.contains (x.1 / 262144))).foldl (fun s x =>
    let n := x.1 / 262144
    examine s false (addrOfRow s n (x.1 / 16 % 16384) + x.1 / 4 % 4) (1#4 <<< (x.1 % 4))) s

/-- A nonet as a test keeps it: corrected, or the poison pattern (R325, R329). -/
def savedNonet (x : Stored) : Stored := if isBad x then poisonNonet else encNonet (delivered x)

/-- What a run leaves in the banks of a list: zero, or the corrected content (R325). -/
def marchContent (s : State) (ns : List Nat) (pres : Bool) : State :=
  let s := if pres then marchExamine s ns else s
  { s with mem := tmapKeys 0 (fun a v =>
    if !ns.contains (a / 262144) then v
    else if !pres then 0
    else savedNonet v) s.mem }

/-- Spares taken by a bank after its sequence, for the cells that failed and those of its pending hard failures: columns with failures in more than two
rows, then each row with a cell that no such column covers; retirement when they do not suffice (R331, R333). -/
def repairBank (s : State) (n : Nat) (fails : List CellFail) : State :=
  let b := s.bank n
  let cells := (fails.filter (fun f => f.bank.val = n)).map (fun f => (f.row, f.col)) ++ b.pendRows
  let rowsOf (c : Nat) : List (BitVec 14) := ((cells.filter (fun f => f.2.val = c)).map Prod.fst).eraseDups
  let cols := ((List.range 16).filter (fun c => (rowsOf c).length > 2)).take (2 - b.cused.toNat)
  let rows := ((cells.filter (fun f => !cols.contains f.2.val)).map Prod.fst).eraseDups
  let pa := addrOfRow s n 0
  if rows.length > 32 - b.rused.toNat then retireLogged s n pa
  else
    let s := saveMap (s.setBank n { b with rused := b.rused + BitVec.ofNat 6 rows.length, cused := b.cused + BitVec.ofNat 2 cols.length, pendRows := [] })
    logErrs s (List.replicate (rows.length + cols.length) (bankErr errRepair n pa))

/-- A log entry that concerns a failing cell of a bank. -/
def cellErr (s : State) (code : BitVec 6) (f : CellFail) : ErrEntry :=
  { (bankErr code f.bank.val (addrOfRow s f.bank.val f.row.toNat + f.col.val / 4)) with nonet := BitVec.ofNat 2 (f.col.val % 4) }

/-- The sequence of the group under test has ended: its failing cells, its content, its spares; PENDING clears in its banks and the run goes
on to the next group or ends (R325 to R328, R343). (DESIGN CHOICE: log entry 7) -/
def marchGroupDone (s : State) (fails : List CellFail) : State :=
  match s.scr.march with
  | none => s
  | some m =>
    let ns := marchBanks s m m.group
    let fails := fails.filter (fun f => ns.contains f.bank.val)
    let s := marchContent s ns m.pres
    let s := logErrs s (fails.map (cellErr s errMarch))
    let rows := (fails.map (fun f => (f.bank, f.row))).eraseDups.length
    let s := { s with scr := { s.scr with fail := s.scr.fail || !fails.isEmpty, nfail := satAdd s.scr.nfail rows } }
    let s := ns.foldl (fun s n => s.modBank n (fun b => applyHeld { b with march := false })) s
    let s := if m.repair then ns.foldl (fun s n => repairBank s n fails) s
      else fails.foldl (fun s f => hardBank s f.bank.val f.row.toNat f.col.val (cellErr s errHard f)) s
    marchNext { s with scr := { s.scr with cur := BitVec.ofNat 10 (ns.getLastD m.last) } } m (m.group + 1)

/-- The rest of a run ends with no further failing cell. -/
def marchRest : Nat → State → State
  | 0, s => s
  | n + 1, s => if s.scr.march.isNone then s else marchRest n (marchGroupDone s [])

/-! ## Background tests (R329, R330) -/

/-- A log entry that concerns a nonet of a tester's memory, by its index there. -/
def testerErr (code : BitVec 6) (t i : Nat) : ErrEntry :=
  { code := code, mem := if t < 16 then 1 else if t = 16 then 2 else 3, nonet := BitVec.ofNat 2 (i % 4),
    pa := BitVec.ofNat 34 ((if t < 17 then (testerSpan t).1 else 0) + i / 4) }

/-- The failing nonets of a tester's memory are logged and become pending hard failures (R330). -/
def testerFails (s : State) (t : Nat) (fails : List Nat) : State :=
  let s := logErrs s (fails.map (testerErr errBgTest t))
  fails.foldl (fun s i => hardMem s t (i / 16) (testerErr errHard t i)) s

/-- Whether a background tester may start a region: BGINT µs of the timebase after its last one; a BGINT of zero stops it (R13, R329). -/
def bgMayStart (s : State) (t : Nat) : Bool :=
  s.scr.bgint ≠ 0 && (match tget none s.scr.bgLast t with
    | none => true
    | some x => decide (100 * s.scr.bgint.toNat ≤ (s.tb - x).toNat))

/-- One region is tested, within the rate: its nonets are read and examined, come back as the save buffer held them, and the failing ones are
recorded. -/
def bgTest (s : State) (t : Nat) (fails : List (Fin 256)) : State :=
  if !bgMayStart s t then s
  else
    let (base, n) := testerSpan t
    let region := tget 0 s.scr.bgNext t
    let pa := base + 64 * region
    let s := (List.range 64).foldl (fun s i => examine s false (pa + i) 0xF) s
    let s := (List.range 256).foldl (fun s i =>
      let x := s.cell (4 * pa + i)
      if savedNonet x = x then s else s.setCell (4 * pa + i) (savedNonet x)) s
    let s := testerFails s t (fails.map (fun i => 256 * region + i.val))
    { s with scr := { s.scr with bgNext := tput 0 s.scr.bgNext t ((region + 1) % n), bgLast := tput none s.scr.bgLast t (some s.tb) } }
def execBgTestRegion (t : Fin 18) (fails : List (Fin 256)) (s : State) : Host.Outcome State Fault Refusal := .next (bgTest s t.val fails)

/-! ## The error log (R341) -/

/-- The words of SCR_ELOG0 and SCR_ELOG1. -/
def elog0 (s : State) : Word :=
  match s.scr.log with
  | [] => putB 34 s.scr.ovf
  | e :: _ => putB 35 true ||| putB 34 s.scr.ovf ||| put 28 6 e.code.toNat ||| put 26 2 e.mem.toNat ||| put 24 2 e.nonet.toNat |||
      put 19 5 e.syn.toNat ||| put 0 10 e.bank.toNat
def elog1 (s : State) : Word := match s.scr.log with | [] => 0 | e :: _ => e.pa.setWidth 36

/-- A read of SCR_ELOG1 removes the head entry. -/
def popElog (s : State) : State := { s with scr := { s.scr with log := s.scr.log.drop 1 } }

/-- The address of SCR_ELOG1 (R20, R341). -/
def elog1Addr : Nat := 0o000450520004

/-- ELOG_POP: a read of SCR_ELOG1 delivers the entry and removes it. -/
def elogPop (s : State) (m : Master) : State :=
  if hasPath s m elog1Addr then popElog (deliverReply s m elog1Addr [(elog1 s, false)] false) else pathError s m false elog1Addr
def execElogPop (m : Master) (s : State) : Host.Outcome State Fault Refusal := .next (elogPop s m)

end Sys2Proof.Machine
end

