-- ==== Sys2Proof/Machine/Time.lean ====
section
/-! DEFINITION. The passing of timebase ticks (R13, R15, R393): what counts while they pass. Nothing acts here: what is due at a tick acts in
Clock.lean. -/
namespace Sys2Proof.Machine

/-- Ticks of the resonator in one second (R15). -/
def ticksPerSecond : Nat := 100000000

/-- A counter over some ticks, not below zero. -/
def downBy {n : Nat} (c : BitVec n) (k : Nat) : BitVec n := BitVec.ofNat n (c.toNat - k)

/-- Ticks that the discipline of the second has omitted or inserted in its first `p` ticks (R393). (DEDUCED: log entry 34) -/
def disciplined (disc : Int) (p : Nat) : Nat :=
  if disc = 0 then 0 else min p ticksPerSecond / (ticksPerSecond / disc.natAbs)

/-- The count by which the timebase advances over `k` ticks of the resonator: each second under discipline omits or inserts its own (R393).
(DEDUCED: log entry 34) -/
def timebaseAdvance (ts : Ts) (k : Nat) : Nat :=
  ts.discs.foldl (fun n (e, p) =>
    let d := disciplined e (p + k) - disciplined e p
    if e > 0 then n - d else n + d) k

/-- The boot timer, in milliseconds, after some ticks (R504). -/
def bootAfter (r : Rst) (k : Nat) : Rst :=
  let n := r.remainSub + k
  { r with remain := downBy r.remain (n / 100000), remainSub := n % 100000 }

/-- Spindles that run a group of an instance (R423). (DESIGN CHOICE: log entry 35) -/
def runningSpindles (s : State) (i : Nat) : Nat :=
  s.groups.foldl (fun n (_, g) => match g with
    | some g => if g.started && g.inst.toNat = i then n + (g.parts.filter (fun p => !p.ended)).length else n
    | none => n) 0

/-- Ticks of a SHARE window, 100 ms of timebase. (DESIGN CHOICE: log entry 35) -/
def shareWindow : Nat := 10000000

/-- The spindle time of an instance's window after `k` counts of the timebase, in ticks (R423). (DESIGN CHOICE: log entry 35) -/
def shareAfter (s : State) (k i old : Nat) : Nat :=
  let t := s.tb.toNat + k
  if t / shareWindow = s.tb.toNat / shareWindow then old + k * runningSpindles s i else t % shareWindow * runningSpindles s i

/-- A cell's filter over `k` ticks: it counts while the stored bit differs from OUT (R364). -/
def Lut.after (k : Nat) (x : Lut) : Lut := { x with diff := if x.out = x.stored then 0 else x.diff + k }

/-- An event pin's filter and pulse over `k` ticks (R367, R368). -/
def Pin.after (k : Nat) (x : Pin) : Pin :=
  { x with diff := if x.dir || x.raw = x.level then 0 else x.diff + k, left := if x.pulsing then x.left - k else x.left }

/-- A running timer over `k` ticks (R366). -/
def Tmr.after (k : Nat) (x : Tmr) : Tmr := if x.run then { x with count := downBy x.count k } else x

/-- The counters of the event fabric (R364 to R369). -/
def Evf.after (k : Nat) (x : Evf) : Evf :=
  { x with
    tmr := tmapVals {} (Tmr.after k) x.tmr
    lut := tmapVals {} (Lut.after k) x.lut
    pins := tmapVals {} (Pin.after k) x.pins
    ppsDiff := if x.ppsRaw = x.pps then 0 else x.ppsDiff + k }

/-- A thread's watchdog, which counts while the thread is not halted (R274, R533). -/
def Thread.after (k : Nat) (t : Thread) : Thread := if t.mwdRun && !t.halted then { t with mwdCount := downBy t.mwdCount k } else t

/-- Which requests' timeouts run while ticks pass: those of held bursts and of the parts of split bursts, of outstanding accesses, and of the stalled
accesses of threads and of spindles (R351, R353). -/
structure Runs where
  held : Nat → Transfer → Bool
  part : Target × Burst × Nat → Bool
  load : PendLoad → Bool
  thr : Nat → Bool
  spn : Nat → Bool

/-- The timeouts of a thread's accesses (R353). -/
def Thread.asked (k : Nat) (r : Runs) (i : Nat) (t : Thread) : Thread :=
  { t with
    loads := t.loads.map (fun p => if r.load p then { p with ticks := p.ticks + k } else p)
    askTicks := if r.thr i then t.askTicks + k else 0 }

/-- The time that a part takes to drain (R133). -/
def Part.after (k : Nat) (p : Part) : Part := if p.drained && !p.ended then { p with drainTicks := p.drainTicks + k } else p

/-- The handshake timeouts of held bursts and of the parts of split bursts, none of which runs before a full converter (R351, R353), and the
converters' queues, from each of which a burst leaves at a tick. (DESIGN CHOICE: log entry 31) -/
def Fab.after (k : Nat) (r : Runs) (x : Fab) : Fab :=
  { x with
    arb := tmapKeys {} (fun key a => { a with held := a.held.map (fun t => if r.held key t then { t with ticks := t.ticks + k } else t) }) x.arb
    rest := x.rest.map (fun p => if r.part p then (p.1, p.2.1, p.2.2 + k) else p)
    conv := tmapVals 0 (· - k) x.conv }

/-- A command's time since its doorbell, until its end (R428). -/
def Slot.after (k : Nat) (x : Slot) : Slot := if x.st = 1 || x.st = 2 || x.st = 3 then { x with ticks := x.ticks + k } else x

/-- The counters of the headstock: SHARE windows and deadlines (R423, R428). -/
def headCount (s : State) (k : Nat) : Hs :=
  { s.hs with
    insts := tmapKeys {} (fun i x => { x with spindleTime := shareAfter s (timebaseAdvance s.ts k) i x.spindleTime }) s.hs.insts
    slots := tmapVals {} (Slot.after k) s.hs.slots }

/-- The boot timer and the headstock watchdog (R492, R504). -/
def Rst.after (k : Nat) (r : Rst) : Rst :=
  let r := bootAfter r k
  if r.hswdEn then { r with hswdCount := downBy r.hswdCount k } else r

/-- The tailstock's own clock: resonator ticks, the seconds under discipline, a lockdown in progress (R13, R393, R408). -/
def Ts.after (k : Nat) (x : Ts) : Ts :=
  { x with
    ticks := x.ticks + BitVec.ofNat 72 k
    discs := x.discs.map (fun d => (d.1, d.2 + k))
    lockTicks := if x.pendingLock.isSome then x.lockTicks + k else x.lockTicks }

/-- The MRAM writes of the next staged entry and of the oldest checkpoint, while they are outstanding (R400). -/
def Jnl.after (k : Nat) (x : Jnl) : Jnl :=
  { x with
    wrTicks := if x.written < x.head then x.wrTicks + k else x.wrTicks
    ckTicks := if x.ckptBusy.isEmpty then x.ckTicks else x.ckTicks + k }

/-- The debug session, and the high time inside a frame (R527, R538). -/
def Dbg.after (k : Nat) (x : Dbg) : Dbg :=
  let x := if x.frame then { x with gap := x.gap + k } else x
  if x.opened then { x with expiry := x.expiry - k, idle := x.idle + k } else x

/-- The timebase and every counter of its domain after `k` ticks at none of which anything is due; `runs` says which requests' timeouts run. (DEDUCED and DESIGN CHOICE: log entries 2, 9, 19, 59) -/
def countTicks (s : State) (k : Nat) (runs : Runs) : State :=
  { s with
    tb := s.tb + BitVec.ofNat 72 (timebaseAdvance s.ts k)
    ts := s.ts.after k
    jnl := s.jnl.after k
    evf := s.evf.after k
    threads := tmapKeys {} (fun i t => (t.after k).asked k runs i) s.threads
    spindles := tmapKeys {} (fun i x => { x with askTicks := if runs.spn i then x.askTicks + k else 0 }) s.spindles
    lathes := tmapVals {} (fun x => if x.locked then { x with lockTicks := x.lockTicks + k } else x) s.lathes
    banks := tmapVals {} (fun b => if b.drain.isSome then { b with drainTicks := b.drainTicks + k } else b) s.banks
    groups := tmapVals none (fun g => g.map (fun g => { g with parts := g.parts.map (Part.after k) })) s.groups
    fab := s.fab.after k runs
    wov := { s.wov with ops := s.wov.ops.map (fun o => { o with ticks := o.ticks + k }) }
    hs := headCount s k
    rst := s.rst.after k
    dbg := s.dbg.after k }

end Sys2Proof.Machine
end

