-- ==== Sys2Proof/Machine/EvfOps.lean ====
section
/-! DEFINITION. The event fabric's commands of no duration, the moves of PPS and of an input pin with the PPS discipline (R357 to R369, R393),
and the EVF registers (R371 to R376). -/
namespace Sys2Proof.Machine

def execHeldEventPass (c : Fin 128) (s : State) : Host.Outcome State Fault Refusal := .next (passHeld s c.val)
def execRememberedTrigger (n : BitVec 10) (s : State) : Host.Outcome State Fault Refusal := .next (deliverRemembered s n.toNat)

/-- The address of EVF_FIRE (R20, R372). -/
def evfFireAddr : Nat := 0o000450460200

/-- EVF_FIRE: any master with a path to the registers fires a channel (R357, R372). -/
def evfFire (s : State) (m : Master) (w : Word) : State :=
  if hasPath s m evfFireAddr then fireChannel s (fld w 0 7) else pathError s m true evfFireAddr
def execEvfFire (m : Master) (w : Word) (s : State) : Host.Outcome State Fault Refusal := .next (evfFire s m w)

/-- A rising PPS edge disciplines the timebase over the next second; what is left of the second before runs on (R393). -/
def ppsEdge (ts : Ts) : Ts :=
  match ts.ppsLast with
  | none => { ts with ppsLast := some ts.ticks }
  | some l =>
    let e : Int := ((ts.ticks - l).toNat : Int) - ticksPerSecond
    if e.natAbs > 1000 then { ts with ppsLast := some ts.ticks, locked := false, ppsGood := 0 }
    else
      let good := if e.natAbs ≤ 2 then ts.ppsGood + 1 else 0
      { ts with ppsLast := some ts.ticks, err := BitVec.ofInt 11 e, ppsGood := good, locked := ts.locked || decide (good ≥ 8),
                discs := (e, 0) :: ts.discs.filter (fun d => decide (d.2 < ticksPerSecond)) }

/-- The PPS level after its filter has moved; a rising edge disciplines the timebase (R369, R393). -/
def ppsTo (s : State) (b : Bool) : State :=
  let s := if b then { s with ts := ppsEdge s.ts } else s
  { s with evf := { s.evf with pps := b, ppsDiff := 0 } }

/-- An input pin's level after its filter has moved (R367). -/
def pinTo (s : State) (p : Nat) (b : Bool) : State := s.modPin p (fun x => { x with level := b, diff := 0 })

/-- The ticks since the last rising PPS edge, or since power came (R393). -/
def sincePps (ts : Ts) : Nat := match ts.ppsLast with | some l => (ts.ticks - l).toNat | none => ts.ticks.toNat

/-! ## Registers -/

/-- Who may write the EVF registers other than EVF_FIRE. -/
def mayWriteEvf (s : State) (m : Master) : Bool :=
  match m with
  | .head => true
  | .core th => (s.thr th).level = .machine
  | .pciein _ => s.pwr.mode = modeOpen
  | _ => false

/-- Whether an EVF offset names a register (R370); the reserved inputs of R361 take no write. -/
def evfAssigned (off : Nat) : Bool :=
  decide (off < 0o202) || (decide (0o400 ≤ off) && decide (off < 0o520)) || (decide (0o600 ≤ off) && decide (off < 0o640)) ||
    (decide (0o1000 ≤ off) && decide (off < 0o2700) && decide (consumerOf (off - 0o1000) ≠ .reserved))

/-- The word of EVF_CIN. -/
def cinWord (x : Cin) : Word :=
  putB 35 x.en ||| putB 34 x.mode ||| putB 33 x.cen ||| putB 32 x.ovr ||| putB 31 x.pend ||| put 23 8 x.tmask.toNat |||
    put 15 8 x.ccnt.toNat ||| put 8 7 x.cch.toNat ||| put 0 7 x.ch.toNat

/-- A read of an EVF register; RC fields are cleared. -/
def evfRead (s : State) (off : Nat) : State × Word :=
  if off < 0o200 then
    let x := s.chan off
    (s, putB 35 x.level ||| putB 34 x.merge ||| put 9 2 x.edge.toNat ||| put 0 9 x.psel.toNat)
  else if off = 0o201 then
    ({ s with evf := { s.evf with cancnt := 0, ovrcnt := 0 } }, put 18 18 s.evf.cancnt.toNat ||| put 0 18 s.evf.ovrcnt.toNat)
  else if 0o400 ≤ off ∧ off < 0o500 then
    let x := s.lut ((off - 0o400) / 2)
    (s, if off % 2 = 0 then put 21 7 x.in3.toNat ||| put 14 7 x.in2.toNat ||| put 7 7 x.in1.toNat ||| put 0 7 x.in0.toNat
      else putB 35 x.out ||| putB 34 x.ff ||| put 27 7 x.clk.toNat ||| put 19 8 x.filt.toNat ||| put 0 16 x.tt.toNat)
  else if 0o500 ≤ off ∧ off < 0o520 then
    let x := s.epin (off - 0o500)
    (s, putB 35 (if x.dir then x.drive else x.level) ||| putB 34 x.dir ||| put 32 2 x.omode.toNat ||| put 24 8 x.filt.toNat ||| put 0 16 x.width.toNat)
  else if 0o600 ≤ off ∧ off < 0o640 then
    let x := s.tmr ((off - 0o600) / 2)
    (s, if off % 2 = 0 then putB 35 x.run ||| putB 34 x.per ||| put 0 30 x.count.toNat else put 0 30 x.reload.toNat)
  else if 0o1000 ≤ off ∧ off < 0o2700 then
    let n := off - 0o1000
    if consumerOf n = .reserved then (s, 0) else (s.modCin n (fun x => { x with ccnt := 0 }), cinWord (s.cin n))
  else (s, 0)

/-- A channel that selects another producer takes its level where that is a level producer; no event fires. -/
def chWrite (s : State) (c : Nat) (w : Word) : State :=
  s.modChan c (fun x =>
    let psel := w.extractLsb' 0 9
    let edge := w.extractLsb' 9 2
    let x := { x with merge := x.merge && !w.getLsbD 34, edge := if edge = 3 then x.edge else edge,
                      psel := if pselReserved psel.toNat then x.psel else psel }
    { x with level := (producerLevel s x.psel.toNat).getD x.level })

/-- A write of EVF_CIN; TMASK is zero outside the lathe lines. -/
def cinWrite (s : State) (n : Nat) (w : Word) : State :=
  match consumerOf n with
  | .reserved => s
  | c =>
    let isLine : Bool := match c with | .line _ _ => true | _ => false
    s.modCin n (fun x => { x with
      en := w.getLsbD 35, mode := w.getLsbD 34, cen := w.getLsbD 33, ovr := x.ovr && !w.getLsbD 32,
      tmask := if isLine then w.extractLsb' 23 8 else 0, cch := w.extractLsb' 8 7, ch := w.extractLsb' 0 7 })

/-- A write of EVF_PINp; FILT and WIDTH wait for the tick that captures them (R15). A pulse that is being driven ends where the pin is no longer a pulse output. (DESIGN CHOICE: log entry 33) -/
def pinWrite (w : Word) (x : Pin) : Pin :=
  let dir := w.getLsbD 34
  let omode := if w.extractLsb' 32 2 = 3 then x.omode else w.extractLsb' 32 2
  { x with written := true, dir := dir, omode := omode, filtAsk := some (w.extractLsb' 24 8), widthAsk := some (w.extractLsb' 0 16),
           pulsing := x.pulsing && dir && omode = 1 }

/-- A write of an EVF register by a master that may write it; what stands in the timebase domain, a timer's settings and the
filters, waits for the tick that captures it (R15). -/
def evfWrite (s : State) (off : Nat) (w : Word) : State :=
  let s :=
    if off < 0o200 then chWrite s off w
    else if off = 0o200 then fireChannel s (fld w 0 7)
    else if 0o400 ≤ off ∧ off < 0o500 then
      s.modLut ((off - 0o400) / 2) (fun x =>
        if off % 2 = 0 then { x with in3 := w.extractLsb' 21 7, in2 := w.extractLsb' 14 7, in1 := w.extractLsb' 7 7, in0 := w.extractLsb' 0 7 }
        else { x with ff := w.getLsbD 34, clk := w.extractLsb' 27 7, filtAsk := some (w.extractLsb' 19 8), tt := w.extractLsb' 0 16 })
    else if 0o500 ≤ off ∧ off < 0o520 then
      s.modPin (off - 0o500) (pinWrite w)
    else if 0o600 ≤ off ∧ off < 0o640 then
      s.modTmr ((off - 0o600) / 2) (fun x =>
        if off % 2 = 0 then { x with perAsk := some (w.getLsbD 34) } else { x with reloadAsk := some (w.extractLsb' 0 30) })
    else if 0o1000 ≤ off ∧ off < 0o2700 then cinWrite s (off - 0o1000) w
    else s
  settleFabric s

end Sys2Proof.Machine
end

