-- ==== Sys2Proof/Machine/Tail.lean ====
section
/-! DEFINITION. The tailstock: the journal (R395 to R402), leaves, roots and seal contexts (R377 to R388), seal records (R389 to R391), and
the tamper response up to the reset that ends it (R406 to R409). -/
namespace Sys2Proof.Machine

/-! ## The journal (R395 to R401) -/

/-- Journal kinds (R397). -/
def jACCEPT : BitVec 8 := 0o01
def jFINISH : BitVec 8 := 0o02
def jCHKPT : BitVec 8 := 0o03
def jMODE : BitVec 8 := 0o04
def jTIMESET : BitVec 8 := 0o05
def jDBGOPEN : BitVec 8 := 0o06
def jTAMPER : BitVec 8 := 0o07
def jUPDATE : BitVec 8 := 0o10
def jRESET : BitVec 8 := 0o11
def jDRAIN : BitVec 8 := 0o12

/-- Entries of the ring, and of the staging buffer (R395, R399). -/
def ringEntries : Nat := 786432
def stagingEntries : Nat := 256

/-- DEVSN as seal records carry it (R389, R395). -/
def devsnOctets (s : State) : List Octet := leOctets 8 s.fus.devsn

/-- The chain value of the entry committed last; H_0 before any (R395). -/
def jnlHash (s : State) : List Octet := if s.jnl.hash = [] then sha3 (0x03 :: devsnOctets s) else s.jnl.hash

/-- Octets brought to a length. -/
def fit (n : Nat) (o : List Octet) : List Octet := o.take n ++ List.replicate (n - o.length) 0

/-- The 64 octets of an entry (R396). -/
def entryBytes (n : Nat) (e : JEntry) : List Octet :=
  leOctets 8 (BitVec.ofNat 64 n) ++ leOctets 8 e.body.ref ++ leOctets 9 e.time ++
    [e.body.kind, e.body.inst, e.body.mbx, e.body.slot, 0] ++ leOctets 2 e.body.code ++ fit 16 e.body.dig ++ fit 16 e.link

/-- Sealed and Deterministic mode, in which nothing undrained is overwritten (R401). -/
def sealedMode (s : State) : Bool := s.pwr.mode = 5 || s.pwr.mode = 7

/-- An entry is placed in the staging buffer with the next sequence number (R399). Every 4,096th entry and every DRAIN is checkpointed
(R398); a TIMESET's number is kept for the seal records (R389). -/
def commitNow (s : State) (p : JProto) : State :=
  let n := s.jnl.head + 1
  let h := jnlHash s
  let e : JEntry := { body := p, time := s.tb, link := h.take 16 }
  let s := { s with jnl := { s.jnl with entries := s.jnl.entries ++ [(n, e)], head := n, hash := sha3 (h ++ entryBytes n e) } }
  let s := if p.kind = jTIMESET then { s with ts := { s.ts with tsetSeq := BitVec.ofNat 64 n } } else s
  if n % 4096 = 0 || p.kind = jDRAIN then startCheckpoint s else s

/-- Whether the staging buffer takes an entry now (R399). -/
def canCommit (s : State) : Bool := s.jnl.withheld.isEmpty && decide (s.jnl.head - s.jnl.written < stagingEntries)

/-- A slot whose FINISH is journalled becomes DONE, if it still holds the command, and the entry is posted (R421, R422). -/
def finishSlot (s : State) (f : Option (SlotRef × Entry)) : State :=
  match f with
  | none => s
  | some (r, e) =>
    let s := if (s.slot r).st = 3 && (s.slot r).jseq = e.jseq then
        s.modSlot r (fun x => { x with st := 4, status := e.status, qpos := 0, job := none, ended := false }) else s
    postEntry s r.i e

/-- Commits an entry, or keeps it withheld until the buffer has room. A frozen journal takes none, nor one whose head is not resolved
(R402, R482, R511). (DEDUCED: log entry 38) -/
def commitWith (s : State) (p : JProto) (f : Option (SlotRef × Entry)) : State :=
  if s.jnl.frozen || !s.jnl.resolved then finishSlot s f
  else if canCommit s then finishSlot (commitNow s p) f
  else { s with jnl := { s.jnl with withheld := s.jnl.withheld ++ [(p, f)] } }

def commit (s : State) (p : JProto) : State := commitWith s p none

/-- Withheld entries are committed, in order, while the buffer takes them; a frozen journal takes none of them (R402). -/
def flushWithheld : Nat → State → State
  | 0, s => s
  | fuel + 1, s =>
    match s.jnl.withheld with
    | [] => s
    | (p, f) :: r =>
      let s' := { s with jnl := { s.jnl with withheld := [] } }
      let rest (t : State) : State := { t with jnl := { t.jnl with withheld := r } }
      if s.jnl.frozen then flushWithheld fuel (rest (finishSlot s' f))
      else if canCommit s' then flushWithheld fuel (rest (finishSlot (commitNow s' p) f))
      else s

def flushJournal (s : State) : State := flushWithheld s.jnl.withheld.length s

/-- The next staged entry is written to MRAM, then head copy A, the counter and head copy B (R399). An undrained entry that it
overwrites sets OVWR (R401). -/
def writeStaged (s : State) : State :=
  let j := s.jnl
  if j.written ≥ j.head then s
  else
    let n := j.written + 1
    let s := { s with
      jnl := { j with written := n, wrTicks := 0, copyA := n, copyB := n, entries := j.entries.filter (fun e => e.1 + ringEntries ≠ n),
                      ovwr := j.ovwr || decide (n > ringEntries + j.drained) }
      rst := { s.rst with ctrHead := s.rst.ctrHead.write n } }
    flushJournal (updateJnlFill s)

/-- Whether the ring has a position for the next staged entry: in Sealed and Deterministic mode no entry is overwritten before it is
drained (R401). -/
def ringTakes (s : State) : Bool := !(sealedMode s && decide (s.jnl.written + 1 > ringEntries + s.jnl.drained))

/-- JOURNAL_WRITE: the next staged entry reaches MRAM; one that finds no free position waits in the staging buffer (R399, R401). -/
def journalWrite (s : State) : State := if ringTakes s then writeStaged s else s
def execJournalWrite (s : State) : Host.Outcome State Fault Refusal := .next (journalWrite s)

/-- Every staged entry reaches MRAM. -/
def drainStaging : Nat → State → State
  | 0, s => s
  | fuel + 1, s => if s.jnl.written ≥ s.jnl.head then s else drainStaging fuel (writeStaged s)

/-- Staged entries reach MRAM while the ring has positions for them (R399, R401). -/
def drainRing : Nat → State → State
  | 0, s => s
  | fuel + 1, s => if s.jnl.written ≥ s.jnl.head || !ringTakes s then s else drainRing fuel (writeStaged s)

/-- What a system reset and a boot write of the staging buffer; an entry without a position stays in it (R401). (DEDUCED: log entry 38) -/
def settleStaging (s : State) : State := drainRing (s.jnl.head - s.jnl.written + s.jnl.withheld.length) s

/-- The staging buffer and the head are written in full: the hold-up of R399 and the entry to Rest (R518). (DEDUCED: log entry 38) -/
def flushStaging (s : State) : State := drainStaging (s.jnl.head - s.jnl.written + s.jnl.withheld.length) s

/-- The 72 signed octets of a checkpoint record (R398). -/
def ckptOctets (s : State) (c : Ckpt) : List Octet :=
  [0x5A, 0x4C, 0x44, 0x52, 0x01, 0x00, 0x02, c.mode.setWidth 8] ++ devsnOctets s ++ leOctets 8 (BitVec.ofNat 64 c.seqno) ++
    leOctets 9 c.time ++ List.replicate 7 0 ++ (if c.hash = [] then sha3 (0x03 :: devsnOctets s) else c.hash)

/-- The key signs while it is present and no lockdown is under way (R408). -/
def keyOk (s : State) : Bool := s.ts.wrapKey && !s.ts.lockdn && s.pwr.intact

/-- CHECKPOINT_WRITTEN: the oldest waiting checkpoint is signed and written to its slot, and its CHKPT entry is committed. The final one of
a lockdown freezes the journal (R398, R408). -/
def checkpointWritten (s : State) : State :=
  match s.jnl.ckptBusy with
  | [] => s
  | c :: r =>
    if !keyOk s then s
    else
      let o := ckptOctets s c
      let k := c.seqno / 4096 % 4096
      let s := { s with jnl := { s.jnl with ckptBusy := r, ckTicks := 0, ckpts := tput [] s.jnl.ckpts k (o ++ fit 96 (deviceSignature o)) } }
      let s := commit s { kind := jCHKPT, ref := BitVec.ofNat 64 c.seqno, code := BitVec.ofNat 16 k }
      if s.ts.pendingLock.isSome && r.isEmpty then flushJournal { s with jnl := { s.jnl with frozen := true } } else s
def execCheckpointWritten (s : State) : Host.Outcome State Fault Refusal := .next (checkpointWritten s)

/-- Commands accepted and not finished, of any instance (R401). -/
def outstanding (s : State) : Nat := (s.hs.slots.filter (fun x => x.2.st = 3)).length

/-- Whether R401 refuses a further command: fewer than 4,096 entries would remain free beyond its ACCEPT and every FINISH. -/
def journalFull (s : State) : Bool :=
  sealedMode s && decide (ringEntries < (s.jnl.head - s.jnl.drained) + 1 + (outstanding s + 1) + 4096)

/-! ## Leaves and roots (R377 to R379) -/

/-- Words 4,096 j to 4,096 j + 4,095 (R378). -/
def leafWords (ws : List Word) (j : Nat) : List Word := (ws.drop (4096 * j)).take 4096
def leafDigestOf (ws : List Word) (j : Nat) : List Octet := sha3 (0x00 :: pack9 (leafWords ws j))
def leafCount (ws : List Word) : Nat := (ws.length + 4095) / 4096

/-- The node over 2^e leaves from `lo` on (R379). -/
def treeNode (leaves : List (List Octet)) : Nat → Nat → Option (List Octet)
  | 0, lo => leaves[lo]?
  | e + 1, lo =>
    match treeNode leaves e lo, treeNode leaves e (lo + 2 ^ e) with
    | some a, some b => some (sha3 (0x01 :: a ++ b))
    | a, none => a
    | none, b => b

/-- The root over leaf digests; of no leaves, SHA3-256(0x02) (R379). -/
def rootOfLeaves (leaves : List (List Octet)) : List Octet :=
  if leaves.isEmpty then sha3 [0x02] else (treeNode leaves (bitLen (leaves.length - 1)) 0).getD []

def rootOfWords (ws : List Word) : List Octet := rootOfLeaves ((List.range (leafCount ws)).map (leafDigestOf ws))

/-- The places of an output slot's sealed words, in order: what each holds (R377). -/
def OutSlot.laid (o : OutSlot) : List (Option Word) :=
  o.spans.flatMap (fun (g, n) => (List.range n).map (fun i => tget none o.words (2 ^ 22 * g + i)))

/-- Leaf `j` of the places. -/
def OutSlot.leaf (o : OutSlot) (j : Nat) : List (Option Word) := (o.laid.drop (4096 * j)).take 4096

/-- The sealed words that an output slot holds, in order (R377). -/
def OutSlot.sealedWords (o : OutSlot) : List Word := o.laid.filterMap id

/-- The leaves of an output slot, those that other devices sent among them. -/
def OutSlot.leaves (o : OutSlot) : Nat := o.away.foldl (fun n x => max n (x.1 + 1)) ((o.laid.length + 4095) / 4096)

/-- The sealed words that an output slot holds or that digests of other devices stand for (R377, R470). -/
def OutSlot.len (o : OutSlot) : Nat :=
  ((List.range o.leaves).map (fun j => match tget none o.away j with | some a => a.words | none => ((o.leaf j).filterMap id).length)).sum

/-- The digest of leaf `j`: as another device sent it, as it arrived, or over the words that the slot holds (R378, R380). -/
def OutSlot.leafValue (o : OutSlot) (j : Nat) : List Octet :=
  match tget none o.away j with
  | some a => a.digest
  | none => let d := tget [] o.digests j
            if d = [] then sha3 (0x00 :: pack9 ((o.leaf j).filterMap id)) else d

/-- The root of an output slot. Where a word of it has not been written, the words that it holds close up (R379, R380). (DEDUCED: log entry 37) -/
def OutSlot.root (o : OutSlot) : List Octet :=
  if (List.range o.leaves).all (fun j => (tget none o.away j).isSome || (o.leaf j).all Option.isSome) then
    rootOfLeaves ((List.range o.leaves).map o.leafValue)
  else rootOfWords o.sealedWords

def State.outSlot (s : State) (c k : Nat) : OutSlot := tget {} (s.ctx c).outs k
def State.modOut (s : State) (c k : Nat) (f : OutSlot → OutSlot) : State := s.modCtx c (fun x => { x with outs := tmod {} x.outs k f })
def State.inSlot (s : State) (c k : Nat) : InSlot := tget {} (s.ctx c).ins k
def State.modIn (s : State) (c k : Nat) (f : InSlot → InSlot) : State := s.modCtx c (fun x => { x with ins := tmod {} x.ins k f })

/-- A stale message is discarded and counted (R385). -/
def countStale (s : State) : State := { s with ts := { s.ts with stale := satAdd s.ts.stale 1 } }

/-- A message of a seal engine reaches the tailstock, from another device as a headstock message (R358, R470): whether it is heard, and the state. A
closed context hears none, and one of another epoch is discarded and counted (R385). -/
def sealMessage (s : State) (c : Nat) (ep : BitVec 9) (dev : Option Nat) : Bool × State :=
  let s := match dev with | some d => linkPulse s d | none => s
  if (s.ctx c).st = .closed then (false, s)
  else if ep ≠ (s.ctx c).epoch then (false, countStale s)
  else (true, s)

/-- A leaf of an output slot whose words are complete. -/
def OutSlot.ready (o : OutSlot) (j : Nat) : Bool := !(o.leaf j).isEmpty && (o.leaf j).all Option.isSome

/-- The digest of a leaf that the spindles here have completed for a context of another device leaves for it, with what it stands for and the poisoned
elements counted since the slot's last (R380, R470). -/
def sendLeaf (c : Nat) (k : Fin 16) (j : Nat) (ep : BitVec 9) (s : State) (home : BitVec 6) : State :=
  let o := s.outSlot c k.val
  if !o.ready j || ep ≠ (s.ctx c).epoch then s
  else
    let ws := (o.leaf j).filterMap id
    let s := sendMsg s (.leaf home (BitVec.ofNat 8 c) k j ep { words := ws.length, pcnt := o.pcnt, digest := sha3 (0x00 :: pack9 ws) })
    s.modOut c k.val (fun o => { o with pcnt := 0 })

/-- What stands here for contexts of other devices with a number. -/
def guestsOf (s : State) (c : BitVec 8) : List (Nat × BitVec 6) :=
  s.ts.ctxs.filterMap (fun x => if decide (256 ≤ x.1 ∧ x.1 % 256 = c.toNat) && x.2.st ≠ .closed then x.2.home.map (fun h => (x.1, h)) else none)

/-- LEAF_DIGEST: the digest of a leaf whose words are complete reaches the tailstock, or leaves for that of the context's device; one that another device
sends brings what it stands for, and the words held here of that leaf are among it (R380, R385, R470). (DESIGN CHOICE: log entry 37) -/
def leafDigest (s : State) (c : BitVec 8) (k : Fin 16) (j : Nat) (ep : BitVec 9) (away : Option (BitVec 6 × AwayLeaf)) : State :=
  let s := if away.isNone then (guestsOf s c).foldl (fun s x => sendLeaf x.1 k j ep s x.2) s else s
  match sealMessage s c.toNat ep (away.map (fun a => a.1.toNat)) with
  | (false, s) => s
  | (true, s) =>
    match away with
    | some (_, a) => s.modOut c.toNat k.val (fun o => { o with away := tput none o.away j (some a), pcnt := o.pcnt + a.pcnt })
    | none =>
      if !(s.outSlot c.toNat k.val).ready j then s
      else s.modOut c.toNat k.val (fun o => { o with digests := tput [] o.digests j (sha3 (0x00 :: pack9 ((o.leaf j).filterMap id))) })
def execLeafDigest (c : BitVec 8) (k : Fin 16) (j : LeafRef) (ep : BitVec 9) (s : State) : Host.Outcome State Fault Refusal :=
  .next (leafDigest s c k j.leaf ep j.away)

/-- SPONGE_STATE: a state passes to the next holder of a leaf, which the words of the slot stand for, so that the slot it names does not change; a stale one is discarded
(R380, R385). -/
def spongeState (s : State) (c : BitVec 8) (ep : BitVec 9) (away : Option (BitVec 6)) : State :=
  (sealMessage s c.toNat ep (away.map BitVec.toNat)).2
def execSpongeState (c : BitVec 8) (_ : Fin 16) (ep : BitVec 9) (away : Option (BitVec 6)) (s : State) : Host.Outcome State Fault Refusal :=
  .next (spongeState s c ep away)

/-! ## Input slots (R387, R388) -/

/-- The banks that hold a word of a physical range. -/
def banksOfRange (s : State) (first n : Nat) : List Nat :=
  if n = 0 then []
  else
    let q0 := first / 4
    let q1 := (first + n - 1) / 4
    (((List.range (q1 / 2 ^ 17 + 1 - q0 / 2 ^ 17)).flatMap (fun i =>
      let g := q0 / 2 ^ 17 + i
      let lo := max q0 (g * 2 ^ 17)
      let hi := min q1 (g * 2 ^ 17 + 2 ^ 17 - 1)
      if hi - lo ≥ 15 then groupBanks g else (List.range (hi + 1 - lo)).map (fun j => bankOf s (4 * (lo + j)))))).eraseDups

/-- A slot takes hold of its range's banks: LOCK where no slot held one (R388). (DEDUCED and DESIGN CHOICE: log entry 37) -/
def holdRange (s : State) (first n : Nat) : State :=
  (banksOfRange s first n).foldl (fun s b =>
    let k := tget 0 s.ts.lockCnt b
    let s := { s with ts := { s.ts with lockCnt := tput 0 s.ts.lockCnt b (k + 1) } }
    if k = 0 then lockAt s b else s) s

/-- A slot lets its range's banks go: RELEASE where it was the last (R388). -/
def freeRange (s : State) (first n : Nat) : State :=
  (banksOfRange s first n).foldl (fun s b =>
    let k := tget 0 s.ts.lockCnt b
    let s := { s with ts := { s.ts with lockCnt := tput 0 s.ts.lockCnt b (k - 1) } }
    if k = 1 then s.modBank b releaseBank else s) s

/-- The words of a physical range, a poisoned nonet as zero data, with the count of poisoned words (R377, R381). -/
def rangeWords (s : State) (first n : Nat) : List (Word × Bool) :=
  (List.range n).map (fun i =>
    let p := placeOf s (first + i)
    ((List.range 4).foldl (fun (w : Word) j =>
      let x := s.cell (4 * p + j)
      if isBad x then w else w ||| (delivered x).setWidth 36 <<< (9 * j)) 0, (s.readWord p).2))

/-- RESULT0 and RESULT1 of a binding: the first 16 octets of the root (R426). -/
def rootResults (root : List Octet) : BitVec 64 × BitVec 64 :=
  (BitVec.ofNat 64 (octetsToNat (root.take 8)), BitVec.ofNat 64 (octetsToNat ((root.drop 8).take 8)))

/-- A slot is bound to a range with the root over its words, each of which the hashing examines (R317, R318, R387). -/
def bindSlot (s : State) (c k first n : Nat) : State × List Octet :=
  let ws := rangeWords s first n
  let s := (List.range n).foldl (fun s i => examine s false (first + i) 0xF) s
  let root := rootOfWords (ws.map Prod.fst)
  (s.modIn c k (fun x => { x with bound := true, hashing := false, broken := false, first := first, words := n, root := root,
                                  pcnt := (ws.filter Prod.snd).length, owner := none }), root)

/-- Every input slot of a context lets its banks go (R388). -/
def unbindAll (s : State) (c : Nat) : State :=
  (s.ctx c).ins.foldl (fun s (_, x) => if x.bound || x.hashing then freeRange s x.first x.words else s) s

/-- A context is gone: closed, or abandoned unsigned; its saved state leaves the pool, and devices to which groups of it have moved are told (R470). -/
def dropCtx (s : State) (c : Nat) : State :=
  let x := s.ctx c
  let held := x.outs.foldl (fun a (_, o) => a + (o.stopped.map SavedSeal.held).sum) 0
  let s := (unbindAll s c).setCtx c {}
  let s := x.away.foldl (fun s d => sendMsg s (.forward d ⟨Fin.ofNat 16 x.inst.toNat, 0, 0⟩ [] 0 (.drop (BitVec.ofNat 8 c)))) s
  { s with ts := { s.ts with pool := s.ts.pool - held, closeWait := s.ts.closeWait.filter (fun x => x.1.toNat ≠ c) } }

/-- Contexts that are not closed, of an instance or of all: this device's own, and with what stands here for those of other devices. -/
def heldCtxs (s : State) (i : Option (Fin 16)) : List Nat :=
  (s.ts.ctxs.filter (fun (_, x) => x.st ≠ .closed && (match i with | some i => x.inst.toNat = i.val | none => true))).map Prod.fst
def openCtxs (s : State) (i : Option (Fin 16)) : List Nat := (heldCtxs s i).filter (fun c => c < 256)

def abandonCtxs (s : State) (i : Option (Fin 16)) : State := (heldCtxs s i).foldl dropCtx s

/-! ## Ends of commands -/

/-- Staging buffers that a command needs, by opcode (R423). -/
def needBufs (opc : Nat) : Nat :=
  match opc with
  | 0o10 => 2
  | 0o11 => 2
  | 0o40 => 1
  | 0o33 => 1
  | 0o42 => 1
  | 0o5 => 1
  | _ => 0

/-- A command's buffers return to the pool (R423). -/
def freeBufs (s : State) (r : SlotRef) : State :=
  let k := needBufs ((s.slot r).copy.getD 0 0).toNat
  let s := s.modInst r.i (fun x => { x with bufs := x.bufs - k })
  { s with hs := { s.hs with pool := s.hs.pool - k } }

/-- The FINISH of a RUNNING command: its buffers return, its ACCEPT is closed in the journal, its slot becomes DONE and its entry is posted
once that is committed; a command ends once (R397, R421 to R423). -/
def finishCmd (s : State) (r : SlotRef) (status : BitVec 16) (r0 r1 : BitVec 64 := 0) : State :=
  let x := s.slot r
  if x.st ≠ 3 || x.ended then s
  else
    let s := freeBufs (s.modSlot r (fun x => { x with begun := true, job := none, ended := true })) r
    let e : Entry := { jseq := x.jseq, tag := x.tag, mbx := r.m, slot := r.k, status := status, kind := 1, result0 := r0, result1 := r1, fwd := x.fwd }
    commitWith s { kind := jFINISH, ref := x.jseq, code := status } (some (r, e))

/-! ## Seal records (R389 to R391) -/

/-- Whether an output slot is INCOMPLETE (R389). -/
def OutSlot.incomplete (o : OutSlot) : Bool := o.broken || decide (o.len < o.declared)

/-- Output slots that a record lists: named by a group or declared. -/
def listedOuts (x : SealCtx) : List (Nat × OutSlot) := x.outs.filter (fun (_, o) => o.typ.isSome)
/-- Input slots that a record lists: the bound ones. -/
def listedIns (x : SealCtx) : List (Nat × InSlot) := x.ins.filter (fun (_, i) => i.bound)

/-- A stream entry of 48 octets (R389). -/
def streamEntry (slot dir typ sflags len pcnt : Nat) (root : List Octet) : List Octet :=
  [BitVec.ofNat 8 slot, BitVec.ofNat 8 dir, BitVec.ofNat 8 typ, BitVec.ofNat 8 sflags] ++ leOctets 4 (BitVec.ofNat 32 len) ++
    leOctets 4 (BitVec.ofNat 32 pcnt) ++ List.replicate 4 0 ++ fit 32 root

/-- The octets of a firmware slot's header (R493). -/
def fwOctets (f : FwSlot) (a n : Nat) : List Octet := (List.range n).map (fun i => tget 0 f.octets (a + i))

/-- The active firmware slot. -/
def activeSlot (s : State) : FwSlot := if s.opt.active then s.rst.slotB else s.rst.slotA

/-- The octets that a record's signature covers (R389, R390). (DEDUCED and DESIGN CHOICE: log entry 37) -/
def recordBody (s : State) (x : SealCtx) : List Octet :=
  let ins := listedIns x
  let outs := listedOuts x
  let inc := outs.any (fun o => o.2.incomplete)
  let poison := outs.any (fun o => decide (o.2.pcnt ≠ 0)) || ins.any (fun i => decide (i.2.pcnt ≠ 0))
  let evid := sealedMode s && !x.tainted && !s.ts.taint && !outs.any (fun o => decide (o.2.pcnt ≠ 0)) && !inc
  let flags := (if evid then 1 else 0) + (if poison then 2 else 0) + (if inc then 4 else 0) + (if s.ts.taint then 8 else 0) +
    (if x.resumed then 16 else 0) + (if x.migrated then 32 else 0)
  [0x5A, 0x4C, 0x44, 0x52, 0x01, 0x00, 0x01, BitVec.ofNat 8 flags] ++ devsnOctets s ++ fwOctets (activeSlot s) 4 4 ++
    leOctets 4 (Config.monitorVersion (activeSlot s).octets) ++
    [s.pwr.mode.setWidth 8, x.inst.setWidth 8, BitVec.ofNat 8 ins.length, BitVec.ofNat 8 outs.length,
     (if s.ts.set then 1 else 0) ||| (if s.ts.locked then 2 else 0), 0, 0, 0] ++
    leOctets 8 x.jseq ++ leOctets 8 s.ts.tsetSeq ++ leOctets 9 x.tstart ++ leOctets 9 s.tb ++ leOctets 2 (x.epoch.setWidth 16) ++
    List.replicate 4 0 ++ fit 32 x.dig ++
    ins.flatMap (fun (k, i) => streamEntry k 0 0 0 i.words i.pcnt i.root) ++
    outs.flatMap (fun (k, o) => streamEntry k 1 ((o.typ.map BitVec.toNat).getD 0) (if o.incomplete then 1 else 0)
      o.len o.pcnt (if o.incomplete then [] else o.root))

/-- The signing queue's length (R391). -/
def signQueue : Nat := 64

/-- A context closes: its record is queued for signing, its slots unbind, and SEALCLOSE ends (R391, R426). -/
def closeCtx (s : State) (c : Nat) (r : SlotRef) : State :=
  let x := s.ctx c
  let inc := (listedOuts x).any (fun o => o.2.incomplete)
  let rec_ : SealRec := { jseq := x.jseq, inst := x.inst, body := recordBody s x }
  let s := dropCtx { s with ts := { s.ts with unsigned := s.ts.unsigned ++ [rec_] } } c
  finishCmd s r (if inc then ceSEALFAIL else ceDONE) x.jseq

/-- A close that finds the queue full waits for space (R391). -/
def requestClose (s : State) (c : Nat) (r : SlotRef) : State :=
  if s.ts.unsigned.length < signQueue then closeCtx s c r
  else
    let s := s.modCtx c (fun x => { x with st := .closing })
    { s with ts := { s.ts with closeWait := s.ts.closeWait ++ [(BitVec.ofNat 8 c, r)] } }

/-- SIGNATURE_DONE: the oldest unsigned record is signed and held; a waiting close takes the freed place (R391). -/
def signatureDone (s : State) : State :=
  match s.ts.unsigned with
  | [] => s
  | x :: rest =>
    if !keyOk s || s.ts.pendingLock.isSome then s
    else
      let s := { s with ts := { s.ts with unsigned := rest, records := s.ts.records ++ [{ x with sig := deviceSignature x.body }] } }
      match s.ts.closeWait with
      | [] => s
      | (c, r) :: more => closeCtx { s with ts := { s.ts with closeWait := more } } c.toNat r
def execSignatureDone (s : State) : Host.Outcome State Fault Refusal := .next (signatureDone s)

/-- A slot's range whose banks are all SEALED is hashed (R387). -/
def hashReady (s : State) (x : InSlot) : Bool := x.hashing && (banksOfRange s x.first x.words).all (fun b => (s.bank b).sealed)

/-- The copied range of a context of another device is hashed, and its root leaves for that device's tailstock; one that differs marks the slot BROKEN
here too (R470). -/
def hashCopy (k : Fin 16) (s : State) (g : Nat × BitVec 6) : State :=
  let x := s.inSlot g.1 k.val
  if !hashReady s x then s
  else
    let (s, root) := bindSlot s g.1 k.val x.first x.words
    let s := s.modIn g.1 k.val (fun y => { y with broken := root ≠ x.root })
    sendMsg s (.copiedRoot g.2 (BitVec.ofNat 8 g.1) k (0o040000000000 + s.devId * 0o400000000 + x.first) root)

/-- LOCK_BINDING_HASH_DONE: every bank of the range is SEALED, its words are hashed and the slot is bound; so are the ranges copied for contexts of other
devices (R387, R470). (DEDUCED and DESIGN CHOICE: log entry 37) -/
def lockBindingHashDone (s : State) (c : BitVec 8) (k : Fin 16) : State :=
  let s := (guestsOf s c).foldl (hashCopy k) s
  let x := s.inSlot c.toNat k.val
  if !hashReady s x then s
  else
    let (s, root) := bindSlot s c.toNat k.val x.first x.words
    match x.owner with
    | some r => finishCmd s r ceDONE (rootResults root).1 (rootResults root).2
    | none => s
def execLockBindingHashDone (c : BitVec 8) (k : Fin 16) (s : State) : Host.Outcome State Fault Refusal :=
  .next (lockBindingHashDone s c k)

/-- COPIED_RANGE_ROOT: an equal root rebinds the slot to the copied range and releases the old one; another marks it BROKEN (R470). -/
def copiedRangeRoot (s : State) (c : BitVec 8) (k : Fin 16) (first : BitVec 34) (root : List Octet) : State :=
  let x := s.inSlot c.toNat k.val
  if !x.bound then s
  else if root = x.root then
    let s := if areaOf first.toNat = .bank then holdRange s first.toNat x.words else s
    let s := if areaOf x.first = .bank then freeRange s x.first x.words else s
    s.modIn c.toNat k.val (fun y => { y with first := first.toNat })
  else s.modIn c.toNat k.val (fun y => { y with broken := true })
def execCopiedRangeRoot (c : BitVec 8) (k : Fin 16) (first : BitVec 34) (root : List Octet) (s : State) :
    Host.Outcome State Fault Refusal := .next (copiedRangeRoot s c k first root)

/-! ## Tamper (R406 to R409) -/

def sensorBit : Sensor → Nat
  | .mesh => 0 | .xmesh => 1 | .glitch => 2 | .tempt => 3 | .light => 4 | .bond => 5

/-- Sensors with a log grade, those active in the backup domain, and whether one is enabled (R406). -/
def hasLogGrade (x : Sensor) : Bool := x = .glitch || x = .tempt
def inBackup (x : Sensor) : Bool := x ≠ .glitch && x ≠ .bond
def sensorOn (s : State) (x : Sensor) : Bool := x ≠ .xmesh || s.fus.xmesh

def setLive (s : State) (x : Sensor) (b : Bool) : State := { s with ts := { s.ts with live := setBit s.ts.live (sensorBit x) b } }

def tamperEntry (x : Sensor) (grade : Nat) : JProto :=
  { kind := jTAMPER, ref := BitVec.ofNat 64 grade, code := BitVec.ofNat 16 (2 ^ sensorBit x) }

/-- The TAMPER producer follows the log-grade conditions (R358, R407). -/
def tamperLevel (s : State) : State :=
  let b : Bool := s.ts.live.getLsbD (sensorBit .glitch) || s.ts.live.getLsbD (sensorBit .tempt)
  if s.evf.tamper = b then s else moveLevel { s with evf := { s.evf with tamper := b } } pselTamper b

/-- The start of a lockdown with main power: contexts are abandoned, the TAMPER entry committed, the final checkpoint due (R408). -/
def lockdownStart (s : State) (x : Sensor) : State :=
  let s := setLive s x true
  if s.ts.lockdn || s.ts.pendingLock.isSome then s
  else
    let s := abandonCtxs { s with ts := { s.ts with pendingLock := some x } } none
    startCheckpoint (commit s (tamperEntry x 2))

/-- A log-grade event: with main power it is journalled and counted, on backup power alone it enters the backup log. Eight glitches within
a second are a lockdown (R406, R407). (DEDUCED: log entry 55) -/
def logTamper (s : State) (x : Sensor) : State :=
  if !hasLogGrade x then s
  else if !s.pwr.main12 then
    (if s.pwr.vbat && inBackup x then
      { s with ts := { s.ts with backupLog := (s.ts.backupLog ++ [x]).drop (s.ts.backupLog.length + 1 - 16) } } else s)
  else
    let s := tamperLevel (setLive s x true)
    let s := { s with ts := { s.ts with logcnt := satAdd s.ts.logcnt 1 } }
    let s := commit s (tamperEntry x 1)
    if x = .glitch then
      let g := s.ts.glitches.filter (fun t => decide ((s.ts.ticks - t).toNat < ticksPerSecond)) ++ [s.ts.ticks]
      let s := { s with ts := { s.ts with glitches := g } }
      if g.length ≥ 8 then lockdownStart s x else s
    else s

/-- A lockdown-grade event with main power (R408). (DEDUCED: log entry 55) -/
def lockdownTamper (s : State) (x : Sensor) : State := if s.pwr.main12 && sensorOn s x then lockdownStart s x else s

/-- BACKUP_TAMPER: on backup power alone the wrap key is zeroised and LDCAUSE set (R409). (DEDUCED: log entry 55) -/
def backupTamper (s : State) (x : Sensor) : State :=
  if s.pwr.main12 || !s.pwr.vbat || !inBackup x || !sensorOn s x || s.ts.lockdn then s
  else { s with ts := { s.ts with wrapKey := false, lockdn := true, ldcause := BitVec.ofNat 6 (2 ^ sensorBit x), lockPend := true } }
def execBackupTamper (x : Sensor) (s : State) : Host.Outcome State Fault Refusal := .next (backupTamper s x)

/-- TAMPER_CONDITION_END: LIVE's bit and, with the last log-grade condition, the producer fall (R407, R412). -/
def tamperConditionEnd (s : State) (x : Sensor) : State := tamperLevel (setLive s x false)
def execTamperConditionEnd (x : Sensor) (s : State) : Host.Outcome State Fault Refusal := .next (tamperConditionEnd s x)

end Sys2Proof.Machine
end

