-- ==== Sys2Proof/Machine/Lth.lean ====
section
/-! DEFINITION. The pipeline registers of a lathe (R231, R237 to R240, R256) and the change of the device's mode (R510, R511, R513). -/
namespace Sys2Proof.Machine

/-- A thread started for the first time after a lathe reset (R256); with HOR of an open session it is halted first (R538). -/
def startThread (x : Lathe) (t : Thread) : Thread :=
  { (t.goto t.m.entry) with started := true, level := .machine, m := { t.m with busy := true, ie := false, cause := {} },
                            halted := t.halted || x.hor }

/-- Threads that a write of TEN enables for the first time. -/
def startEnabled (s : State) (l : Fin 16) : State :=
  (threadsOf l).foldl (fun s th =>
    if (s.lathe l).ten.getLsbD th.t.val && !(s.thr th).started then s.modThr th (startThread (s.lathe l)) else s) s

/-- A write of LTH_CORECFG; a change of DET, DUAL, PRED, ICOFF or DCOFF starts a drain (R237). In Deterministic mode machine-level code
cannot clear DET (R231). -/
def coreCfgSet (s : State) (l : Fin 16) (w : Word) (byHead : Bool) : State :=
  let x := s.lathe l
  let det := w.getLsbD 12 || (x.det && !byHead && s.pwr.mode = 7)
  let y := { x with det := det, dual := w.getLsbD 11, pred := w.getLsbD 10, icoff := w.getLsbD 9, dcoff := w.getLsbD 8,
                    ten := w.extractLsb' 0 8 }
  let change := y.det != x.det || y.dual != x.dual || y.pred != x.pred || y.icoff != x.icoff || y.dcoff != x.dcoff
  startEnabled (s.setLathe l { y with drain := x.drain || change }) l

/-- Who may write LTH_CORECFG (R238). -/
def mayCoreCfg (s : State) (m : Master) (l : Fin 16) : Bool := m = .head || isMachineOn s m l.val

def execLthCorecfgWrite (m : Master) (l : Fin 16) (w : Word) (s : State) : Host.Outcome State Fault Refusal :=
  .next (writeIf m (0o300000 + 0o2000 * l.val) (mayCoreCfg s m l) (fun s => coreCfgSet s l w (m = .head)) s)

/-- The word of LTH_CORECFG. -/
def coreCfgWord (x : Lathe) : Word :=
  putB 12 x.det ||| putB 11 x.dual ||| putB 10 x.pred ||| putB 9 x.icoff ||| putB 8 x.dcoff ||| put 0 8 x.ten.toNat

/-- DET as the headstock writes it on every lathe in service (R513, R532). -/
def setDetAll (s : State) (b : Bool) : State :=
  (List.finRange 16).foldl (fun s l =>
    if (s.lathe l).inSvc then coreCfgSet s l ((coreCfgWord (s.lathe l) &&& ~~~ putB 12 true) ||| putB 12 b) true else s) s

/-- Whether every lathe in service runs as asked and none drains. -/
def detSettled (s : State) (b : Bool) : Bool :=
  (List.finRange 16).all (fun l => !(s.lathe l).inSvc || ((s.lathe l).detact == b && !(s.lathe l).drain))

/-- The mode changes; the modes that R511 names are journalled with the rung of Rest in CODE bits 15..8. -/
def changeMode (s : State) (m : BitVec 4) (rung : BitVec 3 := 0) : State :=
  if s.pwr.mode = m then s
  else
    let s := { s with pwr := { s.pwr with prev := s.pwr.mode, mode := m, rung := rung } }
    if [4, 5, 6, 7, 8, 9, 11].contains m.toNat then
      commit s { kind := jMODE, code := rung.setWidth 16 <<< 8 ||| m.setWidth 16 }
    else s

/-- The end of a MODESET that waited for the cores: it finishes, and the new mode code takes effect with its FINISH (R513). -/
def settleModeset (s : State) : State :=
  match s.hs.slots.find? (fun (_, x) => x.st = 3 && x.begun && x.copy.head? = some 0o50) with
  | none => s
  | some (k, x) =>
    let m : BitVec 4 := (x.copy.getD 8 0).extractLsb' 0 4
    let ok := if m = 7 then detSettled s true else if s.pwr.mode = 7 then detSettled s false else true
    if m = 9 || !ok then s
    else
      let r : SlotRef := ⟨Fin.ofNat 16 (k / 256), Fin.ofNat 4 (k / 64), Fin.ofNat 64 k⟩
      changeMode (finishCmd s r ceDONE) m

/-- A thread at the end of a drain: its floating-point instructions have completed and every result may be read (R237). -/
def Thread.drained (t : Thread) : Thread := { t.fpAll with lat := [], busy := 0 }

/-- CORECFG_DRAIN_END: every issued instruction has completed and every load has returned; the caches are invalidated and the new setting
applies (R237). -/
def corecfgDrainEnd (s : State) (l : Fin 16) : State :=
  let x := s.lathe l
  if !x.drain || x.stall.isSome || x.pair.isSome || (threadsOf l).any (fun th => !(s.thr th).loads.isEmpty) then s
  else
    let s := (threadsOf l).foldl (fun s th => s.modThr th Thread.drained) s
    let begins : Bool := x.det && !x.detact
    let s := s.modLathe l (fun x => { x with drain := false, icache := [], dcache := [], detact := x.det,
                                             slotcnt := if begins then 0 else x.slotcnt, clock := if begins then 0 else x.clock })
    settleModeset s
def execCorecfgDrainEnd (l : Fin 16) (s : State) : Host.Outcome State Fault Refusal := .next (corecfgDrainEnd s l)

end Sys2Proof.Machine
end

