-- ==== Sys2Proof/Machine/Placement.lean ====
section
/-! DEFINITION. The fields of a command (R419, R426), the placement of a job on lathes, and how MIGRATE moves it within a device and to another
(R470). -/
namespace Sys2Proof.Machine

/-! ## Fields of a command (R419, R426) -/

/-- A field of a natural number. -/
def nfld (v lo len : Nat) : Nat := v / 2 ^ lo % 2 ^ len

def cmdOpc (o : List Octet) : Nat := (o.getD 0 0).toNat
def cmdFlags (o : List Octet) : Nat := (o.getD 1 0).toNat
def cmdTag (o : List Octet) : BitVec 16 := BitVec.ofNat 16 (octetsToNat ((o.drop 2).take 2))
def cmdDeadline (o : List Octet) : Nat := octetsToNat ((o.drop 4).take 4)
def cmdArg (o : List Octet) (k : Nat) : Nat := octetsToNat ((o.drop (8 + 8 * k)).take 8)

/-! ## Lathes, banks and jobs -/

/-- The lathes a set names. -/
def lathesOf (w : BitVec 16) : List (Fin 16) := (List.finRange 16).filter (fun l => w.getLsbD l.val)

/-- The RUNNING command with a JSEQ. -/
def runningJseq (s : State) (j : Nat) : Option SlotRef :=
  ((s.hs.slots.find? (fun (_, x) => x.st = 3 && x.jseq.toNat = j)).map Prod.fst).map (fun k =>
    ⟨Fin.ofNat 16 (k / 256), Fin.ofNat 4 (k / 64), Fin.ofNat 64 k⟩)

/-- The command slot of a key. -/
def keySlot (k : Nat) : SlotRef := ⟨Fin.ofNat 16 (k / 256), Fin.ofNat 4 (k / 64), Fin.ofNat 64 k⟩

/-- Whether a bank is granted to an instance (R415). -/
def grantedTo (s : State) (i : Fin 16) (n : Nat) : Bool := (s.bank n).granted = some i

/-- The headstock's write of a granted bank's BNK_OWN, judged as any write of it (R58): SPINDLE in a lathe of the instance, else NONE; INST,
LEND 2, LSCOPE 1, the instance's epoch. -/
def grantBank (s : State) (i : Fin 16) (n : Nat) : State :=
  let inLathe := (s.inst i).lathes.getLsbD (n / 64) && (s.spin (n / 8)).inSvc
  let w := ownWord { ownCl := if inLathe then 0 else 6, ownId := if inLathe then BitVec.ofNat 7 (n / 8) else 0,
                     inst := BitVec.ofNat 4 i.val, lend := 2, lscope := 1, epoch := (s.inst i).epoch }
  let s := s.modBank n (fun b => { b with granted := some i })
  if (s.bank n).retired then s else bnkOwn s n w

/-- MWDOG no longer counts a job's deadline. -/
def Thread.disarm (t : Thread) : Thread := if t.mwdJob then { t with mwdJob := false, mwdEn := false, mwdRun := false } else t

/-! ## Copies (R470) -/

/-- The address range that a lathe's banks hold, as places: 64 banks of 65,536 words, four nonets each. -/
def lathePlaces (l : Fin 16) : Nat := 4 * 65536 * 64 * l.val
def latheSpan : Nat := 4 * 65536 * 64
def scratchBase (l : Fin 16) : Nat := 4 * (0o000400000000 + l.val * 2 ^ 18)
def scratchSpan : Nat := 4 * 2 ^ 18

/-- Cells of one range read and written into another, with fresh check bits or as the poison pattern; what stood there is gone (R316, R318). -/
def copyCells (mem old : Tab Stored) (src dst n : Nat) : Tab Stored :=
  let moved := ((old.filter (fun x => src ≤ x.1 && x.1 < src + n)).map (fun x => (x.1 - src + dst, savedNonet x.2))).filter (fun x => x.2 ≠ 0)
  let below := mem.filter (fun x => x.1 < dst)
  let above := mem.filter (fun x => x.1 ≥ dst + n)
  below ++ moved ++ above

/-- The pairs of old and new lathes of a placement, in order. -/
def lathePairs (old new : BitVec 16) : List (Fin 16 × Fin 16) := (lathesOf old).zip (lathesOf new)

/-- The banks of the new lathes become SPINDLE-owned with the new epoch; those not in service stay NONE (R470 step 3). -/
def placeBanks (s : State) (i : Fin 16) (l : Fin 16) : State :=
  (List.range 64).foldl (fun s k =>
    let n := 64 * l.val + k
    if (s.bank n).retired then s else grantBank (s.modBank n endHandover) i n) s

/-- The reads of a lathe's banks and scratchpad by MIGRATE examine every nonet (R317, R318, R340). -/
def examineLathe (s : State) (l : Fin 16) : State :=
  let s := marchExamine s ((List.range 64).map (fun k => 64 * l.val + k))
  (s.mem.filter (fun x => scratchBase l ≤ x.1 && x.1 < scratchBase l + scratchSpan)).foldl (fun s x =>
    examine s false (x.1 / 4) (1#4 <<< (x.1 % 4))) s

/-- Banks of a lathe pass to class WOVAS of the instance by handovers, but for those under seal lock, retired or not granted (R470 step 2). -/
def wovasBanks (s : State) (i : Fin 16) (l : Fin 16) : State :=
  (List.range 64).foldl (fun s k =>
    let n := 64 * l.val + k
    if (s.bank n).sealed || (s.bank n).retired || !grantedTo s i n then s
    else
      let s := s.modBank n endHandover
      bnkOwn s n (ownWord { (s.bank n) with ownCl := 3, ownId := 0, inst := BitVec.ofNat 4 i.val })) s

/-- The nonets of a lathe's scratchpad by their offsets in it, with fresh check bits or as the poison pattern (R316). -/
def padCells (s : State) (l : Fin 16) : Tab Stored :=
  (s.mem.filter (fun x => scratchBase l ≤ x.1 && x.1 < scratchBase l + scratchSpan)).map (fun x => (x.1 - scratchBase l, savedNonet x.2))

/-- A scratchpad takes such nonets; what stood there is gone. -/
def fillPad (mem : Tab Stored) (l : Fin 16) (cells : Tab Stored) : Tab Stored :=
  (cells.filter (fun x => x.1 < scratchSpan)).foldl (fun m x => tput 0 m (scratchBase l + x.1) x.2)
    (mem.filter (fun x => !(scratchBase l ≤ x.1 && x.1 < scratchBase l + scratchSpan)))

/-- The SKEW of a lathe's bank groups, for those of the new one (R45). (DESIGN CHOICE: log entry 64) -/
def skewsOf (s : State) (old new : Fin 16) : List (Nat × Bool) :=
  (List.range 8).map (fun k => (8 * new.val + k, (s.bank (64 * old.val + 8 * k)).skew))

/-- The numbers on the new lathes of the sealed banks of the old. -/
def lockedBanks (s : State) (ps : List (Fin 16 × Fin 16)) : List Nat :=
  ps.flatMap (fun (a, b) => (List.range 64).filterMap (fun k => if (s.bank (64 * a.val + k)).sealed then some (64 * b.val + k) else none))

/-- The lathes that still run of a job on its new lathes. -/
def movedLeft (ps : List (Fin 16 × Fin 16)) (left : BitVec 16) : BitVec 16 :=
  ps.foldl (fun (w : BitVec 16) p => if left.getLsbD p.1.val then setBit w p.2.val true else w) 0

/-- Where a word range of the old lathes' banks lies in those of the new, where it lies there in one piece. -/
def movedRange (ps : List (Fin 16 × Fin 16)) (first words : Nat) : Option Nat :=
  let at_ (a : Nat) : Option Nat := (ps.find? (fun p => p.1.val = a / 2 ^ 22)).map (fun p => p.2.val * 2 ^ 22 + a % 2 ^ 22)
  match at_ first, at_ (first + words - 1) with
  | some a, some b => if b = a + words - 1 then some a else none
  | _, _ => none

/-- What another device is given of a seal context (R470). A bound range that does not lie in one piece in the new banks stays where it is.
(DESIGN CHOICE: log entry 44) -/
def movedCtx (ps : List (Fin 16 × Fin 16)) (c : Nat) (x : SealCtx) : MovedCtx :=
  { ctx := BitVec.ofNat 8 c
    ins := x.ins.filterMap (fun (k, i) =>
      if !i.bound then none
      else (movedRange ps i.first i.words).map (fun a => { slot := Fin.ofNat 16 k, first := a, words := i.words, pcnt := i.pcnt, root := i.root }))
    outs := x.outs.filterMap (fun (k, o) => o.typ.map (fun t =>
      { slot := Fin.ofNat 16 k, typ := t, broken := o.broken, spans := o.spans, words := o.words,
        stopped := o.stopped.map (fun y => (y.key, y.rks)) })) }

/-! ## MIGRATE to another device (R470) -/

/-- The placement of a job by its MIGRATE's slot: the job's slot, and its old lathes with the new ones. -/
def placementOf (s : State) (r : SlotRef) : Option (SlotRef × List (Fin 16 × Fin 16)) :=
  let o := (s.slot r).copy
  (runningJseq s (cmdArg o 0)).map (fun q => (q, lathePairs (((s.slot q).job.map Job.lathes).getD 0) (BitVec.ofNat 16 (cmdArg o 1))))

/-- The old banks return to SPINDLE ownership with the new epoch (R470 step 3). -/
def oldBanksBack (s : State) (i : Fin 16) (ps : List (Fin 16 × Fin 16)) : State := ps.foldl (fun s p => placeBanks s i p.1) s

/-- The saved states of a context's stopped groups have gone with them (R386, R470). -/
def handOnStopped (s : State) (d : BitVec 6) (c : Nat) : State :=
  let held := (s.ctx c).outs.foldl (fun a (_, o) => a + (o.stopped.map SavedSeal.held).sum) 0
  let s := s.modCtx c (fun x => { x with away := if x.away.contains d then x.away else x.away ++ [d],
                                         outs := x.outs.map (fun (k, o) => (k, { o with stopped := [] })) })
  { s with ts := { s.ts with pool := s.ts.pool - held } }

/-- The last quad of a placement is acknowledged: the banks return, the other device is given the job and the contexts, and MIGRATE ends (R470
step 3). -/
def migrateEnd (s : State) (r : SlotRef) : State :=
  let d : BitVec 6 := BitVec.ofNat 6 (cmdArg (s.slot r).copy 2)
  let epoch : BitVec 64 := (s.inst r.i).epoch.setWidth 64
  match placementOf s r with
  | none => finishCmd s r ceDONE epoch
  | some (q, ps) =>
    let job := ((s.slot q).job).getD { lathes := 0, left := 0 }
    let cs := openCtxs s (some r.i)
    let m : MovedJob := { lathes := BitVec.ofNat 16 (cmdArg (s.slot r).copy 1), left := movedLeft ps job.left, status := job.status, ctx := job.ctx,
                          sealed := job.sealed }
    let s := sendMsg s (.forward d q [] 0 (.placed (BitVec.ofNat 6 s.devId) m (lockedBanks s ps) (cs.map (fun c => movedCtx ps c (s.ctx c)))))
    let s := cs.foldl (fun s c => handOnStopped s d c) (oldBanksBack s r.i ps)
    let s := s.modSlot q (fun x => { x with job := x.job.map (fun j => { j with lathes := 0, left := 0, moved := some d }) })
    finishCmd s r ceDONE epoch

/-- The transfer of a placement has failed: the banks return, and MIGRATE ends with a status. -/
def migrateFails (s : State) (r : SlotRef) (status : BitVec 16) : State :=
  let s := match placementOf s r with
    | some (_, ps) => if cmdOpc (s.slot r).copy = 0o21 then oldBanksBack s r.i ps else s
    | none => s
  finishCmd s r status

/-- A placement is announced: its new banks pass to class WOVAS, and its scratchpads and the SKEW of its groups are taken over (R470 step 2). -/
def placeHere (s : State) (i : Fin 16) (lathes : BitVec 16) (skews : List (Nat × Bool)) (pads : List (Fin 16 × Tab Stored)) : State :=
  let s := (lathesOf lathes).foldl (fun s l => wovasBanks s i l) s
  let s := skews.foldl (fun s (k, b) => s.modBank (8 * k) (fun y => { y with skew := b })) s
  pads.foldl (fun s (l, cells) => { s with mem := fillPad s.mem l cells }) s

/-- The number here of another device's context: the low octet is its own. -/
def guestCtx (home : BitVec 6) (c : BitVec 8) : Nat := 256 * (home.toNat + 1) + c.toNat

/-- What stands here for a context of another device: its copied ranges are locked and wait to be hashed, and its output slots go on (R387, R470). -/
def takeCtx (i : Fin 16) (home : BitVec 6) (s : State) (m : MovedCtx) : State :=
  let last := m.outs.foldl (fun n o => o.spans.foldl (fun n x => max n (x.1 + 1)) n) 0
  let s := s.setCtx (guestCtx home m.ctx) {
    st := .opened, inst := BitVec.ofNat 4 i.val, epoch := (s.inst i).epoch, home := some home, base := last,
    ins := m.ins.foldl (fun t x => tput {} t x.slot.val { hashing := true, first := x.first, words := x.words, pcnt := x.pcnt, root := x.root }) [],
    outs := m.outs.foldl (fun t x => tput {} t x.slot.val { typ := some x.typ, broken := x.broken, spans := x.spans, words := x.words,
                                                             stopped := x.stopped.map (fun y => { key := y.1, rks := y.2, held := 0 }) }) [] }
  m.ins.foldl (fun s x => holdRange s x.first x.words) s

/-- The quads of a placement have all come: its banks pass to the spindles with the new epoch, the copies of sealed banks are locked, and the job goes
on here (R470 steps 3 and 4). -/
def placedHere (s : State) (r : SlotRef) (home : BitVec 6) (m : MovedJob) (locked : List Nat) (cs : List MovedCtx) : State :=
  let s := (lathesOf m.lathes).foldl (fun s l => placeBanks s r.i l) s
  let s := cs.foldl (takeCtx r.i home) s
  let s := (locked.filter (fun n => let b := s.bank n; !(b.sealed || b.heldLock || b.drain = some .sealLock))).foldl lockAt s
  let g : Guest := { home := home, r := r, job := { lathes := m.lathes, left := m.left, status := m.status, ctx := m.ctx, sealed := m.sealed } }
  { s with hs := { s.hs with guests := s.hs.guests.filter (fun x => !(x.home = home && x.r = r)) ++ [g] } }

/-- A job of another device ends here: that device is told its status (R426, R470). -/
def endGuest (s : State) (g : Guest) (status : BitVec 16) (r0 : BitVec 64) : State :=
  sendMsg { s with hs := { s.hs with guests := s.hs.guests.filter (fun x => !(x.home = g.home && x.r = g.r)) } }
    (.entry g.home g.r.i { mbx := g.r.m, slot := g.r.k, status := status, kind := 1, result0 := r0 })

end Sys2Proof.Machine
end

