-- ==== Sys2Proof/Machine/Remote.lean ====
section
/-! DEFINITION. How a remote operation ends at its requester (R458, R462 to R464, R471, R472). -/
namespace Sys2Proof.Machine

/-- The operation is no longer outstanding; requests that waited for it leave, in order (R461). -/
def dropOp (s : State) (o : ROp) : State :=
  let w := { s.wov with ops := s.wov.ops.filter (fun x => x.tag ≠ o.tag), heldReq := s.wov.heldReq.filter (fun x => x.2.1 ≠ o.tag) }
  { s with wov := { w with heldReq := w.heldReq.filter (fun x => w.holdsTo x.1),
                           tx := w.tx ++ (w.heldReq.filter (fun x => !w.holdsTo x.1)).map (fun x => x.2.2) } }

/-- The words of a quad, each with whether a nonet that counts is poisoned. -/
def quadWords (q : Quad) (poison : BitVec 16) (mask : BitVec 4) : List (Word × Bool) :=
  (List.range 4).map (fun i => (quadGet q i, poison.extractLsb' (4 * i) 4 &&& mask ≠ 0))

/-- An access that waited for a remote operation has its answer; LOAD_COMPLETE delivers it. An access that has been dropped meanwhile takes
none. -/
def answerLoad (s : State) (th : Th) (tag : Nat) (res : Option RemoteResult) : State :=
  let put (p : PendLoad) : PendLoad :=
    if p.tag = some tag then
      { p with resp := some (match res with
          | some (.data q po) => .words (quadWords q po p.kind.mask)
          | _ => .error) }
    else p
  s.modThr th (fun t => { t with loads := t.loads.map put, fetchPend := t.fetchPend.map put })

/-- A store that another device performs is performed; or it ended as a bus error, which the thread takes once no older access is outstanding (R300,
R464). A store of EXEC is answered to the debugger (R536). The frame of an upcall starts its handler, or abandons the delivery (R268, R269). The
accesses of a locked core have stopped (R263). -/
def answerStore (s : State) (th : Th) (tag : Nat) (res : Option RemoteResult) : State :=
  match (s.thr th).loads.find? (fun p => p.tag = some tag) with
  | none => s
  | some p =>
    let ok : Bool := decide (res = some .ack)
    let gone (s : State) : State := s.modThr th (fun t => t.endAcc p [])
    if (s.lathe th.l).locked then s
    else match p.kind with
    | .upframe n => if ok then upcallDone (gone s) th n p.va else upcallFails (gone s) th n p.va
    | _ =>
      if p.debug then (if ok then execDone (gone s) else execExcept (gone s) .buserr)
      else if ok then gone s
      else
        let s := s.modThr th (fun t => { t with loads := t.loads.map (fun q => if q.num = p.num then { q with resp := some .error } else q) })
        accFault s s th p (busExc p.va)

/-- The part of a group in a spindle receives an answer. -/
def answerStream (s : State) (k gi : Nat) (key : RKey) (res : Option RemoteResult) : State :=
  s.modGroup gi (fun g =>
    let i := k - g.spindle 0
    g.setPart i { g.part i with remote := (g.part i).remote ++ [(key, res)] })

/-- The status with which a headstock operation of a command ends. -/
def opStatus : Option RemoteResult → BitVec 16
  | some .targetReset => ceTGTRESET
  | some .refused => ceJOBFAIL
  | _ => ceLINKDOWN

/-- A MIGRATE's operation ends: an acknowledgement counts, and the last one ends the move; anything else ends it at once (R470). -/
def answerCommand (s : State) (r : SlotRef) (res : Option RemoteResult) : State :=
  if res = some .ack then (if s.wov.ops.any (fun o => o.kind = .command r) then s else migrateEnd s r)
  else migrateFails { s with wov := { s.wov with ops := s.wov.ops.filter (fun o => o.kind ≠ .command r) } } r (opStatus res)

/-- A remote operation ends with a result; none stands for the 4 µs limit (R464). -/
def endOp (s : State) (o : ROp) (res : Option RemoteResult) : State :=
  let s := dropOp s o
  match o.kind with
  | .load th => answerLoad s th o.tag res
  | .store th => answerStore s th o.tag res
  | .stream k gi key => answerStream s k.val gi key res
  | .command r => answerCommand s r res
  | .burst m a => match res with
    | some (.data q po) => deliverReply s m a ((quadWords q po 0xF).drop (a % 4)) false
    | some .ack => s
    | _ => deliverReply s m a [] true

/-- Operations that a predicate picks end with one result. -/
def endOps (s : State) (p : ROp → Bool) (res : RemoteResult) : State :=
  (s.wov.ops.filter p).foldl (fun s o => if s.wov.ops.contains o then endOp s o (some res) else s) s

end Sys2Proof.Machine
end

