-- ==== Sys2Proof/Machine/Head.lean ====
section
/-! DEFINITION. The headstock: command slots, doorbells and admission (R415 to R425, R427), epochs (R429), the stopping of commands (R428,
R431) and instance reset. -/
namespace Sys2Proof.Machine

/-! ## The fields of a command (R419, R426) -/

/-- A mask of the low bits. -/
def lowMask (n : Nat) : Nat := 2 ^ n - 1

/-- The bits of ARG0 to ARG6 that an opcode assigns; none for an unassigned opcode (R426). (DEDUCED: log entry 39) -/
def argMasks (o : List Octet) : Option (List Nat) :=
  match cmdOpc o with
  | 0o001 => some []
  | 0o002 => some [0xF, 0xFFFF, 0x01FF01FF, lowMask 32]
  | 0o003 => some [0x10F, 0x3FF, 0x3FF]
  | 0o004 => some [0xF]
  | 0o005 => some [lowMask 64, 0xFF]
  | 0o006 => some [lowMask 64]
  | 0o010 => some [lowMask 64, lowMask 34, lowMask 51]
  | 0o011 => some [lowMask 64, lowMask 34, lowMask 51]
  | 0o020 => some [0xFFFF, lowMask 36, lowMask 36, 0x1FF]
  | 0o021 => some [lowMask 64, 0xFFFF, 0x3F]
  | 0o030 => some [0, lowMask 64, lowMask 64, lowMask 64, lowMask 64]
  | 0o031 => some [0x1FFF, if nfld (cmdArg o 0) 12 1 = 0 then lowMask 34 else 0xF, lowMask 26]
  | 0o032 => some [0xFF]
  | 0o033 => some [lowMask 64, lowMask 64]
  | 0o040 => some [lowMask 64, lowMask 64, 0x11FFF]
  | 0o041 => some [lowMask 64]
  | 0o042 => some [lowMask 64, 1]
  | 0o043 => some [lowMask 64, 0xFF]
  | 0o050 => some [0xF]
  | 0o060 => some [lowMask 64, lowMask 64, lowMask 64]
  | 0o061 => some []
  | 0o062 => some []
  | 0o063 => some []
  | _ => none

/-- Values that an opcode's fields may hold (R415, R423 step 2, R426). An IEEE F72 transfer at an odd device word address, for which R24 gives
no status, is accepted. (DEDUCED and DESIGN CHOICE: log entry 39) -/
def valuesOk (o : List Octet) : Bool :=
  let a := cmdArg o
  match cmdOpc o with
  | 0o002 => decide (1 ≤ nfld (a 2) 0 9 ∧ nfld (a 2) 0 9 ≤ 256 ∧ nfld (a 2) 16 9 ≤ 256)
  | 0o005 => a 1 = 0
  | 0o010 => !(nfld (a 2) 32 2 = 3 && nfld (a 2) 0 32 % 2 = 1)
  | 0o011 => !(nfld (a 2) 32 2 = 3 && nfld (a 2) 0 32 % 2 = 1) && nfld (a 2) 46 1 = 0
  | 0o020 => a 0 ≠ 0
  | 0o031 => nfld (a 0) 12 1 = 0 || decide (a 1 < 8)
  | 0o040 => decide (1 ≤ nfld (a 2) 0 13 ∧ nfld (a 2) 0 13 ≤ 4096)
  | 0o060 => decide (1 ≤ a 2 ∧ a 2 ≤ 65536)
  | _ => true

/-- Step 2 of R423: OPC is assigned and the fields are valid. (DEDUCED: log entry 39) -/
def fieldsOk (o : List Octet) : Bool :=
  match argMasks o with
  | none => false
  | some ms => decide (cmdFlags o < 2) && (List.range 7).all (fun k => cmdArg o k &&& (ms.getD k 0) = cmdArg o k) && valuesOk o

/-- Commands marked PF (R426). -/
def pfOnly (opc : Nat) : Bool := [0o2, 0o3, 0o4, 0o41, 0o43, 0o50, 0o60, 0o61, 0o62, 0o63].contains opc

/-- Whether the current mode permits an opcode (R427). -/
def modePermits (s : State) (opc : Nat) : Bool :=
  match s.pwr.mode.toNat with
  | 5 => true
  | 6 => true
  | 7 => true
  | 4 => [0o1, 0o5, 0o42, 0o40, 0o41, 0o60, 0o61, 0o62, 0o63].contains opc
  | 8 => [0o1, 0o5, 0o42, 0o40, 0o41, 0o60, 0o61, 0o62, 0o63].contains opc
  | 10 => [0o1, 0o5, 0o42, 0o40].contains opc
  | _ => false

/-- Step 4 of R423: the mode, TIMESET under R394, MODESET under R512, UPDCONFIRM under R498. -/
def stepMode (s : State) (o : List Octet) : Bool :=
  modePermits s (cmdOpc o) &&
    (match cmdOpc o with
     | 0o43 => !sealedMode s || !s.ts.set || decide (cmdArg o 0 + 2 ^ 64 * cmdArg o 1 ≥ s.tb.toNat)
     | 0o50 =>
       let m := cmdArg o 0
       [5, 6, 7, 9].contains m && m ≠ s.pwr.mode.toNat && !(s.ts.taint && (m = 5 || m = 7))
     | 0o63 => s.pwr.mode = 8
     | _ => true)

/-! ## Ranges (R423 step 6, R426) -/

/-- Whether a word range lies within an instance's granted banks or its lathes' scratchpads. -/
def rangeOk (s : State) (i : Fin 16) (a n : Nat) : Bool :=
  if n = 0 then true
  else if a < 0o000400000000 then
    decide (a + n ≤ 0o000400000000) && (banksOfRange s a n).all (grantedTo s i)
  else
    decide (a + n ≤ 0o000420000000) &&
      (let l0 := (a - 0o000400000000) / 2 ^ 18
       let l1 := (a + n - 1 - 0o000400000000) / 2 ^ 18
       (List.range (l1 + 1 - l0)).all (fun k => (s.inst i).lathes.getLsbD (l0 + k)))

/-- The banks that a GRANT names. -/
def grantBanks (o : List Octet) : List Nat := (List.range (cmdArg o 2 + 1)).map (fun k => cmdArg o 1 + k)

/-- The copies of the commands that are accepted and not begun, for which what they need is kept (R423). -/
def accepted (s : State) : List (List Octet) := (s.hs.slots.filter (fun x => x.2.st = 3 && !x.2.begun)).map (fun x => x.2.copy)

/-- The instance being zeroed that a bank or a lathe waits for (R431). -/
def bankZeroing (s : State) (n : Nat) : Bool :=
  match (s.bank n).granted with
  | some i => (s.inst i).resetting
  | none => false
def latheZeroing (s : State) (l : Fin 16) : Bool :=
  (List.finRange 16).any (fun i => (s.inst i).resetting && (s.inst i).lathes.getLsbD l.val)

def popCount (w : BitVec 16) : Nat := (lathesOf w).length

/-- The inactive firmware slot. -/
def inactiveSlot (s : State) : FwSlot := if s.opt.active then s.rst.slotA else s.rst.slotB

/-- A context that is open and belongs to the instance. -/
def ctxOpenFor (s : State) (i : Fin 16) (c : Nat) : Bool := (s.ctx c).st = .opened && (s.ctx c).inst.toNat = i.val

/-- Step 6 of R423. (DEDUCED: log entry 39) -/
def stepRange (s : State) (i : Fin 16) (o : List Octet) : Bool :=
  let a := cmdArg o
  match cmdOpc o with
  | 0o002 =>
    let j : Fin 16 := Fin.ofNat 16 (a 0)
    (lathesOf (BitVec.ofNat 16 (a 1))).all (fun l => (s.lathe l).inSvc &&
      (latheZeroing s l || (List.finRange 16).all (fun k => k = j || !(s.inst k).lathes.getLsbD l.val)))
  | 0o003 =>
    let j : Fin 16 := Fin.ofNat 16 (a 0)
    decide (a 1 + a 2 ≤ 1023) && (grantBanks o).all (fun n =>
      let b := s.bank n
      if nfld (a 0) 8 1 = 1 then b.granted = some j
      else bankZeroing s n || (!b.retired && b.ownCl = 6 && (b.granted = none || b.granted = some j)))
  | 0o006 => match runningJseq s (a 0) with
    | some r => i = 0 || r.i = i
    | none => false
  | 0o010 =>
    rangeOk s i (a 1) (nfld (a 2) 0 32) &&
      (nfld (a 2) 46 1 = 0 || (decide (a 1 + nfld (a 2) 0 32 ≤ 0o000400000000) && ctxOpenFor s i (nfld (a 2) 34 8) &&
        !(s.inSlot (nfld (a 2) 34 8) (nfld (a 2) 42 4)).bound && !(s.inSlot (nfld (a 2) 34 8) (nfld (a 2) 42 4)).hashing))
  | 0o011 => rangeOk s i (a 1) (nfld (a 2) 0 32)
  | 0o020 =>
    (lathesOf (BitVec.ofNat 16 (a 0))).all (fun l => (s.inst i).lathes.getLsbD l.val && (s.lathe l).inSvc) &&
      (nfld (a 3) 8 1 = 0 || ctxOpenFor s i (nfld (a 3) 0 8))
  | 0o021 => match runningJseq s (a 0) with
    | none => false
    | some r =>
      let x := s.slot r
      r.i = i && cmdOpc x.copy = 0o20 && !x.job.any (fun j => j.moved.isSome) && popCount (BitVec.ofNat 16 (a 1)) = popCount (BitVec.ofNat 16 (cmdArg x.copy 0)) &&
        (if a 2 = s.devId then (lathesOf (BitVec.ofNat 16 (a 1))).all (fun l => (s.lathe l).inSvc &&
            (List.range 64).all (fun k => (s.bank (64 * l.val + k)).retired || grantedTo s i (64 * l.val + k)))
         else (lathesOf (BitVec.ofNat 16 (a 1))).all (fun l => (List.range 64).all (fun k => Config.remoteBanks (a 2) i.val (64 * l.val + k))))
  | 0o031 =>
    ctxOpenFor s i (nfld (a 0) 0 8) &&
      (if nfld (a 0) 12 1 = 1 then (s.outSlot (nfld (a 0) 0 8) (nfld (a 0) 8 4)).typ.isNone
       else
        let x := s.inSlot (nfld (a 0) 0 8) (nfld (a 0) 8 4)
        !x.bound && !x.hashing && decide (a 1 + a 2 ≤ 0o000400000000) && rangeOk s i (a 1) (a 2))
  | 0o032 => ctxOpenFor s i (a 0)
  | 0o033 =>
    s.ts.records.any (fun r => r.jseq.toNat = a 1 && r.inst.toNat = i.val) ||
      s.ts.unsigned.any (fun r => r.jseq.toNat = a 1 && r.inst.toNat = i.val)
  | 0o040 =>
    let n := nfld (a 2) 0 13
    if nfld (a 2) 16 1 = 1 then decide (a 1 + n ≤ 4096)
    else decide (1 ≤ a 1 ∧ a 1 + n ≤ s.jnl.written + 1 ∧ s.jnl.written < a 1 + ringEntries)
  | 0o041 => decide (s.jnl.drained ≤ a 0 ∧ a 0 ≤ s.jnl.written)
  | 0o060 =>
    !s.opt.trial && decide (a 1 + a 2 ≤ 6291456) &&
      (a 1 = 0 || (((inactiveSlot s).st = .loading || (inactiveSlot s).st = .loaded) && a 1 = (inactiveSlot s).len))
  | 0o062 => (inactiveSlot s).st = .verified
  | _ => true

/-! ## Resources (R423 steps 8 to 12) -/

/-- Whether a slot's command stands ahead of another: of one instance, by mailbox and arrival (R425). -/
def slotAhead (k : Nat) (x : Slot) (r : SlotRef) (y : Slot) : Bool :=
  k / 256 = r.i.val && decide (k / 64 % 4 < r.m.val ∨ (k / 64 % 4 = r.m.val ∧ x.order < y.order))

/-- Step 8: an earlier command of the mailbox is DELAYED, or a MODESET that came earlier is (R512). (DEDUCED: log entry 41) -/
def stepOrder (s : State) (r : SlotRef) : Bool :=
  let y := s.slot r
  s.hs.slots.any (fun (k, x) => k ≠ slotKey r && decide (x.order < y.order) &&
    ((x.st = 2 && (k / 64 = slotKey r / 64 || cmdOpc x.copy = 0o50)) || (x.fwdTo.isSome && x.fst = 2 && k / 64 = slotKey r / 64)))

/-- Step 9. -/
def stepQuota (s : State) (r : SlotRef) (o : List Octet) : Bool :=
  let x := s.inst r.i
  decide ((s.hs.slots.filter (fun (k, y) => k / 256 = r.i.val && y.st = 3)).length ≥ x.slotq) ||
    (cmdOpc o = 0o20 && x.share ≠ 0 && decide (x.spindleTime > 100 * x.share.toNat)) ||
    decide (x.bufs + needBufs (cmdOpc o) > x.bufq)

/-- Lathes on which jobs of other devices still run (R470). -/
def guestsLeft (s : State) : BitVec 16 := s.hs.guests.foldl (fun (w : BitVec 16) g => w ||| g.job.left) 0

/-- Lathes that RUN and MIGRATE commands occupy, those accepted and not begun and moved jobs among them. -/
def lathesInUse (s : State) : BitVec 16 :=
  let w := s.hs.slots.foldl (fun (w : BitVec 16) (_, x) => match x.job with | some j => if x.st = 3 then w ||| j.left else w | none => w) (guestsLeft s)
  (accepted s).foldl (fun (w : BitVec 16) o =>
    if cmdOpc o = 0o20 then w ||| BitVec.ofNat 16 (cmdArg o 0)
    else if cmdOpc o = 0o21 && cmdArg o 2 = s.devId then w ||| BitVec.ofNat 16 (cmdArg o 1) else w) w

/-- Whether a command is a DMA transfer, and the channel that it names under ARM (R426). -/
def isDma (o : List Octet) : Bool := cmdOpc o = 0o10 || cmdOpc o = 0o11
def armChan (o : List Octet) : Option Nat := if isDma o && nfld (cmdArg o 2) 47 1 = 1 then some (nfld (cmdArg o 2) 48 3) else none

/-- Channels that hold no transfer and that no accepted command names. -/
def openChans (s : State) : List Nat :=
  (List.range 8).filter (fun c => (s.hs.chans.getD c none).isNone && !(accepted s).any (fun o => armChan o = some c))

/-- Whether a transfer finds no channel beside those accepted before it (R423 step 10); on the target of a forwarded command, whether the root has kept
none for it (R465). -/
def chansBusy (s : State) (r : SlotRef) (o : List Octet) : Bool :=
  if !s.isRoot then (s.slot r).chan.isNone
  else decide ((openChans s).length ≤ ((accepted s).filter (fun p => isDma p && (armChan p).isNone)).length) ||
    (match armChan o with | some c => !(openChans s).contains c | none => false)

/-- The channel on which a transfer starts: the one it names, or the first that is open (R426); of a forwarded one that which the root keeps for it. -/
def chanFor (s : State) (r : SlotRef) (o : List Octet) : Option Nat :=
  if !s.isRoot then (s.slot r).chan.map Fin.val
  else match armChan o with
    | some c => if (s.hs.chans.getD c none).isNone then some c else none
    | none => (openChans s).head?

/-- The slot of a seal context that a SEALSLOT or an ingress binding takes: context, slot, and whether it is an output. -/
def takesSlot (o : List Octet) : Option (Nat × Nat × Bool) :=
  if cmdOpc o = 0o31 then some (nfld (cmdArg o 0) 0 8, nfld (cmdArg o 0) 8 4, nfld (cmdArg o 0) 12 1 = 1)
  else if cmdOpc o = 0o10 && nfld (cmdArg o 2) 46 1 = 1 then some (nfld (cmdArg o 2) 34 8, nfld (cmdArg o 2) 42 4, false)
  else none

/-- Whether an accepted SEALCLOSE closes a context. -/
def closeDue (s : State) (c : Nat) : Bool := (accepted s).any (fun o => cmdOpc o = 0o32 && cmdArg o 0 = c)

/-- Whether a slot of a seal context is being taken, or its context closed, by a command accepted before (R423 step 10). -/
def sealBusy (s : State) (o : List Octet) : Bool :=
  match takesSlot o with
  | none => false
  | some (c, k, d) => closeDue s c || (accepted s).any (fun p => takesSlot p = some (c, k, d)) ||
      (!d && s.hs.chans.any (fun x => match x with | some x => x.bind && x.ctx.toNat = c && x.slot.val = k | none => false))

/-- Whether a binding or a command still acts on a context that SEALCLOSE names. -/
def closeBusy (s : State) (c : Nat) : Bool :=
  closeDue s c || (accepted s).any (fun o => (takesSlot o).any (fun x => x.1 = c)) || (s.ctx c).ins.any (fun x => x.2.hashing) ||
    s.hs.chans.any (fun x => match x with | some x => x.bind && x.ctx.toNat = c | none => false)

/-- Whether an accepted INSTCFG gives one of a set of lathes to another instance, or an accepted GRANT acts on one of the banks (R415, R423). -/
def lathesDue (s : State) (i : Nat) (w : BitVec 16) : Bool :=
  (accepted s).any (fun o => cmdOpc o = 0o2 && cmdArg o 0 ≠ i && (BitVec.ofNat 16 (cmdArg o 1) &&& w) ≠ 0)
def banksDue (s : State) (o : List Octet) : Bool :=
  (accepted s).any (fun p => cmdOpc p = 0o3 && (grantBanks p).any (fun n => (grantBanks o).contains n))

/-- A quiet device (R512). Commands held behind the MODESET as DELAYED_ORDER do not count. (DEDUCED: log entry 41) -/
def quiet (s : State) (r : SlotRef) : Bool :=
  s.hs.slots.all (fun (k, x) => k = slotKey r || (x.fwdTo.isNone && !(x.st = 1 || x.st = 2 || x.st = 3)) ||
    (x.st = 2 && x.status = csORDER && decide (x.order > (s.slot r).order))) &&
    (openCtxs s none).isEmpty && s.hs.chans.all (fun c => match c with | some x => !x.armed | none => true) &&
    s.groups.isEmpty

/-- Step 10: whether what the command needs is occupied, by a command that runs or by one accepted before it. (DEDUCED: log entry 39) -/
def stepBusy (s : State) (r : SlotRef) (o : List Octet) : Bool :=
  let a := cmdArg o
  let banksOut := s.pwr.zeroBusy && [0o2, 0o3, 0o10, 0o11, 0o20, 0o21, 0o31].contains (cmdOpc o)
  banksOut || (match cmdOpc o with
  | 0o002 =>
    (s.inst (Fin.ofNat 16 (a 0))).resetting || (lathesOf (BitVec.ofNat 16 (a 1))).any (latheZeroing s) ||
      lathesDue s (a 0) (BitVec.ofNat 16 (a 1))
  | 0o003 => (grantBanks o).any (bankZeroing s) || (s.inst (Fin.ofNat 16 (a 0))).resetting || banksDue s o
  | 0o004 => (s.inst (Fin.ofNat 16 (a 0))).resetting
  | 0o010 => chansBusy s r o || sealBusy s o
  | 0o011 => chansBusy s r o
  | 0o020 => (lathesInUse s &&& BitVec.ofNat 16 (a 0)) ≠ 0
  | 0o021 => match runningJseq s (a 0) with
    | some q => a 2 = s.devId && (lathesInUse s &&& BitVec.ofNat 16 (a 1) &&& ~~~ ((s.slot q).job.map Job.left).getD 0) ≠ 0
    | none => false
  | 0o030 => decide ((openCtxs s none).length + ((accepted s).filter (fun p => cmdOpc p = 0o30)).length ≥ 256)
  | 0o031 => sealBusy s o
  | 0o032 => closeBusy s (a 0)
  | 0o033 => s.ts.unsigned.any (fun x => x.jseq.toNat = a 1 && x.inst.toNat = r.i.val)
  | 0o050 => !quiet s r
  | _ => false)

/-- Step 11: the staging pool, and the 1,024 records that a SEALOPEN may not pass (R426). -/
def stepNobuf (s : State) (o : List Octet) : Bool :=
  decide (s.hs.pool + needBufs (cmdOpc o) > 256) ||
    (cmdOpc o = 0o30 && decide (s.ts.records.length + s.ts.unsigned.length + (openCtxs s none).length +
      ((accepted s).filter (fun p => cmdOpc p = 0o30)).length ≥ 1024))

/-- Step 12: room for the ACCEPT entry; a frozen journal takes none and needs none (R402). -/
def stepJnl (s : State) : Bool := s.jnl.resolved && !s.jnl.frozen && !canCommit s

/-- The outcome of a command's admission (R423), from step 2 for its first evaluation and from step 4 after it (R425). -/
def admitCode (s : State) (r : SlotRef) (o : List Octet) : BitVec 16 :=
  if !fieldsOk o then crBADCMD
  else if pfOnly (cmdOpc o) && r.i ≠ 0 then crPRIV
  else if !stepMode s o then crMODE
  else if cmdDeadline o = 0 then crDEADLINE
  else if !stepRange s r.i o then crRANGE
  else if journalFull s then crFULL
  else if stepOrder s r then csORDER
  else if stepQuota s r o then csQUOTA
  else if stepBusy s r o then csBUSY
  else if stepNobuf s o then csNOBUF
  else if stepJnl s then csJNLBUF
  else csACCEPTED

/-- NOWAIT turns a DELAYED outcome into a refusal (R423). -/
def underNowait (c : BitVec 16) : BitVec 16 :=
  if c = csQUOTA then crQUOTA else if c = csNOBUF then crNOBUF
  else if c = csORDER || c = csBUSY || c = csJNLBUF then crBUSY else c

/-- QPOS: the DELAYED commands that stand ahead, those at another device among them (R425). -/
def qposOf (s : State) (r : SlotRef) : BitVec 8 :=
  let y := s.slot r
  BitVec.ofNat 8 (min 255 (s.hs.slots.filter (fun (k, x) =>
    (x.st = 2 || (x.fwdTo.isSome && x.fst = 2)) && k ≠ slotKey r && slotAhead k x r y)).length)

/-- An ADMIT entry of a slot's present state. -/
def admitEntry (s : State) (r : SlotRef) : State :=
  let x := s.slot r
  postEntry s r.i { jseq := x.jseq, tag := x.tag, mbx := r.m, slot := r.k, status := x.status, kind := 0, qpos := x.qpos, fwd := x.fwd }

/-- A command is accepted: its ACCEPT entry is committed, its buffers claimed, and it runs (R423). (DEDUCED: log entry 38) -/
def acceptCmd (s : State) (r : SlotRef) (o : List Octet) : State :=
  let s := commit s { kind := jACCEPT, inst := BitVec.ofNat 8 r.i.val, mbx := BitVec.ofNat 8 r.m.val, slot := BitVec.ofNat 8 r.k.val,
                      code := BitVec.ofNat 16 (cmdOpc o), dig := (sha3 o).take 16 }
  let j : BitVec 64 := if s.jnl.frozen || !s.jnl.resolved then 0 else BitVec.ofNat 64 s.jnl.head
  let k := needBufs (cmdOpc o)
  let s := s.modInst r.i (fun x => { x with bufs := x.bufs + k })
  let s := { s with hs := { s.hs with pool := s.hs.pool + k } }
  admitEntry (s.modSlot r (fun x => { x with st := 3, status := csACCEPTED, qpos := 0, jseq := j, begun := false })) r

/-- One evaluation of a command. -/
def evaluate (s : State) (r : SlotRef) : State :=
  let o := (s.slot r).copy
  let c := admitCode s r o
  let c := if cmdFlags o % 2 = 1 then underNowait c else c
  if c = csACCEPTED then acceptCmd s r o
  else if c.toNat / 64 = 1 then
    let was := (s.slot r).st = 2
    let s := s.modSlot r (fun x => { x with st := 2, status := c })
    let q := qposOf s r
    let s := s.modSlot r (fun x => { x with qpos := q })
    if was then s else admitEntry s r
  else admitEntry (s.modSlot r (fun x => { x with st := 5, status := c, qpos := 0, jseq := 0 })) r

/-! ## Doorbells and evaluation (R416, R420, R425) -/

/-- Whether the headstock's firmware runs and evaluates commands. -/
def headRuns (s : State) : Bool :=
  [4, 5, 6, 7, 8, 10].contains s.pwr.mode.toNat && !s.hs.locked && !s.hs.halted && s.rst.inProgress.isNone

/-- A ring of one slot (R420, R422). -/
def ringSlot (r : SlotRef) (s : State) : State :=
  let x := s.slot r
  let y := s.inst r.i
  if x.st = 1 || x.st = 2 || x.st = 3 || x.fwdTo.isSome || !y.en || y.resetting then
    s.modInst r.i (fun y => { y with dbign := satAdd y.dbign 1 })
  else
    let s := { s with hs := { s.hs with arrivals := s.hs.arrivals + 1 } }
    s.setSlot r { st := 1, arrival := s.tb, order := s.hs.arrivals }

/-- A doorbell write: each selected slot in ascending order (R420). -/
def ringSlots (s : State) (i : Fin 16) (m : Fin 4) (bits : BitVec 64) : State :=
  (List.finRange 64).foldl (fun s k => if bits.getLsbD k.val then ringSlot ⟨i, m, k⟩ s else s) s

/-- The 64 octets of a slot as the host wrote them. -/
def slotOctets (s : State) (r : SlotRef) : List Octet :=
  (List.range 64).map (fun j => tget 0 (s.inst r.i).win (4096 * r.m.val + 64 * r.k.val + j))

/-- The octets of a slot whose stored nonets read uncorrectable. (DEDUCED: log entry 60) -/
def slotBad (s : State) (r : SlotRef) : List Nat :=
  (List.range 64).filter (fun j => tget false (s.inst r.i).winBad (4096 * r.m.val + 64 * r.k.val + j))

/-- Step 1 of R423: a slot fetch that ends as a bus error is counted and logged as a control path's (R318) and refuses the command.
The address and check bits that the entry names, and the TAG that was not read, are not stated: free values. (DEDUCED: log entry 60) -/
def refuseFetch (s : State) (r : SlotRef) : State :=
  let s := (slotBad s r).foldl (fun s _ =>
    let (i, s) := s.takeFree
    let w := Config.freeWord i
    logErrs { s with scr := { s.scr with ue := satAdd s.scr.ue 1 } }
      [{ code := errCtlBus, mem := 2, nonet := w.extractLsb' 34 2, syn := BitVec.ofNat 5 (Config.freeNat i), pa := w.extractLsb' 0 34 }]) s
  let (i, s) := s.takeFree
  admitEntry (s.modSlot r (fun x => { x with st := 5, status := crSLOTBUS, tag := BitVec.ofNat 16 (Config.freeNat i), copy := [] })) r

/-- The target device of a mailbox, on the root (R465). -/
def forwardTarget (s : State) (r : SlotRef) : BitVec 6 :=
  if s.isRoot && s.shape ≠ 0 then (tget 0 s.wov.fwd r.i.val).extractLsb' (6 * r.m.val) 6 else BitVec.ofNat 6 s.devId

/-- A forwarded transfer takes a channel of the root and two of its staging buffers, where they are free; the channel waits for the target's ACCEPTED
entry (R465). (DEDUCED: log entry 45) -/
def keepChannel (s : State) (r : SlotRef) (d : BitVec 6) : State :=
  let o := (s.slot r).copy
  if !isDma o || (s.slot r).chan.isSome || chansBusy s r o || decide (s.hs.pool + 2 > 256) then s
  else match chanFor s r o with
    | none => s
    | some c =>
      let x : Xfer := { ref := r, out := cmdOpc o = 0o11, host := cmdArg o 0, dev := cmdArg o 1, count := nfld (cmdArg o 2) 0 32,
                        packing := BitVec.ofNat 2 (nfld (cmdArg o 2) 32 2), far := some d }
      let s := s.modSlot r (fun y => { y with chan := some (Fin.ofNat 8 c) })
      { s with hs := { s.hs with pool := s.hs.pool + 2, chans := setAt s.hs.chans c (some x) } }

/-- A command goes on to its target device with the number of its forwarding (R465, R466). -/
def forwardTo (s : State) (r : SlotRef) (d : BitVec 6) : State :=
  let x := s.slot r
  sendMsg s (.forward d r x.copy x.arrival (.command x.fwd x.chan))

/-- What the root keeps for a forwarded transfer is free again. -/
def freeChannel (s : State) (r : SlotRef) : State :=
  match (s.slot r).chan with
  | none => s
  | some c =>
    if !s.isRoot then s
    else
      let s := s.modSlot r (fun y => { y with chan := none })
      { s with hs := { s.hs with pool := s.hs.pool - 2, chans := setAt s.hs.chans c.val none } }

/-- A forwarded transfer for which the root had no channel is sent on again once it has one (R465). -/
def retryForwarded (s : State) : State :=
  s.hs.slots.foldl (fun s (k, x) =>
    match x.fwdTo with
    | some d =>
      if x.fst = 2 && isDma x.copy && x.chan.isNone then
        (let s := keepChannel s (keySlot k) d
         if (s.slot (keySlot k)).chan.isSome then forwardTo s (keySlot k) d else s)
      else s
    | none => s) s

/-- COMMAND_ADMISSION: a PENDING slot is copied and evaluated, or sent on to its target (R420, R423, R465). While an entry is held no new
command is fetched (R421). -/
def commandAdmission (s : State) (r : SlotRef) : State :=
  if (s.slot r).st ≠ 1 || !headRuns s || !(s.inst r.i).held.isEmpty then s
  else if s.isRoot && !(slotBad s r).isEmpty then refuseFetch s r
  else
    let o := if s.isRoot then slotOctets s r else (s.slot r).copy
    let s := s.modSlot r (fun x => { x with copy := o, tag := cmdTag o })
    let d := forwardTarget s r
    if d.toNat = s.devId then evaluate s r
    else if devicePresent s d.toNat then
      forwardTo (keepChannel (s.modSlot r (fun x => { x with st := 0, fst := 1, fwdTo := some d, fwd := x.order })) r d) r d
    else admitEntry (s.modSlot r (fun x => { x with st := 5, status := crRANGE })) r
def execCommandAdmission (r : SlotRef) (s : State) : Host.Outcome State Fault Refusal := .next (commandAdmission s r)

/-- DELAYED commands in the order of R425. -/
def delayedOrder (s : State) : List SlotRef :=
  let ds := s.hs.slots.filter (fun x => x.2.st = 2)
  let key (x : Nat × Slot) : Nat × Nat × Nat × Nat := (x.1 / 64 % 4, x.2.arrival.toNat, x.1 / 256, x.2.order)
  let le (x y : Nat × Slot) : Bool :=
    let (a, b, c, d) := key x
    let (a', b', c', d') := key y
    a < a' || (a = a' && (b < b' || (b = b' && (c < c' || (c = c' && d ≤ d')))))
  (ds.foldl (fun acc x => acc.takeWhile (fun y => le y x) ++ x :: acc.dropWhile (fun y => le y x)) []).map (fun x =>
    keySlot x.1)

/-- DELAYED_REEVALUATION: every DELAYED command is evaluated again, a forwarded one that lacked a channel is sent on with it, and QPOS follows (R425,
R465). -/
def delayedReevaluation (s : State) : State :=
  if !headRuns s then s
  else
    let s := (delayedOrder s).foldl evaluate (if s.isRoot then retryForwarded s else s)
    (delayedOrder s).foldl (fun s r => s.modSlot r (fun x => { x with qpos := qposOf s r })) s
def execDelayedReevaluation (s : State) : Host.Outcome State Fault Refusal := .next (delayedReevaluation s)

/-! ## The window's ring registers (R416 to R418, R421) -/

/-- A write of RINGCFG. -/
def ringCfg (s : State) (i : Fin 16) (v : BitVec 32) : State :=
  let x := s.inst i
  let en := v.getLsbD 31
  let n := v.extractLsb' 0 5
  let x := { x with en := en, vec := v.extractLsb' 16 6, log2n := if 10 ≤ n.toNat ∧ n.toNat ≤ 16 then n else x.log2n }
  let x := if en && !(s.inst i).en then { x with ringHead := 0, ringTail := 0, phase := true, held := [] } else x
  pump (s.setInst i x) i

/-- A write of RINGHEAD. -/
def ringHeadWrite (s : State) (i : Fin 16) (v : BitVec 32) : State := pump (s.modInst i (fun x => { x with ringHead := v })) i

/-! ## Epochs (R429) -/

/-- BNK_OWN's EPOCH put to a value, in a pending bank once PENDING clears (R429). -/
def bankEpoch (e : BitVec 9) (b : Bank) : Bank := applyNewEpoch { b with newEpoch := some e }

/-- Spindles of the lathes of a set. -/
def spindlesOf (w : BitVec 16) : List Nat := (List.range 128).filter (fun k => w.getLsbD (k / 8))

/-- A spindle told to stop runs to its boundary and ends its group there. -/
def runDown : Nat → State → Nat → State
  | 0, s, _ => s
  | fuel + 1, s, k =>
    match (s.spin k).queue with
    | [] => s
    | gi :: _ => match s.group gi with
      | none => s
      | some g =>
        let p := g.part (k - g.spindle 0)
        if !g.started || p.stop.isNone then s
        else if p.next < p.stop.getD 0 && p.next < p.last1 then
          (let s' := elementStep s k
           if s' = s then s else runDown fuel s' k)
        else groupEndAt s k

/-- The running groups of a set of lathes are suspended through SPN_CTL, and run to their boundaries (R429 step 1). (DEDUCED: log entry 44) -/
def suspendAll (s : State) (w : BitVec 16) : State :=
  let ks := spindlesOf w
  let s := ks.foldl (fun s k => stopQueue s k stSUSPENDED) s
  ks.foldl (fun s k => runDown 8192 s k) s

/-- The new epoch goes to the seal contexts, which record the change (R390), the banks and the lathes of an instance (R429 step 2). (DEDUCED: log entry 44) -/
def applyEpoch (s : State) (i : Fin 16) (e : BitVec 9) : State :=
  let s := s.modInst i (fun x => { x with epoch := e })
  let s := (heldCtxs s (some i)).foldl (fun s c => s.modCtx c (fun x => { x with epoch := e, migrated := x.migrated || decide (x.epoch ≠ e) })) s
  let s := (List.range 1024).foldl (fun s n => if grantedTo s i n then dropFixes (s.modBank n (bankEpoch e)) n else s) s
  (lathesOf (s.inst i).lathes).foldl (fun s l => s.modLathe l (fun x => { x with epoch := e })) s

/-- An epoch advance (R429): on the root the other devices are told, and their acknowledgements awaited; any other device asks the root, which holds the
value, for it (R469). (DEDUCED and DESIGN CHOICE: log entries 44, 49) -/
def advanceEpoch (s : State) (i : Fin 16) : State :=
  let s := suspendAll s (s.inst i).lathes
  let await (s : State) (ds : List Nat) : State :=
    { s with wov := { s.wov with ackWait := tput [] s.wov.ackWait i.val (ds.map (BitVec.ofNat 6)) } }
  if !s.isRoot then await (sendMsg s (.epochAck i true)) [0]
  else
    let e := (s.inst i).epoch + 1
    let s := applyEpoch s i e
    if s.shape = 0 then s
    else await (sendMsg s (.epoch i e)) ((List.range (shapeSize s.shape s.ringSize)).filter (fun d => d ≠ s.devId && devicePresent s d))

/-! ## Stopping commands (R428, R431) -/

/-- The output slots of a context are marked BROKEN. -/
def breakOuts (s : State) (c : Nat) : State :=
  s.modCtx c (fun x => { x with outs := x.outs.map (fun (k, o) => (k, { o with broken := true })) })

/-- The banks that an ingress binding borrowed pass back to their owners (R387). -/
def returnOwners (s : State) (x : Xfer) : State := x.owners.foldl (fun s (n, w) => bnkOwn s n w) s

/-- A channel's transfer is discarded. -/
def dropXfer (s : State) (r : SlotRef) : State :=
  let s := s.hs.chans.foldl (fun s c => match c with | some x => if x.ref = r then returnOwners s x else s | none => s) s
  { s with hs := { s.hs with chans := s.hs.chans.map (fun c => match c with | some x => if x.ref = r then none else some x | none => none) } }

/-- The groups of a set of lathes are told to stop. -/
def stopLathes (s : State) (w : BitVec 16) (code : Nat) : State := (spindlesOf w).foldl (fun s k => stopQueue s k code) s

/-- Whether a context and slot pair waits for a command. -/
def dropHashing (s : State) (r : SlotRef) : State :=
  s.ts.ctxs.foldl (fun s (c, x) => x.ins.foldl (fun s (k, i) =>
    if i.hashing && i.owner = some r then (freeRange s i.first i.words).modIn c k (fun _ => {}) else s) s) s

/-- Lathes that the RUN commands of other slots and the jobs of other devices still hold. -/
def othersLeft (s : State) (r : SlotRef) : BitVec 16 :=
  s.hs.slots.foldl (fun (w : BitVec 16) (k, x) => match x.job with
    | some j => if x.st = 3 && k ≠ slotKey r then w ||| j.left else w
    | none => w) (guestsLeft s)

/-- A RUNNING command is stopped with a status, and with a group status for the groups it runs (R428, R431). -/
def stopCmd (s : State) (r : SlotRef) (status : BitVec 16) (code : Nat) : State :=
  let x := s.slot r
  if x.st ≠ 3 || x.ended then s
  else
    let s := match x.job with
      | some j =>
        let s := stopLathes s (j.lathes &&& ~~~ othersLeft s r) code
        let s := (lathesOf j.left).foldl (fun s l => s.modThr ⟨l, 0⟩ Thread.disarm) s
        let s := match j.moved with
          | some d => sendMsg s (.forward d r [] 0 (.stop code))
          | none => s
        if j.sealed then breakOuts s j.ctx.toNat else s
      | none => s
    let s := dropHashing (dropXfer s r) r
    let back := (s.ts.closeWait.filter (fun y => y.2 = r)).map (fun y => y.1.toNat)
    let s := back.foldl (fun s c => s.modCtx c (fun y => { y with st := .opened })) s
    let s := { s with
      ts := { s.ts with closeWait := s.ts.closeWait.filter (fun y => y.2 ≠ r) }
      wov := { s.wov with ops := s.wov.ops.filter (fun o => o.kind ≠ .command r) }
      hs := { s.hs with insts := s.hs.insts.map (fun (k, y) => (k, { y with resetCmds := y.resetCmds.filter (· ≠ r) })) } }
    finishCmd s r status

/-- A command's deadline expires: a RUNNING command is stopped, a DELAYED one refused (R425, R428). -/
def deadlineActs (s : State) (r : SlotRef) : State :=
  if (s.slot r).st = 3 then stopCmd s r ceDEADLINE stDEADLINE
  else admitEntry (s.modSlot r (fun x => { x with st := 5, status := crDEADLINE, qpos := 0 })) r

/-- A job of another device is stopped with a group status (R428, R470). -/
def stopGuest (s : State) (g : Guest) (code : Nat) : State :=
  let s := { s with hs := { s.hs with guests := s.hs.guests.filter (fun x => !(x.home = g.home && x.r = g.r)) } }
  let s := stopLathes s (g.job.lathes &&& ~~~ othersLeft s g.r) code
  if g.job.sealed then breakOuts s (guestCtx g.home g.job.ctx) else s

/-- Jobs whose first failing group has been noted end with VECFAIL, those of other devices too (R426). (DEDUCED: log entry 23) -/
def settleJobs (s : State) : State :=
  let s := s.hs.guests.foldl (fun s g => match g.job.vec with
    | some v => endGuest s g ceVECFAIL (v.setWidth 64)
    | none => s) s
  s.hs.slots.foldl (fun s (k, x) => match x.job with
    | some j => match j.vec with
      | some v => if x.st = 3 then
          finishCmd s (keySlot k) ceVECFAIL (v.setWidth 64) else s
      | none => s
    | none => s) s

/-- A job one of whose lathes has ended with a status. -/
def Job.ends (j : Job) (l : Fin 16) (status : Word) : Job :=
  { j with left := setBit j.left l.val false, status := if j.status = 0 then status else j.status }

/-- The status and RESULT0 with which a job ends (R426). -/
def Job.outcome (j : Job) : BitVec 16 × BitVec 64 := if j.status ≠ 0 then (ceJOBFAIL, j.status.setWidth 64) else (ceDONE, 0)

/-- A lathe of a job of another device has ended it there (R426, R470). -/
def guestEnd (s : State) (l : Fin 16) (status : Word) : State :=
  match s.hs.guests.find? (fun g => g.job.left.getLsbD l.val) with
  | none => s
  | some g =>
    let j := g.job.ends l status
    if j.left = 0 then endGuest s g j.outcome.1 j.outcome.2
    else { s with hs := { s.hs with guests := s.hs.guests.map (fun x => if x.home = g.home && x.r = g.r then { x with job := j } else x) } }

/-- A lathe of a RUN job has executed SYSCALL with code 1: at the last one the command ends (R426), and the watchdog
that counts its deadline there is disarmed (R428). (DEDUCED: log entries 17, 42) -/
def jobEnd (s : State) (l : Fin 16) (status : Word) : State :=
  match s.hs.slots.find? (fun (_, x) => x.st = 3 && (match x.job with | some j => j.left.getLsbD l.val | none => false)) with
  | none => guestEnd s l status
  | some (k, x) =>
    let r := keySlot k
    match x.job with
    | none => s
    | some j =>
      let s := s.modThr ⟨l, 0⟩ Thread.disarm
      let j := j.ends l status
      let s := s.modSlot r (fun x => { x with job := some j })
      if j.left ≠ 0 then s else finishCmd s r j.outcome.1 j.outcome.2

/-! ## Instance reset (R431) -/

/-- The command slots of an instance that a predicate picks. -/
def slotsOf (s : State) (i : Fin 16) (p : Slot → Bool) : List SlotRef :=
  (s.hs.slots.filter (fun (k, x) => k / 256 = i.val && p x)).map (fun (k, _) => ⟨i, Fin.ofNat 4 (k / 64), Fin.ofNat 64 k⟩)

/-- Wovas operations of an instance are discarded; a core access that waited for one ends as an error. -/
def dropRemote (s : State) (i : Fin 16) : State :=
  let mine (o : ROp) : Bool := match o.kind with
    | .load th => (s.inst i).lathes.getLsbD th.l.val
    | .store th => (s.inst i).lathes.getLsbD th.l.val
    | .stream k _ _ => (s.inst i).lathes.getLsbD (k.val / 8)
    | .command r => r.i = i
    | .burst _ _ => false
  (s.wov.ops.filter mine).foldl (fun s o => match o.kind with
    | .load _ => endOp s o (some .refused)
    | .store _ => endOp s o (some .refused)
    | _ => dropOp s o) s

/-- A command that another device runs ends here with a status: its slot is DONE, its FINISH is posted, and entries that come for it later are
discarded (R431, R466). -/
def loseCommand (s : State) (r : SlotRef) (status : BitVec 16) : State :=
  let x := s.slot r
  let s := (freeChannel s r).modSlot r (fun x => { x with st := 4, fst := 0, qpos := 0, status := status, fwdTo := none })
  postEntry s r.i { jseq := x.jseq, tag := x.tag, mbx := r.m, slot := r.k, status := status, kind := 1 }

/-- The start of an instance reset, with the INSTRESET command that asked for it, if any; one accepted before a reset that runs ends with it.
(DEDUCED: log entry 43) -/
def instReset (s : State) (i : Fin 16) (by_ : Option SlotRef) : State :=
  if (s.inst i).resetting then s.modInst i (fun x => { x with resetCmds := x.resetCmds ++ by_.toList })
  else
    let s := s.modInst i (fun x => { x with resetting := true, zeroing := false, resetCmds := by_.toList })
    let s := (slotsOf s i (fun x => x.st = 1 || x.st = 2 || (x.fwdTo.isSome && x.fst ≠ 3))).foldl (fun s r => (freeChannel s r).setSlot r {}) s
    let s := (slotsOf s i (fun x => x.fwdTo.isSome)).foldl (fun s r => loseCommand s r ceABORTED) s
    let running := (slotsOf s i (fun x => x.st = 3)).filter (fun r => some r ≠ by_)
    let s := running.foldl (fun s r => stopCmd s r ceABORTED stABORTED) s
    let s := dropRemote s i
    let s := stopLathes s (s.inst i).lathes stABORTED
    let s := { s with hs := { s.hs with guests := s.hs.guests.filter (fun g => g.r.i ≠ i) } }
    advanceEpoch (abandonCtxs s (some i)) i

/-- FLR: the function's instance is reset; of the PF, every instance, and VF Enable clears (R446). (DEDUCED: log entry 43) -/
def flr (s : State) (fn : Fin 16) : State :=
  if fn = 0 then
    let s := { s with pci := { s.pci with vfEnable := false } }
    (List.finRange 16).foldl (fun s i => instReset s i none) s
  else instReset s fn none
def execFlr (fn : Fin 16) (s : State) : Host.Outcome State Fault Refusal := .next (flr s fn)

/-- Banks granted to an instance and not retired. -/
def grantedBanks (s : State) (i : Fin 16) : List Nat := (List.range 1024).filter (fun n => grantedTo s i n && !(s.bank n).retired)

/-- Whether a nonet lies in the scratchpad of a lathe of a set. -/
def inScratch (w : BitVec 16) (k : Nat) : Bool :=
  decide (4 * 0o000400000000 ≤ k ∧ k < 4 * 0o000420000000) && w.getLsbD ((k / 4 - 0o000400000000) / 2 ^ 18)

/-- The scrubber's waiting writes to the scratchpads of a set of lathes are cancelled by writes over them (R321). -/
def dropScratchFixes (s : State) (w : BitVec 16) : State :=
  { s with scr := { s.scr with walkScratch := { s.scr.walkScratch with
      fixes := s.scr.walkScratch.fixes.filter (fun x => !inScratch w x.1) } } }

/-- Zero over the scratchpads of a set of lathes. -/
def zeroScratch (s : State) (w : BitVec 16) : State :=
  dropScratchFixes { s with mem := s.mem.filter (fun x => !inScratch w x.1) } w

/-- INSTANCE_ZEROING: with every group of the instance ended and the test engine free, its banks pass to TEST by handovers; once none of them is
pending or under seal lock any more, a destroying run over them begins and its scratchpads are zeroed (R57, R326, R328, R431). (DEDUCED: log entry 43) -/
def instanceZeroing (s : State) (i : Fin 16) : State :=
  let x := s.inst i
  if !x.resetting || x.zeroing || s.scr.march.isSome || s.groups.any (fun g => match g.2 with | some g => g.inst.toNat = i.val | none => false) then s
  else
    let ns := grantedBanks s i
    if ns.all (fun n => (s.bank n).testReady) then
      (marchOver (zeroScratch s x.lathes) ns false false (some i)).modInst i (fun x => { x with zeroing := true })
    else takeForTest s ns
def execInstanceZeroing (i : Fin 16) (s : State) : Host.Outcome State Fault Refusal := .next (instanceZeroing s i)

/-- ZEROING_DONE: what is left of the run ends, the banks return by handovers to NONE with INST, LEND and LSCOPE as GRANT sets them, INSTRESET ends,
and the window takes its reset values (R57, R431). (DEDUCED and DESIGN CHOICE: log entries 40, 43) -/
def zeroingDone (s : State) (i : Fin 16) : State :=
  let x := s.inst i
  if !x.zeroing then s
  else
    let s := if s.scr.march.any (fun m => m.inst = some i) then marchRest 128 s else s
    let s := giveBanks s (grantedBanks s i) (fun b => { b with ownCl := 6, ownId := 0, inst := BitVec.ofNat 4 i.val, lend := 2, lscope := 1 })
    let s := x.resetCmds.foldl (fun s r => finishCmd s r ceDONE) s
    let s := { s with hs := { s.hs with slots := s.hs.slots.filter (fun y => y.1 / 256 ≠ i.val) } }
    s.modInst i (fun x => { x with resetting := false, zeroing := false, resetCmds := [], ringbase := 0, en := false, vec := 0,
                                   log2n := 10, ringHead := 0, ringerr := false, dbign := 0 })
def execZeroingDone (i : Fin 16) (s : State) : Host.Outcome State Fault Refusal := .next (zeroingDone s i)

end Sys2Proof.Machine
end

