-- ==== Sys2Proof/Machine/Cmds.lean ====
section
/-! DEFINITION. The Berdo commands that the headstock carries out by itself or with the tailstock: instances, grants, jobs, seals, journal
and time (R426), and the transfers of the DMA engine (R37 to R41, R387, R441 to R443). -/
namespace Sys2Proof.Machine

/-- A command row acts on its slot once: it is RUNNING, holds the row's opcode, and has not begun. (DESIGN CHOICE: log entry 4) -/
def runCmd (opc : Nat) (r : SlotRef) (f : List Octet → State → State) (s : State) : State :=
  let x := s.slot r
  if x.st = 3 && cmdOpc x.copy = opc && !x.begun then f x.copy (s.modSlot r (fun x => { x with begun := true })) else s

def execNop (r : SlotRef) (s : State) : Host.Outcome State Fault Refusal :=
  .next (runCmd 0o001 r (fun _ s => finishCmd s r ceDONE) s)

/-! ## Instances and grants -/

/-- INSTCFG. A change of LATHES advances the instance's epoch (R415, R429). -/
def instCfg (s : State) (r : SlotRef) (o : List Octet) : State :=
  let i : Fin 16 := Fin.ofNat 16 (cmdArg o 0)
  let w : BitVec 16 := BitVec.ofNat 16 (cmdArg o 1)
  let old := (s.inst i).lathes
  let s := s.modInst i (fun x => { x with lathes := w, slotq := nfld (cmdArg o 2) 0 9, bufq := nfld (cmdArg o 2) 16 9,
                                          share := BitVec.ofNat 32 (cmdArg o 3) })
  let s := if w = old then s else advanceEpoch (suspendAll s old) i
  finishCmd s r ceDONE
def execInstcfg (r : SlotRef) (s : State) : Host.Outcome State Fault Refusal := .next (runCmd 0o002 r (fun o s => instCfg s r o) s)

/-- GRANT, which waits for the handovers of its banks to end. A bank retired since its admission keeps its fields (R58). -/
def grantRun (s : State) (r : SlotRef) (o : List Octet) : State :=
  let i : Fin 16 := Fin.ofNat 16 (cmdArg o 0)
  finishCmd ((grantBanks o).foldl (fun s n => grantBank s i n) s) r ceDONE
def execGrant (r : SlotRef) (s : State) : Host.Outcome State Fault Refusal :=
  .next (if nfld (cmdArg (s.slot r).copy 0) 8 1 = 0 && (grantBanks (s.slot r).copy).all (fun n => !(s.bank n).isPending) then
    runCmd 0o003 r (fun o s => grantRun s r o) s else s)

/-- GRANT with REVOKE: the banks are zeroed as instance reset does: they pass to TEST by handovers, and once none of them is pending or under seal
lock any more a destroying run zeroes them, they pass on to the reset value of BNK_OWN, and leave the instance; until then the command has not begun
(R57, R326, R426). (DEDUCED and DESIGN CHOICE: log entry 40) -/
def grantRevoke (s : State) (r : SlotRef) (o : List Octet) : State :=
  let ns := (grantBanks o).filter (fun n => !(s.bank n).retired)
  if ns.all (fun n => (s.bank n).testReady) then
    let s := giveBanks (marchRest 128 (marchOver s ns false false none)) ns (fun _ => {})
    finishCmd ((grantBanks o).foldl (fun s n => s.modBank n (fun b => { b with granted := none })) s) r ceDONE
  else (takeForTest s ns).modSlot r (fun x => { x with begun := false })
def execGrantRevoke (r : SlotRef) (s : State) : Host.Outcome State Fault Refusal :=
  .next (if nfld (cmdArg (s.slot r).copy 0) 8 1 = 1 && s.scr.march.isNone then runCmd 0o003 r (fun o s => grantRevoke s r o) s else s)

/-- INSTRESET: the reset starts; the command ends after zeroing (R431). -/
def instresetRun (s : State) (r : SlotRef) (o : List Octet) : State := instReset s (Fin.ofNat 16 (cmdArg o 0)) (some r)
def execInstreset (r : SlotRef) (s : State) : Host.Outcome State Fault Refusal :=
  .next (runCmd 0o004 r (fun o s => instresetRun s r o) s)

/-- An octet of eight flags. -/
def flagOctet (f : Nat → Bool) (base : Nat) : Octet :=
  (List.range 8).foldl (fun (a : Octet) j => if f (8 * base + j) then setBit a j true else a) 0

/-- The 150 octets of the capacity map. -/
def capacityMap (s : State) : List Octet :=
  (List.range 128).map (flagOctet (fun n => (s.bank n).retired)) ++ (List.range 16).map (flagOctet (fun k => (s.spin k).inSvc)) ++
    (List.range 2).map (flagOctet (fun l => (s.lathe (Fin.ofNat 16 l)).inSvc)) ++
    leOctets 4 (BitVec.ofNat 32 (65536 * ((List.range 1024).filter (fun n => !(s.bank n).retired)).length))

/-- A command that writes octets to host memory and ends with their number. (DEDUCED and DESIGN CHOICE: log entry 40) -/
def deliverOctets (s : State) (r : SlotRef) (o : List Octet) (count : Nat) (data : List Octet) : State :=
  finishCmd (hostOctets s r.i (cmdArg o 0) data) r ceDONE (BitVec.ofNat 64 count)

/-- QUERY. -/
def queryRun (s : State) (r : SlotRef) (o : List Octet) : State := deliverOctets s r o 150 (capacityMap s)
def execQuery (r : SlotRef) (s : State) : Host.Outcome State Fault Refusal := .next (runCmd 0o005 r (fun o s => queryRun s r o) s)

/-- ABORT. -/
def abortRun (s : State) (r : SlotRef) (o : List Octet) : State :=
  let s := match runningJseq s (cmdArg o 0) with
    | some q => stopCmd s q ceABORTED stABORTED
    | none => s
  finishCmd s r ceDONE
def execAbort (r : SlotRef) (s : State) : Host.Outcome State Fault Refusal := .next (runCmd 0o006 r (fun o s => abortRun s r o) s)

/-! ## DMA (R37 to R41, R426, R436, R441 to R443) -/

/-- The requester that moves a transfer's words: the DMA channel, and on the target of a forwarded command the Wovas engine (R311, R465). (DEDUCED:
log entry 45) -/
def xferReq (s : State) (c : Nat) (i : Fin 16) : Req :=
  if s.isRoot then reqDma c (BitVec.ofNat 4 i.val) else reqWovas (BitVec.ofNat 4 i.val) (some (s.inst i).epoch)

/-- A channel takes a DMA command (R423, R426). The banks of an ingress binding pass to its requester with
LEND 0, their BNK_OWN words kept (R387). On the target of a forwarded command the channel is the root's, whose trigger and host requests are the root's
too (R465). -/
def dmaStart (s : State) (r : SlotRef) (o : List Octet) (out : Bool) (c : Nat) : State :=
  let a2 := cmdArg o 2
  let arm := nfld a2 47 1 = 1
  let bind := nfld a2 46 1 = 1
  let n := nfld a2 0 32
  let banks := if bind then banksOfRange s (cmdArg o 1) n else []
  let x : Xfer := { ref := r, out := out, host := cmdArg o 0, dev := cmdArg o 1, count := n, packing := BitVec.ofNat 2 (nfld a2 32 2),
                    ctx := BitVec.ofNat 8 (nfld a2 34 8), slot := Fin.ofNat 16 (nfld a2 42 4), bind := bind, armed := arm && s.isRoot,
                    running := !arm || (!s.isRoot && !out), owners := banks.map (fun b => (b, ownWord (s.bank b))) }
  let owner := if s.isRoot then put 30 3 2 ||| put 23 7 c else put 30 3 3
  let s := banks.foldl (fun s b => bnkOwn s b (owner ||| put 19 4 r.i.val ||| put 0 9 (s.bank b).epoch.toNat)) s
  let s := { s with hs := { s.hs with chans := setAt s.hs.chans c (some x) } }
  if !s.isRoot || arm || out then s else sendRequest s x

/-- A transfer command starts on its channel; it waits while there is none. -/
def dmaRow (opc : Nat) (r : SlotRef) (out : Bool) (s : State) : State :=
  match chanFor (s.modSlot r (fun x => { x with begun := true })) r (s.slot r).copy with
  | some c => runCmd opc r (fun o s => dmaStart s r o out c) s
  | none => s
def execDmain (r : SlotRef) (s : State) : Host.Outcome State Fault Refusal := .next (dmaRow 0o010 r false s)
def execDmaout (r : SlotRef) (s : State) : Host.Outcome State Fault Refusal := .next (dmaRow 0o011 r true s)

/-- Whether one of a group's octets came poisoned. -/
def octetsBad (o : List (Octet × Bool)) : Bool := o.any Prod.snd

/-- Whole groups of ingress octets: the words so far, each poisoned where an octet of it is, the octets left over, and whether the next group is
malformed (R37 to R39, R442). -/
def unpackGroups (p : Nat) : Nat → Nat → List (Octet × Bool) → List (Word × Bool) × List (Octet × Bool) × Bool
  | 0, _, o => ([], o, false)
  | fuel + 1, left, o =>
    let n := match p with
      | 0 => 8
      | 1 => if left ≥ 2 then 9 else 5
      | 2 => 4
      | _ => 8
    if left = 0 || o.length < n then ([], o, false)
    else
      let g := o.take n
      let v := octetsToNat (g.map Prod.fst)
      let ws : List (Word × Bool) := match p with
        | 0 => [(BitVec.ofNat 36 v, octetsBad g)]
        | 1 => if left ≥ 2 then [(BitVec.ofNat 36 v, octetsBad (g.take 5)), (BitVec.ofNat 36 (v / 2 ^ 36), octetsBad (g.drop 4))]
          else [(BitVec.ofNat 36 v, octetsBad g)]
        | 2 => [(BitVec.ofNat 36 (ieeeIn36 v), octetsBad g)]
        | _ => [(BitVec.ofNat 36 (ieeeIn72 v), octetsBad g), (BitVec.ofNat 36 (ieeeIn72 v / 2 ^ 36), octetsBad g)]
      let bad : Bool := (p = 0 || (p = 1 && left < 2)) && decide (v ≥ 2 ^ 36)
      if bad then ([], o, true)
      else
        let (more, rest, b) := unpackGroups p fuel (left - ws.length) (o.drop n)
        (ws ++ more, rest, b)

/-- The status of a transfer's word that was refused, as RESULT0 of JOBFAIL: NOWNER at a bank, whatever refused the channel there; for a scratchpad,
of which the rule does not speak, BUSERR (R104, R426). (DESIGN CHOICE: log entry 45) -/
def busCode (pa : Nat) : Nat := if areaOf pa = .bank then stNOWNER else stBUSERR

/-- Words written to the device in order; the answer is none while a bank holds the request, and otherwise how many were written and
whether a bank refused the next. -/
def dmaWrite (q : Req) : List (Word × Bool) → Nat → Nat → State → Option (State × Nat × Bool)
  | [], _, n, s => some (s, n, false)
  | w :: r, a, n, s =>
    match writeMem s q a w.1 0xF w.2 with
    | (s', .ok) => dmaWrite q r (a + 1) (n + 1) s'
    | (s', .bus) => some (s', n, true)
    | (_, .stall) => none

/-- The transfer of a channel is over for the data side: it fails with a status and results. -/
def failXfer (x : Xfer) (st : BitVec 16) (r0 r1 : Nat) : Xfer := { x with failed := some (st, BitVec.ofNat 64 r0, BitVec.ofNat 64 r1) }

def State.setChan (s : State) (c : Nat) (x : Option Xfer) : State := { s with hs := { s.hs with chans := setAt s.hs.chans c x } }

/-- EPRX counts a completion with EP at the root (R442, R451). -/
def countEp (s : State) (ep : Bool) : State :=
  if ep && s.isRoot then { s with pci := { s.pci with eprx := satAdd s.pci.eprx 1 } } else s

/-- A completion for the transfer of another device, which the root's channel serves: it goes on to that device (R311, R465). -/
def farCompletion (s : State) (c : Nat) (x : Xfer) (d : BitVec 6) (cpl : HostCpl) : State :=
  if x.out || !x.running then s
  else match cpl with
    | .ecrc => ecrcFails s x.ref.i
    | .data o ep =>
      let y := { x with got := x.got + o.length }
      sendRequest (sendMsg ((countEp s ep).setChan c (some y)) (.hostCpl d c cpl)) y
    | _ =>
      let s := if cpl = .timeout then countCto s else s
      sendMsg (s.setChan c (some { x with running := false })) (.hostCpl d c cpl)

/-- DMA_READ_COMPLETION: octets from the host are unpacked and written; an EP completion's words are the poison pattern; an error
ends the transfer; a completion that fails its ECRC is discarded (R38, R442, R443). (DEDUCED and DESIGN CHOICE: log entries 7, 45) -/
def dmaReadCompletion (s : State) (c : Nat) (cpl : HostCpl) : State :=
  match s.hs.chans.getD c none with
  | none => s
  | some x =>
    match x.far with
    | some d => farCompletion s c x d cpl
    | none =>
    if x.out || !x.running || x.failed.isSome then s
    else match cpl with
      | .unsupported => s.setChan c (some (failXfer x ceHOSTERR 0 0))
      | .aborted => s.setChan c (some (failXfer x ceHOSTERR 0 0))
      | .timeout => (if s.isRoot then countCto s else s).setChan c (some (failXfer x ceHOSTERR 0 0))
      | .ecrc => ecrcFails s x.ref.i
      | .data o ep =>
        let (ws, rest, bad) := unpackGroups x.packing.toNat (x.octets.length + o.length) (x.count - x.done) (x.octets ++ o.map (fun b => (b, ep)))
        match dmaWrite (xferReq s c x.ref.i) ws (x.dev + x.done) 0 s with
        | none => s
        | some (s, n, refused) =>
          let y := { x with done := x.done + n, got := x.got + o.length, octets := rest, poison := x.poison || ep }
          let y := if refused then failXfer y ceJOBFAIL (busCode (x.dev + y.done)) y.done
            else if bad then failXfer y cePACKERR y.done 0
            else y
          let s := (countEp s ep).setChan c (some y)
          if y.failed.isSome || !s.isRoot then s else sendRequest s y
def execDmaReadCompletion (c : Fin 8) (cpl : HostCpl) (s : State) : Host.Outcome State Fault Refusal :=
  .next (dmaReadCompletion s c.val cpl)

/-- The words an egress transfer reads, in order; none while a bank holds the request. Each quad is read once, and every nonet of it is
examined (R317). -/
def dmaRead (q : Req) : Bool → Nat → Nat → State → Option (State × List (Word × Bool) × Bool)
  | _, 0, _, s => some (s, [], false)
  | first, n + 1, a, s =>
    match readMem s q false a 1 0xF 0 with
    | (s', .ok ws) =>
      let s' := if first || a % 4 = 0 then (List.range 4).foldl (fun s i => examine s false (a / 4 * 4 + i) 0xF) s' else s'
      (dmaRead q false n (a + 1) s').map (fun (t, r, b) => (t, ws ++ r, b))
    | (s', .bus) => some (s', [], true)
    | (_, .stall) => none

/-- A word that leaves: a poisoned one as zero octets (R442). -/
def leaving (x : Word × Bool) : Word := if x.2 then 0 else x.1

/-- The octets of egress words, each marked when its TLP is to carry EP (R37, R40 to R42, R442). (DEDUCED and DESIGN CHOICE: log entry 45) -/
def packOut (p : Nat) : List (Word × Bool) → List (Octet × Bool)
  | [] => []
  | [a] =>
    let k := match p with | 0 => 8 | 1 => 5 | 2 => 4 | _ => 4
    let v := match p with | 2 => ieeeOut36 (leaving a).toNat | _ => (leaving a).toNat
    (octetsLE k v).map (fun b => (b, a.2))
  | a :: b :: r =>
    match p with
    | 1 => (leOctets 9 (mkD (leaving b) (leaving a))).map (fun o => (o, a.2 || b.2)) ++ packOut p r
    | 3 =>
      let po := a.2 || b.2
      (octetsLE 8 (if po then 0 else ieeeOut72 (mkD b.1 a.1).toNat)).map (fun o => (o, po)) ++ packOut p r
    | 2 => (octetsLE 4 (if a.2 then 0 else ieeeOut36 a.1.toNat)).map (fun o => (o, a.2)) ++ packOut p (b :: r)
    | _ => (octetsLE 8 (leaving a).toNat).map (fun o => (o, a.2)) ++ packOut p (b :: r)

/-- A channel is free again, DMADONE fires and the command ends (R311, R358); the channel of a forwarded transfer is the root's, which frees it with the
entry (R465). -/
def endXfer (s : State) (c : Nat) (x : Xfer) (st : BitVec 16) (r0 r1 : BitVec 64) : State :=
  let s := s.setChan c none
  finishCmd (if s.isRoot then firePulse s (pselDmaDone c) else s) x.ref st r0 r1

/-- The end of an ingress transfer: an ingress binding forms its root and its banks pass back and are locked in the same action (R387); one whose
context is gone ends with SEALFAIL. (DEDUCED and DESIGN CHOICE: log entry 37) -/
def endIngress (s : State) (c : Nat) (x : Xfer) : State :=
  match x.failed with
  | some (st, r0, r1) => endXfer (returnOwners s x) c x st r0 r1
  | none =>
    if x.done < x.count then s
    else
      let st := if x.poison then ceDONEP else ceDONE
      if !x.bind then endXfer s c x st 0 0
      else
        if !ctxOpenFor s x.ref.i x.ctx.toNat then endXfer (returnOwners s x) c x ceSEALFAIL 0 0
        else
        let (s, root) := bindSlot s x.ctx.toNat x.slot.val x.dev x.count
        let s := holdRange (returnOwners s x) x.dev x.count
        endXfer s c x st (rootResults root).1 (rootResults root).2

/-- Whether a group that has not ended writes a word of a device range: by an element of a memory destination (R311). -/
def groupWrites (s : State) (g : Group) (lo n : Nat) : Bool :=
  (strsOf g.members).any (fun x => x.isDst && dMem x.q && (List.range g.vl).any (fun i =>
    match (streamXlate s g (g.spindle 0) {} .write (strVa x i)).2 with
    | .ok pa _ =>
      let a := (ownArray s pa).getD pa
      decide (a < lo + n) && decide (lo < a + 2)
    | .stall => true
    | _ => false))

/-- Whether a group has still to write a range that a transfer reads (R311). -/
def resultsDue (s : State) (x : Xfer) : Bool :=
  s.groups.any (fun g => match g.2 with | some g => groupWrites s g x.dev x.count | none => false)

/-- The whole of an egress transfer, which waits for the groups that write its range: its words are read in order and sent; a bank that refuses
one ends it there (R311, R426). (DEDUCED and DESIGN CHOICE: log entry 45) -/
def egress (s : State) (c : Nat) (x : Xfer) : State :=
  if resultsDue s x then s
  else match dmaRead (xferReq s c x.ref.i) true x.count x.dev s with
  | none => s
  | some (s, ws, refused) =>
    let s := hostData s x.ref.i x.host (packOut x.packing.toNat ws)
    if refused then endXfer s c x ceJOBFAIL (BitVec.ofNat 64 (busCode (x.dev + ws.length))) (BitVec.ofNat 64 ws.length)
    else endXfer s c x (if ws.any Prod.snd then ceDONEP else ceDONE) 0 0

/-- DMA_TRANSFER_DONE. -/
def dmaTransferDone (s : State) (c : Nat) : State :=
  match s.hs.chans.getD c none with
  | none => s
  | some x => if !x.running || x.far.isSome then s else if x.out then egress s c x else endIngress s c x
def execDmaTransferDone (c : Fin 8) (s : State) : Host.Outcome State Fault Refusal := .next (dmaTransferDone s c.val)

/-- COMPLETION_TIMEOUT: the read of an ingress transfer ends its command with HOSTERR (R443). -/
def completionTimeout (s : State) (c : Nat) : State :=
  match s.hs.chans.getD c none with
  | none => s
  | some x =>
    match x.far with
    | some d => farCompletion s c x d .timeout
    | none =>
    if x.out || !x.running || x.failed.isSome || !s.isRoot then s
    else
      let s := countCto s
      endIngress (s.setChan c (some (failXfer x ceHOSTERR 0 0))) c (failXfer x ceHOSTERR 0 0)
def execCompletionTimeout (c : Fin 8) (s : State) : Host.Outcome State Fault Refusal := .next (completionTimeout s c.val)

/-! ## Jobs -/

/-- The lathe monitor enters the supervisor runtime on thread 0: G1 the job argument, G2 the low word of JSEQ (R426). (DEDUCED: log entry 42) -/
def enterRuntime (t : Thread) (entry arg j : Word) : Thread :=
  let t := t.settle.released
  { (t.goto entry) with level := .supervisor, m := { t.m with busy := false }, g := tput 0 (tput 0 t.g 1 arg) 2 j }

/-- The monitor arms the thread watchdog with the ticks that remain of the command's deadline; a deadline past what MWDOG counts leaves it as it is
(R274, R428). (DESIGN CHOICE: log entry 42) -/
def armDeadline (x : Slot) (t : Thread) : Thread :=
  let n := 100 * cmdDeadline x.copy - x.ticks
  if n = 0 || decide (n ≥ 2 ^ 30) then t
  else { t with mwdAsk := none, mwdEn := true, mwdCount := BitVec.ofNat 30 n, mwdRun := true, mwdJob := true }

/-- RUN. (DEDUCED: log entry 42) -/
def runRun (s : State) (r : SlotRef) (o : List Octet) : State :=
  let w : BitVec 16 := BitVec.ofNat 16 (cmdArg o 0)
  let j : Word := (s.slot r).jseq.setWidth 36
  let s := (lathesOf w).foldl (fun s l =>
    s.modThr ⟨l, 0⟩ (fun t => armDeadline (s.slot r) (enterRuntime t (BitVec.ofNat 36 (cmdArg o 1)) (BitVec.ofNat 36 (cmdArg o 2)) j))) s
  s.modSlot r (fun x => { x with job := some { lathes := w, left := w, ctx := BitVec.ofNat 8 (nfld (cmdArg o 3) 0 8),
                                                sealed := nfld (cmdArg o 3) 8 1 = 1 } })
def execRun (r : SlotRef) (s : State) : Host.Outcome State Fault Refusal := .next (runCmd 0o020 r (fun o s => runRun s r o) s)

/-! ## MIGRATE (R470) -/

/-- MIGRATE on one device, its epoch advanced: the banks of the old lathes and their scratchpads are copied to the new; the sealed banks' copies are
locked and await their roots; the job goes on under its new lathes. The new groups take the old groups' SKEW at once, without R46's refusal or drain,
which no rule speaks of here. (DEDUCED and DESIGN CHOICE: log entries 44, 64) -/
def migrateLocal (s : State) (r q : SlotRef) (ps : List (Fin 16 × Fin 16)) (new : BitVec 16) : State :=
  let s := ps.foldl (fun s p => examineLathe s p.1) s
  let m0 := s.mem
  let mem := ps.foldl (fun m (a, b) => copyCells (copyCells m m0 (lathePlaces a) (lathePlaces b) latheSpan) m0
    (scratchBase a) (scratchBase b) scratchSpan) s.mem
  let s := ps.foldl (fun s p => ((List.range 64).map (fun k => 64 * p.2.val + k)).foldl dropFixes s) (dropScratchFixes { s with mem := mem } new)
  -- the copies lie under the mapping of the banks they came from (R45)
  let s := (ps.flatMap (fun (a, b) => skewsOf s a b)).foldl (fun s (k, b) => s.modBank (8 * k) (fun y => { y with skew := b })) s
  let locked := lockedBanks s ps
  let s := ps.foldl (fun s p => placeBanks s r.i p.2) s
  let s := locked.foldl lockAt s
  let s := s.modSlot q (fun x => { x with job := x.job.map (fun j => { j with lathes := new, left := movedLeft ps j.left }) })
  finishCmd s r ceDONE ((s.inst r.i).epoch.setWidth 64)

/-- The quads of a lathe's banks leave for another device as writes of the Wovas engine, poisoned nonets poisoned (R316, R318, R470). -/
def sendLathe (r : SlotRef) (d : BitVec 6) (s : State) (p : Fin 16 × Fin 16) : State :=
  (List.range (2 ^ 20)).foldl (fun s j =>
    let pa := p.1.val * 2 ^ 22 + 4 * j
    let w (i : Nat) : Word := (s.readWord (placeOf s (pa + i))).1
    let po : BitVec 16 := (List.range 16).foldl (fun m i => setBit m i (isBad (s.cell (4 * placeOf s (pa + i / 4) + i % 4)))) 0
    sendRemote s (.command r) d (BitVec.ofNat 26 (p.2.val * 2 ^ 22 + 4 * j)) true (BitVec.ofNat 4 r.i.val) (s.inst r.i).epoch
      { w0 := w 0, w1 := w 1, w2 := w 2, w3 := w 3 } 0xFFFF po) s

/-- MIGRATE to another device, its epoch advanced: the banks not under seal lock pass to class WOVAS, the other device is told of the placement with
its scratchpads, and the quads leave as remote writes, the last of whose acknowledgements ends the move (R470). (DEDUCED: log entry 44) -/
def migrateRemote (s : State) (r : SlotRef) (q : SlotRef) (ps : List (Fin 16 × Fin 16)) (new : BitVec 16) (d : BitVec 6) : State :=
  if !devicePresent s d.toNat then finishCmd s r ceUNREACH
  else
    let s := ps.foldl (fun s p => wovasBanks (examineLathe s p.1) r.i p.1) s
    let s := sendMsg s (.forward d q [] 0 (.place new (ps.flatMap (fun (a, b) => skewsOf s a b)) (ps.map (fun (a, b) => (b, padCells s a)))))
    ps.foldl (sendLathe r d) s

/-- MIGRATE. On a device that is not the root it acts a first time to ask the root for the advance, and goes on once the new value has come (R469). -/
def migrateRun (s : State) (r : SlotRef) : State :=
  let o := (s.slot r).copy
  if (s.slot r).st ≠ 3 || cmdOpc o ≠ 0o21 || (s.slot r).begun then s
  else if !s.isRoot && !(s.slot r).asked then (advanceEpoch s r.i).modSlot r (fun x => { x with asked := true })
  else if !s.isRoot && !(tget [] s.wov.ackWait r.i.val).isEmpty then s
  else
    let s := s.modSlot r (fun x => { x with begun := true })
    match placementOf s r with
    | none => finishCmd s r ceTGTRESET
    | some (q, ps) =>
      let s := if s.isRoot then advanceEpoch s r.i else s
      let new : BitVec 16 := BitVec.ofNat 16 (cmdArg o 1)
      let s := ps.foldl (fun s p => s.modThr ⟨p.1, 0⟩ Thread.disarm) s
      if cmdArg o 2 = s.devId then migrateLocal s r q ps new else migrateRemote s r q ps new (BitVec.ofNat 6 (cmdArg o 2))
def execMigrate (r : SlotRef) (s : State) : Host.Outcome State Fault Refusal := .next (migrateRun s r)

/-! ## Seals -/

/-- The TIME of a committed entry. -/
def entryTime (s : State) (n : Nat) : BitVec 72 :=
  match s.jnl.entries.find? (fun e => e.1 = n) with
  | some e => e.2.time
  | none => s.tb

/-- SEALOPEN: the lowest free context opens with this command's JSEQ and digest (R383, R426). (DEDUCED and DESIGN CHOICE: log entry 37) -/
def sealopenRun (s : State) (r : SlotRef) (o : List Octet) : State :=
  match (List.range 256).find? (fun c => (s.ctx c).st = .closed) with
  | none => finishCmd s r ceSEALFAIL
  | some c =>
    if s.ts.pendingLock.isSome then finishCmd s r ceSEALFAIL
    else
    let j := (s.slot r).jseq
    let s := s.setCtx c { st := .opened, inst := BitVec.ofNat 4 r.i.val, jseq := j, dig := sha3 o, epoch := (s.inst r.i).epoch,
                          tstart := entryTime s j.toNat, tainted := s.ts.taint }
    finishCmd s r ceDONE (BitVec.ofNat 64 c)
def execSealopen (r : SlotRef) (s : State) : Host.Outcome State Fault Refusal := .next (runCmd 0o030 r (fun o s => sealopenRun s r o) s)

/-- SEALSLOT: an output slot is declared; an input range is locked and waits to be hashed (R383, R387). One whose context is gone ends with
SEALFAIL. -/
def sealslotRun (s : State) (r : SlotRef) (o : List Octet) : State :=
  let c := nfld (cmdArg o 0) 0 8
  let k := nfld (cmdArg o 0) 8 4
  if !ctxOpenFor s r.i c then finishCmd s r ceSEALFAIL
  else if nfld (cmdArg o 0) 12 1 = 1 then
    finishCmd (s.modOut c k (fun x => { x with typ := some (BitVec.ofNat 4 (cmdArg o 1)), declared := cmdArg o 2 })) r ceDONE
  else
    holdRange (s.modIn c k (fun x => { x with hashing := true, first := cmdArg o 1, words := cmdArg o 2, owner := some r }))
      (cmdArg o 1) (cmdArg o 2)
def execSealslot (r : SlotRef) (s : State) : Host.Outcome State Fault Refusal := .next (runCmd 0o031 r (fun o s => sealslotRun s r o) s)

/-- SEALCLOSE; of a context that is gone no record can be formed (R424). -/
def execSealclose (r : SlotRef) (s : State) : Host.Outcome State Fault Refusal :=
  .next (runCmd 0o032 r (fun o s => if ctxOpenFor s r.i (cmdArg o 0) then requestClose s (cmdArg o 0) r else finishCmd s r ceSEALFAIL) s)

/-- RECFETCH: the record leaves for the host and is freed. -/
def recfetchRun (s : State) (r : SlotRef) (o : List Octet) : State :=
  let mine (x : SealRec) : Bool := x.jseq.toNat = cmdArg o 1 && x.inst.toNat = r.i.val
  match s.ts.records.find? mine with
  | none => finishCmd s r ceSEALFAIL
  | some x =>
    let data := x.body ++ fit 96 x.sig
    let s := { s with ts := { s.ts with records := s.ts.records.filter (fun y => !mine y) } }
    deliverOctets s r o data.length data
def execRecfetch (r : SlotRef) (s : State) : Host.Outcome State Fault Refusal := .next (runCmd 0o033 r (fun o s => recfetchRun s r o) s)

/-! ## Journal, certificates and time -/

/-- JNLREAD: entries, or checkpoint slots as stored. An entry overwritten since the command's admission is not stated: free octets. -/
def jnlreadRun (s : State) (r : SlotRef) (o : List Octet) : State :=
  let n := nfld (cmdArg o 2) 0 13
  let data := (List.range n).flatMap (fun k =>
    if nfld (cmdArg o 2) 16 1 = 1 then fit 256 (tget [] s.jnl.ckpts (cmdArg o 1 + k))
    else match s.jnl.entries.find? (fun e => e.1 = cmdArg o 1 + k) with
      | some e => entryBytes e.1 e.2
      | none => fit 64 (Config.overwrittenEntry (cmdArg o 1 + k)))
  deliverOctets s r o n data
def execJnlread (r : SlotRef) (s : State) : Host.Outcome State Fault Refusal := .next (runCmd 0o040 r (fun o s => jnlreadRun s r o) s)

/-- JNLDRAIN: the drained SEQ moves, a DRAIN entry is committed and checkpointed, and entries that waited for room follow. -/
def jnldrainRun (s : State) (r : SlotRef) (o : List Octet) : State :=
  if s.jnl.frozen then finishCmd s r ceJOBFAIL
  else
    let s := { s with jnl := { s.jnl with drained := cmdArg o 0 } }
    let s := updateJnlFill s
    let s := commit s { kind := jDRAIN, ref := BitVec.ofNat 64 (cmdArg o 0) }
    finishCmd (flushJournal s) r ceDONE
def execJnldrain (r : SlotRef) (s : State) : Host.Outcome State Fault Refusal := .next (runCmd 0o041 r (fun o s => jnldrainRun s r o) s)

/-- CERTREAD. -/
def certreadRun (s : State) (r : SlotRef) (o : List Octet) : State :=
  let data := Config.certificate (cmdArg o 1 = 1)
  deliverOctets s r o data.length data
def execCertread (r : SlotRef) (s : State) : Host.Outcome State Fault Refusal := .next (runCmd 0o042 r (fun o s => certreadRun s r o) s)

/-- The value that TIMESET writes into the timebase (R394, R426). -/
def timesetValue (o : List Octet) : BitVec 72 := BitVec.ofNat 72 (cmdArg o 0 + 2 ^ 64 * cmdArg o 1)

/-- TIMESET once its value stands in the timebase: SET becomes 1, and the entry is committed (R394). (DEDUCED: log entry 34) -/
def timesetEnds (s : State) (r : SlotRef) (o : List Octet) : State :=
  let s := commit s { kind := jTIMESET, dig := leOctets 9 (timesetValue o) }
  finishCmd { s with ts := { s.ts with set := true } } r ceDONE

end Sys2Proof.Machine
end

