-- ==== Sys2Proof/Machine/Wovas.lean ====
section
/-! DEFINITION. The Wovas engine (R453 to R478): links and their loss, remote requests and replies, forwarded commands, the array barrier,
epochs across devices, and the WOV registers. -/
namespace Sys2Proof.Machine

def State.wlink (s : State) (k : Nat) : WLink := tget {} s.wov.links k
def State.modWlink (s : State) (k : Nat) (f : WLink → WLink) : State :=
  { s with wov := { s.wov with links := tmod {} s.wov.links k f } }
def State.bar (s : State) (i : Nat) : Bar := tget {} s.wov.bars i
def State.modBar (s : State) (i : Nat) (f : Bar → Bar) : State := { s with wov := { s.wov with bars := tmod {} s.wov.bars i f } }

/-- The device's incarnation (R471). -/
def State.incarnation (s : State) : BitVec 8 := BitVec.ofNat 8 s.rst.ctrInc.read

/-! ## The array barrier (R467, R468) -/

/-- Lathes in service of an instance on this device. -/
def ownLathes (s : State) (i : Fin 16) : BitVec 16 :=
  (lathesOf (s.inst i).lathes).foldl (fun w l => if (s.lathe l).inSvc then setBit w l.val true else w) 0

/-- The participants of an instance's barrier, as 16 · device + lathe. -/
def participants (s : State) (i : Fin 16) : List Nat :=
  let ds := if s.shape = 0 then [s.devId] else (List.range (shapeSize s.shape s.ringSize)).filter (devicePresent s)
  ds.flatMap (fun d => (lathesOf (if d = s.devId then ownLathes s i else Config.remoteLathes d i.val)).map (fun l => 16 * d + l.val))

/-- The participating device with the lowest ID. -/
def barrierHead (s : State) (i : Fin 16) : Nat := (((participants s i).map (· / 16)).head?).getD s.devId

/-- A generation ends, after the removal of a participant or not: its threads are released, those that an interrupt took from their AFENCE among
them, the caches of the waiting ones are invalidated, and the registers follow (R306, R467). -/
def releaseBarrier (s : State) (i : Fin 16) (broken : Bool) : State :=
  let s := s.modBar i.val (fun b => { b with broken := b.broken || broken || !b.removed.isEmpty, gen := !b.gen, done := satAdd b.done 1,
                                             arrived := [], removed := [] })
  (lathesOf (ownLathes s i)).foldl (fun s l => (threadsOf l).foldl (fun s th =>
    match (s.thr th).hold with
    | .afence true _ =>
      (dropCache (dropCache s l false) l true).modThr th (fun t => { (t.goto (t.pc + 1)) with hold := .free })
    | _ => s.modThr th (fun t => { t with fencedAt := t.fencedAt.map (fun x => (x.1, true)) })) s) s

/-- The collecting device releases the generation once every remaining participant has arrived. -/
def checkBarrier (s : State) (i : Fin 16) : State :=
  let b := s.bar i.val
  let left := (participants s i).filter (fun c => !b.removed.contains c)
  if b.arrived.isEmpty || barrierHead s i ≠ s.devId || !left.all (fun c => b.arrived.contains c) then s
  else
    let s := if s.shape = 0 then s else sendMsg s (.release i (!b.removed.isEmpty))
    releaseBarrier s i false

/-- The lathes of a device among participants. -/
def lathesAt (d : Nat) (codes : List Nat) : BitVec 16 :=
  codes.foldl (fun (w : BitVec 16) c => if c / 16 = d then setBit w (c % 16) true else w) 0

/-- A report of arrivals and of lathes that are removed, to the device that collects: one message for each device whose lathes they are. -/
def reportBarrier (s : State) (i : Fin 16) (here gone : List Nat) : State :=
  ((here ++ gone).map (· / 16)).eraseDups.foldl (fun s d =>
    sendMsg s (.arrival (BitVec.ofNat 6 (barrierHead s i)) (BitVec.ofNat 6 d) i (lathesAt d here) (lathesAt d gone))) s

/-- Arrivals of lathes at the barrier; a device that does not collect reports them. -/
def barrierArrive (s : State) (i : Fin 16) (codes : List Nat) : State :=
  let new := codes.filter (fun c => !(s.bar i.val).arrived.contains c)
  let s := s.modBar i.val (fun b => { b with arrived := b.arrived ++ new })
  if barrierHead s i = s.devId then checkBarrier s i
  else if new.isEmpty then s
  else reportBarrier s i new []

/-- Participants are removed from a generation that has begun; `told` are those that this device alone may know of, and reports where another device
collects (R468). (DEDUCED: log entry 49) -/
def removeParticipants (s : State) (i : Fin 16) (codes told : List Nat) : State :=
  let s := if (s.bar i.val).arrived.isEmpty then s
    else s.modBar i.val (fun b => { b with removed := b.removed ++ codes.filter (fun c => !b.removed.contains c) })
  if codes.isEmpty then s
  else if barrierHead s i = s.devId then checkBarrier s i
  else if told.isEmpty then s
  else reportBarrier s i [] told

/-- BARRIER_ARRIVAL: a device reports lathes of one that have arrived, and those that are removed. -/
def barrierArrival (s : State) (i : Fin 16) (dev about : BitVec 6) (w gone : BitVec 16) : State :=
  let codes (w : BitVec 16) : List Nat := (lathesOf w).map (fun l => 16 * about.toNat + l.val)
  linkPulse (removeParticipants (barrierArrive s i (codes w)) i (codes gone) []) dev.toNat
def execBarrierArrival (i : Fin 16) (report : ReportFrom) (w gone : BitVec 16) (s : State) : Host.Outcome State Fault Refusal :=
  .next (barrierArrival s i report.dev report.about w gone)

/-- BARRIER_RELEASE, with whether a participant was removed. -/
def barrierRelease (s : State) (i : Fin 16) (broken : Bool) : State := linkPulse (releaseBarrier s i broken) (barrierHead s i)
def execBarrierRelease (i : Fin 16) (broken : Bool) (s : State) : Host.Outcome State Fault Refusal := .next (barrierRelease s i broken)

/-! ## Links (R453, R454, R460, R466, R472) -/

/-- Forwarded commands whose target has become unreachable end with LINKDOWN (R466). -/
def loseForwarded (s : State) : State :=
  s.hs.slots.foldl (fun s (k, x) =>
    match x.fwdTo with
    | none => s
    | some d =>
      if devicePresent s d.toNat then s
      else loseCommand s (keySlot k) ceLINKDOWN) s

def presentDevices (s : State) : List Nat := (List.range (shapeSize s.shape s.ringSize)).filter (devicePresent s)

/-- Devices whose route has changed while operations are outstanding to them hold new ones (R461). -/
def noteMoved (s0 s : State) : State :=
  let ds := (s.wov.ops.map (fun o => o.dev.toNat)).eraseDups.filter (fun d => pathTo s0 d ≠ pathTo s d)
  { s with wov := { s.wov with moved := ds.foldl (fun t d => tput 0 t d s.wov.nextTag) s.wov.moved } }

/-- The participants of an instance on another device. -/
def remoteCodes (i : Fin 16) (d : Nat) : List Nat := (lathesOf (Config.remoteLathes d i.val)).map (fun l => 16 * d + l.val)

/-- The barrier of an instance after a change of routes: lost participants are removed, and arrivals are reported to the device that now
collects (R467, R468). -/
def rerouteBarrier (s0 s : State) (gone : List Nat) (i : Fin 16) : State :=
  let mine := (s.bar i.val).arrived.filter (fun c => c / 16 = s.devId)
  let s := if barrierHead s i = barrierHead s0 i || barrierHead s i = s.devId || mine.isEmpty then s else reportBarrier s i mine []
  removeParticipants s i (gone.flatMap (remoteCodes i)) []

def rerouteBarriers (s0 s : State) (gone : List Nat) : State := (List.finRange 16).foldl (fun s i => rerouteBarrier s0 s gone i) s

/-- The instances with lathes on one of a set of devices advance their epochs: the root by itself, any other device by asking it (R429, R469).
(DEDUCED: log entry 49) -/
def advanceOn (s : State) (ds : List Nat) : State :=
  (List.finRange 16).foldl (fun s i => if ds.any (fun d => decide (Config.remoteLathes d i.val ≠ 0)) then advanceEpoch s i else s) s

/-- Epochs are acknowledged no more by devices that are gone. -/
def dropAcks (s : State) (gone : List Nat) : State :=
  { s with wov := { s.wov with ackWait := tmapVals [] (fun l => l.filter (fun d => !gone.contains d.toNat)) s.wov.ackWait } }

/-- Moved jobs on one of a set of devices end with a status (R429). -/
def loseMoved (s : State) (ds : List Nat) (status : BitVec 16) : State :=
  s.hs.slots.foldl (fun s (k, x) =>
    if x.job.any (fun j => j.moved.any (fun d => ds.contains d.toNat)) then finishCmd s (keySlot k) status else s) s

/-- What follows from a change of routes: the operations to lost devices, the commands forwarded to them and the jobs moved there, the barriers, and at
the loss of a link the epochs of the placements that it carried (R429, R458, R461, R466, R468). -/
def afterRoutes (s0 s : State) (lost : Bool) : State :=
  let was := presentDevices s0
  let gone := was.filter (fun d => !devicePresent s d)
  let s := endOps (noteMoved s0 s) (fun o => gone.contains o.dev.toNat) .linkDown
  let s := rerouteBarriers s0 (loseMoved (loseForwarded (dropAcks s gone)) gone ceLINKDOWN) gone
  if lost && s.isRoot then advanceOn s (was.filter (fun d => gone.contains d || decide (pathTo s0 d ≠ pathTo s d))) else s

/-- WOVAS_LINK_TRAINED: two lanes or four; a neighbour other than the expected one keeps the link down (R454, R456). -/
def linkTrained (s : State) (k : Fin 6) (lanes : Nat) (nbr : BitVec 6) (nbrLink : BitVec 3) (inc : BitVec 8) : State :=
  match neighbour s.shape s.ringSize s.devId k.val with
  | none => s
  | some (d, j) =>
    if lanes < 2 then s
    else if nbr.toNat ≠ d || nbrLink.toNat ≠ j then s.modWlink k.val (fun x => { x with miswire := true })
    else
      let u := s.modWlink k.val (fun x => { x with up := true, width := if lanes ≥ 4 then 2 else 1, nbr := nbr, nbrLink := nbrLink, ninc := inc })
      let u := { u with wov := { u.wov with deadLinks := u.wov.deadLinks.filter (fun c => c ≠ 8 * s.devId + k.val && c ≠ 8 * d + j) } }
      rerouteBarriers s (noteMoved s u) []
def execWovasLinkTrained (k : Fin 6) (lanes : Fin 5) (nbr : BitVec 6) (nbrLink : BitVec 3) (inc : BitVec 8) (s : State) :
    Host.Outcome State Fault Refusal := .next (linkTrained s k lanes.val nbr nbrLink inc)

/-- A link goes down, with a DOWN notice of the neighbour or without one: the packets on it are lost, the two ends tell every device, and routes are
taken anew (R460, R472). (DEDUCED and DESIGN CHOICE: log entry 49) -/
def linkLost (s : State) (k : Fin 6) (notice : Bool) : State :=
  let x := s.wlink k.val
  if !x.up then s
  else
    let via := (presentDevices s).filter (fun d => (routeTo s d).map Prod.fst = some k.val)
    let u := s.modWlink k.val (fun x => { x with up := false, width := 0, downs := satAdd x.downs 1 })
    let u := sendMsg u (.linkState (BitVec.ofNat 6 s.devId) k false notice)
    let u := if notice then endOps u (fun o => o.dev = x.nbr) .targetReset else u
    afterRoutes s (endOps u (fun o => via.contains o.dev.toNat) .linkDown) true
def execWovasLinkDown (k : Fin 6) (s : State) : Host.Outcome State Fault Refusal := .next (linkLost s k false)
/-- LINK_IDLE_TIMEOUT: as a failed link (R472). -/
def execLinkIdleTimeout (k : Fin 6) (s : State) : Host.Outcome State Fault Refusal := .next (linkLost s k false)
/-- DOWN_NOTICE: operations aimed at the device that goes down end with TGTRESET (R472). -/
def execDownNotice (k : Fin 6) (s : State) : Host.Outcome State Fault Refusal := .next (linkLost s k true)

/-- LINK_STATE_MESSAGE: the table is computed anew, and a message that brings news is flooded on (R460). Where the device at the far end has given a DOWN
notice, the operations aimed at it end with TGTRESET here too (R472). -/
def linkStateMessage (s : State) (dev : BitVec 6) (k : Fin 6) (up notice : Bool) : State :=
  let c := 8 * dev.toNat + k.val
  if dev.toNat = s.devId || s.wov.deadLinks.contains c = !up then s
  else
    let u := { s with wov := { s.wov with deadLinks := if up then s.wov.deadLinks.filter (· ≠ c) else s.wov.deadLinks ++ [c] } }
    let u := sendMsg u (.linkState dev k up notice)
    let far := (neighbour s.shape s.ringSize dev.toNat k.val).map Prod.fst
    let u := if notice && !up then endOps u (fun o => some o.dev.toNat = far) .targetReset else u
    afterRoutes s u (!up)
def execLinkStateMessage (dev : BitVec 6) (k : Fin 6) (news : LinkNews) (s : State) : Host.Outcome State Fault Refusal :=
  .next (linkStateMessage s dev k news.up news.notice)

/-- INCARNATION_ANNOUNCEMENT: the neighbour has been reset: its barrier participants are removed, which its neighbours alone know, the jobs that had
moved there end, and the epochs of its placements advance (R429, R468, R471, R479). (DEDUCED: log entry 49) -/
def incarnationAnnouncement (s : State) (k : Fin 6) (inc : BitVec 8) : State :=
  let x := s.wlink k.val
  if !x.up then s
  else
    let u := s.modWlink k.val (fun x => { x with ninc := inc })
    if inc = x.ninc then u
    else
      let d := x.nbr.toNat
      let u := (List.finRange 16).foldl (fun s i => removeParticipants s i (remoteCodes i d) (remoteCodes i d)) u
      advanceOn (loseMoved u [d] ceTGTRESET) [d]
def execIncarnationAnnouncement (k : Fin 6) (inc : BitVec 8) (s : State) : Host.Outcome State Fault Refusal :=
  .next (incarnationAnnouncement s k inc)

/-! ## Remote operations (R462, R464, R471) -/

/-- The three parts of a write's words: what is stored, under which nonets, poisoned or not. -/
def requestWords (q : RemoteReq) (poison : Bool) : List (Word × BitVec 4 × Bool) :=
  (List.range 4).map (fun i =>
    let m := q.mask.extractLsb' (4 * i) 4
    let p := q.poison.extractLsb' (4 * i) 4
    (quadGet q.data i, if poison then m &&& p else m &&& ~~~ p, poison))

/-- The answer of this device to a request: none while the bank holds it. -/
def serveRemote (s : State) (q : RemoteReq) : Option (State × RemoteResult) :=
  if q.inc ≠ s.incarnation || s.rst.inProgress.isSome then some (s, .targetReset)
  else if q.write then
    match writeQuad s (reqWovas q.inst (some q.epoch)) q.addr.toNat (requestWords q false) with
    | (_, .stall) => none
    | (s, .bus) => some (s, .refused)
    | (s', .ok) =>
      if q.mask &&& q.poison = 0 then some (s', .ack)
      else match writeQuad (if q.mask &&& ~~~ q.poison = 0 then s else s') (reqWovas q.inst (some q.epoch)) q.addr.toNat (requestWords q true) with
        | (_, .stall) => none
        | (s, .bus) => some (s, .refused)
        | (s, .ok) => some (s, .ack)
  else
    match readMem s (reqWovas q.inst none) false (q.addr.toNat / 4 * 4) 4 0xF 0xF with
    | (_, .stall) => none
    | (s, .bus) => some (s, .refused)
    | (s, .ok ws) =>
      let w (i : Nat) : Word := (ws.getD i (0, false)).1
      -- the poison marks nonet by nonet
      let at_ (i : Nat) : Bool := (s.readMasked (placeOf s (q.addr.toNat / 4 * 4 + i / 4)) (BitVec.ofNat 4 (2 ^ (i % 4)))).2
      let po : BitVec 16 := (List.range 16).foldl (fun (m : BitVec 16) i => setBit m i (at_ i)) 0
      some (s, .data { w0 := w 0, w1 := w 1, w2 := w 2, w3 := w 3 } po)

/-- A request as it travels on. -/
def requestMessage (q : RemoteReq) : WMsg :=
  .request q.dest q.dev q.tag q.cl q.id q.addr q.write q.inst q.epoch q.inc (quadOctets q.data) q.mask q.poison

/-- Two requests of one master (R345, R461). -/
def sameSender (p q : RemoteReq) : Bool := p.dev = q.dev && p.cl = q.cl && p.id = q.id

/-- A request for this device is presented to its bank, and answered with this device's incarnation; one that the bank stalls waits, and those of its
master behind it (R461, R462, R471). (DESIGN CHOICE: log entry 7) -/
def takeRequest (s : State) (q : RemoteReq) : State :=
  let waits : State := { s with wov := { s.wov with waiting := s.wov.waiting ++ [q] } }
  if s.wov.waiting.any (sameSender q) then waits
  else match serveRemote s q with
    | none => waits
    | some (s, res) => sendMsg s (.reply q.dev q.tag s.incarnation res)

/-- Requests that wait are presented again. -/
def resumeRemote (s : State) : State :=
  if s.wov.waiting.isEmpty then s
  else s.wov.waiting.foldl takeRequest { s with wov := { s.wov with waiting := [] } }

/-- REMOTE_REQUEST: one for another device is forwarded, or returns as LINKDOWN where no route to it is left (R460, R472). -/
def remoteRequest (s : State) (q : RemoteReq) : State :=
  if q.dest.toNat = s.devId then takeRequest s q
  else if devicePresent s q.dest.toNat then sendMsg s (requestMessage q)
  else sendMsg s (.reply q.dev q.tag s.incarnation .linkDown)
def execRemoteRequest (_ : Fin 7) (q : RemoteReq) (s : State) : Host.Outcome State Fault Refusal := .next (remoteRequest s q)

def countLate (s : State) : State := { s with wov := { s.wov with late := satAdd s.wov.late 1 } }

/-- REMOTE_REPLY: one for another device is forwarded while a route is left. Here an unknown tag or another incarnation than expected is discarded and
counted (R464, R471, R472). (DEDUCED and DESIGN CHOICE: log entry 49) -/
def remoteReply (s : State) (dest : BitVec 6) (tag : Nat) (inc : BitVec 8) (res : RemoteResult) : State :=
  if dest.toNat ≠ s.devId then (if devicePresent s dest.toNat then sendMsg s (.reply dest tag inc res) else s)
  else match s.wov.ops.find? (fun o => o.tag = tag) with
    | none => countLate s
    | some o => if inc ≠ o.inc && res ≠ .targetReset && res ≠ .linkDown then countLate s else endOp s o (some res)
def execRemoteReply (addr : ReplyTo) (inc : BitVec 8) (res : RemoteResult) (s : State) : Host.Outcome State Fault Refusal :=
  .next (remoteReply s addr.dest addr.tag inc res)

/-- A remote operation has reached its 4 µs limit (R464). -/
def remoteTimeout (s : State) (tag : Nat) : State :=
  match s.wov.ops.find? (fun o => o.tag = tag) with
  | none => s
  | some o => endOp { s with wov := { s.wov with rto := satAdd s.wov.rto 1 } } o none

/-! ## Forwarded commands (R465, R466) -/

/-- A forwarded command: the target keeps the copy with the root's arrival time and evaluates it from step 2. One that it has already is sent again for
the channel that the root has kept for it meanwhile. -/
def takeForwarded (s : State) (r : SlotRef) (copy : List Octet) (arrival : BitVec 72) (num : Nat) (chan : Option (Fin 8)) : State :=
  if s.isRoot then s
  else if (s.slot r).fwd = num && (s.slot r).st = 2 then s.modSlot r (fun x => { x with chan := chan })
  else
    let s := { s with hs := { s.hs with arrivals := s.hs.arrivals + 1 } }
    let s := s.setSlot r { st := 1, copy := fit 64 copy, tag := cmdTag copy, arrival := arrival, ticks := (s.tb - arrival).toNat,
                           order := s.hs.arrivals, fwd := num, chan := chan }
    if headRuns s then evaluate s r else s

/-- FORWARDED_COMMAND: what the headstock of another device sends beside entries: a command, the trigger of its armed transfer, a placement that MIGRATE
moves here or the stop of its job, and the end of a context (R465, R470). (DESIGN CHOICE: log entry 49) -/
def forwardedCommand (s : State) (r : SlotRef) (copy : List Octet) (arrival : BitVec 72) (cargo : Cargo) : State :=
  match cargo with
  | .command num chan => takeForwarded (if s.isRoot then s else linkPulse s 0) r copy arrival num chan
  | .start =>
    let s := linkPulse s 0
    { s with hs := { s.hs with chans := s.hs.chans.map (Option.map (fun x => if x.ref = r then { x with running := true } else x)) } }
  | .place lathes skews pads => placeHere s r.i lathes skews pads
  | .placed home job locked cs => placedHere (linkPulse s home.toNat) r home job locked cs
  | .stop code => (s.hs.guests.filter (fun g => g.r = r)).foldl (fun s g => stopGuest s g code) s
  | .drop c => (guestsOf s c).foldl (fun s x => if (s.ctx x.1).inst.toNat = r.i.val then dropCtx s x.1 else s) s
def execForwardedCommand (r : SlotRef) (parcel : Parcel) (arrival : BitVec 72) (s : State) : Host.Outcome State Fault Refusal :=
  .next (forwardedCommand s r parcel.copy arrival parcel.cargo)

/-- The reads from the host that an accepted forwarded command needs are the root's (R436, R465, R487). -/
def startFar (s : State) (r : SlotRef) : State :=
  let o := (s.slot r).copy
  match (s.slot r).chan with
  | some c => match s.hs.chans.getD c.val none with
    | some x =>
      let y := { x with armed := nfld (cmdArg o 2) 47 1 = 1, running := nfld (cmdArg o 2) 47 1 = 0 }
      let s := s.setChan c.val (some y)
      if y.running && !y.out then sendRequest s y else s
    | none => s
  | none => if cmdOpc o = 0o60 then requestRange (cmdArg o 2 / 128 + 2) s r.i (cmdArg o 0) (cmdArg o 2) else s

/-- The channel kept for a forwarded transfer is free again, and DMADONE fires once it has run (R358, R465). -/
def endFar (s : State) (r : SlotRef) (finish : Bool) : State :=
  match (s.slot r).chan with
  | some c => let s := freeChannel s r; if finish then firePulse s (pselDmaDone c.val) else s
  | none => s

/-- An entry of a command's target: the root writes the data that came before it to the host, then updates the status entry, and writes the ring entry
(R311, R465). -/
def relayEntry (s : State) (r : SlotRef) (e : Entry) (data : List (Octet × Bool)) : State :=
  let st : BitVec 8 := if e.kind = 1 then 4 else if e.status = csACCEPTED then 3 else if e.status.toNat / 64 = 1 then 2 else 5
  let done : Bool := st = 4 || st = 5
  let s := if data.isEmpty then s else hostData s r.i (cmdArg (s.slot r).copy 0) data
  let s := if st = 3 then startFar s r else if done then endFar s r (e.kind = 1) else s
  let s := s.modSlot r (fun x => { x with st := if done then st else 0, fst := if done then 0 else st, status := e.status, qpos := e.qpos,
                                          jseq := e.jseq, fwdTo := if done then none else x.fwdTo })
  postEntry s r.i e

/-- FORWARDED_ENTRY: an entry of a command's target at the root, with the data that the target sent before it; one that answers another forwarding than
the slot's present one is discarded. An entry of the device to which MIGRATE moved a job ends the job's command (R465, R466, R470). -/
def forwardedEntry (s : State) (i : Fin 16) (dev : BitVec 6) (e : Entry) (data : List (Octet × Bool)) : State :=
  let r : SlotRef := ⟨i, e.mbx, e.slot⟩
  let x := s.slot r
  if e.kind = 1 && x.st = 3 && x.job.any (fun j => j.moved = some dev) then finishCmd (linkPulse s dev.toNat) r e.status e.result0 e.result1
  else if !s.isRoot then s
  else
    let s := linkPulse s dev.toNat
    if e.kind = 2 then postEntry s i e
    else if x.fwdTo ≠ some dev || x.fwd ≠ e.fwd then s
    else relayEntry s r e data
def execForwardedEntry (i : Fin 16) (dev : BitVec 6) (sent : SentEntry) (s : State) : Host.Outcome State Fault Refusal :=
  .next (forwardedEntry s i dev sent.entry sent.data)

/-! ## Epochs across devices (R469) -/

/-- EPOCH_MESSAGE: the device applies the root's value in the order of R429 and acknowledges. -/
def epochMessage (s : State) (i : Fin 16) (e : BitVec 9) : State :=
  if s.isRoot then s
  else
    let s := applyEpoch (suspendAll (linkPulse s 0) (s.inst i).lathes) i e
    sendMsg { s with wov := { s.wov with ackWait := tput [] s.wov.ackWait i.val [] } } (.epochAck i false)
def execEpochMessage (i : Fin 16) (e : BitVec 9) (s : State) : Host.Outcome State Fault Refusal := .next (epochMessage s i e)

/-- EPOCH_ACKNOWLEDGEMENT: the root strikes the device off those it waits for; a device that needs an advance asks the root for it with the same message.
(DEDUCED and DESIGN CHOICE: log entry 49) -/
def epochAck (s : State) (i : Fin 16) (dev : BitVec 6) (ask : Bool) : State :=
  let s := linkPulse s dev.toNat
  if ask then (if s.isRoot then advanceEpoch s i else s)
  else { s with wov := { s.wov with ackWait := tmod [] s.wov.ackWait i.val (fun l => l.filter (· ≠ dev)) } }
def execEpochAcknowledgement (i : Fin 16) (sender : EpochFrom) (s : State) : Host.Outcome State Fault Refusal :=
  .next (epochAck s i sender.dev sender.ask)

/-! ## Registers (R473 to R478) -/

/-- A read of a WOV register; RC fields are cleared. -/
def wovRead (s : State) (off : Nat) : State × Word :=
  if off = 0 then
    (s, put 30 6 s.devId ||| put 22 8 s.incarnation.toNat ||| put 20 2 s.shape ||| putB 19 s.isRoot |||
      put 16 3 (if s.shape = 1 then s.ringSize - 1 else 0))
  else if off = 1 then
    ({ s with wov := { s.wov with rto := 0, late := 0 } }, put 18 18 s.wov.rto.toNat ||| put 0 18 s.wov.late.toNat)
  else if 0o10 ≤ off ∧ off < 0o16 then
    let x := s.wlink (off - 0o10)
    (s.modWlink (off - 0o10) (fun x => { x with downs := 0 }),
     putB 35 x.up ||| putB 34 x.miswire ||| put 32 2 x.width.toNat ||| put 26 6 x.nbr.toNat ||| put 23 3 x.nbrLink.toNat |||
       put 15 8 x.ninc.toNat ||| put 0 15 x.downs.toNat)
  else if 0o20 ≤ off ∧ off < 0o40 then
    let b := s.bar (off - 0o20)
    (s.modBar (off - 0o20) (fun b => { b with done := 0 }), putB 35 b.broken ||| putB 34 b.gen ||| put 0 18 b.done.toNat)
  else if 0o100 ≤ off ∧ off < 0o120 then (s, (tget 0 s.wov.fwd (off - 0o100)).setWidth 36)
  else if 0o200 ≤ off ∧ off < 0o300 then
    (s, match routeTo s (off - 0o200) with
      | some (k, h) => putB 35 true ||| put 32 3 k ||| put 27 5 h
      | none => 0)
  else (s, 0)

/-- A write of a WOV register; none where its master may not write it. -/
def wovWrite (s : State) (m : Master) (off : Nat) (w : Word) : Option State :=
  if 0o10 ≤ off ∧ off < 0o16 then some (s.modWlink (off - 0o10) (fun x => { x with miswire := x.miswire && !w.getLsbD 34 }))
  else if 0o20 ≤ off ∧ off < 0o40 then some (s.modBar (off - 0o20) (fun b => { b with broken := b.broken && !w.getLsbD 35 }))
  else if 0o100 ≤ off ∧ off < 0o120 then
    (if m = .head || m = .pciein 0 then some { s with wov := { s.wov with fwd := tput 0 s.wov.fwd (off - 0o100) (w.extractLsb' 0 24) } }
     else none)
  else some s

end Sys2Proof.Machine
end

