-- ==== Sys2Proof/Machine/Reset.lean ====
section
/-! DEFINITION. Resets (R479 to R485, R483): what each level clears, the record of causes, the lathe reset, and the sources that only start a
reset (R480, R492, R505, R526). Also the reading of firmware slots (R493, R494). -/
namespace Sys2Proof.Machine

/-! ## Firmware slots (R493, R494, R496) -/

/-- A little-endian field of a slot's octets. -/
def slotField (x : FwSlot) (lo n : Nat) : Nat := octetsToNat ((List.range n).map (fun i => tget 0 x.octets (lo + i)))

def fwLine (x : FwSlot) : Nat := slotField x 4 1
def fwRelease (x : FwSlot) : Nat := slotField x 6 2
def fwArv (x : FwSlot) : Nat := slotField x 8 4
def fwSize (x : FwSlot) : Nat := slotField x 12 4
def fwMonOff (x : FwSlot) : Nat := slotField x 16 4
def fwMonSize (x : FwSlot) : Nat := slotField x 20 4

/-- The firmware slot size in octets (R493). -/
def slotSize : Nat := 6291456

/-- MAGIC, SIZE and the zero fields of the header (R493, R496). -/
def fwFormatOk (x : FwSlot) : Bool :=
  slotField x 0 4 = 0x57464E52 && slotField x 5 1 = 0 && slotField x 24 104 = 0 &&
    decide (224 ≤ fwSize x) && decide (fwSize x ≤ slotSize) && decide (fwSize x = x.len)

/-- The result of R496's check: 0 passed, 1 not LOADED, 2 format, 3 signature, 4 rollback. -/
def fwCheck (s : State) (x : FwSlot) : Nat :=
  if !(x.st = .loaded || x.st = .verified) then 1
  else if !fwFormatOk x then 2
  else if !Config.firmwareSignatureOk (fwOctets x 0 (fwSize x)) then 3
  else if fwArv x < s.rst.ctrArc.read then 4
  else 0

/-- The octets of the active slot's monitor image. -/
def monitorImage (s : State) : List Octet :=
  let x := activeSlot s
  fwOctets x (fwMonOff x) (fwMonSize x)

/-- The monitor is written into a lathe's scratchpad, MENTRY of its threads set, so that each may be enabled, and thread 0 enabled (R256, R321,
R483 step 6). (DEDUCED: log entry 51) -/
def loadMonitor (s : State) (l : Fin 16) : State :=
  let o := monitorImage s
  let s := (Config.monitorWords o).foldl (fun s (a, w) => s.store (scratchPlace l a.toNat) w 0xF false) s
  let s := (threadsOf l).foldl (fun s th => s.modThr th (fun t => { t with m := { t.m with entry := Config.monitorEntry o } })) s
  startEnabled (s.modLathe l (fun x => { x with ten := 1 })) l

/-! ## What each level clears (R479) -/

def lvRank : RstLevel → Nat
  | .powerOn => 0
  | .system => 1
  | .core => 2
  | .lathe => 3

/-- The physical places of headstock SRAM and of headstock ROM, in nonets. -/
def inHsram (k : Nat) : Bool := decide (4 * 0o000440000000 ≤ k ∧ k < 4 * 0o000444000000)
def inHsrom (k : Nat) : Bool := decide (4 * 0o000444000000 ≤ k ∧ k < 4 * 0o000444200000)
/-- The places of the staging pool, in nonets. -/
def inStaging (k : Nat) : Bool := decide (4 * stagingBase ≤ k ∧ k < 4 * (stagingBase + 2 ^ 20))

/-- What a reset leaves of a bank's block: the repair map's part (R332, R344). -/
def resetBank (b : Bank) : Bank := { retired := b.retired, rused := b.rused, cused := b.cused, pendRows := b.pendRows }

/-- What a reset leaves of a lathe: its service, its cache checks until the next self-test, and the registers of the debug domain (R324,
R538). -/
def resetLathe (x : Lathe) : Lathe :=
  { inSvc := x.inSvc, icBad := x.icBad, dcBad := x.dcBad, hor := x.hor, hit := x.hit, hitCmp := x.hitCmp, hitThr := x.hitThr,
    cmps := x.cmps }

/-- What a reset leaves of a thread: its halt (R538). (DESIGN CHOICE: log entry 1) -/
def resetThread (t : Thread) : Thread := { halted := t.halted, haltReq := t.haltReq }

/-- A core reset: headstock and its SRAM, lathes, spindles, fabric, scrubber, tests, DMA and staging; links stay trained and the advanced
incarnation is announced (R479). (DEDUCED: log entries 38, 50) -/
def clearCore (s : State) : State :=
  let s := abandonCtxs s none
  { s with
    mem := s.mem.filter (fun x => !inHsram x.1 && !inStaging x.1)
    banks := tmapVals {} resetBank s.banks
    spindles := tmapVals {} (fun x => { inSvc := x.inSvc }) s.spindles
    lathes := tmapVals {} resetLathe s.lathes
    threads := tmapVals {} resetThread s.threads
    groups := []
    scr := { memPend := s.scr.memPend, memUsed := s.scr.memUsed }
    fab := { mram := s.fab.mram }
    hs := { arrivals := s.hs.arrivals }
    pci := { s.pci with stalled := [] }
    jnl := { s.jnl with resolved := false, withheld := [] }
    wov := { s.wov with rto := 0, late := 0, bars := [], fwd := [], ops := [], ackWait := [], moved := [], heldReq := [], waiting := [] }
    rst := { s.rst with conf := false, remain := 0, remainSub := 0, hswdEn := false, hswdCount := 0, activated := false }
    pwr := { s.pwr with rung := 0, rest := none, zeroBusy := false } }

/-- The codes of an event pin at reset (R553). -/
def pinCode (s : State) (p : Nat) : Nat := if p < 12 then fld s.fus.pina (3 * p) 3 else fld s.fus.pinb (3 * (p - 12)) 3

/-- An event pin in the state a fuse code gives, LEVEL loaded from the live pin (R7, R485, R553). -/
def fusePin (code : Nat) (raw : Bool) : Pin :=
  if code = 3 then { dir := true, raw := raw, level := raw }
  else if code = 4 then { dir := true, drive := true, raw := raw, level := raw }
  else { raw := raw, level := raw }

/-- The event pins at a system or power-on reset. -/
def fusePins (s : State) : Tab Pin := (List.range 16).foldl (fun t p => tput {} t p (fusePin (pinCode s p) (s.epin p).raw)) []

/-- A system reset: as power-on but for the debug domain and RST_CAUSE. The timebase, with what set it, runs on (R393). (DEDUCED: log entries 34, 38, 50) -/
def clearSystem (s : State) (lv : RstLevel) : State :=
  let s := (List.finRange 6).foldl (fun s k => if (s.wlink k.val).up then sendMsg s (.down k) else s) s
  let taint := lv = .system && s.dbg.opened && s.ts.taint
  let s := settleStaging (clearCore s)
  updateJnlFill { s with
    evf := { pins := fusePins s, pps := s.evf.ppsRaw, ppsRaw := s.evf.ppsRaw, temp := s.evf.temp, tamper := s.evf.tamper }
    ts := { lockdn := s.ts.lockdn, wrapKey := s.ts.wrapKey, ldcause := s.ts.ldcause, backupLog := s.ts.backupLog, lockPend := s.ts.lockPend,
            taint := taint, ticks := s.ts.ticks, set := s.ts.set, tsetSeq := s.ts.tsetSeq }
    jnl := { entries := s.jnl.entries, head := s.jnl.head, written := s.jnl.written, copyA := s.jnl.copyA, copyB := s.jnl.copyB,
             crcA := s.jnl.crcA, crcB := s.jnl.crcB, drained := s.jnl.drained, hash := s.jnl.hash, ckpts := s.jnl.ckpts }
    pci := { tx := s.pci.tx }
    wov := { nextTag := s.wov.nextTag, tx := s.wov.tx }
    rst := { cause := s.rst.cause, level := s.rst.level, hist := s.rst.hist, inProgress := s.rst.inProgress, perstLow := s.rst.perstLow,
             ctrReset := s.rst.ctrReset, ctrFail := s.rst.ctrFail, ctrOpt := s.rst.ctrOpt, ctrHead := s.rst.ctrHead, ctrInc := s.rst.ctrInc,
             ctrArc := s.rst.ctrArc, opt0 := s.rst.opt0, opt1 := s.rst.opt1, slotA := s.rst.slotA, slotB := s.rst.slotB,
             mapA := s.rst.mapA, mapB := s.rst.mapB }
    pwr := { main12 := s.pwr.main12, vbat := s.pwr.vbat, intact := s.pwr.intact, hot := s.pwr.hot } }

/-- A power-on reset: also the debug domain, RST_CAUSE, the timebase and what memory held. (DEDUCED and DESIGN CHOICE: log entries 6, 50) -/
def clearPowerOn (s : State) : State :=
  let s := clearSystem s .powerOn
  { s with
    mem := s.mem.filter (fun x => inHsrom x.1)
    lathes := tmapVals {} (fun x => { inSvc := x.inSvc, icBad := x.icBad, dcBad := x.dcBad }) s.lathes
    threads := []
    dbg := { tx := s.dbg.tx }
    tb := 0
    ts := { s.ts with ticks := 0, set := false, tsetSeq := 0 }
    rst := { s.rst with hist := 0 } }

/-! ## Starting a reset (R480 to R482, R484) -/

/-- A source sets its bit of HIST (R482). -/
def markHist (s : State) (cause : Nat) : State := { s with rst := { s.rst with hist := setBit s.rst.hist cause true } }

/-- The advanced incarnation goes to the neighbours over the trained links (R471, R479). -/
def announce (s : State) : State :=
  (List.finRange 6).foldl (fun s k => if (s.wlink k.val).up then sendMsg s (.incarnation k s.incarnation) else s) s

/-- A reset of core level or deeper begins: the reset counter and the incarnation advance, what the level clears is cleared, the cause is
recorded, and the mode is Self-test (R479, R482, R484, R510). (DEDUCED: log entry 50) -/
def beginReset (s : State) (lv : RstLevel) (cause : Nat) : State :=
  let prev := s.pwr.mode
  let s := { s with rst := { s.rst with ctrReset := s.rst.ctrReset.incSat 36, ctrInc := s.rst.ctrInc.incWrap 8 } }
  let s := match lv with
    | .powerOn => clearPowerOn s
    | .system => clearSystem s .system
    | _ => announce (clearCore s)
  let s := { s with
    rst := { s.rst with cause := BitVec.ofNat 6 cause, level := BitVec.ofNat 2 (lvRank lv), inProgress := some lv }
    pwr := { s.pwr with mode := 3, prev := if lv = .core then prev else 0 } }
  markHist s cause

/-- A source of core level or deeper: a deeper one than the reset in progress restarts it, any other is absorbed (R482). (DEDUCED: log entry 50) -/
def startReset (s : State) (lv : RstLevel) (cause : Nat) : State :=
  if !s.pwr.main12 then s
  else match s.rst.inProgress with
    | none => beginReset s lv cause
    | some cur =>
      if lvRank lv < lvRank cur then beginReset s lv cause
      else
        let s := markHist s cause
        if lv = cur && decide (cause < s.rst.cause.toNat) then { s with rst := { s.rst with cause := BitVec.ofNat 6 cause } } else s

/-! ## The lathe reset (R483) -/

/-- RUN commands that name a lathe (R483 step 4). -/
def runsNaming (s : State) (l : Fin 16) : List SlotRef :=
  (s.hs.slots.filter (fun (_, x) => x.st = 3 && (match x.job with | some j => j.lathes.getLsbD l.val | none => false))).map (fun (k, _) =>
    ⟨Fin.ofNat 16 (k / 256), Fin.ofNat 4 (k / 64), Fin.ofNat 64 k⟩)

/-- Replies to a core's outstanding requests are to be discarded (R483 step 3). -/
def dropCoreOps (s : State) (l : Fin 16) : State :=
  { s with wov := { s.wov with ops := s.wov.ops.filter (fun o => match o.kind with
      | .load th => th.l ≠ l
      | .store th => th.l ≠ l
      | _ => true) } }

/-- Thread state and registers of a lathe at their reset values; LTH_LOCK, LTH_LOCKPC and LTH_EPOCH stay, and in Deterministic mode DET reads
1 (R231, R483 step 5). (DEDUCED: log entry 50) -/
def clearLathe (s : State) (l : Fin 16) : State :=
  let det := s.pwr.mode = 7
  let s := s.modLathe l (fun x => { resetLathe x with
    lockValid := x.lockValid, lockThr := x.lockThr, lockFrom := x.lockFrom, lockCode := x.lockCode, lockPc := x.lockPc, epoch := x.epoch,
    det := det, detact := det })
  let s := (threadsOf l).foldl (fun s th => s.modThr th resetThread) s
  (List.range 8).foldl (fun s k => s.modSpin (8 * l.val + k) (fun x => { x with tlb := [] })) s

/-- What runs on a lathe ends: its groups, its threads' operations outside the core (R479). -/
def endLathe (s : State) (l : Fin 16) : State :=
  let w : BitVec 16 := setBit 0 l.val true
  let s := stopLathes (s.modLathe l (fun x => { x with ten := 0 })) w stABORTED
  dropCoreOps ((spindlesOf w).foldl (fun s k => runDown 160 s k) s) l

/-- The instance of a lathe goes on without it: its epoch advances, the jobs that name the lathe end, its barrier loses the participant
(R429, R467, R479). -/
def leaveInstance (s : State) (l : Fin 16) (i : Option (Fin 16)) : State :=
  let s := match i with | some i => advanceEpoch s i | none => s
  let s := (runsNaming s l).foldl (fun s r => stopCmd s r ceTGTRESET stABORTED) s
  let s := (s.hs.guests.filter (fun g => g.job.lathes.getLsbD l.val)).foldl (fun s g => endGuest (stopGuest s g stABORTED) g ceTGTRESET 0) s
  match i with | some i => removeParticipants s i [16 * s.devId + l.val] [16 * s.devId + l.val] | none => s

/-- A lathe reset, from its source to its end; during a core or deeper reset it is absorbed (R482, R483). (DEDUCED: log entry 50) -/
def latheReset (s : State) (l : Fin 16) (cause : Nat) : State :=
  if !s.pwr.main12 then s
  else if s.rst.inProgress.isSome then markHist s cause
  else
    let s := commit (markHist s cause) { kind := jRESET, code := BitVec.ofNat 16 (cause + 256 * (l.val + 1)) }
    let s := endLathe s l
    loadMonitor (clearLathe (leaveInstance s l (instanceOf s l)) l) l

/-! ## Sources -/

/-- The 12 V supply rises: the integrity word is checked, and a power-on reset begins (R480, R515). -/
def por (s : State) : State :=
  if s.pwr.main12 then s
  else
    let s := { s with pwr := { s.pwr with main12 := true } }
    let s := if s.pwr.intact then s else { s with ts := { s.ts with lockdn := true, wrapKey := false, ldcause := 0, lockPend := false } }
    beginReset s .powerOn 1
def execPor (s : State) : Host.Outcome State Fault Refusal := .next (por s)

/-- A counter of the backup domain whose supply was lost: its content is a free value. (DESIGN CHOICE: log entry 16) -/
def loseCtr (s : State) (get : Rst → Ctr) (set : Rst → Ctr → Rst) (bits : Nat) : State :=
  let (i, s) := s.takeFree
  { s with rst := set s.rst ((get s.rst).write (Config.freeNat i % 2 ^ bits)) }

/-- Both supplies are absent: the backup domain loses the integrity word, the wrap key, its log and its counters (R515). -/
def loseBackup (s : State) : State :=
  let s := { s with
    pwr := { s.pwr with intact := false, mode := 0 }
    ts := { s.ts with wrapKey := false, ldcause := 0, backupLog := [], lockPend := false } }
  let s := loseCtr s Rst.ctrReset (fun r c => { r with ctrReset := c }) 36
  let s := loseCtr s Rst.ctrFail (fun r c => { r with ctrFail := c }) 3
  let s := loseCtr s Rst.ctrOpt (fun r c => { r with ctrOpt := c }) 32
  let s := loseCtr s Rst.ctrHead (fun r c => { r with ctrHead := c }) 64
  let s := loseCtr s Rst.ctrInc (fun r c => { r with ctrInc := c }) 8
  loseCtr s Rst.ctrArc (fun r c => { r with ctrArc := c }) 32

/-- A device without core power drives no signal ball (R449); its event pins are as the fuses have them once power is back (R485). -/
def undrive (s : State) : State :=
  { s with evf := { s.evf with pins := tmapVals {} (fun x => { raw := x.raw, level := x.level }) s.evf.pins } }

/-- The 12 V supply falls: the journal is written out on the hold-up, and the device is in Backup, or Unpowered with the backup supply also
absent (R399, R480, R510). -/
def brownout (s : State) : State :=
  if !s.pwr.main12 then s
  else
    let s := beginReset (flushStaging s) .powerOn 2
    let s := undrive { s with pwr := { s.pwr with main12 := false, hot := false, mode := 1 } }
    if s.pwr.vbat then s else loseBackup s
def execBrownout (s : State) : Host.Outcome State Fault Refusal := .next (brownout s)

/-- BACKUP_SUPPLY_RISE (R510). -/
def backupRise (s : State) : State :=
  let s := { s with pwr := { s.pwr with vbat := true } }
  if s.pwr.mode = 0 then { s with pwr := { s.pwr with mode := 1 } } else s
def execBackupSupplyRise (s : State) : Host.Outcome State Fault Refusal := .next (backupRise s)

/-- BACKUP_SUPPLY_LOSS: with 12 V absent the integrity word is lost (R510, R515). -/
def backupLoss (s : State) : State :=
  let s := { s with pwr := { s.pwr with vbat := false } }
  if s.pwr.main12 then s else loseBackup s
def execBackupSupplyLoss (s : State) : Host.Outcome State Fault Refusal := .next (backupLoss s)

/-- The reading passes a threshold of the TEMP producer; below 95 °C a device that overheated may restart (R547). (DEDUCED: log entry 36) -/
def tempReading (s : State) (c : Int) : State :=
  let s := if c < 95 && s.pwr.hot then { s with pwr := { s.pwr with hot := false }, evf := { s.evf with pins := fusePins s } } else s
  if c > 100 && !s.evf.temp then moveLevel { s with evf := { s.evf with temp := true } } pselTemp true
  else if c < 95 && s.evf.temp then moveLevel { s with evf := { s.evf with temp := false } } pselTemp false
  else s
def execTemp (c : Int) (s : State) : Host.Outcome State Fault Refusal := .next (tempReading s c)

/-- Above 115 °C the brown-out sequence runs and core power goes; the power-on reset, cause BROWNOUT, ends below 95 °C (R547). (DEDUCED: log entry 36) -/
def overtemp (s : State) (c : Int) : State :=
  if c ≤ 115 || !s.pwr.main12 || s.pwr.hot then s
  else
    let s := beginReset (flushStaging s) .powerOn 2
    undrive { s with pwr := { s.pwr with hot := true } }
def execOvertemp (c : Int) (s : State) : Host.Outcome State Fault Refusal := .next (overtemp s c)

/-- An entry into a debug frame, or its end, is lost (R526, R527). -/
def dropFrame (s : State) : State := { s with dbg := { s.dbg with frame := false, gap := 0 } }

/-- A framing error: the frame is abandoned and counted (R526). -/
def framingError (s : State) : State := dropFrame { s with dbg := { s.dbg with ferr := satAdd s.dbg.ferr 1 } }
def execFramingError (s : State) : Host.Outcome State Fault Refusal := .next (framingError s)

/-- BREAK: the frame in progress is abandoned (R526). -/
def execBrk (s : State) : Host.Outcome State Fault Refusal := .next (dropFrame s)

/-- A low pulse of the reset/debug ball, by its length in ticks (R526). -/
def pinPulse (s : State) (n : Nat) : State :=
  if !s.pwr.main12 then s
  else if n ≥ 2000 then startReset (dropFrame s) .system 3
  else if (50 ≤ n && n ≤ 150) || (250 ≤ n && n ≤ 350) then s
  else if 700 ≤ n && n ≤ 900 then { s with dbg := { s.dbg with frame := true, gap := 0 } }
  else if 1200 ≤ n && n ≤ 1600 then dropFrame s
  else framingError s

/-- PERST#: on the root or a device that stands alone, assertion starts a system reset and holds it until deassertion (R480). -/
def perst (s : State) (asserted : Bool) : State :=
  if !s.isRoot then s
  else if asserted then
    startReset { s with rst := { s.rst with perstLow := true } } .system 4
  else { s with rst := { s.rst with perstLow := false } }
def execPerst (asserted : Bool) (s : State) : Host.Outcome State Fault Refusal := .next (perst s asserted)

/-- HOTRST, on the root or a device that stands alone (R480). -/
def execHotrst (s : State) : Host.Outcome State Fault Refusal := .next (if s.isRoot then startReset s .system 5 else s)

/-- The headstock watchdog expires (R480, R492). -/
def hswdExpire (s : State) : State := startReset s .system (if s.hs.locked then 7 else 6)

/-- TSFAULT: the tailstock halts on a control-path bus error (R318, R492). -/
def execTsfault (s : State) : Host.Outcome State Fault Refusal := .next (startReset s .system 8)

/-- Whether the boot timer runs: from step 4 until confirmation (R491). In Minimal mode no start awaits confirmation. (DESIGN CHOICE: log entry 9) -/
def bootTimerRuns (s : State) : Bool := s.rst.hswdEn && !s.rst.conf && !s.rst.min

/-- UPDATE: the reset of a completed activation (R497). -/
def execUpdate (s : State) : Host.Outcome State Fault Refusal := .next (if s.rst.activated then startReset s .system 11 else s)

/-- RST_CMD by its LEVEL: only the headstock may write it (R505). -/
def rstCmd (s : State) (level lathe : Nat) : State :=
  match level with
  | 1 => startReset s .system 12
  | 2 => startReset s .core 13
  | 3 => latheReset s (Fin.ofNat 16 lathe) 16
  | _ => s
def execSwsys (m : Master) (s : State) : Host.Outcome State Fault Refusal := .next (writeIf m 0o610003 (m = .head) (fun s => rstCmd s 1 0) s)
def execSwcore (m : Master) (s : State) : Host.Outcome State Fault Refusal := .next (writeIf m 0o610003 (m = .head) (fun s => rstCmd s 2 0) s)
def execSwlathe (m : Master) (l : Fin 16) (s : State) : Host.Outcome State Fault Refusal :=
  .next (writeIf m 0o610003 (m = .head) (fun s => rstCmd s 3 l.val) s)

/-- HEADSTOCK_LOCKUP: the headstock locks, and the mode is Lockup (R263, R510, R511). -/
def headLockup (s : State) : State :=
  if s.hs.locked || !([2, 4, 5, 6, 7, 8, 10].contains s.pwr.mode.toNat) then s
  else changeMode { s with hs := { s.hs with locked := true } } 11
def execHeadstockLockup (s : State) : Host.Outcome State Fault Refusal := .next (headLockup s)

/-- RST_HSWD.KICK, which the next tick captures (R15, R492). -/
def kick (s : State) : State := if s.rst.hswdEn then { s with rst := { s.rst with kicked := true } } else s
def execKick (m : Master) (s : State) : Host.Outcome State Fault Refusal := .next (writeIf m 0o610004 (m = .head) kick s)

end Sys2Proof.Machine
end

