-- ==== Sys2Proof/Machine/Boot.lean ====
section
/-! DEFINITION. Boot (R488 to R490), failed starts and their confirmation (R491, R500), and the firmware update commands (R495 to R499). -/
namespace Sys2Proof.Machine

/-! ## Minimal mode (R502) -/

def minHEADAMBIG : BitVec 6 := 1
def minBOOTFAIL : BitVec 6 := 2
def minSLOTBAD : BitVec 6 := 3
def minMEMCHK : BitVec 6 := 4
def minMEMEXH : BitVec 6 := 5

/-- A cause of Minimal mode arises; the first of a boot stands. -/
def setMin (s : State) (c : BitVec 6) (detail : Nat) : State :=
  if s.rst.min then s else { s with rst := { s.rst with min := true, minCause := c, minDetail := BitVec.ofNat 29 detail } }

/-! ## Steps 1 to 3: self-test -/

/-- The banks and the testers' memories take what a copy of the repair map records (R332, R344). -/
def loadMap (s : State) (c : MapCopy) : State :=
  { s with
    banks := (List.range 1024).foldl (fun t n =>
      let x := tget {} c.banks n
      tmod {} t n (fun b => { b with retired := x.retired, rused := x.rused, cused := x.cused, pendRows := x.pendRows })) s.banks
    scr := { s.scr with memPend := c.pend, memUsed := c.used } }

/-- Step 1: the options and the repair map are read. With no valid copy of the map the fuse repair alone applies, and the run of step 3
rebuilds it (R332, R404). -/
def bootOptions (s : State) : State :=
  let s := { s with rst := { s.rst with min := false, minCause := 0, minDetail := 0 } }
  let s := if s.optInForce.isNone then setMin s minHEADAMBIG 0 else s
  match mapInUse s.rst with
  | some c => loadMap s c
  | none =>
    let s := loadMap (logErrs s [{ code := errMapErr }]) {}
    saveMap { s with spindles := tmapVals {} (fun x => { x with inSvc := true }) s.spindles }

/-- A failure of the checker self-test (R324). -/
def bootCheck (s : State) (c : ChkFail) : State :=
  let s := logErrs s [match c with
    | .bankDecoder n => bankErr errChkFail n.val 0
    | .scratch _ => { code := errChkFail, mem := 1 }
    | .hsram => { code := errChkFail, mem := 2 }
    | .staging => { code := errChkFail, mem := 3 }
    | _ => { code := errChkFail }]
  match c with
  | .bankDecoder n => retireLogged s n.val (addrOfRow s n.val 0)
  | .icache l => s.modLathe l (fun x => { x with icBad := true })
  | .dcache l => s.modLathe l (fun x => { x with dcBad := true })
  | .scratch _ => setMin s minMEMCHK 1
  | .hsram => setMin s minMEMCHK 2
  | .staging => setMin s minMEMCHK 3

/-- A lathe whose scratchpad has exhausted its spares leaves service with its spindles (R334). -/
def latheOut (s : State) (l : Fin 16) : State :=
  let s := s.modLathe l (fun x => { x with inSvc := false })
  (List.range 8).foldl (fun s k => s.modSpin (8 * l.val + k) (fun x => { x with inSvc := false })) s

/-- A tester's memory with more pending rows than spares left: a scratchpad takes its lathe out of service, another memory leads to Minimal mode
(R334). -/
def memExhausted (s : State) (t : Nat) : State :=
  if h : t < 16 then latheOut s ⟨t, h⟩ else setMin s minMEMEXH (if t = 16 then 2 else 3)

/-- The pending rows of a tester's memory take row spares while they last, each logged (R330, R331, R335). -/
def repairMem (s : State) (t : Nat) : State :=
  let pend := tget [] s.scr.memPend t
  let used := tget 0 s.scr.memUsed t
  let rows := pend.take (memSpares t - used)
  let s := logErrs s (rows.map (fun r => testerErr errRepair t (16 * r)))
  let s := if pend.length > rows.length then memExhausted s t else s
  { s with scr := { s.scr with memPend := tput [] s.scr.memPend t (pend.drop rows.length),
                               memUsed := tput 0 s.scr.memUsed t (used + rows.length) } }

/-- The failing nonets that the testers' full pass of step 2 finds; a core reset runs none (R488). -/
def bootTesters (s : State) (f : BootFindings) : State :=
  if s.rst.level ≥ 2 then s
  else (List.range 18).foldl (fun s t => testerFails s t
    ((f.mems.filter (fun x => decide (x.tester.val = t) && decide (x.nonet.toNat < 256 * (testerSpan t).2))).map (fun x => x.nonet.toNat))) s

/-- Step 2: checkers and background testers; pending failures of their memories become spares (R324, R330, R331, R334). -/
def bootChecks (s : State) (f : BootFindings) : State :=
  let s := { s with lathes := tmapVals {} (fun x => { x with icBad := false, dcBad := false }) s.lathes }
  let s := bootTesters (f.checks.foldl bootCheck s) f
  saveMap ((List.range 18).foldl repairMem s)

/-- Step 3: a destroying run with REPAIR over every bank, and zero in every scratchpad (R325 to R328, R331). (DEDUCED: log entry 30) -/
def bootMarch (s : State) (f : BootFindings) : State :=
  let fails := f.cells.filter (fun c => !(s.bank c.bank.val).retired)
  let s := { s with mem := s.mem.filter (fun x => inHsrom x.1) }
  let s := logErrs s (fails.map (cellErr s errMarch))
  let ns := ((fails.map (fun c => c.bank.val)) ++ (s.banks.filter (fun x => !x.2.pendRows.isEmpty)).map Prod.fst).eraseDups
  let s := ns.foldl (fun s n => if (s.bank n).retired then s else repairBank s n fails) s
  let rows := (fails.map (fun c => (c.bank, c.row))).eraseDups.length
  saveMap { s with scr := { s.scr with done := true, fail := !fails.isEmpty, nfail := satAdd 0 rows, cur := 1023 } }

/-! ## Step 4: the headstock starts (R491, R492) -/

/-- FAILCNT is cleared (R497 to R499). -/
def clearFails (s : State) : State := { s with rst := { s.rst with ctrFail := s.rst.ctrFail.write 0 } }

/-- A revert: FAILCNT is cleared and the options name the other slot, TRIAL cleared (R499). -/
def revert (s : State) : State :=
  writeOptions (clearFails s) (fun o => { o with active := !o.active, trial := false })

/-- FAILCNT is advanced and checked; the answer is whether the slot was reverted. A Minimal start does not advance it (R491). -/
def countStart (s : State) : State × Bool :=
  if s.rst.min then (s, false)
  else
    let o := s.opt
    if !o.trial && decide (s.rst.ctrFail.read > o.maxfail.toNat) then (setMin s minBOOTFAIL 0, false)
    else
      let s := { s with rst := { s.rst with ctrFail := s.rst.ctrFail.incSat 3 } }
      if s.rst.ctrFail.read ≤ o.maxfail.toNat then (s, false)
      else if o.trial then (revert s, true)
      else (setMin s minBOOTFAIL 0, false)

/-- Step 4: the mode is Boot, the watchdog and the boot timer start, and the start is counted. -/
def headStart (s : State) : State × Bool :=
  let s := { s with
    rst := { s.rst with inProgress := none, hswdEn := true, hswdCount := 100000 }
    pwr := { s.pwr with prev := s.pwr.mode, mode := 2 } }
  let o := s.opt
  let s := { s with rst := { s.rst with remain := BitVec.ofNat 27 (if o.trial then 1000 * o.trialtmo.toNat else 10 * o.boottmo.toNat) } }
  countStart s

/-! ## Step 5: the journal (R403, R409, R482, R489) -/

/-- The chain value over the entries up to a head, from H_0 on (R395). -/
def chainUpTo (s : State) (n : Nat) : List Octet :=
  (s.jnl.entries.filter (fun e => decide (e.1 ≤ n))).foldl (fun h e => sha3 (h ++ entryBytes e.1 e.2)) (sha3 (0x03 :: devsnOctets s))

/-- The head is taken from the copy that is valid and agrees with the counter; entries beyond it are discarded (R403). -/
def resolveHead (s : State) : State :=
  let c := s.rst.ctrHead.read
  if (s.jnl.crcA && s.jnl.copyA = c) || (s.jnl.crcB && s.jnl.copyB = c) then
    updateJnlFill { s with jnl := { s.jnl with
      resolved := true, written := c, copyA := c, copyB := c, crcA := true, crcB := true, head := c,
      hash := if c = s.jnl.head then s.jnl.hash else if c = 0 then [] else chainUpTo s c,
      entries := s.jnl.entries.filter (fun e => decide (e.1 ≤ c)) } }
  else setMin s minHEADAMBIG 0

/-- ACCEPT entries from the drained SEQ on that have no FINISH. -/
def openAccepts (s : State) : List (Nat × JEntry) :=
  s.jnl.entries.filter (fun e => e.2.body.kind = jACCEPT && decide (s.jnl.drained ≤ e.1) &&
    !s.jnl.entries.any (fun f => f.2.body.kind = jFINISH && f.2.body.ref.toNat = e.1))

/-- Each of them receives its FINISH: ABORTED, or DONE for an UPDACTIVATE whose option copy is in force (R489). -/
def closeAccepts (s : State) : State :=
  (openAccepts s).foldl (fun s e =>
    let code := if e.2.body.code = 0o62 && s.opt.trial then ceDONE else ceABORTED
    commit s { kind := jFINISH, ref := BitVec.ofNat 64 e.1, code := code }) s

/-- Step 5. A device locked down on backup power commits one TAMPER entry and freezes the journal (R409); one locked down before finds it
frozen (R402). (DEDUCED: log entries 38, 55) -/
def bootJournal (s : State) (reverted : Bool) : State :=
  let s := resolveHead (settleStaging s)
  let s := if s.ts.lockdn && !s.ts.lockPend then { s with jnl := { s.jnl with frozen := true } } else s
  let s := commit s { kind := jRESET, code := s.rst.cause.setWidth 16 }
  let s := s.ts.backupLog.foldl (fun s x => commit s (tamperEntry x 1)) s
  let s := { s with ts := { s.ts with backupLog := [] } }
  let s := closeAccepts s
  let s := if s.ts.lockPend then
      let s := commit s { kind := jTAMPER, ref := 2, code := s.ts.ldcause.setWidth 16 }
      { s with jnl := { s.jnl with frozen := true }, ts := { s.ts with lockPend := false } }
    else s
  if reverted then commit s { kind := jUPDATE, code := 5 } else s

/-! ## Steps 6 and 7 (R448, R490, R496) -/

/-- Step 6: the active slot is checked; the firmware and the monitors are loaded. (DEDUCED: log entry 51) -/
def bootFirmware (s : State) : State :=
  if s.rst.min then s
  else if fwCheck s (activeSlot s) ≠ 0 then setMin s minSLOTBAD (if s.opt.active then 1 else 0)
  else
    let s := (Config.firmwareWords (activeSlot s).octets).foldl (fun s (a, w) => s.writeWord (0o000440000000 + a.toNat) w 0xF) s
    (List.finRange 16).foldl (fun s l => if (s.lathe l).inSvc then loadMonitor s l else s) s

/-- The lathes in service. -/
def lathesInService (s : State) : BitVec 16 :=
  (List.finRange 16).foldl (fun w l => if (s.lathe l).inSvc then setBit w l.val true else w) 0

/-- A bank as the boot hands it to instance 0: as GRANT would, without a drain (R415, R426). (DEDUCED: log entry 51) -/
def bootBank (s : State) (n : Nat) : State :=
  if (s.bank n).retired then s
  else
    let own := (s.lathe (Fin.ofNat 16 (n / 64))).inSvc && (s.spin (n / 8)).inSvc
    s.modBank n (fun b => { b with ownCl := if own then 0 else 6, ownId := if own then BitVec.ofNat 7 (n / 8) else 0, inst := 0,
                                   lend := 2, lscope := 1, granted := some 0 })

/-- The mode at the end of boot (R490). -/
def bootMode (s : State) : BitVec 4 :=
  let d : BitVec 4 := s.opt.defmode.setWidth 4
  if s.ts.lockdn then 10
  else if s.rst.min then 4
  else if s.opt.trial then 8
  else if s.ts.taint && (d = 5 || d = 7) then 6
  else d

/-- In Deterministic mode every lathe in service is in deterministic operation (R509). -/
def bootDet (s : State) : State :=
  (List.finRange 16).foldl (fun s l => if (s.lathe l).inSvc then
    s.modLathe l (fun x => { x with det := true, detact := true, slotcnt := 0 }) else s) s

/-- Step 7, the functions: all are presented, only the PF in Minimal and Lockdown. -/
def presentFns (s : State) (only : Bool) : State :=
  let s := (List.range 15).foldl (fun s k => s.modFn (k + 1) (fun f => { f with present := !only })) s
  { s with pci := { s.pci with functionsUp := true } }

/-- The lathes in service and their banks are instance 0's. -/
def bootOwner (s : State) : State :=
  (List.range 1024).foldl bootBank (s.modInst 0 (fun x => { x with lathes := lathesInService s }))

/-- In Minimal mode no start awaits confirmation, and the boot timer stops. (DEDUCED: log entry 51) -/
def bootTimer (s : State) (m : BitVec 4) : State :=
  if m = 4 then { s with rst := { s.rst with remain := 0, remainSub := 0 } } else s

/-- Step 7: the functions are presented and the mode is entered. -/
def bootPresent (s : State) : State :=
  let m := bootMode s
  let s := bootTimer (presentFns (bootOwner s) (m = 4 || m = 10)) m
  changeMode (if m = 7 then bootDet s else s) m

/-- BOOT: the steps of R488, once the reset's hold is over. (DEDUCED and DESIGN CHOICE: log entries 7, 36, 51) -/
def boot (s : State) (f : BootFindings) : State :=
  if s.rst.inProgress.isNone || s.rst.perstLow || !s.pwr.main12 || s.pwr.hot then s
  else
    let (s, reverted) := headStart (bootMarch (bootChecks (bootOptions s) f) f)
    bootPresent (bootFirmware (bootJournal s reverted))
def execBoot (f : BootFindings) (s : State) : Host.Outcome State Fault Refusal := .next (boot s f)

/-! ## Confirmation (R491, R500) -/

/-- ARC takes the larger of itself and the active slot's ARV (R500). -/
def advanceArc (s : State) : State :=
  { s with rst := { s.rst with ctrArc := s.rst.ctrArc.write (max s.rst.ctrArc.read (fwArv (activeSlot s))) } }

/-- A start is confirmed: the boot timer ends. -/
def confirmed (s : State) : State := { s with rst := { s.rst with conf := true, remain := 0, remainSub := 0 } }

/-- RST_FAIL.CONFIRM of a normal start. -/
def confirmStart (s : State) : State :=
  if s.opt.trial || s.rst.min || s.rst.conf || !s.pci.functionsUp || s.rst.inProgress.isSome then s
  else confirmed (advanceArc (clearFails s))
def execConfirm (m : Master) (s : State) : Host.Outcome State Fault Refusal := .next (writeIf m 0o610002 (m = .head) confirmStart s)

/-! ## Update commands (R495 to R498) -/

def setInactive (s : State) (x : FwSlot) : State :=
  if s.opt.active then { s with rst := { s.rst with slotA := x } } else { s with rst := { s.rst with slotB := x } }

def updateEntry (s : State) (stage : Nat) : State := commit s { kind := jUPDATE, code := BitVec.ofNat 16 stage }

/-- A slot with octets written at an offset, and its state by the new length (R495). -/
def slotLoaded (x : FwSlot) (off : Nat) (o : List Octet) : FwSlot :=
  let octets := o.zipIdx.foldl (fun t (b, i) => tput 0 t (off + i) b) x.octets
  let y : FwSlot := { st := .loading, len := off + o.length, octets := octets }
  if 128 ≤ y.len && y.len = fwSize y then { y with st := .loaded } else y

/-- UPDLOAD: its octets are read from the host, whose completion comes with it (R436, R443). (DEDUCED: log entry 52) -/
def updloadRun (s : State) (r : SlotRef) (o : List Octet) (cpl : HostCpl) : State :=
  let off := cmdArg o 1
  let n := cmdArg o 2
  let x := if off = 0 then { st := .loading, len := 0, octets := [] } else inactiveSlot s
  let s := requestRange (n / 128 + 2) s r.i (cmdArg o 0) n
  let s := if cpl = .timeout && s.isRoot then countCto s else s
  match cpl with
  | .data d false =>
    let x := slotLoaded x off (fit n d)
    let s := setInactive s x
    let s := if x.st = .loaded then updateEntry s 1 else s
    finishCmd s r ceDONE (BitVec.ofNat 64 x.len)
  | _ => finishCmd (setInactive s x) r ceHOSTERR
def execUpdload (r : SlotRef) (cpl : HostCpl) (s : State) : Host.Outcome State Fault Refusal :=
  .next (if cpl = .ecrc then ecrcFails s r.i else runCmd 0o060 r (fun o s => updloadRun s r o cpl) s)

/-- The check of the inactive slot, with the state it writes (R496). (DEDUCED: log entry 52) -/
def verifyInactive (s : State) : State × Nat :=
  let x := inactiveSlot s
  let c := fwCheck s x
  (setInactive s { x with st := if c = 0 then .verified else .invalid }, c)

/-- UPDVERIFY. (DEDUCED: log entry 52) -/
def updverifyRun (s : State) (r : SlotRef) : State :=
  let (s, c) := verifyInactive s
  finishCmd (updateEntry s 2) r ceDONE (BitVec.ofNat 64 c)
def execUpdverify (r : SlotRef) (s : State) : Host.Outcome State Fault Refusal := .next (runCmd 0o061 r (fun _ s => updverifyRun s r) s)

/-- What UPDACTIVATE and UPDCONFIRM change of the option bytes (R497, R498). -/
def activateOpt (o : OptCopy) : OptCopy := { o with active := !o.active, trial := true }
def confirmOpt (o : OptCopy) : OptCopy := { o with trial := false }

/-- UPDACTIVATE: FAILCNT, the options, the UPDATE entry and FINISH; the reset is due (R497). -/
def updactivateRun (s : State) (r : SlotRef) : State :=
  let s := writeOptions (clearFails s) activateOpt
  let s := finishCmd (updateEntry s 3) r ceDONE
  { s with rst := { s.rst with activated := true } }
def execUpdactivate (r : SlotRef) (s : State) : Host.Outcome State Fault Refusal :=
  .next (runCmd 0o062 r (fun _ s => updactivateRun s r) s)

/-- UPDCONFIRM: FAILCNT, TRIAL, ARC, the UPDATE entry; then DEFMODE, or Open under step 4 of R490 (R498). -/
def updconfirmRun (s : State) (r : SlotRef) : State :=
  let s := writeOptions (clearFails s) confirmOpt
  let s := confirmed (advanceArc s)
  let s := finishCmd (updateEntry s 4) r ceDONE
  let m := bootMode s
  changeMode (if m = 7 then setDetAll s true else s) m
def execUpdconfirm (r : SlotRef) (s : State) : Host.Outcome State Fault Refusal := .next (runCmd 0o063 r (fun _ s => updconfirmRun s r) s)

/-- What a command leaves whose MRAM write has not completed: a download's slot is LOADING or INVALID, an option write has not advanced its
counter (R400, R487, R494, R501). Which of a download's writes it was is not stated: a free value. (DESIGN CHOICE: log entry 56) -/
def writeIncomplete (s : State) (o : List Octet) : State :=
  match cmdOpc o with
  | 0o060 =>
    let (i, s) := s.takeFree
    let x := if cmdArg o 1 = 0 then {} else inactiveSlot s
    setInactive s { x with st := if Config.freeBool i then .loading else .invalid }
  | 0o062 => tornOptions (clearFails s) activateOpt
  | 0o063 => tornOptions (clearFails s) confirmOpt
  | _ => s

/-- A command whose MRAM write has failed ends with JOBFAIL (R400). -/
def commandWriteFails (s : State) (r : SlotRef) : State :=
  let x := s.slot r
  finishCmd (if x.st = 3 && !x.begun then writeIncomplete s x.copy else s) r ceJOBFAIL

/-- BACKGROUND_SLOT_CHECK: the background check of a LOADED inactive slot ends (R496). -/
def backgroundSlotCheck (s : State) : State := if (inactiveSlot s).st = .loaded then (verifyInactive s).1 else s
def execBackgroundSlotCheck (s : State) : Host.Outcome State Fault Refusal := .next (backgroundSlotCheck s)

end Sys2Proof.Machine
end

