-- ==== Sys2Proof/Machine/Control.lean ====
section
/-! DEFINITION. Control transfer (R210, R211). -/
namespace Sys2Proof.Machine

/-- A conditional branch: PC := PC + IMM when the condition holds (R210). -/
def opBranch (c : Word → Word → Bool) (th : Th) (f : IFld) (s : State) : State × Res :=
  let t := s.thr th
  (s, if c (t.rg f.rd) (t.rg f.ra) then .jump (t.pc + sx18 f.imm) else .seq)

def opBeq := opBranch (fun a b => a = b)
def opBne := opBranch (fun a b => a ≠ b)
def opBlt := opBranch (fun a b => a.slt b)
def opBge := opBranch (fun a b => !a.slt b)
def opBltu := opBranch (fun a b => a.ult b)
def opBgeu := opBranch (fun a b => !a.ult b)

/-- DBNZ: G[RD] := G[RD] − 1, branch if nonzero; RD 0 is ILLEGAL, RA is 0 (R210, R211). -/
def opDbnz (th : Th) (f : IFld) (s : State) : State × Res :=
  if f.rd = 0 || f.ra ≠ 0 then (s, illegal (packI 0o046 f))
  else
    let t := s.thr th
    let v := t.rg f.rd - 1
    (s.setThr th (t.wg f.rd v), if v ≠ 0 then .jump (t.pc + sx18 f.imm) else .seq)

/-- JAL: G31 := PC + 1; PC := PC + OFFSET (R210). -/
def opJal (th : Th) (off : BitVec 28) (s : State) : State × Res :=
  let t := s.thr th
  (s.setThr th (t.wg 31 (t.pc + 1)), .jump (t.pc + off.signExtend 36))

/-- J: PC := PC + OFFSET (R210). -/
def opJ (th : Th) (off : BitVec 28) (s : State) : State × Res :=
  (s, .jump ((s.thr th).pc + off.signExtend 36))

/-- JALR: t := G[RA] + IMM; G[RD] := PC + 1; PC := t (R210). -/
def opJalr (th : Th) (f : IFld) (s : State) : State × Res :=
  let t := s.thr th
  (s.setThr th (t.wg f.rd (t.pc + 1)), .jump (t.rg f.ra + sx18 f.imm))

end Sys2Proof.Machine
end

