-- ==== Sys2Proof/Machine/Fp.lean ====
section
/-! DEFINITION. Floating point of the lathe core (R212 to R215, R241 to R254): short-vector arithmetic, compares, conversions and
moves, their completion and the floating-point trap. Results are computed at issue; they are
written, and flags and traps arise, at completion. -/
namespace Sys2Proof.Machine

/-- An arithmetic function on elements: format, rounding, a, b and the old destination d. -/
abbrev FpFn := Fmt → BitVec 3 → Nat → Nat → Nat → Nat × Flags5

/-- The results of the enabled elements, all computed from the values before the instruction (R242, R244). -/
def fpResults (fn : FpFn) (t : Thread) (f : TFld) : List (Nat × Nat × Flags5) :=
  (t.onElems f.form).map (fun e =>
    let w := formWide f.form
    (e, fn (formFmt f.form) f.mod (t.elem w f.ra.toNat e) (t.elem w f.rb.toNat e) (t.elem w f.rd.toNat e)))

/-- The OR of the flags of a list of results (R250). -/
def orFlags (rs : List (Nat × Nat × Flags5)) : Flags5 := rs.foldl (fun a r => a ||| r.2.2) 0

/-- Whether an arithmetic instruction is legal: rounding code, unused fields, group fields (R196, R212, R214). -/
def fpLegal (rounds unary : Bool) (f : TFld) : Bool :=
  (if rounds then rmOk f.mod else f.mod = 0) && (!unary || f.rb = 0) &&
    grpOk f.form f.rd && grpOk f.form f.ra && grpOk f.form f.rb

/-- A floating-point instruction issues: it takes its slots, and its result is written when it completes, at the latest when its latency has
passed since its last element group: its thread's next turn under strict rotation, else `lat` slots (R221, R235, R246, R250). -/
def fpIssue (s : State) (th : Th) (slots lat : Nat) (p : FpPend) : State :=
  let x := s.lathe th.l
  let due := if x.detact then x.slot + 8 * slots else x.slot + (slots - 1) + lat
  (takeSlots s th slots).modThr th (fun t => { t with fpOut := t.fpOut ++ [{ p with due := some due }] })

/-- The halves of F registers that the results of enabled elements fill; those of the others keep what they hold (R242, R245). -/
def elemHalves (form : BitVec 3) (rd : BitVec 5) (rs : List (Nat × Nat × Flags5)) : List (Nat × Word) :=
  if formWide form then
    rs.flatMap (fun r => [(2 * (rd.toNat + r.1), dLo (BitVec.ofNat 72 r.2.1)), (2 * (rd.toNat + r.1) + 1, dHi (BitVec.ofNat 72 r.2.1))])
  else rs.map (fun r => (2 * rd.toNat + r.1, BitVec.ofNat 36 r.2.1))

/-- Short-vector arithmetic of major opcode 0o003 (R212, R242 to R246). -/
def opFpK (rounds unary : Bool) (fn : FpFn) (th : Th) (func : BitVec 7) (f : TFld) (s : State) : State × Res :=
  if !fpLegal rounds unary f then (s, illegal (packT 3 func f))
  else
    let t := s.thr th
    let rs := fpResults fn t f
    (fpIssue s th (t.formSlots f.form) 4 { fw := elemHalves f.form f.rd rs, flags := orFlags rs }, .seq)

/-- Divide and square root: the core stops for the slots of R212 per enabled element; with none enabled the instruction takes one
slot (R213, R226, R246). -/
def opFpLong (unary : Bool) (fn : FpFn) (slots36 slots72 : Nat) (th : Th) (func : BitVec 7) (f : TFld) (s : State) :
    State × Res :=
  if !fpLegal true unary f then (s, illegal (packT 3 func f))
  else
    let t := s.thr th
    let rs := fpResults fn t f
    if rs.isEmpty then (fpIssue s th 1 1 {}, .seq)
    else
      let n := rs.length * (if formWide f.form then slots72 else slots36)
      let p : FpPend := { fw := elemHalves f.form f.rd rs, flags := orFlags rs }
      (((freezeSlots s th.l n).modLathe th.l (fun x => { x with stall := some { t := th.t } })).modThr th (fun t =>
        { t with fpOut := t.fpOut ++ [p] }), .seq)

def opFadd := opFpK true false (fun F rm a b _ => fpAdd F rm false a b)
def opFsub := opFpK true false (fun F rm a b _ => fpAdd F rm true a b)
def opFmul := opFpK true false (fun F rm a b _ => fpMul F rm a b)
def opFma := opFpK true false (fun F rm a b d => fpFma F rm false false a b d)
def opFms := opFpK true false (fun F rm a b d => fpFma F rm false true a b d)
def opFnma := opFpK true false (fun F rm a b d => fpFma F rm true false a b d)
def opFdiv := opFpLong false (fun F rm a b _ => fpDiv F rm a b) 16 22
def opFsqrt := opFpLong true (fun F rm a _ _ => fpSqrt F rm a) 18 24
def opFmin := opFpK false false (fun F _ a b _ => fpMinMax F false a b)
def opFmax := opFpK false false (fun F _ a b _ => fpMinMax F true a b)
def opFabs := opFpK false true (fun F _ a _ _ => fpAbs F a)
def opFneg := opFpK false true (fun F _ a _ _ => fpNeg F a)
def opFmov := opFpK false true (fun _ _ a _ _ => (a, 0))
def opFrint := opFpK true true (fun F rm a _ _ => fpRint F rm a)

/-- A compare of major opcode 0o004: bit e of G[RD] is the result of enabled element e, every other bit 0 (R215, R245). -/
def opFcmpK (c : Cmp) (th : Th) (func : BitVec 7) (f : TFld) (s : State) : State × Res :=
  if f.mod ≠ 0 || !grpOk f.form f.ra || !grpOk f.form f.rb then (s, illegal (packT 4 func f))
  else
    let t := s.thr th
    let w := formWide f.form
    let rs := (t.onElems f.form).map (fun e =>
      let (b, fl) := fpCmp (formFmt f.form) c (t.elem w f.ra.toNat e) (t.elem w f.rb.toNat e)
      (e, if b then 1 else 0, fl))
    let v : Word := rs.foldl (fun a r => setBit a r.1 (r.2.1 = 1)) 0
    (fpIssue s th (t.formSlots f.form) 4 { gw := some (f.rd, v), flags := orFlags rs }, .seq)

def opFcmpeq := opFcmpK .eq
def opFcmplt := opFcmpK .lt
def opFcmple := opFcmpK .le
def opFcmpun := opFcmpK .un

/-- A result on its way to a whole F register, to half of one, or to a general register, with its flags. -/
def toF (rd : BitVec 5) (v : Nat) (fl : Flags5) : FpPend :=
  { fw := [(2 * rd.toNat, dLo (BitVec.ofNat 72 v)), (2 * rd.toNat + 1, dHi (BitVec.ofNat 72 v))], flags := fl }
def toHalf (rd : BitVec 5) (high : Bool) (v : Word) : FpPend := { fw := [(2 * rd.toNat + if high then 1 else 0, v)] }
def toG (rd : BitVec 5) (v : Word) (fl : Flags5) : FpPend := { gw := some (rd, v), flags := fl }

/-- A conversion or move of major opcode 0o004: FORM and RB 0, MOD a rounding code or 0; SVL is ignored (R215, R235, R246). -/
def opCvtK (rounds : Bool) (lat : Nat) (fn : Thread → TFld → FpPend) (th : Th) (func : BitVec 7) (f : TFld) (s : State) :
    State × Res :=
  if f.form ≠ 0 || f.rb ≠ 0 || !(if rounds then rmOk f.mod else f.mod = 0) then (s, illegal (packT 4 func f))
  else (fpIssue s th 1 lat (fn (s.thr th) f), .seq)

/-- The range of I36. -/
def i36Lo : Int := -(2 ^ 35)
def i36Hi : Int := 2 ^ 35 - 1

def opFcvtsd := opCvtK true 4 (fun t f =>
  let r := fpConv fmt72 fmt36 f.mod (t.rf f.ra.toNat).toNat
  toF f.rd r.1 r.2)
def opFcvtds := opCvtK false 4 (fun t f =>
  let r := fpConv fmt36 fmt72 0 (dLo (t.rf f.ra.toNat)).toNat
  toF f.rd r.1 r.2)
def opFcvtis := opCvtK true 4 (fun t f =>
  let r := fpToInt fmt36 f.mod i36Lo i36Hi (dLo (t.rf f.ra.toNat)).toNat
  toG f.rd (BitVec.ofInt 36 r.1) r.2)
def opFcvtid := opCvtK true 4 (fun t f =>
  let r := fpToInt fmt72 f.mod i36Lo i36Hi (t.rf f.ra.toNat).toNat
  toG f.rd (BitVec.ofInt 36 r.1) r.2)
def opFcvtsi := opCvtK true 4 (fun t f =>
  let r := intToFp fmt36 f.mod (t.rg f.ra).toInt
  toF f.rd r.1 r.2)
def opFcvtdi := opCvtK false 4 (fun t f =>
  let r := intToFp fmt72 0 (t.rg f.ra).toInt
  toF f.rd r.1 r.2)
def opFmvgfL := opCvtK false 1 (fun t f => toHalf f.rd false (t.rg f.ra))
def opFmvgfH := opCvtK false 1 (fun t f => toHalf f.rd true (t.rg f.ra))
def opFmvfgL := opCvtK false 1 (fun t f => toG f.rd (dLo (t.rf f.ra.toNat)) 0)
def opFmvfgH := opCvtK false 1 (fun t f => toG f.rd (dHi (t.rf f.ra.toNat)) 0)

/-- The oldest outstanding floating-point instruction of a thread completes (R250); a divide or square root only when its stall ends
(R226). (DESIGN CHOICE: log entry 10) -/
def fpComplete (s : State) (th : Th) : State :=
  s.modThr th (fun t => match t.fpOut with
    | [] => t
    | p :: r => if p.due.isNone then t else { t with fpOut := r }.fpEnd p)

def execFpCompletion (th : Th) (s : State) : Host.Outcome State Fault Refusal := .next (fpComplete s th)

/-- A trap request is taken at a boundary, XPC naming the first instruction not executed (R251). -/
def execFptrap (th : Th) (s : State) : Host.Outcome State Fault Refusal :=
  .next (if (s.thr th).trapReq && s.between th then takeFpTrap (entryTurns s th) th (s.thr th).pc else s)

end Sys2Proof.Machine
end

