-- ==== Sys2Proof/Machine/MulDiv.lean ====
section
/-! DEFINITION. Multiply and divide (R202 to R206) and the end of a divide or square root (R226). -/
namespace Sys2Proof.Machine

/-- The exact product of two words as a 72-bit value (R202). -/
def mulS (a b : Word) : Dbl := a.signExtend 72 * b.signExtend 72
def mulU (a b : Word) : Dbl := a.setWidth 72 * b.setWidth 72

/-- A multiply: RD, MOD and FORM 0; the product lands 4 instructions later, and an accumulate adds to the value PH:PL holds for it
(R202, R203). -/
def opMulK (acc : Bool) (fn : Word → Word → Dbl) (th : Th) (func : BitVec 7) (f : TFld) (s : State) : State × Res :=
  if f.rd ≠ 0 || f.mod ≠ 0 || f.form ≠ 0 then (s, illegal (packT 2 func f))
  else opThread th (fun t =>
    let t := t.landDue
    let p := fn (t.rg f.ra) (t.rg f.rb)
    { t with products := t.products ++ [⟨if acc then mkD t.ph t.pl + p else p, 4⟩] }) s

def opMul := opMulK false mulS
def opMulu := opMulK false mulU
def opMadd := opMulK true mulS
def opMaddu := opMulK true mulU

/-- A due product is written to PH:PL (R203). -/
def execProductWrite (th : Th) (s : State) : Host.Outcome State Fault Refusal := .next (s.modThr th Thread.landDue)

/-- Quotients and remainders (R202, R206, R151): a zero divisor gives all ones and the dividend; −2^35 / −1 wraps. -/
def divS (a b : Word) : Word := if b = 0 then BitVec.allOnes 36 else BitVec.ofInt 36 (a.toInt.tdiv b.toInt)
def divU (a b : Word) : Word := if b = 0 then BitVec.allOnes 36 else BitVec.ofNat 36 (a.toNat / b.toNat)
def remS (a b : Word) : Word := if b = 0 then a else BitVec.ofInt 36 (a.toInt.tmod b.toInt)
def remU (a b : Word) : Word := if b = 0 then a else BitVec.ofNat 36 (a.toNat % b.toNat)

/-- A divide stops the core for 14 slots; its result is written at the end (R202, R206, R226). -/
def opDivK (fn : Word → Word → Word) (th : Th) (func : BitVec 7) (f : TFld) (s : State) : State × Res :=
  if f.mod ≠ 0 || f.form ≠ 0 then (s, illegal (packT 2 func f))
  else
    let t := s.thr th
    ((freezeSlots s th.l 14).modLathe th.l (fun x =>
      { x with stall := some { t := th.t, gw := some (f.rd, fn (t.rg f.ra) (t.rg f.rb)) } }), .seq)

def opDiv := opDivK divS
def opDivu := opDivK divU
def opRem := opDivK remS
def opRemu := opDivK remU

/-- The divide or square root of a core ends: its result is written and the core issues again (R206, R226, R250). -/
def divideDone (s : State) (l : Fin 16) : State :=
  match (s.lathe l).stall with
  | none => s
  | some p =>
    (s.modLathe l (fun x => { x with stall := none })).modThr ⟨l, p.t⟩ (fun t =>
      let t := match p.gw with
        | some (r, v) => t.wg r v
        | none => t
      (t.fpOut.filter (fun q => q.due.isNone)).foldl Thread.fpEnd { t with fpOut := t.fpOut.filter (fun q => q.due.isSome) })

def execDivideDone (l : Fin 16) (s : State) : Host.Outcome State Fault Refusal := .next (divideDone s l)

end Sys2Proof.Machine
end

