-- ==== Sys2Proof/Machine/Power.lean ====
section
/-! DEFINITION. Rest and its wakes (R516 to R522), MODESET (R512, R513), the commands that a wake precedes (doorbells, event pins, tamper
events), and the end of the zeroing that follows a wake (R521). -/
namespace Sys2Proof.Machine

/-! ## Entry (R517, R518, R519) -/

/-- A live Wovas link is left for Rest: a DOWN notice, and the link is down (R472). -/
def linkSleep (s : State) (k : Fin 6) : State :=
  if (s.wlink k.val).up then
    (sendMsg s (.down k)).modWlink k.val (fun x => { x with up := false, width := 0, downs := satAdd x.downs 1 })
  else s

/-- What L4 and L5 lose, with what R519 lists recorded first. (DEDUCED: log entry 53) -/
def loseState (s : State) : State :=
  let s := { s with pwr := { s.pwr with rest := some { banks := s.banks, scr := s.scr, fab := s.fab, pci := s.pci, fwd := s.wov.fwd, hs := s.hs } } }
  { s with
    mem := s.mem.filter (fun x => inHsram x.1 || inHsrom x.1)
    banks := tmapVals {} (fun b => { resetBank b with granted := b.granted }) s.banks
    spindles := tmapVals {} (fun x => { inSvc := x.inSvc }) s.spindles
    lathes := tmapVals {} (fun x => { inSvc := x.inSvc, icBad := x.icBad, dcBad := x.dcBad }) s.lathes
    threads := []
    groups := []
    scr := { memPend := s.scr.memPend, memUsed := s.scr.memUsed }
    fab := { mram := s.fab.mram }
    pci := { s.pci with half := false, apb := 0, eprx := 0, cto := 0, disc := 0, ecrc := 0, hwt := [] }
    wov := { nextTag := s.wov.nextTag, tx := s.wov.tx, deadLinks := s.wov.deadLinks }
    dbg := { tx := s.dbg.tx } }

/-- Entry to Rest at the rung of PWR_CFG, after the MODESET's FINISH (R518). (DEDUCED: log entry 53) -/
def enterRest (s : State) : State :=
  let g := s.pwr.cfgRung
  let s := { s with pwr := { s.pwr with rfrom := s.pwr.mode } }
  let s := flushStaging (changeMode s 9 g)
  let s := if g.toNat ≥ 2 then endOps ((List.finRange 6).foldl linkSleep s) (fun _ => true) .linkDown else s
  if g.toNat ≥ 4 then loseState s else s

/-! ## Wake (R520, R521, R525) -/

def wakeCode : WakeSrc → BitVec 3 × BitVec 4
  | .doorbell => (1, 0)
  | .tlp => (2, 0)
  | .eventPin p => (3, BitVec.ofFin p)
  | .tamper => (4, 0)

/-- The registers and windows that R519 lists stand again as recorded; ISTAT of a window is not among them. -/
def restoreRecord (s : State) (x : RestRec) : State :=
  { s with
    scr := { s.scr with logce := x.scr.logce, bgint := x.scr.bgint, rateBank := x.scr.rateBank, rateScratch := x.scr.rateScratch,
                        rateHsram := x.scr.rateHsram }
    fab := { s.fab with tmo := x.fab.tmo, tmoAsk := x.fab.tmoAsk }
    pci := { s.pci with half := x.pci.half, apb := x.pci.apb, hwt := x.pci.hwt }
    wov := { s.wov with fwd := x.fwd }
    hs := { x.hs with insts := tmapVals {} (fun i => { i with ringerr := false, dbign := 0 }) x.hs.insts } }

/-- Each lathe after the loss: its instance's epoch, DET by the entry mode, and its monitor (R519, R521). -/
def wakeLathe (s : State) (l : Fin 16) : State :=
  let e := match instanceOf s l with | some i => (s.inst i).epoch | none => 0
  let s := s.modLathe l (fun x => { x with epoch := e })
  if !(s.lathe l).inSvc then s
  else
    let det := s.pwr.rfrom = 7
    loadMonitor (s.modLathe l (fun x => { x with det := det, detact := det })) l

/-- The owner fields that a bank returns to after a wake: as they were, with the current epoch; SPINDLE is NONE where the spindle has left service
meanwhile (R72, R519, R521). -/
def returned (s : State) (o : Bank) (n : Nat) (b : Bank) : Bank :=
  let lost : Bool := o.ownCl = 0 && !(s.spin (n / 8)).inSvc
  { b with ownCl := if lost then 6 else o.ownCl, ownId := if lost then 0 else o.ownId, inst := o.inst, lend := o.lend, lscope := o.lscope,
           epoch := match b.granted with | some i => (s.inst i).epoch | none => o.epoch }

/-- Every bank passes by a handover to its recorded owner (R57, R521). -/
def returnBanks (s : State) (x : RestRec) : State :=
  (List.range 1024).foldl (fun s n => giveBanks s [n] (returned s (tget {} x.banks n) n)) s

/-- The wake from L4 or L5: the records stand again, BNK_CFG among them, every bank is TEST-owned and under a destroying run, the scratchpads are zero and the
monitors stand in them. (DEDUCED: log entry 53) -/
def wakeLost (s : State) (x : RestRec) : State :=
  let s := restoreRecord s x
  let s := (List.range 1024).foldl (fun s n => s.modBank n (fun b =>
    { (if b.retired then b else { b with ownCl := 5 }) with skew := (tget ({} : Bank) x.banks n).skew })) s
  let s := marchOver s (List.range 1024) false false none
  let s := (List.finRange 16).foldl wakeLathe s
  { s with pwr := { s.pwr with zeroBusy := true } }

/-- A wake returns the device to L0 and to its entry mode; from L5 it passes through Boot. The exit time is not stated: a free value. (DEDUCED and DESIGN CHOICE: log entries 16, 53) -/
def wakeUp (s : State) (src : WakeSrc) : State :=
  if s.pwr.mode ≠ 9 then s
  else
    let g := s.pwr.rung
    let (i, s) := s.takeFree
    let s := { s with pwr := { s.pwr with
      wValid := true, wSrc := (wakeCode src).1, wPin := (wakeCode src).2, wRung := g, wExit := BitVec.ofNat 18 (Config.freeNat i), rung := 0 } }
    let s := match s.pwr.rest with
      | some x => wakeLost s x
      | none => s
    let s := if g = 5 then changeMode s 2 else s
    changeMode s s.pwr.rfrom

/-- WAKE: an event pin wakes only with its bit of PINWAKE set (R520). -/
def wake (s : State) (src : WakeSrc) : State :=
  match src with
  | .eventPin p => if s.pwr.pinwake.getLsbD p.val then wakeUp s src else s
  | _ => wakeUp s src
def execWake (src : WakeSrc) (s : State) : Host.Outcome State Fault Refusal := .next (wake s src)

/-- The zeroing after a wake ends with its run: the banks return to their recorded owners (R521). (DEDUCED: log entry 53) -/
def settleZeroing (s : State) : State :=
  if s.pwr.zeroBusy && s.scr.march.isNone then
    match s.pwr.rest with
    | some x => returnBanks { s with pwr := { s.pwr with zeroBusy := false, rest := none } } x
    | none => { s with pwr := { s.pwr with zeroBusy := false } }
  else s
def execMarchGroupDone (fails : List CellFail) (s : State) : Host.Outcome State Fault Refusal := .next (settleZeroing (marchGroupDone s fails))

/-! ## MODESET (R512, R513, R518) -/

def modesetRun (s : State) (r : SlotRef) (o : List Octet) : State :=
  let m : BitVec 4 := BitVec.ofNat 4 (cmdArg o 0)
  if m = 9 then enterRest (finishCmd s r ceDONE)
  else if m = 7 then settleModeset (setDetAll s true)
  else if s.pwr.mode = 7 then settleModeset (setDetAll s false)
  else changeMode (finishCmd s r ceDONE) m
def execModeset (r : SlotRef) (s : State) : Host.Outcome State Fault Refusal := .next (runCmd 0o050 r (fun o s => modesetRun s r o) s)

/-! ## Tamper (R406 to R408) -/

def execLogTamper (x : Sensor) (s : State) : Host.Outcome State Fault Refusal :=
  .next (logTamper (if hasLogGrade x then wakeUp s .tamper else s) x)
def execLockdownTamper (x : Sensor) (s : State) : Host.Outcome State Fault Refusal :=
  .next (lockdownTamper (if sensorOn s x then wakeUp s .tamper else s) x)

/-- BOND_TEST: a broken chain is a lockdown-grade event (R406). -/
def execBondTest (broken : Bool) (s : State) : Host.Outcome State Fault Refusal :=
  .next (if broken then lockdownTamper (wakeUp s .tamper) .bond else s)

/-- WRAP_KEY_ZEROISE: the key is zeroised, LDCAUSE set, the journal frozen; Tamper-lockdown is entered, and the core reset follows (R408,
R480). (DEDUCED: log entry 55) -/
def wrapKeyZeroise (s : State) : State :=
  match s.ts.pendingLock with
  | none => s
  | some x =>
    let s := { s with
      ts := { s.ts with pendingLock := none, lockTicks := 0, wrapKey := false, lockdn := true, ldcause := setBit s.ts.ldcause (sensorBit x) true }
      jnl := { s.jnl with frozen := true } }
    startReset (changeMode s 10) .core 9

end Sys2Proof.Machine
end

