-- ==== Sys2Proof/Machine/Regs.lean ====
section
/-! DEFINITION. The register region (R20, R21): one read and one write for every block, with the access codes of R4 to R6 and the write rights
of each block's chapter; used by loads and stores, the BAR0 aperture, the debug port, and the rows that name a register write. -/
namespace Sys2Proof.Machine

/-! ## BNK (R64 to R70, R344) -/

def bnkRead (s : State) (n off : Nat) : State × Word :=
  let b := s.bank n
  match off with
  | 0o00 => (s, putB 35 b.isPending ||| putB 34 b.sealed ||| putB 33 b.retired ||| ownWord b)
  | 0o01 => (s, putB 0 (s.bank (n / 8 * 8)).skew)
  | 0o02 => (s.setBank n { b with nownCnt := 0 },
      putB 35 b.horej ||| putB 34 b.nown ||| putB 33 b.wdog ||| putB 32 b.heldLock ||| put 0 18 b.nownCnt.toNat)
  | 0o03 => (s, putB 35 b.fault.wr ||| put 32 3 b.fault.mcl.toNat ||| put 25 7 b.fault.mid.toNat ||| put 21 4 b.fault.minst.toNat |||
      put 0 14 b.fault.row.toNat)
  | 0o04 => (s.setBank n { b with rd1 := 0, rd2 := 0 }, put 18 18 b.rd1.toNat ||| put 0 18 b.rd2.toNat)
  | 0o05 => (s.setBank n { b with rmtr := 0, rmtw := 0 }, put 18 18 b.rmtr.toNat ||| put 0 18 b.rmtw.toNat)
  | 0o06 => (s.setBank n { b with scrr := 0, scrw := 0 }, put 18 18 b.scrr.toNat ||| put 0 18 b.scrw.toNat)
  | 0o07 => (s.setBank n { b with staleCnt := 0 }, put 27 9 b.lastEp.toNat ||| put 0 18 b.staleCnt.toNat)
  | 0o11 => (s, put 30 6 b.rused.toNat ||| put 28 2 b.cused.toNat ||| put 22 6 b.pendRows.length)
  | _ => (s, 0)

def bnkWrite (s : State) (m : Master) (n off : Nat) (w : Word) : Option State :=
  match off with
  | 0o00 => if mayWriteBank s m n then some (bnkOwn s n w) else none
  | 0o01 => if mayWriteBank s m n then some (bnkCfg s n w) else none
  | 0o02 => some (s.modBank n (fun b => { b with
      horej := b.horej && !w.getLsbD 35, nown := b.nown && !w.getLsbD 34, wdog := b.wdog && !w.getLsbD 33 }))
  | 0o10 => if m = .tail then some (bnkSeal s n w) else none
  | _ => some s

/-! ## STR and SPN (R105 to R109, R139 to R143) -/

def strRead (s : State) (k off : Nat) : State × Word :=
  let x := s.spin k
  match off with
  | 0o00 => (s, putB 35 x.valid ||| put 29 6 x.code.toNat ||| put 26 3 x.sidx.toNat ||| put 21 5 x.seqno.toNat ||| put 0 21 x.elem.toNat)
  | 0o01 => (s, x.fva)
  | 0o02 => (s, put 0 21 x.pcnt.toNat)
  | 0o03 => (s.setSpin k { x with refcnt := 0 }, put 0 18 x.refcnt.toNat)
  | 0o04 => (s, vlMax)
  | _ => (s, 0)

def strWrite (s : State) (k off : Nat) (w : Word) : Option State :=
  some (if off = 0 then s.modSpin k (fun x => { x with valid := x.valid && !w.getLsbD 35 }) else s)

/-- The part of the group that runs in a spindle, if one runs. -/
def runningPart (s : State) (k : Nat) : Option Part :=
  match (s.spin k).queue with
  | [] => none
  | gi :: _ => match s.group gi with
    | some g => if g.started then some (g.part (k - g.spindle 0)) else none
    | none => none

/-- A read of an SPN register; with no group running SEQ and THR are the last one's (R139 to R143). (DESIGN CHOICE: log entry 66) -/
def spnRead (s : State) (k off : Nat) : State × Word :=
  let x := s.spin k
  match off with
  | 0o00 =>
    let p := runningPart s k
    (s, putB 35 x.inSvc ||| putB 34 p.isSome ||| putB 33 (match p with | some p => p.drained && !p.ended | none => false) |||
      put 30 3 x.queue.length ||| put 25 5 x.runSeq.toNat ||| put 22 3 x.runThr.toNat)
  | 0o01 => (s, put 0 30 x.xflag.toNat)
  | 0o02 => (s, put 0 5 x.xacc.toNat)
  | 0o04 => (s, put 0 18 x.drainTicks.toNat)
  | _ => (s, 0)

def spnWrite (s : State) (m : Master) (k off : Nat) (w : Word) : Option State :=
  match off with
  | 0o02 => some (s.modSpin k (fun x => { x with xacc := x.xacc &&& ~~~ w.extractLsb' 0 5 }))
  | 0o03 => if maySpnCtl s m k then some (spnCtl s k w) else none
  | _ => some s

/-! ## LTH (R144, R190, R238 to R240, R275, R430) -/

def saveWord (a : SaveArea) : Word := putB 35 a.en ||| put 0 18 a.offset.toNat
def saveOf (w : Word) : SaveArea := { en := w.getLsbD 35, offset := w.extractLsb' 0 18 }

def lthRead (s : State) (l : Fin 16) (off : Nat) : State × Word :=
  let x := s.lathe l
  match off with
  | 0o000 => (s, coreCfgWord x)
  | 0o001 => (s.setLathe l { x with wturn := 0, varcnt := 0 },
      putB 35 x.detact ||| putB 34 x.drain ||| put 18 16 x.wturn.toNat ||| put 0 18 x.varcnt.toNat)
  | 0o002 => (s, x.slotcnt)
  | 0o003 => (s, putB 35 x.lockValid ||| put 32 3 x.lockThr.toNat ||| put 30 2 x.lockFrom.toNat ||| put 24 6 x.lockCode.toNat)
  | 0o004 => (s, x.lockPc)
  | 0o005 => (s, put 0 9 x.epoch.toNat)
  | _ =>
    (s, if 0o100 ≤ off ∧ off < 0o110 then saveWord (tget {} x.vsave (off - 0o100))
      else if 0o110 ≤ off ∧ off < 0o120 then saveWord (tget {} x.rsave (off - 0o110)) else 0)

/-- Machine-level code, of any lathe. -/
def isMachine (s : State) (m : Master) : Bool := match m with | .core th => (s.thr th).level = .machine | _ => false

def lthWrite (s : State) (m : Master) (l : Fin 16) (off : Nat) (w : Word) : Option State :=
  let saver : Bool := m = .head || isPrivOn s m l.val
  if off = 0o000 then (if mayCoreCfg s m l then some (coreCfgSet s l w (m = .head)) else none)
  else if off = 0o003 then
    (if m = .head || isMachine s m then some (s.modLathe l (fun x => { x with lockValid := x.lockValid && !w.getLsbD 35 })) else none)
  else if off = 0o005 then
    (if m = .head then some (s.modLathe l (fun x => { x with epoch := w.extractLsb' 0 9 })) else none)
  else if 0o100 ≤ off ∧ off < 0o110 then
    (if saver then some (s.modLathe l (fun x => { x with vsave := tput {} x.vsave (off - 0o100) (saveOf w) })) else none)
  else if 0o110 ≤ off ∧ off < 0o120 then
    (if saver then some (s.modLathe l (fun x => { x with rsave := tput {} x.rsave (off - 0o110) (saveOf w) })) else none)
  else some s

/-! ## TS and JNL (R410 to R414) -/

def tsRead (s : State) (off : Nat) : State × Word :=
  let t := s.ts
  match off with
  | 0o00 => (s, putB 35 t.lockdn ||| putB 34 (keyOk s) ||| putB 33 t.taint ||| put 16 9 (openCtxs s none).length)
  | 0o01 => ({ s with ts := { t with stale := 0 } }, put 0 18 t.stale.toNat)
  | 0o02 => (s, putB 35 t.locked ||| putB 34 t.set ||| put 0 11 t.err.toNat)
  | 0o03 => ({ s with ts := { t with logcnt := 0 } }, put 30 6 t.live.toNat ||| put 24 6 t.ldcause.toNat ||| put 0 16 t.logcnt.toNat)
  | _ => (s, 0)

/-- Who is told apart by a latch: the class and ID, and for a core its thread (R413). -/
def latchKey (m : Master) : Nat :=
  match m with
  | .core th => thKey th
  | _ => 128 + 128 * (masterCode m).1.toNat + (masterCode m).2.toNat

def seqLow (n : Nat) : Word := BitVec.ofNat 36 n
def seqHigh (n : Nat) : Word := BitVec.ofNat 36 (n / 2 ^ 36 % 2 ^ 28)

/-- A read of a latched H word: the latch, consumed, or the current bits (R413). -/
def readLatch (latch : Tab Word) (k n : Nat) : Tab Word × Word :=
  let w := tget 0 latch k
  (tput 0 latch k 0, if w = 0 then seqHigh n else w &&& BitVec.ofNat 36 (2 ^ 28 - 1))

def jnlRead (s : State) (m : Master) (off : Nat) : State × Word :=
  let j := s.jnl
  let k := latchKey m
  match off with
  | 0o00 => ({ s with jnl := { j with latchHead := tput 0 j.latchHead k (putB 35 true ||| seqHigh j.written) } }, seqLow j.written)
  | 0o01 =>
    let (t, w) := readLatch j.latchHead k j.written
    ({ s with jnl := { j with latchHead := t } }, w)
  | 0o02 => ({ s with jnl := { j with latchDrn := tput 0 j.latchDrn k (putB 35 true ||| seqHigh j.drained) } }, seqLow j.drained)
  | 0o03 =>
    let (t, w) := readLatch j.latchDrn k j.drained
    ({ s with jnl := { j with latchDrn := t } }, w)
  | 0o04 => (s, putB 35 j.frozen ||| putB 34 (journalFull s) ||| putB 33 j.ovwr ||| put 0 20 s.jnlFill)
  | 0o05 => (s, put 0 20 j.thr.toNat)
  | _ => (s, 0)

def jnlWrite (s : State) (m : Master) (off : Nat) (w : Word) : Option State :=
  if m ≠ .head then (if off ≤ 5 then none else some s)
  else match off with
    | 0o04 => some { s with jnl := { s.jnl with ovwr := s.jnl.ovwr && !w.getLsbD 33 } }
    | 0o05 => some (updateJnlFill { s with jnl := { s.jnl with thr := w.extractLsb' 0 20 } })
    | _ => if off ≤ 5 then none else some s

/-! ## FAB and SCR (R338 to R343, R354 to R356) -/

def fabRead (s : State) (off : Nat) : State × Word :=
  let f := s.fab
  match off with
  | 0o00 => (s, put 0 16 f.tmo.toNat)
  | 0o01 => ({ s with fab := { f with count := 0 } },
      putB 35 f.valid ||| putB 34 f.kind ||| putB 33 f.wr ||| put 29 4 f.mcl.toNat ||| put 22 7 f.mid.toNat ||| put 0 18 f.count.toNat)
  | 0o02 => (s, f.eaddr.setWidth 36)
  | 0o03 => ({ s with fab := { f with late := 0 } }, put 0 18 f.late.toNat)
  | _ => (s, 0)

def fabWrite (s : State) (m : Master) (off : Nat) (w : Word) : Option State :=
  match off with
  | 0o00 =>
    if mayWriteScr s m then
      (let t := w.extractLsb' 0 16
       some (if t.toNat < 10 then s else { s with fab := { s.fab with tmoAsk := some t } }))
    else none
  | 0o01 => some { s with fab := { s.fab with valid := s.fab.valid && !w.getLsbD 35 } }
  | _ => some s

def scrRead (s : State) (off : Nat) : State × Word :=
  let c := s.scr
  match off with
  | 0o00 => (s, putB 35 c.logce ||| put 12 12 c.bgint.toNat)
  | 0o01 => (s, put 24 12 c.rateBank.toNat ||| put 12 12 c.rateScratch.toNat ||| put 0 12 c.rateHsram.toNat)
  | 0o02 => ({ s with scr := { c with ce := 0, ue := 0 } }, put 18 18 c.ce.toNat ||| put 0 18 c.ue.toNat)
  | 0o03 => (s, elog0 s)
  | 0o04 => (popElog s, elog1 s)
  | 0o06 => (s, putB 35 c.march.isSome ||| putB 34 c.done ||| putB 33 c.rej ||| putB 32 c.fail ||| put 18 10 c.cur.toNat |||
      put 0 18 c.nfail.toNat)
  | _ => (s, 0)

def scrWrite (s : State) (m : Master) (off : Nat) (w : Word) : Option State :=
  match off with
  | 0o00 => if mayWriteScr s m then some { s with scr := { s.scr with logce := w.getLsbD 35, bgint := w.extractLsb' 12 12 } } else none
  | 0o01 => if mayWriteScr s m then some { s with scr := { s.scr with
      rateBank := w.extractLsb' 24 12, rateScratch := w.extractLsb' 12 12, rateHsram := w.extractLsb' 0 12 } } else none
  | 0o03 => some { s with scr := { s.scr with ovf := s.scr.ovf && !w.getLsbD 34 } }
  | 0o05 => if mayWriteScr s m then some (scrTcmd s w) else none
  | 0o06 => some { s with scr := { s.scr with
      done := s.scr.done && !w.getLsbD 34, rej := s.scr.rej && !w.getLsbD 33, fail := s.scr.fail && !w.getLsbD 32 } }
  | _ => some s

/-! ## PCI (R450 to R452) -/

def hwtAWord (h : Hwt) : Word := putB 35 h.v ||| putB 34 h.wr ||| put 30 4 h.fn.toNat ||| put 0 28 h.haddrh.toNat

def pciRead (s : State) (off : Nat) : State × Word :=
  let p := s.pci
  match off with
  | 0o0000 => (s, putB 35 p.up ||| put 5 3 p.speed.toNat ||| put 0 5 p.width.toNat)
  | 0o0001 => (s, putB 4 p.half ||| put 0 4 p.apb.toNat)
  | 0o0002 => ({ s with pci := { p with eprx := 0, cto := 0 } }, put 18 18 p.eprx.toNat ||| put 0 18 p.cto.toNat)
  | 0o0003 => ({ s with pci := { p with disc := 0, ecrc := 0 } }, put 18 18 p.disc.toNat ||| put 0 18 p.ecrc.toNat)
  | _ =>
    if 0o4000 ≤ off ∧ off < 0o10000 then
      (s, let h : Hwt := tget {} p.hwt ((off - 0o4000) / 2)
          if off % 2 = 0 then hwtAWord h else put 0 10 h.haddrl.toNat)
    else (s, 0)

def pciWrite (s : State) (m : Master) (off : Nat) (w : Word) : Option State :=
  if off = 0o0001 then
    (if m = .head then some { s with pci := { s.pci with half := w.getLsbD 4, apb := w.extractLsb' 0 4 } } else none)
  else if 0o4000 ≤ off ∧ off < 0o10000 then
    (if m = .head then
      some { s with pci := { s.pci with hwt := tmod {} s.pci.hwt ((off - 0o4000) / 2) (fun h =>
        if off % 2 = 0 then { h with v := w.getLsbD 35, wr := w.getLsbD 34, fn := w.extractLsb' 30 4, haddrh := w.extractLsb' 0 28 }
        else { h with haddrl := w.extractLsb' 0 10 }) } }
     else none)
  else some s

/-! ## DBG (R540, R541) -/

def haltedBits (s : State) (l : Fin 16) : Nat :=
  (List.range 8).foldl (fun a t => a + if (s.thr ⟨l, Fin.ofNat 8 t⟩).halted then 2 ^ t else 0) 0

def dbgStatWord (s : State) : Word := putB 35 s.dbg.opened ||| putB 34 s.fus.dbgdis ||| put 18 16 s.dbg.sess.toNat ||| put 0 18 s.dbg.ferr.toNat

def cmpAWord (c : Comparator) : Word :=
  putB 35 c.en ||| put 33 2 c.kind.toNat ||| putB 32 c.data ||| putB 31 c.action ||| put 23 8 c.tmask.toNat

/-- The lathe whose DBG registers hold an offset. -/
def dbgLathe (off : Nat) : Fin 16 := Fin.ofNat 16 (off / 0o100 - 1)

def dbgRead (s : State) (off : Nat) : State × Word :=
  if off = 0 then ({ s with dbg := { s.dbg with ferr := 0 } }, dbgStatWord s)
  else if off < 0o100 ∨ 0o2100 ≤ off then (s, 0)
  else
    let l := dbgLathe off
    let x := s.lathe l
    let r := off % 0o100
    (s, if r = 0 then putB 35 x.hor
      else if r = 1 then put 28 8 (haltedBits s l) ||| putB 27 x.hit ||| put 24 3 x.hitCmp.toNat ||| put 21 3 x.hitThr.toNat
      else if 0o20 ≤ r ∧ r < 0o40 then
        (let c : Comparator := tget {} x.cmps ((r - 0o20) / 2)
         if r % 2 = 0 then cmpAWord c else c.value)
      else 0)

def dbgWrite (s : State) (m : Master) (off : Nat) (w : Word) : Option State :=
  if off = 0 ∨ (0o100 ≤ off ∧ off < 0o2100 ∧ (off % 0o100 < 2 ∨ (0o20 ≤ off % 0o100 ∧ off % 0o100 < 0o40))) then
    (if m ≠ .debugPort || !s.dbg.opened then none
     else if off = 0 then some s
     else
      let r := off % 0o100
      some (s.modLathe (dbgLathe off) (fun x =>
        if r = 0 then { x with hor := w.getLsbD 35 }
        else if r = 1 then { x with hit := x.hit && !w.getLsbD 27 }
        else { x with cmps := tmod {} x.cmps ((r - 0o20) / 2) (fun c =>
          if r % 2 = 0 then { c with en := w.getLsbD 35, kind := w.extractLsb' 33 2, data := w.getLsbD 32, action := w.getLsbD 31,
                                     tmask := w.extractLsb' 23 8 }
          else { c with value := w }) })))
  else some s

/-! ## RST, OPT, PWR and FUS (R503 to R508, R523 to R525, R554) -/

def rstRead (s : State) (off : Nat) : State × Word :=
  let r := s.rst
  (s, match off with
    | 0o00 => put 30 6 r.cause.toNat ||| put 28 2 r.level.toNat ||| put 0 17 r.hist.toNat
    | 0o01 => BitVec.ofNat 36 r.ctrReset.read
    | 0o02 => putB 35 s.opt.trial ||| putB 34 r.conf ||| put 30 3 r.ctrFail.read ||| put 27 3 s.opt.maxfail.toNat ||| put 0 27 r.remain.toNat
    | 0o04 => putB 35 r.hswdEn ||| put 0 17 r.hswdCount.toNat
    | 0o05 => putB 35 r.min ||| put 29 6 r.minCause.toNat ||| put 0 29 r.minDetail.toNat
    | _ => 0)

def rstWrite (s : State) (m : Master) (off : Nat) (w : Word) : Option State :=
  if [0o00, 0o02, 0o03, 0o04].contains off && m ≠ .head then none
  else some (match off with
    | 0o00 => { s with rst := { s.rst with hist := s.rst.hist &&& ~~~ w.extractLsb' 0 17 } }
    | 0o02 => if w.getLsbD 33 then confirmStart s else s
    | 0o03 => rstCmd s (fld w 34 2) (fld w 0 4)
    | 0o04 => if w.getLsbD 34 then kick s else s
    | _ => s)

def slotCode : SlotState → Nat
  | .invalid => 0
  | .loading => 1
  | .loaded => 2
  | .verified => 3

/-- The word of OPT_SLOTA or OPT_SLOTB. -/
def slotWord (x : FwSlot) : Word :=
  put 33 3 (slotCode x.st) ||| (if x.len < 128 then 0 else put 25 8 (fwLine x) ||| put 9 16 (fwRelease x))

def optRead (s : State) (off : Nat) : State × Word :=
  (s, match off with
    | 0o00 => putB 35 (!copy0InForce s) ||| putB 34 s.opt.active ||| putB 33 s.opt.trial ||| put 0 32 s.opt.seqno.toNat
    | 0o01 => slotWord s.rst.slotA
    | 0o02 => slotWord s.rst.slotB
    | 0o03 => put 0 32 s.rst.ctrArc.read
    | _ => 0)

def pwrRead (s : State) (off : Nat) : State × Word :=
  let p := s.pwr
  (s, match off with
    | 0o00 => put 32 4 p.mode.toNat ||| put 28 4 p.prev.toNat ||| put 25 3 p.rung.toNat ||| put 21 4 p.rfrom.toNat
    | 0o01 => put 33 3 p.cfgRung.toNat ||| put 17 16 p.pinwake.toNat
    | 0o02 => putB 35 p.wValid ||| put 32 3 p.wSrc.toNat ||| put 28 4 p.wPin.toNat ||| put 25 3 p.wRung.toNat ||| put 0 18 p.wExit.toNat
    | _ => 0)

def pwrWrite (s : State) (m : Master) (off : Nat) (w : Word) : Option State :=
  match off with
  | 0o01 =>
    if (m = .head || m = .pciein 0) && s.pwr.mode ≠ 10 then
      (let g := w.extractLsb' 33 3
       some { s with pwr := { s.pwr with cfgRung := if g = 0 || g = 6 || g = 7 then s.pwr.cfgRung else g, pinwake := w.extractLsb' 17 16 } })
    else none
  | 0o02 => some { s with pwr := { s.pwr with wValid := s.pwr.wValid && !w.getLsbD 35 } }
  | _ => some s

def fusRead (s : State) (off : Nat) : State × Word :=
  (s, match off with
    | 0o00 => putB 35 s.fus.xmesh ||| putB 34 s.fus.refsel ||| putB 33 s.fus.dbgdis
    | 0o01 => s.fus.pina
    | 0o02 => s.fus.pinb.setWidth 36
    | _ => 0)

/-! ## The region (R20, R21) -/

/-- The block of a register and its offset in the block (R20). -/
inductive RegBlock where
  | bnk (n off : Nat)
  | str (k off : Nat)
  | spn (k off : Nat)
  | lth (l : Fin 16) (off : Nat)
  | none_
  | ts (off : Nat)
  | jnl (off : Nat)
  | evf (off : Nat)
  | fab (off : Nat)
  | scr (off : Nat)
  | pci (off : Nat)
  | wov (off : Nat)
  | dbg (off : Nat)
  | rst (off : Nat)
  | pwr (off : Nat)
  | opt (off : Nat)
  | fus (off : Nat)
deriving DecidableEq, Repr

/-- The block in which an offset of the register region lies (R20). -/
def regBlockOf (off : Nat) : RegBlock :=
  if off < 0o200000 then .bnk (off / 0o100) (off % 0o100)
  else if off < 0o240000 then .str ((off - 0o200000) / 0o200) (off % 0o200)
  else if off < 0o300000 then .spn ((off - 0o240000) / 0o200) (off % 0o200)
  else if off < 0o340000 then .lth (Fin.ofNat 16 ((off - 0o300000) / 0o2000)) (off % 0o2000)
  else if off < 0o400000 then .none_
  else if off < 0o440000 then .ts (off - 0o400000)
  else if off < 0o460000 then .jnl (off - 0o440000)
  else if off < 0o500000 then .evf (off - 0o460000)
  else if off < 0o520000 then .fab (off - 0o500000)
  else if off < 0o540000 then .scr (off - 0o520000)
  else if off < 0o560000 then .pci (off - 0o540000)
  else if off < 0o600000 then .wov (off - 0o560000)
  else if off < 0o610000 then .dbg (off - 0o600000)
  else if off < 0o620000 then .rst (off - 0o610000)
  else if off < 0o630000 then .pwr (off - 0o620000)
  else if off < 0o640000 then .opt (off - 0o630000)
  else .fus (off - 0o640000)

/-- A read of the word at an offset of the register region, by a master. (DEDUCED: log entry 57) -/
def regRead (s : State) (m : Master) (off : Nat) : State × Word :=
  match regBlockOf off with
  | .bnk n o => bnkRead s n o
  | .str k o => strRead s k o
  | .spn k o => spnRead s k o
  | .lth l o => lthRead s l o
  | .none_ => (s, 0)
  | .ts o => tsRead s o
  | .jnl o => jnlRead s m o
  | .evf o => evfRead s o
  | .fab o => fabRead s o
  | .scr o => scrRead s o
  | .pci o => pciRead s o
  | .wov o => wovRead s o
  | .dbg o => dbgRead s o
  | .rst o => rstRead s o
  | .pwr o => pwrRead s o
  | .opt o => optRead s o
  | .fus o => fusRead s o

/-- Whether the EVF block accepts a write of an offset from a master: a write of an unassigned offset is ignored, whoever makes it (R21,
R370). -/
def evfAccepts (s : State) (m : Master) (off : Nat) : Bool := off = 0o200 || !evfAssigned off || mayWriteEvf s m

/-- A write of the word at an offset of the register region; none where its master may not make it (R21). (DEDUCED: log entry 57) -/
def regWrite (s : State) (m : Master) (off : Nat) (w : Word) : Option State :=
  match regBlockOf off with
  | .bnk n o => bnkWrite s m n o w
  | .str k o => strWrite s k o w
  | .spn k o => spnWrite s m k o w
  | .lth l o => lthWrite s m l o w
  | .none_ => some s
  | .ts o => if o < 4 then none else some s
  | .jnl o => jnlWrite s m o w
  | .evf o => if evfAccepts s m o then some (evfWrite s o w) else none
  | .fab o => fabWrite s m o w
  | .scr o => scrWrite s m o w
  | .pci o => pciWrite s m o w
  | .wov o => wovWrite s m o w
  | .dbg o => dbgWrite s m o w
  | .rst o => rstWrite s m o w
  | .pwr o => pwrWrite s m o w
  | .opt _ => some s
  | .fus o => if o < 3 then none else some s

/-- A register write under a nonet mask: anything but a whole word is a bus error (R21). -/
def regStore (s : State) (m : Master) (off : Nat) (mask : BitVec 4) (w : Word) : Option State :=
  if mask = 0xF then regWrite s m off w else none

/-- REGISTER_WRITE: a write of a register by a master. A refused one is a bus error to it and changes nothing else (R6, R21, R346). -/
def registerWrite (s : State) (m : Master) (addr : BitVec 34) (mask : BitVec 4) (w : Word) : State :=
  if !s.pwr.main12 then s
  else if !hasPath s m addr.toNat then pathError s m true addr.toNat
  else match areaOf addr.toNat with
    | .regs off =>
      (match regStore s m off mask w with
       | some s => s
       | none => deliverReply s m addr.toNat [] true)
    | _ => s
def execRegisterWrite (m : Master) (addr : BitVec 34) (mask : BitVec 4) (w : Word) (s : State) : Host.Outcome State Fault Refusal :=
  .next (registerWrite s m addr mask w)

/-- The address of JNL_HEADL, or of JNL_DRNL. -/
def jnlLowAddr (drained : Bool) : Nat := regBase + 0o440000 + (if drained then 2 else 0)

/-- JNL_HEADL_READ: the low word of the head, or of the drained SEQ, for a master; the matching high word is latched for it (R413). -/
def jnlLowRead (s : State) (m : Master) (drained : Bool) : State :=
  let a := jnlLowAddr drained
  if !hasPath s m a then pathError s m false a
  else
    let (s, w) := jnlRead s m (if drained then 2 else 0)
    deliverReply s m a [(w, false)] false
def execJnlHeadlRead (m : Master) (drained : Bool) (s : State) : Host.Outcome State Fault Refusal := .next (jnlLowRead s m drained)

end Sys2Proof.Machine
end

