-- ==== Sys2Proof/Machine/CoreMem.lean ====
section
/-! DEFINITION. Loads, stores and descriptor transfers of a lathe core (R207 to R209), with the register region (R21), the completion of an
untimed load (R221), SYSCALL (R216, R257, R426) and the completion of fences (R253, R254, R290, R304, R467). -/
namespace Sys2Proof.Machine

/-- ALIGN at a virtual address (R208, R257). -/
def alignExc (va : Word) : Exc := { cause := .align, info := va }

/-! ## Loads -/

/-- A load: the address in its alignment, then the access (R197, R207, R208). -/
def opLoad (k : IFld → LoadKind) (ea : Thread → IFld → Word) (th : Th) (f : IFld) (s : State) : State × Res :=
  let va := ea (s.thr th) f
  if va.toNat % (k f).count ≠ 0 then (s, .exc (alignExc va)) else loadAt s th (k f) va

def opLw := opLoad (fun f => .lw f.rd) eaI
def opLn := opLoad (fun f => .ln f.rd (nonetOf f)) eaN
def opLfs := opLoad (fun f => .lfs f.rd) eaI
def opLf := opLoad (fun f => .lf f.rd) eaI
/-- LDD: D16 and above do not exist (R192, R196). -/
def opLdd (th : Th) (f : IFld) (s : State) : State × Res :=
  if f.rd.toNat > 15 then (s, illegal (packI 0o031 f)) else opLoad (fun f => .ldd f.rd) eaI th f s

/-- Whole words of the register region, one after another (R21). -/
def regWords (s : State) (m : Master) (off : Nat) : Nat → State × List (Word × Bool)
  | 0 => (s, [])
  | k + 1 =>
    let (s, ws) := regWords s m off k
    let (s, w) := regRead s m (off + k)
    (s, ws ++ [(w, false)])

/-- The access of an outstanding load: its words, or a bus error; none while a bank holds it or another device has not answered (R221,
R464). -/
def loadResult (s : State) (th : Th) (p : PendLoad) (resp : LoadResp) : Option (State × Option (List (Word × Bool))) :=
  match areaOf p.pa with
  | .regs off =>
    if p.resp = some .error then some (s, none)
    else
      let (s, ws) := regWords s (.core th) off p.kind.count
      some (s, some ws)
  | _ =>
    match loadAccess s th p resp with
    | (s, .ok ws) => some (s, some ws)
    | (s, .bus) => some (s, none)
    | (_, .stall) => none

/-- What the words of an access do to its thread: they land, or the access ends with BUSERR (R207, R257). -/
def landResult (s : State) (th : Th) (p : PendLoad) (ws : Option (List (Word × Bool))) : State × Res :=
  match ws with
  | some ws => landLoad s th p.kind p.va (deadOf p.num (s.thr th).dead) ws
  | none => (s, .exc (busExc p.va))

/-- An outstanding load of a thread has its words: its register is written and the thread goes on; or it raises its exception with
every register as it stood before the load (R197, R221, R258). (DEDUCED and DESIGN CHOICE: log entry 12) -/
def endLoad (s : State) (th : Th) (p : PendLoad) (ws : Option (List (Word × Bool))) : State :=
  match landResult s th p ws with
  | (s', .exc e) => accFault s s' th p e
  | (s', .jump a) => finish th (nextTurn s th) s (s'.modThr th (fun t => t.endAcc p []), .jump a)
  | (s', _) => s'.modThr th (fun t => t.endAcc p (ws.getD []))

/-- A load that EXEC started has its words: the debugger has its answer, and nothing is performed of one that faults (R536). -/
def endDebugLoad (s : State) (th : Th) (p : PendLoad) (ws : Option (List (Word × Bool))) : State :=
  let quiet (s : State) : State := s.modThr th (fun t => { t with loads := [] })
  match landResult s th p ws with
  | (_, .exc e) => execExcept (quiet s) e.cause
  | (s', _) => execDone (quiet s')

/-! ## Instruction fetch (R193, R197, R224, R227, R233) -/

/-- The address of a thread's next fetch: the instruction at the PC, or the successor of the last word fetched (R224). -/
def nextFetch (s : State) (th : Th) : Word :=
  match (s.thr th).fetched.getLast? with
  | none => (s.thr th).pc
  | some x => if predBranch x.2 then predNext (s.lathe th.l) th.t x.1 else x.1 + 1

/-- Whether a thread fetches: the instruction at the PC, or one of up to two after it (R224); a divide stops no fetch (R226). -/
def fetching (s : State) (th : Th) : Bool :=
  let t := s.thr th
  let x := s.lathe th.l
  t.started && x.ten.getLsbD th.t.val && t.fetched.length < 3 && t.fetchPend.isNone && !t.halted && !x.locked && s.pwr.rung.toNat < 2

/-- Whether a fault of the fetch of the instruction at the PC is raised now: nothing stands before it (R193, R266). -/
def fetchFaults (s : State) (th : Th) : Bool :=
  let t := s.thr th
  s.between th && t.fetched.isEmpty && !t.waiting && t.hold = .free && !eventDue s th

/-- How a fetch ends: a word, a fault, outstanding at another device or the host, or not yet. -/
inductive FetchEnd where
  | word (w : Word)
  | fault (e : Exc)
  | out (pa : Nat) (tag : Option Nat)
  | stall
deriving DecidableEq, Repr

/-- The word of a fetch, whose poison is a bus error (R197). -/
def fetchWord (va : Word) (ws : List (Word × Bool)) : FetchEnd :=
  match ws with
  | [(w, false)] => .word w
  | _ => .fault (busExc va)

/-- A fetch from the array window or the host window, which leaves (R227). -/
def fetchOut (s : State) (th : Th) (va : Word) (pa : Nat) : State × FetchEnd :=
  match areaOf pa with
  | .array d off =>
    if d.toNat = s.devId then (s, .out pa none)
    else if !devicePresent s d.toNat then (s, .fault (busExc va))
    else if !windowOpen s pa then (s, .stall)
    else (sendRemote (intoConv s (convOf s pa)) (.load th) d (off / 4 * 4) false (latheInst s th.l) 0 {} 0, .out pa (some s.wov.nextTag))
  | .host off =>
    if !hostReadable s off then (s, .fault (busExc va))
    else if !windowOpen s pa then (s, .stall)
    else (hostReadReq (intoConv s (convOf s pa)) off 1, .out pa none)
  | _ => (s, .stall)

/-- The fetch of the word at an address, from its translation on. In deterministic operation only the lathe's scratchpad and the ROM serve
it (R233). (DEDUCED: log entry 11) -/
def fetchAt (s : State) (th : Th) (va : Word) : State × FetchEnd :=
  match coreTranslate s th .fetch va with
  | (s, .exc e) => (s, .fault e)
  | (s, .stall) => (s, .stall)
  | (s, .ok pa) =>
    if !hasPath s (.core th) pa then (noPath s (.core th) false pa, .fault (busExc va))
    else if (s.lathe th.l).detact && !timedArea th.l pa then (s, .fault (busExc va))
    else match areaOf pa with
      | .regs off =>
        if (s.thr th).pc ≠ va then (s, .stall)
        else
          let (s, w) := regRead s (.core th) off
          (s, .word w)
      | .array _ _ => fetchOut s th va pa
      | .host _ => fetchOut s th va pa
      | _ =>
        match tryCache s th.l true pa 1 0xF with
        | (s, some ws) => (s, fetchWord va ws)
        | (s, none) =>
          match memWords s th true true pa 1 0xF with
          | (s, .ok ws) => (s, fetchWord va ws)
          | (s, .bus) => (s, .fault (busExc va))
          | (s, .stall) => (s, .stall)

/-- A word is fetched. -/
def pushFetched (s : State) (th : Th) (va w : Word) : State := s.modThr th (fun t => { t with fetched := t.fetched ++ [(va, w)] })

/-- A thread's next fetch: a fault is raised by the instruction at the PC, and the fetch of a successor that faults is not made until the
successor is that instruction (R193, R224). (DEDUCED: log entry 11) -/
def fetchStep (s : State) (th : Th) : State :=
  if !fetching s th then s
  else
    let va := nextFetch s th
    match fetchAt s th va with
    | (s', .word w) => pushFetched s' th va w
    | (s', .out pa tag) => s'.modThr th (fun t =>
        { t with fetchPend := some { kind := .fetch, va := va, pa := pa, num := t.accNum, tag := tag }, accNum := t.accNum + 1 })
    | (s', .fault e) => if fetchFaults s th then finish th (nextTurn s th) s (s', .exc e) else s
    | (_, .stall) => s

/-- An outstanding fetch has its answer. -/
def endFetch (s : State) (th : Th) (p : PendLoad) (resp : LoadResp) : State :=
  let ended (s : State) : State := s.modThr th (fun t => { t with fetchPend := none })
  let fault (s : State) (e : Exc) : State := if fetchFaults s th then finish th (nextTurn s th) s (ended s, .exc e) else ended s
  match loadAccess s th p resp with
  | (s, .ok ws) => (match fetchWord p.va ws with
    | .word w => pushFetched (ended s) th p.va w
    | .fault e => fault s e
    | _ => s)
  | (s, .bus) => fault s (busExc p.va)
  | (_, .stall) => s

/-- The function whose completion a response to a thread's oldest access to the host is (R444, R452). -/
def cplFn (s : State) (pa : Nat) : Option (Fin 16) :=
  match areaOf pa with
  | .host off => some ⟨(hwtOf s off).fn.toNat, (hwtOf s off).fn.isLt⟩
  | _ => none

/-- A completion that fails its ECRC is discarded: the access it answers stays outstanding (R442). -/
def dropCpl (s : State) (pa : Nat) (resp : LoadResp) : Option State :=
  if resp = .ecrc then (cplFn s pa).map (ecrcFails s) else none

/-- LOAD_COMPLETE: the access of the thread's oldest outstanding load completes, or, with no load outstanding, that of its fetch (R221,
R233); one of EXEC is answered to the debugger (R536). A store that has failed raises its exception once it is the oldest access. A locked
core's accesses have stopped (R263). (DEDUCED and DESIGN CHOICE: log entries 7, 12) -/
def loadComplete (s : State) (th : Th) (resp : LoadResp) : State :=
  let x := s.lathe th.l
  let t := s.thr th
  if x.locked || x.pair = some th.t then s
  else match t.loads.find? (fun p => !p.kind.isStore || p.resp = some .error) with
  | none => (match t.fetchPend with
    | some p => if t.loads.isEmpty then (dropCpl s p.pa resp).getD (endFetch s th p resp) else s
    | none => s)
  | some p =>
    if p.kind.isStore then endLoad s th p none
    else match loadResult s th p resp with
      | none => (dropCpl s p.pa resp).getD s
      | some (s', ws) => if p.debug then endDebugLoad s' th p ws else endLoad s' th p ws
def execLoadComplete (th : Th) (resp : LoadResp) (s : State) : Host.Outcome State Fault Refusal := .next (loadComplete s th resp)

/-! ## Stores -/

/-- Writes of whole words to the register region, all or none (R21). (DEDUCED: log entry 20) -/
def regStores (s : State) (m : Master) (off : Nat) : List (Word × BitVec 4) → Option State
  | [] => some s
  | x :: r => (regStore s m off x.2 x.1).bind (fun s => regStores s m (off + 1) r)

/-- The physical address of a word, the device's own array window read as the memory behind it (R19). -/
def ownPlace (s : State) (pa : Nat) : Nat :=
  match areaOf pa with
  | .array d off => if d.toNat = s.devId then off.toNat else pa
  | _ => pa

/-- Whether an address lies in the register region or the host window, whose accesses a thread makes in program order (R302). -/
def programOrder (pa : Nat) : Bool :=
  match areaOf pa with
  | .regs _ => true
  | .host _ => true
  | _ => false

/-- Whether an access of one to four words waits for an outstanding one of its thread: both go to the same word, or both to the register region or
the host window (R302). -/
def inTurn (s : State) (th : Th) (pa k : Nat) : Bool :=
  (s.thr th).loads.all (fun p =>
    !(programOrder p.pa && programOrder pa) &&
      (let a := ownPlace s p.pa
       let b := ownPlace s pa
       let n := if p.kind.isStore then 4 else p.kind.count
       decide (a + n ≤ b) || decide (b + k ≤ a)))

/-- A store at a virtual address (R197, R207, R300). One that another device performs is outstanding until its acknowledgement, and its thread goes
on. (DEDUCED and DESIGN CHOICE: log entries 8, 12, 20) -/
def storeAt (s : State) (th : Th) (va : Word) (ws : List (Word × BitVec 4)) : State × Res :=
  match coreTranslate s th .write va with
  | (s, .exc e) => (s, .exc e)
  | (s, .stall) => (s, .wait)
  | (s, .ok pa) =>
    let done (s : State) : State × Res := (dataCompare s th true va (ws.map Prod.fst), .seq)
    if !inTurn s th pa ws.length then (s, .wait)
    else match areaOf pa with
    | .regs off =>
      if ws.length = 4 then (s, .exc (busExc va))
      else match regStores s (.core th) off ws with
        | some s => done s
        | none => (s, .exc (busExc va))
    | _ =>
      match coreWrite s th pa ws with
      | (s, .ok) => done s
      | (s, .bus) => (s, .exc (busExc va))
      | (s, .stall) => (s, .wait)
      | (s', .remote) => done (startAccess s' th .store va pa (some s.wov.nextTag))

/-- A store: the address in its alignment, then the access (R197, R207, R208). -/
def opStore (words : Thread → IFld → List (Word × BitVec 4)) (ea : Thread → IFld → Word) (th : Th) (f : IFld) (s : State) :
    State × Res :=
  let va := ea (s.thr th) f
  let ws := words (s.thr th) f
  if va.toNat % ws.length ≠ 0 then (s, .exc (alignExc va)) else storeAt s th va ws

/-- The nonet of SN in its place in the word. -/
def nonetWord (w : Word) (j : BitVec 2) : Word := (w &&& 0o777) <<< (9 * j.toNat)

def opSw := opStore (fun t f => [(t.rg f.rd, 0xF)]) eaI
def opSn := opStore (fun t f => [(nonetWord (t.rg f.rd) (nonetOf f), BitVec.ofNat 4 (2 ^ (nonetOf f).toNat))]) eaN
def opSfs := opStore (fun t f => [(dLo (t.rf f.rd.toNat), 0xF)]) eaI
def opSf := opStore (fun t f => [(dLo (t.rf f.rd.toNat), 0xF), (dHi (t.rf f.rd.toNat), 0xF)]) eaI
def opSwm := opStore (fun t f => [(t.rg f.rd, f.imm.extractLsb' 14 4)]) eaM
def opStdd (th : Th) (f : IFld) (s : State) : State × Res :=
  if f.rd.toNat > 15 then (s, illegal (packI 0o032 f))
  else opStore (fun t f => let q := t.rd f.rd.toNat; [(q.w0, 0xF), (q.w1, 0xF), (q.w2, 0xF), (q.w3, 0xF)]) eaI th f s

/-! ## Descriptor registers -/

/-- MTD: word IMM 1..0 of D[RD] := G[RA] (R207). -/
def opMtd (th : Th) (f : IFld) (s : State) : State × Res :=
  if f.rd.toNat > 15 || f.imm.toNat > 3 then (s, illegal (packI 0o033 f))
  else opThread th (fun t => t.wd f.rd.toNat (quadPut (t.rd f.rd.toNat) f.imm.toNat (t.rg f.ra))) s
/-- MFD: G[RD] := word IMM 1..0 of D[RA] (R207). -/
def opMfd (th : Th) (f : IFld) (s : State) : State × Res :=
  if f.ra.toNat > 15 || f.imm.toNat > 3 then (s, illegal (packI 0o034 f))
  else opThread th (fun t => t.wg f.rd (quadGet (t.rd f.ra.toNat) f.imm.toNat)) s

/-! ## SYSCALL -/

/-- SYSCALL: the exception, with XPC at the next instruction (R216, R257). Code 1 of the supervisor runtime ends a lathe's part of a RUN
job, with G1 as its status (R426), unless a floating-point trap is taken in its place (R252). (DEDUCED: log entry 17) -/
def opSyscall (th : Th) (f : IFld) (s : State) : State × Res :=
  if f.rd ≠ 0 || f.ra ≠ 0 then (s, illegal (packI 0o063 f))
  else
    let t := s.thr th
    let s := if t.level = .supervisor && f.imm = 1 && !t.settle.trapReq then jobEnd s th.l (t.settle.rg 1) else s
    (s, .excNext { cause := .syscall, info := zx18 f.imm })

/-! ## Fences end -/

/-- Whether groups of the device have ended. -/
def groupsDone (s : State) (gs : List Nat) : Bool := gs.all (fun g => (s.group g).isNone)

/-- A held thread goes on with the next instruction. -/
def unhold (s : State) (th : Th) : State := s.modThr th (fun t => { t with hold := .free }.follow (t.pc + 1))

/-- FENCE_COMPLETE: what a fence, FBAR or TLBSYNC waits for has come about (R252, R253, R290, R304); AFENCE then arrives at its instance's
barrier, whose release frees it; one that was interrupted after its lathe's arrival ends when it executes again, if the release has come
meanwhile (R267, R467). (DEDUCED: log entries 18, 19, 49) -/
def fenceComplete (s : State) (th : Th) : State :=
  if (s.thr th).halted || (s.lathe th.l).locked then s
  else match (s.thr th).hold with
  | .free => s
  | .mem ld st code =>
    if (s.thr th).fenced ld st then s
    else
      let r := memFenceEnd s th.l ld code
      if code then r.1.modThr th (fun t => { t with hold := .free }.goto (t.pc + 1)) else unhold r.1 th
  | .vfence gs =>
    if groupsDone s gs && !(s.thr th).fenced false true then unhold ((dropCache s th.l false).modThr th (fun t => { t with suspended := [] })) th else s
  | .fbar =>
    let t := s.thr th
    if !t.fpOut.isEmpty then s
    else if t.trapReq then takeFpTrap (entryTurns s th) th t.pc else unhold s th
  | .tlbsync tags accs elems =>
    if tags.all (fun k => !s.wov.ops.any (fun o => o.tag = k)) && accs.all (fun a => !accLeft s th.l a) && elems.all (fun e => !elemsLeft s e)
    then unhold s th else s
  | .afence arrived gs =>
    if arrived || !groupsDone s gs || !(s.thr th).loads.isEmpty then s
    else if (s.thr th).fencedAt = some ((s.thr th).pc, true) then
      (dropCache (dropCache s th.l false) th.l true).modThr th (fun t =>
        ({ t with hold := .free, fencedAt := none, suspended := [] } : Thread).goto (t.pc + 1))
    else match instanceOf s th.l with
      | none => s
      | some i =>
        let s := s.modThr th (fun t => { t with hold := .afence true gs, suspended := [], fencedAt := none })
        barrierArrive s i [16 * s.devId + th.l.val]
def execFenceComplete (th : Th) (s : State) : Host.Outcome State Fault Refusal := .next (fenceComplete s th)

end Sys2Proof.Machine
end

