-- ==== Sys2Proof/Machine/Fabric.lean ====
section
/-! DEFINITION. The device fabric (R345 to R353): bus errors to a master, arbitration at a target port, the bursts that hold a path, converters, the
handshake timeout, late acknowledgements, and the bank handshake watchdog (R59). -/
namespace Sys2Proof.Machine

/-! ## Bus errors to a master -/

/-- The virtual address of the access that a thread's instruction makes, or of its fetch. -/
def instrVa (t : Thread) (th : Th) : Word :=
  match t.word.bind (readInstr th) with
  | some (.lw _ f) | some (.lfs _ f) | some (.lf _ f) | some (.ldd _ f) => eaI t f
  | some (.sw _ f) | some (.sfs _ f) | some (.sf _ f) | some (.stdd _ f) => eaI t f
  | some (.ln _ f) | some (.sn _ f) => eaN t f
  | some (.swm _ f) => eaM t f
  | _ => t.pc

/-- What a thread's instruction accesses memory for; its fetch, where it makes no access. -/
def instrAcc (t : Thread) (th : Th) : AccKind :=
  match t.word.bind (readInstr th) with
  | some (.lw _ _) | some (.lfs _ _) | some (.lf _ _) | some (.ldd _ _) | some (.ln _ _) => .read
  | some (.sw _ _) | some (.sfs _ _) | some (.sf _ _) | some (.stdd _ _) | some (.sn _ _) | some (.swm _ _) => .write
  | _ => .fetch

/-- The physical address of the access that a thread's instruction makes, or of its fetch; while its table walk stalls, that of the table word,
with its level. -/
def instrPa (s : State) (th : Th) : Option (Nat × Option Nat) :=
  let t := s.thr th
  match (coreTranslate s th (instrAcc t th) (instrVa t th)).2 with
  | .ok pa => some (pa, none)
  | .stall => (walkStall s t.ctx th.l.val (instrVa t th)).map (fun (a, lv) => (a, some lv))
  | .exc _ => none

/-- A table walk of a thread's access has ended with a bus error (R283, R285). -/
def walkFails (s : State) (th : Th) (lv : Option Nat) : State :=
  match lv with
  | none => s
  | some lv => s.modThr th (fun t =>
      { t with tfsr := { valid := true, reason := xWalkBus, level := BitVec.ofNat 3 lv, acc := accCode (instrAcc t th) } })

/-- The bus error of a thread's oldest outstanding access, by what the access is for (R257, R269). -/
def endAccess (s : State) (th : Th) (p : PendLoad) : State :=
  match p.kind with
  | .upframe n => upcallFails (s.modThr th (fun t => t.endAcc p [])) th n p.va
  | _ => endLoad s th p none

/-- A bus error for the access of a thread that `hit` names by its physical address: an outstanding one, a fetch, or the access that its
instruction makes and that stalls; none of them, and the request has ended already (R257, R353). While a divide of the thread runs, or for a
younger access, the error waits in its turn (R252). (DEDUCED: log entry 32) -/
def coreBusError (s : State) (th : Th) (hit : Nat → Bool) : State :=
  let t := s.thr th
  if !t.started || t.halted || (s.lathe th.l).locked then s
  else if t.loads.any (fun p => hit p.pa && p.resp.isNone) then
    match t.loads with
    | [] => s
    | p :: _ =>
      if hit p.pa && p.resp.isNone && !midInstr s th then endAccess s th p
      else s.setThr th { t with loads := t.loads.map (fun p => if hit p.pa && p.resp.isNone then { p with resp := some .error } else p) }
  else if t.fetchPend.any (fun p => hit p.pa) then
    s.setThr th { t with fetchPend := t.fetchPend.map (fun p => { p with resp := some .error }) }
  else match instrPa s th with
    | none => s
    | some (pa, lv) =>
      if t.loads.isEmpty && !midInstr s th && hit pa then finish th (nextTurn s th) s (walkFails s th lv, .exc (busExc (instrVa t th)))
      else s

/-- The memory stream of a running group, of the kind that `write` names, whose next access meets the address that `hit` names. -/
def failingStream (s : State) (g : Group) (k : Nat) (p : Part) (write : Option Bool) (hit : Nat → Bool) : Option Str :=
  (strsOf g.members).find? (fun x => dMem x.q && write != some !x.isDst &&
    (match (streamXlate s g k p (if x.isDst then .write else .read) (strVa x (if x.isDst then p.next else p.head))).2 with
     | .ok pa _ => hit pa
     | .stall => (walkStall s g.ctx (k / 8) (strVa x (if x.isDst then p.next else p.head))).any (fun a => hit a.1)
     | _ => false))

/-- The access of a spindle's running group ends with BUSERR: a read at the element to be presented next, a write at the element to be
written next (R102). (DEDUCED: log entry 32) -/
def streamBusError (s : State) (k : Nat) (write : Option Bool) (hit : Nat → Bool) : State :=
  match (s.spin k).queue with
  | [] => s
  | gi :: _ => match s.group gi with
    | none => s
    | some g =>
      let i := k - g.spindle 0
      let p := g.part i
      let ss := strsOf g.members
      if !g.started || p.ended || p.next ≥ p.limit then s
      else match failingStream s g k p write hit with
        | none => s
        | some x =>
          if x.isDst then faultPart s gi g i p.next stBUSERR (x.sidx ss) (strVa x p.next)
          else if !readersGo ss p then s
          else pushFront s gi g i (frontOf p.front [] [] (some (strFail ss stBUSERR x, strVa x p.head))) []

/-- The transfer of a DMA channel ends with JOBFAIL and BUSERR where its request meets what `hit` names: the next word written, or a word
read (R426). (DEDUCED: log entry 32) -/
def dmaBusError (s : State) (c : Nat) (hit : Nat → Bool) : State :=
  match s.hs.chans.getD c none with
  | none => s
  | some x =>
    let meets : Bool := if x.out then (List.range (x.count / 4 + 1)).any (fun i => hit (x.dev + 4 * i)) else hit (x.dev + x.done)
    if !x.running || x.failed.isSome || !meets then s
    else
      let y := failXfer x ceJOBFAIL stBUSERR x.done
      if x.out then endXfer s c x ceJOBFAIL (BitVec.ofNat 64 stBUSERR) (BitVec.ofNat 64 x.done) else s.setChan c (some y)

/-- The local service's request ends with a bus error: the thread or stream whose array-window access it serves has it (R19). -/
def ownBusError (s : State) (write : Option Bool) (hit : Nat → Bool) : State :=
  let own (pa : Nat) : Bool := (ownArray s pa).any hit
  let s := ((List.finRange 16).flatMap threadsOf).foldl (fun s th => coreBusError s th own) s
  (List.range 128).foldl (fun s k => streamBusError s k write own) s

/-- A request of a master ends with a bus error: the fabric's reply to it, and what the master's chapter states of its access at the place
that `hit` names (R19, R59, R318, R346, R353). (DEDUCED: log entry 32) -/
def masterBusError (s : State) (m : Master) (addr : Nat) (write : Option Bool) (hit : Nat → Bool) : State :=
  let s := match m with
    | .core th => coreBusError s th hit
    | .stream k => streamBusError s k.val write hit
    | .dma c => dmaBusError s c.val hit
    | .wovas k => if k.val = 6 then ownBusError s write hit else s
    | _ => haltEngine s m
  deliverReply s m addr [] true

/-- Whether an address lies in the quad of another. -/
def inQuad (addr pa : Nat) : Bool := decide (pa / 4 = addr / 4)

/-! ## Arbitration (R348) -/

/-- The key of a target's arbiter: one for each bank group, whose quads a burst may cross (R347). -/
def targetKey : Target → Nat
  | .bank n => n.val / 8
  | .scratch l => 1024 + l.val
  | .hsram => 1040
  | .hsrom => 1041
  | .regs => 1042
  | .mram => 1043
  | .staging => 1044
  | .array => 1045
  | .host => 1046

/-- A request of the first order. -/
def urgent (b : Burst) : Bool :=
  match b.m with
  | .head => true
  | .tail => true
  | .core _ => b.walk
  | _ => false

/-- The order of (class code, ID). -/
def masterRank (m : Master) : Nat := 128 * (masterCode m).1.toNat + (masterCode m).2.toNat

/-- The burst of the lowest rank; the first of several of one master. -/
def lowestBurst : List Burst → Option Burst
  | [] => none
  | b :: r => match lowestBurst r with
    | none => some b
    | some c => if masterRank c.m < masterRank b.m then some c else some b

/-- Round robin: the lowest rank after the master granted last, else the lowest (R348). (DEDUCED: log entry 31) -/
def nextBurst (last : Option Nat) (bs : List Burst) : Option Burst :=
  match last with
  | none => lowestBurst bs
  | some k => match lowestBurst (bs.filter (fun b => masterRank b.m > k)) with
    | some b => some b
    | none => lowestBurst bs

/-- The request that a master presents at a bank (R53, R54); the host's BAR2 accesses of Open mode are made as DMA channel 0 of instance 0. (DESIGN CHOICE: log entry 27) -/
def reqOfMaster (m : Master) (inst : BitVec 4) (ep : BitVec 9) : Req :=
  match m with
  | .core th => { cl := 1, id := th.l.val, inst := inst, lathe := some th.l.val, epoch := some ep }
  | .stream k => reqStream k.val inst ep
  | .dma c => reqDma c.val inst
  | .wovas _ => reqWovas inst (some ep)
  | .head => reqHead
  | .tail => reqTail
  | .test => reqTest
  | .scrub => reqScrub
  | .pciein _ => reqDma 0 0
  | .debugPort => reqDma 0 0

/-! ## A burst (R347) -/

/-- Whether a target serves an area. A burst at a bank reaches the quads of its bank group, at whose boundary it is split (R347). -/
def serves (tgt : Target) (pa : Nat) (a : Area) : Bool :=
  match tgt with
  | .bank n => a = .bank && pa / 2 ^ 19 = n.val / 8
  | .scratch l => a = .scratch l.val
  | .hsram => a = .hsram
  | .hsrom => a = .hsrom
  | .regs => (match a with | .regs _ => true | _ => false)
  | .array => (match a with | .array _ _ => true | _ => false)
  | .host => (match a with | .host _ => true | _ => false)
  | .mram => true
  | .staging => a = .staging

/-- The address of a burst's word at a target: the staging pool has word indices of its own (R346). -/
def placeAt (tgt : Target) (addr : Nat) : Nat := if tgt = .staging then stagingBase + addr else addr

/-- Whether a burst's address lies at a target. -/
def atTarget (tgt : Target) (addr : Nat) : Bool := serves tgt (placeAt tgt addr) (areaOf (placeAt tgt addr))

/-- The target that an address of the physical map lies at; none in a reserved range (R16). -/
def targetAt (s : State) (pa : Nat) : Option Target :=
  match areaOf pa with
  | .bank => some (.bank (Fin.ofNat 1024 (bankOf s pa)))
  | .scratch l => some (.scratch (Fin.ofNat 16 l))
  | .hsram => some .hsram
  | .hsrom => some .hsrom
  | .regs _ => some .regs
  | .array _ _ => some .array
  | .host _ => some .host
  | .staging => some .staging
  | .reserved => none

/-- Whether the connection matrix gives a path from a burst's master to a target (R346). -/
def burstPath (s : State) (tgt : Target) (b : Burst) : Bool :=
  match tgt with
  | .mram => b.m = .head || b.m = .tail
  | _ => hasPath s b.m (placeAt tgt b.addr.toNat)

/-- Quads of a burst; a register access is one word (R347). -/
def burstLen (tgt : Target) (b : Burst) : Nat := if tgt = .regs then 1 else if b.write then b.data.length else b.quads

/-- A burst without its first `n` quads. -/
def burstAfter (b : Burst) (n : Nat) : Burst :=
  { b with addr := BitVec.ofNat 34 (b.addr.toNat / 4 * 4 + 4 * n), quads := b.quads - n, data := b.data.drop n, back := b.back.drop (4 * n) }

/-- The first `n` quads of a burst. -/
def burstFirst (b : Burst) (n : Nat) : Burst := { b with quads := n, data := b.data.take n, back := b.back.take (4 * n) }

/-- The quads of a burst, at most 64, that lie at its target before any boundary. -/
def burstHere (tgt : Target) (b : Burst) : Nat :=
  ((List.range (min 64 (burstLen tgt b))).takeWhile (fun i => atTarget tgt (b.addr.toNat / 4 * 4 + 4 * i))).length

/-- The bank request of a burst: a table walk carries no epoch (R283). -/
def burstReq (b : Burst) : Req :=
  let q := reqOfMaster b.m b.inst b.epoch
  if b.walk then { q with epoch := none } else q

/-! ## Converters (R350, R351) -/

/-- The converter on the way to a burst's target, with the bursts that its queue holds. -/
def converter (s : State) (tgt : Target) (b : Burst) : Option (Nat × Nat) :=
  match tgt with
  | .mram => some (1, 4)
  | .host => convOf s b.addr.toNat
  | .array => convOf s b.addr.toNat
  | _ => none

/-- Whether a converter can queue the burst; full, it withholds acknowledgement and the requester stalls (R351). -/
def converterOpen (s : State) (tgt : Target) (b : Burst) : Bool := convRoom s (converter s tgt b)

/-! ## Quads -/

/-- What one quad of a burst comes to: the words read, a refusal at the target, or a quad that still stalls. -/
inductive QuadEnd where
  | ok (ws : List (Word × Bool))
  | bus
  | stall
deriving DecidableEq, Repr

/-- A quad written under its nonet mask. -/
def quadParts (d : Quad × BitVec 16) : List (Word × BitVec 4 × Bool) :=
  (List.range 4).map (fun i => (quadGet d.1 i, d.2.extractLsb' (4 * i) 4, false))

/-- One quad of a burst at a memory target; a read that ends a control access is a bus error of its engine (R318). -/
def memQuad (s : State) (m : Master) (q : Req) (pa : Nat) (d : Option (Quad × BitVec 16)) : State × QuadEnd :=
  match d with
  | some d => match writeQuad s q pa (quadParts d) with
    | (s, .ok) => (s, .ok [])
    | (s, .bus) => (s, .bus)
    | (s, .stall) => (s, .stall)
  | none => match readMem s q (controlRead m pa) pa 4 0xF 0xF with
    | (s, .ok ws) => (match judgeRead s m pa ws with
      | (s, some ws) => (s, .ok ws)
      | (s, none) => (s, .bus))
    | (s, .bus) => (s, .bus)
    | (s, .stall) => (s, .stall)

/-- The word that a completion of an 8-octet read brings, or a bus error; a completion that does not come, or that is discarded, ends as the timeout
(R442 to R444). -/
def cplWord (s : State) (fn : Fin 16) (c : HostCpl) : State × Option (Word × Bool) :=
  match c with
  | .data o ep => (s, if o.length = 8 then some (BitVec.ofNat 36 (octetsToNat o), ep) else none)
  | .unsupported => (s, none)
  | .aborted => (s, none)
  | .timeout => (countCto s, none)
  | .ecrc => (countCto (ecrcFails s fn), none)

/-- A quad read through the host window, with the completions of its four words (R444). (DESIGN CHOICE: log entry 31) -/
def hostQuadRead (s : State) (m : Master) (off : BitVec 33) (cs : List HostCpl) : State × QuadEnd :=
  let fn : Fin 16 := ⟨(hwtOf s off).fn.toNat, (hwtOf s off).fn.isLt⟩
  let (s, ws) := (List.range 4).foldl (fun (x : State × List (Option (Word × Bool))) i =>
    let (s, w) := cplWord x.1 fn (cs.getD i .timeout)
    (s, x.2 ++ [w])) (hostReadReq s off 4, [])
  if ws.all Option.isSome then
    match judgeRead s m 0 (ws.filterMap id) with
    | (s, some ws) => (s, .ok ws)
    | (s, none) => (s, .bus)
  else (s, .bus)

/-- The words of a quad written through the host window: each is written whole or not at all (R444). -/
def hostQuadWrite (s : State) (off : BitVec 33) (d : Quad × BitVec 16) : State × QuadEnd :=
  let part (i : Nat) : BitVec 4 := d.2.extractLsb' (4 * i) 4
  if d.2 = 0 || (List.range 4).any (fun i => part i ≠ 0 && part i ≠ 0xF) then (s, .bus)
  else ((List.range 4).foldl (fun s i => if part i = 0xF then hostWrite s (off + BitVec.ofNat 33 i) [quadGet d.1 i] else s) s, .ok [])

/-- One quad of a burst at the array window, whose answer comes by another command, or at the host window. -/
def outQuad (s : State) (b : Burst) (pa : Nat) (d : Option (Quad × BitVec 16)) : State × QuadEnd :=
  match areaOf pa with
  | .array dev off =>
    if dev.toNat = s.devId then memQuad s b.m (reqWovas b.inst (if b.write then some b.epoch else none)) off.toNat d
    else if !devicePresent s dev.toNat then (s, .bus)
    else (sendRemote s (.burst b.m pa) dev off b.write b.inst b.epoch ((d.map Prod.fst).getD {}) ((d.map Prod.snd).getD 0), .ok [])
  | .host off =>
    (match d with
     | some d => if hostWritable s off then hostQuadWrite s off d else (s, .bus)
     | none => if hostReadable s off then hostQuadRead s b.m off b.back else (s, .bus))
  | _ => (s, .bus)

/-- A register access: one whole word (R21, R347). -/
def regBurst (s : State) (b : Burst) (off : Nat) : State × QuadEnd :=
  if b.write then
    let d : Quad × BitVec 16 := b.data.headD ({}, 0)
    match regStore s b.m off (d.2.extractLsb' (4 * (off % 4)) 4) (quadGet d.1 off) with
    | some s => (s, .ok [])
    | none => (s, .bus)
  else
    let (s, w) := regRead s b.m off
    (s, .ok [(w, false)])

/-- The words of a quad's PACK9 octets (R37). -/
def octetWords (o : List Octet) : List Word :=
  (List.range 4).map (fun i => BitVec.ofNat 36 (octetsToNat ((o.drop (i / 2 * 9)).take 9) / 2 ^ (36 * (i % 2))))

/-- A quad of MRAM, which the converter's far side holds in PACK9 octets (R37, R350). What a quad holds that no burst has written no rule gives: its
words are free at each read. (DESIGN CHOICE: log entry 31) -/
def mramWords (s : State) (a : Nat) : State × List Word :=
  match tget [] s.fab.mram a with
  | [] => (List.range 4).foldl (fun (x : State × List Word) _ =>
      let (i, s) := x.1.takeFree
      (s, x.2 ++ [Config.freeWord i])) (s, [])
  | o => (s, octetWords o)

/-- A quad of MRAM read, or written under its nonet mask. -/
def mramQuad (s : State) (b : Burst) : State × QuadEnd :=
  let a := b.addr.toNat / 4
  let (s', ws) := mramWords s a
  if b.write then
    let d : Quad × BitVec 16 := b.data.headD ({}, 0)
    let new := (ws.zipIdx).map (fun (w, i) => mergeNonets w (quadGet d.1 i) (d.2.extractLsb' (4 * i) 4))
    (if d.2 = 0 then s else { s' with fab := { s'.fab with mram := tput [] s'.fab.mram a (pack9 new) } }, .ok [])
  else (s', .ok (ws.map (fun w => (w, false))))

/-- The first quad of a burst at its target, other than a bank, whose ports have their own cycle. -/
def firstQuad (s : State) (tgt : Target) (b : Burst) : State × QuadEnd :=
  let pa := placeAt tgt (b.addr.toNat / 4 * 4)
  let d := if b.write then b.data.head? else none
  match tgt with
  | .mram => mramQuad s b
  | .regs => (match areaOf b.addr.toNat with
    | .regs off => regBurst s b off
    | _ => (s, .bus))
  | .array => outQuad s b pa d
  | .host => outQuad s b pa d
  | _ => memQuad s b.m (burstReq b) pa d

/-! ## The path of a target (R348) -/

def arbiterOf (s : State) (tgt : Target) : Arbiter := tget {} s.fab.arb (targetKey tgt)
def setArbiter (s : State) (tgt : Target) (a : Arbiter) : State := { s with fab := { s.fab with arb := tput {} s.fab.arb (targetKey tgt) a } }

/-- The path of a target carries a burst, or is free. -/
def setHeld (s : State) (tgt : Target) (t : Option Transfer) : State := setArbiter s tgt { arbiterOf s tgt with held := t }

/-- The last quad has been acknowledged: the master has its reply, and the path is free. -/
def transferDone (s : State) (tgt : Target) (t : Transfer) : State := deliverReply (setHeld s tgt none) t.b.m t.start t.got false

/-- A burst ends with a bus error: the path is free, the quads acknowledged stand, and the rest end at the master (R346, R353). -/
def transferFails (s : State) (tgt : Target) (t : Transfer) : State :=
  let lo := t.b.addr.toNat / 4
  deliverReply (masterBusError (setHeld s tgt none) t.b.m t.start (some t.b.write)
    (fun pa => decide (lo ≤ pa / 4) && decide (pa / 4 < lo + max 1 (burstLen tgt t.b)))) t.b.m t.start t.got true

/-- A transfer one quad further. -/
def quadAcked (t : Transfer) (ws : List (Word × Bool)) : Transfer := { t with b := burstAfter t.b 1, got := t.got ++ ws, ticks := 0 }

/-- The quads of the burst that holds a path, which waits behind no other, move until its last, a refusal, or a quad that stalls. -/
def moveQuads (tgt : Target) : Nat → State → Transfer → State
  | 0, s, t => transferDone s tgt t
  | n + 1, s, t =>
    match firstQuad s tgt t.b with
    | (s', .ok ws) => moveQuads tgt n s' (quadAcked t ws)
    | (s', .bus) => transferFails s' tgt t
    | (_, .stall) => setHeld s tgt (some t)

/-- A held burst goes on at its target. At a bank its quads wait for bank cycles; before a full converter it waits (R348, R351). -/
def goOn (s : State) (tgt : Target) (t : Transfer) (fresh : Bool) : State :=
  match tgt with
  | .bank _ => s
  | _ =>
    if fresh && !converterOpen s tgt t.b then s
    else moveQuads tgt (burstLen tgt t.b) (setHeld (if fresh then intoConv s (converter s tgt t.b) else s) tgt none) t

/-- Whether a held burst has moved no quad yet. -/
def unmoved (tgt : Target) (t : Transfer) : Bool := t.b.addr.toNat = t.start || tgt = .regs

/-! ## FABRIC_GRANT (R348, R349) -/

/-- The master on which an idle port parks, by (class code, ID) (R349). -/
def parkOf (s : State) (tgt : Target) : Nat :=
  match tgt with
  | .bank n => (s.bank n.val).parked
  | .scratch l => l.val
  | .mram => 5 * 128
  | .staging => 5 * 128
  | _ => 4 * 128

/-- The burst that an arbiter grants. At an idle port the parked master's request skips arbitration, and requests that arrive together go by
class and ID; a port that requests waited for goes round (R348, R349). (DEDUCED: log entry 31) -/
def pickBurst (park : Nat) (a : Arbiter) (bs : List Burst) : Option Burst :=
  let firsts := bs.filter urgent
  let others := bs.filter (fun b => !urgent b)
  let parked := if a.waited then none else bs.find? (fun b => masterRank b.m = park)
  if parked.isSome then parked
  else if firsts.isEmpty || (a.firstRun ≥ 4 && !others.isEmpty) then (if a.waited then nextBurst a.last others else lowestBurst others)
  else lowestBurst firsts

/-- The arbiter after a grant that leaves `left` requests waiting. -/
def arbiterAfter (a : Arbiter) (b : Burst) (left : Bool) (t : Transfer) : Arbiter :=
  { last := some (masterRank b.m), firstRun := if urgent b then a.firstRun + 1 else 0, waited := left, held := some t }

/-- A burst without a path, or to a reserved range, ends with a bus error and never reaches a target (R17, R346). -/
def burstRefused (s : State) (b : Burst) : State :=
  masterBusError (fabricError s b.m false b.write b.addr.toNat) b.m b.addr.toNat (some b.write) (inQuad b.addr.toNat)

/-- The rest of a burst that meets a boundary waits at its own target (R347). -/
def queueRest (s : State) (tgt : Target) (b : Burst) : State :=
  if burstLen tgt b = 0 then s
  else
    let next := match tgt with
      | .mram => some tgt
      | .staging => if atTarget tgt b.addr.toNat then some tgt else none
      | _ => targetAt s b.addr.toNat
    match next with
    | some y => if burstPath s y b then { s with fab := { s.fab with rest := s.fab.rest ++ [(y, b, 0)] } } else burstRefused s b
    | none => burstRefused s b

/-- The arbiter grants one of the bursts that wait, which holds the path to its end. -/
def grantOne (s : State) (tgt : Target) (bs : List Burst) : State :=
  let a := arbiterOf s tgt
  match pickBurst (parkOf s tgt) a bs with
  | none => s
  | some b =>
    let n := burstHere tgt b
    let t : Transfer := { b := burstFirst b n, start := b.addr.toNat }
    let s := { s with fab := { s.fab with rest := s.fab.rest.filter (fun x => !(x.2.1 = b && targetKey x.1 = targetKey tgt)) } }
    let s := setArbiter s tgt (arbiterAfter a b (bs.any (· ≠ b)) t)
    goOn (if tgt = .regs then s else queueRest s tgt (burstAfter b n)) tgt t true

/-- FABRIC_GRANT: requests without a path never reach the target; while a burst holds the path the others wait behind it; of those that wait the
arbiter grants one whole. (DEDUCED and DESIGN CHOICE: log entry 31) -/
def fabricGrant (s : State) (tgt : Target) (waiting : List Burst) : State :=
  let here := waiting.filter (fun b => atTarget tgt b.addr.toNat || decide (areaOf b.addr.toNat = .reserved))
  let ok (b : Burst) : Bool := atTarget tgt b.addr.toNat && burstPath s tgt b && decide (burstHere tgt b ≠ 0)
  let bs := here.filter ok ++ (s.fab.rest.filter (fun x => targetKey x.1 = targetKey tgt)).map (fun x => x.2.1)
  let s := (here.filter (fun b => !ok b)).foldl burstRefused s
  let s := match (arbiterOf s tgt).held with
    | some t => goOn s tgt t (unmoved tgt t)
    | none => s
  if (arbiterOf s tgt).held.isSome then setArbiter s tgt { arbiterOf s tgt with waited := (arbiterOf s tgt).waited || !bs.isEmpty }
  else grantOne s tgt bs
def execFabricGrant (tgt : Target) (waiting : List Burst) (s : State) : Host.Outcome State Fault Refusal :=
  .next (settleJobs (fabricGrant s tgt waiting))

/-! ## Timeouts (R351, R353) -/

/-- The targets with an arbiter, one for each bank group. -/
def allTargets : List Target :=
  (List.range 128).map (fun k => .bank (Fin.ofNat 1024 (8 * k))) ++ (List.finRange 16).map .scratch ++
    [.hsram, .hsrom, .regs, .mram, .staging, .array, .host]

/-- Whether the timeout of a held burst runs: not while its converter is full (R351). -/
def timeoutRuns (s : State) (tgt : Target) (t : Transfer) : Bool := !unmoved tgt t || converterOpen s tgt t.b

/-- A request that has been presented and has had no acknowledgement, with the ticks for which it has waited (R353). -/
structure Ask where
  m : Master
  pa : Nat
  write : Bool
  ticks : Nat
deriving DecidableEq, Repr

/-- An outstanding access of a thread that waits for its target. The far side's own limit governs one that a converter has queued (R350, R351). -/
def PendLoad.asks (dev : Nat) (p : PendLoad) : Bool :=
  p.resp.isNone && p.tag.isNone && (match areaOf p.pa with
    | .array d _ => d.toNat = dev
    | .host _ => false
    | _ => true)

/-- The bank request of a core's access at a place: the local service's at the device's own array window (R19). -/
def corePlaceReq (s : State) (l : Fin 16) (pa : Nat) : Req × Nat :=
  match ownArray s pa with
  | some off => (reqWovas (latheInst s l) (some (s.lathe l).epoch), off)
  | none => (reqCore s l, pa)

/-- The access that a thread's instruction makes and that stalls, or its fetch, or their table walk: its address and whether it is a write.
(DESIGN CHOICE: log entry 9) -/
def coreAsk (s : State) (th : Th) : Option (Nat × Bool) :=
  let t := s.thr th
  let acc := instrAcc t th
  if !s.between th || t.waiting || t.hold ≠ .free || (t.word.isSome && acc = .fetch) || (t.word.isNone && !fetching s th) then none
  else match instrPa s th with
    | none => none
    | some (a, some _) => some (a, false)
    | some (pa, none) =>
      let x := corePlaceReq s th.l pa
      if reqStalls s x.1 x.2 (acc = .write) && (acc ≠ .read || timedArea th.l pa) then some (pa, acc = .write) else none

/-- The streams of a running group whose next accesses may be presented: the readers' and the writer's. -/
def openStreams (g : Group) (p : Part) : List Str :=
  let ss := strsOf g.members
  ss.filter (fun x => dMem x.q && x.role ≠ .table && (if x.isDst then (batchOf ss p).isSome else readersGo ss p))

/-- The access of a spindle's running group that stalls in the fabric: its address and whether it is a write. One to the spindle's own banks enters no
fabric (R44). -/
def streamAsk (s : State) (k : Nat) : Option (Nat × Bool) :=
  match (s.spin k).queue with
  | [] => none
  | gi :: _ => match s.group gi with
    | none => none
    | some g =>
      let p := g.part (k - g.spindle 0)
      if !g.started || p.ended || p.next ≥ p.limit then none
      else (openStreams g p).findSome? (fun x =>
        let va := strVa x (if x.isDst then p.next else p.head)
        match (streamXlate s g k p (if x.isDst then .write else .read) va).2 with
        | .ok pa _ =>
          let r := writeReq s g k pa
          if !r.1.direct s r.2 && reqStalls s r.1 r.2 x.isDst then some (pa, x.isDst) else none
        | .stall => (walkStall s g.ctx (k / 8) va).map (fun a => (a.1, false))
        | _ => none)

/-- The thread of a key of State's table. -/
def keyThread (k : Nat) : Th := ⟨Fin.ofNat 16 (k / 8), Fin.ofNat 8 k⟩

/-- Whether the timeout of the part of a split burst runs: not before a full converter (R351). -/
def restRuns (s : State) (x : Target × Burst × Nat) : Bool := converterOpen s x.1 x.2.1

/-- Every request of cores, streams and split bursts that waits for an acknowledgement. -/
def asksOf (s : State) : List Ask :=
  (s.fab.rest.filter (restRuns s)).map (fun x => ⟨x.2.1.m, x.2.1.addr.toNat, x.2.1.write, x.2.2⟩) ++
  s.threads.flatMap (fun (i, t) =>
    (t.loads.filter (PendLoad.asks s.devId)).map (fun p => ⟨.core (keyThread i), p.pa, p.kind.isStore, p.ticks⟩) ++
      ((coreAsk s (keyThread i)).map (fun a => (⟨.core (keyThread i), a.1, a.2, t.askTicks⟩ : Ask))).toList) ++
  s.spindles.flatMap (fun (k, x) => ((streamAsk s k).map (fun a => (⟨.stream (Fin.ofNat 128 k), a.1, a.2, x.askTicks⟩ : Ask))).toList)

/-- Whether a master's requests stand in State while they wait. -/
def tracked : Master → Bool
  | .core _ => true
  | .stream _ => true
  | _ => false

/-- The request of a master at an address, while it waits. -/
def askAt (s : State) (m : Master) (addr : Nat) (write : Bool) : Option Ask :=
  (asksOf s).find? (fun a => a.m = m && a.write = write && inQuad addr a.pa)

/-- A request that has had no acknowledgement ends with a bus error (R353, R355). -/
def requestTimesOut (s : State) (m : Master) (addr : Nat) (write : Bool) : State :=
  let s := { s with fab := { s.fab with rest := s.fab.rest.filter (fun x =>
    !(x.2.1.m = m && inQuad addr x.2.1.addr.toNat && x.2.1.write = write)) } }
  masterBusError (fabricError s m true write addr) m addr (some write) (inQuad addr)

/-- LATE_ACK (R353, R356). -/
def execLateAck (s : State) : Host.Outcome State Fault Refusal :=
  .next { s with fab := { s.fab with late := satAdd s.fab.late 1 } }

/-! ## The bank watchdog (R59) -/

/-- PENDING clears at the end of whatever drain runs. (DEDUCED: log entry 29) -/
def endAnyDrain (s : State) (n : Nat) : State :=
  match (s.bank n).drain with
  | none => s
  | some .handover => s.modBank n endHandover
  | some .skew => skewEnd s (n / 8)
  | some _ => s.modBank n endSealDrain

/-- The cores with an access outstanding at a bank. -/
def coresAt (s : State) (n : Nat) : List Master :=
  ((List.finRange 16).flatMap threadsOf).filterMap (fun th =>
    if (s.thr th).loads.any (fun p => p.resp.isNone && areaOf p.pa = .bank && bankOf s p.pa = n) then some (.core th) else none)

/-- The banks whose drains expire with that of bank `n`: of a SKEW drain all eight of the group, whose watchdogs began together (R46, R59). -/
def drainBanks (s : State) (n : Nat) : List Nat := if (s.bank n).drain = some .skew then groupBanks (n / 8) else [n]

/-- A burst that holds the path to a bank and whose next quad lies there ends with the bank's watchdog (R59). -/
def heldFails (s : State) (n : Nat) : State :=
  let tgt : Target := .bank (Fin.ofNat 1024 n)
  match (arbiterOf s tgt).held with
  | some t => if bankOf s t.b.addr.toNat = n then transferFails s tgt t else s
  | none => s

/-- The requests of other devices that wait for a bank are refused, as a bus error (R59, R462). -/
def waitingFail (s : State) (n : Nat) : State :=
  let at_ (q : RemoteReq) : Bool := bankOf s q.addr.toNat = n
  (s.wov.waiting.filter at_).foldl (fun s q => sendMsg s (.reply q.dev q.tag s.incarnation .refused))
    { s with wov := { s.wov with waiting := s.wov.waiting.filter (fun q => !at_ q) } }

/-- Every request outstanding at a bank ends with a bus error, and WDOG is set (R59). -/
def bankExpires (s : State) (n : Nat) (outstanding : List Master) : State :=
  let s := outstanding.foldl (fun s m => masterBusError s m (addrOfRow s n 0) none (fun pa => areaOf pa = .bank && bankOf s pa = n)) s
  (waitingFail (heldFails s n) n).modBank n (fun b => { b with wdog := true })

/-- The watchdog of a drain expires: the requests outstanding end, PENDING clears, and each bank has its entry in the error log. (DEDUCED: log entry 29) -/
def drainTimesOut (s : State) (n : Nat) (outstanding : List Master) : State :=
  if (s.bank n).drain.isNone then s
  else
    let ns := drainBanks s n
    let s := ns.foldl (fun s i => bankExpires s i (if i = n then outstanding else coresAt s i)) s
    logErrs (endAnyDrain s n) (ns.map (fun i => bankErr errBankWd i (addrOfRow s i 0)))

/-- GROUP_START (R120). -/
def execGroupStart (k : Fin 128) (s : State) : Host.Outcome State Fault Refusal := .next (settleJobs (groupStartAt s k.val))
/-- GROUP_END (R120). -/
def execGroupEnd (k : Fin 128) (s : State) : Host.Outcome State Fault Refusal := .next (settleJobs (groupEndAt s k.val))

end Sys2Proof.Machine
end

