-- ==== Sys2Proof/Machine/Pcie.lean ====
section
/-! DEFINITION. The PCI Express endpoint as the host reaches it (R434 to R449): BAR0 with the instance window, the MSI-X table and the register
aperture, BAR2, unmasking, configuration requests, link training and link loss. -/
namespace Sys2Proof.Machine

/-- Whether a host's TLP reaches the device: powered, linked, and the root or a device that stands alone (R449, R457). (DEDUCED: log entry 46) -/
def hostReaches (s : State) : Bool := s.pwr.main12 && s.pci.up && s.isRoot

/-- Whether a function is there: the PF, or a virtual function that is enabled and presented (R434, R446, R448). -/
def fnThere (s : State) (fn : Fin 16) : Bool := fn = 0 || (s.pci.vfEnable && (s.fnCfg fn.val).present)

/-- A request to a function: nothing without a link; Unsupported Request before the functions are set up or where there is none. A TLP, or
the doorbell it carries, wakes the device from Rest (R520). A function in D3hot takes none (R434). (DEDUCED and PRESUMED: log entries 46, 47) -/
def toFunction (s : State) (fn : Fin 16) (read : Bool) (f : State → State) (src : WakeSrc := .tlp) : State :=
  if !hostReaches s then s
  else
    let s := wakeUp s src
    if s.pci.functionsUp && fnThere s fn && !(s.fnCfg fn.val).d3 then f s else if read then transmit s (.cplUr fn) else s

/-- A host write is discarded and counted (R451). -/
def countDisc (s : State) : State := { s with pci := { s.pci with disc := satAdd s.pci.disc 1 } }

/-! ## MSI-X (R440) -/

/-- A recorded message leaves once its vector may send. -/
def flushVector (s : State) (i : Fin 16) (v : Nat) : State :=
  let f := s.fnCfg i.val
  let x := s.msixOf i.val v
  if !x.pend || x.mask || f.fmask || !f.msixEn then s
  else signalMsix (s.modMsix i.val v (fun x => { x with pend := false })) i v

/-- MSIX_UNMASK. -/
def msixUnmask (s : State) (i : Fin 16) (v : Nat) : State := flushVector (s.modMsix i.val v (fun x => { x with mask := false })) i v

/-- The 16 octets of a table entry: address, data, vector control with the mask in bit 0. -/
def msixOctets (x : Msix) : List Octet := leOctets 8 x.addr ++ leOctets 4 x.data ++ [if x.mask then 1 else 0, 0, 0, 0]

/-- A table entry as written. -/
def msixEntry (o : List Octet) (pend : Bool) : Msix :=
  { addr := BitVec.ofNat 64 (octetsToNat (o.take 8)), data := BitVec.ofNat 32 (octetsToNat ((o.drop 8).take 4)),
    mask := (o.getD 12 0).getLsbD 0, pend := pend }

/-! ## BAR0 below the aperture (R416 to R418, R422, R437) -/

/-- STATE as the host reads it, of a command sent on to another device as that device told it (R422, R465). -/
def Slot.state (x : Slot) : BitVec 8 := if x.fwdTo.isSome then x.fst else x.st

/-- The status entry of a slot (R422). -/
def statusOctets (x : Slot) : List Octet :=
  [x.state, 0] ++ leOctets 2 x.status ++ leOctets 2 x.tag ++ [if x.state = 2 then x.qpos else 0, 0] ++ leOctets 8 x.jseq

def ringCfgWord (y : Inst) : BitVec 32 :=
  (if y.en then 0x80000000 else 0) ||| y.vec.setWidth 32 <<< 16 ||| y.log2n.setWidth 32
def istatWord (y : Inst) : BitVec 32 :=
  (if ringWait y then 0x80000000 else 0) ||| (if y.ringerr then 0x40000000 else 0) ||| y.dbign.setWidth 32

/-- The registers of a window from 0x4000 to 0x403F. -/
def windowRegs (y : Inst) : List Octet :=
  List.replicate 32 0 ++ leOctets 8 y.ringbase ++ leOctets 4 (ringCfgWord y) ++ List.replicate 4 0 ++ leOctets 4 y.ringHead ++
    leOctets 4 y.ringTail ++ leOctets 4 (istatWord y) ++ List.replicate 4 0

/-- Pending bits of a function (R440). -/
def pbaOctet (s : State) (i : Fin 16) (k : Nat) : Octet :=
  (List.range 8).foldl (fun (w : Octet) j => setBit w j (s.msixOf i.val (8 * k + j)).pend) 0

/-- The octet at an offset of BAR0 below the aperture. -/
def bar0Octet (s : State) (i : Fin 16) (a : Nat) : Octet :=
  if a < 0x4000 then tget 0 (s.inst i).win a
  else if a < 0x4040 then (windowRegs (s.inst i)).getD (a - 0x4000) 0
  else if 0x5000 ≤ a ∧ a < 0x6000 then
    (statusOctets (s.slot ⟨i, Fin.ofNat 4 ((a - 0x5000) / 0x400), Fin.ofNat 64 ((a - 0x5000) % 0x400 / 16)⟩)).getD (a % 16) 0
  else if 0x6000 ≤ a ∧ a < 0x6400 then (msixOctets (s.msixOf i.val ((a - 0x6000) / 16))).getD (a % 16) 0
  else if 0x7000 ≤ a ∧ a < 0x7008 then pbaOctet s i (a - 0x7000)
  else 0

/-- Whether octets of an access of `n` octets at `a` fall in a field. -/
def covers (a n lo len : Nat) : Bool := decide (a < lo + len) && decide (lo < a + n)

/-- A field of `len` octets at `lo` after a write of octets at `a`. -/
def mergeOctets (old : List Octet) (a : Nat) (o : List Octet) (lo : Nat) : List Octet :=
  (old.zipIdx).map (fun (b, i) => if a ≤ lo + i ∧ lo + i < a + o.length then o.getD (lo + i - a) 0 else b)

/-- The value that a write leaves in a field whose old value is given. (DEDUCED: log entry 46) -/
def mergeField (len old a : Nat) (o : List Octet) (lo : Nat) : Nat := octetsToNat (mergeOctets (octetsLE len old) a o lo)

/-- The octets of command slots that a write covers. (DEDUCED: log entry 60) -/
def writeSlots (s : State) (i : Fin 16) (a : Nat) (o : List Octet) : State :=
  s.modInst i (fun y => { y with
    win := (o.zipIdx).foldl (fun w (b, j) => if a + j < 0x4000 then tput 0 w (a + j) b else w) y.win
    winBad := (o.zipIdx).foldl (fun w (_, j) => if a + j < 0x4000 then tput false w (a + j) false else w) y.winBad })

/-- The registers of a window that a write covers. -/
def writeWindowRegs (s : State) (i : Fin 16) (a : Nat) (o : List Octet) : State :=
  let n := o.length
  let s := (List.finRange 4).foldl (fun s m =>
    if covers a n (0x4000 + 8 * m.val) 8 then ringSlots s i m (BitVec.ofNat 64 (mergeField 8 0 a o (0x4000 + 8 * m.val))) else s) s
  let s := if covers a n 0x4020 8 then
      s.modInst i (fun y => { y with ringbase := BitVec.ofNat 64 (mergeField 8 y.ringbase.toNat a o 0x4020) &&& ~~~ 0x3F })
    else s
  let s := if covers a n 0x4028 4 then ringCfg s i (BitVec.ofNat 32 (mergeField 4 (ringCfgWord (s.inst i)).toNat a o 0x4028)) else s
  let s := if covers a n 0x4030 4 then ringHeadWrite s i (BitVec.ofNat 32 (mergeField 4 (s.inst i).ringHead.toNat a o 0x4030)) else s
  if covers a n 0x4038 4 && (BitVec.ofNat 32 (mergeField 4 0 a o 0x4038)).getLsbD 30 then
    s.modInst i (fun y => { y with ringerr := false })
  else s

/-- The MSI-X table entries that a write covers; one that it unmasks sends what is recorded. -/
def writeMsix (s : State) (i : Fin 16) (a : Nat) (o : List Octet) : State :=
  (List.range 64).foldl (fun s v =>
    let lo := 0x6000 + 16 * v
    if covers a o.length lo 16 then
      flushVector (s.modMsix i.val v (fun x => msixEntry (mergeOctets (msixOctets x) a o lo) x.pend)) i v
    else s) s

/-! ## The aperture (R438) -/

/-- The physical address of a word of the aperture. -/
def apertureAddr (s : State) (off : Nat) : Nat := regBase + s.pci.apb.toNat * 65536 + (off - 0x80000) / 8

/-- An access of eight aligned octets. -/
def wordAccess (off size : Nat) : Bool := size = 8 && off % 8 = 0

/-- A read of a word of the register region by the host; any other address is a path error (R438). -/
def hostRegRead (s : State) (pa : Nat) : State :=
  match areaOf pa with
  | .regs r =>
    let (s, w) := regRead s (.pciein 0) r
    transmit s (.cpl 0 (octetsLE 8 w.toNat) false)
  | _ => transmit (noPath s (.pciein 0) false pa) (.cplCa 0)

/-- A write of a word of the register region by the host; one that is refused is counted (R438, R451). -/
def hostRegWrite (s : State) (pa : Nat) (w : Word) : State :=
  match areaOf pa with
  | .regs r => (match regWrite s (.pciein 0) r w with
    | some s => s
    | none => countDisc s)
  | _ => countDisc (noPath s (.pciein 0) true pa)

def apertureRead (s : State) (off size : Nat) : State :=
  if wordAccess off size then hostRegRead s (apertureAddr s off) else transmit s (.cplUr 0)

def apertureWrite (s : State) (off : Nat) (o : List Octet) : State :=
  if wordAccess off o.length && decide (octetsToNat o < 2 ^ 36) then
    hostRegWrite s (apertureAddr s off) (BitVec.ofNat 36 (octetsToNat o))
  else countDisc s

/-! ## The host's rows -/

/-- HOST_BAR0_READ. A read of ISTAT clears DBIGN (R418); one that meets an uncorrectable nonet of a slot completes poisoned (R41). (DEDUCED: log entry 60) -/
def hostBar0Read (s : State) (fn : Fin 16) (off size : Nat) : State :=
  if fn = 0 && off ≥ 0x80000 then apertureRead s off size
  else
    let o := (List.range size).map (fun j => bar0Octet s fn (off + j))
    let s := if covers off size 0x4038 2 then s.modInst fn (fun y => { y with dbign := 0 }) else s
    transmit s (.cpl fn o ((List.range size).any (fun j => decide (off + j < 0x4000) && tget false (s.inst fn).winBad (off + j))))

/-- HOST_BAR0_WRITE. A poisoned write is discarded and reported (R442). (DEDUCED: log entry 46) -/
def hostBar0Write (s : State) (fn : Fin 16) (off : Nat) (o : List Octet) (ep : Bool) : State :=
  if ep then reportAer s fn 12
  else if off ≥ 0x80000 then (if fn = 0 then apertureWrite s off o else s)
  else writeMsix (writeWindowRegs (writeSlots s fn off o) fn off o) fn off o

/-- The address of a word of BAR2 (R439). -/
def bar2Addr (s : State) (off : Nat) : Nat := (if s.pci.half then 2 ^ 25 else 0) + off / 8

/-- HOST_BAR2_READ; none while a bank holds the request. (DESIGN CHOICE: log entry 27) -/
def hostBar2Read (s : State) (off size : Nat) : Option State :=
  if s.pwr.mode ≠ modeOpen || !wordAccess off size then some (transmit s (.cplUr 0))
  else match readMem s (reqDma 0 0) false (bar2Addr s off) 1 0xF 0xF with
    | (s, .ok ws) => some (transmit s (.cpl 0 (octetsLE 8 (ws.headD (0, false)).1.toNat) (ws.any Prod.snd)))
    | (s, .bus) => some (transmit s (.cplCa 0))
    | (_, .stall) => none

/-- HOST_BAR2_WRITE; none while a bank holds the request. (DEDUCED and DESIGN CHOICE: log entries 27, 46) -/
def hostBar2Write (s : State) (off : Nat) (o : List Octet) (ep : Bool) : Option State :=
  let v := octetsToNat o
  if ep then some (reportAer s 0 12)
  else if s.pwr.mode ≠ modeOpen || !wordAccess off o.length || decide (v ≥ 2 ^ 36) then some (countDisc s)
  else match writeMem s (reqDma 0 0) (bar2Addr s off) (BitVec.ofNat 36 v) 0xF false with
    | (s, .ok) => some s
    | (s, .bus) => some (countDisc s)
    | (_, .stall) => none

/-! ## Configuration requests (R434, R440, R441, R446, R448) -/

/-- A field of a 32-bit register put to a value. -/
def field32 (v : BitVec 32) (lo len n : Nat) : BitVec 32 :=
  let m : BitVec 32 := BitVec.ofNat 32 ((2 ^ len - 1) * 2 ^ lo)
  (v &&& ~~~ m) ||| (BitVec.ofNat 32 (n % 2 ^ len) <<< lo)

/-- Capability structures in their order: ID, offset and octets. Those of R435's absent features are not among them. (PRESUMED and DESIGN CHOICE:
log entry 47) -/
def lowCaps : List (Nat × Nat × Nat) := [(0x01, Config.pmAt, 8), (0x10, Config.pcieAt, 60), (0x11, Config.msixAt, 12)]
def extCaps (pf : Bool) : List (Nat × Nat × Nat) :=
  (0x0001, Config.aerAt, 72) :: (if pf then [(0x0010, Config.sriovAt, 64), (0x001E, Config.l1At, 16), (0x0025, Config.rateAt, 12),
    (0x0019, Config.rateAt + 12, 44), (0x0026, Config.rateAt + 56, 48), (0x0027, Config.rateAt + 104, 72), (0x002A, Config.rateAt + 176, 48)] else [])

/-- Whether a register lies in a capability structure of a list. -/
def inCaps (cs : List (Nat × Nat × Nat)) (r : Nat) : Bool := cs.any (fun c => c.2.1 ≤ r && r < c.2.1 + c.2.2)

/-- The structure that a register heads, and the offset of the next, 0 after the last. -/
def capHead (cs : List (Nat × Nat × Nat)) (r : Nat) : Option (Nat × Nat) :=
  (cs.zip (cs.drop 1 ++ [(0, 0, 0)])).findSome? (fun (c, d) => if c.2.1 = r then some (c.1, d.2.1) else none)

/-- The fields of a function's capability structures that the manual describes, over what it leaves open (R434, R435, R440, R441, R446, R448). -/
def capFields (s : State) (fn : Fin 16) (f : FnCfg) (r : Nat) (v : BitVec 32) : BitVec 32 :=
  let p := Config.pcieAt
  let a := Config.aerAt
  let vfs := if (s.fnCfg 1).present then 15 else 0
  if r = Config.msixAt then setBit (setBit (field32 v 16 11 63) 31 f.msixEn) 30 f.fmask
  else if r = Config.msixAt + 4 then 0x6000
  else if r = Config.msixAt + 8 then 0x7000
  else if r = Config.pmAt then field32 v 25 2 0
  else if r = Config.pmAt + 4 then field32 v 0 2 (if f.d3 then 3 else 0)
  else if r = p + 4 then setBit (field32 v 0 3 2) 28 true
  else if r = p + 8 then setBit (setBit (field32 (field32 v 5 3 f.mps.toNat) 12 3 f.mrrs.toNat) 4 f.ro) 15 false
  else if r = p + 12 then field32 (field32 (field32 v 0 4 5) 4 6 16) 10 2 2
  else if r = p + 16 then field32 (field32 (field32 v 0 2 f.aspm.toNat) 16 4 s.pci.speed.toNat) 20 6 s.pci.width.toNat
  else if r = p + 36 then field32 (field32 (field32 v 0 5 0x1F) 12 2 0) 16 2 3
  else if r = a + 4 then f.aerUnc
  else if r = a + 24 then field32 (field32 (field32 v 0 5 f.aerFirst.toNat) 5 1 1) 7 1 1
  else if a + 28 ≤ r && r < a + 44 then f.aerHdr.getD ((r - a - 28) / 4) 0
  else if fn ≠ 0 then v
  else if r = Config.sriovAt + 8 then setBit v 0 s.pci.vfEnable
  else if r = Config.sriovAt + 12 then field32 (field32 v 0 16 vfs) 16 16 vfs
  else if r = Config.sriovAt + 20 then 0x00010001
  else if r = Config.l1At + 4 then field32 v 0 5 0x1F
  else v

/-- A configuration register as read: the bits that the manual describes over what it leaves open; a word outside the header and every capability
structure reads zero. (PRESUMED and DESIGN CHOICE: log entry 47) -/
def configRead (s : State) (fn : Fin 16) (reg : BitVec 12) : BitVec 32 :=
  let f := s.fnCfg fn.val
  let r := reg.toNat
  let v := Config.configWord fn.val reg (tget 0 f.regs r)
  let cs := if r < 0x100 then lowCaps else extCaps (fn = 0)
  if r < 0x40 then
    (if r = 0x08 then field32 v 8 24 0x120000
     else if r = 0x34 then field32 v 0 8 Config.pmAt
     else if r = 0x3C then field32 v 8 8 0
     else v)
  else if !inCaps cs r then 0
  else
    let v := capFields s fn f r v
    match capHead cs r with
    | none => v
    | some (id, next) => if r < 0x100 then field32 (field32 v 0 8 id) 8 8 next else field32 (field32 v 0 16 id) 20 12 next

/-- VF Enable clears: every virtual function's instance is reset (R446). (DEDUCED: log entry 43) -/
def clearVfs (s : State) : State :=
  (List.range 15).foldl (fun s k => instReset s (Fin.ofNat 16 (k + 1)) none) { s with pci := { s.pci with vfEnable := false } }

/-- A write of a configuration register. (PRESUMED and DESIGN CHOICE: log entry 47) -/
def configWrite (s : State) (fn : Fin 16) (reg : BitVec 12) (v : BitVec 32) : State :=
  let s := s.modFn fn.val (fun f => { f with regs := tput 0 f.regs reg.toNat v })
  if reg = Config.msixCap then
    let s := s.modFn fn.val (fun f => { f with msixEn := v.getLsbD 31, fmask := v.getLsbD 30 })
    (List.range 64).foldl (fun s k => flushVector s fn k) s
  else if reg = Config.pcieControl then
    let s := s.modFn fn.val (fun f => { f with ro := v.getLsbD 4, mps := v.extractLsb' 5 3, mrrs := v.extractLsb' 12 3 })
    if v.getLsbD 15 then flr s fn else s
  else if reg.toNat = Config.pcieAt + 16 then s.modFn fn.val (fun f => { f with aspm := v.extractLsb' 0 2 })
  else if reg.toNat = Config.pmAt + 4 then
    s.modFn fn.val (fun f => { f with d3 := if v.extractLsb' 0 2 = 3 then true else if v.extractLsb' 0 2 = 0 then false else f.d3 })
  else if reg.toNat = Config.aerAt + 4 then s.modFn fn.val (fun f => { f with aerUnc := f.aerUnc &&& ~~~ v })
  else if reg = Config.sriovControl && fn = 0 then
    (if v.getLsbD 0 then { s with pci := { s.pci with vfEnable := true } }
     else if s.pci.vfEnable then clearVfs s else s)
  else s

/-- A configuration request that its function takes. -/
def configRequest (s : State) (fn : Fin 16) (write : Bool) (reg : BitVec 12) (v : BitVec 32) : State :=
  if write then transmit (configWrite s fn reg v) (.cpl fn [] false)
  else transmit s (.cpl fn (octetsLE 4 (configRead s fn reg).toNat) false)

/-! ## The order of a function's requests (R309) -/

/-- A request to function 0 is performed; none while a bank holds it. -/
def performHost (q : HostReq) (s : State) : Option State :=
  match q with
  | .bar0Read off size => some (hostBar0Read s 0 off.toNat size)
  | .bar0Write off o ep => some (hostBar0Write s 0 off.toNat o ep)
  | .bar2Read off size => hostBar2Read s off.toNat size
  | .bar2Write off o ep => hostBar2Write s off.toNat o ep
  | .ring m bits => some (ringSlots s 0 m bits)
  | .ringcfg v => some (ringCfg s 0 v)
  | .ringhead v => some (ringHeadWrite s 0 v)
  | .unmask vec => some (msixUnmask s 0 vec.val)
  | .config write reg v => some (configRequest s 0 write reg v)

def setStalled (s : State) (qs : List HostReq) : State := { s with pci := { s.pci with stalled := qs } }

/-- Requests in their order, up to one that a bank holds; it and those behind it wait. -/
def performInOrder : List HostReq → State → State
  | [], s => setStalled s []
  | q :: r, s => match performHost q s with
    | some s => performInOrder r s
    | none => setStalled s (q :: r)

/-- What waits for a bank goes on, as far as the bank lets it. -/
def resumeHost (s : State) : State := if s.pci.stalled.isEmpty then s else performInOrder s.pci.stalled s

/-- What waits for a bank, of the host and of other devices. -/
def resumeWaiting (s : State) : State := resumeRemote (resumeHost s)

/-- A request of a function in its order of arrival: function 0's wait behind one that a bank stalls (R309). (DEDUCED: log entry 46) -/
def inOrder (s : State) (fn : Fin 16) (q : HostReq) (f : State → State) : State :=
  if fn = 0 then performInOrder (s.pci.stalled ++ [q]) s else f s

/-- A TLP of the host that fails its ECRC is discarded, reported and counted (R442). -/
def checked (s : State) (fn : Fin 16) (bad : Bool) (f : State → State) : State := if bad then (if hostReaches s then ecrcFails s fn else s) else f s

def execMsixUnmask (fn : Fin 16) (vec : Fin 64) (s : State) : Host.Outcome State Fault Refusal :=
  .next (toFunction s fn false (fun s => inOrder s fn (.unmask vec) (fun s => msixUnmask s fn vec.val)))
def execHostBar0Read (fn : Fin 16) (off : BitVec 20) (ask : HostRead) (s : State) : Host.Outcome State Fault Refusal :=
  .next (checked s fn ask.ecrc (fun s => toFunction s fn true (fun s => inOrder s fn (.bar0Read off ask.size) (fun s => hostBar0Read s fn off.toNat ask.size))))
def execHostBar0Write (fn : Fin 16) (off : BitVec 20) (o : List Octet) (mark : TlpMark) (s : State) : Host.Outcome State Fault Refusal :=
  let ep : Bool := mark = .poisoned
  .next (checked s fn (mark = .ecrc) (fun s => toFunction s fn false (fun s => inOrder s fn (.bar0Write off o ep) (fun s => hostBar0Write s fn off.toNat o ep))
    (if !ep && covers off.toNat o.length 0x4000 32 then .doorbell else .tlp)))
def execHostBar2Read (off : BitVec 28) (ask : HostRead) (s : State) : Host.Outcome State Fault Refusal :=
  .next (checked s 0 ask.ecrc (fun s => toFunction s 0 true (fun s => inOrder s 0 (.bar2Read off ask.size) id)))
def execHostBar2Write (off : BitVec 28) (o : List Octet) (mark : TlpMark) (s : State) : Host.Outcome State Fault Refusal :=
  .next (checked s 0 (mark = .ecrc) (fun s => toFunction s 0 false (fun s => inOrder s 0 (.bar2Write off o (mark = .poisoned)) id)))

/-- DOORBELL. Only the root, or a device that stands alone, is reached by the host (R457). -/
def doorbell (s : State) (i : Fin 16) (m : Fin 4) (bits : BitVec 64) : State :=
  if !s.pwr.main12 || !s.isRoot || (s.fnCfg i.val).d3 then s
  else inOrder (wakeUp s .doorbell) i (.ring m bits) (fun s => ringSlots s i m bits)
def execDoorbell (i : Fin 16) (m : Fin 4) (bits : BitVec 64) (s : State) : Host.Outcome State Fault Refusal := .next (doorbell s i m bits)
def execRingcfg (i : Fin 16) (v : BitVec 32) (s : State) : Host.Outcome State Fault Refusal :=
  .next (inOrder s i (.ringcfg v) (fun s => ringCfg s i v))
def execRinghead (i : Fin 16) (v : BitVec 32) (s : State) : Host.Outcome State Fault Refusal :=
  .next (inOrder s i (.ringhead v) (fun s => ringHeadWrite s i v))

/-- CONFIGURATION_REQUEST. Before the functions are presented the answer is Configuration Request Retry Status (R448). (DEDUCED: log entry 46) -/
def configurationRequest (s : State) (fn : Fin 16) (write : Bool) (reg : BitVec 12) (v : BitVec 32) : State :=
  if !hostReaches s then s
  else
    let s := wakeUp s .tlp
    if !s.pci.functionsUp then transmit s (.cplCrs fn)
    else if !fnThere s fn then transmit s (.cplUr fn)
    else inOrder s fn (.config write reg v) (fun s => configRequest s fn write reg v)
def execConfigurationRequest (fn : Fin 16) (write : Bool) (reg : BitVec 12) (tlp : ConfigTlp) (s : State) : Host.Outcome State Fault Refusal :=
  .next (checked s fn tlp.ecrc (fun s => configurationRequest s fn write reg tlp.value))

/-! ## Drains that let requests go on (R46, R57, R60) -/

def execHandoverDrainEnd (n : Fin 1024) (s : State) : Host.Outcome State Fault Refusal := .next (resumeWaiting (s.modBank n.val endHandover))
def execSkewDrainEnd (k : Fin 128) (s : State) : Host.Outcome State Fault Refusal := .next (resumeWaiting (skewEnd s k.val))
def execSealLockDrainEnd (n : Fin 1024) (s : State) : Host.Outcome State Fault Refusal := .next (resumeWaiting (s.modBank n.val endSealDrain))

/-! ## The link (R447, R448, R450) -/

/-- DATA_LINK_DOWN: outstanding DMA reads end with HOSTERR, completion entries not yet sent are discarded, and commands run on. (DEDUCED: log entry 48) -/
def dataLinkDown (s : State) : State :=
  if !s.pci.up then s
  else
    let s := { s with pci := { s.pci with up := false } }
    let s := { s with hs := { s.hs with insts := tmapVals {} (fun y => { y with held := [] }) s.hs.insts } }
    (List.range 8).foldl (fun s c => match s.hs.chans.getD c none with
      | some x =>
        if x.out || !x.running || x.failed.isSome || (nextRequest s x).isNone then s
        else match x.far with
          | some d => sendMsg (s.setChan c (some { x with running := false })) (.hostCpl d c .unsupported)
          | none => endIngress s c (failXfer x ceHOSTERR 0 0)
      | none => s) s
def execDataLinkDown (s : State) : Host.Outcome State Fault Refusal := .next (dataLinkDown s)

/-- PCIE_LINK_TRAINING: a rate and a width that the endpoint supports (R434); that of a device that is not the root does not train (R457). -/
def pcieTrained (s : State) (speed : BitVec 3) (width : BitVec 5) : State :=
  if !s.pwr.main12 || s.rst.perstLow || !s.isRoot || !(1 ≤ speed.toNat && speed.toNat ≤ 5) || !([1, 2, 4, 8, 16].contains width.toNat) then s
  else { s with pci := { s.pci with up := true, speed := speed, width := width } }
def execPcieLinkTraining (speed : BitVec 3) (width : BitVec 5) (s : State) : Host.Outcome State Fault Refusal :=
  .next (pcieTrained s speed width)

end Sys2Proof.Machine
end

