-- ==== Sys2Proof/Machine/CoreOps.lean ====
section
/-! DEFINITION. The operation of each instruction of a lathe core, apart from its issue: what STEP and EXEC of the debug port perform in a
halted thread (R534, R536). -/
namespace Sys2Proof.Machine

/-- The operation that an instruction of a lathe core performs; none for every other command. -/
def coreOp : Instr → Option (State → State × Res)
  | .add th f => some (opAdd th 0o000 f)
  | .sub th f => some (opSub th 0o001 f)
  | .andG th f => some (opAnd th 0o002 f)
  | .orG th f => some (opOr th 0o003 f)
  | .xorG th f => some (opXor th 0o004 f)
  | .andn th f => some (opAndn th 0o005 f)
  | .shl th f => some (opShl th 0o010 f)
  | .shr th f => some (opShr th 0o011 f)
  | .shra th f => some (opShra th 0o012 f)
  | .rol th f => some (opRol th 0o013 f)
  | .slt th f => some (opSlt th 0o020 f)
  | .sltu th f => some (opSltu th 0o021 f)
  | .seq th f => some (opSeq th 0o022 f)
  | .minG th f => some (opMin th 0o023 f)
  | .maxG th f => some (opMax th 0o024 f)
  | .minu th f => some (opMinu th 0o025 f)
  | .maxu th f => some (opMaxu th 0o026 f)
  | .clz th f => some (opClz th 0o030 f)
  | .popc th f => some (opPopc th 0o031 f)
  | .addi th f => some (opAddi th f)
  | .andi th f => some (opAndi th f)
  | .ori th f => some (opOri th f)
  | .xori th f => some (opXori th f)
  | .slti th f => some (opSlti th f)
  | .sltiu th f => some (opSltiu th f)
  | .shifti th f => some (opShifti th f)
  | .lui th f => some (opLui th f)
  | .mul th f => some (opMul th 0o000 f)
  | .mulu th f => some (opMulu th 0o001 f)
  | .madd th f => some (opMadd th 0o002 f)
  | .maddu th f => some (opMaddu th 0o003 f)
  | .div th f => some (opDiv th 0o010 f)
  | .divu th f => some (opDivu th 0o011 f)
  | .rem th f => some (opRem th 0o012 f)
  | .remu th f => some (opRemu th 0o013 f)
  | .lw th f => some (opLw th f)
  | .ln th f => some (opLn th f)
  | .lfs th f => some (opLfs th f)
  | .lf th f => some (opLf th f)
  | .sw th f => some (opSw th f)
  | .sn th f => some (opSn th f)
  | .sfs th f => some (opSfs th f)
  | .sf th f => some (opSf th f)
  | .swm th f => some (opSwm th f)
  | .ldd th f => some (opLdd th f)
  | .stdd th f => some (opStdd th f)
  | .mtd th f => some (opMtd th f)
  | .mfd th f => some (opMfd th f)
  | .beq th f => some (opBeq th f)
  | .bne th f => some (opBne th f)
  | .blt th f => some (opBlt th f)
  | .bge th f => some (opBge th f)
  | .bltu th f => some (opBltu th f)
  | .bgeu th f => some (opBgeu th f)
  | .dbnz th f => some (opDbnz th f)
  | .jal th off => some (opJal th off)
  | .j th off => some (opJ th off)
  | .jalr th f => some (opJalr th f)
  | .fadd th f => some (opFadd th 0o000 f)
  | .fsub th f => some (opFsub th 0o001 f)
  | .fmul th f => some (opFmul th 0o002 f)
  | .fma th f => some (opFma th 0o003 f)
  | .fms th f => some (opFms th 0o004 f)
  | .fnma th f => some (opFnma th 0o005 f)
  | .fdiv th f => some (opFdiv th 0o010 f)
  | .fsqrt th f => some (opFsqrt th 0o011 f)
  | .fmin th f => some (opFmin th 0o020 f)
  | .fmax th f => some (opFmax th 0o021 f)
  | .fabs th f => some (opFabs th 0o022 f)
  | .fneg th f => some (opFneg th 0o023 f)
  | .fmov th f => some (opFmov th 0o024 f)
  | .frint th f => some (opFrint th 0o025 f)
  | .fcmpeq th f => some (opFcmpeq th 0o000 f)
  | .fcmplt th f => some (opFcmplt th 0o001 f)
  | .fcmple th f => some (opFcmple th 0o002 f)
  | .fcmpun th f => some (opFcmpun th 0o003 f)
  | .fcvtsd th f => some (opFcvtsd th 0o010 f)
  | .fcvtds th f => some (opFcvtds th 0o011 f)
  | .fcvtis th f => some (opFcvtis th 0o012 f)
  | .fcvtid th f => some (opFcvtid th 0o013 f)
  | .fcvtsi th f => some (opFcvtsi th 0o014 f)
  | .fcvtdi th f => some (opFcvtdi th 0o015 f)
  | .fmvgfL th f => some (opFmvgfL th 0o020 f)
  | .fmvgfH th f => some (opFmvgfH th 0o021 f)
  | .fmvfgL th f => some (opFmvfgL th 0o022 f)
  | .fmvfgH th f => some (opFmvfgH th 0o023 f)
  | .eret th f => some (opEret th 0o001 f)
  | .wait th f => some (opWait th 0o002 f)
  | .fbar th f => some (opFbar th 0o010 f)
  | .vfence th f => some (opVfence th 0o011 f)
  | .fenceR th f => some (opFenceR th 0o012 f)
  | .fenceW th f => some (opFenceW th 0o013 f)
  | .fenceRW th f => some (opFenceRW th 0o014 f)
  | .tlbsync th f => some (opTlbsync th 0o015 f)
  | .afence th f => some (opAfence th 0o016 f)
  | .wrpkr th f => some (opWrpkr th 0o020 f)
  | .setvl th f => some (opSetvl th 0o021 f)
  | .setvli th f => some (opSetvli th f)
  | .setsvl th f => some (opSetsvl th 0o022 f)
  | .vchain th f => some (opVchain th 0o030 f)
  | .vsusp th f => some (opVsusp th 0o031 f)
  | .vresume th f => some (opVresume th 0o032 f)
  | .tlbinv th f => some (opTlbinv th 0o040 f)
  | .tlbinvall th f => some (opTlbinvall th 0o041 f)
  | .mfsr th f => some (opMfsr th f)
  | .mtsr th f => some (opMtsr th f)
  | .syscall th f => some (opSyscall th f)
  | .vectorIssue th v => some (opVector th v)
  | _ => none

/-- Instructions that EXEC turns away: branches, jumps, ERET, SYSCALL, WAIT and vector issue (R536). -/
def execRefused : Instr → Bool
  | .beq .. | .bne .. | .blt .. | .bge .. | .bltu .. | .bgeu .. | .dbnz .. | .jal .. | .j .. | .jalr .. => true
  | .eret .. | .syscall .. | .wait .. | .vectorIssue .. => true
  | _ => false

end Sys2Proof.Machine
end

