-- ==== Sys2Proof/Machine/Cores.lean ====
section
/-! DEFINITION. The issue of instructions in a lathe core (R219 to R224, R231 to R236, R240): which thread has the next slot, the slots that pass
empty, the issue of one instruction or of two in one slot, and the fetch of instructions. -/
namespace Sys2Proof.Machine

/-! ## Eligibility (R219, R221) -/

/-- Whether a thread of a running core takes slots at all: its core's part of eligibility, and TEN (R219, R226, R237, R263, R533). -/
def takesSlots (s : State) (th : Th) : Bool :=
  let t := s.thr th
  let x := s.lathe th.l
  t.started && x.ten.getLsbD th.t.val && !t.halted && x.stall.isNone && !x.locked && !x.drain && s.pwr.rung.toNat < 2

/-- Whether a thread may issue its next instruction as far as its core and its own state go; its slot is judged apart (R219, R251, R266). Under
strict rotation an outstanding access takes every turn until it completes (R233). -/
def mayIssue (s : State) (th : Th) (d : Deps) : Bool :=
  let t := s.thr th
  takesSlots s th && !t.waiting && t.hold = .free && !eventDue s th && t.clearOf d && (!(s.lathe th.l).detact || t.loads.isEmpty)

/-- The operation of an instruction word: what it performs, or ILLEGAL of an undefined one (R196). -/
def wordRun (th : Th) (w : Word) (s : State) : State × Res :=
  match (readInstr th w).bind coreOp with
  | some op => op s
  | none => (s, illegal w)

/-- The thread as it stands in a slot of its core, with the floating-point instructions complete whose latency is over. -/
def atSlot (s : State) (th : Th) (n : Nat) : State := s.modThr th (fun t => t.fpBy n)

/-- Whether an instruction that may not issue yet is told only by what it does: an access that stalls, R118's wait, the hold of FCSR; and beside
outstanding accesses an exception, which is taken once they have ended (R118, R221, R254, R258). (DEDUCED and DESIGN CHOICE: log entry 12) -/
def opHolds (t : Thread) (r : Res) : Bool :=
  match r with
  | .wait => true
  | .exc _ => !t.loads.isEmpty
  | .excNext _ => !t.loads.isEmpty
  | _ => false

/-- Whether a trap request of a floating-point instruction comes before the slot `n` of its thread's next instruction, which then does not issue
(R251, R254). -/
def Thread.trapBy (t : Thread) (n : Nat) : Bool := (t.fpBy n).trapReq

/-- The slot at which a floating-point instruction of a thread completes with a trap, the first of them. -/
def Thread.trapSlot (t : Thread) : Option Nat :=
  t.fpOut.foldl (fun a p => if p.flags &&& t.ften = 0 then a else
    match p.due, a with
    | none, _ => a
    | some d, none => some d
    | some d, some b => some (min d b)) none

/-- The slot that a thread's next instruction could have, before what that instruction does is judged: the first one from which its registers
have their values, and its own turn under strict rotation (R219, R221, R232, R235). -/
def readySlot (s : State) (th : Th) (d : Deps) : Nat :=
  let t := s.thr th
  let x := s.lathe th.l
  x.turnFrom th.t (max x.clock (max t.busy (t.regsFrom d)))

/-- The turn at which a thread under strict rotation is still to do something that is not untimed: to take an event, or to fetch its next
instruction (R234, R236, R251). (DESIGN CHOICE: log entry 10) -/
def timedTurn (s : State) (th : Th) : Option Nat :=
  let t := s.thr th
  let x := s.lathe th.l
  let stalls : Bool := match (fetchAt s th (nextFetch s th)).2 with
    | .stall => true
    | _ => false
  if x.detact && takesSlots s th && (eventDue s th || (t.word.isNone && !t.waiting && t.hold = .free && t.loads.isEmpty && fetching s th && !stalls))
  then some (nextTurn s th) else none

/-- The slot in which a thread would issue its next instruction if no other thread did, or would take a floating-point trap in its place; none
while it cannot (R219, R221, R232, R235, R251). -/
def slotOf (s : State) (th : Th) : Option Nat :=
  let t := s.thr th
  match t.word with
  | none => timedTurn s th
  | some w =>
    let d := depsOf t w
    if mayIssue s th d then
      let n := readySlot s th d
      if t.trapBy n then some (max (s.lathe th.l).clock (min n (t.trapSlot.getD n)))
      else if opHolds t (wordRun th w (atSlot s th n)).2 then none else some n
    else timedTurn s th

/-- Of the threads of a core, with the slot of each: the earliest slot, and in one slot the first of t + 1 to t + 8 after the thread that issued
last (R220). -/
def firstOf (x : Lathe) (slot : Fin 8 → Option Nat) : Option (Fin 8 × Nat) :=
  (List.finRange 8).foldl (fun (a : Option (Fin 8 × Nat)) (k : Fin 8) =>
    let t : Fin 8 := x.lastThr + 1 + k
    match slot t, a with
    | none, _ => a
    | some n, none => some (t, n)
    | some n, some b => if n < b.2 then some (t, n) else a) none

/-- The thread that issues next in a core, with its slot (R220). -/
def nextIssuer (s : State) (l : Fin 16) : Option (Fin 8 × Nat) := firstOf (s.lathe l) (fun t => slotOf s ⟨l, t⟩)

/-! ## Slots (R220, R232, R234, R239, R240) -/

/-- Whether a thread stands in an untimed wait (R234, R291, R533): WAIT, a fence, an outstanding access, a halt, an instruction that cannot issue,
or a fetch whose table walk stalls. -/
def untimed (s : State) (th : Th) : Bool :=
  let t := s.thr th
  t.waiting || t.hold ≠ .free || !t.loads.isEmpty || t.halted ||
    (match t.word with
     | some w => opHolds t (wordRun th w (atSlot s th (s.lathe th.l).clock)).2
     | none => t.started && (match (fetchAt s th (nextFetch s th)).2 with
       | .stall => true
       | _ => false))

/-- Turns of a thread among `k` slots from `a` on (R232). -/
def turnsIn (t : Fin 8) (a k : Nat) : Nat := ((List.range k).filter (fun i => (a + i) % 8 = t.val)).length

/-- The turns that threads in untimed waits spend in `k` slots (R234). -/
def waitTurns (s : State) (l : Fin 16) (k : Nat) : Nat :=
  let x := s.lathe l
  (threadsOf l).foldl (fun n th => if x.ten.getLsbD th.t.val && untimed s th then n + turnsIn th.t x.clock k else n) 0

/-- Slots of a core pass empty; the floating-point instructions complete whose latency they end, and in deterministic operation WTURN counts
turns spent in untimed waits (R220, R232, R234, R235, R239, R240). (DESIGN CHOICE: log entry 4) -/
def passSlots (s : State) (l : Fin 16) (k : Nat) : State :=
  let x := s.lathe l
  let w := if x.detact then waitTurns s l k else 0
  let s := s.setLathe l { x with slotcnt := x.slotcnt + BitVec.ofNat 36 k, clock := x.clock + k, wturn := satAdd x.wturn w }
  (threadsOf l).foldl (fun s th => s.modThr th (fun t => t.fpBy (x.clock + k))) s

/-- Whether slots of a core pass without an issue: no divide runs, and the device is not below L1. -/
def slotsRun (s : State) (l : Fin 16) : Bool := (s.lathe l).stall.isNone && s.pwr.rung.toNat < 2

/-- A core in which no thread can issue lets slots pass up to a thread's next turn, that turn included (R220, R232). -/
def idleSlots (s : State) (th : Th) : State :=
  let x := s.lathe th.l
  if slotsRun s th.l then passSlots s th.l (x.turnFrom th.t x.clock + 1 - x.clock) else s

/-! ## Issue (R219 to R223) -/

/-- Whether a fetch comparator halts the thread before its next instruction (R537). -/
def fetchHit (s : State) (th : Th) : Option Nat :=
  if (s.thr th).checked then none else comparatorMatch (s.lathe th.l) th.t 0 (s.thr th).pc []

/-- An instruction that a fetch comparator matches halts its thread before it executes (R537). -/
def fetchHalt (s : State) (th : Th) (n : Nat) : State := (comparatorHit s th n true).modThr th (fun t => { t with checked := true })

/-- A branch has been executed: the predictor learns how it went (R225). -/
def learn (s : State) (th : Th) (pc w : Word) (r : Res) : State :=
  if predBranch w then
    match r with
    | .jump a => predLearn s th pc a true
    | .seq => predLearn s th pc (pc + 1) false
    | _ => s
  else s

/-- Divides and square roots, vector issue and the multiplies of R202, of which none issues in a pair (R222). -/
def neverPairs (w : Word) : Bool :=
  let op := (wordOp w).toNat
  let fn := (wordFunc w).toNat
  w.extractLsb' 34 2 = 0b10 || op = 0o002 || (op = 0o003 && (fn = 0o010 || fn = 0o011))

/-- Branches, jumps, DBNZ, SYSCALL and the instructions of major opcodes 0o060 to 0o064, which are never first in a pair (R222). -/
def endsPair (w : Word) : Bool :=
  let op := (wordOp w).toNat
  (decide (0o040 ≤ op) && decide (op ≤ 0o046)) || (decide (0o050 ≤ op) && decide (op ≤ 0o052)) || (decide (0o060 ≤ op) && decide (op ≤ 0o064))

/-- Whether two consecutive instructions may issue in one slot (R222). -/
def pairFits (a b : Word) (da db : Deps) : Bool :=
  !endsPair a && !neverPairs a && !neverPairs b && !(da.mem && db.mem) &&
    da.writes.all (fun r => r = 0 || (!db.reads.contains r && !db.writes.contains r))

/-- Whether the instruction that now stands at the PC issues in the slot `n` of the one before it, of word `a` (R222): R222's conditions hold,
its registers have their values, and nothing that it does keeps it waiting. -/
def pairs (s : State) (th : Th) (a : Word) (da : Deps) (n : Nat) : Bool :=
  let t := s.thr th
  let x := s.lathe th.l
  match t.word with
  | none => false
  | some b =>
    let db := depsOf t b
    x.dual && !x.detact && pairFits a b da db && t.clearOf db && decide (t.regsFrom db ≤ n) &&
      x.stall.isNone && !t.halted && (fetchHit s th).isNone && !opHolds t (wordRun th b s).2

/-- The state at which the slot `n` of a thread's instruction comes: the slots before it have passed. The second instruction of a pair has the
slot of the first (R222). -/
def atIssue (s : State) (th : Th) (n : Nat) : State :=
  if (s.lathe th.l).pair.isSome then s.modLathe th.l (fun x => { x with pair := none }) else passSlots s th.l (n - (s.lathe th.l).clock)

/-- The state in which the operation of an instruction with the slot `n` is performed. -/
def inSlot (s : State) (th : Th) (n : Nat) : State :=
  if (s.lathe th.l).pair.isSome then countInstr (atIssue s th n) th else startSlot (atIssue s th n) th

/-- What an instruction has left, with what older ones were still to write in the same places taken away (R221). An exception and an instruction
that holds its thread write nothing there. -/
def afterOp (before : State) (th : Th) (w : Word) (r : State × Res) : State × Res :=
  let t0 := before.thr th
  match r.2 with
  | .exc _ => r
  | .excNext _ => r
  | .hold => r
  | .wait => r
  | _ => (r.1.modThr th (fun t => t.supersede t0 w (depsOf t0 w)), r.2)

/-- The end of an instruction with the slot `n`, by what its operation came to: the predictor learns of a branch, and the thread's next
instruction may follow in the same slot (R219, R222, R223, R225). -/
def completes (s : State) (th : Th) (w : Word) (n : Nat) (r : State × Res) : State :=
  let t := learn (finish th n (atIssue s th n) (afterOp (inSlot s th n) th w r)) th (s.thr th).pc w r.2
  if (s.lathe th.l).pair.isNone && r.2 = .seq && pairs t th w (depsOf ((atIssue s th n).thr th) w) n then
    t.modLathe th.l (fun x => { x with pair := some th.t })
  else t

/-- The issue of a thread's instruction in the slot `n`, unless a fetch comparator halts the thread first (R537). -/
def issueAt (s : State) (th : Th) (w : Word) (op : State → State × Res) (n : Nat) : State :=
  match fetchHit s th with
  | some c => fetchHalt (atIssue s th n) th c
  | none => completes s th w n (op (inSlot s th n))

/-- Whether a thread's slot is one in which its instruction issues: it takes no event and no trap there instead (R251, R266). -/
def issuesIn (s : State) (th : Th) (n : Nat) : Bool := !eventDue s th && !(s.thr th).trapBy n

/-- The slot of a thread's next instruction, where it is the one that its core issues next (R219, R220, R222, R232). -/
def nextSlot (s : State) (th : Th) : Option Nat :=
  match (s.lathe th.l).pair with
  | some t => if t = th.t then some (s.lathe th.l).slot else none
  | none => (nextIssuer s th.l).bind (fun x => if x.1 = th.t && issuesIn s th x.2 then some x.2 else none)

/-- What a row of an instruction that does not issue does to its core: with no thread to issue, slots pass; before a floating-point trap of its
own thread the slots up to it pass; and while another thread comes next nothing happens (R220, R232, R251). -/
def slotsBefore (s : State) (th : Th) : State :=
  if (s.lathe th.l).pair.isSome then s
  else match nextIssuer s th.l with
    | none => idleSlots s th
    | some (t, n) => if t = th.t && (s.thr th).trapBy n then passSlots s th.l (n - (s.lathe th.l).clock) else s

/-- The issue of one instruction of a thread: it issues where its thread is the one that issues next (R219, R220, R222, R232). (DESIGN CHOICE: log entries 4, 10) -/
def issue (th : Th) (w : Word) (op : State → State × Res) (s : State) : State :=
  match nextSlot s th with
  | some n => if (s.thr th).word = some w then issueAt s th w op n else s
  | none => slotsBefore s th

/-! ## Instruction fetch (R193, R197, R224, R227, R233) -/

/-- A fetch that another device or the local service answers delivers what it has; one from the host window waits for LOAD_COMPLETE. -/
def fetchArrives (s : State) (th : Th) (p : PendLoad) : State :=
  match areaOf p.pa with
  | .host _ => s
  | _ => endFetch s th p .error

/-- INSTRUCTION_FETCH_COMPLETE: the thread's next fetch, or the answer to one that is outstanding; an undefined word at the PC raises
ILLEGAL in its slot. (DEDUCED: log entry 11) -/
def fetchComplete (s : State) (th : Th) : State :=
  let t := s.thr th
  if (s.lathe th.l).locked then s
  else match (t.word).filter (fun w => (readInstr th w).isNone), t.fetchPend with
    | some w, _ => issue th w (fun s => (s, illegal w)) s
    | none, some p => fetchArrives s th p
    | none, none => fetchStep s th
def execInstructionFetchComplete (th : Th) (s : State) : Host.Outcome State Fault Refusal := .next (fetchComplete s th)

end Sys2Proof.Machine
end

