-- ==== Sys2Proof/Machine/Debug.lean ====
section
/-! DEFINITION. The debug port (R526 to R541): requests and their answers, authorisation, run control, access to the registers of a halted
thread, and the end of a session. -/
namespace Sys2Proof.Machine

/-! ## The port -/

/-- Whether the debug domain answers: powered, and not below L3 (R517, R530). (DEDUCED and DESIGN CHOICE: log entries 53, 54) -/
def portOn (s : State) : Bool := (s.pwr.main12 || s.pwr.mode = 1) && s.pwr.rung.toNat < 4

/-- The outcome of a request: its state, its status and the rest of its payload. -/
abbrev Answer := State × Octet × List Octet

def ok (s : State) (payload : List Octet := []) : Answer := (s, dbOK, payload)
def no (s : State) (status : Octet) : Answer := (s, status, [])

/-- A complete request that needs no session. -/
def openRequest (type : Nat) (f : State → Answer) (s : State) : State :=
  if !portOn s then s
  else
    let (s, st, p) := f { s with dbg := { s.dbg with frame := false, idle := 0 } }
    respond s type st p

/-- A complete request of an open session, which takes the next number; none while it cannot be performed yet, and it stays unanswered. (DEDUCED and DESIGN CHOICE: log entry 54) -/
def heldRequest (type : Nat) (f : State → Option Answer) (s : State) : State :=
  if !portOn s then s
  else if !s.dbg.opened then respond { s with dbg := { s.dbg with frame := false } } type dbNOAUTH []
  else match f { s with dbg := { s.dbg with frame := false, idle := 0, reqno := s.dbg.reqno + 1 } } with
    | none => s
    | some (s, st, p) => respond s type st p
def request (type : Nat) (f : State → Answer) (s : State) : State := heldRequest type (fun s => some (f s)) s

/-- A request directed at a lathe, within the token's scope (R529). -/
def onLathe (l : Fin 16) (f : State → Answer) (s : State) : Answer := if s.dbg.scope.getLsbD l.val then f s else no s dbDENIED

/-- A request directed at a halted thread. -/
def onHalted (th : Th) (f : State → Answer) (s : State) : Answer :=
  onLathe th.l (fun s => if (s.thr th).halted && (s.thr th).loads.isEmpty then f s else no s dbNOTHALT) s

/-! ## HELLO, CHAL, AUTH (R530 to R532) -/

/-- HELLO: DEVSN, the mode code and DBG_STAT. -/
def execHello (s : State) : Host.Outcome State Fault Refusal :=
  .next (openRequest 1 (fun s => ok s (leOctets 8 s.fus.devsn ++ [s.pwr.mode.setWidth 8] ++ wordOctets (dbgStatWord s))) s)

/-- CHAL: a fresh public key and nonce; an earlier challenge is discarded. -/
def chalRun (s : State) : Answer :=
  let (i, s) := s.takeFree
  ok { s with dbg := { s.dbg with chal := some (i, Config.freeNonce i) } } (Config.freePublicKey i ++ Config.freeNonce i)
def execChal (s : State) : Host.Outcome State Fault Refusal := .next (openRequest 2 chalRun s)

/-- What the token's signature covers. (DEDUCED and DESIGN CHOICE: log entry 54) -/
def tokenOctets (s : State) (i : Nat) (nonce : List Octet) (t : Token) : List Octet :=
  leOctets 8 s.fus.devsn ++ nonce ++ Config.freePublicKey i ++ t.pub ++ leOctets 2 t.scope ++ leOctets 4 t.expiry

/-- A session opens: TAINT, the DBGOPEN entry, and Open mode from Sealed or Deterministic (R532). -/
def openSession (s : State) (i : Nat) (nonce : List Octet) (t : Token) : State :=
  let n := s.dbg.sess + 1
  let s := { s with
    ts := { s.ts with taint := true }
    dbg := { s.dbg with opened := true, sess := n, scope := t.scope, expiry := t.expiry.toNat * 100000000, idle := 0, reqno := 0,
                        key := sha3 (Config.sharedSecret i t.pub ++ nonce) } }
  let s := commit s { kind := jDBGOPEN, code := n }
  if s.pwr.mode = 7 then changeMode (setDetAll s false) 6
  else if s.pwr.mode = 5 then changeMode s 6
  else s

/-- AUTH: a challenge serves one. (DEDUCED and DESIGN CHOICE: log entry 54) -/
def authRun (t : Token) (s : State) : Answer :=
  let c := s.dbg.chal
  let s := { s with dbg := { s.dbg with chal := none } }
  if s.pwr.mode = 10 || s.pwr.mode = 1 || s.fus.dbgdis then no s dbDENIED
  else match c with
    | none => no s dbDENIED
    | some (i, nonce) =>
      if t.expiry.toNat < 1 || t.expiry.toNat > 86400 || !Config.tokenSignatureOk (tokenOctets s i nonce t) t.sig then no s dbDENIED
      else if s.jnl.frozen || !s.jnl.resolved || !canCommit s then no s dbJNLBUSY
      else ok (openSession s i nonce t)
def execAuth (t : Token) (s : State) : Host.Outcome State Fault Refusal := .next (openRequest 3 (authRun t) s)

/-! ## HALT, RESUME, STEP (R533, R534) -/

def execHalt (l : Fin 16) (mask : BitVec 8) (s : State) : Host.Outcome State Fault Refusal :=
  .next (request 0o010 (onLathe l (fun s => ok ((maskThreads l mask).foldl (fun s th =>
    s.modThr th (fun t => if t.halted then t else { t with haltReq := true })) s))) s)

/-- HALT_TAKES_EFFECT: at a boundary at which an interrupt may be taken. -/
def haltTakesEffect (s : State) (th : Th) : State :=
  if (s.thr th).haltReq && s.atBoundary th then s.modThr th (fun t => { t with halted := true, haltReq := false }) else s
def execHaltTakesEffect (th : Th) (s : State) : Host.Outcome State Fault Refusal := .next (haltTakesEffect s th)

def resumeThread (s : State) (th : Th) : State := s.modThr th (fun t => { t with halted := false, haltReq := false })

def execResume (l : Fin 16) (mask : BitVec 8) (s : State) : Host.Outcome State Fault Refusal :=
  .next (request 0o011 (onLathe l (fun s => ok ((maskThreads l mask).foldl resumeThread s))) s)

/-- The next instruction of a running thread issues alone, where its thread is the one that issues next in the core (R219, R220, R232); none
where it cannot yet. A fetch that faults is the step. -/
def stepIssue (s : State) (th : Th) : Option State :=
  let t := s.thr th
  match t.word with
  | none => (match (fetchAt s th (nextFetch s th)).2 with
    | .fault _ => some (fetchStep s th)
    | _ => none)
  | some w => (nextSlot s th).map (fun n => (issueAt s th w (wordRun th w) n).modLathe th.l (fun x => { x with pair := none }))

/-- The word that a step is to issue is fetched, the thread staying halted; a fault is left to the step itself. -/
def stepFetch (s : State) (th : Th) : State :=
  let s1 := s.modThr th (fun t => { t with halted := false, haltReq := false })
  if (s.thr th).halted && (s.thr th).word.isNone && !eventDue s1 th then
    match (fetchAt s1 th (nextFetch s1 th)).2 with
    | .fault _ => s
    | _ => (fetchStep s1 th).modThr th (fun t => { t with halted := true })
  else s

/-- What one step of a thread comes to: the event that its boundary takes, the end of its wait, or its instruction; none while its core does not
come to it. -/
def stepThread (s : State) (th : Th) : Option State :=
  let t := s.thr th
  if t.trapReq then some (takeFpTrap (entryTurns s th) th t.pc)
  else if s.atBoundary th && t.pick.isSome then some (interruptEntry s th)
  else if s.atBoundary th && t.pickUser.isSome then some (upcall s th)
  else if t.waiting then some (waitWake s th)
  else if t.hold ≠ .free then some (fenceComplete s th)
  else stepIssue s th

/-- Whether a lathe's core can perform an instruction now. -/
def coreFree (s : State) (l : Fin 16) : Bool :=
  let x := s.lathe l
  x.stall.isNone && !x.locked && !x.drain && x.pair.isNone

/-- STEP: the thread performs one instruction and is halted again, in the handler if it entered one. (DEDUCED and DESIGN CHOICE: log entry 54) -/
def stepRun (th : Th) (s : State) : Option Answer :=
  if (onHalted th ok s).2.1 ≠ dbOK then some (onHalted th ok s)
  else if !coreFree s th.l then none
  else (stepThread (resumeThread s th) th).map (fun s => ok (s.modThr th (fun t => { t with halted := true, haltReq := false })))

/-- Whether a STEP may begin, so that its word is fetched while it waits. -/
def stepBegins (s : State) (th : Th) : Bool :=
  portOn s && s.dbg.opened && s.dbg.scope.getLsbD th.l.val && (s.thr th).halted && (s.thr th).loads.isEmpty && coreFree s th.l
def execStep (th : Th) (s : State) : Host.Outcome State Fault Refusal :=
  .next (heldRequest 0o012 (stepRun th) (if stepBegins s th then stepFetch s th else s))

/-! ## RDREG, WRREG (R535) -/

def selKind (x : RegSel) : Nat := fld x 12 4
def selNum (x : RegSel) : Nat := fld x 0 8

/-- Whether a selector names a register. -/
def selOk (x : RegSel) : Bool :=
  fld x 8 4 = 0 &&
    (match selKind x with
     | 0 => selNum x < 32
     | 1 => selNum x < 32
     | 2 => selNum x < 16
     | 3 => selNum x = 0
     | 4 => srAssigned (selNum x)
     | _ => false)

def rdreg (th : Th) (x : RegSel) (s : State) : Answer :=
  let t := s.thr th
  if !selOk x then no s dbBADREQ
  else match selKind x with
    | 0 => ok s (wordOctets (t.rg (BitVec.ofNat 5 (selNum x))))
    | 1 => ok s (leOctets 9 (t.rf (selNum x)))
    | 2 => let q := t.rd (selNum x); ok s (wordOctets q.w0 ++ wordOctets q.w1 ++ wordOctets q.w2 ++ wordOctets q.w3)
    | 3 => ok s (wordOctets t.pc)
    | _ => let (s, w) := srRead s th (selNum x); ok s (wordOctets w)
def execRdreg (th : Th) (x : RegSel) (s : State) : Host.Outcome State Fault Refusal := .next (request 0o013 (onHalted th (rdreg th x)) s)

/-- Words of a value: a double travels low word first (R529). -/
def selWords (x : RegSel) : Nat :=
  match selKind x with
  | 1 => 2
  | 2 => 4
  | _ => 1

/-- The thread with a register written; a new PC ends a wait, and after a change of the translation context the next instruction is fetched
anew (R277). (DEDUCED and DESIGN CHOICE: log entry 54) -/
def wrregThread (x : RegSel) (v : List Word) (t : Thread) : Thread :=
  let w (i : Nat) : Word := v.getD i 0
  match selKind x with
  | 0 => t.wg (BitVec.ofNat 5 (selNum x)) (w 0)
  | 1 => t.wf (selNum x) (mkD (w 1) (w 0))
  | 2 => t.wd (selNum x) { w0 := w 0, w1 := w 1, w2 := w 2, w3 := w 3 }
  | 3 => { t with waiting := false, hold := .free }.goto (w 0)
  | _ =>
    let t := t.srWrite 2 (selNum x) (w 0)
    if srContext (selNum x) then t.goto t.pc else t

def wrreg (th : Th) (x : RegSel) (v : List Word) (s : State) : Answer :=
  if !selOk x || v.length ≠ selWords x || (selKind x = 4 && !srWritable (selNum x)) then no s dbBADREQ
  else ok (s.modThr th (wrregThread x v))
def execWrreg (th : Th) (x : RegSel) (v : List Word) (s : State) : Host.Outcome State Fault Refusal :=
  .next (request 0o014 (onHalted th (wrreg th x v)) s)

/-! ## EXEC (R536) -/

/-- An access that EXEC started: completed at once where this device serves it, else outstanding and answered later; the state it leaves, with its
answer already given; none while it cannot be performed yet. -/
def execAccess (s' : State) (th : Th) (p : PendLoad) : Option State :=
  let far : Bool := match areaOf p.pa with
    | .host _ => true
    | .array d _ => d.toNat ≠ s'.devId
    | _ => false
  if far then some (s'.modThr th (fun t => { t with loads := [{ p with debug := true }] }))
  else (loadResult s' th p .error).map (fun (s'', ws) => endDebugLoad s'' th p ws)

/-- A fence that EXEC performs: done if what it waits for has come about. -/
def execFence (s s' : State) (th : Th) : Option State :=
  let t := s.thr th
  let s' := fenceComplete (s'.modThr th (fun t => { t with halted := false })) th
  if (s'.thr th).hold = .free then
    some (execDone (s'.modThr th (fun u =>
      { u with pc := t.pc, fetched := t.fetched, fetchPend := t.fetchPend, checked := t.checked, halted := true })))
  else none

/-- The slot of an instruction that EXEC performs: its thread's own next one from which its registers have their values, where its core comes to it
before the other threads' (R219, R220, R221, R232); none while it does not. -/
def execSlot (s : State) (th : Th) (w : Word) : Option Nat :=
  let n := readySlot s th (depsOf (s.thr th) w)
  match firstOf (s.lathe th.l) (fun t => if t = th.t then some n else slotOf s ⟨th.l, t⟩) with
  | some (t, _) => if t = th.t then some n else none
  | none => none

/-- An instruction performed in a halted thread in the slot `n`, without fetching and without changing the PC; one that would raise an exception
performs nothing. -/
def execInstr (s : State) (th : Th) (w : Word) (op : State → State × Res) (n : Nat) : Option State :=
  let s0 := startSlot (passSlots s th.l (n - (s.lathe th.l).clock)) th
  let (s', r) := afterOp s0 th w (op s0)
  let access : Option PendLoad := (s'.thr th).loads.head?
  match r with
  | .seq => (match access with
    | some p => execAccess s' th p
    | none => some (execDone s'))
  | .refetch => some (execDone (s'.modThr th (fun t => t.goto t.pc)))
  | .jump _ => some (respond s execTYPE dbBADREQ [])
  | .exc e => some (execExcept s e.cause)
  | .excNext e => some (execExcept s e.cause)
  | .wait => none
  | .hold => match access with
    | some p => execAccess s' th p
    | none => execFence s s' th

/-- EXEC of a word in a halted thread; none while the core or the instruction has to wait. (DEDUCED and DESIGN CHOICE: log entry 54) -/
def execWord (s : State) (th : Th) (w : Word) : Option State :=
  if !coreFree s th.l then none
  else match readInstr th w with
    | none => some (execExcept s .illegal)
    | some i =>
      if execRefused i then some (respond s execTYPE dbBADREQ [])
      else match coreOp i with
        | none => some (respond s execTYPE dbBADREQ [])
        | some op => (execSlot s th w).bind (execInstr s th w op)

def execRun1 (s : State) (th : Th) (w : Word) : State :=
  if !portOn s then s
  else if !s.dbg.opened then respond { s with dbg := { s.dbg with frame := false } } execTYPE dbNOAUTH []
  else
    let s1 := { s with dbg := { s.dbg with frame := false, idle := 0, reqno := s.dbg.reqno + 1 } }
    if !s.dbg.scope.getLsbD th.l.val then respond s1 execTYPE dbDENIED []
    else if !(s.thr th).halted || !(s.thr th).loads.isEmpty then respond s1 execTYPE dbNOTHALT []
    else (execWord s1 th w).getD s
def execExec (th : Th) (w : Word) (s : State) : Host.Outcome State Fault Refusal := .next (execRun1 s th w)

/-! ## RDCSR, WRCSR, RESETREQ -/

def rdcsr (a : Word) (s : State) : Answer :=
  match areaOf a.toNat with
  | .regs off => let (s, w) := regRead s .debugPort off; ok s (wordOctets w)
  | _ => no (noPath s .debugPort false a.toNat) dbBUSERR
def execRdcsr (a : Word) (s : State) : Host.Outcome State Fault Refusal := .next (request 0o020 (rdcsr a) s)

def wrcsr (a w : Word) (s : State) : Answer :=
  match areaOf a.toNat with
  | .regs off => (match regWrite s .debugPort off w with
    | some s => ok s
    | none => no s dbBUSERR)
  | _ => no (noPath s .debugPort true a.toNat) dbBUSERR
def execWrcsr (a w : Word) (s : State) : Host.Outcome State Fault Refusal := .next (request 0o021 (wrcsr a w) s)

/-- RESETREQ is answered before the reset starts. (DEDUCED and DESIGN CHOICE: log entry 54) -/
def execResetreq (level : BitVec 8) (s : State) : Host.Outcome State Fault Refusal :=
  .next (let good : Bool := portOn s && s.dbg.opened
         let s := request 0o030 (fun s => if level = 1 || level = 2 then ok s else no s dbBADREQ) s
         if good && level = 1 then startReset s .system 14
         else if good && level = 2 then startReset s .core 14
         else s)

/-! ## The end of a session (R538) -/

/-- Every halted thread resumes, every comparator is disabled, and HOR is cleared. -/
def endSession (s : State) : State :=
  { s with
    threads := tmapVals {} (fun t => { t with halted := false, haltReq := false }) s.threads
    lathes := tmapVals {} (fun x => { x with hor := false, cmps := tmapVals {} (fun c => { c with en := false }) x.cmps }) s.lathes
    dbg := { s.dbg with opened := false, scope := 0, expiry := 0, idle := 0, reqno := 0, key := [] } }

/-- CLOSE is answered in the session it ends. -/
def execClose (s : State) : Host.Outcome State Fault Refusal :=
  .next (let good : Bool := portOn s && s.dbg.opened
         let s := request 0o031 (fun s => ok s) s
         if good then endSession s else s)

/-- BAD_REQUEST_FRAME: answered with its status and not performed (R528). The command does not carry the frame's TYPE: a free value.
Only a request whose TAG holds takes its number. (DESIGN CHOICE: log entry 16) -/
def badRequest (s : State) (why : BadFrame) : State :=
  if !portOn s then s
  else
    let (i, s) := { s with dbg := { s.dbg with frame := false } }.takeFree
    let type := 4 + Config.freeNat i % 124
    let n := s.dbg.reqno
    let st : Octet := match why with | .crc => dbBADCRC | .tag => dbBADTAG | .type => dbBADREQ
    let s := respond { s with dbg := { s.dbg with reqno := n + 1 } } type st []
    if why = .type && s.dbg.opened then s else { s with dbg := { s.dbg with reqno := n } }
def execBadRequestFrame (why : BadFrame) (s : State) : Host.Outcome State Fault Refusal := .next (badRequest s why)

end Sys2Proof.Machine
end

