-- ==== Sys2Proof/Machine/Clock.lean ====
section
/-! DEFINITION. The clock of the timebase domain (R13, R15): what a tick captures, what is due at it and acts, the passing of many ticks, and
the commands that stand for the end of a time, each of which lets what remains of that time pass. -/
namespace Sys2Proof.Machine

/-! ## What a tick captures (R15) -/

/-- A timer once the tick has captured what waits for it; a start of no count is over at once (R361, R366). (DEDUCED: log entry 9) -/
def Tmr.capture (x : Tmr) : Tmr :=
  let x := { x with per := x.perAsk.getD x.per, reload := x.reloadAsk.getD x.reload, perAsk := none, reloadAsk := none }
  match x.ask with
  | none => x
  | some false => { x with ask := none, run := false }
  | some true => { x with ask := none, count := x.reload, run := decide (x.reload ≠ 0) }

/-- Whether a tick has something to capture for a timer. -/
def Tmr.asked (x : Tmr) : Bool := x.ask.isSome || x.perAsk.isSome || x.reloadAsk.isSome

/-- Whether the start that waits for a timer fires at once (R366). -/
def Tmr.firesAtOnce (x : Tmr) : Bool := x.ask = some true && x.reloadAsk.getD x.reload = 0

/-- A thread once the tick has captured a write of MWDOG; one that leaves EN = 1 with COUNT = 0 sets the line at that tick (R274). -/
def Thread.capture (t : Thread) : Thread :=
  match t.mwdAsk with
  | none => t
  | some w =>
    let n := w.extractLsb' 0 30
    let t := { t with mwdAsk := none, mwdJob := false, mwdEn := w.getLsbD 35, mwdCount := n, mwdRun := w.getLsbD 35 && n ≠ 0 }
    if t.mwdEn && n = 0 then { t with m := { t.m with ip := setBit t.m.ip 15 true } } else t

/-- The timers of the event fabric of which a property holds. -/
def timersWith (s : State) (p : Tmr → Bool) : List Nat := (s.evf.tmr.filter (fun x => p x.2)).map Prod.fst

/-- A cell, and an event pin, once the tick has captured what was written into their filters and pulses. -/
def Lut.capture (x : Lut) : Lut := { x with filt := x.filtAsk.getD x.filt, filtAsk := none }
def Pin.capture (x : Pin) : Pin :=
  { x with filt := x.filtAsk.getD x.filt, width := x.widthAsk.getD x.width, filtAsk := none, widthAsk := none }

/-- A tick captures what was written into its domain, and the timebase takes a value that was written (R15, R274, R356, R361, R364, R367, R368,
R394, R492). -/
def captureAsks (s : State) : State :=
  { s with
    tb := s.ts.tbAsk.getD s.tb
    ts := { s.ts with tbAsk := none }
    fab := { s.fab with tmo := s.fab.tmoAsk.getD s.fab.tmo, tmoAsk := none }
    evf := { s.evf with tmr := tmapVals {} Tmr.capture s.evf.tmr, lut := tmapVals {} Lut.capture s.evf.lut
                        pins := tmapVals {} Pin.capture s.evf.pins }
    threads := tmapVals {} Thread.capture s.threads
    rst := if s.rst.kicked then { s.rst with kicked := false, hswdCount := 100000 } else s.rst }

/-- Whether the next tick captures something. -/
def asksWait (s : State) : Bool :=
  s.ts.tbAsk.isSome || s.rst.kicked || s.fab.tmoAsk.isSome || s.evf.tmr.any (fun x => x.2.asked) ||
    s.evf.lut.any (fun x => x.2.filtAsk.isSome) || s.evf.pins.any (fun x => x.2.filtAsk.isSome || x.2.widthAsk.isSome) ||
    s.threads.any (fun x => x.2.mwdAsk.isSome)

/-! ## When something is due -/

/-- The target whose arbiter has a key. -/
def keyTarget (k : Nat) : Target :=
  if k < 128 then .bank (Fin.ofNat 1024 (8 * k))
  else if k < 1040 then .scratch (Fin.ofNat 16 (k - 1024))
  else match k with
    | 1040 => .hsram
    | 1041 => .hsrom
    | 1042 => .regs
    | 1043 => .mram
    | 1044 => .staging
    | 1045 => .array
    | _ => .host

/-- Whether the handshake timeout of a held burst runs (R351). -/
def heldRuns (s : State) (k : Nat) (t : Transfer) : Bool := timeoutRuns s (keyTarget k) t

/-- The held bursts whose timeouts run, with their targets. -/
def heldTransfers (s : State) : List (Target × Transfer) :=
  s.fab.arb.filterMap (fun (k, a) => (a.held.filter (heldRuns s k)).map (fun t => (keyTarget k, t)))

/-- Which requests' timeouts run in a state (R351, R353). -/
def runsOf (s : State) : Runs :=
  { held := heldRuns s, part := restRuns s, load := PendLoad.asks s.devId,
    thr := fun i => (coreAsk s (keyThread i)).isSome, spn := fun k => (streamAsk s k).isSome }

/-- The ticks that remain of a limit, at least the next one. -/
def rest (limit now : Nat) : Nat := max 1 (limit - now)

/-- Whether a watchdog of a thread counts (R274, R533). -/
def Thread.mwdCounts (t : Thread) : Bool := t.mwdRun && !t.halted

/-- A cell whose filter counts: a direct cell follows at once, or stands in a forbidden loop (R364, R365). -/
def Lut.filters (x : Lut) : Bool := x.out != x.stored && x.filt ≠ 0

/-- An input pin whose filter counts (R367). -/
def Pin.filters (x : Pin) : Bool := !x.dir && x.raw != x.level

/-- A command whose deadline may end it (R425, R428). -/
def Slot.timed (x : Slot) : Bool := x.st = 2 || (x.st = 3 && !x.ended)

/-- The ticks until each thing that is due by itself in the event fabric (R364 to R369, R393). -/
def fabricTimes (s : State) : List Nat :=
  (s.evf.tmr.filter (fun x => x.2.run)).map (fun x => rest x.2.count.toNat 0) ++
  (s.evf.lut.filter (fun x => x.2.filters)).map (fun x => rest x.2.filt.toNat x.2.diff) ++
  (s.evf.pins.filter (fun x => x.2.filters)).map (fun x => rest x.2.filt.toNat x.2.diff) ++
  (s.evf.pins.filter (fun x => x.2.pulsing)).map (fun x => rest x.2.left 0) ++
  (if s.evf.ppsRaw = s.evf.pps then [] else [rest 5 s.evf.ppsDiff]) ++
  (if s.ts.locked || s.ts.ppsGood ≠ 0 then [rest (3 * ticksPerSecond) (sincePps s.ts)] else [])

/-- The ticks until each limit of an access ends (R59, R350, R353, R464). -/
def accessTimes (s : State) : List Nat :=
  (s.banks.filter (fun x => x.2.drain.isSome)).map (fun x => rest 100 x.2.drainTicks) ++
  (heldTransfers s).map (fun x => rest s.fab.tmo.toNat x.2.ticks) ++
  (asksOf s).map (fun a => rest s.fab.tmo.toNat a.ticks) ++
  (if s.fab.conv.isEmpty then [] else [1]) ++
  s.wov.ops.map (fun o => rest 400 o.ticks)

/-- The limit of an access at the MRAM port, in ticks, and that of a lockdown's final checkpoint (R400, R408). -/
def mramLimit : Nat := 10000
def lockdownLimit : Nat := 5000

/-- The ticks until each limit of the tailstock ends (R400, R408). -/
def tailTimes (s : State) : List Nat :=
  (if s.jnl.written < s.jnl.head then [rest mramLimit s.jnl.wrTicks] else []) ++
  (if s.jnl.ckptBusy.isEmpty then [] else [rest mramLimit s.jnl.ckTicks]) ++
  (if s.ts.pendingLock.isSome then [rest lockdownLimit s.ts.lockTicks] else [])

/-- The ticks until each watchdog, deadline and session ends (R263, R274, R428, R491, R492, R527, R538). -/
def watchTimes (s : State) : List Nat :=
  (s.threads.filter (fun x => x.2.mwdCounts)).map (fun x => rest x.2.mwdCount.toNat 0) ++
  (s.lathes.filter (fun x => x.2.locked)).map (fun x => rest 1000 x.2.lockTicks) ++
  (if headRuns s then (s.hs.slots.filter (fun x => x.2.timed)).map (fun x => rest (100 * cmdDeadline x.2.copy) x.2.ticks) else []) ++
  (if s.rst.hswdEn then [rest s.rst.hswdCount.toNat 0] else []) ++
  (if bootTimerRuns s then [rest (100000 * s.rst.remain.toNat) s.rst.remainSub] else []) ++
  (if s.dbg.frame then [rest 100001 s.dbg.gap] else []) ++
  (if s.dbg.opened then [rest s.dbg.expiry 0, rest 1000000000 s.dbg.idle] else [])

/-- The ticks until something is captured or due, and at most `k`. -/
def nextDue (s : State) (k : Nat) : Nat :=
  if asksWait s then 1 else (fabricTimes s ++ accessTimes s ++ tailTimes s ++ watchTimes s).foldl min k

/-! ## What acts -/

/-- Whether a timer has reached zero. -/
def Tmr.due (x : Tmr) : Bool := x.run && x.count = 0

/-- The cells whose stored bit has stood for FILT ticks, and the input pins whose level has (R364, R367). Cells of forbidden loops are not
among them. -/
def cellsDue (s : State) : List (Nat × Bool) :=
  (s.evf.lut.filter (fun x => x.2.out != x.2.stored && decide (x.2.filt.toNat ≤ x.2.diff) && !lutLoops s x.1)).map (fun x => (x.1, x.2.stored))
def pinsDue (s : State) : List (Nat × Bool) :=
  (s.evf.pins.filter (fun x => x.2.filters && decide (x.2.filt.toNat ≤ x.2.diff))).map (fun x => (x.1, x.2.raw))

/-- Timers that have reached zero reload or stop (R366). A periodic timer whose RELOAD is zero stands at zero and fires at each tick.
(DEDUCED: log entry 9) -/
def timersReload (s : State) : State :=
  { s with evf := { s.evf with tmr := tmapVals {} (fun x =>
      if x.due then (if x.per then { x with count := x.reload } else { x with run := false }) else x) s.evf.tmr } }

/-- The outputs and levels whose filters have run follow (R364, R367, R369). -/
def levelsFollow (cells pins : List (Nat × Bool)) (pps : Option Bool) (s : State) : State :=
  let s := cells.foldl (fun s x => s.modLut x.1 (fun y => { y with out := x.2, diff := 0 })) s
  let s := pins.foldl (fun s x => pinTo s x.1 x.2) s
  match pps with
  | some b => ppsTo s b
  | none => s

/-- The producers of the timebase domain that occur at a tick do so in one window: the timers named, timers that reached zero, and the filters of
cells, pins and PPS (R15, R362, R364, R366, R367, R369). -/
def producersAct (fires : List Nat) (s : State) : State :=
  let ts := fires ++ timersWith s Tmr.due
  let cells := cellsDue s
  let pins := pinsDue s
  let pps := if s.evf.ppsRaw != s.evf.pps && decide (5 ≤ s.evf.ppsDiff) then some s.evf.ppsRaw else none
  let s := levelsFollow cells pins pps (timersReload s)
  let moves := cells.map (fun x => (pselLut x.1, x.2)) ++ pins.map (fun x => (pselPin x.1, x.2)) ++ pps.toList.map (fun b => (pselPps, b))
  if ts.isEmpty && moves.isEmpty then s else occur s moves (ts.map pselTimer)

/-- Pulses that have run their ticks end (R368). -/
def pulsesAct (s : State) : State :=
  { s with evf := { s.evf with pins := tmapVals {} (fun x =>
      if x.pulsing && x.left = 0 then { x with pulsing := false, drive := false } else x) s.evf.pins } }

/-- 300,000,000 ticks without an edge end the lock (R393). -/
def ppsLost (s : State) : State :=
  if decide (3 * ticksPerSecond ≤ sincePps s.ts) then { s with ts := { s.ts with locked := false, ppsGood := 0 } } else s

/-- Thread watchdogs that reached zero set their lines and stop (R274); those that a RUN command armed with its deadline end it (R428). -/
def watchdogsAct (s : State) : State :=
  let out (t : Thread) : Bool := t.mwdCounts && t.mwdCount = 0
  let jobs := (s.hs.slots.filter (fun x => match x.2.job with
    | some j => (lathesOf j.left).any (fun l => let t := s.thr ⟨l, 0⟩; out t && t.mwdJob)
    | none => false)).map (fun x => keySlot x.1)
  let s := { s with threads := tmapVals {} (fun t =>
      if out t then { t with mwdRun := false, mwdJob := false, m := { t.m with ip := setBit t.m.ip 15 true } } else t) s.threads }
  jobs.foldl (fun s r => stopCmd s r ceDEADLINE stDEADLINE) s

/-- Held bursts that have moved no quad for TMO ticks end with their paths (R353). -/
def heldAct (s : State) : State :=
  (heldTransfers s).foldl (fun s (tgt, t) =>
    if decide (s.fab.tmo.toNat ≤ t.ticks) then transferFails (fabricError s t.b.m true t.b.write t.b.addr.toNat) tgt t else s) s

/-- Requests that have had no acknowledgement for TMO ticks end; one that an earlier end has taken with it has ended already (R353). -/
def asksAct (s : State) : State :=
  ((asksOf s).filter (fun a => decide (s.fab.tmo.toNat ≤ a.ticks))).foldl (fun s a =>
    if (asksOf s).contains a then requestTimesOut s a.m a.pa a.write else s) s

/-- Drains that have run 1 µs end with the bank's watchdog; of the requests outstanding State holds the cores' and the held burst's (R59).
(DESIGN CHOICE: log entry 29) -/
def drainsAct (s : State) : State :=
  (s.banks.filter (fun x => x.2.drain.isSome && decide (100 ≤ x.2.drainTicks))).foldl (fun s x => drainTimesOut s x.1 (coresAt s x.1)) s

/-- Remote operations end 4 µs after their issue (R464). -/
def remotesAct (s : State) : State :=
  (s.wov.ops.filter (fun o => decide (400 ≤ o.ticks))).foldl (fun s o => remoteTimeout s o.tag) s

/-- Commands whose deadlines have expired (R425, R428). -/
def deadlinesAct (s : State) : State :=
  if !headRuns s then s
  else (s.hs.slots.filter (fun x => x.2.timed && decide (100 * cmdDeadline x.2.copy ≤ x.2.ticks))).foldl (fun s x =>
    if (s.slot (keySlot x.1)).timed then deadlineActs s (keySlot x.1) else s) s

/-- 10 µs after a lathe core locks, its reset (R263, R480). -/
def lockupsAct (s : State) : State :=
  (s.lathes.filter (fun x => x.2.locked && decide (1000 ≤ x.2.lockTicks))).foldl (fun s x => latheReset s (Fin.ofNat 16 x.1) 15) s

/-- The debug session at the token's expiry, or 10 s after its last valid request (R538). -/
def sessionAct (s : State) : State :=
  if s.dbg.opened && (s.dbg.expiry = 0 || decide (1000000000 ≤ s.dbg.idle)) then endSession s else s

/-- The boot timer (R491). -/
def bootAct (s : State) : State := if bootTimerRuns s && s.rst.remain = 0 then startReset s .system 10 else s

/-- The headstock watchdog. With `kept`, firmware that runs has kicked it in time (R492). (DESIGN CHOICE: log entry 9) -/
def headWatchAct (kept : Bool) (s : State) : State :=
  if !s.rst.hswdEn || s.rst.hswdCount ≠ 0 then s
  else if kept && !s.hs.locked && !s.hs.halted then { s with rst := { s.rst with hswdCount := 100000 } }
  else hswdExpire s

/-- MRAM writes of the tailstock that have reached the limit are presented again: the staging buffer keeps the entry, and the head stands
(R400). -/
def mramRetries (s : State) : State :=
  { s with jnl := { s.jnl with
    wrTicks := if mramLimit ≤ s.jnl.wrTicks then 0 else s.jnl.wrTicks
    ckTicks := if mramLimit ≤ s.jnl.ckTicks then 0 else s.jnl.ckTicks } }

/-- 50 µs after its detection a lockdown proceeds without its final checkpoint (R408). -/
def lockdownAct (s : State) : State := if decide (lockdownLimit ≤ s.ts.lockTicks) then wrapKeyZeroise s else s

/-- More than 100,000 ticks of high time inside a frame abandon it (R527). -/
def frameAct (s : State) : State := if s.dbg.frame && decide (100000 < s.dbg.gap) then dropFrame s else s

/-- What acts at a tick, in one order, after the timers that fire at their start. (DESIGN CHOICE: log entry 2) -/
def actDue (kept : Bool) (fires : List Nat) (s : State) : State :=
  headWatchAct kept (bootAct (lockdownAct (frameAct (sessionAct (lockupsAct (deadlinesAct (settleJobs (remotesAct (drainsAct (asksAct (heldAct
    (watchdogsAct (ppsLost (mramRetries (pulsesAct (producersAct fires s))))))))))))))))

/-! ## The passing of ticks -/

/-- `k` ticks pass of which only the last captures or brings anything due; `f` is what else happens at it. -/
def ticksTo (kept : Bool) (k : Nat) (f : State → State) (s : State) : State :=
  let s := countTicks s k (runsOf s)
  actDue kept (timersWith s Tmr.firesAtOnce) (f (captureAsks s))

/-- `k` ticks pass, from one at which something is due to the next; the fuel is `k` too. -/
def passTicks (kept : Bool) : Nat → Nat → State → State
  | 0, _, s => s
  | _ + 1, 0, s => s
  | fuel + 1, k + 1, s =>
    let d := max 1 (nextDue s (k + 1))
    passTicks kept fuel (k + 1 - d) (ticksTo kept d id s)

/-- Some ticks pass while the device is powered; firmware kicks its watchdog in them. (DESIGN CHOICE: log entry 9) -/
def pass (k : Nat) (s : State) : State := if s.pwr.main12 then passTicks true k k s else s

/-- What the next tick captures is captured, if anything waits for it. -/
def captureNow (s : State) : State := if asksWait s then pass 1 s else s

/-! ## The commands that end a time -/

/-- TIMER: what remains of a running timer's count (R366). (DESIGN CHOICE: log entry 9) -/
def timerExpire (s : State) (t : Nat) : State :=
  let s := captureNow s
  if (s.tmr t).run then pass (rest (s.tmr t).count.toNat 0) s else s
def execTimer (t : Fin 16) (s : State) : Host.Outcome State Fault Refusal := .next (timerExpire s t.val)

/-- LUT_FILTER_EXPIRY: what remains of the filter of a cell whose stored bit differs from OUT (R364). -/
def lutFilterExpiry (s : State) (n : Nat) : State :=
  if (s.lut n).filters then pass (rest (s.lut n).filt.toNat (s.lut n).diff) s else s
def execLutFilterExpiry (n : Fin 32) (s : State) : Host.Outcome State Fault Refusal := .next (lutFilterExpiry s n.val)

/-- EVENT_PIN: the ball of an event pin goes to a level, from which its filter counts; where the ball stands there already, what remains of the
filter passes, after which an input's level follows (R367, R520). (DESIGN CHOICE: log entry 7) -/
def eventPin (s : State) (p : Nat) (b : Bool) : State :=
  let x := s.epin p
  if x.raw != b then
    let s := s.modPin p (fun x => { x with raw := b, diff := 0 })
    if x.dir || x.filt ≠ 0 || x.level = b then s else occur (pinTo s p b) [(pselPin p, b)] []
  else if x.filters then pass (rest x.filt.toNat x.diff) s
  else s
def execEventPin (p : Fin 16) (b : Bool) (s : State) : Host.Outcome State Fault Refusal :=
  .next (let edge : Bool := !(s.epin p.val).dir && (s.epin p.val).raw != b
         eventPin (if edge then wake s (.eventPin p) else s) p.val b)

/-- PIN_PULSE_END: what remains of the pulse that an output pin drives (R368). -/
def pinPulseEnd (s : State) (p : Nat) : State := if (s.epin p).pulsing then pass (rest (s.epin p).left 0) s else s
def execPinPulseEnd (p : Fin 16) (s : State) : Host.Outcome State Fault Refusal := .next (pinPulseEnd s p.val)

/-- PPS: the pin goes to a level, from which its filter counts; where it stands there already, what remains of the filter passes, after which
the level follows (R369, R393). (DESIGN CHOICE: log entry 7) -/
def ppsLevel (s : State) (b : Bool) : State :=
  if s.evf.ppsRaw != b then { s with evf := { s.evf with ppsRaw := b, ppsDiff := 0 } }
  else if s.evf.pps = b then s
  else pass (rest 5 s.evf.ppsDiff) s
def execPps (b : Bool) (s : State) : Host.Outcome State Fault Refusal := .next (ppsLevel s b)

/-- PPS_TIMEOUT: what remains of 300,000,000 ticks with no edge (R393). (DESIGN CHOICE: log entry 9) -/
def ppsTimeout (s : State) : State := pass (rest (3 * ticksPerSecond) (sincePps s.ts)) s
def execPpsTimeout (s : State) : Host.Outcome State Fault Refusal := .next (ppsTimeout s)

/-- MWDOG: what remains of a thread's watchdog (R274). (DEDUCED and DESIGN CHOICE: log entries 9, 19) -/
def mwdogExpire (s : State) (th : Th) : State :=
  let s := captureNow s
  if (s.thr th).mwdCounts then pass (rest (s.thr th).mwdCount.toNat 0) s else s
def execMwdog (th : Th) (s : State) : Host.Outcome State Fault Refusal := .next (mwdogExpire s th)

/-- LOCKUP: what remains of the 10 µs after a lathe core locked (R263). -/
def lockupReset (s : State) (l : Fin 16) : State := if (s.lathe l).locked then pass (rest 1000 (s.lathe l).lockTicks) s else s
def execLockup (l : Fin 16) (s : State) : Host.Outcome State Fault Refusal := .next (lockupReset s l)

/-- HSWDOG: what remains of the headstock watchdog's count passes without a kick, and it expires (R492). (DESIGN CHOICE: log entry 9) -/
def hswdog (s : State) : State :=
  let s := captureNow s
  if s.rst.hswdEn && s.pwr.main12 then passTicks false (rest s.rst.hswdCount.toNat 0) (rest s.rst.hswdCount.toNat 0) s else s
def execHswdog (s : State) : Host.Outcome State Fault Refusal := .next (hswdog s)

/-- HSLOCK: the watchdog expires while the headstock is locked (R480). -/
def execHslock (s : State) : Host.Outcome State Fault Refusal := .next (if s.hs.locked then hswdog s else s)

/-- BOOTTMO: what remains of the boot timer (R491). (DESIGN CHOICE: log entry 9) -/
def bootTimeout (s : State) : State := if bootTimerRuns s then pass (rest (100000 * s.rst.remain.toNat) s.rst.remainSub) s else s
def execBoottmo (s : State) : Host.Outcome State Fault Refusal := .next (bootTimeout s)

/-- COMMAND_DEADLINE: what remains of the deadline of a RUNNING or DELAYED command (R425, R428). (DESIGN CHOICE: log entry 9) -/
def commandDeadline (s : State) (r : SlotRef) : State :=
  if (s.slot r).timed then pass (rest (100 * cmdDeadline (s.slot r).copy) (s.slot r).ticks) s else s
def execCommandDeadline (r : SlotRef) (s : State) : Host.Outcome State Fault Refusal := .next (commandDeadline s r)

/-- REMOTE_TIMEOUT: what remains of an operation's 4 µs (R464). -/
def remoteExpire (s : State) (tag : Nat) : State :=
  match s.wov.ops.find? (fun o => o.tag = tag) with
  | some o => pass (rest 400 o.ticks) s
  | none => s
def execRemoteTimeout (tag : Nat) (s : State) : Host.Outcome State Fault Refusal := .next (remoteExpire s tag)

/-- SESSION_EXPIRY: what remains of the token's life, or of 10 s without a valid request (R538). (DESIGN CHOICE: log entry 9) -/
def sessionExpiry (s : State) : State := if s.dbg.opened then pass (min (rest s.dbg.expiry 0) (rest 1000000000 s.dbg.idle)) s else s
def execSessionExpiry (s : State) : Host.Outcome State Fault Refusal := .next (sessionExpiry s)

/-- FRAME_TIMEOUT: what remains of more than 100,000 ticks inside a frame, which is abandoned (R527). -/
def frameTimeout (s : State) : State := if s.dbg.frame then pass (rest 100001 s.dbg.gap) s else s
def execFrameTimeout (s : State) : Host.Outcome State Fault Refusal := .next (frameTimeout s)

/-- PIN: a low pulse of the reset/debug ball, whose ticks pass, up to the 2,000 at which it is a reset; the high time inside a frame begins anew
after it (R480, R526, R527). -/
def pinTicks (s : State) (n : Nat) : State :=
  let low (s : State) : State := { s with dbg := { s.dbg with gap := 0 } }
  pinPulse (low (pass (min n 2000) (low s))) n
def execPin (n : Nat) (s : State) : Host.Outcome State Fault Refusal := .next (pinTicks s n)

/-- WRAP_KEY_ZEROISE: at once where the final checkpoint has frozen the journal, and otherwise at the end of the 50 µs (R408). -/
def zeroiseDue (s : State) : State :=
  if s.ts.pendingLock.isSome && !s.jnl.frozen then pass (rest lockdownLimit s.ts.lockTicks) s else wrapKeyZeroise s
def execWrapKeyZeroise (s : State) : Host.Outcome State Fault Refusal := .next (zeroiseDue s)

/-- TIMESET: the next tick captures the value, and the command ends (R15, R394). (DEDUCED: log entry 34) -/
def timesetRun (s : State) (r : SlotRef) (o : List Octet) : State :=
  let s := pass 1 { s with ts := { s.ts with tbAsk := some (timesetValue o) } }
  if (s.slot r).st = 3 && s.rst.inProgress.isNone then timesetEnds s r o else s
def execTimeset (r : SlotRef) (s : State) : Host.Outcome State Fault Refusal := .next (runCmd 0o043 r (fun o s => timesetRun s r o) s)

/-- MRAM_TIMEOUT: what remains of the 100 µs of a tailstock journal or checkpoint write passes, and it is presented again; a headstock write for a
command ends it with JOBFAIL; any other access is a control-path bus error, which halts its master. Of these two the model holds no
presentation: their whole limit passes (R318, R400, R492). (DESIGN CHOICE: log entry 56) -/
def mramTimeout (s : State) (op : MramOp) : State :=
  match op with
  | .journalWrite => if s.jnl.written < s.jnl.head then pass (rest mramLimit s.jnl.wrTicks) s else s
  | .checkpointWrite => if s.jnl.ckptBusy.isEmpty then s else pass (rest mramLimit s.jnl.ckTicks) s
  | .commandWrite r => if (s.slot r).st = 3 then commandWriteFails (pass mramLimit s) r else s
  | .headOther => (fun s => { s with hs := { s.hs with halted := true } }) (pass mramLimit s)
  | .tailOther => (fun s => { s with ts := { s.ts with halted := true } }) (pass mramLimit s)
def execMramTimeout (op : MramOp) (s : State) : Host.Outcome State Fault Refusal := .next (mramTimeout s op)

/-- FABRIC_TIMEOUT: what remains of the timeout of the burst that a master's request holds, or of its request that waits; a core's or stream's request
that has ended already does nothing more. Of the other masters State holds no request that waits: it has waited its ticks (R353). (DESIGN CHOICE:
log entry 9) -/
def fabricTimeout (s : State) (m : Master) (addr : Nat) (write : Bool) : State :=
  match (heldTransfers s).find? (fun x => x.2.b.m = m && x.2.b.write = write) with
  | some x => pass (rest s.fab.tmo.toNat x.2.ticks) s
  | none => match askAt s m addr write with
    | some a => pass (rest s.fab.tmo.toNat a.ticks) s
    | none => if tracked m then s else requestTimesOut s m addr write
def execFabricTimeout (m : Master) (addr : BitVec 34) (write : Bool) (s : State) : Host.Outcome State Fault Refusal :=
  .next (settleJobs (fabricTimeout s m addr.toNat write))

/-- BANK_WATCHDOG: what remains of a drain's 1 µs, at whose end the requests outstanding at the bank end with bus errors (R59). -/
def bankWatchdog (s : State) (n : Nat) (outstanding : List Master) : State :=
  if (s.bank n).drain.isNone || !s.pwr.main12 then s
  else ticksTo true 1 (fun s => drainTimesOut s n outstanding) (pass (rest 100 (s.bank n).drainTicks - 1) s)
def execBankWatchdog (n : Fin 1024) (outstanding : List Master) (s : State) : Host.Outcome State Fault Refusal :=
  .next (resumeWaiting (settleJobs (bankWatchdog s n.val outstanding)))

end Sys2Proof.Machine
end

