-- ==== Sys2Proof/Machine/Instrs.lean ====
section
/-! DEFINITION. The instructions of a lathe core as commands: each is the issue of its own word and operation by its thread (R198, R219). -/
namespace Sys2Proof.Machine

/-- The issue of a format T instruction. -/
def issueT (op : BitVec 8) (func : BitVec 7) (body : Th → BitVec 7 → TFld → State → State × Res) (th : Th) (f : TFld)
    (s : State) : Host.Outcome State Fault Refusal :=
  .next (issue th (packT op func f) (body th func f) s)

/-- The issue of a format I instruction. -/
def issueI (op : BitVec 8) (body : Th → IFld → State → State × Res) (th : Th) (f : IFld) (s : State) :
    Host.Outcome State Fault Refusal :=
  .next (issue th (packI op f) (body th f) s)

/-! ## Integer operations (R199, R200) -/

def execAdd (th : Th) (f : TFld) (s : State) : Host.Outcome State Fault Refusal := issueT 1 0o000 opAdd th f s
def execSub (th : Th) (f : TFld) (s : State) : Host.Outcome State Fault Refusal := issueT 1 0o001 opSub th f s
def execAndG (th : Th) (f : TFld) (s : State) : Host.Outcome State Fault Refusal := issueT 1 0o002 opAnd th f s
def execOrG (th : Th) (f : TFld) (s : State) : Host.Outcome State Fault Refusal := issueT 1 0o003 opOr th f s
def execXorG (th : Th) (f : TFld) (s : State) : Host.Outcome State Fault Refusal := issueT 1 0o004 opXor th f s
def execAndn (th : Th) (f : TFld) (s : State) : Host.Outcome State Fault Refusal := issueT 1 0o005 opAndn th f s
def execShl (th : Th) (f : TFld) (s : State) : Host.Outcome State Fault Refusal := issueT 1 0o010 opShl th f s
def execShr (th : Th) (f : TFld) (s : State) : Host.Outcome State Fault Refusal := issueT 1 0o011 opShr th f s
def execShra (th : Th) (f : TFld) (s : State) : Host.Outcome State Fault Refusal := issueT 1 0o012 opShra th f s
def execRol (th : Th) (f : TFld) (s : State) : Host.Outcome State Fault Refusal := issueT 1 0o013 opRol th f s
def execSlt (th : Th) (f : TFld) (s : State) : Host.Outcome State Fault Refusal := issueT 1 0o020 opSlt th f s
def execSltu (th : Th) (f : TFld) (s : State) : Host.Outcome State Fault Refusal := issueT 1 0o021 opSltu th f s
def execSeq (th : Th) (f : TFld) (s : State) : Host.Outcome State Fault Refusal := issueT 1 0o022 opSeq th f s
def execMinG (th : Th) (f : TFld) (s : State) : Host.Outcome State Fault Refusal := issueT 1 0o023 opMin th f s
def execMaxG (th : Th) (f : TFld) (s : State) : Host.Outcome State Fault Refusal := issueT 1 0o024 opMax th f s
def execMinu (th : Th) (f : TFld) (s : State) : Host.Outcome State Fault Refusal := issueT 1 0o025 opMinu th f s
def execMaxu (th : Th) (f : TFld) (s : State) : Host.Outcome State Fault Refusal := issueT 1 0o026 opMaxu th f s
def execClz (th : Th) (f : TFld) (s : State) : Host.Outcome State Fault Refusal := issueT 1 0o030 opClz th f s
def execPopc (th : Th) (f : TFld) (s : State) : Host.Outcome State Fault Refusal := issueT 1 0o031 opPopc th f s
def execAddi (th : Th) (f : IFld) (s : State) : Host.Outcome State Fault Refusal := issueI 0o010 opAddi th f s
def execAndi (th : Th) (f : IFld) (s : State) : Host.Outcome State Fault Refusal := issueI 0o011 opAndi th f s
def execOri (th : Th) (f : IFld) (s : State) : Host.Outcome State Fault Refusal := issueI 0o012 opOri th f s
def execXori (th : Th) (f : IFld) (s : State) : Host.Outcome State Fault Refusal := issueI 0o013 opXori th f s
def execSlti (th : Th) (f : IFld) (s : State) : Host.Outcome State Fault Refusal := issueI 0o014 opSlti th f s
def execSltiu (th : Th) (f : IFld) (s : State) : Host.Outcome State Fault Refusal := issueI 0o015 opSltiu th f s
def execShifti (th : Th) (f : IFld) (s : State) : Host.Outcome State Fault Refusal := issueI 0o016 opShifti th f s
def execLui (th : Th) (f : IFld) (s : State) : Host.Outcome State Fault Refusal := issueI 0o017 opLui th f s

/-! ## Multiply and divide (R202) -/

def execMul (th : Th) (f : TFld) (s : State) : Host.Outcome State Fault Refusal := issueT 2 0o000 opMul th f s
def execMulu (th : Th) (f : TFld) (s : State) : Host.Outcome State Fault Refusal := issueT 2 0o001 opMulu th f s
def execMadd (th : Th) (f : TFld) (s : State) : Host.Outcome State Fault Refusal := issueT 2 0o002 opMadd th f s
def execMaddu (th : Th) (f : TFld) (s : State) : Host.Outcome State Fault Refusal := issueT 2 0o003 opMaddu th f s
def execDiv (th : Th) (f : TFld) (s : State) : Host.Outcome State Fault Refusal := issueT 2 0o010 opDiv th f s
def execDivu (th : Th) (f : TFld) (s : State) : Host.Outcome State Fault Refusal := issueT 2 0o011 opDivu th f s
def execRem (th : Th) (f : TFld) (s : State) : Host.Outcome State Fault Refusal := issueT 2 0o012 opRem th f s
def execRemu (th : Th) (f : TFld) (s : State) : Host.Outcome State Fault Refusal := issueT 2 0o013 opRemu th f s

/-! ## Loads, stores, descriptor transfers, SYSCALL (R207, R216) -/

def execLw (th : Th) (f : IFld) (s : State) : Host.Outcome State Fault Refusal := issueI 0o020 opLw th f s
def execLn (th : Th) (f : IFld) (s : State) : Host.Outcome State Fault Refusal := issueI 0o021 opLn th f s
def execLfs (th : Th) (f : IFld) (s : State) : Host.Outcome State Fault Refusal := issueI 0o022 opLfs th f s
def execLf (th : Th) (f : IFld) (s : State) : Host.Outcome State Fault Refusal := issueI 0o023 opLf th f s
def execLdd (th : Th) (f : IFld) (s : State) : Host.Outcome State Fault Refusal := issueI 0o031 opLdd th f s
def execSw (th : Th) (f : IFld) (s : State) : Host.Outcome State Fault Refusal := issueI 0o024 opSw th f s
def execSn (th : Th) (f : IFld) (s : State) : Host.Outcome State Fault Refusal := issueI 0o025 opSn th f s
def execSfs (th : Th) (f : IFld) (s : State) : Host.Outcome State Fault Refusal := issueI 0o026 opSfs th f s
def execSf (th : Th) (f : IFld) (s : State) : Host.Outcome State Fault Refusal := issueI 0o027 opSf th f s
def execSwm (th : Th) (f : IFld) (s : State) : Host.Outcome State Fault Refusal := issueI 0o030 opSwm th f s
def execStdd (th : Th) (f : IFld) (s : State) : Host.Outcome State Fault Refusal := issueI 0o032 opStdd th f s
def execMtd (th : Th) (f : IFld) (s : State) : Host.Outcome State Fault Refusal := issueI 0o033 opMtd th f s
def execMfd (th : Th) (f : IFld) (s : State) : Host.Outcome State Fault Refusal := issueI 0o034 opMfd th f s
def execSyscall (th : Th) (f : IFld) (s : State) : Host.Outcome State Fault Refusal := issueI 0o063 opSyscall th f s

/-! ## Control transfer (R210) -/

def execBeq (th : Th) (f : IFld) (s : State) : Host.Outcome State Fault Refusal := issueI 0o040 opBeq th f s
def execBne (th : Th) (f : IFld) (s : State) : Host.Outcome State Fault Refusal := issueI 0o041 opBne th f s
def execBlt (th : Th) (f : IFld) (s : State) : Host.Outcome State Fault Refusal := issueI 0o042 opBlt th f s
def execBge (th : Th) (f : IFld) (s : State) : Host.Outcome State Fault Refusal := issueI 0o043 opBge th f s
def execBltu (th : Th) (f : IFld) (s : State) : Host.Outcome State Fault Refusal := issueI 0o044 opBltu th f s
def execBgeu (th : Th) (f : IFld) (s : State) : Host.Outcome State Fault Refusal := issueI 0o045 opBgeu th f s
def execDbnz (th : Th) (f : IFld) (s : State) : Host.Outcome State Fault Refusal := issueI 0o046 opDbnz th f s
def execJal (th : Th) (off : BitVec 28) (s : State) : Host.Outcome State Fault Refusal :=
  .next (issue th (packJ 0o050 off) (opJal th off) s)
def execJ (th : Th) (off : BitVec 28) (s : State) : Host.Outcome State Fault Refusal :=
  .next (issue th (packJ 0o051 off) (opJ th off) s)
def execJalr (th : Th) (f : IFld) (s : State) : Host.Outcome State Fault Refusal := issueI 0o052 opJalr th f s

/-! ## Floating point (R212, R215) -/

def execFadd (th : Th) (f : TFld) (s : State) : Host.Outcome State Fault Refusal := issueT 3 0o000 opFadd th f s
def execFsub (th : Th) (f : TFld) (s : State) : Host.Outcome State Fault Refusal := issueT 3 0o001 opFsub th f s
def execFmul (th : Th) (f : TFld) (s : State) : Host.Outcome State Fault Refusal := issueT 3 0o002 opFmul th f s
def execFma (th : Th) (f : TFld) (s : State) : Host.Outcome State Fault Refusal := issueT 3 0o003 opFma th f s
def execFms (th : Th) (f : TFld) (s : State) : Host.Outcome State Fault Refusal := issueT 3 0o004 opFms th f s
def execFnma (th : Th) (f : TFld) (s : State) : Host.Outcome State Fault Refusal := issueT 3 0o005 opFnma th f s
def execFdiv (th : Th) (f : TFld) (s : State) : Host.Outcome State Fault Refusal := issueT 3 0o010 opFdiv th f s
def execFsqrt (th : Th) (f : TFld) (s : State) : Host.Outcome State Fault Refusal := issueT 3 0o011 opFsqrt th f s
def execFmin (th : Th) (f : TFld) (s : State) : Host.Outcome State Fault Refusal := issueT 3 0o020 opFmin th f s
def execFmax (th : Th) (f : TFld) (s : State) : Host.Outcome State Fault Refusal := issueT 3 0o021 opFmax th f s
def execFabs (th : Th) (f : TFld) (s : State) : Host.Outcome State Fault Refusal := issueT 3 0o022 opFabs th f s
def execFneg (th : Th) (f : TFld) (s : State) : Host.Outcome State Fault Refusal := issueT 3 0o023 opFneg th f s
def execFmov (th : Th) (f : TFld) (s : State) : Host.Outcome State Fault Refusal := issueT 3 0o024 opFmov th f s
def execFrint (th : Th) (f : TFld) (s : State) : Host.Outcome State Fault Refusal := issueT 3 0o025 opFrint th f s
def execFcmpeq (th : Th) (f : TFld) (s : State) : Host.Outcome State Fault Refusal := issueT 4 0o000 opFcmpeq th f s
def execFcmplt (th : Th) (f : TFld) (s : State) : Host.Outcome State Fault Refusal := issueT 4 0o001 opFcmplt th f s
def execFcmple (th : Th) (f : TFld) (s : State) : Host.Outcome State Fault Refusal := issueT 4 0o002 opFcmple th f s
def execFcmpun (th : Th) (f : TFld) (s : State) : Host.Outcome State Fault Refusal := issueT 4 0o003 opFcmpun th f s
def execFcvtsd (th : Th) (f : TFld) (s : State) : Host.Outcome State Fault Refusal := issueT 4 0o010 opFcvtsd th f s
def execFcvtds (th : Th) (f : TFld) (s : State) : Host.Outcome State Fault Refusal := issueT 4 0o011 opFcvtds th f s
def execFcvtis (th : Th) (f : TFld) (s : State) : Host.Outcome State Fault Refusal := issueT 4 0o012 opFcvtis th f s
def execFcvtid (th : Th) (f : TFld) (s : State) : Host.Outcome State Fault Refusal := issueT 4 0o013 opFcvtid th f s
def execFcvtsi (th : Th) (f : TFld) (s : State) : Host.Outcome State Fault Refusal := issueT 4 0o014 opFcvtsi th f s
def execFcvtdi (th : Th) (f : TFld) (s : State) : Host.Outcome State Fault Refusal := issueT 4 0o015 opFcvtdi th f s
def execFmvgfL (th : Th) (f : TFld) (s : State) : Host.Outcome State Fault Refusal := issueT 4 0o020 opFmvgfL th f s
def execFmvgfH (th : Th) (f : TFld) (s : State) : Host.Outcome State Fault Refusal := issueT 4 0o021 opFmvgfH th f s
def execFmvfgL (th : Th) (f : TFld) (s : State) : Host.Outcome State Fault Refusal := issueT 4 0o022 opFmvfgL th f s
def execFmvfgH (th : Th) (f : TFld) (s : State) : Host.Outcome State Fault Refusal := issueT 4 0o023 opFmvfgH th f s

/-! ## System instructions (R216, R217) -/

def execEret (th : Th) (f : TFld) (s : State) : Host.Outcome State Fault Refusal := issueT 0o060 0o001 opEret th f s
def execWait (th : Th) (f : TFld) (s : State) : Host.Outcome State Fault Refusal := issueT 0o060 0o002 opWait th f s
def execFbar (th : Th) (f : TFld) (s : State) : Host.Outcome State Fault Refusal := issueT 0o060 0o010 opFbar th f s
def execVfence (th : Th) (f : TFld) (s : State) : Host.Outcome State Fault Refusal := issueT 0o060 0o011 opVfence th f s
def execFenceR (th : Th) (f : TFld) (s : State) : Host.Outcome State Fault Refusal := issueT 0o060 0o012 opFenceR th f s
def execFenceW (th : Th) (f : TFld) (s : State) : Host.Outcome State Fault Refusal := issueT 0o060 0o013 opFenceW th f s
def execFenceRW (th : Th) (f : TFld) (s : State) : Host.Outcome State Fault Refusal := issueT 0o060 0o014 opFenceRW th f s
def execTlbsync (th : Th) (f : TFld) (s : State) : Host.Outcome State Fault Refusal := issueT 0o060 0o015 opTlbsync th f s
def execAfence (th : Th) (f : TFld) (s : State) : Host.Outcome State Fault Refusal := issueT 0o060 0o016 opAfence th f s
def execWrpkr (th : Th) (f : TFld) (s : State) : Host.Outcome State Fault Refusal := issueT 0o060 0o020 opWrpkr th f s
def execSetvl (th : Th) (f : TFld) (s : State) : Host.Outcome State Fault Refusal := issueT 0o060 0o021 opSetvl th f s
def execSetvli (th : Th) (f : IFld) (s : State) : Host.Outcome State Fault Refusal := issueI 0o064 opSetvli th f s
def execSetsvl (th : Th) (f : TFld) (s : State) : Host.Outcome State Fault Refusal := issueT 0o060 0o022 opSetsvl th f s
def execTlbinv (th : Th) (f : TFld) (s : State) : Host.Outcome State Fault Refusal := issueT 0o060 0o040 opTlbinv th f s
def execTlbinvall (th : Th) (f : TFld) (s : State) : Host.Outcome State Fault Refusal := issueT 0o060 0o041 opTlbinvall th f s
def execMfsr (th : Th) (f : IFld) (s : State) : Host.Outcome State Fault Refusal := issueI 0o061 opMfsr th f s
def execMtsr (th : Th) (f : IFld) (s : State) : Host.Outcome State Fault Refusal := issueI 0o062 opMtsr th f s

/-! ## Groups (R113, R116, R131, R138) -/

def execVectorIssue (th : Th) (v : VFld) (s : State) : Host.Outcome State Fault Refusal :=
  .next (issue th (packV v) (opVector th v) s)
def execVchain (th : Th) (f : TFld) (s : State) : Host.Outcome State Fault Refusal := issueT 0o060 0o030 opVchain th f s
def execVsusp (th : Th) (f : TFld) (s : State) : Host.Outcome State Fault Refusal := issueT 0o060 0o031 opVsusp th f s
def execVresume (th : Th) (f : TFld) (s : State) : Host.Outcome State Fault Refusal := issueT 0o060 0o032 opVresume th f s

end Sys2Proof.Machine
end

