-- ==== Sys2Proof/Machine/Ports.lean ====
section
/-! DEFINITION. The ports of a bank: the bank cycle with its requesters and their priority, lost cycles and promotion (R42 to R44, R50 to
R52), and the quads of the burst that holds the fabric's path to the bank (R348). -/
namespace Sys2Proof.Machine

/-! ## Requests at a port -/

/-- A request at a bank port as it is judged; `held` marks the quad of the burst that holds the fabric's path to the bank's group. -/
structure Asked where
  r : PortReq
  q : Req
  held : Bool := false
deriving DecidableEq, Repr

/-- A port requester of a bank with the request that it makes (R53). -/
def portAsk (n : Nat) (r : PortReq) : Asked :=
  { r := r
    q := match r.who with
      | .writer => reqStream (n / 8) r.inst r.epoch
      | .readStream _ => reqStream (n / 8) r.inst r.epoch
      | .remote m => reqOfMaster m r.inst r.epoch
      | .scrubber => reqScrub }

/-- The priority of R50. -/
def portRank : Requester → Nat
  | .writer => 0
  | .readStream i => 1 + i.val
  | .remote _ => 4
  | .scrubber => 5

def fromRemote (a : Asked) : Bool := match a.r.who with | .remote _ => true | _ => false

/-- The burst that holds the path to a bank's group. -/
def heldAt (s : State) (n : Nat) : Option Transfer := (tget {} s.fab.arb (n / 8)).held

/-- The quad that a held burst presents: the remote-port requester of its bank and kind (R44, R348). -/
def heldAsk (s : State) (n : Nat) (write : Bool) (t : Transfer) : List Asked :=
  let pa := t.b.addr.toNat
  if t.b.write = write && bankOf s pa = n then
    [{ r := { who := .remote t.b.m, row := BitVec.ofNat 14 (rowOf pa), inst := t.b.inst, epoch := t.b.epoch,
              data := (t.b.data.headD ({}, 0)).1, mask := (t.b.data.headD ({}, 0)).2 }
       q := burstReq t.b, held := true }]
  else []

/-- The requests that one port has in a bank cycle: of the remote port the held burst's, and without one a single other (R44, R348). -/
def presented (s : State) (n : Nat) (write : Bool) (rs : List PortReq) : List Asked :=
  let asks := rs.map (portAsk n)
  asks.filter (fun a => !fromRemote a) ++
    (match heldAt s n with
     | some t => heldAsk s n write t
     | none => (asks.find? fromRemote).toList)

/-- The request that R50 lets win: the first of the best rank. -/
def portWinner : List Asked → Option Asked
  | [] => none
  | r :: rest => match portWinner rest with
    | none => some r
    | some x => if portRank x.r.who < portRank r.r.who then some x else some r

/-! ## What becomes of a request -/

/-- A bank's target port. -/
def bankPort (n : Nat) : Target := .bank (Fin.ofNat 1024 n)

/-- A remote request is acknowledged, with the words of a read: the burst that holds the path has moved a quad, any other is over (R346, R348). -/
def askDone (s : State) (n : Nat) (a : Asked) (ws : List (Word × Bool)) : State :=
  match a.r.who with
  | .remote m =>
    if a.held then
      match heldAt s n with
      | some t =>
        let t := quadAcked t ws
        if burstLen (bankPort n) t.b = 0 then transferDone s (bankPort n) t else setHeld s (bankPort n) (some t)
      | none => s
    else deliverReply s m (addrOfRow s n a.r.row.toNat) ws false
  | _ => s

/-- A remote request ends with a bus error (R54, R71, R353). -/
def askFails (s : State) (n : Nat) (write : Bool) (a : Asked) : State :=
  match a.r.who with
  | .remote m =>
    if a.held then (match heldAt s n with | some t => transferFails s (bankPort n) t | none => s)
    else
      let pa := addrOfRow s n a.r.row.toNat
      masterBusError s m pa (some write) (inQuad pa)
  | _ => s

/-- A remote requester without a path to the banks (R346). -/
def askPathless (s : State) (n : Nat) (a : Asked) : Bool :=
  match a.r.who with
  | .remote m => !hasPath s m (addrOfRow s n a.r.row.toNat)
  | _ => false

/-- A write under an empty mask (R35); the scrubber's writes have masks of their own. -/
def emptyWrite (write : Bool) (a : Asked) : Bool := write && a.r.who ≠ .scrubber && a.r.mask = 0

/-- A request that takes no part in the cycle: one without a path, a write under an empty mask, which completes and changes nothing, one that
R54 refuses, and one to a retired bank. The scrubber makes no access that R54 refuses (R35, R63, R67, R71, R346). -/
def refuseAsk (n : Nat) (write : Bool) (s : State) (a : Asked) : State :=
  if askPathless s n a then
    (match a.r.who with | .remote m => askFails (noPath s m write (addrOfRow s n a.r.row.toNat)) n write a | _ => s)
  else if emptyWrite write a then askDone s n a []
  else match judge s n a.q write with
    | .nonOwner => if a.r.who = .scrubber then s else askFails (recordNown s n a.q write a.r.row.toNat) n write a
    | .retired => askFails s n write a
    | _ => s

/-- Whether a request is in the cycle's competition: it has a path, is not empty, and the bank takes it. -/
def askLive (s : State) (n : Nat) (write : Bool) (a : Asked) : Bool :=
  !askPathless s n a && !emptyWrite write a && (judge s n a.q write = .granted || judge s n a.q write = .stale)

/-- The quad a bank row holds, with its poison marks, as a read delivers it (R42). -/
def rowWords (s : State) (n row : Nat) : List (Word × Bool) :=
  (List.range 4).map (fun i => s.readWord (65536 * n + 4 * row + i))

/-- Whether a quad of a bank is the scrubber's next (R319). -/
def scrubsRow (s : State) (n row : Nat) : Bool :=
  bankOf s (scrubAddr s .banks) = n && rowOf (scrubAddr s .banks) = row

/-- Whether the scrubber's oldest waiting write is to a quad of a bank (R320). -/
def fixesRow (s : State) (n row : Nat) : Bool :=
  match (walkOf s .banks).fixes with
  | [] => false
  | (k, _) :: _ => k / 16 = 16384 * n + row

/-- The bank performs the granted request of one port. A read's quad is examined and goes to the remote master that asked; a write changes
the enabled nonets, and one of a stale epoch is discarded and counted; the scrubber's read or write is its own (R42, R55, R317 to R320). -/
def portPerform (s : State) (n : Nat) (write : Bool) (a : Asked) : State :=
  let row := a.r.row.toNat
  let place := 65536 * n + 4 * row
  match a.r.who with
  | .scrubber =>
    if write then (if fixesRow s n row then scrubWriteback s .banks else s)
    else if scrubsRow s n row then scrubRead s .banks else s
  | who =>
    if write then
      askDone (if judge s n a.q true = .stale then recordStale s n a.q
        else (List.range 4).foldl (fun s i => s.store (place + i) (quadGet a.r.data i) (a.r.mask.extractLsb' (4 * i) 4) false) s) n a []
    else match who with
      | .remote m =>
        let pa := addrOfRow s n row
        let s := (List.range 4).foldl (fun s i => examine s (controlRead m pa) (pa + i) 0xF) s
        match judgeRead s m pa (rowWords s n row) with
        | (s, some ws) => askDone s n a ws
        | (s, none) => askFails s n false a
      | _ => s

/-! ## Lost cycles (R51, R52) -/

/-- A bank cycle lost by a requester is counted, and a remote or scrubber request has stalled one cycle more (R51, R52). (DESIGN CHOICE: log entry 59) -/
def countLoss (write : Bool) (b : Bank) (a : Asked) : Bank :=
  match a.r.who with
  | .readStream 1 => { b with rd1 := satAdd b.rd1 1 }
  | .readStream 2 => { b with rd2 := satAdd b.rd2 1 }
  | .remote _ => if write then { b with rmtw := satAdd b.rmtw 1, stallRmtW := b.stallRmtW + 1 }
    else { b with rmtr := satAdd b.rmtr 1, stallRmtR := b.stallRmtR + 1 }
  | .scrubber => if write then { b with scrw := satAdd b.scrw 1, stallScrW := b.stallScrW + 1 }
    else { b with scrr := satAdd b.scrr 1, stallScrR := b.stallScrR + 1 }
  | _ => b

/-- The stall runs of one port of a bank. -/
def remoteRun (b : Bank) (write : Bool) : Nat := if write then b.stallRmtW else b.stallRmtR
def scrubRun (b : Bank) (write : Bool) : Nat := if write then b.stallScrW else b.stallScrR

/-- A run ends when the request is granted or no longer presented. -/
def clearRuns (write rmt scr : Bool) (b : Bank) : Bank :=
  if write then { b with stallRmtW := if rmt then 0 else b.stallRmtW, stallScrW := if scr then 0 else b.stallScrW }
  else { b with stallRmtR := if rmt then 0 else b.stallRmtR, stallScrR := if scr then 0 else b.stallScrR }

/-- Whether a request has stalled for 255 consecutive bank cycles (R51). -/
def promoted (b : Bank) (write : Bool) (who : Requester) : Bool :=
  match who with
  | .remote _ => decide (remoteRun b write ≥ 255)
  | .scrubber => decide (scrubRun b write ≥ 255)
  | _ => false

/-! ## The bank cycle (R43) -/

/-- One port in one bank cycle: each request is judged; of those that take part one is granted, a promoted one before the others; the rest
lose the cycle. Answers the granted request. (DESIGN CHOICE: log entries 28, 66) -/
def portArbitrate (s : State) (n : Nat) (write : Bool) (rs : List PortReq) : State × Option Asked :=
  let asks := presented s n write rs
  let live := asks.filter (askLive s n write)
  let s := asks.foldl (refuseAsk n write) s
  let win := match portWinner (live.filter (fun a => promoted (s.bank n) write a.r.who)) with
    | some r => some r
    | none => portWinner live
  let lost := match win with | none => live | some w => live.filter (· ≠ w)
  let s := s.modBank n (fun b => lost.foldl (countLoss write) b)
  (s.modBank n (clearRuns write (!lost.any fromRemote) (!lost.any (fun a => a.r.who = .scrubber))), win)

/-- One bank cycle: the granted read and the granted write are performed together, the read returning what stood before the write (R43). (DESIGN CHOICE: log entry 28) -/
def bankCycle (s : State) (n : Nat) (reads writes : List PortReq) : State :=
  let (s, r) := portArbitrate s n false reads
  let (s, w) := portArbitrate s n true writes
  let s := match r with | some r => portPerform s n false r | none => s
  match w with | some w => portPerform s n true w | none => s

/-- BANK_ACCESS: the next element of a spindle's group, or one bank cycle of a bank (R43). (DESIGN CHOICE: log entry 28) -/
def bankAccess (op : BankOp) (s : State) : State :=
  match op with
  | .element k => elementStep s k.val
  | .cycle n reads writes => bankCycle s n.val reads writes
def execBankAccess (op : BankOp) (s : State) : Host.Outcome State Fault Refusal := .next (settleJobs (bankAccess op s))

/-- STARVATION_PROMOTION: a remote-port or scrubber request that has stalled for 255 bank cycles is granted ahead of the others, each of
which loses the cycle (R51). -/
def starvationPromotion (n : Fin 1024) (write : Bool) (req : PortReq) (others : List PortReq) (s : State) : State :=
  if promoted (s.bank n.val) write req.who then
    (if write then bankCycle s n.val [] (req :: others) else bankCycle s n.val (req :: others) [])
  else s
def execStarvationPromotion (n : Fin 1024) (write : Bool) (req : PortReq) (others : List PortReq) (s : State) :
    Host.Outcome State Fault Refusal := .next (settleJobs (starvationPromotion n write req others s))

end Sys2Proof.Machine
end

