-- ==== Sys2Proof/Machine/Dispatch.lean ====
section
/-! DEFINITION. The effect of a command on everything but the queue: one arm per command, each one call of its meaning. -/
namespace Sys2Proof.Machine

def exec (i : Instr) (s : State) : Host.Outcome State Fault Refusal :=
  match i with
  | .add th f => Sys2Proof.Machine.execAdd th f s
  | .sub th f => Sys2Proof.Machine.execSub th f s
  | .andG th f => Sys2Proof.Machine.execAndG th f s
  | .orG th f => Sys2Proof.Machine.execOrG th f s
  | .xorG th f => Sys2Proof.Machine.execXorG th f s
  | .andn th f => Sys2Proof.Machine.execAndn th f s
  | .shl th f => Sys2Proof.Machine.execShl th f s
  | .shr th f => Sys2Proof.Machine.execShr th f s
  | .shra th f => Sys2Proof.Machine.execShra th f s
  | .rol th f => Sys2Proof.Machine.execRol th f s
  | .slt th f => Sys2Proof.Machine.execSlt th f s
  | .sltu th f => Sys2Proof.Machine.execSltu th f s
  | .seq th f => Sys2Proof.Machine.execSeq th f s
  | .minG th f => Sys2Proof.Machine.execMinG th f s
  | .maxG th f => Sys2Proof.Machine.execMaxG th f s
  | .minu th f => Sys2Proof.Machine.execMinu th f s
  | .maxu th f => Sys2Proof.Machine.execMaxu th f s
  | .clz th f => Sys2Proof.Machine.execClz th f s
  | .popc th f => Sys2Proof.Machine.execPopc th f s
  | .addi th f => Sys2Proof.Machine.execAddi th f s
  | .andi th f => Sys2Proof.Machine.execAndi th f s
  | .ori th f => Sys2Proof.Machine.execOri th f s
  | .xori th f => Sys2Proof.Machine.execXori th f s
  | .slti th f => Sys2Proof.Machine.execSlti th f s
  | .sltiu th f => Sys2Proof.Machine.execSltiu th f s
  | .shifti th f => Sys2Proof.Machine.execShifti th f s
  | .lui th f => Sys2Proof.Machine.execLui th f s
  | .mul th f => Sys2Proof.Machine.execMul th f s
  | .mulu th f => Sys2Proof.Machine.execMulu th f s
  | .madd th f => Sys2Proof.Machine.execMadd th f s
  | .maddu th f => Sys2Proof.Machine.execMaddu th f s
  | .productWrite th => Sys2Proof.Machine.execProductWrite th s
  | .div th f => Sys2Proof.Machine.execDiv th f s
  | .divu th f => Sys2Proof.Machine.execDivu th f s
  | .rem th f => Sys2Proof.Machine.execRem th f s
  | .remu th f => Sys2Proof.Machine.execRemu th f s
  | .divideDone l => Sys2Proof.Machine.execDivideDone l s
  | .lw th f => Sys2Proof.Machine.execLw th f s
  | .ln th f => Sys2Proof.Machine.execLn th f s
  | .lfs th f => Sys2Proof.Machine.execLfs th f s
  | .lf th f => Sys2Proof.Machine.execLf th f s
  | .sw th f => Sys2Proof.Machine.execSw th f s
  | .sn th f => Sys2Proof.Machine.execSn th f s
  | .sfs th f => Sys2Proof.Machine.execSfs th f s
  | .sf th f => Sys2Proof.Machine.execSf th f s
  | .swm th f => Sys2Proof.Machine.execSwm th f s
  | .ldd th f => Sys2Proof.Machine.execLdd th f s
  | .stdd th f => Sys2Proof.Machine.execStdd th f s
  | .mtd th f => Sys2Proof.Machine.execMtd th f s
  | .mfd th f => Sys2Proof.Machine.execMfd th f s
  | .loadComplete th resp => Sys2Proof.Machine.execLoadComplete th resp s
  | .beq th f => Sys2Proof.Machine.execBeq th f s
  | .bne th f => Sys2Proof.Machine.execBne th f s
  | .blt th f => Sys2Proof.Machine.execBlt th f s
  | .bge th f => Sys2Proof.Machine.execBge th f s
  | .bltu th f => Sys2Proof.Machine.execBltu th f s
  | .bgeu th f => Sys2Proof.Machine.execBgeu th f s
  | .dbnz th f => Sys2Proof.Machine.execDbnz th f s
  | .jal th off => Sys2Proof.Machine.execJal th off s
  | .j th off => Sys2Proof.Machine.execJ th off s
  | .jalr th f => Sys2Proof.Machine.execJalr th f s
  | .fadd th f => Sys2Proof.Machine.execFadd th f s
  | .fsub th f => Sys2Proof.Machine.execFsub th f s
  | .fmul th f => Sys2Proof.Machine.execFmul th f s
  | .fma th f => Sys2Proof.Machine.execFma th f s
  | .fms th f => Sys2Proof.Machine.execFms th f s
  | .fnma th f => Sys2Proof.Machine.execFnma th f s
  | .fdiv th f => Sys2Proof.Machine.execFdiv th f s
  | .fsqrt th f => Sys2Proof.Machine.execFsqrt th f s
  | .fmin th f => Sys2Proof.Machine.execFmin th f s
  | .fmax th f => Sys2Proof.Machine.execFmax th f s
  | .fabs th f => Sys2Proof.Machine.execFabs th f s
  | .fneg th f => Sys2Proof.Machine.execFneg th f s
  | .fmov th f => Sys2Proof.Machine.execFmov th f s
  | .frint th f => Sys2Proof.Machine.execFrint th f s
  | .fcmpeq th f => Sys2Proof.Machine.execFcmpeq th f s
  | .fcmplt th f => Sys2Proof.Machine.execFcmplt th f s
  | .fcmple th f => Sys2Proof.Machine.execFcmple th f s
  | .fcmpun th f => Sys2Proof.Machine.execFcmpun th f s
  | .fcvtsd th f => Sys2Proof.Machine.execFcvtsd th f s
  | .fcvtds th f => Sys2Proof.Machine.execFcvtds th f s
  | .fcvtis th f => Sys2Proof.Machine.execFcvtis th f s
  | .fcvtid th f => Sys2Proof.Machine.execFcvtid th f s
  | .fcvtsi th f => Sys2Proof.Machine.execFcvtsi th f s
  | .fcvtdi th f => Sys2Proof.Machine.execFcvtdi th f s
  | .fmvgfL th f => Sys2Proof.Machine.execFmvgfL th f s
  | .fmvgfH th f => Sys2Proof.Machine.execFmvgfH th f s
  | .fmvfgL th f => Sys2Proof.Machine.execFmvfgL th f s
  | .fmvfgH th f => Sys2Proof.Machine.execFmvfgH th f s
  | .fpCompletion th => Sys2Proof.Machine.execFpCompletion th s
  | .fptrap th => Sys2Proof.Machine.execFptrap th s
  | .eret th f => Sys2Proof.Machine.execEret th f s
  | .wait th f => Sys2Proof.Machine.execWait th f s
  | .waitWake th => Sys2Proof.Machine.execWaitWake th s
  | .fbar th f => Sys2Proof.Machine.execFbar th f s
  | .vfence th f => Sys2Proof.Machine.execVfence th f s
  | .fenceR th f => Sys2Proof.Machine.execFenceR th f s
  | .fenceW th f => Sys2Proof.Machine.execFenceW th f s
  | .fenceRW th f => Sys2Proof.Machine.execFenceRW th f s
  | .tlbsync th f => Sys2Proof.Machine.execTlbsync th f s
  | .afence th f => Sys2Proof.Machine.execAfence th f s
  | .fenceComplete th => Sys2Proof.Machine.execFenceComplete th s
  | .wrpkr th f => Sys2Proof.Machine.execWrpkr th f s
  | .setvl th f => Sys2Proof.Machine.execSetvl th f s
  | .setvli th f => Sys2Proof.Machine.execSetvli th f s
  | .setsvl th f => Sys2Proof.Machine.execSetsvl th f s
  | .vchain th f => Sys2Proof.Machine.execVchain th f s
  | .vsusp th f => Sys2Proof.Machine.execVsusp th f s
  | .vresume th f => Sys2Proof.Machine.execVresume th f s
  | .tlbinv th f => Sys2Proof.Machine.execTlbinv th f s
  | .tlbinvall th f => Sys2Proof.Machine.execTlbinvall th f s
  | .mfsr th f => Sys2Proof.Machine.execMfsr th f s
  | .mtsr th f => Sys2Proof.Machine.execMtsr th f s
  | .syscall th f => Sys2Proof.Machine.execSyscall th f s
  | .vectorIssue th v => Sys2Proof.Machine.execVectorIssue th v s
  | .interruptEntry th => Sys2Proof.Machine.execInterruptEntry th s
  | .upcall th => Sys2Proof.Machine.execUpcall th s
  | .mwdog th => Sys2Proof.Machine.execMwdog th s
  | .lthCorecfgWrite m l w => Sys2Proof.Machine.execLthCorecfgWrite m l w s
  | .corecfgDrainEnd l => Sys2Proof.Machine.execCorecfgDrainEnd l s
  | .groupStart x => Sys2Proof.Machine.execGroupStart x s
  | .groupEnd x => Sys2Proof.Machine.execGroupEnd x s
  | .spnCtlSusp m x => Sys2Proof.Machine.execSpnCtlSusp m x s
  | .spnCtlAbort m x => Sys2Proof.Machine.execSpnCtlAbort m x s
  | .bankAccess op => Sys2Proof.Machine.execBankAccess op s
  | .starvationPromotion n write req others => Sys2Proof.Machine.execStarvationPromotion n write req others s
  | .bnkOwnWrite m n w => Sys2Proof.Machine.execBnkOwnWrite m n w s
  | .handoverDrainEnd n => Sys2Proof.Machine.execHandoverDrainEnd n s
  | .bankWatchdog n outstanding => Sys2Proof.Machine.execBankWatchdog n outstanding s
  | .bnkCfgWrite m n w => Sys2Proof.Machine.execBnkCfgWrite m n w s
  | .skewDrainEnd x => Sys2Proof.Machine.execSkewDrainEnd x s
  | .lock n => Sys2Proof.Machine.execLock n s
  | .release n => Sys2Proof.Machine.execRelease n s
  | .sealLockDrainEnd n => Sys2Proof.Machine.execSealLockDrainEnd n s
  | .scrubRead r => Sys2Proof.Machine.execScrubRead r s
  | .scrubWriteback r => Sys2Proof.Machine.execScrubWriteback r s
  | .marchGo m w => Sys2Proof.Machine.execMarchGo m w s
  | .marchGroupDone fails => Sys2Proof.Machine.execMarchGroupDone fails s
  | .bgTestRegion tester fails => Sys2Proof.Machine.execBgTestRegion tester fails s
  | .elogPop m => Sys2Proof.Machine.execElogPop m s
  | .fabricGrant tgt waiting => Sys2Proof.Machine.execFabricGrant tgt waiting s
  | .fabricTimeout m addr write => Sys2Proof.Machine.execFabricTimeout m addr write s
  | .lateAck => Sys2Proof.Machine.execLateAck s
  | .heldEventPass c => Sys2Proof.Machine.execHeldEventPass c s
  | .rememberedTrigger n => Sys2Proof.Machine.execRememberedTrigger n s
  | .evfFire m w => Sys2Proof.Machine.execEvfFire m w s
  | .lutFilterExpiry n => Sys2Proof.Machine.execLutFilterExpiry n s
  | .timer t => Sys2Proof.Machine.execTimer t s
  | .eventPin p level => Sys2Proof.Machine.execEventPin p level s
  | .pinPulseEnd p => Sys2Proof.Machine.execPinPulseEnd p s
  | .pps level => Sys2Proof.Machine.execPps level s
  | .ppsTimeout => Sys2Proof.Machine.execPpsTimeout s
  | .temp celsius => Sys2Proof.Machine.execTemp celsius s
  | .overtemp celsius => Sys2Proof.Machine.execOvertemp celsius s
  | .leafDigest ctx slot leaf epoch => Sys2Proof.Machine.execLeafDigest ctx slot leaf epoch s
  | .spongeState ctx slot epoch away => Sys2Proof.Machine.execSpongeState ctx slot epoch away s
  | .signatureDone => Sys2Proof.Machine.execSignatureDone s
  | .journalWrite => Sys2Proof.Machine.execJournalWrite s
  | .checkpointWritten => Sys2Proof.Machine.execCheckpointWritten s
  | .mramTimeout op => Sys2Proof.Machine.execMramTimeout op s
  | .logTamper x => Sys2Proof.Machine.execLogTamper x s
  | .lockdownTamper x => Sys2Proof.Machine.execLockdownTamper x s
  | .wrapKeyZeroise => Sys2Proof.Machine.execWrapKeyZeroise s
  | .backupTamper x => Sys2Proof.Machine.execBackupTamper x s
  | .bondTest broken => Sys2Proof.Machine.execBondTest broken s
  | .doorbell n m bits => Sys2Proof.Machine.execDoorbell n m bits s
  | .commandAdmission r => Sys2Proof.Machine.execCommandAdmission r s
  | .delayedReevaluation => Sys2Proof.Machine.execDelayedReevaluation s
  | .ringcfg n v => Sys2Proof.Machine.execRingcfg n v s
  | .ringhead n v => Sys2Proof.Machine.execRinghead n v s
  | .commandDeadline r => Sys2Proof.Machine.execCommandDeadline r s
  | .nop r => Sys2Proof.Machine.execNop r s
  | .instcfg r => Sys2Proof.Machine.execInstcfg r s
  | .grant r => Sys2Proof.Machine.execGrant r s
  | .grantRevoke r => Sys2Proof.Machine.execGrantRevoke r s
  | .instreset r => Sys2Proof.Machine.execInstreset r s
  | .query r => Sys2Proof.Machine.execQuery r s
  | .abort r => Sys2Proof.Machine.execAbort r s
  | .dmain r => Sys2Proof.Machine.execDmain r s
  | .dmaout r => Sys2Proof.Machine.execDmaout r s
  | .dmaReadCompletion c cpl => Sys2Proof.Machine.execDmaReadCompletion c cpl s
  | .dmaTransferDone c => Sys2Proof.Machine.execDmaTransferDone c s
  | .run r => Sys2Proof.Machine.execRun r s
  | .migrate r => Sys2Proof.Machine.execMigrate r s
  | .sealopen r => Sys2Proof.Machine.execSealopen r s
  | .sealslot r => Sys2Proof.Machine.execSealslot r s
  | .sealclose r => Sys2Proof.Machine.execSealclose r s
  | .recfetch r => Sys2Proof.Machine.execRecfetch r s
  | .jnlread r => Sys2Proof.Machine.execJnlread r s
  | .jnldrain r => Sys2Proof.Machine.execJnldrain r s
  | .certread r => Sys2Proof.Machine.execCertread r s
  | .timeset r => Sys2Proof.Machine.execTimeset r s
  | .modeset r => Sys2Proof.Machine.execModeset r s
  | .updload r cpl => Sys2Proof.Machine.execUpdload r cpl s
  | .updverify r => Sys2Proof.Machine.execUpdverify r s
  | .updactivate r => Sys2Proof.Machine.execUpdactivate r s
  | .updconfirm r => Sys2Proof.Machine.execUpdconfirm r s
  | .flr fn => Sys2Proof.Machine.execFlr fn s
  | .instanceZeroing n => Sys2Proof.Machine.execInstanceZeroing n s
  | .zeroingDone n => Sys2Proof.Machine.execZeroingDone n s
  | .hostBar0Read fn off ask => Sys2Proof.Machine.execHostBar0Read fn off ask s
  | .hostBar0Write fn off octets mark => Sys2Proof.Machine.execHostBar0Write fn off octets mark s
  | .hostBar2Read off ask => Sys2Proof.Machine.execHostBar2Read off ask s
  | .hostBar2Write off octets mark => Sys2Proof.Machine.execHostBar2Write off octets mark s
  | .msixUnmask fn vec => Sys2Proof.Machine.execMsixUnmask fn vec s
  | .completionTimeout c => Sys2Proof.Machine.execCompletionTimeout c s
  | .dataLinkDown => Sys2Proof.Machine.execDataLinkDown s
  | .pcieLinkTraining speed width => Sys2Proof.Machine.execPcieLinkTraining speed width s
  | .wovasLinkTrained k lanes nbr nbrLink inc => Sys2Proof.Machine.execWovasLinkTrained k lanes nbr nbrLink inc s
  | .wovasLinkDown k => Sys2Proof.Machine.execWovasLinkDown k s
  | .linkIdleTimeout k => Sys2Proof.Machine.execLinkIdleTimeout k s
  | .linkStateMessage dev k news => Sys2Proof.Machine.execLinkStateMessage dev k news s
  | .downNotice k => Sys2Proof.Machine.execDownNotice k s
  | .remoteRequest k q => Sys2Proof.Machine.execRemoteRequest k q s
  | .remoteReply addr inc res => Sys2Proof.Machine.execRemoteReply addr inc res s
  | .remoteTimeout tag => Sys2Proof.Machine.execRemoteTimeout tag s
  | .forwardedCommand r parcel arrival => Sys2Proof.Machine.execForwardedCommand r parcel arrival s
  | .forwardedEntry n dev sent => Sys2Proof.Machine.execForwardedEntry n dev sent s
  | .barrierArrival n report lathes gone => Sys2Proof.Machine.execBarrierArrival n report lathes gone s
  | .barrierRelease n broken => Sys2Proof.Machine.execBarrierRelease n broken s
  | .epochMessage n epoch => Sys2Proof.Machine.execEpochMessage n epoch s
  | .por => Sys2Proof.Machine.execPor s
  | .brownout => Sys2Proof.Machine.execBrownout s
  | .backupSupplyRise => Sys2Proof.Machine.execBackupSupplyRise s
  | .pin ticks => Sys2Proof.Machine.execPin ticks s
  | .perst asserted => Sys2Proof.Machine.execPerst asserted s
  | .hotrst => Sys2Proof.Machine.execHotrst s
  | .hswdog => Sys2Proof.Machine.execHswdog s
  | .hslock => Sys2Proof.Machine.execHslock s
  | .tsfault => Sys2Proof.Machine.execTsfault s
  | .boottmo => Sys2Proof.Machine.execBoottmo s
  | .update => Sys2Proof.Machine.execUpdate s
  | .swsys m => Sys2Proof.Machine.execSwsys m s
  | .swcore m => Sys2Proof.Machine.execSwcore m s
  | .swlathe m l => Sys2Proof.Machine.execSwlathe m l s
  | .lockup l => Sys2Proof.Machine.execLockup l s
  | .boot found => Sys2Proof.Machine.execBoot found s
  | .confirm m => Sys2Proof.Machine.execConfirm m s
  | .kick m => Sys2Proof.Machine.execKick m s
  | .wake src => Sys2Proof.Machine.execWake src s
  | .jnlHeadlRead m drained => Sys2Proof.Machine.execJnlHeadlRead m drained s
  | .hello => Sys2Proof.Machine.execHello s
  | .chal => Sys2Proof.Machine.execChal s
  | .auth tok => Sys2Proof.Machine.execAuth tok s
  | .halt l mask => Sys2Proof.Machine.execHalt l mask s
  | .haltTakesEffect th => Sys2Proof.Machine.execHaltTakesEffect th s
  | .resume l mask => Sys2Proof.Machine.execResume l mask s
  | .step th => Sys2Proof.Machine.execStep th s
  | .rdreg th sel => Sys2Proof.Machine.execRdreg th sel s
  | .wrreg th sel value => Sys2Proof.Machine.execWrreg th sel value s
  | .exec th w => Sys2Proof.Machine.execExec th w s
  | .rdcsr addr => Sys2Proof.Machine.execRdcsr addr s
  | .wrcsr addr w => Sys2Proof.Machine.execWrcsr addr w s
  | .resetreq level => Sys2Proof.Machine.execResetreq level s
  | .close => Sys2Proof.Machine.execClose s
  | .frameTimeout => Sys2Proof.Machine.execFrameTimeout s
  | .sessionExpiry => Sys2Proof.Machine.execSessionExpiry s
  | .registerWrite m addr mask w => Sys2Proof.Machine.execRegisterWrite m addr mask w s
  | .backupSupplyLoss => Sys2Proof.Machine.execBackupSupplyLoss s
  | .tamperConditionEnd x => Sys2Proof.Machine.execTamperConditionEnd x s
  | .headstockLockup => Sys2Proof.Machine.execHeadstockLockup s
  | .instructionFetchComplete th => Sys2Proof.Machine.execInstructionFetchComplete th s
  | .lockBindingHashDone ctx slot => Sys2Proof.Machine.execLockBindingHashDone ctx slot s
  | .copiedRangeRoot ctx slot first root => Sys2Proof.Machine.execCopiedRangeRoot ctx slot first root s
  | .epochAcknowledgement n sender => Sys2Proof.Machine.execEpochAcknowledgement n sender s
  | .incarnationAnnouncement k inc => Sys2Proof.Machine.execIncarnationAnnouncement k inc s
  | .framingError => Sys2Proof.Machine.execFramingError s
  | .brk => Sys2Proof.Machine.execBrk s
  | .badRequestFrame why => Sys2Proof.Machine.execBadRequestFrame why s
  | .configurationRequest fn write reg tlp => Sys2Proof.Machine.execConfigurationRequest fn write reg tlp s
  | .backgroundSlotCheck => Sys2Proof.Machine.execBackgroundSlotCheck s

end Sys2Proof.Machine
end

