-- ==== Sys2Proof/Machine/Tick.lean ====
section
/-! DEFINITION. What passes with time while no command waits: one tick of the timebase (R15), and the slots that pass empty in a core in which no
thread can issue (R220, R232). -/
namespace Sys2Proof.Machine

/-- Whether the slots of a core pass empty: no thread of it can issue, and nothing holds its slots. -/
def slotsEmpty (s : State) (l : Fin 16) : Bool :=
  (s.lathe l).inSvc && slotsRun s l && s.rst.inProgress.isNone && (s.lathe l).pair.isNone && (nextIssuer s l).isNone

/-- The slots that pass empty in a core over a tick: how many a tick holds is not stated, a free value. (DESIGN CHOICE: log entry 10) -/
def emptySlots (s : State) (l : Fin 16) : State :=
  if slotsEmpty s l then
    let (i, s) := s.takeFree
    passSlots s l (Config.freeNat i)
  else s

/-- One idle step: a tick of the timebase, while the device is powered, after which host requests that a bank stalled go on (R309).
(DESIGN CHOICE: log entry 2) -/
def tick (s : State) : State :=
  if s.pwr.main12 then (List.finRange 16).foldl emptySlots (resumeWaiting (passTicks false 1 1 s)) else s

end Sys2Proof.Machine
end

