-- ==== Sys2Proof/WellFormed.lean ====
section
/-! DEFINITION. Well-formed commands: operands that a sender can present. The types of the operands bound most of them; what is left are the
lengths of lists and the ranges of numbers that the manual fixes. An ill-formed command is one no sender makes; its meaning is total all the same. -/
namespace Sys2Proof

/-- Words that a load brings back: at most a quad (R207). -/
def LoadResp.wf : LoadResp → Bool
  | .words ws => decide (ws.length ≤ 4)
  | _ => true

/-- A completion brings at most the octets of one request (R436). -/
def HostCpl.wf : HostCpl → Bool
  | .data o _ => decide (o.length ≤ 4096)
  | _ => true

/-- A burst: 1 to 64 quads (R347). -/
def Burst.wf (b : Burst) : Bool :=
  if b.write then decide (1 ≤ b.data.length) && decide (b.data.length ≤ 64) && b.quads = b.data.length
  else decide (1 ≤ b.quads) && decide (b.quads ≤ 64) && b.data.isEmpty && b.back.all HostCpl.wf

/-- The writer of a bank presents writes, a read stream reads (R42). -/
def PortReq.wf (write : Bool) (r : PortReq) : Bool :=
  match r.who with
  | .writer => write
  | .readStream _ => !write
  | _ => true

def BankOp.wf : BankOp → Bool
  | .element _ => true
  | .cycle _ reads writes => reads.all (PortReq.wf false) && writes.all (PortReq.wf true)

/-- A debug token: an uncompressed P-256 key and a P-384 signature (R531). -/
def Token.wf (t : Token) : Bool := t.pub.length = 65 && t.sig.length = 96

/-- Octets of a host write: at most Max_Payload_Size (R434). -/
def hostOctetsWf (o : List Octet) : Bool := decide (1 ≤ o.length) && decide (o.length ≤ 512)

/-- Octets of a host read: at most Max_Read_Request_Size (R434). -/
def hostSizeWf (n : Nat) : Bool := decide (1 ≤ n) && decide (n ≤ 4096)

/-- A temperature in the range of the sensor events (R406, R480). -/
def celsiusWf (c : Int) : Bool := decide (-273 ≤ c) && decide (c ≤ 1000)

/-- A failing nonet of a memory under background test: a scratchpad holds 2^20, the headstock SRAM and the staging pool 2^22 (R329). -/
def MemFail.wf (f : MemFail) : Bool := decide (16 ≤ f.tester.val) || decide (f.nonet.toNat < 2 ^ 20)

/-- What a boot finds: each failing nonet and each failing cell once. -/
def BootFindings.wf (f : BootFindings) : Bool :=
  f.mems.all (fun x => x.wf && f.mems.count x = 1) && f.cells.all (fun c => f.cells.count c = 1)

/-- A command's copy is a slot's 64 octets; what a placement hands on is numbered within the device (R419, R470). -/
def Cargo.wf (copy : List Octet) : Cargo → Bool
  | .command _ _ => copy.length = 64
  | .place _ skews pads => skews.all (fun x => decide (x.1 < 128)) && pads.all (fun p => p.2.all (fun x => decide (x.1 < 2 ^ 20)))
  | .placed _ _ locked cs => locked.all (fun n => decide (n < 1024)) && cs.all (fun c => c.ins.all (fun x => x.root.length = 32))
  | _ => true

/-- Whether a command is well formed. -/
def Instr.wf : Instr → Bool
  | .loadComplete _ resp => resp.wf
  | .bankAccess op => op.wf
  | .starvationPromotion _ write req others => req.wf write && others.all (PortReq.wf write)
  | .marchGroupDone fails => fails.all (fun c => fails.count c = 1)
  | .fabricGrant _ waiting => waiting.all Burst.wf
  | .boot f => f.wf
  | .temp c => celsiusWf c
  | .overtemp c => celsiusWf c
  | .dmaReadCompletion _ cpl => cpl.wf
  | .updload _ cpl => cpl.wf
  | .hostBar0Read _ _ ask => hostSizeWf ask.size
  | .hostBar0Write _ _ o _ => hostOctetsWf o
  | .hostBar2Read _ ask => hostSizeWf ask.size
  | .hostBar2Write _ o _ => hostOctetsWf o
  | .pcieLinkTraining speed width => decide (1 ≤ speed.toNat) && decide (speed.toNat ≤ 5) && [1, 2, 4, 8, 16].contains width.toNat
  | .wovasLinkTrained _ _ _ nbrLink _ => decide (nbrLink.toNat < 6)
  | .forwardedCommand _ p _ => p.cargo.wf p.copy
  | .auth tok => tok.wf
  | .wrreg _ _ value => [1, 2, 4].contains value.length
  | .leafDigest _ _ ⟨_, some (_, a)⟩ _ => decide (1 ≤ a.words) && decide (a.words ≤ 4096) && a.digest.length = 32
  | .copiedRangeRoot _ _ _ root => root.length = 32
  | .configurationRequest _ _ reg _ => reg.toNat % 4 = 0
  | _ => true

end Sys2Proof
end

