-- ==== Sys2Proof/Safety.lean ====
section
/-! DEFINITION. What the claims call a safe run: the block goes on, and what a step may never disturb stays undisturbed. -/
namespace Sys2Proof.Machine

/-- The block goes on: the outcome is a next state, neither a fault nor a refusal. -/
def GoesOn (o : Host.Outcome State Fault Refusal) : Prop := ∃ t, o = .next t

/-- What no meaning touches: the queue it was given, the fuses and straps of the device (R553, R554), and the canonical form of
memory. -/
def Kept (p : List Instr) (u : Fus) (s : State) : Prop := s.pending = p ∧ s.fus = u ∧ Memory.wf s.mem = true

/-- A state that a run may stand in: memory in canonical form, every waiting command well formed. -/
def Safe (s : State) : Prop := Memory.wf s.mem = true ∧ s.pending.all Instr.wf = true

/-! ## How claims write the next state of an instruction -/

/-- A thread's next instruction has the word `w`, is the one that its core issues next, in the slot `n`, and no fetch comparator halts the thread
before it (R219, R220, R222, R232, R537). -/
def Issues (s : State) (th : Th) (w : Word) (n : Nat) : Prop :=
  nextSlot s th = some n ∧ (s.thr th).word = some w ∧ fetchHit s th = none

/-- The state after an instruction that changes only its thread, as `f` says, and goes on. -/
def issued (s : State) (th : Th) (w : Word) (n : Nat) (f : Thread → Thread) : State :=
  completes s th w n ((inSlot s th n).modThr th f, .seq)

/-- The state after a transfer of control, its thread changed as `f` says (R210). -/
def jumped (s : State) (th : Th) (w : Word) (n : Nat) (f : Thread → Thread) (target : Word) : State :=
  completes s th w n ((inSlot s th n).modThr th f, .jump target)

/-- The state after a synchronous exception of the instruction at the PC, which has no other effect (R196, R235, R258). -/
def raised (s : State) (th : Th) (n : Nat) (e : Exc) : State :=
  twoTurns (takeException (inSlot s th n) th e ((inSlot s th n).thr th).pc) th n

/-- The state after ILLEGAL of an instruction word (R196, R257). -/
def illegalAt (s : State) (th : Th) (n : Nat) (w : Word) : State := raised s th n { cause := .illegal, info := w }

/-- The nonets of some consecutive words read clean (R313). -/
def CleanAt (s : State) (place k : Nat) : Prop := ∀ a, 4 * place ≤ a → a < 4 * (place + k) → classify (s.cell a) = .clean

/-- The state after PRIV of an instruction word (R216, R257). -/
def privAt (s : State) (th : Th) (n : Nat) (w : Word) : State := raised s th n { cause := .priv, info := w }

/-- A master's write of the register at an offset of the region is a bus error to it and changes nothing else (R21, R346). -/
def Denied (s t : State) (m : Master) (off : Nat) : Prop :=
  t = { s with fab := t.fab } ∧
  tget {} t.fab.reply (128 * (masterCode m).1.toNat + (masterCode m).2.toNat) = { addr := regBase + off, words := [], error := true }

/-- No command runs a RUN job, nor does a job of another device run here (R426, R470). -/
def NoJob (s : State) : Prop := (∀ e ∈ s.hs.slots, e.2.job = none) ∧ s.hs.guests = []

/-- The device is powered, no command runs a RUN job, nothing waits for the next tick, every output of the cells without a filter has followed, and
the times that run are those listed: in the event fabric, for accesses, of the tailstock, and for watchdogs, deadlines and sessions (R13, R15, R364). -/
def DueAll (s : State) (fabric access tail watch : List Nat) : Prop :=
  s.pwr.main12 = true ∧ NoJob s ∧ asksWait s = false ∧ (∀ x ∈ s.evf.lut, x.2.filt = 0 → x.2.out = x.2.stored ∨ lutLoops s x.1 = true) ∧
    fabricTimes s = fabric ∧ accessTimes s = access ∧ tailTimes s = tail ∧ watchTimes s = watch

/-- The same, where no time of the tailstock runs. -/
def Due (s : State) (fabric access watch : List Nat) : Prop := DueAll s fabric access [] watch

/-- The cells of the event fabric have settled: none stands in a loop, and an unregistered one holds its table's value (R363, R365). -/
def Settled (s : State) : Prop := ∀ x ∈ s.evf.lut, lutLoops s x.1 = false ∧ (x.2.ff = false → x.2.stored = lutValue s x.1)

/-- No channel of the event fabric selects a producer (R357). -/
def Unheard (s : State) (p : Nat) : Prop := ∀ e ∈ s.evf.ch, (s.chan e.1).psel.toNat ≠ p

/-- The journal takes an entry at once (R399, R401, R402). -/
def Journalling (s : State) : Prop := s.jnl.frozen = false ∧ s.jnl.resolved = true ∧ canCommit s = true

/-- The next entry of the journal stands after a step (R395, R396, R399). -/
def Logged (s t : State) (p : JProto) : Prop :=
  t.jnl.head = s.jnl.head + 1 ∧
  t.jnl.entries = s.jnl.entries ++ [(s.jnl.head + 1, { body := p, time := s.tb, link := (jnlHash s).take 16 })]

/-- No spindle has a group in its queue (R115). -/
def NoQueue (s : State) : Prop := ∀ k, (s.spin k).queue = []

/-- A RUNNING command of an opcode that has not begun (R422, R423). -/
def Doing (s : State) (r : SlotRef) (opc : Nat) : Prop :=
  (s.slot r).st = 3 ∧ cmdOpc (s.slot r).copy = opc ∧ (s.slot r).begun = false ∧ (s.slot r).ended = false

/-- The slot of a command is DONE with a status (R422). -/
def Ended (s t : State) (r : SlotRef) (status : BitVec 16) : Prop :=
  t.slot r = { s.slot r with begun := true, job := none, ended := false, st := 4, status := status, qpos := 0 }

end Sys2Proof.Machine
end

