-- ==== Sys2Proof/Certificates/Slice0/Obligations.lean ====
section
/-! DEFINITION. The statements for the provers. Each says what the manual's numbered rules say a command does, or what the machine keeps. -/
open Sys2Proof Sys2Proof.Machine

/-! ## The step -/

/-- A command at the front of the queue runs with the queue's rest; with no command waiting one tick of the timebase passes (the second half is the
model's own choice of what an idle step does, log entry 2). -/
def Obligations.StepRunsFrontCommand : Prop :=
  (∀ (c : Instr) (rest : List Instr) (s : State), s.pending = c :: rest → step s = exec c { s with pending := rest }) ∧
  (∀ s : State, s.pending = [] → step s = .next (tick s))

/-- Every command goes on from every state: the model never stops. -/
def Obligations.EveryCommandGoesOn : Prop := ∀ (c : Instr) (s : State), GoesOn (exec c s)

/-- What every step keeps: the queue loses exactly its front, the fuses and straps never change, and memory stays in canonical form. -/
def Obligations.EveryStepKeepsQueueFusesMemory : Prop :=
  ∀ (s t : State), Memory.wf s.mem = true → step s = .next t →
    t.pending = s.pending.tail ∧ t.fus = s.fus ∧ Memory.wf t.mem = true

/-- The state after reset meets what every step keeps, and its queue is empty. -/
def Obligations.ResetStateIsSafe : Prop := Safe State.reset ∧ State.reset.pending = []

/-! ## Instruction words (R113, R195, R198) -/

/-- A word reads as an instruction exactly where that instruction encodes to it, for every operand: no bit of a word is dropped, and none is read
twice. -/
def Obligations.WordsAndInstructionsAgree : Prop :=
  ∀ (i : Instr) (th : Th) (w : Word), readInstr th w = some i ↔ instrWord i = some (th, w)

/-- Words written out from the manual's encodings. -/
def Obligations.ManualWordsReadAsStated : Prop :=
  (∀ th, readInstr th 0o036240000450 = some (.lui th { rd := 5, ra := 0, imm := 0o450 })) ∧
  (∀ th, readInstr th 0o024245200000 = some (.ori th { rd := 5, ra := 5, imm := 0o200000 }))

/-! ## Issue (R193, R219, R220, R222, R232, R236, R240) -/

/-- What the issue of an instruction that changes only its thread touches: its thread, as the instruction says, where what older instructions were
still to write in the places it writes is not written any more; its core's counters, by the slots up to and with its own; and in the other threads
of its core the floating-point instructions whose latency ends by its slot. Nothing else changes. -/
def Obligations.AnIssueTouchesItsThreadAndCore : Prop :=
  ∀ (th : Th) (s : State) (w : Word) (n : Nat) (f : Thread → Thread), Issues s th w n →
    let x := s.lathe th.l
    let mid := (inSlot s th n).thr th
    let u := (f mid).supersede mid w (depsOf mid w)
    let t := issued s th w n f
    t = { s with lathes := t.lathes, threads := t.threads } ∧
    (∀ l, l ≠ th.l → t.lathe l = s.lathe l) ∧
    (∀ y : Th, y.l ≠ th.l → t.thr y = s.thr y) ∧
    t.thr th = u.follow ((f mid).pc + 1) ∧
    u = { f mid with fpOut := u.fpOut, dead := u.dead, lat := u.lat } ∧
    (mid.fpOut = [] → mid.loads = [] → mid.lat = [] → u = f mid) ∧
    (x.pair = none → x.clock ≤ n ∧ (t.lathe th.l).clock = n + 1 ∧ (t.lathe th.l).lastThr = th.t ∧
      (t.lathe th.l).slotcnt = x.slotcnt + BitVec.ofNat 36 (n + 1 - x.clock) ∧ mid = ((s.thr th).fpBy n).tickProducts ∧
      ∀ y : Th, y.l = th.l → y ≠ th → t.thr y = (s.thr y).fpBy n) ∧
    (x.pair ≠ none → (t.lathe th.l).clock = x.clock ∧ (t.lathe th.l).slotcnt = x.slotcnt ∧ (t.lathe th.l).pair = none ∧
      mid = (s.thr th).tickProducts ∧ ∀ y : Th, y ≠ th → t.thr y = s.thr y)

/-- Two instructions of a thread issue in one slot where R222's conditions hold and nothing else keeps the second from issuing: it waits for no
register and no access, its thread does not halt before it, and its own operation does not hold it. Its slot is then that of the first. Where one of
R222's conditions fails, or under strict rotation, the second does not follow in the slot. -/
def Obligations.PairsShareOneSlot : Prop :=
  ∀ (th : Th) (s : State) (a b : Word) (n : Nat) (f : Thread → Thread), Issues s th a n →
    let x := s.lathe th.l
    let s0 := inSlot s th n
    let s1 := ((s0.modThr th f).modThr th (fun t => t.supersede (s0.thr th) a (depsOf (s0.thr th) a))).modThr th (fun t => t.follow (t.pc + 1))
    let t1 := s1.thr th
    let t := issued s th a n f
    let da := depsOf ((atIssue s th n).thr th) a
    let db := depsOf t1 b
    x.pair = none → x.stall = none → x.cmps = [] → t1.word = some b → t1.halted = false → t1.clearOf db = true → t1.regsFrom db ≤ n →
    opHolds t1 (wordRun th b s1).2 = false →
    let fits : Prop := x.dual = true ∧ x.detact = false ∧ (∀ r ∈ da.writes, r ≠ 0 → r ∉ db.reads ∧ r ∉ db.writes) ∧
      ¬ (da.mem = true ∧ db.mem = true) ∧ endsPair a = false ∧ neverPairs a = false ∧ neverPairs b = false
    (fits → (t.lathe th.l).pair = some th.t ∧ nextSlot t th = some n) ∧ (¬ fits → (t.lathe th.l).pair = none)

/-! ## Integer operations (R199 to R201) -/

/-- The register operations of major opcode 0o001: what each leaves in G[RD], in one issue slot and with nothing else changed. -/
def Obligations.IntegerRegisterResults : Prop :=
  ∀ (th : Th) (f : TFld) (s : State) (n : Nat), f.mod = 0 → f.form = 0 →
    let a := ((inSlot s th n).thr th).rg f.ra
    let b := ((inSlot s th n).thr th).rg f.rb
    let gives (func : BitVec 7) (i : Instr) (v : Word) : Prop :=
      Issues s th (packT 0o001 func f) n → exec i s = .next (issued s th (packT 0o001 func f) n (fun t => t.wg f.rd v))
    gives 0o000 (.add th f) (BitVec.ofInt 36 (a.toInt + b.toInt)) ∧
    gives 0o001 (.sub th f) (BitVec.ofInt 36 (a.toInt - b.toInt)) ∧
    gives 0o002 (.andG th f) (a &&& b) ∧
    gives 0o003 (.orG th f) (a ||| b) ∧
    gives 0o004 (.xorG th f) (a ^^^ b) ∧
    gives 0o005 (.andn th f) (a &&& ~~~ b) ∧
    gives 0o010 (.shl th f) (BitVec.ofNat 36 (a.toNat * 2 ^ b.toNat)) ∧
    gives 0o011 (.shr th f) (BitVec.ofNat 36 (a.toNat / 2 ^ b.toNat)) ∧
    gives 0o012 (.shra th f) (BitVec.ofInt 36 (a.toInt / 2 ^ b.toNat)) ∧
    (∃ v : Word, (∀ i, i < 36 → v.getLsbD ((i + b.toNat) % 36) = a.getLsbD i) ∧ gives 0o013 (.rol th f) v) ∧
    gives 0o020 (.slt th f) (if a.toInt < b.toInt then 1 else 0) ∧
    gives 0o021 (.sltu th f) (if a.toNat < b.toNat then 1 else 0) ∧
    gives 0o022 (.seq th f) (if a = b then 1 else 0) ∧
    gives 0o023 (.minG th f) (BitVec.ofInt 36 (min a.toInt b.toInt)) ∧
    gives 0o024 (.maxG th f) (BitVec.ofInt 36 (max a.toInt b.toInt)) ∧
    gives 0o025 (.minu th f) (BitVec.ofNat 36 (min a.toNat b.toNat)) ∧
    gives 0o026 (.maxu th f) (BitVec.ofNat 36 (max a.toNat b.toNat)) ∧
    (f.rb = 0 → ∃ k, k ≤ 36 ∧ a.toNat < 2 ^ (36 - k) ∧ (k = 36 ∨ 2 ^ (35 - k) ≤ a.toNat) ∧
      gives 0o030 (.clz th f) (BitVec.ofNat 36 k)) ∧
    (f.rb = 0 → gives 0o031 (.popc th f) (BitVec.ofNat 36 ((List.finRange 36).countP (fun i => a.getLsbD i.val))))

/-- The immediate operations: what each leaves in G[RD], in one issue slot and with nothing else changed. -/
def Obligations.IntegerImmediateResults : Prop :=
  ∀ (th : Th) (f : IFld) (s : State) (n : Nat),
    let a := ((inSlot s th n).thr th).rg f.ra
    let gives (op : BitVec 8) (i : Instr) (v : Word) : Prop :=
      Issues s th (packI op f) n → exec i s = .next (issued s th (packI op f) n (fun t => t.wg f.rd v))
    gives 0o010 (.addi th f) (BitVec.ofInt 36 (a.toInt + f.imm.toInt)) ∧
    gives 0o011 (.andi th f) (BitVec.ofNat 36 (a.toNat &&& f.imm.toNat)) ∧
    gives 0o012 (.ori th f) (BitVec.ofNat 36 (a.toNat ||| f.imm.toNat)) ∧
    gives 0o013 (.xori th f) (BitVec.ofNat 36 (a.toNat ^^^ f.imm.toNat)) ∧
    gives 0o014 (.slti th f) (if a.toInt < f.imm.toInt then 1 else 0) ∧
    gives 0o015 (.sltiu th f) (if a.toNat < (BitVec.ofInt 36 f.imm.toInt).toNat then 1 else 0) ∧
    (∀ k, k < 36 → f.imm = BitVec.ofNat 18 k → gives 0o016 (.shifti th f) (BitVec.ofNat 36 (a.toNat * 2 ^ k))) ∧
    (∀ k, k < 36 → f.imm = BitVec.ofNat 18 (2 ^ 16 + k) → gives 0o016 (.shifti th f) (BitVec.ofNat 36 (a.toNat / 2 ^ k))) ∧
    (∀ k, k < 36 → f.imm = BitVec.ofNat 18 (2 * 2 ^ 16 + k) → gives 0o016 (.shifti th f) (BitVec.ofInt 36 (a.toInt / 2 ^ k))) ∧
    (f.ra = 0 → gives 0o017 (.lui th f) (BitVec.ofNat 36 (f.imm.toNat * 2 ^ 18)))

/-- G0 reads zero whatever was written to it, and a write to it changes nothing of the thread (R192, R194). -/
def Obligations.RegisterZeroDiscardsWrites : Prop :=
  ∀ (t : Thread) (r : BitVec 5) (v : Word), t.rg 0 = 0 ∧ t.wg 0 v = t ∧ (r ≠ 0 → (t.wg r v).rg r = v) ∧
    ∀ q : BitVec 5, q ≠ r → (t.wg r v).rg q = t.rg q

/-! ## Multiply and divide (R202 to R206) -/

/-- A multiply puts its exact product on its way to PH:PL, to be read by the fourth instruction after it; an accumulate adds the product to what
PH:PL holds for it. A product that is due is written to PH:PL, the last of them in program order remaining; one that is not yet due stays on its
way. -/
def Obligations.ProductsAreQueuedAndLand : Prop :=
  (∀ (th : Th) (f : TFld) (s : State) (n : Nat), f.rd = 0 → f.mod = 0 → f.form = 0 →
    let t0 := ((inSlot s th n).thr th).landDue
    let a := ((inSlot s th n).thr th).rg f.ra
    let b := ((inSlot s th n).thr th).rg f.rb
    let queues (func : BitVec 7) (i : Instr) (v : Dbl) : Prop :=
      Issues s th (packT 0o002 func f) n → exec i s = .next (issued s th (packT 0o002 func f) n (fun t =>
        { t.landDue with products := t.landDue.products ++ [{ value := v, left := 4 }] }))
    queues 0o000 (.mul th f) (BitVec.ofInt 72 (a.toInt * b.toInt)) ∧
    queues 0o001 (.mulu th f) (BitVec.ofNat 72 (a.toNat * b.toNat)) ∧
    queues 0o002 (.madd th f) (mkD t0.ph t0.pl + BitVec.ofInt 72 (a.toInt * b.toInt)) ∧
    queues 0o003 (.maddu th f) (mkD t0.ph t0.pl + BitVec.ofNat 72 (a.toNat * b.toNat))) ∧
  (∀ (th : Th) (s : State) (early late : List Product) (p : Product),
    (s.thr th).products = early ++ p :: late → p.left = 0 → (∀ q ∈ late, q.left ≠ 0) →
      exec (.productWrite th) s = .next (s.modThr th (fun t =>
        { t with ph := BitVec.ofNat 36 (p.value.toNat / 2 ^ 36), pl := BitVec.ofNat 36 p.value.toNat,
                 products := (early.filter (fun q => q.left ≠ 0)) ++ late })))

/-- A divide occupies its core for 14 slots, which count in LTH_SLOTCNT and which strict rotation does not number, and then writes its quotient or
remainder: a zero divisor gives all ones or the dividend, −2^35 / −1 gives −2^35 or 0. -/
def Obligations.DivideStallsThenWrites : Prop :=
  (∀ (th : Th) (f : TFld) (s : State) (n : Nat), f.mod = 0 → f.form = 0 →
    let a := ((inSlot s th n).thr th).rg f.ra
    let b := ((inSlot s th n).thr th).rg f.rb
    let starts (func : BitVec 7) (i : Instr) (v : Word) : Prop :=
      Issues s th (packT 0o002 func f) n → (s.lathe th.l).pair = none →
        let m := (inSlot s th n).lathe th.l
        ∃ t, exec i s = .next t ∧ t = { inSlot s th n with lathes := t.lathes, threads := t.threads } ∧
          (let t0 := (inSlot s th n).thr th
           t.thr th = (t0.supersede t0 (packT 0o002 func f) (depsOf t0 (packT 0o002 func f))).follow (t0.pc + 1)) ∧
          (∀ u, u ≠ th → t.thr u = (inSlot s th n).thr u) ∧
          t.lathe th.l = { m with stall := some { t := th.t, gw := some (f.rd, v) }, slotcnt := m.slotcnt + 14,
                                  clock := if m.detact then m.clock else m.clock + 14 }
    starts 0o010 (.div th f) (if b = 0 then BitVec.allOnes 36 else BitVec.ofInt 36 (a.toInt.tdiv b.toInt)) ∧
    starts 0o011 (.divu th f) (if b = 0 then BitVec.allOnes 36 else BitVec.ofNat 36 (a.toNat / b.toNat)) ∧
    starts 0o012 (.rem th f) (if b = 0 then a else BitVec.ofInt 36 (a.toInt - b.toInt * a.toInt.tdiv b.toInt)) ∧
    starts 0o013 (.remu th f) (if b = 0 then a else BitVec.ofNat 36 (a.toNat - b.toNat * (a.toNat / b.toNat)))) ∧
  (∀ (s : State) (l : Fin 16) (p : DivPend) (r : BitVec 5) (v : Word), (s.lathe l).stall = some p → p.gw = some (r, v) →
    (∀ q ∈ (s.thr ⟨l, p.t⟩).fpOut, q.due ≠ none) → exec (.divideDone l) s =
      .next ((s.modLathe l (fun x => { x with stall := none })).modThr ⟨l, p.t⟩ (fun t => t.wg r v)))

/-! ## Control transfer (R210, R211) -/

/-- Branches and jumps: each takes its target from its own address, and falls through to the next word otherwise. -/
def Obligations.BranchesAndJumpsTransferControl : Prop :=
  ∀ (th : Th) (f : IFld) (off : BitVec 28) (s : State) (n : Nat),
    let t0 := (inSlot s th n).thr th
    let a := t0.rg f.rd
    let b := t0.rg f.ra
    let there : Word := BitVec.ofInt 36 (t0.pc.toInt + f.imm.toInt)
    let far : Word := BitVec.ofInt 36 (t0.pc.toInt + off.toInt)
    let goes (w : Word) (i : Instr) (g : Thread → Thread) (target : Word) : Prop := exec i s = .next (jumped s th w n g target)
    let falls (w : Word) (i : Instr) (g : Thread → Thread) : Prop := exec i s = .next (issued s th w n g)
    let branches (op : BitVec 8) (i : Instr) (taken : Prop) : Prop := Issues s th (packI op f) n →
      (taken → goes (packI op f) i id there) ∧ (¬ taken → falls (packI op f) i id)
    branches 0o040 (.beq th f) (a = b) ∧
    branches 0o041 (.bne th f) (a ≠ b) ∧
    branches 0o042 (.blt th f) (a.toInt < b.toInt) ∧
    branches 0o043 (.bge th f) (b.toInt ≤ a.toInt) ∧
    branches 0o044 (.bltu th f) (a.toNat < b.toNat) ∧
    branches 0o045 (.bgeu th f) (b.toNat ≤ a.toNat) ∧
    (f.ra = 0 → f.rd ≠ 0 → Issues s th (packI 0o046 f) n →
      (a = 1 → falls (packI 0o046 f) (.dbnz th f) (fun t => t.wg f.rd 0)) ∧
      (a ≠ 1 → goes (packI 0o046 f) (.dbnz th f) (fun t => t.wg f.rd (a - 1)) there)) ∧
    (f.ra ≠ 0 ∨ f.rd = 0 → Issues s th (packI 0o046 f) n → exec (.dbnz th f) s = .next (illegalAt s th n (packI 0o046 f))) ∧
    (Issues s th (packJ 0o050 off) n → goes (packJ 0o050 off) (.jal th off) (fun t => t.wg 31 (t0.pc + 1)) far) ∧
    (Issues s th (packJ 0o051 off) n → goes (packJ 0o051 off) (.j th off) id far) ∧
    (Issues s th (packI 0o052 f) n →
      goes (packI 0o052 f) (.jalr th f) (fun t => t.wg f.rd (t0.pc + 1)) (BitVec.ofInt 36 (b.toInt + f.imm.toInt))) ∧
    (∀ (w : Word) (g : Thread → Thread) (target : Word),
      let t := jumped s th w n g target
      let u := (g t0).supersede t0 w (depsOf t0 w)
      t = { inSlot s th n with lathes := t.lathes, threads := t.threads, free := t.free } ∧
      t.thr th = if (s.lathe th.l).detact then { u.follow target with busy := n + 16 } else u.follow target)

/-! ## Loads and stores (R207 to R209, R221) -/

/-- A load of the lathe's own scratchpad, whose address translates and whose path no burst holds, with the caches off, clean nonets and no
comparator set: the word, the nonet, the single, the double or the descriptor reaches its register in one issue slot, and may be read six slots
after it, or in the thread's next turn under strict rotation; nothing else changes. -/
def Obligations.ScratchpadLoadsReachRegisters : Prop :=
  ∀ (th : Th) (f : IFld) (s : State) (n : Nat) (va : Word) (pa : Nat),
    let s0 := inSlot s th n
    let t0 := s0.thr th
    coreTranslate s0 th .read va = (s0, .ok pa) → areaOf pa = .scratch th.l.val → pathBusy s0 (reqCore s0 th.l) pa = false →
    cacheOn (s.lathe th.l) false = false → (s.lathe th.l).cmps = [] → CleanAt s pa 4 →
    let at_ (i : Nat) : Word := (s.readWord (pa + i)).1
    let loads (op : BitVec 8) (i : Instr) (ea : Word) (k r : Nat) (g : Thread → Thread) : Prop :=
      Issues s th (packI op f) n → va = ea → va.toNat % k = 0 → exec i s = .next (issued s th (packI op f) n (fun t =>
        g { t with lat := tput 0 t.lat r (n + if (s.lathe th.l).detact then 8 else 6) }))
    loads 0o020 (.lw th f) (eaI t0 f) 1 f.rd.toNat (fun t => t.wg f.rd (at_ 0)) ∧
    loads 0o021 (.ln th f) (eaN t0 f) 1 f.rd.toNat (fun t =>
      t.wg f.rd (BitVec.ofNat 36 ((at_ 0).toNat / 2 ^ (9 * (f.imm.toNat % 4)) % 512))) ∧
    loads 0o022 (.lfs th f) (eaI t0 f) 1 (32 + f.rd.toNat) (fun t => t.wf f.rd.toNat (BitVec.ofNat 72 (at_ 0).toNat)) ∧
    loads 0o023 (.lf th f) (eaI t0 f) 2 (32 + f.rd.toNat) (fun t =>
      t.wf f.rd.toNat (BitVec.ofNat 72 ((at_ 1).toNat * 2 ^ 36 + (at_ 0).toNat))) ∧
    (f.rd.toNat < 16 → loads 0o031 (.ldd th f) (eaI t0 f) 4 (64 + f.rd.toNat) (fun t =>
      t.wd f.rd.toNat { w0 := at_ 0, w1 := at_ 1, w2 := at_ 2, w3 := at_ 3 }))

/-- A store to the lathe's own scratchpad, whose address translates, whose path no burst holds, before which no older access to its words is
outstanding, and with no comparator set: its nonets hold the data with fresh check bits, every other nonet of memory what it held, and the thread
goes on with the next word. -/
def Obligations.ScratchpadStoresWriteTheirNonets : Prop :=
  ∀ (th : Th) (f : IFld) (s : State) (n : Nat) (va : Word) (pa : Nat),
    let s0 := inSlot s th n
    let t0 := s0.thr th
    coreTranslate s0 th .write va = (s0, .ok pa) → areaOf pa = .scratch th.l.val → pathBusy s0 (reqCore s0 th.l) pa = false →
    (s.lathe th.l).cmps = [] →
    let stores (op : BitVec 8) (i : Instr) (ea : Word) (ws : List (Word × BitVec 4)) : Prop :=
      Issues s th (packI op f) n → va = ea → va.toNat % ws.length = 0 → inTurn s0 th pa ws.length = true → ∃ t, exec i s = .next t ∧
        (∀ a, t.cell a =
          match ws[a / 4 - pa]? with
          | some (w, mask) =>
            if 4 * pa ≤ a ∧ mask.getLsbD (a % 4) then encNonet (BitVec.ofNat 9 (w.toNat / 2 ^ (9 * (a % 4)))) else s.cell a
          | none => s.cell a) ∧
        t.thr th = t0.follow (t0.pc + 1) ∧ (∀ u, u ≠ th → t.thr u = s0.thr u) ∧ t.banks = s.banks ∧ t.hs = s.hs ∧
        t.jnl = s.jnl ∧ t.ts = s.ts ∧ t.wov = s.wov ∧ t.pci = s.pci ∧ t.rst = s.rst
    stores 0o024 (.sw th f) (eaI t0 f) [(t0.rg f.rd, 0xF)] ∧
    stores 0o025 (.sn th f) (eaN t0 f) [(t0.rg f.rd <<< (9 * (f.imm.toNat % 4)), BitVec.ofNat 4 (2 ^ (f.imm.toNat % 4)))] ∧
    stores 0o026 (.sfs th f) (eaI t0 f) [(BitVec.ofNat 36 (t0.rf f.rd.toNat).toNat, 0xF)] ∧
    stores 0o027 (.sf th f) (eaI t0 f)
      [(BitVec.ofNat 36 (t0.rf f.rd.toNat).toNat, 0xF), (BitVec.ofNat 36 ((t0.rf f.rd.toNat).toNat / 2 ^ 36), 0xF)] ∧
    stores 0o030 (.swm th f) (eaM t0 f) [(t0.rg f.rd, BitVec.ofNat 4 (f.imm.toNat / 2 ^ 14))] ∧
    (f.rd.toNat < 16 → stores 0o032 (.stdd th f) (eaI t0 f)
      [((t0.rd f.rd.toNat).w0, 0xF), ((t0.rd f.rd.toNat).w1, 0xF), ((t0.rd f.rd.toNat).w2, 0xF), ((t0.rd f.rd.toNat).w3, 0xF)])

/-- MTD and MFD move one word between a descriptor register and a general register; LDD, STDD, MTD and MFD of a register above D15 and an IMM above
3 raise ILLEGAL. A double or a quad at an address that is no multiple of its words raises ALIGN with the address and does nothing else. -/
def Obligations.DescriptorWordsMoveAndTransfersAlign : Prop :=
  ∀ (th : Th) (f : IFld) (s : State) (n : Nat),
    let t0 := (inSlot s th n).thr th
    let is (op : BitVec 8) : Prop := Issues s th (packI op f) n
    let illegal (op : BitVec 8) (i : Instr) : Prop := is op → exec i s = .next (illegalAt s th n (packI op f))
    let va := eaI t0 f
    let stops (op : BitVec 8) (i : Instr) : Prop := is op → exec i s = .next (raised s th n { cause := .align, info := va })
    (is 0o033 → f.rd.toNat < 16 → f.imm.toNat < 4 → exec (.mtd th f) s = .next (issued s th (packI 0o033 f) n (fun t =>
      t.wd f.rd.toNat (quadPut (t0.rd f.rd.toNat) f.imm.toNat (t0.rg f.ra))))) ∧
    (is 0o034 → f.ra.toNat < 16 → f.imm.toNat < 4 → exec (.mfd th f) s = .next (issued s th (packI 0o034 f) n (fun t =>
      t.wg f.rd (quadGet (t0.rd f.ra.toNat) f.imm.toNat)))) ∧
    (15 < f.rd.toNat ∨ 3 < f.imm.toNat → illegal 0o033 (.mtd th f)) ∧
    (15 < f.ra.toNat ∨ 3 < f.imm.toNat → illegal 0o034 (.mfd th f)) ∧
    (15 < f.rd.toNat → illegal 0o031 (.ldd th f) ∧ illegal 0o032 (.stdd th f)) ∧
    (va.toNat % 2 ≠ 0 → stops 0o023 (.lf th f) ∧ stops 0o027 (.sf th f)) ∧
    (va.toNat % 4 ≠ 0 → f.rd.toNat < 16 → stops 0o031 (.ldd th f) ∧ stops 0o032 (.stdd th f))

/-- A load from a bank becomes outstanding and its thread goes on with what does not depend on it; its completion, where no burst holds the path,
the bank grants it and the nonets are clean, brings the word to the register, unless a younger instruction has written that, and no load is
outstanding any more. -/
def Obligations.BankLoadIsOutstandingThenCompletes : Prop :=
  (∀ (th : Th) (f : IFld) (s : State) (n pa : Nat),
    let s0 := inSlot s th n
    let t0 := s0.thr th
    let va := eaI t0 f
    Issues s th (packI 0o020 f) n → coreTranslate s0 th .read va = (s0, .ok pa) → areaOf pa = .bank →
      cacheOn (s.lathe th.l) false = false → (s.lathe th.l).detact = false →
      exec (.lw th f) s = .next (issued s th (packI 0o020 f) n (fun t =>
        { t with loads := t.loads ++ [{ kind := .lw f.rd, va := va, pa := pa, num := t.accNum, snap := t.snap }], accNum := t.accNum + 1 }))) ∧
  (∀ (th : Th) (s : State) (rd : BitVec 5) (va : Word) (pa num : Nat) (snap : Snap) (resp : LoadResp),
    let t0 := s.thr th
    let w := (s.readWord (placeOf s pa)).1
    t0.loads = [{ kind := .lw rd, va := va, pa := pa, num := num, snap := snap }] → areaOf pa = .bank →
      cacheOn (s.lathe th.l) false = false → pathBusy s (reqCore s th.l) pa = false →
      judge s (bankOf s pa) (reqCore s th.l) false = .granted → CleanAt s (placeOf s pa) 1 →
      (s.lathe th.l).cmps = [] → (s.lathe th.l).locked = false → (s.lathe th.l).pair ≠ some th.t →
      ∃ t, exec (.loadComplete th resp) s = .next t ∧
        t.thr th = { (if (num, rd.toNat) ∈ t0.dead then t0 else t0.wg rd w) with loads := [], dead := t0.dead.filter (fun x => x.1 ≠ num) } ∧
        (∀ u, u ≠ th → t.thr u = s.thr u) ∧ t.mem = s.mem ∧ t.hs = s.hs ∧ t.lathe th.l = s.lathe th.l)

/-- The fetch of a word from the lathe's own scratchpad: the thread holds it behind the words it has fetched already, and nothing else changes. A
word that spells no instruction raises ILLEGAL in its slot, once it is the next instruction. -/
def Obligations.InstructionFetchBringsTheWord : Prop :=
  (∀ (th : Th) (s : State) (pa : Nat), fetching s th = true →
    (∀ w, (s.thr th).word = some w → (readInstr th w).isSome = true) →
    coreTranslate s th .fetch (nextFetch s th) = (s, .ok pa) → areaOf pa = .scratch th.l.val → pathBusy s (reqCore s th.l) pa = false →
    cacheOn (s.lathe th.l) true = false → CleanAt s pa 1 →
    exec (.instructionFetchComplete th) s = .next (s.modThr th (fun t => { t with fetched := t.fetched ++ [(nextFetch s th, (s.readWord pa).1)] }))) ∧
  (∀ (th : Th) (s : State) (w : Word) (n : Nat), Issues s th w n → readInstr th w = none → (s.lathe th.l).locked = false →
    exec (.instructionFetchComplete th) s = .next (illegalAt s th n w))

/-! ## Floating point (R212 to R215, R241 to R254) -/

/-- The short-vector operations: each enabled element of the destination group is to take its result, every disabled element and every other
register what it then holds, and the flags of the enabled elements are recorded together, at the completion, which the instruction's last slot and
latency bound; what older instructions were still to write to those elements is not written any more; one slot passes for each register that holds
an enabled element. -/
def Obligations.ShortVectorArithmeticResults : Prop :=
  ∀ (th : Th) (f : TFld) (s : State) (n : Nat),
    let t0 := (inSlot s th n).thr th
    let m := (inSlot s th n).lathe th.l
    let wide := formWide f.form
    let F := formFmt f.form
    let on (e : Nat) : Bool := t0.svl = 0 || decide (e < t0.svl.toNat)
    let a (e : Nat) : Nat := t0.elem wide f.ra.toNat e
    let b (e : Nat) : Nat := t0.elem wide f.rb.toNat e
    let d (e : Nat) : Nat := t0.elem wide f.rd.toNat e
    let k := max 1 ((List.range (formRegs f.form)).countP (fun i => on (if wide then i else 2 * i)))
    let due := if m.detact then n + 8 * k else n + (k - 1) + 4
    let gives (func : BitVec 7) (i : Instr) (r : Nat → Nat × Flags5) : Prop :=
      Issues s th (packT 3 func f) n → f.rd.toNat % formRegs f.form = 0 → f.ra.toNat % formRegs f.form = 0 →
      f.rb.toNat % formRegs f.form = 0 → ∃ (t : State) (p : FpPend), exec i s = .next t ∧ p.gw = none ∧ p.due = some due ∧
        (∀ e, e < formCount f.form → (t0.fpEnd p).elem wide f.rd.toNat e =
          if on e then (r e).1 % 2 ^ (if wide then 72 else 36) else d e) ∧
        (∀ q, q < f.rd.toNat ∨ f.rd.toNat + formRegs f.form ≤ q → (t0.fpEnd p).rf q = t0.rf q) ∧
        (∀ j, j < 5 → (p.flags.getLsbD j = true ↔ ∃ e, e < formCount f.form ∧ on e = true ∧ (r e).2.getLsbD j = true)) ∧
        (let w := packT 3 func f
         let t1 : Thread := { t0 with fpOut := t0.fpOut ++ [p], busy := if m.detact then n + 8 * k else t0.busy }
         t.thr th = (t1.supersede t0 w (depsOf t0 w)).follow (t0.pc + 1)) ∧
        (t.thr th).fpOut = t0.fpOut.map (fun q => q.without (p.fw.map (fun x => 32 + x.1))) ++ [p] ∧
        t.lathe th.l = { m with
          pair := (t.lathe th.l).pair, clock := if m.detact then m.clock else m.clock + (k - 1)
          slotcnt := if m.detact then m.slotcnt else m.slotcnt + BitVec.ofNat 36 (k - 1) } ∧
        (∀ u, u ≠ th → t.thr u = (inSlot s th n).thr u) ∧ (∀ l, l ≠ th.l → t.lathe l = s.lathe l) ∧
        t = { s with threads := t.threads, lathes := t.lathes }
    let rm := f.mod
    (rm.toNat < 5 →
      gives 0o000 (.fadd th f) (fun e => fpAdd F rm false (a e) (b e)) ∧
      gives 0o001 (.fsub th f) (fun e => fpAdd F rm true (a e) (b e)) ∧
      gives 0o002 (.fmul th f) (fun e => fpMul F rm (a e) (b e)) ∧
      gives 0o003 (.fma th f) (fun e => fpFma F rm false false (a e) (b e) (d e)) ∧
      gives 0o004 (.fms th f) (fun e => fpFma F rm false true (a e) (b e) (d e)) ∧
      gives 0o005 (.fnma th f) (fun e => fpFma F rm true false (a e) (b e) (d e)) ∧
      (f.rb = 0 → gives 0o025 (.frint th f) (fun e => fpRint F rm (a e)))) ∧
    (rm = 0 →
      gives 0o020 (.fmin th f) (fun e => fpMinMax F false (a e) (b e)) ∧
      gives 0o021 (.fmax th f) (fun e => fpMinMax F true (a e) (b e)) ∧
      (f.rb = 0 →
        gives 0o022 (.fabs th f) (fun e => fpAbs F (a e)) ∧
        gives 0o023 (.fneg th f) (fun e => fpNeg F (a e)) ∧
        gives 0o024 (.fmov th f) (fun e => (a e, 0))))

/-- Divide and square root: the core stops for its slots per enabled element, and issues again when DIVIDE_DONE writes every enabled element of the
group and completes the flags. -/
def Obligations.ShortVectorDivideStallsThenWrites : Prop :=
  ∀ (th : Th) (f : TFld) (s : State) (n : Nat),
    let t0 := (inSlot s th n).thr th
    let m := (inSlot s th n).lathe th.l
    let wide := formWide f.form
    let F := formFmt f.form
    let k := if t0.svl = 0 then formCount f.form else min t0.svl.toNat (formCount f.form)
    let a (e : Nat) : Nat := t0.elem wide f.ra.toNat e
    let b (e : Nat) : Nat := t0.elem wide f.rb.toNat e
    let stalls (func : BitVec 7) (i : Instr) (slots : Nat) (r : Nat → Nat × Flags5) : Prop :=
      Issues s th (packT 3 func f) n → (∀ q ∈ t0.fpOut, q.due ≠ none) → f.mod.toNat < 5 → f.rd.toNat % formRegs f.form = 0 →
      f.ra.toNat % formRegs f.form = 0 → f.rb.toNat % formRegs f.form = 0 →
      ∃ (t u : State) (p : FpPend), exec i s = .next t ∧ exec (.divideDone th.l) t = .next u ∧
        (let w := packT 3 func f
         t.thr th = (Thread.supersede { t0 with fpOut := t0.fpOut ++ [p] } t0 w (depsOf t0 w)).follow (t0.pc + 1)) ∧
        p.due = none ∧ t.mem = s.mem ∧
        t.lathe th.l = { m with stall := some { t := th.t }, slotcnt := m.slotcnt + BitVec.ofNat 36 (k * slots)
                                clock := if m.detact then m.clock else m.clock + k * slots } ∧
        u.lathe th.l = { (t.lathe th.l) with stall := none } ∧
        (∀ e, e < formCount f.form → (u.thr th).elem wide f.rd.toNat e =
          if e < k then (r e).1 % 2 ^ (if wide then 72 else 36) else t0.elem wide f.rd.toNat e) ∧
        (∀ q, q < f.rd.toNat ∨ f.rd.toNat + formRegs f.form ≤ q → (u.thr th).rf q = t0.rf q) ∧
        (∀ j, j < 5 → ((u.thr th).fflags.getLsbD j = true ↔
          t0.fflags.getLsbD j = true ∨ ∃ e, e < k ∧ (r e).2.getLsbD j = true)) ∧
        (u.thr th).fpOut = t0.fpOut.map (fun q => q.without (p.fw.map (fun x => 32 + x.1)))
    stalls 0o010 (.fdiv th f) (if wide then 22 else 16) (fun e => fpDiv F f.mod (a e) (b e)) ∧
    (f.rb = 0 → stalls 0o011 (.fsqrt th f) (if wide then 24 else 18) (fun e => fpSqrt F f.mod (a e)))

/-- Compares are to leave one bit for each enabled element in G[RD]; conversions and moves work on single registers and ignore SVL. Each result is
written, with its flags, at the completion. -/
def Obligations.FloatingPointComparesAndConversions : Prop :=
  ∀ (th : Th) (f : TFld) (s : State) (n : Nat),
    let t0 := (inSlot s th n).thr th
    let det := (s.lathe th.l).detact
    let wide := formWide f.form
    let F := formFmt f.form
    let on (e : Nat) : Bool := decide (e < formCount f.form) && (t0.svl = 0 || decide (e < t0.svl.toNat))
    let compares (func : BitVec 7) (i : Instr) (c : Cmp) : Prop :=
      Issues s th (packT 4 func f) n → f.mod = 0 → f.ra.toNat % formRegs f.form = 0 → f.rb.toNat % formRegs f.form = 0 →
      ∃ (t : State) (p : FpPend) (v : Word) (due : Nat), exec i s = .next t ∧ p.fw = [] ∧ p.gw = some (f.rd, v) ∧ p.due = some due ∧
        (∀ e, e < 36 → v.getLsbD e =
          (on e && (fpCmp F c (t0.elem wide f.ra.toNat e) (t0.elem wide f.rb.toNat e)).1)) ∧
        (∀ j, j < 5 → (p.flags.getLsbD j = true ↔
          ∃ e, on e = true ∧ (fpCmp F c (t0.elem wide f.ra.toNat e) (t0.elem wide f.rb.toNat e)).2.getLsbD j = true)) ∧
        (let w := packT 4 func f
         let t1 : Thread := { t0 with fpOut := t0.fpOut ++ [p], busy := (t.thr th).busy }
         t.thr th = (t1.supersede t0 w (depsOf t0 w)).follow (t0.pc + 1)) ∧
        t.mem = s.mem ∧ (∀ u, u ≠ th → t.thr u = (inSlot s th n).thr u)
    let x := (t0.rf f.ra.toNat).toNat
    let lo := x % 2 ^ 36
    let g := (t0.rg f.ra).toInt
    let most : Int := 2 ^ 35
    let moves (func : BitVec 7) (i : Instr) (lat : Nat) (p : FpPend) : Prop :=
      Issues s th (packT 4 func f) n → f.form = 0 → f.rb = 0 →
        let due := n + if det then 8 else lat
        exec i s = .next (issued s th (packT 4 func f) n (fun t =>
          { t with fpOut := t.fpOut ++ [{ p with due := some due }], busy := if det then n + 8 else t.busy }))
    let r := f.rd.toNat
    let toF (v : Nat) (fl : Flags5) : FpPend :=
      { fw := [(2 * r, BitVec.ofNat 36 v), (2 * r + 1, BitVec.ofNat 36 (v / 2 ^ 36))], flags := fl }
    let toHalf (k : Nat) : FpPend := { fw := [(k, t0.rg f.ra)] }
    let toG (v : Word) (fl : Flags5) : FpPend := { gw := some (f.rd, v), flags := fl }
    compares 0o000 (.fcmpeq th f) .eq ∧ compares 0o001 (.fcmplt th f) .lt ∧ compares 0o002 (.fcmple th f) .le ∧
    compares 0o003 (.fcmpun th f) .un ∧
    (f.mod.toNat < 5 →
      (let r := fpConv fmt72 fmt36 f.mod x; moves 0o010 (.fcvtsd th f) 4 (toF r.1 r.2)) ∧
      (let r := fpToInt fmt36 f.mod (-most) (most - 1) lo; moves 0o012 (.fcvtis th f) 4 (toG (BitVec.ofInt 36 r.1) r.2)) ∧
      (let r := fpToInt fmt72 f.mod (-most) (most - 1) x; moves 0o013 (.fcvtid th f) 4 (toG (BitVec.ofInt 36 r.1) r.2)) ∧
      (let r := intToFp fmt36 f.mod g; moves 0o014 (.fcvtsi th f) 4 (toF r.1 r.2))) ∧
    (f.mod = 0 →
      (let r := fpConv fmt36 fmt72 0 lo; moves 0o011 (.fcvtds th f) 4 (toF r.1 r.2)) ∧
      (let r := intToFp fmt72 0 g; moves 0o015 (.fcvtdi th f) 4 (toF r.1 r.2)) ∧
      moves 0o020 (.fmvgfL th f) 1 (toHalf (2 * r)) ∧
      moves 0o021 (.fmvgfH th f) 1 (toHalf (2 * r + 1)) ∧
      moves 0o022 (.fmvfgL th f) 1 (toG (BitVec.ofNat 36 x) 0) ∧
      moves 0o023 (.fmvfgH th f) 1 (toG (BitVec.ofNat 36 (x / 2 ^ 36)) 0))

/-- An instruction whose word breaks its rules raises ILLEGAL and does nothing else: a field that it does not use, a shift above 35, a reserved
rounding code, or a register field that is no multiple of the group size. -/
def Obligations.ReservedFieldsAreIllegal : Prop :=
  ∀ (th : Th) (f : TFld) (g : IFld) (s : State) (n : Nat),
    let stops (w : Word) (i : Instr) : Prop := Issues s th w n → exec i s = .next (illegalAt s th n w)
    let odd (r : BitVec 5) : Prop := r.toNat % formRegs f.form ≠ 0
    (∀ (e : BitVec 7 × Instr), e ∈ [(0o000, Instr.add th f), (0o001, .sub th f), (0o002, .andG th f), (0o003, .orG th f),
        (0o004, .xorG th f), (0o005, .andn th f), (0o010, .shl th f), (0o011, .shr th f), (0o012, .shra th f), (0o013, .rol th f),
        (0o020, .slt th f), (0o021, .sltu th f), (0o022, .seq th f), (0o023, .minG th f), (0o024, .maxG th f), (0o025, .minu th f),
        (0o026, .maxu th f), (0o030, .clz th f), (0o031, .popc th f)] →
      f.mod ≠ 0 ∨ f.form ≠ 0 → stops (packT 0o001 e.1 f) e.2) ∧
    (f.rb ≠ 0 → stops (packT 0o001 0o030 f) (.clz th f) ∧ stops (packT 0o001 0o031 f) (.popc th f)) ∧
    (35 < g.imm.toNat % 64 ∨ g.imm.toNat / 64 % 1024 ≠ 0 ∨ g.imm.toNat / 65536 = 3 → stops (packI 0o016 g) (.shifti th g)) ∧
    (g.ra ≠ 0 → stops (packI 0o017 g) (.lui th g)) ∧
    (∀ e : BitVec 7 × Instr, e ∈ [(0o000, Instr.fadd th f), (0o001, .fsub th f), (0o002, .fmul th f), (0o003, .fma th f),
        (0o004, .fms th f), (0o005, .fnma th f), (0o010, .fdiv th f), (0o011, .fsqrt th f), (0o025, .frint th f)] →
      4 < f.mod.toNat ∨ odd f.rd ∨ odd f.ra ∨ odd f.rb → stops (packT 3 e.1 f) e.2) ∧
    (∀ e : BitVec 7 × Instr, e ∈ [(0o020, Instr.fmin th f), (0o021, .fmax th f), (0o022, .fabs th f), (0o023, .fneg th f),
        (0o024, .fmov th f)] → f.mod ≠ 0 ∨ odd f.rd ∨ odd f.ra ∨ odd f.rb → stops (packT 3 e.1 f) e.2) ∧
    (f.rb ≠ 0 → ∀ e : BitVec 7 × Instr, e ∈ [(0o011, Instr.fsqrt th f), (0o022, .fabs th f), (0o023, .fneg th f), (0o024, .fmov th f),
        (0o025, .frint th f)] → stops (packT 3 e.1 f) e.2) ∧
    (∀ e : BitVec 7 × Instr, e ∈ [(0o000, Instr.fcmpeq th f), (0o001, .fcmplt th f), (0o002, .fcmple th f), (0o003, .fcmpun th f)] →
      f.mod ≠ 0 ∨ odd f.ra ∨ odd f.rb → stops (packT 4 e.1 f) e.2) ∧
    (∀ e : BitVec 7 × Instr, e ∈ [(0o010, Instr.fcvtsd th f), (0o012, .fcvtis th f), (0o013, .fcvtid th f), (0o014, .fcvtsi th f)] →
      4 < f.mod.toNat ∨ f.form ≠ 0 ∨ f.rb ≠ 0 → stops (packT 4 e.1 f) e.2) ∧
    (∀ e : BitVec 7 × Instr, e ∈ [(0o011, Instr.fcvtds th f), (0o015, .fcvtdi th f), (0o020, .fmvgfL th f), (0o021, .fmvgfH th f),
        (0o022, .fmvfgL th f), (0o023, .fmvfgH th f)] → f.mod ≠ 0 ∨ f.form ≠ 0 ∨ f.rb ≠ 0 → stops (packT 4 e.1 f) e.2)

/-- Rounding is exact once: toward zero the result is the greatest representable magnitude not above the exact one, away from zero the least not
below it (an infinity above the largest), a round to nearest leaves none nearer, a tie goes to even or away from zero, and the inexact flag says
whether the result differs. -/
def Obligations.FloatingPointResultsAreRoundedOnce : Prop :=
  ∀ (F : Fmt) (neg : Bool) (m : Nat) (q : Int), F = fmt36 ∨ F = fmt72 ∨ F = fmt32 ∨ F = fmt64 → 0 < m →
    let unit : Int := min q (1 - (F.bias : Int) - F.fb)
    let exact : Nat := m * 2 ^ (q - unit).toNat
    let finite (x : Nat) : Prop := x < F.expMax * 2 ^ F.fb
    let value (x : Nat) : Nat :=
      (if F.exp x = 0 then F.frac x else 2 ^ F.fb + F.frac x) * 2 ^ ((max (F.exp x) 1 : Nat) - (F.bias : Int) - F.fb - unit).toNat
    let far (x : Nat) : Nat := value x - exact + (exact - value x)
    let mag (rm : BitVec 3) : Nat := (F.round rm neg m q false).1 % F.signBit
    (∀ rm : BitVec 3, rm.toNat < 5 → F.neg (F.round rm neg m q false).1 = neg ∧
      ((F.round rm neg m q false).2.getLsbD 0 = false ↔ finite (mag rm) ∧ value (mag rm) = exact)) ∧
    (∀ rm : BitVec 3, rm = 1 ∨ rm = (if neg then 3 else 2) → finite (mag rm) ∧ value (mag rm) ≤ exact ∧
      ∀ y, finite y → value y ≤ exact → value y ≤ value (mag rm)) ∧
    (∀ rm : BitVec 3, rm = (if neg then 2 else 3) → (mag rm = F.expMax * 2 ^ F.fb ∨ exact ≤ value (mag rm)) ∧
      ∀ y, finite y → exact ≤ value y → finite (mag rm) ∧ value (mag rm) ≤ value y) ∧
    (∀ rm : BitVec 3, rm = 0 ∨ rm = 4 → exact ≤ value (F.largest false) → finite (mag rm) ∧
      ∀ y, finite y → far (mag rm) ≤ far y ∧
        (far y = far (mag rm) → y = mag rm ∨ (if rm = 0 then mag rm % 2 = 0 else value y ≤ value (mag rm))))

/-- A completion writes its result and records its flags; where one of them has its trap enabled, all of them are pending and a trap is requested.
The trap enters the supervisor at the next boundary with FPTRAP, PEND in XINFO and the address of the first instruction not executed, and the
request is consumed. -/
def Obligations.FloatingPointTrapsAreRequestedAndTaken : Prop :=
  ∀ (th : Th) (s : State) (p : FpPend) (rest : List FpPend),
    let t0 := s.thr th
    let traps : Bool := decide (p.flags &&& t0.ften ≠ 0)
    (t0.fpOut = p :: rest → p.due ≠ none → exec (.fpCompletion th) s = .next (s.modThr th (fun t =>
      { t with
        fpOut := rest, fflags := t.fflags ||| p.flags, fpend := if traps then t.fpend ||| p.flags else t.fpend, trapReq := t.trapReq || traps
        f := p.fw.foldl (fun f x =>
          let old := (tget 0 f (x.1 / 2)).toNat
          tput 0 f (x.1 / 2) (BitVec.ofNat 72 (if x.1 % 2 = 0 then old / 2 ^ 36 * 2 ^ 36 + x.2.toNat else x.2.toNat * 2 ^ 36 + old % 2 ^ 36))) t.f
        g := match p.gw with
          | some (r, v) => if r = 0 then t.g else tput 0 t.g r.toNat v
          | none => t.g }))) ∧
    (t0.trapReq = true → s.between th = true → t0.fpOut = [] → t0.products = [] → t0.level ≠ .machine → t0.s.busy = false →
      ∃ t, exec (.fptrap th) s = .next t ∧ t = { s with threads := t.threads } ∧ (∀ u, u ≠ th → t.thr u = s.thr u) ∧
        t.thr th = { t0 with
          trapReq := false, hold := .free, waiting := false, loads := [], dead := [], fetched := [], fetchPend := none, checked := false
          fencedAt := match t0.hold with
            | .afence true _ => some (t0.pc, false)
            | _ => t0.fencedAt
          level := .supervisor, pc := t0.s.entry
          busy := if (s.lathe th.l).detact then nextTurn s th + 16 else t0.busy
          s := { t0.s with xpc := t0.pc, plv := if t0.level = .user then 0 else 1, pie := if t0.level = .user then t0.uie else t0.s.ie,
                           cause := { fromLevel := if t0.level = .user then 0 else 1, code := 0o11 },
                           info := BitVec.ofNat 36 t0.fpend.toNat, busy := true, ie := false } })

/-! ## Exceptions, interrupts and returns (R205, R235, R251 to R275) -/

/-- What taking an exception does, SYSCALL's (with its code in XINFO and XPC at the next instruction, in two turns) among them: earlier products and
floating-point instructions complete first, and a trap request they leave is taken in its place with the address of the instruction; then the
entered level saves the address, the level, its IE bit, the cause and the information word, becomes busy with IE 0, and its handler runs. A busy
supervisor escalates to machine level, a busy machine level locks the core, with the address of the instruction that raised the exception. -/
def Obligations.ExceptionEntrySavesAndTransfers : Prop :=
  ∀ (th : Th) (s : State) (e : Exc) (xpc : Word),
    let old := s.thr th
    let t := old.settle
    let trap := t.trapReq
    let cause : BitVec 6 := if trap then 0o11 else causeCode e.cause
    let info : Word := if trap then BitVec.ofNat 36 t.fpend.toNat else e.info
    let pc : Word := if trap then t.pc else xpc
    let lv : BitVec 2 := match t.level with | .user => 0 | .supervisor => 1 | .machine => 2
    let ie : Bool := match t.level with | .user => t.uie | .supervisor => t.s.ie | .machine => t.m.ie
    let toM : Prop := t.level = .machine ∨ (trap = false ∧ (e.toMachine = true ∨ (e.cause = .syscall ∧ t.level = .supervisor)))
    let saved (r : LevelRegs) (esc : Bool) : LevelRegs :=
      { r with xpc := pc, plv := lv, pie := ie, cause := { esc := esc, fromLevel := lv, code := cause }, info := info, busy := true, ie := false }
    let freed : Thread := { t with
      trapReq := false, hold := .free, waiting := false, loads := [], dead := [], fetched := [], fetchPend := none, checked := false
      fencedAt := match t.hold with
        | .afence true _ => some (t.pc, false)
        | _ => t.fencedAt }
    (∀ (f : IFld) (n : Nat), Issues s th (packI 0o063 f) n →
      let t0 := (inSlot s th n).thr th
      (f.rd = 0 → f.ra = 0 → t0.level ≠ .supervisor ∨ f.imm ≠ 1 ∨ t0.settle.trapReq = true → exec (.syscall th f) s =
        .next (twoTurns (takeException (inSlot s th n) th { cause := .syscall, info := BitVec.ofNat 36 f.imm.toNat } (t0.pc + 1)) th n)) ∧
      (f.rd ≠ 0 ∨ f.ra ≠ 0 → exec (.syscall th f) s = .next (illegalAt s th n (packI 0o063 f)))) ∧
    (∀ (u : State) (n : Nat), twoTurns u th n =
      if (u.lathe th.l).detact then u.modThr th (fun t => { t with busy := n + 16 }) else u) ∧
    t.products = [] ∧ t.fpOut = [] ∧
    (∀ p, old.products.getLast? = some p → t.ph = BitVec.ofNat 36 (p.value.toNat / 2 ^ 36) ∧ t.pl = BitVec.ofNat 36 p.value.toNat) ∧
    (∀ k, k < 5 → (t.fflags.getLsbD k = true ↔ old.fflags.getLsbD k = true ∨ ∃ p ∈ old.fpOut, p.flags.getLsbD k = true)) ∧
    (trap = true ↔ old.trapReq = true ∨ ∃ p ∈ old.fpOut, p.flags &&& old.ften ≠ 0) ∧
    (toM → t.m.busy = false → takeException s th e xpc =
      s.setThr th { freed with m := saved t.m false, level := .machine, pc := t.m.entry }) ∧
    (¬ toM → t.s.busy = false → takeException s th e xpc =
      s.setThr th { freed with s := saved t.s false, level := .supervisor, pc := t.s.entry }) ∧
    (¬ toM → t.s.busy = true → t.m.busy = false → takeException s th e xpc =
      s.setThr th { freed with m := saved t.m true, level := .machine, pc := t.m.entry }) ∧
    (toM ∨ t.s.busy = true → t.m.busy = true → takeException s th e xpc =
      (s.setThr th { t with trapReq := false }).modLathe th.l (fun x =>
        if x.lockValid then { x with locked := true }
        else { x with locked := true, lockValid := true, lockThr := BitVec.ofFin th.t, lockFrom := lv, lockCode := cause, lockPc := old.pc }))

/-- ERET restores the address, the level and that level's IE bit, and its own level is no longer busy; at user level it reads the frame at G30.
Under strict rotation it takes two turns. -/
def Obligations.ReturnRestoresWhatEntrySaved : Prop :=
  ∀ (th : Th) (s : State) (n : Nat), Issues s th (packT 0o060 0o001 {}) n →
    let s0 := inSlot s th n
    let t0 := s0.thr th
    let back (t : Thread) (r : LevelRegs) : Thread :=
      let t := { t with
        pc := r.xpc, fetched := [], fetchPend := none, checked := false, busy := if (s.lathe th.l).detact then n + 16 else t.busy }
      if r.plv = 0 then { t with level := .user, uie := r.pie }
      else if r.plv = 1 then { t with level := .supervisor, s := { t.s with ie := r.pie } }
      else { t with level := .machine, m := { t.m with ie := r.pie } }
    (t0.level = .machine → exec (.eret th {}) s = .next (s0.setThr th (back { t0 with m := { t0.m with busy := false } } t0.m))) ∧
    (t0.level = .supervisor → exec (.eret th {}) s = .next (s0.setThr th (back { t0 with s := { t0.s with busy := false } } t0.s))) ∧
    (t0.level = .user → t0.inup = false → exec (.eret th {}) s = .next (illegalAt s th n (packT 0o060 0o001 {}))) ∧
    (t0.level = .user → t0.inup = true → (t0.rg 30).toNat % 4 ≠ 0 →
      exec (.eret th {}) s = .next (raised s th n { cause := .align, info := t0.rg 30 })) ∧
    (∀ pa, t0.level = .user → t0.inup = true → (t0.rg 30).toNat % 4 = 0 →
      coreTranslate s0 th .read (t0.rg 30) = (s0, .ok pa) → areaOf pa = .scratch th.l.val →
      pathBusy s0 (reqCore s0 th.l) pa = false → cacheOn (s.lathe th.l) false = false → CleanAt s pa 4 →
      exec (.eret th {}) s = .next (jumped s th (packT 0o060 0o001 {}) n
        (fun t => { t with inup := false, uie := (s.readWord (pa + 1)).1.getLsbD 34 }.wg 30 (t0.rg 30 + 4)) (s.readWord pa).1))

/-- The lowest pending enabled line of machine level, and else of supervisor level, is taken at a boundary where its level can be entered; the
watchdog line needs no enable, and the line stays pending. Under strict rotation the entry takes two turns. -/
def Obligations.InterruptsEnterByLevelAndLine : Prop :=
  ∀ (th : Th) (s : State) (n : Nat), s.atBoundary th = true → (s.thr th).settle.trapReq = false →
    let t := (s.thr th).settle
    let lv : BitVec 2 := match t.level with | .user => 0 | .supervisor => 1 | .machine => 2
    let ie : Bool := match t.level with | .user => t.uie | .supervisor => t.s.ie | .machine => t.m.ie
    let saved (r : LevelRegs) : LevelRegs :=
      { r with xpc := t.pc, plv := lv, pie := ie, cause := { int := true, fromLevel := lv, code := BitVec.ofNat 6 n }, info := 0,
               busy := true, ie := false }
    let freed : Thread := { t with
      hold := .free, waiting := false, dead := [], fetched := [], fetchPend := none, checked := false
      busy := if (s.lathe th.l).detact then nextTurn s th + 16 else t.busy
      fencedAt := match t.hold with
        | .afence true _ => some (t.pc, false)
        | _ => t.fencedAt }
    let mLine (k : Nat) : Bool := t.m.ip.getLsbD k && (t.m.ien.getLsbD k || k = 15)
    let mOpen : Prop := t.m.busy = false ∧ (t.level ≠ .machine ∨ t.m.ie = true)
    let sLine (k : Nat) : Bool := t.s.ip.getLsbD k && t.s.ien.getLsbD k
    (mOpen → n < 16 → mLine n = true → (∀ k, k < n → mLine k = false) → exec (.interruptEntry th) s =
      .next (s.setThr th { freed with m := saved t.m, level := .machine, pc := t.m.entry })) ∧
    (¬ mOpen ∨ (∀ k, k < 16 → mLine k = false) → t.s.busy = false → t.level = .user ∨ (t.level = .supervisor ∧ t.s.ie = true) →
      n < 16 → sLine n = true → (∀ k, k < n → sLine k = false) → exec (.interruptEntry th) s =
        .next (s.setThr th { freed with s := saved t.s, level := .supervisor, pc := t.s.entry }))

/-- A user event pushes its frame below G30 and enters the user handler; a frame that is misaligned or outside the stack bounds is not written, and
UPFRAME is raised with the event still pending. -/
def Obligations.UpcallsPushTheirFrame : Prop :=
  ∀ (th : Th) (s : State) (n : Nat), s.atBoundary th = true → (s.thr th).pick = none → (s.thr th).settle.trapReq = false →
    let t : Thread := { (s.thr th).settle with busy := if (s.lathe th.l).detact then nextTurn s th + 16 else (s.thr th).busy }
    let frame := t.rg 30 - 4
    let line (k : Nat) : Bool := t.uep.getLsbD k && t.uee.getLsbD k
    let cause : CauseReg := { int := true, code := BitVec.ofNat 6 n }
    let s1 := s.setThr th t
    let bad : Prop := frame.toNat % 4 ≠ 0 ∨ frame.toNat < t.usplo.toNat ∨ t.usphi.toNat < frame.toNat + 3
    let begun (t : Thread) : Thread := { t with
      hold := .free, waiting := false, dead := [], fetched := [], fetchPend := none, checked := false
      fencedAt := match t.hold with
        | .afence true _ => some (t.pc, false)
        | _ => t.fencedAt }
    t.level = .user → t.uie = true → t.inup = false → n < 16 → line n = true → (∀ k, k < n → line k = false) →
    (∀ pa, ¬ bad → coreTranslate s1 th .write frame = (s1, .ok pa) → areaOf pa = .scratch th.l.val →
      pathBusy s1 (reqCore s1 th.l) pa = false → ∃ u, exec (.upcall th) s = .next u ∧
      u.thr th = { begun (t.wg 30 frame) with inup := true, pc := t.uentry, uep := t.uep &&& ~~~ BitVec.ofNat 16 (2 ^ n) } ∧
      (∀ a, a < 4 * pa ∨ 4 * (pa + 4) ≤ a → u.cell a = s.cell a) ∧
      (∀ j, j < 4 → u.readWord (pa + j) = ([t.pc, t.ust, cause.word, BitVec.ofNat 36 s.tb.toNat].getD j 0, false)) ∧
      ∀ v, v ≠ th → u.thr v = s.thr v) ∧
    (bad → t.s.busy = false → ∃ u, exec (.upcall th) s = .next u ∧ u.mem = s.mem ∧
      u.thr th = { begun t with
        level := .supervisor, pc := t.s.entry, cause2 := cause
        s := { t.s with xpc := t.pc, plv := 0, pie := true, cause := { code := 0o12 }, info := frame, busy := true, ie := false } })

/-! ## Waiting and fences (R216, R253, R289, R290, R304) -/

/-- WAIT and the fences hold their thread at the instruction; the next instruction follows when what they wait for has come about, and not before.
FENCE.R waits for outstanding loads, FENCE.W for stores and FENCE.RW for both, and goes on at once where there are none; FENCE.R then drops the
core's data cache and FENCE.RW both caches. An AFENCE whose barrier was released while it was interrupted ends when it executes again. -/
def Obligations.WaitsAndFencesHoldTheirThread : Prop :=
  ∀ (th : Th) (s : State) (n : Nat) (gs : List Nat) (tags : List Nat) (accs : List (Nat × Nat))
      (elems : List (Nat × Nat × Nat)),
    let t0 := s.thr th
    let s0 := inSlot s th n
    let is (func : BitVec 7) : Prop := Issues s th (packT 0o060 func {}) n
    let holds (func : BitVec 7) (i : Instr) (h : Hold) : Prop := is func → exec i s = .next (s0.modThr th (fun t => { t with hold := h }))
    let mine : List Nat := s.groups.filterMap (fun e => match e.2 with | some g => if g.th = th then some e.1 else none | none => none)
    let sup : Prop := t0.level ≠ .user
    let goesOn (t : Thread) : Thread := { t with hold := .free }.follow (t.pc + 1)
    let noData (x : Lathe) : Lathe := { x with dcache := [] }
    let noCaches (x : Lathe) : Lathe := { x with dcache := [], icache := [] }
    let out (store : Bool) : Prop := ∃ p ∈ t0.loads, p.kind.isStore = store
    (is 0o002 → exec (.wait th {}) s = .next (s0.modThr th (fun t => { t with waiting := true }))) ∧
    (t0.waiting = true → t0.halted = false → t0.s.ip ≠ 0 ∨ t0.m.ip ≠ 0 ∨ t0.uep ≠ 0 → exec (.waitWake th) s = .next (s.modThr th (fun t =>
      { t with waiting := false, pc := t.pc + 1, fetched := [], fetchPend := none, checked := false }))) ∧
    holds 0o010 (.fbar th {}) .fbar ∧
    holds 0o011 (.vfence th {}) (.vfence (mine ++ t0.suspended)) ∧
    (sup → holds 0o015 (.tlbsync th {}) (.tlbsync (streamTags s th.l) (coreAccs s th.l) (streamElems s th.l))) ∧
    (sup → holds 0o016 (.afence th {}) (.afence false (mine ++ t0.suspended))) ∧
    (out false → holds 0o012 (.fenceR th {}) (.mem true false false)) ∧
    (out true → holds 0o013 (.fenceW th {}) (.mem false true false)) ∧
    (out false ∨ out true → holds 0o014 (.fenceRW th {}) (.mem true true true)) ∧
    (¬ out false → is 0o012 → exec (.fenceR th {}) s = .next (completes s th (packT 0o060 0o012 {}) n (s0.modLathe th.l noData, .seq))) ∧
    (¬ out true → is 0o013 → exec (.fenceW th {}) s = .next (issued s th (packT 0o060 0o013 {}) n id)) ∧
    (¬ out false → ¬ out true → is 0o014 →
      exec (.fenceRW th {}) s = .next ((s0.modLathe th.l noCaches).modThr th (fun t => t.goto (t.pc + 1)))) ∧
    (t0.halted = false → (s.lathe th.l).locked = false →
      (t0.hold = .fbar → t0.fpOut = [] → t0.trapReq = false → exec (.fenceComplete th) s = .next (s.modThr th goesOn)) ∧
      (t0.hold = .fbar → t0.fpOut ≠ [] → exec (.fenceComplete th) s = .next s) ∧
      (t0.hold = .fbar → t0.fpOut = [] → t0.trapReq = true → exec (.fenceComplete th) s = .next (takeFpTrap (entryTurns s th) th t0.pc)) ∧
      (t0.hold = .vfence gs → (∀ g ∈ gs, s.group g = none) → ¬ out true →
        exec (.fenceComplete th) s = .next ((s.modLathe th.l noData).modThr th (fun t => goesOn { t with suspended := [] }))) ∧
      (t0.hold = .vfence gs → (∃ g ∈ gs, s.group g ≠ none) ∨ out true → exec (.fenceComplete th) s = .next s) ∧
      (t0.hold = .mem true false false → ¬ out false → exec (.fenceComplete th) s = .next ((s.modLathe th.l noData).modThr th goesOn)) ∧
      (t0.hold = .mem false true false → ¬ out true → exec (.fenceComplete th) s = .next (s.modThr th goesOn)) ∧
      (t0.hold = .mem true true true → ¬ out false → ¬ out true →
        exec (.fenceComplete th) s = .next ((s.modLathe th.l noCaches).modThr th (fun t => { t with hold := .free }.goto (t.pc + 1)))) ∧
      (∀ ld st code, t0.hold = .mem ld st code → (ld = true ∧ out false) ∨ (st = true ∧ out true) → exec (.fenceComplete th) s = .next s) ∧
      (let waits : Prop := (∃ o ∈ s.wov.ops, o.tag ∈ tags) ∨ (∃ a ∈ accs, a.2 ∈ (s.thr ⟨th.l, Fin.ofNat 8 a.1⟩).accNums) ∨
         (∃ e ∈ elems, elemsLeft s e = true)
       t0.hold = .tlbsync tags accs elems →
         (¬ waits → exec (.fenceComplete th) s = .next (s.modThr th goesOn)) ∧ (waits → exec (.fenceComplete th) s = .next s)) ∧
      (t0.hold = .afence false gs → (∀ g ∈ gs, s.group g = none) → t0.loads = [] → t0.fencedAt = some (t0.pc, true) →
        exec (.fenceComplete th) s = .next ((s.modLathe th.l noCaches).modThr th (fun t =>
          { t with hold := .free, fencedAt := none, suspended := [] }.goto (t.pc + 1)))))

/-- Lengths and keys: SETVL and SETVLI keep at most VLMAX, SETSVL at most 16, and each returns what it set; WRPKR writes the 72 bits of PKR but for
bits 71..64. -/
def Obligations.LengthsAndKeysAreSet : Prop :=
  ∀ (th : Th) (f : TFld) (g : IFld) (s : State) (n : Nat),
    let t0 := (inSlot s th n).thr th
    let is (func : BitVec 7) : Prop := Issues s th (packT 0o060 func f) n
    let gives (func : BitVec 7) (i : Instr) (h : Thread → Thread) : Prop :=
      is func → exec i s = .next (issued s th (packT 0o060 func f) n h)
    let kept (most : Nat) : Word := BitVec.ofNat 36 (min (t0.rg f.ra).toNat most)
    (f.rb = 0 → f.mod = 0 → f.form = 0 →
      gives 0o021 (.setvl th f) (fun t => { t with vl := kept 1048576 }.wg f.rd (kept 1048576)) ∧
      gives 0o022 (.setsvl th f) (fun t => { t with svl := kept 16 }.wg f.rd (kept 16))) ∧
    (g.ra = 0 → Issues s th (packI 0o064 g) n → let v := BitVec.ofNat 36 g.imm.toNat
      exec (.setvli th g) s = .next (issued s th (packI 0o064 g) n (fun t => { t with vl := v }.wg g.rd v))) ∧
    (f.rd = 0 → f.mod = 0 → f.form = 0 → gives 0o020 (.wrpkr th f) (fun t =>
      { t with pkr := BitVec.ofNat 72 ((t0.rg f.rb).toNat % 2 ^ 28 * 2 ^ 36 + (t0.rg f.ra).toNat) }))

/-- TLBINV removes the entries whose block contains the address from the core's TLB and the eight spindles' TLBs of its lathe, in any ASID or
granule; TLBINVALL removes every one and drops the caches. Other lathes keep theirs, and the next instruction is fetched anew. -/
def Obligations.TlbInvalidationActsOnItsLathe : Prop :=
  ∀ (th : Th) (f : TFld) (s : State) (n : Nat), (s.thr th).level ≠ .user →
    let t0 := (inSlot s th n).thr th
    let va := (t0.rg f.ra).toNat
    let keep (e : TlbEntry) : Bool := decide (e.vbase ≠ va / 2 ^ e.bits * 2 ^ e.bits)
    let goesOn (t : State) : Prop := t.mem = s.mem ∧ t.thr th = t0.goto (t0.pc + 1)
    (f.rd = 0 → f.rb = 0 → f.mod = 0 → f.form = 0 → Issues s th (packT 0o060 0o040 f) n → ∃ t, exec (.tlbinv th f) s = .next t ∧
      (t.lathe th.l).tlb = (s.lathe th.l).tlb.filter keep ∧
      (∀ k, k / 8 = th.l.val → t.spin k = { (s.spin k) with tlb := (s.spin k).tlb.filter keep }) ∧
      (∀ k, k / 8 ≠ th.l.val → t.spin k = s.spin k) ∧ (∀ l, l ≠ th.l → t.lathe l = s.lathe l) ∧ goesOn t) ∧
    (Issues s th (packT 0o060 0o041 {}) n → ∃ t, exec (.tlbinvall th {}) s = .next t ∧
      (t.lathe th.l).tlb = [] ∧ (t.lathe th.l).icache = [] ∧ (t.lathe th.l).dcache = [] ∧
      (∀ k, k / 8 = th.l.val → t.spin k = { (s.spin k) with tlb := [] }) ∧
      (∀ k, k / 8 ≠ th.l.val → t.spin k = s.spin k) ∧ (∀ l, l ≠ th.l → t.lathe l = s.lathe l) ∧ goesOn t)

/-! ## Special registers (R204, R217, R218, R249, R261, R271 to R274, R295 to R299) -/

/-- MFSR reads the numbered register, MTSR writes its writable fields, each in one slot; the timebase latch is taken by TBL and consumed by TBH. A
write of MWDOG waits for the next tick, and after one of the translation context the next instruction is fetched anew. -/
def Obligations.SpecialRegistersReadAndWrite : Prop :=
  ∀ (th : Th) (f : IFld) (s : State) (n : Nat), (s.thr th).products = [] → (s.thr th).fpOut = [] →
    let t0 := (inSlot s th n).thr th
    let may (k : Nat) : Prop := k < 0o100 ∨ ((k < 0o140 ∨ 0o200 ≤ k) ∧ t0.level ≠ .user) ∨ t0.level = .machine
    let reads (k : Nat) (w : Word) (g : Thread → Thread) : Prop := f.imm = BitVec.ofNat 18 k → f.ra = 0 → may k →
      Issues s th (packI 0o061 f) n → exec (.mfsr th f) s = .next (issued s th (packI 0o061 f) n (fun t => (g t).wg f.rd w))
    let wrote (k : Nat) : Prop := f.imm = BitVec.ofNat 18 k ∧ f.rd = 0 ∧ may k ∧ Issues s th (packI 0o062 f) n
    let writes (k : Nat) (g : Word → Thread → Thread) : Prop := wrote k →
      exec (.mtsr th f) s = .next (issued s th (packI 0o062 f) n (g (t0.rg f.ra)))
    let switches (k : Nat) (g : Word → Thread → Thread) : Prop := wrote k →
      exec (.mtsr th f) s = .next ((inSlot s th n).modThr th (fun t => (g (t0.rg f.ra) t).goto (t.pc + 1)))
    let w16 (b : BitVec 16) : Word := BitVec.ofNat 36 b.toNat
    let causeIn (m : Bool) (w : Word) : CauseReg :=
      { int := w.getLsbD 35, esc := m && w.getLsbD 34, fromLevel := BitVec.ofNat 2 (w.toNat / 2 ^ 32), code := BitVec.ofNat 6 w.toNat }
    let causeOut (c : CauseReg) : Word := BitVec.ofNat 36
      (c.int.toNat * 2 ^ 35 + c.esc.toNat * 2 ^ 34 + c.fromLevel.toNat * 2 ^ 32 + c.code.toNat)
    let level : Nat := match t0.level with | .user => 0 | .supervisor => 1 | .machine => 2
    let high : Word := BitVec.ofNat 36 (s.tb.toNat / 2 ^ 36)
    reads 0o000 t0.vl id ∧ reads 0o001 t0.svl id ∧ reads 0o002 t0.ph id ∧ reads 0o003 t0.pl id ∧
    reads 0o004 (BitVec.ofNat 36 (t0.ften.toNat * 2 ^ 15 + t0.fpend.toNat * 2 ^ 10 + t0.fflags.toNat)) id ∧
    reads 0o005 (BitVec.ofNat 36 (s.devId % 64 * 2 ^ 7 + th.l.val * 2 ^ 3 + th.t.val)) id ∧
    reads 0o006 (BitVec.ofNat 36 s.tb.toNat) (fun t => { t with tbh := some high }) ∧
    (∀ w, t0.tbh = some w → reads 0o007 w (fun t => { t with tbh := none })) ∧
    (t0.tbh = none → reads 0o007 high id) ∧
    reads 0o010 (BitVec.ofNat 36 t0.pkr.toNat) id ∧ reads 0o011 (BitVec.ofNat 36 (t0.pkr.toNat / 2 ^ 36)) id ∧
    reads 0o040 (BitVec.ofNat 36 (t0.inup.toNat * 2 ^ 35 + t0.uie.toNat * 2 ^ 34 + level)) id ∧
    reads 0o041 t0.uentry id ∧ reads 0o042 (w16 t0.uep) id ∧ reads 0o043 (w16 t0.uee) id ∧ reads 0o044 t0.usplo id ∧
    reads 0o045 t0.usphi id ∧
    (∀ (r : LevelRegs) (base : Nat), (r, base) = (t0.s, 0o100) ∨ (r, base) = (t0.m, 0o140) →
      let k := if base = 0o100 then 1 else 0
      reads base (BitVec.ofNat 36 (r.busy.toNat * 2 ^ 35 + r.ie.toNat * 2 ^ 34)) id ∧ reads (base + 1) r.xpc id ∧
      reads (base + 2) (BitVec.ofNat 36 (r.pie.toNat * 4 + r.plv.toNat)) id ∧ reads (base + 3) (causeOut r.cause) id ∧
      reads (base + 4) r.info id ∧ reads (base + 5 + k) r.entry id ∧ reads (base + 6 + k) (w16 r.ip) id ∧
      reads (base + 7 + k) (w16 r.ien) id ∧ reads (base + 8 + k) r.scr0 id ∧ reads (base + 9 + k) r.scr1 id) ∧
    reads 0o105 (causeOut t0.cause2) id ∧
    reads 0o152 (BitVec.ofNat 36 (t0.mwdEn.toNat * 2 ^ 35 + t0.mwdCount.toNat)) id ∧
    reads 0o200 (BitVec.ofNat 36 (t0.tctlEn.toNat * 2 ^ 35 + t0.gran.toNat)) id ∧
    reads 0o201 (BitVec.ofNat 36 t0.root.toNat) id ∧ reads 0o202 (BitVec.ofNat 36 t0.asid.toNat) id ∧ reads 0o203 (BitVec.ofNat 36
      (t0.tfsr.valid.toNat * 2 ^ 35 + t0.tfsr.reason.toNat * 2 ^ 31 + t0.tfsr.level.toNat * 2 ^ 28 + t0.tfsr.acc.toNat * 2 ^ 26)) id ∧
    writes 0o002 (fun w t => { t with ph := w }) ∧ writes 0o003 (fun w t => { t with pl := w }) ∧
    writes 0o004 (fun w t => { t with ften := BitVec.ofNat 5 (w.toNat / 2 ^ 15), fpend := BitVec.ofNat 5 (w.toNat / 2 ^ 10),
                                      fflags := BitVec.ofNat 5 w.toNat }) ∧
    writes 0o040 (fun w t => { t with uie := w.getLsbD 34 }) ∧ writes 0o041 (fun w t => { t with uentry := w }) ∧
    writes 0o042 (fun w t => { t with uep := t.uep &&& ~~~ BitVec.ofNat 16 w.toNat }) ∧
    writes 0o043 (fun w t => { t with uee := BitVec.ofNat 16 w.toNat }) ∧
    writes 0o044 (fun w t => { t with usplo := w }) ∧ writes 0o045 (fun w t => { t with usphi := w }) ∧
    writes 0o100 (fun w t => { t with s := { t.s with busy := w.getLsbD 35, ie := w.getLsbD 34 } }) ∧
    writes 0o101 (fun w t => { t with s := { t.s with xpc := w } }) ∧
    writes 0o102 (fun w t => { t with s := { t.s with
      pie := w.getLsbD 2, plv := if w.toNat % 4 ≤ 1 then BitVec.ofNat 2 w.toNat else t.s.plv } }) ∧
    writes 0o103 (fun w t => { t with s := { t.s with cause := causeIn false w } }) ∧ writes 0o105 (fun w t => { t with cause2 := causeIn false w }) ∧
    writes 0o104 (fun w t => { t with s := { t.s with info := w } }) ∧ writes 0o106 (fun w t => { t with s := { t.s with entry := w } }) ∧
    writes 0o107 (fun w t => { t with s := { t.s with ip := t.s.ip &&& ~~~ BitVec.ofNat 16 w.toNat } }) ∧
    writes 0o110 (fun w t => { t with s := { t.s with ien := BitVec.ofNat 16 w.toNat } }) ∧
    writes 0o111 (fun w t => { t with s := { t.s with scr0 := w } }) ∧ writes 0o112 (fun w t => { t with s := { t.s with scr1 := w } }) ∧
    writes 0o140 (fun w t => { t with m := { t.m with busy := w.getLsbD 35, ie := w.getLsbD 34 } }) ∧
    writes 0o141 (fun w t => { t with m := { t.m with xpc := w } }) ∧
    writes 0o143 (fun w t => { t with m := { t.m with cause := causeIn true w } }) ∧
    writes 0o144 (fun w t => { t with m := { t.m with info := w } }) ∧
    writes 0o147 (fun w t => { t with m := { t.m with ien := BitVec.ofNat 16 w.toNat } }) ∧
    writes 0o150 (fun w t => { t with m := { t.m with scr0 := w } }) ∧ writes 0o151 (fun w t => { t with m := { t.m with scr1 := w } }) ∧
    writes 0o142 (fun w t => { t with m := { t.m with
      pie := w.getLsbD 2, plv := if w.toNat % 4 ≤ 2 then BitVec.ofNat 2 w.toNat else t.m.plv } }) ∧
    writes 0o145 (fun w t => { t with m := { t.m with entry := w } }) ∧
    writes 0o146 (fun w t => { t with m := { t.m with ip := t.m.ip &&& ~~~ BitVec.ofNat 16 w.toNat } }) ∧
    writes 0o152 (fun w t => { t with mwdAsk := some w }) ∧
    switches 0o200 (fun w t => { t with tctlEn := w.getLsbD 35, gran := if w.toNat % 4 = 3 then t.gran else BitVec.ofNat 2 w.toNat }) ∧
    switches 0o201 (fun w t => { t with root := BitVec.ofNat 27 w.toNat }) ∧ switches 0o202 (fun w t => { t with asid := BitVec.ofNat 8 w.toNat }) ∧
    writes 0o203 (fun w t => { t with tfsr := { t.tfsr with valid := t.tfsr.valid && !w.getLsbD 35 } })

/-- An instruction above the thread's level raises PRIV, and an unassigned or read-only special register ILLEGAL; neither does anything else. -/
def Obligations.PrivilegeAndAssignmentAreChecked : Prop :=
  ∀ (th : Th) (f : TFld) (g : IFld) (s : State) (n : Nat),
    let t0 := s.thr th
    let k := g.imm.toNat
    let stops (func : BitVec 7) (f : TFld) (i : Instr) : Prop :=
      Issues s th (packT 0o060 func f) n → exec i s = .next (privAt s th n (packT 0o060 func f))
    let ends (op : BitVec 8) (i : Instr) (how : State → Th → Nat → Word → State) : Prop :=
      Issues s th (packI op g) n → exec i s = .next (how s th n (packI op g))
    (t0.level = .user →
      stops 0o015 {} (.tlbsync th {}) ∧ stops 0o016 {} (.afence th {}) ∧ stops 0o041 {} (.tlbinvall th {}) ∧
      (f.rd = 0 → f.rb = 0 → f.mod = 0 → f.form = 0 → stops 0o040 f (.tlbinv th f)) ∧
      (f.rd = 0 → f.ra = 0 → f.rb = 0 → f.form = 0 → stops 0o031 f (.vsusp th f)) ∧
      (f.rd = 0 → f.mod = 0 → f.form = 0 → stops 0o032 f (.vresume th f))) ∧
    (srAssigned k = true → (t0.level = .user ∧ 0o100 ≤ k) ∨ (t0.level = .supervisor ∧ 0o140 ≤ k ∧ k < 0o200) →
      (g.ra = 0 → ends 0o061 (.mfsr th g) privAt) ∧ (g.rd = 0 → srWritable k = true → ends 0o062 (.mtsr th g) privAt)) ∧
    (srAssigned k = false ∨ g.ra ≠ 0 → ends 0o061 (.mfsr th g) illegalAt) ∧
    (srAssigned k = false ∨ g.rd ≠ 0 ∨ k ∈ [0o000, 0o001, 0o005, 0o006, 0o007, 0o010, 0o011] → ends 0o062 (.mtsr th g) illegalAt) ∧
    (srWritable k = false ↔ k ∈ [0o000, 0o001, 0o005, 0o006, 0o007, 0o010, 0o011] ∨ (0o011 < k ∧ k < 0o040)) ∧
    (srAssigned k = true ↔ k ≤ 0o011 ∨ (0o040 ≤ k ∧ k ≤ 0o045) ∨ (0o100 ≤ k ∧ k ≤ 0o112) ∨ (0o140 ≤ k ∧ k ≤ 0o152) ∨
      (0o200 ≤ k ∧ k ≤ 0o203))

/-! ## Groups and spindles (R74, R87 to R89, R100 to R144) -/

/-- A vector issue captures its descriptors, and the group that it completes enters every queue of its span in one action with the lengths, the
context and the epoch of its thread; a member of an open group waits for the others; without room, and with no floating-point trap on its way,
nothing issues. VCHAIN opens and discards groups, of up to seven members. -/
def Obligations.VectorIssueFormsAndQueuesGroups : Prop :=
  ∀ (th : Th) (v : VFld) (f : TFld) (s : State) (n : Nat),
    let t0 := (inSlot s th n).thr th
    let dw := t0.rd v.dw.toNat
    let m : Member :=
      { v := v, vl := t0.vl.toNat, dw := dw, da := t0.rd v.da.toNat, db := t0.rd v.db.toNat, dc := t0.rd v.dc.toNat, dm := t0.rd (dMreg dw) }
    let mine : Nat := s.groups.countP (fun e => match e.2 with | some g => decide (g.th = th) | none => false)
    let spans (v0 : VFld) (k : Nat) : Bool := decide (v0.sp0.toNat ≤ k ∧ k ≤ v0.sp0.toNat + v0.scnt.toNat)
    let room (v0 : VFld) : Prop := mine < 4 ∧ ∀ k, k < 8 → spans v0 k = true → (s.spin (8 * th.l.val + k)).queue.length < 4
    let queued (ms : List Member) : Prop := ∃ (t : State) (g : Group), exec (.vectorIssue th v) s = .next t ∧
      t.group s.nextGroup = some g ∧ t.nextGroup = s.nextGroup + 1 ∧ g.th = th ∧ g.num = t0.groupNum ∧ g.vl = (ms.headD m).vl ∧
      g.sp0 = (ms.headD m).v.sp0.toNat ∧ g.scnt = (ms.headD m).v.scnt.toNat ∧ g.members = ms ∧ g.epoch = (s.lathe th.l).epoch ∧
      g.started = false ∧ g.resumed = false ∧ (sealedDsts g = [] → g.sealKey = s.nextGroup) ∧
      g.ctx = { level := t0.level, en := t0.tctlEn, gran := t0.gran, root := t0.root, asid := t0.asid, pkr := t0.pkr } ∧
      (let q := if q144 (strsOf ms) then 144 else 16
       let b := q * ((g.vl + q * (g.scnt + 1) - 1) / (q * (g.scnt + 1)))
       ∀ k p, g.parts[k]? = some p → p.first = min (k * b) g.vl ∧ p.last1 = min ((k + 1) * b) g.vl ∧ p.next = p.first) ∧
      (∀ k, k < 8 → t.spin (8 * th.l.val + k) = if spans (ms.headD m).v k then
        { (s.spin (8 * th.l.val + k)) with queue := (s.spin (8 * th.l.val + k)).queue ++ [s.nextGroup] } else s.spin (8 * th.l.val + k)) ∧
      t.thr th = { t0 with groupNum := t0.groupNum + 1, openGrp := none }.follow (t0.pc + 1) ∧ t.mem = s.mem
    let opens (w : TFld) : Prop := w.rd = 0 ∧ w.ra = 0 ∧ w.rb = 0 ∧ w.form = 0
    let chains (g : Thread → Thread) : Prop := exec (.vchain th f) s = .next (issued s th (packT 0o060 0o030 f) n g)
    (Issues s th (packV v) n →
      (vLegal v = false → exec (.vectorIssue th v) s = .next (illegalAt s th n (packV v))) ∧
      (vLegal v = true →
        (t0.openGrp = none → room v → queued [m]) ∧
        (∀ o, t0.openGrp = some o → o.level = t0.level → o.members.length + 1 < o.want → exec (.vectorIssue th v) s =
          .next (issued s th (packV v) n (fun t => { t with openGrp := some { o with members := o.members ++ [m] } }))) ∧
        (∀ o, t0.openGrp = some o → o.level = t0.level → o.members.length + 1 = o.want → room ((o.members ++ [m]).headD m).v →
          queued (o.members ++ [m])))) ∧
    ((s.thr th).word = some (packV v) → vLegal v = true → (s.thr th).openGrp = none → ¬ room v → (s.lathe th.l).pair = none →
      (∀ c, (s.thr th).trapBy c = false) →
      exec (.vectorIssue th v) s = .next (if (nextIssuer s th.l).isSome then s else idleSlots s th)) ∧
    (Issues s th (packT 0o060 0o030 f) n → opens f →
      (f.mod ≠ 0 → t0.openGrp = none → chains (fun t => { t with openGrp := some { want := f.mod.toNat, level := t.level } })) ∧
      (f.mod ≠ 0 → t0.openGrp ≠ none → exec (.vchain th f) s = .next (illegalAt s th n (packT 0o060 0o030 f))) ∧
      (∀ o, f.mod = 0 → t0.openGrp = some o → o.level = t0.level → chains (fun t => { t with openGrp := none })))

/-- A group that heads every queue of its span with its gates open is checked at its start: where a check fails it is refused, recorded in the first
spindle of its span with the failing code, and gone, its start triggers with it; otherwise it runs, with each spindle at the start of its block. -/
def Obligations.GroupsStartOrAreRefused : Prop :=
  ∀ (k : Fin 128) (s : State) (gi : Nat) (g : Group), NoJob s →
    (s.spin k.val).queue.head? = some gi → s.group gi = some g → g.started = false → g.members ≠ [] →
    (∀ k ∈ g.spindles, (s.spin k).queue.head? = some gi ∧ ((s.cin k).en = false ∨ (s.spin k).gate = true)) → g.spindle 0 ∈ g.spindles →
    (∀ f ks, checkGroup s g = (s, some (some f, ks)) → Unheard s (pselSpnEnd (g.spindle 0)) → ∃ t, exec (.groupStart k) s = .next t ∧
      t.group gi = none ∧ (∀ k ∈ g.spindles, gi ∉ (t.spin k).queue ∧ (t.spin k).gate = false) ∧
      (let x := t.spin (g.spindle 0)
       x.valid = true ∧ x.code = BitVec.ofNat 6 f.code ∧ x.sidx = BitVec.ofNat 3 f.sidx ∧ x.seqno = BitVec.ofNat 5 g.num.toNat ∧ x.elem = 0 ∧
       x.refcnt = satAdd (s.spin (g.spindle 0)).refcnt 1) ∧ t.mem = s.mem) ∧
    (∀ ks, checkGroup s g = (s, some (none, ks)) → g.twoPass = false → g.resumed = false → (∀ x ∈ strsOf g.members, x.role ≠ .table) → sealedDsts g = [] →
      (∀ p ∈ g.parts, p.first < p.last1 ∧ p.next = p.first ∧ p.ended = false) → ∃ t g', exec (.groupStart k) s = .next t ∧
      t.group gi = some g' ∧ g'.started = true ∧ g'.tb0 = s.tb ∧ g'.reached = ks ∧ g'.members = g.members ∧ g'.vl = g.vl ∧
      g'.parts.map (fun p => (p.first, p.last1, p.next, p.start)) = g.parts.map (fun p => (p.first, p.last1, p.first, p.first)) ∧
      (∀ k ∈ g.spindles, (t.spin k).gate = false ∧ (t.spin k).runSeq = BitVec.ofNat 5 g.num.toNat ∧
        (t.spin k).runThr = BitVec.ofFin g.th.t ∧ (t.spin k).queue = (s.spin k).queue) ∧ t.mem = s.mem)

/-- A group ends in a spindle once its readers have stopped and every element below the stop is written: STR_STAT, STR_ELEM and the flags are set,
and the queue moves on. A block that is complete reports DONE (0), or DONEP (1) where it carried poison, and one that a fault or a request stopped
its status and the first element that it has not written. -/
def Obligations.GroupsEndWithTheirStatus : Prop :=
  ∀ (k : Fin 128) (s : State) (gi : Nat) (rest : List Nat) (g : Group) (p : Part), NoJob s → Unheard s (pselSpnEnd k.val) →
    (s.spin k.val).queue = gi :: rest → gi ∉ rest → s.group gi = some g → g.started = true → g.spindle 0 ≤ k.val →
    g.parts[k.val - g.spindle 0]? = some p → p.ended = false → (∀ m ∈ g.members, m.op.isRed = false) →
    writesOut s k.val gi = false →
    (∃ i, i ≠ k.val - g.spindle 0 ∧ ∃ p', g.parts[i]? = some p' ∧ p'.ended = false) →
    let ends (code elem : Nat) : Prop := ∃ t, exec (.groupEnd k) s = .next t ∧
      (let x := t.spin k.val
       x.valid = true ∧ x.code = BitVec.ofNat 6 code ∧ x.elem = BitVec.ofNat 21 elem ∧ x.seqno = BitVec.ofNat 5 g.num.toNat ∧
       x.pcnt = BitVec.ofNat 21 p.pcnt ∧ x.xflag = p.kflag ∧ x.queue = rest ∧ x.refcnt = (s.spin k.val).refcnt) ∧
      (∃ g', t.group gi = some g' ∧ g'.parts[k.val - g.spindle 0]? = some { p with ended := true, ahead := [] }) ∧
      (∀ j, j ≠ k.val → t.spin j = s.spin j) ∧ t.mem = s.mem ∧ t.banks = s.banks ∧ t.threads = s.threads
    (p.last1 ≤ p.next → p.faulted = false → ends p.poisoned.toNat g.vl) ∧
    (∀ r, p.next < p.last1 ∨ p.faulted = true → p.stop = some r → r ≤ p.next → 1 < p.cause.toNat → ends p.cause.toNat p.next) ∧
    (p.next < p.last1 → p.stop = none ∨ (∃ r, p.stop = some r ∧ p.next < r) → exec (.groupEnd k) s = .next s)

/-- A stop request fixes where each running spindle of a group stops, at its next multiple of the block's granularity above what its readers have
presented, with the status of the request: SPN_CTL for the queue of one spindle, VSUSP for the groups of one thread. An abort decides over a
suspension. A spindle whose block is done or whose part has ended keeps its state. -/
def Obligations.StopRequestsFixWhereAGroupStops : Prop :=
  ∀ (k : Fin 128) (w : Master) (th : Th) (f : TFld) (s : State) (gi n : Nat) (g : Group), s.group gi = some g → g.started = true →
    s.wov.ops = [] →
    let q := if q144 (strsOf g.members) then 144 else 16
    let told (code : Nat) (t : State) : Prop := ∃ g', t.group gi = some g' ∧ g'.members = g.members ∧ ∀ i p, g.parts[i]? = some p →
      (p.ended = false → g.blockDone i = false → p.stop = none →
        g'.parts[i]? = some (let r := max p.first (min p.last1 ((p.head + q - 1) / q * q))
          { p with stop := some r, cause := BitVec.ofNat 6 code, drained := decide (r ≤ p.head) })) ∧
      (∀ r, p.ended = false → g.blockDone i = false → p.stop = some r → p.cause = 2 →
        g'.parts[i]? = some { p with cause := BitVec.ofNat 6 code }) ∧
      (p.ended = true ∨ g.blockDone i = true → g'.parts[i]? = some p)
    ((s.spin k.val).queue = [gi] → (w = .head ∨ ∃ u, w = .core u ∧ u.l.val = k.val / 8 ∧ (s.thr u).level = .machine) →
      (∃ t, exec (.spnCtlSusp w k) s = .next t ∧ told 2 t ∧ t.mem = s.mem ∧ t.spindles = s.spindles ∧ t.threads = s.threads) ∧
      (∃ t, exec (.spnCtlAbort w k) s = .next t ∧ told 0o51 t ∧ t.mem = s.mem ∧ t.spindles = s.spindles ∧ t.threads = s.threads)) ∧
    (groupsOf s ⟨th.l, Fin.ofNat 8 f.mod.toNat⟩ = [gi] → Issues s th (packT 0o060 0o031 f) n → (s.thr th).level ≠ .user →
      f.rd = 0 → f.ra = 0 → f.rb = 0 → f.form = 0 →
      let t0 := (inSlot s th n).thr th
      ∃ t, exec (.vsusp th f) s = .next t ∧ told 2 t ∧ t.mem = s.mem ∧
        t.thr th = { t0 with suspended := t0.suspended ++ [gi] }.follow (t0.pc + 1))

/-- VRESUME, while no new epoch of the instance awaits its acknowledgements: a record that is not VALID is refused with DESCRSV in the named
spindle; one that is accepted becomes a new group of the thread on the named span, each spindle at the element its record gives. -/
def Obligations.ResumeReadsTheSuspendRecord : Prop :=
  ∀ (th : Th) (f : TFld) (s : State) (n : Nat),
    let t0 := (inSlot s th n).thr th
    let base := (t0.rg f.ra).toNat
    let sp0 := (t0.rg f.rb).toNat % 8
    let word (i : Nat) : Word := (s.readWord (0o000400000000 + th.l.val * 0o1000000 + base + i)).1
    let goesOn (t : State) : Prop := t.thr th = { t0 with groupNum := t0.groupNum + 1 }.follow (t0.pc + 1)
    Issues s th (packT 0o060 0o032 f) n → t0.level ≠ .user → f.rd = 0 → f.mod = 0 → f.form = 0 → (groupsOf s th).length < 4 →
    epochAwaited s th.l = false → base + 592 ≤ 262144 → CleanAt s (0o000400000000 + th.l.val * 0o1000000 + base) 592 →
    ((word 0).getLsbD 32 = false → Unheard s (pselSpnEnd (8 * th.l.val + sp0)) → ∃ t, exec (.vresume th f) s = .next t ∧
      (let x := t.spin (8 * th.l.val + sp0)
       x.valid = true ∧ x.code = 0o10 ∧ x.elem = 0 ∧ x.seqno = BitVec.ofNat 5 t0.groupNum.toNat ∧
       x.refcnt = satAdd (s.spin (8 * th.l.val + sp0)).refcnt 1) ∧ goesOn t) ∧
    (∀ g, recGroup (inSlot s th n) th base sp0 = some g →
      (∀ k, k < 8 → sp0 ≤ k → k ≤ sp0 + (word 0).toNat / 2 ^ 22 % 8 → (s.spin (8 * th.l.val + k)).queue.length < 4) →
      ∃ t key, exec (.vresume th f) s = .next t ∧ t.group s.nextGroup = some { g with sealKey := key } ∧ g.resumed = true ∧
        g.started = false ∧ g.vl = (word 0).toNat % 2 ^ 21 ∧ g.members.length = (word 0).toNat / 2 ^ 28 % 16 ∧
        (∀ i p, g.parts[i]? = some p → p.next = (word (80 + 64 * i)).toNat % 2 ^ 21 ∧ p.first ≤ p.next ∧ p.next ≤ p.last1) ∧
        (∀ k ∈ g.spindles, (t.spin k).queue = (s.spin k).queue ++ [s.nextGroup]) ∧ t.mem = s.mem ∧ goesOn t)

/-- One element of a running group with one member. The readers present ADD, SUB, MUL, AND, OR or XOR over I36 with broadcast operands as the
result, reduced modulo 2^36, and change nothing else. The writer, once the readers are done, writes a presented element to its word of the local
bank by the spindle's own request, and the spindle goes on to the next; every other nonet of memory keeps its value. A bank that the stream's
placement does not own ends the group there with NOWNER. -/
def Obligations.ElementStepsComputeAndWrite : Prop :=
  ∀ (k : Fin 128) (s : State) (gi : Nat) (g : Group) (m : Member) (p : Part), NoJob s → Unheard s (pselSpnStrip k.val) →
    (s.spin k.val).queue.head? = some gi → s.group gi = some g → g.members = [m] → g.spindle 0 ≤ k.val →
    g.parts[k.val - g.spindle 0]? = some p → g.started = true → p.ended = false → p.stop = none → p.next < p.last1 → p.remote = [] → p.bound = [] →
    g.ctx.translates = false → dEt m.dw = some .i36 → dSpace m.dw = spLocal → dMen m.dw = false → dS m.dw = false →
    let a := m.da.w0
    let b := m.db.w0
    let who := reqStream k.val g.inst g.epoch
    let pa := (BitVec.ofInt 36 ((m.dw.w0.toNat : Int) + p.next * dStride m.dw)).toNat
    let n := bankOf s pa
    let steps (want : State → Group → Part → Prop) : Prop := ∃ t g' p', exec (.bankAccess (.element k)) s = .next t ∧
      t.group gi = some g' ∧ g'.parts[k.val - g.spindle 0]? = some p' ∧ (∀ j, j ≠ gi → t.group j = s.group j) ∧
      t.threads = s.threads ∧ t.spindles = s.spindles ∧ want t g' p'
    (p.ahead = [] → dEt m.da = some .i36 → dEt m.db = some .i36 → dSpace m.da = spBcast → dSpace m.db = spBcast → ∀ e : BitVec 6 × Word,
      e ∈ [(0o00, BitVec.ofInt 36 (a.toInt + b.toInt)), (0o01, BitVec.ofInt 36 (a.toInt - b.toInt)), (0o02, BitVec.ofInt 36 (a.toInt * b.toInt)),
        (0o20, a &&& b), (0o21, a ||| b), (0o22, a ^^^ b)] → m.v.vfunc = e.1 → steps (fun t g' p' => t.mem = s.mem ∧ t.banks = s.banks ∧
        g' = { g with parts := g'.parts } ∧ ∃ f, p' = { p with ahead := [f] } ∧ f.fault = none ∧ f.kflag = p.kflag ∧
          f.poisoned = p.poisoned ∧ f.outs = [(0, false, p.next, { bits := BitVec.ofNat 72 e.2.toNat })])) ∧
    (∀ f e, p.ahead = [f] → p.next + 1 = p.last1 → f.fault = none → f.outs = [(0, false, p.next, e)] → e.poison = false →
      m.op ≠ .compress → m.op ≠ .expand → pa < 0o000400000000 → pa / 2 ^ 19 = k.val → (s.bank (8 * k.val)).skew = dK m.dw →
      (judge s n who true = .granted → steps (fun t _ p' => t.banks = s.banks ∧
        (∀ c, t.cell c = if c / 4 = placeOf s pa then encNonet (BitVec.ofNat 9 (e.bits.toNat / 2 ^ (9 * (c % 4)))) else s.cell c) ∧
        p'.next = p.next + 1 ∧ p'.ahead = [] ∧ p'.stop = none ∧ p'.pcnt = p.pcnt ∧ p'.kflag = f.kflag)) ∧
      (judge s n who true = .nonOwner → steps (fun t _ p' => t.mem = s.mem ∧
        p'.next = p.next ∧ p'.ahead = [] ∧ p'.stop = some p.next ∧ p'.cause = 0o41 ∧ p'.sidx = 4 ∧ p'.fva = BitVec.ofNat 36 pa ∧
        (t.bank n).nown = true ∧ (t.bank n).nownCnt = satAdd (s.bank n).nownCnt 1)))

/-! ## Banks (R42 to R72) -/

/-- Who a bank admits: its owner, a borrower within LSCOPE for reads or for both, the scrubber, the tailstock under seal lock, the headstock, and
the Wovas engine of a migrating instance; never a write under a seal lock or its drain. Another request is a non-owner access, a permitted one waits
while the bank drains, and a permitted write of another epoch is stale. -/
def Obligations.BanksJudgeEveryRequest : Prop :=
  ∀ (s : State) (n : Nat) (q : Req) (write : Bool),
    let b := s.bank n
    let locked : Prop := b.sealed = true ∨ b.drain = some .sealLock ∨ b.drain = some .cancelled
    let pending : Prop := b.drain ≠ none ∨ b.march = true
    let idle : Prop := ¬ pending ∧ b.sealed = false ∧ b.retired = false
    let owner : Prop := q.cl = b.ownCl ∧ q.id = b.ownId.toNat ∧ q.inst = b.inst
    let borrower : Prop := (b.lend = 2 ∨ (b.lend = 1 ∧ write = false)) ∧ q.inst = b.inst ∧
      ((b.lscope = 0 ∧ (q.cl = 0 ∨ q.cl = 1) ∧ q.lathe = some (n / 64)) ∨ (b.lscope = 1 ∧ q.cl ≠ 3) ∨ b.lscope = 2)
    let special : Prop := (q.cl = 4 ∧ write = false ∧ b.sealed = true) ∨ (q.cl = 7 ∧ (if write then idle else b.retired = false)) ∨
      (q.cl = 3 ∧ write = false ∧ migrating s b.inst = true ∧ q.inst = b.inst)
    let allowed : Prop := ¬ (write = true ∧ locked) ∧ (owner ∨ borrower ∨ special)
    (q.scrub = true → (judge s n q write = .granted ↔ write = false ∨ (idle ∧ ¬ locked)) ∧
      (judge s n q write = .granted ∨ judge s n q write = .nonOwner)) ∧
    (q.scrub = false → b.retired = true → judge s n q write = .retired) ∧
    (q.scrub = false → b.retired = false → (judge s n q write = .nonOwner ↔ ¬ allowed)) ∧
    (q.scrub = false → b.retired = false → allowed →
      ((b.march = true ∧ q.cl ≠ 5) ∨ b.drain = some .handover ∨ b.drain = some .skew → judge s n q write = .stalls) ∧
      (¬ (b.march = true ∧ q.cl ≠ 5) → b.drain ≠ some .handover → b.drain ≠ some .skew →
        (write = false → judge s n q write = .granted) ∧
        (write = true → q.epoch = none ∨ q.epoch = some b.epoch → judge s n q write = .granted) ∧
        (∀ e, write = true → q.epoch = some e → e ≠ b.epoch → judge s n q write = .stale)))

/-- A bank cycle performs the read and the write that its ports grant together, the read returning what stood before the write; a lower request at
the same port loses the cycle and is counted. A request that has stalled for 255 bank cycles is granted ahead of the writer. -/
def Obligations.BankCyclesGrantByPriority : Prop :=
  ∀ (n : Fin 1024) (s : State) (core : Th) (r w : PortReq) (i : Fin 3), NoJob s → heldAt s n.val = none → r.who = .remote (.core core) → w.who = .writer →
    judge s n.val (portAsk n.val r).q false = .granted → judge s n.val (portAsk n.val w).q true = .granted →
    let place (x : PortReq) : Nat := 65536 * n.val + 4 * x.row.toNat
    let b := s.bank n.val
    let written (t : State) : Prop := ∀ c, t.cell c =
      if c / 16 = place w / 4 ∧ w.mask.getLsbD (c % 16) = true
        then encNonet (BitVec.ofNat 9 ((quadGet w.data (c / 4 % 4)).toNat / 2 ^ (9 * (c % 4)))) else s.cell c
    (CleanAt s (place r) 4 → ∃ t, exec (.bankAccess (.cycle n [r] [w])) s = .next t ∧ written t ∧
      tget {} t.fab.reply core.l.val = { addr := addrOfRow s n.val r.row.toNat, words := (List.range 4).map (fun j => s.readWord (place r + j)), error := false } ∧
      (∀ j, j ≠ n.val → t.bank j = s.bank j) ∧ t.threads = s.threads) ∧
    (let d : PortReq := { who := .readStream i, row := r.row, inst := w.inst, epoch := w.epoch }
     b.stallRmtR < 255 → judge s n.val (portAsk n.val d).q false = .granted → ∃ t, exec (.bankAccess (.cycle n [r, d] [])) s = .next t ∧
      t.bank n.val = { b with rmtr := satAdd b.rmtr 1, stallRmtR := b.stallRmtR + 1, stallScrR := 0, stallRmtW := 0, stallScrW := 0 } ∧
      t.mem = s.mem ∧ t.fab = s.fab) ∧
    (let x : PortReq := { w with who := .remote (.core core) }
     255 ≤ b.stallRmtW → judge s n.val (portAsk n.val x).q true = .granted → x.mask = 0xFFFF →
      ∃ t, exec (.starvationPromotion n true x [w]) s = .next t ∧ (t.bank n.val).stallRmtW = 0 ∧
      (∀ j, j < 4 → t.readWord (place x + j) = (quadGet x.data j, false)) ∧ ∀ c, c / 16 ≠ place x / 4 → t.cell c = s.cell c)

/-- A write of BNK_OWN starts a handover with the new fields in force, the remote port parked on the old owner until its end; one that R58 refuses
leaves the register and sets HOREJ; the end of the drain clears PENDING. SKEW changes in all eight banks when the last has drained. Only the
headstock, machine-level code of the bank's lathe and, in Open mode, the host may write; to any other master the write is a bus error. -/
def Obligations.OwnershipPassesByHandover : Prop :=
  ∀ (n : Fin 1024) (k : Fin 128) (m : Master) (w : Word) (s : State), s.pci.stalled = [] → s.wov.waiting = [] →
    let b := s.bank n.val
    let x : Bank := { b with ownCl := BitVec.ofNat 3 (w.toNat / 2 ^ 30), ownId := BitVec.ofNat 7 (w.toNat / 2 ^ 23), inst := BitVec.ofNat 4 (w.toNat / 2 ^ 19), lend := BitVec.ofNat 2 (w.toNat / 2 ^ 17), lscope := BitVec.ofNat 2 (w.toNat / 2 ^ 15), epoch := BitVec.ofNat 9 w.toNat }
    let may : Prop := m = .head ∨ (∃ th, m = .core th ∧ th.l.val = n.val / 64 ∧ (s.thr th).level = .machine) ∨ (∃ f, m = .pciein f ∧ s.pwr.mode = 6)
    let quiet : Prop := b.drain = none ∧ b.march = false ∧ b.sealed = false ∧ b.retired = false
    let refused : Prop := (x.ownCl = 0 ∧ (x.ownId.toNat ≠ n.val / 8 ∨ (s.spin (n.val / 8)).inSvc = false)) ∨ x.ownCl = 7 ∨ x.lend = 3 ∨ x.lscope = 3
    let group : List Nat := (List.range 8).map (fun j => 8 * k.val + j)
    (¬ may → (∃ t, exec (.bnkOwnWrite m n w) s = .next t ∧ Denied s t m (0o100 * n.val)) ∧
      ∃ t, exec (.bnkCfgWrite m n w) s = .next t ∧ Denied s t m (0o100 * n.val + 1)) ∧
    (may → quiet → ¬ refused → x ≠ b → ∃ t, exec (.bnkOwnWrite m n w) s = .next t ∧
      t.bank n.val = { x with drain := some .handover, drainTicks := 0, parkOld := some b.parked } ∧ (∀ j, j ≠ n.val → t.bank j = s.bank j) ∧ t.mem = s.mem) ∧
    (may → quiet → ¬ refused → x = b → exec (.bnkOwnWrite m n w) s = .next s) ∧
    (may → (quiet ∧ refused) ∨ b.drain ≠ none ∨ b.march = true ∨ b.retired = true ∨
        (b.sealed = true ∧ ((x.ownCl, x.ownId, x.inst, x.lend, x.lscope) ≠ (b.ownCl, b.ownId, b.inst, b.lend, b.lscope) ∨ x.epoch = b.epoch)) →
      exec (.bnkOwnWrite m n w) s = .next (s.setBank n.val { b with horej := true })) ∧
    (may → b.sealed = true → b.drain = none → b.march = false → b.retired = false →
      (x.ownCl, x.ownId, x.inst, x.lend, x.lscope) = (b.ownCl, b.ownId, b.inst, b.lend, b.lscope) → x.epoch ≠ b.epoch →
      exec (.bnkOwnWrite m n w) s = .next (s.setBank n.val x)) ∧
    (b.drain = some .handover → b.newEpoch = none → b.march = false → exec (.handoverDrainEnd n) s = .next (s.setBank n.val
      (if b.heldLock then { b with heldLock := false, drain := some .sealLock, drainTicks := 0, parkOld := none }
       else { b with drain := none, parkOld := none }))) ∧
    (may → n.val = 8 * k.val → w.getLsbD 0 ≠ b.skew →
      ((∀ j ∈ group, (s.bank j).drain = none ∧ (s.bank j).march = false ∧ (s.bank j).sealed = false) → ∃ t, exec (.bnkCfgWrite m n w) s = .next t ∧
        (∀ j ∈ group, (t.bank j).drain = some .skew ∧ (t.bank j).drainTicks = 0 ∧ (t.bank j).skew = (s.bank j).skew) ∧ (t.bank n.val).skewNext = w.getLsbD 0 ∧
        (∀ j, j ∉ group → t.bank j = s.bank j) ∧ t.mem = s.mem) ∧
      ((∃ j ∈ group, (s.bank j).drain ≠ none ∨ (s.bank j).march = true ∨ (s.bank j).sealed = true) →
        exec (.bnkCfgWrite m n w) s = .next (s.setBank n.val { b with horej := true }))) ∧
    (may → n.val % 8 ≠ 0 ∨ w.getLsbD 0 = b.skew → exec (.bnkCfgWrite m n w) s = .next s) ∧
    ((∀ j ∈ group, (s.bank j).drain = some .skew ∧ (s.bank j).heldLock = false ∧ (s.bank j).newEpoch = none ∧ (s.bank j).march = false) →
      ∃ t, exec (.skewDrainEnd k) s = .next t ∧ (t.bank (8 * k.val)).skew = (s.bank (8 * k.val)).skewNext ∧
        (∀ j ∈ group, (t.bank j).drain = none) ∧ (∀ j, j ∉ group → t.bank j = s.bank j) ∧ t.mem = s.mem)

/-- Seal locks: LOCK drains a bank and then seals it, a LOCK during a handover is held, RELEASE unseals, discards a held LOCK or cancels a draining
one, and a LOCK during a cancelled drain restores it. -/
def Obligations.SealLocksDrainAndRelease : Prop :=
  ∀ (n : Fin 1024) (s : State), s.pci.stalled = [] → s.wov.waiting = [] →
    let b := s.bank n.val
    let gives (i : Instr) (y : Bank) : Prop := ∃ t, exec i s = .next t ∧ t.bank n.val = y ∧ (∀ j, j ≠ n.val → t.bank j = s.bank j) ∧ t.mem = s.mem
    (b.sealed = false → b.drain = none → b.march = false → b.heldLock = false → gives (.lock n) { b with drain := some .sealLock, drainTicks := 0 }) ∧
    (b.sealed = false → b.drain = some .handover → b.heldLock = false → gives (.lock n) { b with heldLock := true }) ∧
    (b.sealed = false → b.drain = some .cancelled → b.heldLock = false → gives (.lock n) { b with drain := some .sealLock }) ∧
    (b.heldLock = true ∨ b.drain = some .sealLock ∨ b.sealed = true → gives (.lock n) b) ∧
    (b.sealed = true → gives (.release n) { b with sealed := false }) ∧
    (b.sealed = false → b.drain = some .sealLock → gives (.release n) { b with heldLock := false, drain := some .cancelled }) ∧
    (b.sealed = false → b.drain ≠ some .sealLock → gives (.release n) { b with heldLock := false }) ∧
    (b.drain = some .sealLock → b.newEpoch = none → gives (.sealLockDrainEnd n) { b with drain := none, sealed := true }) ∧
    (b.drain = some .cancelled → b.newEpoch = none → gives (.sealLockDrainEnd n) { b with drain := none })

/-! ## The nonet code (R312 to R316) -/

/-- Every nonet that is written reads back clean; one flipped bit of it is corrected, two are detected, and the poison pattern reads poisoned. A
word written under a nonet mask reads back in the enabled nonets and leaves every other nonet of memory. -/
def Obligations.NonetCodeCorrectsOneAndDetectsTwo : Prop :=
  (∀ d : BitVec 9, classify (encNonet d) = .clean ∧ delivered (encNonet d) = d) ∧
  (∀ (d : BitVec 9) (i : Nat), i < 14 → classify (encNonet d ^^^ BitVec.ofNat 14 (2 ^ i)) = .correctable ∧
    delivered (encNonet d ^^^ BitVec.ofNat 14 (2 ^ i)) = d) ∧
  (∀ (d : BitVec 9) (i j : Nat), i < j → j < 14 →
    classify (encNonet d ^^^ BitVec.ofNat 14 (2 ^ i) ^^^ BitVec.ofNat 14 (2 ^ j)) = .uncorrectable) ∧
  classify poisonNonet = .poison ∧ isBad poisonNonet = true ∧
  (∀ (s : State) (place : Nat) (w : Word) (mask : BitVec 4),
    let t := s.writeWord place w mask
    (mask = 0xF → t.readWord place = (w, false)) ∧
    (∀ j, j < 4 → t.cell (4 * place + j) = if mask.getLsbD j then encNonet (BitVec.ofNat 9 (w.toNat / 2 ^ (9 * j))) else s.cell (4 * place + j)) ∧
    (∀ a, a < 4 * place ∨ 4 * place + 4 ≤ a → t.cell a = s.cell a) ∧ t.threads = s.threads ∧ t.banks = s.banks)

/-! ## The core's control register (R231, R237, R238, R256) -/

/-- A write of LTH_CORECFG by the headstock or by machine-level code of the lathe sets its fields, and of any other master is a bus error; a change
of an operating field starts a drain, and a thread enabled for the first time starts at machine level at MENTRY with its shadow busy. The end of the
drain applies the setting, with empty caches and no floating-point instruction outstanding. -/
def Obligations.CoreConfigurationDrainsAndApplies : Prop :=
  ∀ (m : Master) (l : Fin 16) (w : Word) (s : State),
    let x := s.lathe l
    let may : Prop := m = .head ∨ ∃ th, m = .core th ∧ th.l = l ∧ (s.thr th).level = .machine
    let det : Bool := w.getLsbD 12 || (x.det && decide (m ≠ .head) && decide (s.pwr.mode = 7))
    let changed : Bool := det != x.det || w.getLsbD 11 != x.dual || w.getLsbD 10 != x.pred || w.getLsbD 9 != x.icoff || w.getLsbD 8 != x.dcoff
    (¬ may → ∃ t, exec (.lthCorecfgWrite m l w) s = .next t ∧ Denied s t m (0o300000 + 0o2000 * l.val)) ∧
    (may → ∃ t, exec (.lthCorecfgWrite m l w) s = .next t ∧
      t.lathe l = { x with det := det, dual := w.getLsbD 11, pred := w.getLsbD 10, icoff := w.getLsbD 9, dcoff := w.getLsbD 8,
                           ten := BitVec.ofNat 8 w.toNat, drain := x.drain || changed } ∧
      (∀ th, t.thr th = if th.l = l ∧ w.getLsbD th.t.val = true ∧ (s.thr th).started = false then
        { (s.thr th) with pc := (s.thr th).m.entry, fetched := [], fetchPend := none, checked := false, started := true, level := .machine,
                          m := { (s.thr th).m with busy := true, ie := false, cause := {} }, halted := (s.thr th).halted || x.hor }
        else s.thr th) ∧ (∀ k, k ≠ l → t.lathe k = s.lathe k) ∧ t.mem = s.mem ∧ t.banks = s.banks) ∧
    (x.drain = true → x.stall = none → x.pair = none → (∀ u : Fin 8, (s.thr ⟨l, u⟩).loads = []) → (∀ e ∈ s.hs.slots, e.2.st ≠ 3) →
      ∃ t, exec (.corecfgDrainEnd l) s = .next t ∧
        t.lathe l = { x with drain := false, icache := [], dcache := [], detact := x.det, slotcnt := if x.det && !x.detact then 0 else x.slotcnt
                             clock := if x.det && !x.detact then 0 else x.clock } ∧
        (∀ th, th.l = l → t.thr th = { (s.thr th).fpAll with lat := [], busy := 0 } ∧ (s.thr th).fpAll.fpOut = [] ∧
          ∀ j, j < 5 → ((t.thr th).fflags.getLsbD j = true ↔
            (s.thr th).fflags.getLsbD j = true ∨ ∃ q ∈ (s.thr th).fpOut, q.flags.getLsbD j = true)) ∧
        (∀ th, th.l ≠ l → t.thr th = s.thr th) ∧ t.mem = s.mem) ∧
    (x.drain = false ∨ x.stall ≠ none ∨ x.pair ≠ none ∨ (∃ u : Fin 8, (s.thr ⟨l, u⟩).loads ≠ []) → exec (.corecfgDrainEnd l) s = .next s)

/-! ## Scrubber, tests and error log (R319 to R343) -/

/-- Within its rate the scrubber reads its next quad and, for a correctable nonet that it may write, counts it and waits to write it back corrected;
the write-back makes the waiting writes of one quad, unless the bank has become pending, sealed, retired or under test. -/
def Obligations.ScrubberCorrectsItsQuads : Prop :=
  ∀ (r : Region) (s : State) (j : Nat),
    let w := walkOf s r
    let pa := (regionSpan r).1 + 4 * w.next
    let key (i : Nat) : Nat := 4 * placeOf s (pa + i / 4) + i % 4
    let window := s.tb.toNat / 1000
    let reads := if w.window = window then w.reads else 0
    let due : Prop := reads < 10 * (scrubRate s r).toNat ∧ w.next + 1 < (regionSpan r).2 ∧ scrubSkips s r pa = false
    let after : Walk := { w with next := w.next + 1, window := window, reads := reads + 1 }
    (10 * (scrubRate s r).toNat ≤ reads → exec (.scrubRead r) s = .next s) ∧
    (due → (∀ i, i < 16 → classify (s.cell (key i)) = .clean) → exec (.scrubRead r) s = .next (setWalk s r after)) ∧
    (due → scrubMayWrite s r pa = true → s.scr.logce = false → j < 16 → classify (s.cell (key j)) = .correctable → w.lastPass.contains (key j) = false →
      (∀ i, i < 16 → i ≠ j → classify (s.cell (key i)) = .clean) → ∃ t, exec (.scrubRead r) s = .next t ∧
      walkOf t r = { after with thisPass := w.thisPass ++ [key j], fixes := w.fixes ++ [(key j, encNonet (delivered (s.cell (key j))))] } ∧
      t.scr.ce = satAdd s.scr.ce 1 ∧ t.scr.ue = s.scr.ue ∧ t.scr.log = s.scr.log ∧ t.mem = s.mem ∧ t.banks = s.banks) ∧
    (∀ k v, w.fixes = [(k, v)] →
      let b := s.bank (k / 262144)
      let free : Prop := r ≠ .banks ∨ (b.drain = none ∧ b.march = false ∧ b.sealed = false ∧ b.retired = false ∧ b.ownCl ≠ 5)
      ∃ t, exec (.scrubWriteback r) s = .next t ∧ walkOf t r = { w with fixes := [] } ∧ (free → t.cell k = v) ∧
        (∀ a, a ≠ k ∨ ¬ free → t.cell a = s.cell a) ∧ t.banks = s.banks ∧ t.threads = s.threads)

/-- A March run makes every bank of its range pending and clears it as each group's sequence ends; a GO over banks that are not free for test is
refused. A background test, which waits BGINT µs since the last, leaves its region's nonets corrected, what reads bad as the poison pattern, and
moves to its next region. A read of SCR_ELOG1 removes the oldest error entry. -/
def Obligations.MemoryTestsAndErrorLog : Prop :=
  ∀ (m : Master) (w : Word) (x : Fin 18) (fails : List (Fin 256)) (s : State),
    let first := w.toNat % 1024
    let count := w.toNat / 1024 % 1024
    let inRange (n : Nat) : Prop := first ≤ n ∧ n ≤ first + count
    let may : Prop := m = .head ∨ (∃ f, m = .pciein f ∧ s.pwr.mode = 6)
    let free (b : Bank) : Prop := b.retired = true ∨ (b.ownCl = 5 ∧ b.drain = none ∧ b.march = false ∧ b.sealed = false)
    let paced : Prop := s.scr.bgint ≠ 0 ∧ ∀ u, tget none s.scr.bgLast x.val = some u → 100 * s.scr.bgint.toNat ≤ (s.tb - u).toNat
    let refused : Prop := s.scr.march ≠ none ∨ 1023 < first + count ∨ ∃ n, inRange n ∧ ¬ free (s.bank n)
    (¬ may → (hasPath s m (regBase + 0o520005) = true → ∃ t, exec (.marchGo m w) s = .next t ∧ Denied s t m 0o520005) ∧
      (hasPath s m (regBase + 0o520005) = false → ∃ t u, exec (.marchGo m w) s = .next t ∧ Denied u t m 0o520005 ∧
        u = noPath s m true (regBase + 0o520005))) ∧
    (may → w.getLsbD 35 = false → exec (.marchGo m w) s = .next s) ∧
    (may → w.getLsbD 35 = true → refused → exec (.marchGo m w) s = .next { s with scr := { s.scr with rej := true } }) ∧
    (may → w.getLsbD 35 = true → ¬ refused → (s.bank first).retired = false → ∃ t, exec (.marchGo m w) s = .next t ∧
      t.scr.cur = BitVec.ofNat 10 first ∧ t.scr.nfail = 0 ∧ t.scr.march = some { first := first, last := first + count, pres := w.getLsbD 34, repair := w.getLsbD 33, group := first / 8, inst := none } ∧
      (∀ n, t.bank n = if first ≤ n ∧ n ≤ first + count ∧ (s.bank n).retired = false then { (s.bank n) with march := true } else s.bank n) ∧
      t.mem = s.mem) ∧
    (∀ d : March, s.scr.march = some d → s.pwr.zeroBusy = false → d.repair = false → d.pres = false → (∀ n, (s.bank n).heldLock = false ∧ (s.bank n).newEpoch = none) →
      let left (k : Nat) : Prop := ∃ n, n / 8 = k ∧ d.first ≤ n ∧ n ≤ d.last ∧ (s.bank n).march = true
      let here (n : Nat) : Bool := decide (n / 8 = d.group ∧ d.first ≤ n ∧ n ≤ d.last) && (s.bank n).march
      ∃ t, exec (.marchGroupDone []) s = .next t ∧ (∀ n, t.bank n = if here n then { (s.bank n) with march := false } else s.bank n) ∧
        (Memory.wf s.mem = true → ∀ c, t.cell c = if here (c / 262144) then 0 else s.cell c) ∧
        (∀ k, k < 128 → d.group < k → left k → (∀ j, d.group < j → j < k → ¬ left j) → t.scr.march = some { d with group := k }) ∧
        ((∀ k, k < 128 → d.group < k → ¬ left k) → t.scr.march = none ∧ t.scr.done = true)) ∧
    (¬ paced → exec (.bgTestRegion x fails) s = .next s) ∧
    (paced →
      let base : Nat := if x.val < 16 then 0o000400000000 + x.val * 0o1000000 else if x.val = 16 then 0o000440000000 else stagingBase
      let region := tget 0 s.scr.bgNext x.val
      let tested (c : Nat) : Bool := decide (4 * (base + 64 * region) ≤ c ∧ c < 4 * (base + 64 * region) + 256)
      ∃ t, exec (.bgTestRegion x fails) s = .next t ∧ 
        (∀ c, t.cell c = if tested c = false then s.cell c else if isBad (s.cell c) then poisonNonet else encNonet (delivered (s.cell c))) ∧
        tget none t.scr.bgLast x.val = some s.tb ∧ tget 0 t.scr.bgNext x.val = (region + 1) % (if x.val < 16 then 4096 else 16384) ∧
        (∀ i ∈ fails, (tget [] t.scr.memPend x.val).contains (16 * region + i.val / 16) = true)) ∧
    (∀ e rest, s.scr.log = e :: rest → ∃ t, exec (.elogPop .head) s = .next t ∧ t.scr = { s.scr with log := rest } ∧
      tget {} t.fab.reply (128 * 4) = { addr := 0o000450520004, words := [(BitVec.ofNat 36 e.pa.toNat, false)], error := false } ∧
      t.mem = s.mem ∧ t.banks = s.banks ∧ t.threads = s.threads)

/-! ## Fabric (R345 to R356, R59) -/

/-- The arbiter of a free target grants one burst whole: a read answers its master, a write changes the enabled nonets alone; of requests that
arrive together the lowest class and ID is granted, and requests that waited take turns; one without a path or to a reserved range never reaches a
target and is a fabric error. A core's access that times out, at the end of its ticks, is a fabric error and a bus error to the core, which restores
its registers, and one that has ended already does nothing; the headstock's halts it. A late acknowledgement is counted; and a bank whose drain
outlasts the watchdog ceases to be pending. -/
def Obligations.FabricGrantsBurstsAndReportsErrors : Prop :=
  ∀ (l : Fin 16) (c d : Fin 8) (th : Th) (n : Fin 1024) (s : State) (b e : Burst) (q : Quad) (mask : BitVec 16), NoJob s →
    let pa := b.addr.toNat
    let dma (b : Burst) (c : Fin 8) : Prop := b.m = .dma c ∧ areaOf b.addr.toNat = .scratch l.val ∧ b.addr.toNat % 4 = 0
    let arb := tget {} s.fab.arb (1024 + l.val)
    let answer (x : Burst) : Reply := { addr := x.addr.toNat, words := (List.range 4).map (fun i => s.readWord (x.addr.toNat + i)), error := false }
    let read (b : Burst) : Prop := b.write = false ∧ b.quads = 1 ∧ CleanAt s b.addr.toNat 4
    let idle : Prop := arb.held = none ∧ ∀ z ∈ s.fab.rest, targetKey z.1 ≠ 1024 + l.val
    let unheld : Prop := ∀ z ∈ s.fab.arb, z.2.held = none
    let y := s.bank n.val
    let limit := rest 100 y.drainTicks
    let captured (t : State) (timeout : Bool) (cl : BitVec 4) (id : BitVec 7) (wr : Bool) (a : BitVec 34) : Prop :=
      t.fab.count = satAdd s.fab.count 1 ∧ (s.fab.valid = false → t.fab.valid = true ∧ t.fab.kind = timeout ∧ t.fab.wr = wr ∧ t.fab.mcl = cl ∧
        t.fab.mid = id ∧ t.fab.eaddr = a) ∧ (s.fab.valid = true → t.fab.mcl = s.fab.mcl ∧ t.fab.eaddr = s.fab.eaddr)
    (idle → dma b c → read b → ∃ t, exec (.fabricGrant (.scratch l) [b]) s = .next t ∧ tget {} t.fab.reply (256 + c.val) = answer b ∧
      tget {} t.fab.arb (1024 + l.val) = { last := some (256 + c.val), firstRun := 0, waited := false, held := none } ∧ t.mem = s.mem ∧ t.threads = s.threads) ∧
    (idle → dma b c → b.write = true → b.data = [(q, mask)] → ∃ t, exec (.fabricGrant (.scratch l) [b]) s = .next t ∧
      (∀ a, t.cell a = if a / 16 = pa / 4 ∧ mask.getLsbD (a % 16) = true
        then encNonet (BitVec.ofNat 9 ((quadGet q (a / 4 % 4)).toNat / 2 ^ (9 * (a % 4)))) else s.cell a) ∧ t.threads = s.threads ∧ t.banks = s.banks) ∧
    (idle → dma b c → dma e d → c < d → read b → read e →
      (arb.waited = false ∨ arb.last = none ∨ arb.last = some (256 + d.val) → ∃ t, exec (.fabricGrant (.scratch l) [e, b]) s = .next t ∧
        tget {} t.fab.reply (256 + c.val) = answer b ∧ tget {} t.fab.arb (1024 + l.val) = { last := some (256 + c.val), firstRun := 0, waited := true, held := none }) ∧
      (arb.waited = true → arb.last = some (256 + c.val) → ∃ t, exec (.fabricGrant (.scratch l) [e, b]) s = .next t ∧
        tget {} t.fab.reply (256 + d.val) = answer e ∧ (tget {} t.fab.arb (1024 + l.val)).last = some (256 + d.val))) ∧
    (idle → b.m = .tail → areaOf pa = .scratch l.val ∨ areaOf pa = .reserved → ∃ t, exec (.fabricGrant (.scratch l) [b]) s = .next t ∧
      captured t false 5 0 b.write b.addr ∧ tget {} t.fab.reply (128 * 5) = { addr := pa, words := [], error := true } ∧ t.ts.halted = true ∧
      t.mem = s.mem ∧ t.fab.arb = s.fab.arb) ∧
    (∀ (p : PendLoad) (k : Nat), Due s [] [k] [] → k = rest s.fab.tmo.toNat p.ticks → unheld → p.asks s.devId = true → p.pa < 2 ^ 34 →
      (s.thr th).loads = [p] → (∀ line, p.kind ≠ .upframe line) → (s.thr th).started = true → (s.thr th).halted = false →
      (s.lathe th.l).locked = false → (s.lathe th.l).lockTicks < 1000 → midInstr s th = false →
      let v := countTicks s k (runsOf s)
      let w := v.modThr th (fun t => { t.restore p.snap with loads := [] })
      let x := twoTurns (takeException w th { cause := .buserr, info := p.va } (w.thr th).pc) th (nextTurn v th)
      ∃ t, exec (.fabricTimeout (.core th) (BitVec.ofNat 34 p.pa) p.kind.isStore) s = .next t ∧
        captured t true 0 (BitVec.ofNat 7 th.l.val) p.kind.isStore (BitVec.ofNat 34 p.pa) ∧
        tget {} t.fab.reply th.l.val = { addr := p.pa, words := [], error := true } ∧ t.thr th = x.thr th ∧ t.lathe th.l = x.lathe th.l ∧
        (∀ u, u ≠ th → t.thr u = v.thr u) ∧ t.ts.ticks = s.ts.ticks + BitVec.ofNat 72 k ∧ t.mem = s.mem ∧ t.banks = v.banks) ∧
    (∀ write, unheld → askAt s (.core th) b.addr.toNat write = none → exec (.fabricTimeout (.core th) b.addr write) s = .next s) ∧
    (∀ write, unheld → askAt s .head b.addr.toNat write = none → ∃ t, exec (.fabricTimeout .head b.addr write) s = .next t ∧ t.hs.halted = true ∧ captured t true 4 0 write b.addr) ∧
    exec .lateAck s = .next { s with fab := { s.fab with late := satAdd s.fab.late 1 } } ∧
    (y.drain = some .handover → Due s [] [limit] [] → unheld → s.pci.stalled = [] → s.wov.waiting = [] → y.heldLock = false → y.newEpoch = none → s.scr.log.length < 64 →
      ∃ t, exec (.bankWatchdog n []) s = .next t ∧
        t.bank n.val = { y with drain := none, parkOld := none, drainTicks := max 100 (y.drainTicks + 1), wdog := true } ∧
        t.ts.ticks = s.ts.ticks + BitVec.ofNat 72 limit ∧
        (∃ entry, t.scr.log = s.scr.log ++ [entry] ∧ entry.code = 7 ∧ entry.bank = BitVec.ofNat 10 n.val) ∧ t.mem = s.mem) ∧
    (∀ waiting, y.drain ≠ none → s.pwr.main12 = true → exec (.bankWatchdog n waiting) s = .next (resumeWaiting (settleJobs
      (ticksTo true 1 (fun s => drainTimesOut s n.val waiting) (pass (limit - 1) s))))) ∧
    (y.drain = none → s.pci.stalled = [] → s.wov.waiting = [] → exec (.bankWatchdog n []) s = .next s)

/-! ## Event fabric, timers and watchdogs (R274, R357 to R368) -/

/-- An event on a channel toggles a pulse channel's level and triggers the enabled input that selects it: an idle lathe line is set in every thread
of its mask, a busy consumer remembers one trigger or counts an overrun, a simultaneous cancel wins, and a remembered trigger is delivered when its
consumer is idle; a lathe in reset remembers none. A channel that holds a producer's event passes it before that of EVF_FIRE. -/
def Obligations.EventsReachTheirConsumers : Prop :=
  ∀ (c : Fin 128) (n : BitVec 10) (w : Word) (l : Fin 16) (k : Nat) (x : Cin) (s : State), s.evf.lut = [] →
    let pulse : Prop := producerLevel s (s.chan c.val).psel.toNat = none
    let free : Prop := (s.chan c.val).held = false
    let fired (t : State) : Prop := exec (.evfFire .head w) s = .next t
    let masked (th : Th) : Prop := th.l = l ∧ x.tmask.getLsbD th.t.val = true
    let runs : Prop := s.rst.inProgress = none
    let idle : Prop := ∀ th, masked th → lineBit (s.thr th) k = false
    let set (t : State) : Prop := ∀ th, t.thr th = if th.l = l ∧ x.tmask.getLsbD th.t.val = true then
      (let u := s.thr th
       if k < 16 then { u with s := { u.s with ip := u.s.ip ||| BitVec.ofNat 16 (2 ^ k) } }
       else if k < 31 then { u with m := { u.m with ip := u.m.ip ||| BitVec.ofNat 16 (2 ^ (k - 16)) } }
       else { u with uep := u.uep ||| BitVec.ofNat 16 (2 ^ (k - 32)) }) else s.thr th
    (w.toNat % 128 = c.val → pulse →
      (free → ∃ t, fired t ∧ (t.chan c.val).level = !(s.chan c.val).level ∧ t.mem = s.mem) ∧
      (¬ free → ∃ t, fired t ∧ t.chan c.val = { (s.chan c.val) with held := false } ∧ t.mem = s.mem) ∧
      (free → s.evf.cin = [(n.toNat, x)] → consumerOf n.toNat = .line l k → x.en = true → x.ch = BitVec.ofFin c →
        (x.cen = false ∨ x.cch ≠ BitVec.ofFin c →
          (runs → idle → ∃ t, fired t ∧ set t ∧ t.mem = s.mem) ∧
          (runs → ¬ idle → x.mode = true → x.pend = false → ∃ t, fired t ∧ t.cin n.toNat = { x with pend := true } ∧ t.threads = s.threads) ∧
          ((runs ∧ ¬ idle ∧ (x.mode = false ∨ x.pend = true)) ∨ ¬ runs → ∃ t, fired t ∧ t.cin n.toNat = { x with ovr := true } ∧
            t.evf.ovrcnt = satAdd s.evf.ovrcnt 1 ∧ t.threads = s.threads)) ∧
        (x.cen = true → x.cch = BitVec.ofFin c → ∃ t, fired t ∧ t.cin n.toNat = { x with pend := false, ccnt := satAdd x.ccnt 1 } ∧
          t.evf.cancnt = satAdd s.evf.cancnt 1 ∧ t.threads = s.threads))) ∧
    (s.cin n.toNat = x → consumerOf n.toNat = .line l k → x.en = true → x.pend = true → runs → idle → ∃ t, exec (.rememberedTrigger n) s = .next t ∧
      set t ∧ t.cin n.toNat = { x with pend := false } ∧ t.mem = s.mem) ∧
    (pulse → ¬ free → ∃ t, exec (.heldEventPass c) s = .next t ∧
      t.chan c.val = { (s.chan c.val) with held := false, level := !(s.chan c.val).level } ∧ t.mem = s.mem)

/-- Timers and thread watchdogs count the timebase: a timer that reaches zero reloads or stops, a watchdog sets machine line 15 of its thread and
stops. A pin's level reaches its channels once its ball has stood there for its filter's ticks, which begin anew when the ball moves, a pulse ends
after its ticks, and a filtered LUT output takes its stored bit. -/
def Obligations.TimersPinsAndCellsMove : Prop :=
  ∀ (i : Fin 16) (n : Fin 32) (th : Th) (level : Bool) (s : State),
    let y := s.tmr i.val
    let x := s.epin i.val
    let u := s.thr th
    let z := s.lut n.val
    let moved (t : State) : Prop := t.epin i.val = { x with raw := level, level := level, diff := 0 } ∧
      (∀ c, (s.chan c).psel.toNat = pselPin i.val → (t.chan c).level = level) ∧ t.mem = s.mem
    let idle (q : Th) : Thread := { (s.thr q) with askTicks := 0 }
    let later (t : State) (k : Nat) : Prop := t.ts.ticks = s.ts.ticks + BitVec.ofNat 72 k ∧ t.mem = s.mem
    (y.run = true → Settled s → Unheard s (pselTimer i.val) → Due s [rest y.count.toNat 0] [] [] → ∃ t, exec (.timer i) s = .next t ∧
      t.tmr i.val = (if y.per = true then { y with count := y.reload } else { y with run := false, count := 0 }) ∧ later t (rest y.count.toNat 0)) ∧
    (asksWait s = false → exec (.timer i) s = .next (if y.run = true then pass (rest y.count.toNat 0) s else s)) ∧
    (u.mwdRun = true → u.halted = false → Due s [] [] [rest u.mwdCount.toNat 0] → ∃ t, exec (.mwdog th) s = .next t ∧
      t.thr th = { (idle th) with mwdCount := 0, mwdRun := false, m := { u.m with ip := u.m.ip ||| 0x8000 } } ∧
      (∀ q, q ≠ th → t.thr q = idle q) ∧ later t (rest u.mwdCount.toNat 0)) ∧
    (asksWait s = false → exec (.mwdog th) s =
      .next (if u.mwdRun = true ∧ u.halted = false then pass (rest u.mwdCount.toNat 0) s else s)) ∧
    (s.pwr.mode ≠ 9 → x.raw ≠ level →
      (x.dir = true ∨ x.level = level ∨ x.filt ≠ 0 → exec (.eventPin i level) s = .next (s.modPin i.val (fun _ => { x with raw := level, diff := 0 }))) ∧
      (x.dir = false → x.level ≠ level → x.filt = 0 → s.evf.lut = [] → ∃ t, exec (.eventPin i level) s = .next t ∧ moved t ∧ t.ts = s.ts)) ∧
    (x.raw = level →
      (x.dir = true ∨ x.level = level → exec (.eventPin i level) s = .next s) ∧
      (x.dir = false → x.level ≠ level → s.evf.lut = [] → Due s [rest x.filt.toNat x.diff] [] [] →
        ∃ t, exec (.eventPin i level) s = .next t ∧ moved t ∧ later t (rest x.filt.toNat x.diff))) ∧
    (x.pulsing = true → Due s [rest x.left 0] [] [] → ∃ t, exec (.pinPulseEnd i) s = .next t ∧
      t.epin i.val = { x with pulsing := false, drive := false, left := 0, diff := 0 } ∧ later t (rest x.left 0) ∧ ∀ q, t.thr q = idle q) ∧
    exec (.pinPulseEnd i) s = .next (if x.pulsing = true then pass (rest x.left 0) s else s) ∧
    (z.out ≠ z.stored → z.filt ≠ 0 → Due s [rest z.filt.toNat z.diff] [] [] → ∃ t, exec (.lutFilterExpiry n) s = .next t ∧
      (t.lut n.val).out = z.stored ∧ later t (rest z.filt.toNat z.diff)) ∧
    exec (.lutFilterExpiry n) s = .next (if z.out ≠ z.stored ∧ z.filt ≠ 0 then pass (rest z.filt.toNat z.diff) s else s)

/-! ## Time, temperature and tamper (R393, R406 to R412, R515, R547) -/

/-- A PPS edge that has stood for its filter's ticks, which begin when the pin moves, sets the discipline, a long silence ends LOCKED; the TEMP
producer follows the reading with its two thresholds, and heat above 115 °C writes the journal out and leads to a power-on reset. A log-grade event
is counted and journalled, on backup power logged there; a lockdown-grade one abandons every context and ends, 50 µs later or once the journal is
frozen, in the loss of the wrap key and a core reset; on backup power the key goes at once. -/
def Obligations.SensorsDisciplineWarnAndLockDown : Prop :=
  ∀ (c : Int) (l : BitVec 72) (x : Sensor) (s : State),
    let k := rest 5 s.evf.ppsDiff
    let limit := rest 300000000 (sincePps s.ts)
    let lock := if s.ts.locked || s.ts.ppsGood ≠ 0 then [limit] else []
    let timely (b : Bool) : Prop := s.evf.ppsRaw = b ∧ Due s (k :: lock) [] [] ∧ k < limit
    let ran := { s.ts with ticks := s.ts.ticks + BitVec.ofNat 72 k, discs := s.ts.discs.map (fun d => (d.1, d.2 + k)) }
    let discs : List (Int × Nat) := (((ran.ticks - l).toNat : Int) - 100000000, 0) :: ran.discs.filter (fun d => decide (d.2 < 100000000))
    let zeroised (t : State) : Prop := t.ts.wrapKey = false ∧ t.ts.lockdn = true ∧ t.ts.pendingLock = none ∧ t.jnl.frozen = true ∧
      t.pwr.prev = 10 ∧ t.pwr.mode = 3 ∧ t.rst.cause = 9 ∧ t.rst.inProgress = some .core
    let e : Int := ((ran.ticks - l).toNat : Int) - 100000000
    let awake : Prop := s.pwr.main12 = true ∧ s.pwr.mode ≠ 9
    let calm : Prop := s.ts.lockdn = false ∧ s.ts.pendingLock = none
    let bit : BitVec 6 := match x with | .mesh => 1 | .xmesh => 2 | .glitch => 4 | .tempt => 8 | .light => 16 | .bond => 32
    let recent : List (BitVec 72) := s.ts.glitches.filter (fun a => decide ((s.ts.ticks - a).toNat < 100000000))
    let lostKey (t : State) : Prop := t.ts.wrapKey = false ∧ t.ts.ldcause = 0 ∧ t.pwr.intact = false ∧ t.pwr.mode = 0
    (s.evf.pps = false → s.ts.ppsLast = some l → timely true → ∃ t, exec (.pps true) s = .next t ∧ t.evf.pps = true ∧ t.mem = s.mem ∧
      t.ts = (if e.natAbs > 1000 then { ran with ppsLast := some ran.ticks, locked := false, ppsGood := 0 }
        else if e.natAbs > 2 then { ran with ppsLast := some ran.ticks, err := BitVec.ofInt 11 e, discs := discs, ppsGood := 0 }
        else { ran with ppsLast := some ran.ticks, err := BitVec.ofInt 11 e, discs := discs, ppsGood := s.ts.ppsGood + 1,
                        locked := s.ts.locked || decide (8 ≤ s.ts.ppsGood + 1) })) ∧
    (s.evf.pps = true → timely false → ∃ t, exec (.pps false) s = .next t ∧ t.evf.pps = false ∧ t.ts = ran ∧ t.mem = s.mem) ∧
    (∀ b, s.evf.ppsRaw ≠ b → exec (.pps b) s = .next { s with evf := { s.evf with ppsRaw := b, ppsDiff := 0 } }) ∧
    (∀ b, s.evf.ppsRaw = b → s.evf.pps = b → exec (.pps b) s = .next s) ∧
    (Due s lock [] [] → sincePps s.ts ≤ 300000000 → ∃ t, exec .ppsTimeout s = .next t ∧ t.ts.locked = false ∧ t.ts.ppsGood = 0 ∧
      t.ts.ticks = s.ts.ticks + BitVec.ofNat 72 limit ∧ t.mem = s.mem) ∧
    (c > 100 → ∃ t, exec (.temp c) s = .next t ∧ t.evf.temp = true ∧ t.pwr = s.pwr ∧ t.mem = s.mem) ∧
    (c < 95 → ∃ t, exec (.temp c) s = .next t ∧ t.evf.temp = false ∧ t.pwr = { s.pwr with hot := false } ∧ t.mem = s.mem) ∧
    (95 ≤ c → c ≤ 100 → exec (.temp c) s = .next s) ∧
    (c > 115 → s.pwr.main12 = true → s.pwr.hot = false → ∃ t, exec (.overtemp c) s = .next t ∧ t.pwr.hot = true ∧ t.pwr.mode = 3 ∧
      t.rst.cause = 2 ∧ t.rst.inProgress = some .powerOn ∧ t.jnl.head ≤ t.jnl.written ∧ t.tb = 0 ∧ t.threads = []) ∧
    (awake → Journalling s → ∃ t, exec (.logTamper .tempt) s = .next t ∧ Logged s t { kind := 0o07, ref := 1, code := 8 } ∧
      t.ts = { s.ts with live := s.ts.live ||| 8, logcnt := satAdd s.ts.logcnt 1 } ∧ t.evf.tamper = true ∧ t.mem = s.mem) ∧
    (awake → calm → ∃ t, exec (.logTamper .glitch) s = .next t ∧ t.ts.logcnt = satAdd s.ts.logcnt 1 ∧ t.ts.glitches = recent ++ [s.ts.ticks] ∧
      t.ts.pendingLock = (if 7 ≤ recent.length then some .glitch else none) ∧ t.evf.tamper = true) ∧
    (s.pwr.main12 = false → s.pwr.mode ≠ 9 → s.pwr.vbat = true → ∃ t, exec (.logTamper .tempt) s = .next t ∧
      t = { s with ts := { s.ts with backupLog := (s.ts.backupLog ++ [Sensor.tempt]).drop (s.ts.backupLog.length - 15) } }) ∧
    (awake → calm → (x = .xmesh → s.fus.xmesh = true) → Journalling s → ∃ t, exec (.lockdownTamper x) s = .next t ∧
      t.ts.pendingLock = some x ∧ t.ts.live = s.ts.live ||| bit ∧ (∀ k, (t.ctx k).st = .closed) ∧
      Logged s t { kind := 0o07, ref := 2, code := bit.setWidth 16 } ∧ (∃ k ∈ t.jnl.ckptBusy, k.seqno = s.jnl.head + 1)) ∧
    (awake → calm → ∃ t, exec (.bondTest true) s = .next t ∧ t.ts.pendingLock = some .bond ∧ t.ts.live = s.ts.live ||| 32 ∧
      (∀ k, (t.ctx k).st = .closed)) ∧
    exec (.bondTest false) s = .next s ∧
    (s.ts.pendingLock = some x → s.pwr.main12 = true → s.rst.inProgress = none → s.jnl.frozen = true → ∃ t, exec .wrapKeyZeroise s = .next t ∧
      zeroised t ∧ t.ts.ldcause = s.ts.ldcause ||| bit ∧ t.ts.ticks = s.ts.ticks) ∧
    (let left := rest 5000 s.ts.lockTicks
     s.ts.pendingLock = some x → s.rst.inProgress = none → s.jnl.frozen = false → DueAll s [] [] [left] [] → ∃ t, exec .wrapKeyZeroise s = .next t ∧
      zeroised t ∧ t.ts.ldcause = s.ts.ldcause ||| bit ∧ t.ts.ticks = s.ts.ticks + BitVec.ofNat 72 left) ∧
    (s.pwr.main12 = false → s.pwr.vbat = true → s.ts.lockdn = false →
      x = .mesh ∨ x = .tempt ∨ x = .light ∨ (x = .xmesh ∧ s.fus.xmesh = true) → exec (.backupTamper x) s =
        .next { s with ts := { s.ts with wrapKey := false, lockdn := true, ldcause := bit, lockPend := true } }) ∧
    (∃ t, exec (.tamperConditionEnd x) s = .next t ∧ t.ts = { s.ts with live := s.ts.live &&& ~~~bit } ∧
      t.evf.tamper = (t.ts.live.getLsbD 2 || t.ts.live.getLsbD 3) ∧ t.mem = s.mem) ∧
    (s.pwr.main12 = true → exec .backupSupplyLoss s = .next { s with pwr := { s.pwr with vbat := false } }) ∧
    (s.pwr.main12 = false → ∃ t, exec .backupSupplyLoss s = .next t ∧ lostKey t ∧ t.ts.backupLog = [] ∧ t.mem = s.mem)

/-! ## Seals and the journal (R380, R385, R387, R391, R398 to R401, R408, R413, R470) -/

/-- A leaf digest of the current epoch stands for its leaf, as does one that another device sends with what it covers, a leaf of a group that moved
here leaves for its own device, and any message of another epoch is discarded and counted. The oldest unsigned record is signed and held, and lets a
waiting close in. The staging buffer writes its next entry with the head in three steps and takes a withheld one, and waits where Sealed or
Deterministic mode keeps an undrained entry in that place; a checkpoint is signed, stored and journalled, the last one of a lockdown freezes the
journal. An input slot is bound once its banks are sealed, a migrated one is compared; an MRAM timeout, at the end of its ticks, has the outcome of
its master; a read of the low word of a sequence number latches the high one for its master. -/
def Obligations.SealsAndJournalAdvance : Prop :=
  ∀ (c : BitVec 8) (k : Fin 16) (j : Nat) (e : BitVec 9) (p : JProto) (ck : Ckpt) (cks : List Ckpt) (x : SealRec) (xs : List SealRec)
    (d : BitVec 8) (more : List (BitVec 8 × SlotRef)) (r : SlotRef) (first : BitVec 34) (root : List Octet) (m : Master) (s : State),
    let o := s.outSlot c.toNat k.val
    let i := s.inSlot c.toNat k.val
    let stale : State := { s with ts := { s.ts with stale := satAdd s.ts.stale 1 } }
    let n := s.jnl.written + 1
    let ovwr : Bool := s.jnl.ovwr || decide (n > 786432 + s.jnl.drained)
    let roomy : Prop := s.pwr.mode = 5 ∨ s.pwr.mode = 7 → n ≤ 786432 + s.jnl.drained
    let sealed : Prop := ∀ b ∈ banksOfRange s i.first i.words, (s.bank b).sealed = true
    let ckSlot := ck.seqno / 4096 % 4096
    let full : Bool := decide (s.jnl.thr.toNat ≤ min (n - s.jnl.drained) 786432)
    let alone : Prop := guestsOf s c = []
    let leaf := (o.leaf j).filterMap id
    let heard : Prop := (s.ctx c.toNat).st ≠ .closed ∧ e = (s.ctx c.toNat).epoch
    let old : Prop := (s.ctx c.toNat).st ≠ .closed ∧ e ≠ (s.ctx c.toNat).epoch
    let counted (t : State) : Prop := t.ts = { s.ts with stale := satAdd s.ts.stale 1 } ∧ t.mem = s.mem
    let later (t : State) (k : Nat) : Prop := t.ts.ticks = s.ts.ticks + BitVec.ofNat 72 k ∧ t.mem = s.mem
    let lowRead (dr : Bool) (v : Nat) : Prop :=
      (hasPath s m (jnlLowAddr dr) = true → ∃ t u, exec (.jnlHeadlRead m dr) s = .next t ∧
        t = deliverReply u m (jnlLowAddr dr) [(BitVec.ofNat 36 v, false)] false ∧ u.mem = s.mem ∧
        (∀ v', (jnlRead { t with jnl := { t.jnl with written := v', drained := v' } } m (if dr then 3 else 1)).2 =
          BitVec.ofNat 36 (v / 2 ^ 36 % 2 ^ 28))) ∧
      (hasPath s m (jnlLowAddr dr) = false → exec (.jnlHeadlRead m dr) s = .next (deliverReply (noPath s m false (jnlLowAddr dr)) m (jnlLowAddr dr) [] true))
    (heard → alone → leaf.length = (o.leaf j).length → leaf ≠ [] → ∃ t, exec (.leafDigest c k ⟨j, none⟩ e) s = .next t ∧
      t.outSlot c.toNat k.val = { o with digests := tput [] o.digests j (sha3 (0x00 :: pack9 leaf)) } ∧ t.mem = s.mem ∧ t.jnl = s.jnl) ∧
    (∀ dev a, heard → ∃ t, exec (.leafDigest c k ⟨j, some (dev, a)⟩ e) s = .next t ∧
      t.outSlot c.toNat k.val = { o with away := tput none o.away j (some a), pcnt := o.pcnt + a.pcnt } ∧ t.mem = s.mem) ∧
    (∀ g home, guestsOf s c = [(g, home)] → e = (s.ctx g).epoch → (s.outSlot g k.val).ready j = true → ∃ t, exec (.leafDigest c k ⟨j, none⟩ e) s = .next t ∧
      (let z := s.outSlot g k.val
       let got := (z.leaf j).filterMap id
       WMsg.leaf home (BitVec.ofNat 8 g) k j e { words := got.length, pcnt := z.pcnt, digest := sha3 (0x00 :: pack9 got) } ∈ t.wov.tx) ∧ t.mem = s.mem) ∧
    (old → (alone → exec (.leafDigest c k ⟨j, none⟩ e) s = .next stale) ∧ exec (.spongeState c k e none) s = .next stale ∧
      (∀ dev a, ∃ t, exec (.leafDigest c k ⟨j, some (dev, a)⟩ e) s = .next t ∧ counted t) ∧
      (∀ dev, ∃ t, exec (.spongeState c k e (some dev)) s = .next t ∧ counted t)) ∧
    ((s.ctx c.toNat).st = .closed → alone → exec (.leafDigest c k ⟨j, none⟩ e) s = .next s) ∧
    ((s.ctx c.toNat).st = .closed ∨ e = (s.ctx c.toNat).epoch → exec (.spongeState c k e none) s = .next s ∧
      ∀ dev, exec (.spongeState c k e (some dev)) s = .next (linkPulse s dev.toNat)) ∧
    (s.ts.unsigned = x :: xs → keyOk s = true → s.ts.pendingLock = none → s.ts.closeWait = [] → exec .signatureDone s = .next { s with
      ts := { s.ts with unsigned := xs, records := s.ts.records ++ [{ x with sig := deviceSignature x.body }] } }) ∧
    (s.ts.unsigned = x :: xs → keyOk s = true → s.ts.pendingLock = none → s.ts.closeWait = (d, r) :: more → ∃ t y, exec .signatureDone s = .next t ∧
      t.ts.unsigned = xs ++ [y] ∧ y.jseq = (s.ctx d.toNat).jseq ∧ (t.ctx d.toNat).st = .closed ∧
      t.ts.records = s.ts.records ++ [{ x with sig := deviceSignature x.body }] ∧ t.mem = s.mem) ∧
    (keyOk s = false ∨ s.ts.pendingLock ≠ none ∨ s.ts.unsigned = [] → exec .signatureDone s = .next s) ∧
    (s.jnl.written < s.jnl.head → s.jnl.withheld = [] → roomy → ∃ t, exec .journalWrite s = .next t ∧ t.rst.ctrHead.read = n ∧ t.evf.jnlfill = full ∧
      t.jnl.written = n ∧ t.jnl.head = s.jnl.head ∧ t.mem = s.mem ∧
      (s.evf.jnlfill = full → t.jnl = { s.jnl with written := n, wrTicks := 0, copyA := n, copyB := n, ovwr := ovwr,
                                                   entries := s.jnl.entries.filter (fun x => decide (x.1 + 786432 ≠ n)) })) ∧
    (s.jnl.head ≤ s.jnl.written ∨ ¬ roomy → exec .journalWrite s = .next s) ∧
    (s.jnl.head = s.jnl.written + 256 → s.jnl.withheld = [(p, none)] → s.jnl.frozen = false → roomy → ∃ t, exec .journalWrite s = .next t ∧
      t.jnl.written = n ∧ t.jnl.head = s.jnl.head + 1 ∧ t.jnl.withheld = [] ∧ (∃ y ∈ t.jnl.entries, y.1 = s.jnl.head + 1 ∧ y.2.body = p)) ∧
    (s.jnl.ckptBusy = ck :: cks → keyOk s = true → Journalling s → ∃ t, exec .checkpointWritten s = .next t ∧
      Logged s t { kind := 0o03, ref := BitVec.ofNat 64 ck.seqno, code := BitVec.ofNat 16 ckSlot } ∧
      tget [] t.jnl.ckpts ckSlot = ckptOctets s ck ++ fit 96 (deviceSignature (ckptOctets s ck)) ∧
      t.jnl.frozen = (s.ts.pendingLock.isSome && cks.isEmpty) ∧ t.mem = s.mem) ∧
    (s.jnl.ckptBusy = [] ∨ keyOk s = false → exec .checkpointWritten s = .next s) ∧
    (s.jnl.written < s.jnl.head → DueAll s [] [] [rest 10000 s.jnl.wrTicks] [] → ∃ t, exec (.mramTimeout .journalWrite) s = .next t ∧
      t.jnl = { s.jnl with wrTicks := 0, ckTicks := t.jnl.ckTicks } ∧ later t (rest 10000 s.jnl.wrTicks)) ∧
    (s.jnl.head ≤ s.jnl.written → exec (.mramTimeout .journalWrite) s = .next s) ∧
    (s.jnl.ckptBusy ≠ [] → DueAll s [] [] [rest 10000 s.jnl.ckTicks] [] → ∃ t, exec (.mramTimeout .checkpointWrite) s = .next t ∧
      t.jnl = { s.jnl with ckTicks := 0, wrTicks := t.jnl.wrTicks } ∧ later t (rest 10000 s.jnl.ckTicks)) ∧
    (s.jnl.ckptBusy = [] → exec (.mramTimeout .checkpointWrite) s = .next s) ∧
    (let u := pass 10000 s
     (s.slot r).st = 3 → (u.slot r).st = 3 → (u.slot r).ended = false → Journalling u → ∃ t, exec (.mramTimeout (.commandWrite r)) s = .next t ∧
       Ended u t r 0o307 ∧ Logged u t { kind := 0o02, ref := (u.slot r).jseq, code := 0o307 } ∧ t.mem = u.mem) ∧
    ((s.slot r).st ≠ 3 → exec (.mramTimeout (.commandWrite r)) s = .next s) ∧
    (Due s [] [] [] → (∃ t, exec (.mramTimeout .headOther) s = .next t ∧ t.hs.halted = true ∧ t.ts.halted = s.ts.halted ∧ later t 10000) ∧
      (∃ t, exec (.mramTimeout .tailOther) s = .next t ∧ t.ts.halted = true ∧ t.hs.halted = s.hs.halted ∧ later t 10000)) ∧
    (i.hashing = true → sealed → alone → ∃ t, exec (.lockBindingHashDone c k) s = .next t ∧ (t.inSlot c.toNat k.val).bound = true ∧
      (t.inSlot c.toNat k.val).root = rootOfWords ((rangeWords s i.first i.words).map Prod.fst) ∧ (t.inSlot c.toNat k.val).hashing = false ∧
      t.mem = s.mem ∧ (i.owner = some r → (s.slot r).st = 3 → (s.slot r).ended = false → Journalling s → Ended s t r 0o300)) ∧
    (alone → i.hashing = false ∨ ¬ sealed → exec (.lockBindingHashDone c k) s = .next s) ∧
    (∀ g home, guestsOf s c = [(g, home)] → i.hashing = false → (let y := s.inSlot g k.val
      y.hashing = true → (∀ b ∈ banksOfRange s y.first y.words, (s.bank b).sealed = true) → ∃ t, exec (.lockBindingHashDone c k) s = .next t ∧
        (let got := rootOfWords ((rangeWords s y.first y.words).map Prod.fst)
         (t.inSlot g k.val).bound = true ∧ (t.inSlot g k.val).broken = decide (got ≠ y.root) ∧
         ∃ a, WMsg.copiedRoot home (BitVec.ofNat 8 g) k a got ∈ t.wov.tx) ∧ t.mem = s.mem)) ∧
    (i.bound = true → root ≠ i.root → ∃ t, exec (.copiedRangeRoot c k first root) s = .next t ∧
      t.inSlot c.toNat k.val = { i with broken := true } ∧ t.mem = s.mem ∧ t.banks = s.banks) ∧
    (i.bound = true → root = i.root → ∃ t, exec (.copiedRangeRoot c k first root) s = .next t ∧
      t.inSlot c.toNat k.val = { i with first := first.toNat } ∧ t.mem = s.mem) ∧
    (i.bound = false → exec (.copiedRangeRoot c k first root) s = .next s) ∧
    lowRead false s.jnl.written ∧ lowRead true s.jnl.drained

/-! ## Admission and the ring (R416 to R425, R428, R465) -/

/-- A doorbell rings the free slots it selects and counts the others; a command is copied and evaluated by the checks in their order, one whose slot
does not read clean refused, accepted under its ACCEPT entry, or sent on to its target, a DMA transfer with a channel and buffers of this device
where they are free; a DELAYED one is evaluated again, and a forwarded transfer that lacked a channel is sent on with it. A write of RINGCFG or
RINGHEAD sets the ring, and a held entry leaves when there is room. A deadline refuses a DELAYED command and stops a RUNNING one; NOP ends with
DONE, its entry and its message; QUERY sends the capacity map and ABORT stops the command it names. -/
def Obligations.CommandsAreAdmittedRunAndAnswered : Prop :=
  ∀ (r q : SlotRef) (i : Fin 16) (m : Fin 4) (bits : BitVec 64) (v : BitVec 32) (e : Entry) (n : Fin 1024) (s : State),
    let outcome (u : State) (o : List Octet) : BitVec 16 :=
      let nowait : Prop := cmdFlags o % 2 = 1
      if fieldsOk o = false then 0o207
      else if pfOnly (cmdOpc o) = true ∧ r.i ≠ 0 then 0o210
      else if stepMode u o = false then 0o205
      else if cmdDeadline o = 0 then 0o206
      else if stepRange u r.i o = false then 0o211
      else if journalFull u = true then 0o204
      else if stepOrder u r = true then (if nowait then 0o201 else 0o104)
      else if stepQuota u r o = true then (if nowait then 0o202 else 0o102)
      else if stepBusy u r o = true then (if nowait then 0o201 else 0o101)
      else if stepNobuf u o = true then (if nowait then 0o203 else 0o103)
      else if stepJnl u = true then (if nowait then 0o201 else 0o105)
      else 1
    let standing (c : BitVec 16) : BitVec 8 := if c = 1 then 3 else if 0o101 ≤ c.toNat ∧ c.toNat ≤ 0o105 then 2 else 5
    let busy (k : Fin 64) : Prop := (s.slot ⟨i, m, k⟩).st = 1 ∨ (s.slot ⟨i, m, k⟩).st = 2 ∨ (s.slot ⟨i, m, k⟩).st = 3 ∨ (s.slot ⟨i, m, k⟩).fwdTo ≠ none
    let o := slotOctets s r
    let u := s.modSlot r (fun x => { x with copy := o, tag := cmdTag o })
    let fetching : Prop := (s.slot r).st = 1 ∧ headRuns s = true ∧ (s.inst r.i).held = [] ∧ s.isRoot = true
    let fetched : Prop := fetching ∧ slotBad s r = []
    let x := s.inst i
    let on : Bool := v.getLsbD 31
    let logn : BitVec 5 := if 10 ≤ v.toNat % 32 ∧ v.toNat % 32 ≤ 16 then v.extractLsb' 0 5 else x.log2n
    let at_ (y : Inst) : Nat := y.ringbase.toNat + 32 * (y.ringTail.toNat % 2 ^ y.log2n.toNat)
    let y := s.inst r.i
    let g := s.msixOf r.i.val y.vec.toNat
    let inTurn : Prop := i = 0 → s.pci.stalled = []
    let z := s.slot r
    let limit := rest (100 * cmdDeadline z.copy) z.ticks
    let live : Prop := s.pwr.main12 = true ∧ s.isRoot = true ∧ (s.fnCfg i.val).d3 = false
    let tgt := forwardTarget s r
    let f := u.modSlot r (fun z => { z with st := 0, fst := 1, fwdTo := some tgt, fwd := z.order })
    let sent (k : Option (Fin 8)) : WMsg := .forward tgt r o (s.slot r).arrival (.command (s.slot r).order k)
    let sends : Prop := fetched ∧ tgt.toNat ≠ s.devId ∧ devicePresent s tgt.toNat = true
    let short (f : State) (o : List Octet) : Prop := chansBusy f r o = true ∨ 254 < s.hs.pool
    let kept (f t : State) (o : List Octet) (d : BitVec 6) : Prop := ∃ c y, chanFor f r o = some c ∧ t.hs.chans.getD c none = some y ∧ y.ref = r ∧
      y.far = some d ∧ t.hs.pool = s.hs.pool + 2 ∧ (t.slot r).chan = some (Fin.ofNat 8 c) ∧ t.mem = s.mem
    let room2 : Prop := Journalling s ∧ s.jnl.head + 2 ≤ s.jnl.written + 256
    (inTurn → live → s.pwr.mode ≠ 9 → x.en = true → x.resetting = false → ∃ t, exec (.doorbell i m bits) s = .next t ∧
      (∀ k, bits.getLsbD k.val = true → (busy k → t.slot ⟨i, m, k⟩ = s.slot ⟨i, m, k⟩) ∧
        (¬ busy k → ∃ a, s.hs.arrivals < a ∧ t.slot ⟨i, m, k⟩ = { st := 1, arrival := s.tb, order := a })) ∧
      (∀ k, k.i ≠ i ∨ k.m ≠ m ∨ bits.getLsbD k.k.val = false → t.slot k = s.slot k) ∧ t.mem = s.mem) ∧
    (∀ k : Fin 64, inTurn → live → s.pwr.mode ≠ 9 → bits = BitVec.ofNat 64 (2 ^ k.val) →
      x.en = false ∨ x.resetting = true ∨ busy k → exec (.doorbell i m bits) s = .next (s.setInst i { x with dbign := satAdd x.dbign 1 })) ∧
    (¬ live → exec (.doorbell i m bits) s = .next s) ∧
    (fetching → slotBad s r ≠ [] → ∃ t, exec (.commandAdmission r) s = .next t ∧ (t.slot r).st = 5 ∧ (t.slot r).status = 0o212 ∧ t.mem = s.mem) ∧
    (fetched → (forwardTarget s r).toNat = s.devId → ∃ t, exec (.commandAdmission r) s = .next t ∧ (t.slot r).copy = o ∧
      (t.slot r).status = outcome u o ∧ (t.slot r).st = standing (outcome u o) ∧ t.mem = s.mem ∧
      (outcome u o = 1 → Journalling s → (t.slot r).jseq = BitVec.ofNat 64 (s.jnl.head + 1) ∧
        Logged s t { kind := 0o01, inst := BitVec.ofNat 8 r.i.val, mbx := BitVec.ofNat 8 r.m.val, slot := BitVec.ofNat 8 r.k.val,
                     code := BitVec.ofNat 16 (cmdOpc o), dig := (sha3 o).take 16 })) ∧
    (sends → isDma o = false ∨ (s.slot r).chan ≠ none ∨ short f o → exec (.commandAdmission r) s = .next (sendMsg f (sent (s.slot r).chan))) ∧
    (sends → isDma o = true → (s.slot r).chan = none → ¬ short f o → s.hs.chans.length = 8 → ∃ t, exec (.commandAdmission r) s = .next t ∧
      kept f t o tgt ∧ t.wov.tx = s.wov.tx ++ [sent (t.slot r).chan]) ∧
    (∀ d, headRuns s = true → s.isRoot = true → s.hs.slots = [(slotKey r, z)] → z.st = 0 → z.fwdTo = some d → z.fst = 2 → isDma z.copy = true →
      z.chan = none → (short s z.copy → exec .delayedReevaluation s = .next s) ∧
      (¬ short s z.copy → s.hs.chans.length = 8 → ∃ t, exec .delayedReevaluation s = .next t ∧ kept s t z.copy d ∧
        t.wov.tx = s.wov.tx ++ [.forward d r z.copy z.arrival (.command z.fwd (t.slot r).chan)])) ∧
    (fetched → (forwardTarget s r).toNat ≠ s.devId → devicePresent s (forwardTarget s r).toNat = false →
      ∃ t, exec (.commandAdmission r) s = .next t ∧ (t.slot r).st = 5 ∧ (t.slot r).status = 0o211 ∧ t.jnl = s.jnl) ∧
    ((s.slot r).st ≠ 1 ∨ headRuns s = false ∨ (s.inst r.i).held ≠ [] → exec (.commandAdmission r) s = .next s) ∧
    (headRuns s = true → s.hs.slots.filter (fun z => z.2.st = 2) = [(slotKey r, s.slot r)] → (∀ z ∈ s.hs.slots, z.2.fwdTo = none) →
      ∃ t, exec .delayedReevaluation s = .next t ∧ (t.slot r).status = outcome s (s.slot r).copy ∧
      (t.slot r).st = standing (outcome s (s.slot r).copy) ∧ t.mem = s.mem) ∧
    (headRuns s = false → exec .delayedReevaluation s = .next s) ∧
    (inTurn → x.en = false → on = true → exec (.ringcfg i v) s = .next (s.setInst i { x with
      en := true, vec := v.extractLsb' 16 6, log2n := logn, ringHead := 0, ringTail := 0, phase := true, held := [] })) ∧
    (inTurn → on = false ∨ (x.en = true ∧ x.held = []) → exec (.ringcfg i v) s = .next (s.setInst i { x with en := on, vec := v.extractLsb' 16 6, log2n := logn })) ∧
    (inTurn → x.held = [] → exec (.ringhead i v) s = .next (s.setInst i { x with ringHead := v })) ∧
    (inTurn → x.held = [e] → ringOpen { x with ringHead := v } = true → s.pci.up = true → (s.fnCfg i.val).msixEn = false →
      ∃ t, exec (.ringhead i v) s = .next t ∧ t.pci.tx = s.pci.tx ++ [.write i (at_ x) (entryOctets e x.phase) false false] ∧
      (t.inst i).held = [] ∧ (t.inst i).ringTail.toNat = (x.ringTail.toNat + 1) % 2 ^ x.log2n.toNat ∧
      (t.inst i).phase = (if (x.ringTail.toNat + 1) % 2 ^ x.log2n.toNat = 0 then !x.phase else x.phase) ∧ t.mem = s.mem) ∧
    (z.st = 2 → headRuns s = true → Due s [] [] [limit] → ∃ t, exec (.commandDeadline r) s = .next t ∧
      t.slot r = { z with ticks := z.ticks + limit, st := 5, status := 0o206, qpos := 0 } ∧ t.mem = s.mem) ∧
    (z.st = 3 → z.ended = false → headRuns s = true → Due s [] [] [limit] → Journalling s → ∃ t, exec (.commandDeadline r) s = .next t ∧
      t.slot r = { z with ticks := z.ticks + limit, begun := true, ended := false, st := 4, status := 0o303, qpos := 0 } ∧ t.mem = s.mem ∧
      (∀ c y, t.hs.chans.getD c none = some y → y.ref ≠ r)) ∧
    exec (.commandDeadline r) s = .next (if z.st = 2 ∨ (z.st = 3 ∧ z.ended = false) then pass limit s else s) ∧
    (Doing s r 0o001 → Journalling s → ∃ t, exec (.nop r) s = .next t ∧ Ended s t r 0o300 ∧
      Logged s t { kind := 0o02, ref := (s.slot r).jseq, code := 0o300 } ∧ t.mem = s.mem ∧ t.banks = s.banks ∧ t.lathes = s.lathes) ∧
    (Doing s r 0o001 → Journalling s → s.isRoot = true → y.held = [] → ringOpen y = true → s.pci.up = true →
      (s.fnCfg r.i.val).msixEn = true → (s.fnCfg r.i.val).fmask = false → g.mask = false → ∃ t, exec (.nop r) s = .next t ∧
      t.pci.tx = s.pci.tx ++ [.write r.i (at_ y) (entryOctets { jseq := (s.slot r).jseq, tag := (s.slot r).tag, mbx := r.m, slot := r.k,
                                                                 status := 0o300, kind := 1 } y.phase) false false, .msix r.i g.addr g.data]) ∧
    (let a := cmdArg (s.slot r).copy 0
     let told (data : List Octet) : Prop := data.length = 150 ∧ (data.getD (n.val / 8) 0).getLsbD (n.val % 8) = (s.bank n.val).retired
     Doing s r 0o005 → Journalling s → ∃ t, exec (.query r) s = .next t ∧ Ended s t r 0o300 ∧ t.mem = s.mem ∧
       (s.isRoot = true → s.pci.up = true → ∃ ps : List (List Octet), ∃ rest, told ps.flatten ∧
         (∀ p ∈ ps, p.length ≤ sizeOctets (s.fnCfg r.i.val).mps 512) ∧ t.pci.tx = s.pci.tx ++ (List.range ps.length).map (fun k =>
           .write r.i (a + (ps.take k).flatten.length) (ps.getD k []) (s.fnCfg r.i.val).ro false) ++ rest) ∧
       (s.isRoot = false → ∃ data, told data ∧ WMsg.hostData r.i a (data.map (fun b => (b, false))) ∈ t.wov.tx)) ∧
    (Doing s r 0o006 → room2 → (s.slot q).st = 3 → (s.slot q).ended = false → (s.slot q).jseq.toNat = cmdArg (s.slot r).copy 0 →
      (∀ z ∈ s.hs.slots, z.2.jseq.toNat = cmdArg (s.slot r).copy 0 → z.1 = slotKey q) → r ≠ q →
      ∃ t, exec (.abort r) s = .next t ∧ Ended s t q 0o304 ∧ Ended s t r 0o300 ∧ t.jnl.head = s.jnl.head + 2)

/-! ## Instances, grants and jobs (R415, R426, R429, R431, R446, R470) -/

/-- INSTCFG sets an instance's configuration, and a change of lathes advances its epoch everywhere; GRANT writes BNK_OWN of its banks, which hands
over those that are free, waits for pending ones and is refused under seal lock, and REVOKE takes banks back zeroed; INSTRESET and FLR start an
instance reset, whose zeroing hands its banks to the test engine and is a destroying run over them, after which they pass to NONE and the window has
its reset values; RUN enters the runtime on each lathe and arms its watchdog; MIGRATE moves placement, contents and job to the new lathes, those of
another device as its remote writes. The root alone advances an epoch, and another device asks it to. -/
def Obligations.InstancesAreConfiguredRunAndReset : Prop :=
  ∀ (r q : SlotRef) (i a b : Fin 16) (jb : Job) (s : State),
    let o := (s.slot r).copy
    let arg (k : Nat) : Nat := cmdArg o k
    let w : BitVec 16 := BitVec.ofNat 16 (arg 1)
    let e := (s.inst i).epoch + 1
    let named (n : Nat) : Prop := arg 1 ≤ n ∧ n ≤ arg 1 + arg 2
    let own (n : Nat) : Bool := (s.inst i).lathes.getLsbD (n / 64) && (s.spin (n / 8)).inSvc
    let passed (old x : Bank) : Bank := { x with drain := some .handover, drainTicks := 0, parkOld := some old.parked }
    let handed (n : Nat) : Bank := { (s.bank n) with ownCl := if own n then 0 else 6, ownId := if own n then BitVec.ofNat 7 (n / 8) else 0,
                                                     inst := BitVec.ofNat 4 i.val, lend := 2, lscope := 1, epoch := (s.inst i).epoch, granted := some i }
    let before (n : Nat) : Bank := { (s.bank n) with granted := some i }
    let free (n : Nat) : Prop := (s.bank n).isPending = false ∧ (s.bank n).sealed = false ∧ (s.bank n).retired = false
    let sealedOnly (n : Nat) : Prop := (s.bank n).isPending = false ∧ (s.bank n).sealed = true ∧ (s.bank n).retired = false
    let held (n : Nat) : Prop := n < 1024 ∧ (s.bank n).granted = some i ∧ (s.bank n).retired = false
    let test (b : Bank) : Bank := { b with ownCl := 5, ownId := 0, lend := 0, lscope := 0 }
    let ready (n : Nat) : Prop := (s.bank n).ownCl = 5 ∧ (s.bank n).isPending = false ∧ (s.bank n).sealed = false
    let taken (n : Nat) : Prop := (s.bank n).ownCl ≠ 5 ∧ (s.bank n).isPending = false ∧ (s.bank n).sealed = false
    let calm (n : Nat) : Prop := (s.bank n).newEpoch = none ∧ (s.bank n).heldLock = false
    let aged (b : Bank) : Bank := if b.isPending = true then { b with newEpoch := some e } else if b.retired = true then { b with newEpoch := none, horej := true }
      else if b.epoch = e then { b with newEpoch := none } else if b.sealed = true then { b with newEpoch := none, epoch := e }
      else passed b { b with newEpoch := none, epoch := e }
    let asks (t : State) : Prop := WMsg.epochAck i true ∈ t.wov.tx ∧ (t.inst i).epoch = (s.inst i).epoch
    let resets (t : State) (k : Fin 16) (by_ : Option SlotRef) : Prop := (t.inst k).resetting = true ∧ (t.inst k).zeroing = false ∧
      (t.inst k).resetCmds = by_.toList ∧ (t.inst k).epoch = (s.inst k).epoch + (if s.isRoot = true then 1 else 0) ∧
      (∀ p : SlotRef, p.i = k → (t.slot p).st ≠ 1 ∧ (t.slot p).st ≠ 2 ∧ (t.slot p).fwdTo = none) ∧
      (∀ c, (s.ctx c).inst.toNat = k.val → (t.ctx c).st = .closed) ∧ t.mem = s.mem
    let job : Prop := (s.slot q).st = 3 ∧ (s.slot q).jseq.toNat = arg 0 ∧ (s.slot q).job = some jb ∧ r ≠ q ∧
      (∀ z ∈ s.hs.slots, z.2.jseq.toNat = arg 0 → z.1 = slotKey q)
    (Doing s r 0o002 → arg 0 = i.val → w = (s.inst i).lathes → Journalling s → ∃ t, exec (.instcfg r) s = .next t ∧ Ended s t r 0o300 ∧
      (t.inst i).lathes = w ∧ (t.inst i).slotq = nfld (arg 2) 0 9 ∧ (t.inst i).bufq = nfld (arg 2) 16 9 ∧
      (t.inst i).share = BitVec.ofNat 32 (arg 3) ∧ (t.inst i).epoch = (s.inst i).epoch ∧ t.banks = s.banks ∧ t.lathes = s.lathes ∧ t.mem = s.mem) ∧
    (Doing s r 0o002 → arg 0 = i.val → w ≠ (s.inst i).lathes → NoQueue s → Journalling s → ∃ t, exec (.instcfg r) s = .next t ∧ Ended s t r 0o300 ∧
      (t.inst i).lathes = w ∧ t.mem = s.mem ∧ (s.isRoot = false → asks t) ∧
      (s.isRoot = true → (t.inst i).epoch = e ∧ (∀ k : Fin 16, w.getLsbD k.val = true → (t.lathe k).epoch = e) ∧
        (∀ n, n < 1024 → (s.bank n).granted = some i → t.bank n = aged (s.bank n)) ∧
        (∀ c, (s.ctx c).st ≠ .closed → (s.ctx c).inst.toNat = i.val → (t.ctx c).epoch = e ∧
          (t.ctx c).migrated = ((s.ctx c).migrated || decide ((s.ctx c).epoch ≠ e))))) ∧
    (Doing s r 0o003 → arg 0 = i.val → (∃ n, named n ∧ (s.bank n).isPending = true) → exec (.grant r) s = .next s) ∧
    (Doing s r 0o003 → arg 0 = i.val → (∀ n, named n → (s.bank n).isPending = false) → Journalling s → ∃ t, exec (.grant r) s = .next t ∧
      Ended s t r 0o300 ∧
      (∀ n, named n → free n → t.bank n = if handed n = before n then before n else passed (s.bank n) (handed n)) ∧
      (∀ n, named n → sealedOnly n → t.bank n =
        if handed n = { (before n) with epoch := (handed n).epoch } ∧ (handed n).epoch ≠ (s.bank n).epoch then handed n else { (before n) with horej := true }) ∧
      (∀ n, named n → (s.bank n).retired = true → t.bank n = before n) ∧
      (∀ n, ¬ named n → t.bank n = s.bank n) ∧ t.mem = s.mem ∧ t.lathes = s.lathes) ∧
    (Doing s r 0o003 → arg 0 = i.val + 256 → s.scr.march ≠ none → exec (.grantRevoke r) s = .next s) ∧
    (Doing s r 0o003 → arg 0 = i.val + 256 → s.scr.march = none → (∃ n, named n ∧ (s.bank n).retired = false ∧ ¬ ready n) →
      ∃ t, exec (.grantRevoke r) s = .next t ∧ t.slot r = s.slot r ∧ t.mem = s.mem ∧
      (∀ n, named n → (s.bank n).retired = false → taken n → t.bank n = passed (s.bank n) (test (s.bank n))) ∧
      (∀ n, ¬ (named n ∧ (s.bank n).retired = false ∧ taken n) → t.bank n = s.bank n)) ∧
    (Doing s r 0o003 → arg 0 = i.val + 256 → arg 1 + arg 2 ≤ 1023 → s.scr.march = none → (∀ n, (s.bank n).march = false) →
      (∀ n, named n → (s.bank n).retired = false → ready n ∧ calm n) → Journalling s → ∃ t, exec (.grantRevoke r) s = .next t ∧ Ended s t r 0o300 ∧
      (∀ n, named n → t.bank n = if (s.bank n).retired = true then { (s.bank n) with granted := none } else
        passed (s.bank n) { (s.bank n) with ownCl := 6, ownId := 0, inst := 0, lend := 0, lscope := 0, epoch := 0, granted := none }) ∧
      (∀ n, ¬ named n → t.bank n = s.bank n) ∧
      (∀ x, t.cell x = if named (x / 262144) ∧ (s.bank (x / 262144)).retired = false then 0 else s.cell x)) ∧
    (Doing s r 0o004 → arg 0 = i.val → (s.inst i).resetting = false → NoQueue s → s.wov.ops = [] → ∃ t, exec (.instreset r) s = .next t ∧
      resets t i (some r)) ∧
    (i ≠ 0 → (s.inst i).resetting = false → NoQueue s → s.wov.ops = [] → ∃ t, exec (.flr i) s = .next t ∧ resets t i none) ∧
    (NoQueue s → s.wov.ops = [] → ∃ t, exec (.flr 0) s = .next t ∧ t.pci.vfEnable = false ∧ (∀ k, (t.inst k).resetting = true) ∧ t.mem = s.mem) ∧
    (Doing s r 0o004 → arg 0 = i.val → (s.inst i).resetting = true → ∃ t, exec (.instreset r) s = .next t ∧
      t.inst i = { (s.inst i) with resetCmds := (s.inst i).resetCmds ++ [r] } ∧ (t.slot r).st = 3 ∧ t.mem = s.mem ∧ t.banks = s.banks) ∧
    (let starts : Prop := (s.inst i).resetting = true ∧ (s.inst i).zeroing = false ∧ s.groups = [] ∧ s.scr.march = none
     (starts → (∀ n, held n → ready n) → ∃ t, exec (.instanceZeroing i) s = .next t ∧ t.inst i = { (s.inst i) with zeroing := true } ∧
       (∀ n, held n → t.bank n = { (s.bank n) with march := true } ∧
         ∃ d, t.scr.march = some d ∧ d.inst = some i ∧ d.pres = false ∧ d.first ≤ n ∧ n ≤ d.last) ∧
       (∀ k : Fin 16, ∀ x, (s.inst i).lathes.getLsbD k.val = true → x < 1048576 → t.cell (4 * (0o000400000000 + 262144 * k.val) + x) = 0) ∧
       t.threads = s.threads) ∧
     (starts → ¬ (∀ n, held n → ready n) → ∃ t, exec (.instanceZeroing i) s = .next t ∧ t.hs = s.hs ∧ t.mem = s.mem ∧
       (∀ n, held n → taken n → t.bank n = passed (s.bank n) (test (s.bank n))) ∧ (∀ n, ¬ (held n ∧ taken n) → t.bank n = s.bank n))) ∧
    ((s.inst i).resetting = false ∨ (s.inst i).zeroing = true ∨ s.scr.march ≠ none → exec (.instanceZeroing i) s = .next s) ∧
    ((s.inst i).zeroing = true →
      (s.inst i).resetCmds = [] ∨ ((s.inst i).resetCmds = [r] ∧ r.i ≠ i ∧ (s.slot r).st = 3 ∧ (s.slot r).ended = false ∧ Journalling s) →
      (∀ n, held n → calm n ∧ (s.bank n).drain = none ∧ (s.bank n).sealed = false ∧ ((s.bank n).march = true →
        ∃ d, s.scr.march = some d ∧ d.inst = some i ∧ d.group ≤ n / 8 ∧ d.first ≤ n ∧ n ≤ d.last)) →
      (∀ d, s.scr.march = some d → d.inst = some i → d.pres = false ∧ d.repair = false) →
      ∃ t, exec (.zeroingDone i) s = .next t ∧
      (∀ n, held n → t.bank n = (let b := { (s.bank n) with march := false }
        let x := { b with ownCl := 6, ownId := 0, inst := BitVec.ofNat 4 i.val, lend := 2, lscope := 1 }
        if x = b then b else passed b x)) ∧
      (∀ d n, s.scr.march = some d → d.inst = some i → held n → (s.bank n).march = true → d.group ≤ n / 8 → d.first ≤ n → n ≤ d.last →
        ∀ x, x / 262144 = n → t.cell x = 0) ∧
      ((∀ d, s.scr.march = some d → d.inst ≠ some i) → t.mem = s.mem) ∧
      (∀ p : SlotRef, p.i = i → t.slot p = {}) ∧ ((s.inst i).resetCmds = [r] → Ended s t r 0o300) ∧
      (t.inst i).resetting = false ∧ (t.inst i).zeroing = false ∧ (t.inst i).ringbase = 0 ∧ (t.inst i).en = false ∧ (t.inst i).vec = 0 ∧
      (t.inst i).log2n = 10 ∧ (t.inst i).ringHead = 0 ∧ (t.inst i).ringerr = false ∧ (t.inst i).dbign = 0 ∧
      (t.inst i).lathes = (s.inst i).lathes) ∧
    ((s.inst i).zeroing = false → exec (.zeroingDone i) s = .next s) ∧
    (Doing s r 0o020 → ∃ t, exec (.run r) s = .next t ∧ (t.slot r).st = 3 ∧ (t.slot r).job =
        some { lathes := BitVec.ofNat 16 (arg 0), left := BitVec.ofNat 16 (arg 0), ctx := BitVec.ofNat 8 (nfld (arg 3) 0 8),
               sealed := nfld (arg 3) 8 1 = 1 } ∧
      (∀ th : Th, (BitVec.ofNat 16 (arg 0)).getLsbD th.l.val = true → th.t = 0 → (t.thr th).pc = BitVec.ofNat 36 (arg 1) ∧
        (t.thr th).level = .supervisor ∧ (t.thr th).rg 1 = BitVec.ofNat 36 (arg 2) ∧ (t.thr th).rg 2 = (s.slot r).jseq.setWidth 36 ∧
        (t.thr th).waiting = false ∧ (t.thr th).hold = .free ∧ (t.thr th).loads = [] ∧
        (let k := 100 * cmdDeadline o - (s.slot r).ticks
         k ≠ 0 → k < 2 ^ 30 → (t.thr th).mwdRun = true ∧ (t.thr th).mwdJob = true ∧ (t.thr th).mwdCount.toNat = k)) ∧
      (∀ th : Th, th.t ≠ 0 ∨ (BitVec.ofNat 16 (arg 0)).getLsbD th.l.val = false → t.thr th = s.thr th) ∧ t.mem = s.mem) ∧
    (Doing s r 0o021 → job → arg 2 = s.devId → jb.lathes = BitVec.ofNat 16 (2 ^ a.val) → w = BitVec.ofNat 16 (2 ^ b.val) → r.i = i → NoQueue s →
      s.isRoot = true → Memory.wf s.mem = true → Journalling s → ∃ t, exec (.migrate r) s = .next t ∧ Ended s t r 0o300 ∧ (t.inst i).epoch = e ∧
      (t.slot q).job = some { jb with lathes := w, left := if jb.left.getLsbD a.val = true then w else 0 } ∧
      (∀ x, x < 16777216 → t.cell (16777216 * b.val + x) = savedNonet (s.cell (16777216 * a.val + x))) ∧
      (∀ x, x < 1048576 → t.cell (4 * (0o000400000000 + 262144 * b.val) + x) = savedNonet (s.cell (4 * (0o000400000000 + 262144 * a.val) + x))) ∧
      (∀ c, (s.ctx c).st ≠ .closed → (s.ctx c).inst.toNat = i.val → (t.ctx c).migrated = ((s.ctx c).migrated || decide ((s.ctx c).epoch ≠ e)))) ∧
    (Doing s r 0o021 → job → arg 2 ≠ s.devId → arg 2 < 64 → devicePresent s (arg 2) = true → r.i = i → NoQueue s → s.isRoot = true →
      jb.lathes = BitVec.ofNat 16 (2 ^ a.val) → w = BitVec.ofNat 16 (2 ^ b.val) → ∃ t, exec (.migrate r) s = .next t ∧
      (t.slot r).st = 3 ∧ (t.inst i).epoch = e ∧ t.mem = s.mem ∧
      (∃ skews pads, WMsg.forward (BitVec.ofNat 6 (arg 2)) q [] 0 (.place w skews pads) ∈ t.wov.tx) ∧
      (∀ n, n / 64 = a.val → (s.bank n).granted = some i → free n → calm n → (s.bank n).lend ≠ 3 → (s.bank n).lscope ≠ 3 → (t.bank n).ownCl = 3 ∧ (t.bank n).inst = BitVec.ofNat 4 i.val)) ∧
    (Doing s r 0o021 → job → arg 2 ≠ s.devId → arg 2 < 64 → devicePresent s (arg 2) = false → s.isRoot = true → Journalling s →
      ∃ t, exec (.migrate r) s = .next t ∧ Ended s t r 0o313 ∧ t.mem = s.mem) ∧
    (Doing s r 0o021 → (∀ z ∈ s.hs.slots, z.2.jseq.toNat ≠ arg 0) → s.isRoot = true → Journalling s →
      ∃ t, exec (.migrate r) s = .next t ∧ Ended s t r 0o305) ∧
    (Doing s r 0o021 → s.isRoot = false → r.i = i → NoQueue s →
      ((s.slot r).asked = false → ∃ t, exec (.migrate r) s = .next t ∧ t.slot r = { (s.slot r) with asked := true } ∧ asks t ∧ t.mem = s.mem) ∧
      ((s.slot r).asked = true → tget [] s.wov.ackWait i.val ≠ [] → exec (.migrate r) s = .next s)) ∧
    (i ≠ 0 → (s.inst i).resetting = true → ∃ t, exec (.flr i) s = .next t ∧ t = s.setInst i (s.inst i))

/-! ## Transfers and the PCI Express endpoint (R37 to R42, R387, R416 to R418, R434 to R448) -/

/-- DMAIN and DMAOUT take a channel, at once or armed, and BIND borrows the banks; on the target of a forwarded command they take the root's
channel. A completion's words are written, a malformed, refused or failed one fixes how the transfer ends; the end frees the channel, that of an
egress after the groups that write its range; the root passes on the completions of another device's transfer. The host reads and writes the window,
BAR2 in Open mode, and the configuration, each function's requests in their order behind one that a bank stalls; a poisoned write is reported and a
TLP that fails its ECRC also counted; unmasking sends what is pending; the link trains to a rate it supports, and its loss ends outstanding ingress
reads and drops held entries. The bit positions of configuration space are the model's (PRESUMED: log entry 47). -/
def Obligations.TransfersAndHostAccessesAreServed : Prop :=
  ∀ (r : SlotRef) (c : Fin 8) (d : BitVec 6) (x : Xfer) (o : List Octet) (w : Word) (fn : Fin 16) (off20 : BitVec 20) (off28 : BitVec 28) (size : Nat) (m : Fin 4)
    (bits : BitVec 64) (vec : Fin 64) (speed : BitVec 3) (width : BitVec 5) (wr : Bool) (reg : BitVec 12) (v : BitVec 32) (s : State),
    let arg (k : Nat) : Nat := cmdArg (s.slot r).copy k
    let bitOf (k : Nat) : Nat := arg 2 / 2 ^ k % 2
    let free (k : Nat) : Prop := s.hs.chans.getD k none = none
    let alone : Prop := ∀ z ∈ s.hs.slots, z.2.st = 3 → z.2.begun = false → z = (slotKey r, s.slot r)
    let on (t : State) (y : Xfer) : Prop := t.hs.chans.getD c.val none = some y
    let start (out arm : Bool) : Xfer :=
      { ref := r, out := out, host := arg 0, dev := arg 1, count := arg 2 % 2 ^ 32, packing := BitVec.ofNat 2 (arg 2 / 2 ^ 32),
        ctx := BitVec.ofNat 8 (arg 2 / 2 ^ 34), slot := Fin.ofNat 16 (arg 2 / 2 ^ 42), armed := arm, running := !arm }
    let first : Prop := s.isRoot = true ∧ alone ∧ s.hs.chans.length = 8 ∧ free c.val ∧ ∀ k, k < c.val → ¬ free k
    let kept : Prop := s.isRoot = false ∧ (s.slot r).chan = some c ∧ s.hs.chans.length = 8
    let inbound : Prop := on s x ∧ x.out = false ∧ x.running = true ∧ x.failed = none ∧ x.far = none
    let outbound : Prop := on s x ∧ x.out = true ∧ x.running = true ∧ x.far = none
    let ends : Prop := (s.slot x.ref).st = 3 ∧ (s.slot x.ref).ended = false ∧ Journalling s
    let farther : Prop := on s x ∧ x.out = false ∧ x.running = true ∧ x.far = some d
    let quiet (z : Xfer) : Prop := z.out = true ∨ z.running = false ∨ z.failed ≠ none ∨ octetLen z.packing.toNat z.count ≤ z.got
    let others : Prop := ∀ k z, k ≠ c.val → s.hs.chans.getD k none = some z → quiet z
    let pa := x.dev + x.done
    let dma := xferReq s c.val x.ref.i
    let takes (q : Req) (a : Nat) : Prop := pathBusy s q a = false ∧
      ((∃ k, areaOf a = .scratch k) ∨ (areaOf a = .bank ∧ judge s (bankOf s a) q true = .granted))
    let octetsOf (z : Word) : List Octet := leOctets 5 z ++ [0, 0, 0]
    let reached : Prop := s.pwr.main12 = true ∧ s.pci.up = true ∧ s.isRoot = true ∧ s.pwr.mode ≠ 9 ∧ (fn = 0 → s.pci.stalled = [])
    let inTurn : Prop := s.pci.stalled = []
    let present : Prop := s.pci.functionsUp = true ∧ (fn = 0 ∨ (s.pci.vfEnable = true ∧ (s.fnCfg fn.val).present = true))
    let there : Prop := present ∧ (s.fnCfg fn.val).d3 = false
    let there0 : Prop := s.pci.functionsUp = true ∧ (s.fnCfg 0).d3 = false
    let reported (f b : Nat) (t : State) : Prop := (t.fnCfg f).aerUnc = setBit (s.fnCfg f).aerUnc b true ∧
      ((s.fnCfg f).aerUnc = 0 → (t.fnCfg f).aerFirst = BitVec.ofNat 5 b) ∧ t.pci.tx = s.pci.tx ∧ t.hs = s.hs ∧ t.mem = s.mem
    let discards (i : Instr) (f : Nat) : Prop := ∃ t, exec i s = .next t ∧ reported f 19 t ∧ t.pci.ecrc = satAdd s.pci.ecrc 1
    let deaf : Prop := s.pwr.main12 = false ∨ s.pci.up = false ∨ s.isRoot = false
    let y := s.inst fn
    let a2 : Nat := (if s.pci.half then 2 ^ 25 else 0) + off28.toNat / 8
    let sends (i : Instr) (msgs : List Tlp) : Prop := ∃ t, exec i s = .next t ∧ t.pci.tx = s.pci.tx ++ msgs ∧ t.mem = s.mem
    let g := s.msixOf fn.val vec.val
    (Doing s r 0o010 → first → bitOf 46 = 0 → bitOf 47 = 0 → 0 < arg 2 % 2 ^ 32 → ∃ t, exec (.dmain r) s = .next t ∧ on t (start false false) ∧
      (t.slot r).st = 3 ∧ t.pci.tx = s.pci.tx ++ (if s.pci.up = true then [.readReq r.i (arg 0)
        (min (octetLen (arg 2 / 2 ^ 32 % 4) (arg 2 % 2 ^ 32)) (min (min 4096 (128 * 2 ^ (s.fnCfg r.i.val).mrrs.toNat)) (4096 - arg 0 % 4096)))] else []) ∧
      t.banks = s.banks ∧ t.mem = s.mem) ∧
    (Doing s r 0o010 → s.isRoot = true → s.hs.chans.length = 8 → free c.val → bitOf 46 = 0 → bitOf 47 = 1 → arg 2 / 2 ^ 48 % 8 = c.val → ∃ t, exec (.dmain r) s = .next t ∧
      on t (start false true) ∧ t.pci.tx = s.pci.tx ∧ t.mem = s.mem) ∧
    (Doing s r 0o010 → first → bitOf 46 = 1 → bitOf 47 = 0 →
      (∀ n ∈ banksOfRange s (arg 1) (arg 2 % 2 ^ 32), (s.bank n).isPending = false ∧ (s.bank n).sealed = false ∧ (s.bank n).retired = false) →
      ∃ t z, exec (.dmain r) s = .next t ∧ on t z ∧ z.bind = true ∧
      (∀ n ∈ banksOfRange s (arg 1) (arg 2 % 2 ^ 32), (t.bank n).ownCl = 2 ∧ (t.bank n).ownId = BitVec.ofNat 7 c.val ∧
        (t.bank n).inst = BitVec.ofNat 4 r.i.val ∧ (t.bank n).lend = 0) ∧ t.mem = s.mem) ∧
    (Doing s r 0o010 → s.isRoot = true → bitOf 47 = 1 → arg 2 / 2 ^ 48 % 8 = c.val → ¬ free c.val → exec (.dmain r) s = .next s) ∧
    (Doing s r 0o010 → s.isRoot = true → alone → bitOf 47 = 0 → (∀ k, k < 8 → ¬ free k) → exec (.dmain r) s = .next s) ∧
    (Doing s r 0o010 → kept → bitOf 46 = 0 → ∃ t, exec (.dmain r) s = .next t ∧ on t { start false false with running := true } ∧ t.pci = s.pci ∧
      t.banks = s.banks ∧ t.mem = s.mem) ∧
    (Doing s r 0o011 → kept → bitOf 46 = 0 → ∃ t, exec (.dmaout r) s = .next t ∧ on t { start true false with running := decide (bitOf 47 = 0) } ∧
      t.pci = s.pci ∧ t.mem = s.mem) ∧
    (Doing s r 0o011 → first → bitOf 46 = 0 → bitOf 47 = 0 → ∃ t, exec (.dmaout r) s = .next t ∧ on t (start true false) ∧ t.pci.tx = s.pci.tx ∧
      t.mem = s.mem) ∧
    (inbound → x.packing = 0 → x.octets = [] → x.done < x.count → takes dma pa → ∃ t, exec (.dmaReadCompletion c (.data (octetsOf w) false)) s = .next t ∧
      on t { x with done := x.done + 1, got := x.got + 8 } ∧ t.readWord (placeOf s pa) = (w, false) ∧
      (∀ p, p ≠ placeOf s pa → t.readWord p = s.readWord p)) ∧
    (inbound → x.packing = 0 → x.octets = [] → x.done < x.count → takes dma pa → ∃ t, exec (.dmaReadCompletion c (.data (octetsOf w) true)) s = .next t ∧
      on t { x with done := x.done + 1, got := x.got + 8, poison := true } ∧ (t.readWord (placeOf s pa)).2 = true ∧
      t.pci.eprx = if s.isRoot = true then satAdd s.pci.eprx 1 else s.pci.eprx) ∧
    (inbound → x.packing = 0 → x.octets = [] → x.done < x.count → areaOf pa = .bank → pathBusy s dma pa = false →
      judge s (bankOf s pa) dma true = .nonOwner →
      ∃ t, exec (.dmaReadCompletion c (.data (octetsOf w) false)) s = .next t ∧
      on t { x with got := x.got + 8, failed := some (0o307, 0o41, BitVec.ofNat 64 x.done) } ∧ t.mem = s.mem) ∧
    (inbound → x.packing = 0 → x.octets = [] → x.done < x.count → o.length = 8 → 2 ^ 36 ≤ octetsToNat o →
      ∃ t, exec (.dmaReadCompletion c (.data o false)) s = .next t ∧ t.mem = s.mem ∧
      on t { x with got := x.got + 8, octets := o.map (fun b => (b, false)), failed := some (0o302, BitVec.ofNat 64 x.done, 0) }) ∧
    (inbound → c.val < s.hs.chans.length → exec (.dmaReadCompletion c .unsupported) s =
      .next (s.setChan c.val (some { x with failed := some (0o312, 0, 0) })) ∧
      exec (.dmaReadCompletion c .aborted) s = .next (s.setChan c.val (some { x with failed := some (0o312, 0, 0) }))) ∧
    (inbound → ∃ t, exec (.dmaReadCompletion c .ecrc) s = .next t ∧ on t x ∧ reported x.ref.i.val 19 t ∧ t.pci.ecrc = satAdd s.pci.ecrc 1) ∧
    (farther → s.hs.chans.length = 8 → ∃ t, exec (.dmaReadCompletion c (.data o false)) s = .next t ∧ on t { x with got := x.got + o.length } ∧
      t.wov.tx = s.wov.tx ++ [.hostCpl d c.val (.data o false)] ∧ t.mem = s.mem) ∧
    (farther → s.hs.chans.length = 8 → ∃ t, exec (.dmaReadCompletion c .unsupported) s = .next t ∧ on t { x with running := false } ∧
      t.wov.tx = s.wov.tx ++ [.hostCpl d c.val .unsupported] ∧ t.mem = s.mem) ∧
    (farther → s.hs.chans.length = 8 → ∃ t, exec (.completionTimeout c) s = .next t ∧ on t { x with running := false } ∧
      t.wov.tx = s.wov.tx ++ [.hostCpl d c.val .timeout] ∧ t.pci.cto = satAdd s.pci.cto 1 ∧ t.mem = s.mem) ∧
    (farther → exec (.dmaTransferDone c) s = .next s) ∧
    (inbound → x.bind = false → x.count ≤ x.done → ends → ∃ t, exec (.dmaTransferDone c) s = .next t ∧
      t.hs.chans.getD c.val none = none ∧ Ended s t x.ref (if x.poison then 0o301 else 0o300) ∧ t.mem = s.mem) ∧
    (on s x → x.out = false → x.running = true → x.far = none → x.owners = [] → x.failed = some (0o302, 7, 0) → ends →
      ∃ t, exec (.dmaTransferDone c) s = .next t ∧ t.hs.chans.getD c.val none = none ∧ Ended s t x.ref 0o302 ∧ t.mem = s.mem) ∧
    (outbound → s.isRoot = true → s.pci.up = true → x.count = 1 → x.packing = 0 → (∃ k, areaOf x.dev = .scratch k) → pathBusy s dma x.dev = false →
      CleanAt s (x.dev / 4 * 4) 4 → s.groups = [] → x.host % 128 ≤ 120 → ends → ∃ t rest, exec (.dmaTransferDone c) s = .next t ∧
      t.pci.tx = s.pci.tx ++ .write x.ref.i x.host (octetsOf (s.readWord x.dev).1) (s.fnCfg x.ref.i.val).ro false :: rest ∧
      t.hs.chans.getD c.val none = none ∧ Ended s t x.ref 0o300 ∧ t.mem = s.mem) ∧
    (outbound → s.isRoot = false → x.count = 1 → x.packing = 0 → (∃ k, areaOf x.dev = .scratch k) → pathBusy s dma x.dev = false →
      CleanAt s (x.dev / 4 * 4) 4 → s.groups = [] → ends → ∃ t rest, exec (.dmaTransferDone c) s = .next t ∧
      t.wov.tx = s.wov.tx ++ .hostData x.ref.i x.host ((octetsOf (s.readWord x.dev).1).map (fun b => (b, false))) :: rest ∧
      t.hs.chans.getD c.val none = none ∧ Ended s t x.ref 0o300 ∧ t.mem = s.mem) ∧
    (free c.val → exec (.dmaTransferDone c) s = .next s ∧ exec (.completionTimeout c) s = .next s) ∧
    (inbound → s.isRoot = true → ends → ∃ t, exec (.completionTimeout c) s = .next t ∧ t.pci.cto = satAdd s.pci.cto 1 ∧
      t.hs.chans.getD c.val none = none ∧ Ended s t x.ref 0o312 ∧ t.mem = s.mem) ∧
    (reached → there → off20.toNat + size ≤ 0x4000 →
      sends (.hostBar0Read fn off20 ⟨size, false⟩) [.cpl fn ((List.range size).map (fun j => tget 0 y.win (off20.toNat + j)))
        ((List.range size).any (fun j => tget false y.winBad (off20.toNat + j)))]) ∧
    (reached → there → ∃ t, exec (.hostBar0Read fn 0x4038 ⟨4, false⟩) s = .next t ∧ t.inst fn = { y with dbign := 0 } ∧ t.mem = s.mem ∧
      t.pci.tx = s.pci.tx ++ [.cpl fn (leOctets 4 ((if y.en && !y.held.isEmpty then 0x80000000 else 0 : BitVec 32) |||
        (if y.ringerr then 0x40000000 else 0) ||| y.dbign.setWidth 32)) false]) ∧
    (reached → ¬ there → sends (.hostBar0Read fn off20 ⟨size, false⟩) [.cplUr fn]) ∧
    (deaf → ∀ (bad : Bool) (k : TlpMark), exec (.hostBar0Read fn off20 ⟨size, bad⟩) s = .next s ∧ exec (.hostBar0Write fn off20 o k) s = .next s ∧
      exec (.hostBar2Read off28 ⟨size, bad⟩) s = .next s ∧ exec (.hostBar2Write off28 o k) s = .next s ∧
      exec (.configurationRequest fn wr reg ⟨v, bad⟩) s = .next s) ∧
    (¬ deaf → discards (.hostBar0Read fn off20 ⟨size, true⟩) fn.val ∧ discards (.hostBar0Write fn off20 o .ecrc) fn.val ∧
      discards (.hostBar2Read off28 ⟨size, true⟩) 0 ∧ discards (.hostBar2Write off28 o .ecrc) 0 ∧
      discards (.configurationRequest fn wr reg ⟨v, true⟩) fn.val) ∧
    (reached → there → off20.toNat + o.length ≤ 0x4000 → ∃ t, exec (.hostBar0Write fn off20 o .good) s = .next t ∧ t.mem = s.mem ∧
      (∀ j, j < o.length → tget 0 (t.inst fn).win (off20.toNat + j) = o.getD j 0) ∧
      (∀ a, a < off20.toNat ∨ off20.toNat + o.length ≤ a → tget 0 (t.inst fn).win a = tget 0 y.win a) ∧ t.hs.slots = s.hs.slots) ∧
    (outbound → resultsDue s x = true → exec (.dmaTransferDone c) s = .next s) ∧
    (reached → there → ∃ t, exec (.hostBar0Write fn off20 o .poisoned) s = .next t ∧ reported fn.val 12 t) ∧
    (reached → inTurn → there0 → ∃ t, exec (.hostBar2Write off28 o .poisoned) s = .next t ∧ reported 0 12 t) ∧
    (reached → there → off20.toNat = 0x4000 + 8 * m.val → ∃ t u, exec (.hostBar0Write fn off20 (leOctets 8 bits) .good) s = .next t ∧
      exec (.doorbell fn m bits) s = .next u ∧ (∀ k, t.slot k = u.slot k) ∧ (∀ k, t.inst k = u.inst k) ∧ t.mem = s.mem) ∧
    (reached → inTurn → there0 → s.pwr.mode = 6 → off28.toNat % 8 = 0 → areaOf a2 = .bank → pathBusy s (reqDma 0 0) a2 = false →
      judge s (bankOf s a2) (reqDma 0 0) false = .granted → CleanAt s (placeOf s a2) 1 →
      sends (.hostBar2Read off28 ⟨8, false⟩) [.cpl 0 (octetsOf (s.readWord (placeOf s a2)).1) false]) ∧
    (reached → inTurn → there0 → s.pwr.mode ≠ 6 ∨ size ≠ 8 ∨ off28.toNat % 8 ≠ 0 → sends (.hostBar2Read off28 ⟨size, false⟩) [.cplUr 0]) ∧
    (reached → inTurn → there0 → s.pwr.mode = 6 → off28.toNat % 8 = 0 → areaOf a2 = .bank → pathBusy s (reqDma 0 0) a2 = false →
      judge s (bankOf s a2) (reqDma 0 0) true = .granted → ∃ t, exec (.hostBar2Write off28 (octetsOf w) .good) s = .next t ∧
      t.readWord (placeOf s a2) = (w, false) ∧ (∀ p, p ≠ placeOf s a2 → t.readWord p = s.readWord p) ∧ t.pci = s.pci) ∧
    (reached → inTurn → there0 → s.pwr.mode ≠ 6 ∨ o.length ≠ 8 ∨ 2 ^ 36 ≤ octetsToNat o →
      exec (.hostBar2Write off28 o .good) s = .next { s with pci := { s.pci with disc := satAdd s.pci.disc 1 } }) ∧
    (reached → inTurn → there0 → s.pwr.mode = 6 → off28.toNat % 8 = 0 → areaOf a2 = .bank → judge s (bankOf s a2) (reqDma 0 0) true = .stalls →
      exec (.hostBar2Write off28 (octetsOf w) .good) s = .next { s with pci := { s.pci with stalled := [.bar2Write off28 (octetsOf w) false] } }) ∧
    (∀ q qs, reached → there0 → s.pci.stalled = q :: qs → performHost q s = none →
      exec (.hostBar2Write off28 o .good) s = .next { s with pci := { s.pci with stalled := q :: (qs ++ [.bar2Write off28 o false]) } }) ∧
    (reached → there → (s.fnCfg fn.val).msixEn = true → (s.fnCfg fn.val).fmask = false → g.pend = true → ∃ t, exec (.msixUnmask fn vec) s = .next t ∧
      t.pci.tx = s.pci.tx ++ [.msix fn g.addr g.data] ∧ t.msixOf fn.val vec.val = { g with mask := false, pend := false } ∧ t.mem = s.mem) ∧
    (reached → there → g.pend = false → ∃ t, exec (.msixUnmask fn vec) s = .next t ∧ t.msixOf fn.val vec.val = { g with mask := false } ∧
      t.pci.tx = s.pci.tx) ∧
    (s.pci.up = true → (∀ k z, s.hs.chans.getD k none = some z → quiet z) → ∃ t, exec .dataLinkDown s = .next t ∧
      t.pci = { s.pci with up := false } ∧ (∀ k, t.inst k = { (s.inst k) with held := [] }) ∧ t.hs.slots = s.hs.slots ∧ t.hs.chans = s.hs.chans ∧
      t.mem = s.mem) ∧
    (s.pci.up = true → inbound → ¬ quiet x → others → ends → ∃ t, exec .dataLinkDown s = .next t ∧ t.pci.up = false ∧
      t.hs.chans.getD c.val none = none ∧ Ended s t x.ref 0o312) ∧
    (s.pci.up = true → farther → ¬ quiet x → others → ∃ t, exec .dataLinkDown s = .next t ∧ on t { x with running := false } ∧
      t.wov.tx = s.wov.tx ++ [.hostCpl d c.val .unsupported] ∧ t.hs.slots = s.hs.slots) ∧
    (s.pci.up = false → exec .dataLinkDown s = .next s) ∧
    (s.isRoot = false → exec (.pcieLinkTraining speed width) s = .next s) ∧
    (s.pwr.main12 = true → s.isRoot = true → s.rst.perstLow = false → 1 ≤ speed.toNat → speed.toNat ≤ 5 → width = 1 ∨ width = 2 ∨ width = 4 ∨ width = 8 ∨ width = 16 →
      exec (.pcieLinkTraining speed width) s = .next { s with pci := { s.pci with up := true, speed := speed, width := width } }) ∧
    (reached → s.pci.functionsUp = false → sends (.configurationRequest fn wr reg ⟨v, false⟩) [.cplCrs fn]) ∧
    (reached → s.pci.functionsUp = true → ¬ present → sends (.configurationRequest fn wr reg ⟨v, false⟩) [.cplUr fn]) ∧
    (reached → present → ∃ z : BitVec 32, sends (.configurationRequest fn false reg ⟨v, false⟩) [.cpl fn (leOctets 4 z) false] ∧
      (reg = 0x08 → z.extractLsb' 8 24 = 0x120000) ∧ (reg = 0x3C → z.extractLsb' 8 8 = 0) ∧
      (reg = Config.msixCap → z.getLsbD 31 = (s.fnCfg fn.val).msixEn ∧ z.getLsbD 30 = (s.fnCfg fn.val).fmask ∧ z.extractLsb' 16 11 = 63) ∧
      (reg = Config.pcieControl → z.getLsbD 4 = (s.fnCfg fn.val).ro ∧ z.extractLsb' 5 3 = (s.fnCfg fn.val).mps ∧
        z.extractLsb' 12 3 = (s.fnCfg fn.val).mrrs) ∧
      (64 ≤ reg.toNat → inCaps (if reg.toNat < 256 then lowCaps else extCaps (fn = 0)) reg.toNat = false → z = 0)) ∧
    (reached → present → reg = Config.msixCap → ∃ t, exec (.configurationRequest fn true reg ⟨v, false⟩) s = .next t ∧
      (t.fnCfg fn.val).msixEn = v.getLsbD 31 ∧ (t.fnCfg fn.val).fmask = v.getLsbD 30 ∧ t.mem = s.mem) ∧
    (reached → present → reg = Config.pcieControl → v.getLsbD 15 = false → ∃ t, exec (.configurationRequest fn true reg ⟨v, false⟩) s = .next t ∧
      (t.fnCfg fn.val).ro = v.getLsbD 4 ∧ (t.fnCfg fn.val).mps = v.extractLsb' 5 3 ∧ (t.fnCfg fn.val).mrrs = v.extractLsb' 12 3 ∧ t.hs = s.hs ∧
      t.mem = s.mem) ∧
    (reached → present → reg.toNat = Config.pmAt + 4 → ∃ t, exec (.configurationRequest fn true reg ⟨v, false⟩) s = .next t ∧
      ((t.fnCfg fn.val).d3 = true ↔ v.extractLsb' 0 2 = 3 ∨ (v.extractLsb' 0 2 ≠ 0 ∧ (s.fnCfg fn.val).d3 = true)) ∧ t.hs = s.hs ∧ t.mem = s.mem) ∧
    (reached → present → reg = Config.pcieControl → v.getLsbD 15 = true → fn ≠ 0 → (s.inst fn).resetting = false →
      ∃ t, exec (.configurationRequest fn true reg ⟨v, false⟩) s = .next t ∧ (t.inst fn).resetting = true ∧ (t.fnCfg fn.val).ro = v.getLsbD 4)

/-! ## Seals, journal, time, modes and firmware by command (R383, R387 to R395, R397 to R401, R426, R494 to R500, R511 to R518) -/

/-- SEALOPEN takes the lowest free context, SEALSLOT declares an output or locks an input, SEALCLOSE queues the record or waits for room, RECFETCH
and the other reads send their octets; JNLDRAIN, and TIMESET once the next tick has captured its value, journal what they set; MODESET changes the
mode, by way of the cores for Deterministic and down the ladder for Rest; the update commands load, check, activate and confirm the inactive slot,
and its background check has the same outcome. -/
def Obligations.CommandsActOnSealsJournalAndFirmware : Prop :=
  ∀ (r : SlotRef) (x : SealRec) (e : Nat × JEntry) (d : List Octet) (c : Nat) (k l : Fin 16) (s : State),
    let arg (k : Nat) : Nat := cmdArg (s.slot r).copy k
    let y := s.slot r
    let limit := rest (100 * cmdDeadline y.copy) y.ticks
    let room2 : Prop := Journalling s ∧ s.jnl.head + 2 ≤ s.jnl.written + 256
    let delivers (i : Instr) (data : List Octet) : Prop := ∃ t, exec i s = .next t ∧ Ended s t r 0o300 ∧ t.mem = s.mem ∧
      (s.isRoot = true → s.pci.up = true → ∃ ps : List (List Octet), ∃ rest, ps.flatten = data ∧
        (∀ p ∈ ps, p.length ≤ sizeOctets (s.fnCfg r.i.val).mps 512) ∧ t.pci.tx = s.pci.tx ++ (List.range ps.length).map (fun k =>
          .write r.i (arg 0 + (ps.take k).flatten.length) (ps.getD k []) (s.fnCfg r.i.val).ro false) ++ rest) ∧
      (s.isRoot = false → WMsg.hostData r.i (arg 0) (data.map (fun b => (b, false))) ∈ t.wov.tx)
    let opened : Prop := (s.ctx c).st = .opened ∧ (s.ctx c).inst.toNat = r.i.val
    let timed : List Nat := if headRuns s = true then [limit] else []
    let logs (t : State) (p : JProto) : Prop := ∃ z ∈ t.jnl.entries, z.1 = s.jnl.head + 1 ∧ z.2.body = p
    let inactive (t : State) : FwSlot := if t.opt.active then t.rst.slotA else t.rst.slotB
    let time : BitVec 72 := BitVec.ofNat 72 (arg 0 + 2 ^ 64 * arg 1)
    let target : BitVec 4 := BitVec.ofNat 4 (arg 0)
    let final : BitVec 4 := if s.ts.lockdn then 10 else if s.rst.min then 4 else
      (if s.ts.taint && (s.opt.defmode.toNat % 16 = 5 || s.opt.defmode.toNat % 16 = 7) then 6 else s.opt.defmode.setWidth 4)
    (Doing s r 0o030 → s.ts.pendingLock = none → c < 256 → (s.ctx c).st = .closed → (∀ c', c' < c → (s.ctx c').st ≠ .closed) → Journalling s →
      ∃ t, exec (.sealopen r) s = .next t ∧ Ended s t r 0o300 ∧ t.mem = s.mem ∧ t.ctx c =
        { st := .opened, inst := BitVec.ofNat 4 r.i.val, jseq := y.jseq, dig := sha3 y.copy, epoch := (s.inst r.i).epoch,
          tstart := entryTime s y.jseq.toNat, tainted := s.ts.taint } ∧ (∀ c', c' ≠ c → t.ctx c' = s.ctx c')) ∧
    (Doing s r 0o030 → s.ts.pendingLock ≠ none → Journalling s → ∃ t, exec (.sealopen r) s = .next t ∧ Ended s t r 0o311 ∧ t.ts = s.ts) ∧
    (Doing s r 0o031 → c = arg 0 % 256 → k.val = arg 0 / 256 % 16 → arg 0 / 4096 % 2 = 1 → opened → Journalling s → ∃ t, exec (.sealslot r) s = .next t ∧
      Ended s t r 0o300 ∧ t.outSlot c k.val = { (s.outSlot c k.val) with typ := some (BitVec.ofNat 4 (arg 1)), declared := arg 2 } ∧ t.mem = s.mem) ∧
    (Doing s r 0o031 → c = arg 0 % 256 → k.val = arg 0 / 256 % 16 → arg 0 / 4096 % 2 = 0 → opened → ∃ t, exec (.sealslot r) s = .next t ∧ (t.slot r).st = 3 ∧
      t.inSlot c k.val = { (s.inSlot c k.val) with hashing := true, first := arg 1, words := arg 2, owner := some r } ∧
      (∀ b ∈ banksOfRange s (arg 1) (arg 2), tget 0 t.ts.lockCnt b = tget 0 s.ts.lockCnt b + 1 ∧
        (tget 0 s.ts.lockCnt b = 0 → (s.bank b).isPending = false → (s.bank b).sealed = false → (s.bank b).heldLock = false →
          (t.bank b).drain = some .sealLock)) ∧ t.mem = s.mem) ∧
    (Doing s r 0o031 → c = arg 0 % 256 → ¬ opened → Journalling s → ∃ t, exec (.sealslot r) s = .next t ∧ Ended s t r 0o311 ∧ t.ts = s.ts ∧
      t.banks = s.banks ∧ t.mem = s.mem) ∧
    (Doing s r 0o032 → c = arg 0 → ¬ opened → Journalling s → ∃ t, exec (.sealclose r) s = .next t ∧ Ended s t r 0o311 ∧ t.ts = s.ts) ∧
    (Doing s r 0o032 → c = arg 0 → opened → s.ts.unsigned.length < 64 → Journalling s → ∃ t z, exec (.sealclose r) s = .next t ∧
      Ended s t r (if (listedOuts (s.ctx c)).any (fun o => o.2.incomplete) then 0o311 else 0o300) ∧ (t.ctx c).st = .closed ∧
      t.ts.unsigned = s.ts.unsigned ++ [z] ∧ z.jseq = (s.ctx c).jseq ∧ z.inst = (s.ctx c).inst ∧ t.mem = s.mem) ∧
    (Doing s r 0o032 → c = arg 0 → opened → 64 ≤ s.ts.unsigned.length → ∃ t, exec (.sealclose r) s = .next t ∧ (t.slot r).st = 3 ∧
      t.ctx c = { (s.ctx c) with st := .closing } ∧ t.ts.closeWait = s.ts.closeWait ++ [(BitVec.ofNat 8 c, r)]) ∧
    (Doing s r 0o033 → s.ts.records = [x] → x.jseq.toNat = arg 1 → x.inst.toNat = r.i.val → Journalling s →
      delivers (.recfetch r) (x.body ++ fit 96 x.sig) ∧
      ∃ t, exec (.recfetch r) s = .next t ∧ t.ts.records = [] ∧ Ended s t r 0o300) ∧
    (Doing s r 0o040 → arg 2 = 1 → s.jnl.entries.find? (fun z => z.1 = arg 1) = some e → Journalling s → delivers (.jnlread r) (entryBytes e.1 e.2)) ∧
    (Doing s r 0o040 → arg 2 = 0x10001 → Journalling s → delivers (.jnlread r) (fit 256 (tget [] s.jnl.ckpts (arg 1)))) ∧
    (Doing s r 0o042 → arg 1 < 2 → Journalling s → delivers (.certread r) (Config.certificate (arg 1 = 1))) ∧
    (Doing s r 0o041 → room2 → s.jnl.drained ≤ arg 0 → arg 0 ≤ s.jnl.head → ∃ t, exec (.jnldrain r) s = .next t ∧ Ended s t r 0o300 ∧
      t.jnl.drained = arg 0 ∧ t.jnl.head = s.jnl.head + 2 ∧ logs t { kind := 0o12, ref := BitVec.ofNat 64 (arg 0) } ∧
      (∃ z ∈ t.jnl.ckptBusy, z.seqno = s.jnl.head + 1) ∧ t.mem = s.mem) ∧
    (Doing s r 0o041 → s.jnl.frozen = true → ∃ t, exec (.jnldrain r) s = .next t ∧ Ended s t r 0o307 ∧ t.jnl = s.jnl) ∧
    (∀ tail, Doing s r 0o043 → s.rst.inProgress = none → DueAll s [] [] tail timed → (∀ n ∈ tail ++ timed, 1 < n) → room2 → ∃ t, exec (.timeset r) s = .next t ∧
      t.slot r = { y with ticks := y.ticks + 1, begun := true, job := none, st := 4, status := 0o300, qpos := 0 } ∧
      t.ts.ticks = s.ts.ticks + 1 ∧ t.tb = time ∧ t.ts.set = true ∧
      t.ts.tsetSeq = BitVec.ofNat 64 (s.jnl.head + 1) ∧ logs t { kind := 0o05, dig := leOctets 9 time } ∧ t.mem = s.mem) ∧
    (Doing s r 0o050 → target ≠ 7 → target ≠ 9 → s.pwr.mode ≠ 7 → target ≠ s.pwr.mode → Journalling s → ∃ t, exec (.modeset r) s = .next t ∧ Ended s t r 0o300 ∧
      t.pwr.mode = target ∧ t.pwr.prev = s.pwr.mode ∧ t.mem = s.mem ∧ t.lathes = s.lathes) ∧
    (Doing s r 0o050 → target = 7 → s.pwr.mode ≠ 7 → (∀ z ∈ s.hs.slots, z.2.st = 3 → z.1 = slotKey r) → (s.lathe l).inSvc = true → (s.lathe l).det = false →
      ∃ t, exec (.modeset r) s = .next t ∧ (t.slot r).st = 3 ∧ t.pwr.mode = s.pwr.mode ∧ (t.lathe l).det = true ∧ (t.lathe l).drain = true ∧
      t.mem = s.mem) ∧
    (Doing s r 0o050 → target = 9 → s.pwr.mode ≠ 9 → s.pwr.cfgRung.toNat < 2 → ∃ t, exec (.modeset r) s = .next t ∧ t.pwr.mode = 9 ∧
      t.pwr.rung = s.pwr.cfgRung ∧ t.pwr.rfrom = s.pwr.mode ∧ t.jnl.head ≤ t.jnl.written ∧ t.mem = s.mem ∧ t.banks = s.banks ∧ t.lathes = s.lathes) ∧
    (Doing s r 0o050 → target = 9 → s.pwr.mode ≠ 9 → 4 ≤ s.pwr.cfgRung.toNat → s.wov.ops = [] → ∃ t, exec (.modeset r) s = .next t ∧ t.pwr.mode = 9 ∧
      t.pwr.rung = s.pwr.cfgRung ∧ t.pwr.rfrom = s.pwr.mode ∧ t.jnl.head ≤ t.jnl.written ∧ t.groups = [] ∧ t.threads = [] ∧
      (∀ a, a < 4 * 0o000440000000 → t.cell a = 0) ∧ (∀ b, (t.bank b).granted = (s.bank b).granted ∧ (t.bank b).retired = (s.bank b).retired)) ∧
    (Doing s r 0o060 → d.length = arg 2 → 0 < arg 2 → (arg 1 = 0 ∨ arg 1 = (inactive s).len) → room2 → ∃ t, exec (.updload r (.data d false)) s = .next t ∧
      Ended s t r 0o300 ∧ (inactive t).len = arg 1 + arg 2 ∧ (∀ j, j < arg 2 → tget 0 (inactive t).octets (arg 1 + j) = d.getD j 0) ∧
      (inactive t).st = (if 128 ≤ arg 1 + arg 2 ∧ fwSize (inactive t) = arg 1 + arg 2 then .loaded else .loading) ∧ t.mem = s.mem) ∧
    (Doing s r 0o060 → Journalling s → ∃ t, exec (.updload r .unsupported) s = .next t ∧ Ended s t r 0o312 ∧ t.mem = s.mem) ∧
    (Doing s r 0o060 → Journalling s → ∃ t, exec (.updload r .timeout) s = .next t ∧ Ended s t r 0o312 ∧ t.mem = s.mem ∧
      t.pci.cto = if s.isRoot = true then satAdd s.pci.cto 1 else s.pci.cto) ∧
    (∃ t, exec (.updload r .ecrc) s = .next t ∧ t.pci.ecrc = satAdd s.pci.ecrc 1 ∧ t.hs = s.hs ∧ t.rst = s.rst ∧ t.mem = s.mem) ∧
    (Doing s r 0o061 → room2 → ∃ t, exec (.updverify r) s = .next t ∧ Ended s t r 0o300 ∧
      (inactive t).st = (if fwCheck s (inactive s) = 0 then .verified else .invalid) ∧ logs t { kind := 0o10, code := 2 } ∧ t.mem = s.mem) ∧
    (Doing s r 0o062 → room2 → ∃ t, exec (.updactivate r) s = .next t ∧ Ended s t r 0o300 ∧ t.opt.active = !s.opt.active ∧ t.opt.trial = true ∧
      t.rst.ctrFail.read = 0 ∧ t.rst.ctrOpt.read = (s.rst.ctrOpt.read + 1) % 2 ^ 32 ∧ t.rst.activated = true ∧
      logs t { kind := 0o10, code := 3 } ∧ t.mem = s.mem) ∧
    (Doing s r 0o063 → room2 → ∃ t, exec (.updconfirm r) s = .next t ∧ Ended s t r 0o300 ∧ t.opt.trial = false ∧ t.opt.active = s.opt.active ∧
      t.rst.ctrFail.read = 0 ∧ t.rst.ctrArc.read = max s.rst.ctrArc.read (fwArv (if s.opt.active then s.rst.slotB else s.rst.slotA)) ∧
      t.rst.conf = true ∧ t.rst.remain = 0 ∧ logs t { kind := 0o10, code := 4 } ∧ t.pwr.mode = final ∧ t.mem = s.mem) ∧
    ((inactive s).st = .loaded → ∃ t, exec .backgroundSlotCheck s = .next t ∧
      inactive t = { (inactive s) with st := if fwCheck s (inactive s) = 0 then .verified else .invalid } ∧ t.jnl = s.jnl ∧ t.mem = s.mem) ∧
    ((inactive s).st ≠ .loaded → exec .backgroundSlotCheck s = .next s)

/-! ## Wovas (R454 to R472) -/

/-- A link trains with the expected neighbour at two lanes or four, and its loss, by failure, silence or notice, is counted, told to every device,
and ends operations with LINKDOWN or TGTRESET; a link-state message with news is flooded on. A request for another device goes on, or returns as
LINKDOWN; one of another incarnation gets TGTRESET, others the judgement of their bank, where one that stalls waits; replies reach what waits for
them, and late ones are counted; 4 µs after its issue an operation is counted and ends. Forwarded commands and entries reach slots, an entry of
another forwarding is discarded, that of a moved job ends its command; the barrier releases when all have arrived, and epochs and incarnations are
taken over; a device that is not the root asks it for an advance (DESIGN CHOICE: log entry 49). -/
def Obligations.LinksCarryOperationsAndMessages : Prop :=
  ∀ (k : Fin 6) (lanes : Fin 5) (nbr : BitVec 6) (nbrLink : BitVec 3) (inc : BitVec 8) (d j : Nat) (dev : BitVec 6) (up : Bool) (via : Fin 7)
    (q : RemoteReq) (tag : Nat) (res : RemoteResult) (oinc : BitVec 8) (r : SlotRef) (th : Th) (p : PendLoad) (quad : Quad) (po : BitVec 16)
    (copy : List Octet) (at_ : BitVec 72) (i : Fin 16) (e : Entry) (w gone : BitVec 16) (broken notice : Bool) (gs : List Nat) (ep : BitVec 9) (tk num : Nat) (about : BitVec 6) (chan : Option (Fin 8))
    (data : List (Octet × Bool)) (r' : SlotRef) (ps : List (Fin 16 × Fin 16)) (jb : Job) (s : State),
    let x := s.wlink k.val
    let nb := neighbour s.shape s.ringSize s.devId k.val
    let lost (c : Instr) (notice : Bool) : Prop := (x.up = false → exec c s = .next s) ∧ (x.up = true → ∃ t rest, exec c s = .next t ∧
      t.wlink k.val = { x with up := false, width := 0, downs := satAdd x.downs 1 } ∧
      t.wov.tx = s.wov.tx ++ .linkState (BitVec.ofNat 6 s.devId) k false notice :: rest)
    let ends (c : Instr) (code : BitVec 16) : Prop := x.up = true → s.wov.ops = [⟨tag, .command r, x.nbr, oinc, tk⟩] →
      x.nbr.toNat < shapeSize s.shape s.ringSize → (∃ h, routeTo s x.nbr.toNat = some (k.val, h)) → (∀ z ∈ s.hs.slots, z.2.fwdTo = none) →
      NoQueue s → (s.slot r).st = 3 → (s.slot r).ended = false → Journalling s →
      ∃ t, exec c s = .next t ∧ Ended s t r code ∧ t.wov.ops = []
    let code := 8 * dev.toNat + k.val
    let first : Prop := q.dest.toNat = s.devId ∧ s.wov.waiting.any (sameSender q) = false
    let here := first ∧ s.rst.inProgress = none ∧ q.inc = s.incarnation
    let reads := reqWovas q.inst none
    let writes := reqWovas q.inst (some q.epoch)
    let waits : State := { s with wov := { s.wov with waiting := s.wov.waiting ++ [q] } }
    let base := placeOf s (q.addr.toNat / 4 * 4)
    let bank := bankOf s q.addr.toNat
    let answers (t : State) (z : RemoteResult) : Prop := t.wov.tx = s.wov.tx ++ [.reply q.dev q.tag s.incarnation z]
    let late : State := { s with wov := { s.wov with late := satAdd s.wov.late 1 } }
    let one (kind : RKind) : Prop := s.wov.ops = [⟨tag, kind, dev, oinc, tk⟩]
    let u := s.thr th
    let z := s.slot r
    let limit := rest (100 * cmdDeadline z.copy) z.ticks
    let words (m : BitVec 4) : List (Word × Bool) := (List.range 4).map (fun n => (quadGet quad n, po.extractLsb' (4 * n) 4 &&& m ≠ 0))
    let put (p : PendLoad) : PendLoad := if p.tag = some tag then { p with resp := some (.words (words p.kind.mask)) } else p
    let b := s.bar i.val
    let new := ((lathesOf w).map (fun l => 16 * about.toNat + l.val)).filter (fun c => !b.arrived.contains c)
    let waiting : Prop := ∃ c ∈ participants s i, c ∉ b.removed ∧ c ∉ b.arrived ++ new
    let lostOnes := ((lathesOf gone).map (fun l => 16 * about.toNat + l.val)).filter (fun c => !b.removed.contains c)
    let waitingFor : Prop := (∃ c ∈ participants s i, c ∉ b.removed ++ lostOnes ∧ c ∉ b.arrived ++ new) ∧ b.arrived ++ new ≠ []
    let released (f : Bool) (t : State) : Prop := t.bar i.val = { broken := b.broken || f || !b.removed.isEmpty, gen := !b.gen, done := satAdd b.done 1 } ∧
      ((s.thr th).hold = .afence true gs → (ownLathes s i).getLsbD th.l.val = true →
        (t.thr th).hold = .free ∧ (t.thr th).pc = (s.thr th).pc + 1) ∧
      (∀ a, (s.thr th).hold = .free → (s.thr th).fencedAt = some (a, false) → (ownLathes s i).getLsbD th.l.val = true →
        (t.thr th).fencedAt = some (a, true)) ∧ t.mem = s.mem
    let x' := s.slot ⟨i, e.mbx, e.slot⟩
    let movedThere : Prop := e.kind = 1 ∧ x'.st = 3 ∧ ∃ j, x'.job = some j ∧ j.moved = some dev
    let open_ : Prop := z.st = 3 ∧ z.ended = false ∧ Journalling s
    let train (l : Fin 5) (n : BitVec 6) (nl : BitVec 3) : Instr := .wovasLinkTrained k l n nl inc
    (nb = some (d, j) → 2 ≤ lanes.val → nbr.toNat = d → nbrLink.toNat = j → ∃ t, exec (train lanes nbr nbrLink) s = .next t ∧
      t.wlink k.val = { x with up := true, width := (if lanes.val = 4 then 2 else 1), nbr := nbr, nbrLink := nbrLink, ninc := inc } ∧
      (∀ c, c ∈ t.wov.deadLinks ↔ c ∈ s.wov.deadLinks ∧ c ≠ 8 * s.devId + k.val ∧ c ≠ 8 * d + j) ∧ t.mem = s.mem) ∧
    (nb = some (d, j) → 2 ≤ lanes.val → nbr.toNat ≠ d ∨ nbrLink.toNat ≠ j → ∃ t, exec (train lanes nbr nbrLink) s = .next t ∧
      t.wlink k.val = { x with miswire := true } ∧ t.mem = s.mem) ∧
    (nb = none ∨ lanes.val < 2 → exec (train lanes nbr nbrLink) s = .next s) ∧
    lost (.wovasLinkDown k) false ∧ lost (.linkIdleTimeout k) false ∧ lost (.downNotice k) true ∧
    ends (.wovasLinkDown k) 0o306 ∧ ends (.linkIdleTimeout k) 0o306 ∧ ends (.downNotice k) 0o305 ∧
    (dev.toNat ≠ s.devId → code ∉ s.wov.deadLinks → ∃ t rest, exec (.linkStateMessage dev k ⟨false, notice⟩) s = .next t ∧
      t.wov.deadLinks = s.wov.deadLinks ++ [code] ∧ t.wov.tx = s.wov.tx ++ .linkState dev k false notice :: rest) ∧
    (dev.toNat ≠ s.devId → code ∈ s.wov.deadLinks → ∃ t rest, exec (.linkStateMessage dev k ⟨true, notice⟩) s = .next t ∧
      t.wov.deadLinks = s.wov.deadLinks.filter (fun c => decide (c ≠ code)) ∧ t.wov.tx = s.wov.tx ++ .linkState dev k true notice :: rest) ∧
    (dev.toNat = s.devId ∨ (up = true ↔ code ∉ s.wov.deadLinks) → exec (.linkStateMessage dev k ⟨up, notice⟩) s = .next s) ∧
    (dev.toNat ≠ s.devId → code ∉ s.wov.deadLinks → neighbour s.shape s.ringSize dev.toNat k.val = some (nbr.toNat, j) →
      s.wov.ops = [⟨tag, .command r, nbr, oinc, tk⟩] → NoQueue s → open_ → ∃ t, exec (.linkStateMessage dev k ⟨false, true⟩) s = .next t ∧ Ended s t r 0o305) ∧
    (q.dest.toNat ≠ s.devId → exec (.remoteRequest via q) s = .next (sendMsg s (if devicePresent s q.dest.toNat then requestMessage q
      else .reply q.dev q.tag s.incarnation .linkDown))) ∧
    (q.dest.toNat = s.devId → s.wov.waiting.any (sameSender q) = true → exec (.remoteRequest via q) s = .next waits) ∧
    (first → q.inc ≠ s.incarnation ∨ s.rst.inProgress ≠ none → exec (.remoteRequest via q) s = .next (sendMsg s (.reply q.dev q.tag s.incarnation .targetReset))) ∧
    (here → q.write = false → judge s (bankOf s (q.addr.toNat / 4 * 4)) reads false = .stalls → exec (.remoteRequest via q) s = .next waits) ∧
    (here → q.write = true → q.mask ≠ 0 → q.poison = 0 → q.addr.toNat % 4 = 0 → judge s bank writes true = .stalls → exec (.remoteRequest via q) s = .next waits) ∧
    (here → q.write = false → judge s (bankOf s (q.addr.toNat / 4 * 4)) reads false = .granted →
      pathBusy s reads (q.addr.toNat / 4 * 4) = false → CleanAt s base 4 →
      ∃ t, exec (.remoteRequest via q) s = .next t ∧ t.mem = s.mem ∧ answers t (.data
        { w0 := (s.readWord base).1, w1 := (s.readWord (base + 1)).1, w2 := (s.readWord (base + 2)).1, w3 := (s.readWord (base + 3)).1 } 0)) ∧
    (here → q.write = true → q.mask = 0xFFFF → q.poison = 0 → q.addr.toNat % 4 = 0 → judge s bank writes true = .granted →
      pathBusy s writes q.addr.toNat = false →
      ∃ t, exec (.remoteRequest via q) s = .next t ∧ answers t .ack ∧ (∀ n, n < 4 → t.readWord (base + n) = (quadGet q.data n, false)) ∧
      (∀ a, a < base ∨ base + 4 ≤ a → t.readWord a = s.readWord a)) ∧
    (here → q.write = true → q.mask = 0xFFFF → q.poison = 0 → judge s bank writes true = .nonOwner → pathBusy s writes q.addr.toNat = false →
      ∃ t, exec (.remoteRequest via q) s = .next t ∧ answers t .refused ∧ t.mem = s.mem) ∧
    (dev.toNat ≠ s.devId → exec (.remoteReply ⟨dev, tag⟩ inc res) s = .next (if devicePresent s dev.toNat then sendMsg s (.reply dev tag inc res) else s)) ∧
    (about.toNat = s.devId → (∀ o ∈ s.wov.ops, o.tag ≠ tag) → exec (.remoteReply ⟨about, tag⟩ inc res) s = .next late) ∧
    (about.toNat = s.devId → one (.load th) → inc ≠ oinc → res ≠ .targetReset → res ≠ .linkDown → exec (.remoteReply ⟨about, tag⟩ inc res) s = .next late) ∧
    (about.toNat = s.devId → one (.load th) → ∃ t, exec (.remoteReply ⟨about, tag⟩ oinc (.data quad po)) s = .next t ∧ t.wov.ops = [] ∧
      t.thr th = { u with loads := u.loads.map put, fetchPend := u.fetchPend.map put } ∧ t.mem = s.mem) ∧
    (about.toNat = s.devId → one (.store th) → u.loads = [p] → p.tag = some tag → p.kind = .store → p.debug = false → (s.lathe th.l).locked = false →
      ∃ t, exec (.remoteReply ⟨about, tag⟩ oinc .ack) s = .next t ∧ t.wov.ops = [] ∧
      t.thr th = { u with loads := [], dead := u.dead.filter (fun y => decide (y.1 ≠ p.num)) } ∧ t.mem = s.mem) ∧
    (about.toNat = s.devId → one (.command r) → open_ → placementOf s r = none → ∃ t, exec (.remoteReply ⟨about, tag⟩ oinc .ack) s = .next t ∧
      Ended s t r 0o300 ∧ t.wov.ops = []) ∧
    (about.toNat = s.devId → one (.command r) → open_ → placementOf s r = some (r', ps) → r' ≠ r → (s.slot r').job = some jb →
      ∃ t, exec (.remoteReply ⟨about, tag⟩ oinc .ack) s = .next t ∧ Ended s t r 0o300 ∧
      (t.slot r').job = some { jb with lathes := 0, left := 0, moved := some (BitVec.ofNat 6 (cmdArg z.copy 2)) }) ∧
    (about.toNat = s.devId → one (.command r) → open_ → ∃ t, exec (.remoteReply ⟨about, tag⟩ oinc .refused) s = .next t ∧ Ended s t r 0o307 ∧ t.wov.ops = []) ∧
    (one (.command r) → open_ → Due s [] [rest 400 tk] (if headRuns s then [limit] else []) → rest 400 tk < limit →
      ∃ t, exec (.remoteTimeout tag) s = .next t ∧ t.wov.ops = [] ∧
      t.slot r = { z with ticks := z.ticks + rest 400 tk, begun := true, st := 4, status := 0o306, qpos := 0 } ∧
      t.wov.rto = satAdd s.wov.rto 1) ∧
    (∀ kind, one kind → exec (.remoteTimeout tag) s = .next (pass (rest 400 tk) s)) ∧
    ((∀ o ∈ s.wov.ops, o.tag ≠ tag) → exec (.remoteTimeout tag) s = .next s) ∧
    (s.isRoot = false → copy.length = 64 → ¬ (z.fwd = num ∧ z.st = 2) → ∃ t, exec (.forwardedCommand r ⟨copy, (.command num chan)⟩ at_) s = .next t ∧
      (t.slot r).copy = copy ∧ (t.slot r).arrival = at_ ∧ (t.slot r).fwd = num ∧
      (headRuns s = false → (t.slot r).st = 1 ∧ (t.slot r).chan = chan) ∧
      (headRuns s = true → fieldsOk copy = false → (t.slot r).st = 5 ∧ (t.slot r).status = 0o207) ∧ t.mem = s.mem) ∧
    (s.isRoot = false → z.fwd = num → z.st = 2 → ∃ t, exec (.forwardedCommand r ⟨copy, (.command num chan)⟩ at_) s = .next t ∧
      t.slot r = { z with chan := chan } ∧ t.mem = s.mem) ∧
    (∃ t, exec (.forwardedCommand r ⟨copy, .start⟩ at_) s = .next t ∧ t.mem = s.mem ∧ t.hs.slots = s.hs.slots ∧
      ∀ c y, t.hs.chans.getD c none = some y → y.ref = r → y.running = true) ∧
    (s.isRoot = true → e.kind = 1 → x'.fwdTo = some dev → x'.fwd = e.fwd → ¬ movedThere → ∃ t, exec (.forwardedEntry i dev ⟨e, data⟩) s = .next t ∧
      t.slot ⟨i, e.mbx, e.slot⟩ = { x' with st := 4, fst := 0, status := e.status, qpos := e.qpos, jseq := e.jseq, fwdTo := none, chan := none } ∧
      ((s.inst i).en = false → (t.inst i).held = (s.inst i).held ++ [e]) ∧
      (data ≠ [] → s.pci.up = true → cmdArg x'.copy 0 % 128 + data.length ≤ 128 → ∃ rest, t.pci.tx = s.pci.tx ++
        .write i (cmdArg x'.copy 0) (data.map Prod.fst) (s.fnCfg i.val).ro (data.any Prod.snd) :: rest) ∧ t.jnl.head = s.jnl.head ∧ t.mem = s.mem) ∧
    (s.isRoot = true → e.kind ≠ 2 → x'.fwdTo ≠ some dev ∨ x'.fwd ≠ e.fwd → ¬ movedThere → ∃ t, exec (.forwardedEntry i dev ⟨e, data⟩) s = .next t ∧
      t.hs.slots = s.hs.slots ∧ t.hs.insts = s.hs.insts ∧ t.mem = s.mem) ∧
    (movedThere → x'.ended = false → Journalling s → ∃ t, exec (.forwardedEntry i dev ⟨e, data⟩) s = .next t ∧ Ended s t ⟨i, e.mbx, e.slot⟩ e.status) ∧
    (barrierHead s i = s.devId → waiting → ∃ t, exec (.barrierArrival i ⟨dev, about⟩ w 0) s = .next t ∧ t.bar i.val = { b with arrived := b.arrived ++ new } ∧
      t.mem = s.mem) ∧
    (barrierHead s i = s.devId → ¬ waiting → b.arrived ++ new ≠ [] → ∃ t, exec (.barrierArrival i ⟨dev, about⟩ w 0) s = .next t ∧ released false t) ∧
    (barrierHead s i = s.devId → waitingFor → ∃ t, exec (.barrierArrival i ⟨dev, about⟩ w gone) s = .next t ∧ t.bar i.val = { b with
      arrived := b.arrived ++ new, removed := b.removed ++ lostOnes } ∧ t.mem = s.mem) ∧
    (barrierHead s i ≠ s.devId → new ≠ [] → ∃ t, exec (.barrierArrival i ⟨dev, about⟩ w 0) s = .next t ∧ t.bar i.val = { b with arrived := b.arrived ++ new } ∧
      t.wov.tx = s.wov.tx ++ [.arrival (BitVec.ofNat 6 (barrierHead s i)) about i (lathesAt about.toNat new) 0] ∧ t.mem = s.mem) ∧
    (∃ t, exec (.barrierRelease i broken) s = .next t ∧ released broken t) ∧
    (s.isRoot = false → NoQueue s → ∃ t rest, exec (.epochMessage i ep) s = .next t ∧ (t.inst i).epoch = ep ∧
      (∀ l : Fin 16, (s.inst i).lathes.getLsbD l.val = true → (t.lathe l).epoch = ep) ∧ t.wov.tx = s.wov.tx ++ rest ++ [.epochAck i false] ∧ t.mem = s.mem) ∧
    (∃ t, exec (.epochAcknowledgement i ⟨dev, false⟩) s = .next t ∧ tget [] t.wov.ackWait i.val = (tget [] s.wov.ackWait i.val).filter (fun z => decide (z ≠ dev)) ∧
      t.mem = s.mem) ∧
    (s.isRoot = true → NoQueue s → ∃ t, exec (.epochAcknowledgement i ⟨dev, true⟩) s = .next t ∧ (t.inst i).epoch = (s.inst i).epoch + 1 ∧
      (s.shape ≠ 0 → WMsg.epoch i ((s.inst i).epoch + 1) ∈ t.wov.tx) ∧ t.mem = s.mem) ∧
    (s.isRoot = false → ∃ t, exec (.epochAcknowledgement i ⟨dev, true⟩) s = .next t ∧ t.hs.insts = s.hs.insts ∧ t.wov = s.wov ∧ t.mem = s.mem) ∧
    (x.up = true → NoQueue s → ∃ t, exec (.incarnationAnnouncement k inc) s = .next t ∧ t.wlink k.val = { x with ninc := inc } ∧ t.mem = s.mem) ∧
    (x.up = false → exec (.incarnationAnnouncement k inc) s = .next s)

/-! ## Resets, boot and wakes (R20, R21, R263, R346, R479 to R483, R488 to R492, R497, R500, R505, R510 to R521, R526) -/

/-- Each reset source starts its level with its cause, counted, in Self-test and with the headstock and the cores cleared; a shallower one is
absorbed and leaves its bit. The supplies lead to Self-test, Backup and Unpowered; the ball's pulses are told apart by length; a lathe reset is
journalled, keeps the lock record and restarts thread 0 at the monitor's entry, which stands in every thread's MENTRY. Boot ends in the mode of
R490; the headstock confirms, kicks and locks; Rest wakes to its entry mode; a register write that its master may not make is answered with an
error. -/
def Obligations.ResetsBootAndWakesFollowTheirSources : Prop :=
  ∀ (m : Master) (n : Nat) (l : Fin 16) (f : BootFindings) (src : WakeSrc) (p : Fin 16) (x : RestRec) (addr : BitVec 34) (mask : BitVec 4) (w : Word)
    (off : Nat) (s u : State),
    let on : Prop := s.pwr.main12 = true
    let begun (t : State) (lv : RstLevel) (cause : Nat) : Prop := t.rst.cause = BitVec.ofNat 6 cause ∧ t.rst.inProgress = some lv ∧
      t.rst.level = BitVec.ofNat 2 (match lv with | .powerOn => 0 | .system => 1 | .core => 2 | .lathe => 3) ∧ t.rst.hist.getLsbD cause = true ∧
      t.pwr.mode = (if lv = .powerOn ∧ t.pwr.main12 = false then (if s.pwr.vbat then 1 else 0) else 3) ∧ t.hs = { arrivals := s.hs.arrivals } ∧ t.groups = [] ∧
      (∀ th, t.thr th = if lv = .powerOn then {} else { halted := (s.thr th).halted, haltReq := (s.thr th).haltReq }) ∧
      (∀ a, 4 * 0o000440000000 ≤ a → a < 4 * 0o000444000000 → t.cell a = 0)
    let counted (t : State) : Prop := t.rst.ctrInc.read = (s.rst.ctrInc.read + 1) % 256 ∧ t.rst.ctrReset.read = min (s.rst.ctrReset.read + 1) (2 ^ 36 - 1)
    let starts (c : Instr) (lv : RstLevel) (cause : Nat) : Prop := on → s.rst.inProgress = none →
      ∃ t, exec c s = .next t ∧ begun t lv cause ∧ counted t
    let absorbed (c : Instr) (cause : Nat) : Prop := on → s.rst.inProgress = some .powerOn → exec c s =
      .next { s with rst := { s.rst with hist := s.rst.hist ||| BitVec.ofNat 17 (2 ^ cause) } }
    let relathe (c : Instr) (cause : Nat) : Prop := on → s.rst.inProgress = none → NoQueue s → Journalling s → ∃ t, exec c s = .next t ∧
      (∃ z ∈ t.jnl.entries, z.1 = s.jnl.head + 1 ∧ z.2.body = { kind := 0o11, code := BitVec.ofNat 16 (cause + 256 * (l.val + 1)) }) ∧
      t.rst.hist.getLsbD cause = true ∧ (t.lathe l).ten = 1 ∧ (t.lathe l).locked = false ∧ (t.lathe l).lockValid = (s.lathe l).lockValid ∧
      (t.lathe l).lockCode = (s.lathe l).lockCode ∧ (t.lathe l).lockPc = (s.lathe l).lockPc ∧ (t.lathe l).det = decide (s.pwr.mode = 7) ∧
      (t.thr ⟨l, 0⟩).started = true ∧ (t.thr ⟨l, 0⟩).level = .machine ∧ (t.thr ⟨l, 0⟩).pc = (t.thr ⟨l, 0⟩).m.entry ∧
      (t.thr ⟨l, 0⟩).m.busy = true ∧ (t.thr ⟨l, 0⟩).g = [] ∧
      (∀ k, k ≠ 0 → t.thr ⟨l, k⟩ = { halted := (s.thr ⟨l, k⟩).halted, haltReq := (s.thr ⟨l, k⟩).haltReq,
                                          m := { entry := (t.thr ⟨l, 0⟩).m.entry } }) ∧
      (∀ a, a < 4 * (0o000400000000 + 262144 * l.val) ∨ 4 * (0o000400000000 + 262144 * (l.val + 1)) ≤ a → t.cell a = s.cell a)
    let root : Prop := s.isRoot = true
    let low (y : State) : State := { y with dbg := { y.dbg with gap := 0 } }
    let v := low (pass (min n 2000) (low s))
    let pulsed (y : State) : Prop := exec (.pin n) s = .next (if v.pwr.main12 then y else v)
    let count := rest s.rst.hswdCount.toNat 0
    let boot := rest (100000 * s.rst.remain.toNat) s.rst.remainSub
    let lock := rest 1000 (s.lathe l).lockTicks
    let denied (c : Instr) (off : Nat) : Prop :=
      (hasPath s m (regBase + off) = true → ∃ t, exec c s = .next t ∧ Denied s t m off) ∧
      (hasPath s m (regBase + off) = false → ∃ t, exec c s = .next t ∧ Denied (noPath s m true (regBase + off)) t m off)
    let final (t : State) : BitVec 4 := if t.ts.lockdn then 10 else if t.rst.min then 4 else if t.opt.trial then 8 else
      (if t.ts.taint && (t.opt.defmode.toNat % 16 = 5 || t.opt.defmode.toNat % 16 = 7) then 6 else t.opt.defmode.setWidth 4)
    let woken (t : State) : Prop := t.pwr.mode = s.pwr.rfrom ∧ t.pwr.rung = 0 ∧ t.pwr.wValid = true ∧ t.pwr.wRung = s.pwr.rung
    (¬ on → ∃ t, exec .por s = .next t ∧ t.pwr.main12 = true ∧ begun t .powerOn 1 ∧ counted t ∧ t.tb = 0 ∧
      t.ts.lockdn = (s.ts.lockdn || !s.pwr.intact)) ∧
    (on → exec .por s = .next s) ∧ (¬ on → exec .brownout s = .next s ∧ exec (.boot f) s = .next s) ∧
    (on → ∃ t, exec .brownout s = .next t ∧ t.pwr.main12 = false ∧ begun t .powerOn 2 ∧ t.jnl.head ≤ t.jnl.written ∧ (s.pwr.vbat = true → counted t)) ∧
    (exec .backupSupplyRise s = .next { s with pwr := { s.pwr with vbat := true, mode := if s.pwr.mode = 0 then 1 else s.pwr.mode } }) ∧
    (2000 ≤ n → Due s [] [] [] → starts (.pin n) .system 3) ∧
    (50 ≤ n ∧ n ≤ 150 ∨ 250 ≤ n ∧ n ≤ 350 → exec (.pin n) s = .next v) ∧
    (700 ≤ n → n ≤ 900 → pulsed { v with dbg := { v.dbg with frame := true } }) ∧
    (1200 ≤ n → n ≤ 1600 → pulsed { v with dbg := { v.dbg with frame := false } }) ∧
    (n < 50 ∨ 150 < n ∧ n < 250 ∨ 350 < n ∧ n < 700 ∨ 900 < n ∧ n < 1200 ∨ 1600 < n ∧ n < 2000 →
      pulsed { v with dbg := { v.dbg with frame := false, ferr := satAdd v.dbg.ferr 1 } }) ∧
    (root → starts (.perst true) .system 4 ∧ starts .hotrst .system 5) ∧
    (root → exec (.perst false) s = .next { s with rst := { s.rst with perstLow := false } }) ∧
    (¬ root → exec (.perst true) s = .next s ∧ exec (.perst false) s = .next s ∧ exec .hotrst s = .next s) ∧
    (s.rst.hswdEn = true → Due s [] [] [count] →
      (s.hs.locked = false → starts .hswdog .system 6) ∧ (s.hs.locked = true → starts .hswdog .system 7 ∧ starts .hslock .system 7)) ∧
    (s.rst.hswdEn = false → asksWait s = false → exec .hswdog s = .next s) ∧
    (s.hs.locked = false → exec .hslock s = .next s) ∧
    starts .tsfault .system 8 ∧ absorbed .tsfault 8 ∧
    (s.rst.conf = false → s.rst.min = false → s.rst.hswdEn = true → Due s [] [] [count, boot] → boot < count → starts .boottmo .system 10) ∧
    exec .boottmo s = .next (if s.rst.conf = false ∧ s.rst.min = false ∧ s.rst.hswdEn = true then pass boot s else s) ∧
    (s.rst.activated = true → starts .update .system 11 ∧ absorbed .update 11) ∧
    (s.rst.activated = false → exec .update s = .next s) ∧
    starts (.swsys .head) .system 12 ∧ starts (.swcore .head) .core 13 ∧ absorbed (.swsys .head) 12 ∧ absorbed (.swcore .head) 13 ∧
    relathe (.swlathe .head l) 16 ∧
    (m ≠ .head → denied (.swsys m) 0o610003 ∧ denied (.swcore m) 0o610003 ∧ denied (.swlathe m l) 0o610003 ∧ denied (.confirm m) 0o610002 ∧
      denied (.kick m) 0o610004) ∧
    ((s.lathe l).locked = true → Due s [] [] [lock] → relathe (.lockup l) 15) ∧
    ((s.lathe l).locked = true → exec (.lockup l) s = .next (pass lock s)) ∧
    ((s.lathe l).locked = false → exec (.lockup l) s = .next s) ∧
    (s.rst.inProgress ≠ none → s.rst.perstLow = false → on → s.pwr.hot = false → ∃ t, exec (.boot f) s = .next t ∧ t.rst.inProgress = none ∧
      t.rst.hswdEn = true ∧ t.pci.functionsUp = true ∧ t.pwr.mode = final t ∧ (t.inst 0).lathes.getLsbD l.val = (t.lathe l).inSvc ∧
      (s.optInForce = none → t.rst.min = true ∧ t.rst.minCause = 1)) ∧
    (s.rst.inProgress = none ∨ s.rst.perstLow = true ∨ s.pwr.hot = true → exec (.boot f) s = .next s) ∧
    (s.opt.trial = false → s.rst.min = false → s.rst.conf = false → s.pci.functionsUp = true → s.rst.inProgress = none →
      ∃ t, exec (.confirm .head) s = .next t ∧ t.rst.conf = true ∧ t.rst.remain = 0 ∧ t.rst.ctrFail.read = 0 ∧
      t.rst.ctrArc.read = max s.rst.ctrArc.read (fwArv (if s.opt.active then s.rst.slotB else s.rst.slotA)) ∧ t.mem = s.mem) ∧
    exec (.kick .head) s = .next (if s.rst.hswdEn then { s with rst := { s.rst with kicked := true } } else s) ∧
    (s.hs.locked = false → s.pwr.mode = 2 ∨ s.pwr.mode = 4 ∨ s.pwr.mode = 5 ∨ s.pwr.mode = 6 ∨ s.pwr.mode = 7 ∨ s.pwr.mode = 8 ∨ s.pwr.mode = 10 →
      ∃ t, exec .headstockLockup s = .next t ∧ t.hs.locked = true ∧ t.pwr.mode = 11 ∧ t.pwr.prev = s.pwr.mode ∧ t.mem = s.mem ∧
      t.lathes = s.lathes) ∧
    (s.hs.locked = true → exec .headstockLockup s = .next s) ∧
    (s.pwr.mode = 9 → s.pwr.rung.toNat < 4 → s.pwr.rest = none → (∀ p, src = .eventPin p → s.pwr.pinwake.getLsbD p.val = true) →
      ∃ t, exec (.wake src) s = .next t ∧ woken t ∧ t.mem = s.mem ∧ t.banks = s.banks ∧
      t.pwr.wSrc = (match src with | .doorbell => 1 | .tlp => 2 | .eventPin _ => 3 | .tamper => 4)) ∧
    (s.pwr.mode = 9 → 4 ≤ s.pwr.rung.toNat → s.pwr.rest = some x → ∃ t, exec (.wake .tlp) s = .next t ∧ woken t ∧ t.pwr.zeroBusy = true ∧
      (∀ k, k < 1024 → (s.bank k).retired = false → (t.bank k).ownCl = 5 ∧ (t.bank k).march = true) ∧
      (∀ k, (t.inst k).lathes = (tget {} x.hs.insts k.val).lathes ∧ (t.inst k).ringerr = false ∧ (t.inst k).dbign = 0)) ∧
    (s.pwr.mode ≠ 9 → exec (.wake src) s = .next s) ∧
    (s.pwr.pinwake.getLsbD p.val = false → exec (.wake (.eventPin p)) s = .next s) ∧
    (on → hasPath s m addr.toNat = true → areaOf addr.toNat = .regs off → mask = 0xF → regWrite s m off w = some u →
      exec (.registerWrite m addr mask w) s = .next u) ∧
    (on → hasPath s m addr.toNat = true → areaOf addr.toNat = .regs off → mask ≠ 0xF ∨ regWrite s m off w = none →
      exec (.registerWrite m addr mask w) s = .next (deliverReply s m addr.toNat [] true)) ∧
    (on → hasPath s m addr.toNat = false → ∃ t, exec (.registerWrite m addr mask w) s = .next t ∧ t.fab.count = satAdd s.fab.count 1 ∧ t.mem = s.mem) ∧
    (on → addr.toNat = 0o000450440005 → mask = 0xF → ∃ t, exec (.registerWrite .head addr mask w) s = .next t ∧
      t.jnl = { s.jnl with thr := w.extractLsb' 0 20, ckptBusy := t.jnl.ckptBusy } ∧ t.mem = s.mem)

/-! ## The debug port (R526 to R541) -/

/-- HELLO and CHAL answer without a session, AUTH opens one with TAINT, its journal entry and Open mode, or is refused. In a session, and within its
scope, threads are halted, resumed and stepped, registers of a halted thread are read and written, words performed in it, registers reached as class
DEBUG, resets asked for, and the session ended; without one each is answered NOAUTH. Broken and bad frames are dropped, counted or answered, and
expiry ends a session. -/
def Obligations.DebugRequestsAreAnsweredAndPerformed : Prop :=
  ∀ (tok : Token) (n : Nat) (nonce : List Octet) (th : Th) (l : Fin 16) (mask : BitVec 8) (sel : RegSel) (v w a : Word) (vs : List Word) (f : TFld)
    (i : Instr) (off m : Nat) (level : BitVec 8) (why : BadFrame) (s u : State),
    let port : Prop := portOn s = true
    let live : Prop := portOn s = true ∧ s.dbg.opened = true
    let heard : Dbg := { s.dbg with frame := false, idle := 0, reqno := s.dbg.reqno + 1 }
    let s1 : State := { s with dbg := heard }
    let said (type : Octet) (payload : List Octet) : Dbg :=
      { heard with tx := s.dbg.tx ++ [frameOctets (some s.dbg.key) (s.dbg.reqno + 1) type payload] }
    let plain (type : Octet) (payload : List Octet) : List (List Octet) := s.dbg.tx ++ [frameOctets none 0 type payload]
    let answers (c : Instr) (type : Octet) (payload : List Octet) : Prop := exec c s = .next { s with dbg := said type payload }
    let noauth (c : Instr) (type : Octet) : Prop := exec c s = .next { s with dbg := { s.dbg with frame := false, tx := plain type [4] } }
    let inScope (k : Fin 16) : Prop := s.dbg.scope.getLsbD k.val = true
    let stopped : Prop := (s.thr th).halted = true ∧ (s.thr th).loads = []
    let masked (k : Th) : Prop := k.l = l ∧ mask.getLsbD k.t.val = true
    let signed := leOctets 8 s.fus.devsn ++ nonce ++ Config.freePublicKey n ++ tok.pub ++ leOctets 2 tok.scope ++ leOctets 4 tok.expiry
    let may : Prop := s.pwr.mode ≠ 10 ∧ s.pwr.mode ≠ 1 ∧ s.fus.dbgdis = false ∧ s.dbg.chal = some (n, nonce) ∧ 1 ≤ tok.expiry.toNat ∧
      tok.expiry.toNat ≤ 86400 ∧ Config.tokenSignatureOk signed tok.sig = true
    let num := sel.toNat % 256
    let kind (k bound : Nat) : Prop := sel.toNat / 256 = 16 * k ∧ num < bound
    let run : State := s1.modThr th (fun t => { t with halted := false, haltReq := false })
    let sum (x : State) : Word := BitVec.ofInt 36 (((x.thr th).rg f.ra).toInt + ((x.thr th).rg f.rb).toInt)
    let ended (t : State) : Prop := t.dbg.opened = false ∧ t.dbg.scope = 0 ∧ (∀ k, (t.thr k).halted = false ∧ (t.thr k).haltReq = false) ∧
      (∀ k, (t.lathe k).hor = false ∧ ∀ j, (tget {} (t.lathe k).cmps j).en = false)
    (port → ∃ t, exec .hello s = .next t ∧ t = { s with dbg := t.dbg } ∧
      t.dbg.tx = plain 1 (0 :: (leOctets 8 s.fus.devsn ++ [s.pwr.mode.setWidth 8] ++ leOctets 5 (dbgStatWord s)))) ∧
    (port → ∃ t, exec .chal s = .next t ∧ t.dbg.chal = some (s.free, Config.freeNonce s.free) ∧ t.dbg.opened = s.dbg.opened ∧
      t.dbg.tx = plain 2 (0 :: (Config.freePublicKey s.free ++ Config.freeNonce s.free)) ∧ t.mem = s.mem) ∧
    (port → may → Journalling s → ∃ t, exec (.auth tok) s = .next t ∧ t.dbg.opened = true ∧ t.dbg.sess = s.dbg.sess + 1 ∧ t.dbg.scope = tok.scope ∧
      t.dbg.reqno = 0 ∧ t.dbg.expiry = 100000000 * tok.expiry.toNat ∧ t.dbg.key = sha3 (Config.sharedSecret n tok.pub ++ nonce) ∧ t.dbg.chal = none ∧
      t.ts.taint = true ∧ t.pwr.mode = (if s.pwr.mode = 5 ∨ s.pwr.mode = 7 then 6 else s.pwr.mode) ∧ t.dbg.tx = plain 3 [0] ∧ t.mem = s.mem ∧
      ∃ z ∈ t.jnl.entries, z.1 = s.jnl.head + 1 ∧ z.2.body = { kind := 0o06, code := s.dbg.sess + 1 }) ∧
    (port → may → s.jnl.frozen = true → exec (.auth tok) s = .next
      { s with dbg := { s.dbg with frame := false, idle := 0, chal := none, tx := plain 3 [0o10] } }) ∧
    (port → s.pwr.mode = 10 ∨ s.pwr.mode = 1 ∨ s.fus.dbgdis = true ∨ s.dbg.chal = none → exec (.auth tok) s = .next
      { s with dbg := { s.dbg with frame := false, idle := 0, chal := none, tx := plain 3 [5] } }) ∧
    (live → inScope l → ∃ t, exec (.halt l mask) s = .next t ∧ t.dbg = said 0o10 [0] ∧ (∀ k, masked k → (s.thr k).halted = false →
        t.thr k = { (s.thr k) with haltReq := true }) ∧ (∀ k, ¬ masked k ∨ (s.thr k).halted = true → t.thr k = s.thr k) ∧ t.mem = s.mem) ∧
    (live → inScope l → ∃ t, exec (.resume l mask) s = .next t ∧ t.dbg = said 0o11 [0] ∧
      (∀ k, masked k → t.thr k = { (s.thr k) with halted := false, haltReq := false }) ∧ (∀ k, ¬ masked k → t.thr k = s.thr k) ∧ t.mem = s.mem) ∧
    (live → ¬ inScope l → answers (.halt l mask) 0o10 [5] ∧ answers (.resume l mask) 0o11 [5]) ∧
    (port → s.dbg.opened = false → noauth (.halt l mask) 0o10 ∧ noauth (.resume l mask) 0o11 ∧ noauth (.step th) 0o12 ∧ noauth (.rdreg th sel) 0o13 ∧
      noauth (.wrreg th sel vs) 0o14 ∧ noauth (.exec th w) 0o15 ∧ noauth (.rdcsr a) 0o20 ∧ noauth (.wrcsr a w) 0o21 ∧ noauth (.resetreq level) 0o30 ∧
      noauth .close 0o31) ∧
    ((s.thr th).haltReq = true → s.atBoundary th = true → exec (.haltTakesEffect th) s =
      .next (s.modThr th (fun t => { t with halted := true, haltReq := false }))) ∧
    ((s.thr th).haltReq = false ∨ s.atBoundary th = false → exec (.haltTakesEffect th) s = .next s) ∧
    (live → inScope th.l → ¬ stopped → answers (.rdreg th sel) 0o13 [6] ∧ answers (.wrreg th sel vs) 0o14 [6] ∧ answers (.exec th w) 0o15 [6] ∧
      answers (.step th) 0o12 [6]) ∧
    (live → inScope th.l → stopped → coreFree s th.l = false → exec (.step th) s = .next s ∧ exec (.exec th w) s = .next s) ∧
    (live → inScope th.l → stopped → coreFree s th.l = true → (s.thr th).trapReq = false → (s.thr th).pick = none → (s.thr th).pickUser = none →
      (s.thr th).waiting = false → (s.thr th).hold = .free → (s.thr th).word = some w → readInstr th w = some (.add th f) → f.mod = 0 → f.form = 0 →
      f.rd ≠ 0 → nextSlot run th = some m → fetchHit run th = none → ∃ t, exec (.step th) s = .next t ∧ (t.thr th).rg f.rd = sum (inSlot run th m) ∧
      (t.thr th).pc = (s.thr th).pc + 1 ∧ (t.thr th).halted = true ∧ t.dbg = said 0o12 [0] ∧ t.mem = s.mem) ∧
    (live → inScope th.l → stopped → (kind 0 32 → answers (.rdreg th sel) 0o13 (0 :: leOctets 5 ((s.thr th).rg (BitVec.ofNat 5 num)))) ∧
      (kind 1 32 → answers (.rdreg th sel) 0o13 (0 :: leOctets 9 ((s.thr th).rf num))) ∧
      (kind 3 1 → answers (.rdreg th sel) 0o13 (0 :: leOctets 5 (s.thr th).pc)) ∧
      (5 ≤ sel.toNat / 4096 ∨ sel.toNat / 256 % 16 ≠ 0 → answers (.rdreg th sel) 0o13 [3] ∧ answers (.wrreg th sel vs) 0o14 [3])) ∧
    (live → inScope th.l → stopped → (kind 0 32 → num ≠ 0 → ∃ t, exec (.wrreg th sel [v]) s = .next t ∧ t.dbg = said 0o14 [0] ∧
        (∀ k : BitVec 5, (t.thr th).rg k = if k.toNat = num then v else (s.thr th).rg k) ∧ (∀ k, k ≠ th → t.thr k = s.thr k) ∧ t.mem = s.mem) ∧
      (kind 0 32 → num = 0 → ∃ t, exec (.wrreg th sel [v]) s = .next t ∧ t.dbg = said 0o14 [0] ∧ (∀ k, (t.thr th).rg k = (s.thr th).rg k)) ∧
      (kind 1 32 → ∃ t, exec (.wrreg th sel [v, w]) s = .next t ∧ t.dbg = said 0o14 [0] ∧ (t.thr th).rf num = mkD w v) ∧
      (kind 3 1 → ∃ t, exec (.wrreg th sel [v]) s = .next t ∧ t.dbg = said 0o14 [0] ∧ (t.thr th).pc = v ∧ (t.thr th).g = (s.thr th).g)) ∧
    (live → inScope th.l → stopped → coreFree s th.l = true → readInstr th w = some (.add th f) → f.mod = 0 → f.form = 0 → f.rd ≠ 0 →
      execSlot s1 th w = some m → ∃ t, exec (.exec th w) s = .next t ∧
      (t.thr th).rg f.rd = sum (startSlot (passSlots s1 th.l (m - (s.lathe th.l).clock)) th) ∧ (t.thr th).pc = (s.thr th).pc ∧ (t.thr th).halted = true ∧
      t.dbg = said 0o15 [0] ∧ t.mem = s.mem) ∧
    (live → inScope th.l → stopped → coreFree s th.l = true → readInstr th w = some i → execRefused i = false → coreOp i ≠ none → execSlot s1 th w = none →
      exec (.exec th w) s = .next s) ∧
    (live → inScope th.l → stopped → coreFree s th.l = true → readInstr th w = some i → execRefused i = true → answers (.exec th w) 0o15 [3]) ∧
    (live → inScope th.l → stopped → coreFree s th.l = true → readInstr th w = none → answers (.exec th w) 0o15 [7, (causeCode .illegal).setWidth 8]) ∧
    (live → areaOf a.toNat = .regs off → regRead s1 .debugPort off = (u, v) → u.dbg.opened = true → ∃ t, exec (.rdcsr a) s = .next t ∧ t = { u with dbg := t.dbg } ∧
      t.dbg.tx = u.dbg.tx ++ [frameOctets (some u.dbg.key) u.dbg.reqno 0o20 (0 :: leOctets 5 v)]) ∧
    (live → areaOf a.toNat = .bank → ∃ t, exec (.rdcsr a) s = .next t ∧ t.dbg = said 0o20 [0o11] ∧ t.fab.count = satAdd s.fab.count 1) ∧
    (live → areaOf a.toNat = .regs off → regWrite s1 .debugPort off w = none → answers (.wrcsr a w) 0o21 [0o11]) ∧
    (live → areaOf a.toNat = .regs off → regWrite s1 .debugPort off w = some u → u.dbg = heard → exec (.wrcsr a w) s =
      .next { u with dbg := said 0o21 [0] }) ∧
    (live → s.pwr.main12 = true → s.rst.inProgress = none → level = 1 ∨ level = 2 → ∃ t, exec (.resetreq level) s = .next t ∧ t.dbg = said 0o30 [0] ∧
      t.rst.cause = 14 ∧ t.rst.inProgress = some (if level = 1 then .system else .core) ∧ t.pwr.mode = 3) ∧
    (live → level ≠ 1 → level ≠ 2 → answers (.resetreq level) 0o30 [3]) ∧
    (live → ∃ t, exec .close s = .next t ∧ t.dbg.tx = (said 0o31 [0]).tx ∧ ended t ∧ t.mem = s.mem) ∧
    (exec .brk s = .next { s with dbg := { s.dbg with frame := false, gap := 0 } } ∧
      exec .framingError s = .next { s with dbg := { s.dbg with frame := false, gap := 0, ferr := satAdd s.dbg.ferr 1 } }) ∧
    (s.dbg.frame = false → exec .frameTimeout s = .next s) ∧
    (s.dbg.frame = true → s.dbg.opened = false → Due s [] [] [rest 100001 s.dbg.gap] → ∃ t, exec .frameTimeout s = .next t ∧
      t.dbg = { s.dbg with frame := false, gap := 0 } ∧ t.mem = s.mem) ∧
    (s.dbg.opened = true → Due s [] [] [rest s.dbg.expiry 0, rest 1000000000 s.dbg.idle] →
      ∃ t, exec .sessionExpiry s = .next t ∧ ended t ∧ t.dbg.tx = s.dbg.tx ∧ t.mem = s.mem) ∧
    (s.dbg.opened = false → exec .sessionExpiry s = .next s) ∧
    (port → ∃ t type, exec (.badRequestFrame why) s = .next t ∧ t.mem = s.mem ∧ t.threads = s.threads ∧ t.dbg.tx = s.dbg.tx ++
        [frameOctets (if s.dbg.opened then some s.dbg.key else none) (s.dbg.reqno + 1) type [match why with | .crc => 1 | .tag => 2 | .type => 3]] ∧
      t.dbg.reqno = (if why = .type ∧ s.dbg.opened = true then s.dbg.reqno + 1 else s.dbg.reqno)) ∧
    (¬ port → exec .hello s = .next s ∧ exec .chal s = .next s ∧ exec (.auth tok) s = .next s ∧ exec (.badRequestFrame why) s = .next s)
end

