-- ==== Sys2Proof/Laws/State.lean ====
section
/-! SUPPORT. Beside State: what each update of one unit leaves in every other field, one lemma per field per update, and what it leaves in
the unit itself. -/
namespace Sys2Proof.Machine

set_option Elab.async false

section
variable (s : State)

/-! setThr -/

@[simp] theorem State.setThr_pending {th t} : (State.setThr s th t).pending = s.pending := rfl
@[simp] theorem State.setThr_tb {th t} : (State.setThr s th t).tb = s.tb := rfl
@[simp] theorem State.setThr_mem {th t} : (State.setThr s th t).mem = s.mem := rfl
@[simp] theorem State.setThr_banks {th t} : (State.setThr s th t).banks = s.banks := rfl
@[simp] theorem State.setThr_spindles {th t} : (State.setThr s th t).spindles = s.spindles := rfl
@[simp] theorem State.setThr_lathes {th t} : (State.setThr s th t).lathes = s.lathes := rfl
@[simp] theorem State.setThr_groups {th t} : (State.setThr s th t).groups = s.groups := rfl
@[simp] theorem State.setThr_nextGroup {th t} : (State.setThr s th t).nextGroup = s.nextGroup := rfl
@[simp] theorem State.setThr_scr {th t} : (State.setThr s th t).scr = s.scr := rfl
@[simp] theorem State.setThr_fab {th t} : (State.setThr s th t).fab = s.fab := rfl
@[simp] theorem State.setThr_evf {th t} : (State.setThr s th t).evf = s.evf := rfl
@[simp] theorem State.setThr_ts {th t} : (State.setThr s th t).ts = s.ts := rfl
@[simp] theorem State.setThr_jnl {th t} : (State.setThr s th t).jnl = s.jnl := rfl
@[simp] theorem State.setThr_hs {th t} : (State.setThr s th t).hs = s.hs := rfl
@[simp] theorem State.setThr_pci {th t} : (State.setThr s th t).pci = s.pci := rfl
@[simp] theorem State.setThr_wov {th t} : (State.setThr s th t).wov = s.wov := rfl
@[simp] theorem State.setThr_rst {th t} : (State.setThr s th t).rst = s.rst := rfl
@[simp] theorem State.setThr_pwr {th t} : (State.setThr s th t).pwr = s.pwr := rfl
@[simp] theorem State.setThr_dbg {th t} : (State.setThr s th t).dbg = s.dbg := rfl
@[simp] theorem State.setThr_fus {th t} : (State.setThr s th t).fus = s.fus := rfl
@[simp] theorem State.setThr_free {th t} : (State.setThr s th t).free = s.free := rfl

/-! modThr -/

@[simp] theorem State.modThr_pending {th f} : (State.modThr s th f).pending = s.pending := rfl
@[simp] theorem State.modThr_tb {th f} : (State.modThr s th f).tb = s.tb := rfl
@[simp] theorem State.modThr_mem {th f} : (State.modThr s th f).mem = s.mem := rfl
@[simp] theorem State.modThr_banks {th f} : (State.modThr s th f).banks = s.banks := rfl
@[simp] theorem State.modThr_spindles {th f} : (State.modThr s th f).spindles = s.spindles := rfl
@[simp] theorem State.modThr_lathes {th f} : (State.modThr s th f).lathes = s.lathes := rfl
@[simp] theorem State.modThr_groups {th f} : (State.modThr s th f).groups = s.groups := rfl
@[simp] theorem State.modThr_nextGroup {th f} : (State.modThr s th f).nextGroup = s.nextGroup := rfl
@[simp] theorem State.modThr_scr {th f} : (State.modThr s th f).scr = s.scr := rfl
@[simp] theorem State.modThr_fab {th f} : (State.modThr s th f).fab = s.fab := rfl
@[simp] theorem State.modThr_evf {th f} : (State.modThr s th f).evf = s.evf := rfl
@[simp] theorem State.modThr_ts {th f} : (State.modThr s th f).ts = s.ts := rfl
@[simp] theorem State.modThr_jnl {th f} : (State.modThr s th f).jnl = s.jnl := rfl
@[simp] theorem State.modThr_hs {th f} : (State.modThr s th f).hs = s.hs := rfl
@[simp] theorem State.modThr_pci {th f} : (State.modThr s th f).pci = s.pci := rfl
@[simp] theorem State.modThr_wov {th f} : (State.modThr s th f).wov = s.wov := rfl
@[simp] theorem State.modThr_rst {th f} : (State.modThr s th f).rst = s.rst := rfl
@[simp] theorem State.modThr_pwr {th f} : (State.modThr s th f).pwr = s.pwr := rfl
@[simp] theorem State.modThr_dbg {th f} : (State.modThr s th f).dbg = s.dbg := rfl
@[simp] theorem State.modThr_fus {th f} : (State.modThr s th f).fus = s.fus := rfl
@[simp] theorem State.modThr_free {th f} : (State.modThr s th f).free = s.free := rfl

/-! setLathe -/

@[simp] theorem State.setLathe_pending {l x} : (State.setLathe s l x).pending = s.pending := rfl
@[simp] theorem State.setLathe_tb {l x} : (State.setLathe s l x).tb = s.tb := rfl
@[simp] theorem State.setLathe_mem {l x} : (State.setLathe s l x).mem = s.mem := rfl
@[simp] theorem State.setLathe_banks {l x} : (State.setLathe s l x).banks = s.banks := rfl
@[simp] theorem State.setLathe_spindles {l x} : (State.setLathe s l x).spindles = s.spindles := rfl
@[simp] theorem State.setLathe_threads {l x} : (State.setLathe s l x).threads = s.threads := rfl
@[simp] theorem State.setLathe_groups {l x} : (State.setLathe s l x).groups = s.groups := rfl
@[simp] theorem State.setLathe_nextGroup {l x} : (State.setLathe s l x).nextGroup = s.nextGroup := rfl
@[simp] theorem State.setLathe_scr {l x} : (State.setLathe s l x).scr = s.scr := rfl
@[simp] theorem State.setLathe_fab {l x} : (State.setLathe s l x).fab = s.fab := rfl
@[simp] theorem State.setLathe_evf {l x} : (State.setLathe s l x).evf = s.evf := rfl
@[simp] theorem State.setLathe_ts {l x} : (State.setLathe s l x).ts = s.ts := rfl
@[simp] theorem State.setLathe_jnl {l x} : (State.setLathe s l x).jnl = s.jnl := rfl
@[simp] theorem State.setLathe_hs {l x} : (State.setLathe s l x).hs = s.hs := rfl
@[simp] theorem State.setLathe_pci {l x} : (State.setLathe s l x).pci = s.pci := rfl
@[simp] theorem State.setLathe_wov {l x} : (State.setLathe s l x).wov = s.wov := rfl
@[simp] theorem State.setLathe_rst {l x} : (State.setLathe s l x).rst = s.rst := rfl
@[simp] theorem State.setLathe_pwr {l x} : (State.setLathe s l x).pwr = s.pwr := rfl
@[simp] theorem State.setLathe_dbg {l x} : (State.setLathe s l x).dbg = s.dbg := rfl
@[simp] theorem State.setLathe_fus {l x} : (State.setLathe s l x).fus = s.fus := rfl
@[simp] theorem State.setLathe_free {l x} : (State.setLathe s l x).free = s.free := rfl

/-! modLathe -/

@[simp] theorem State.modLathe_pending {l f} : (State.modLathe s l f).pending = s.pending := rfl
@[simp] theorem State.modLathe_tb {l f} : (State.modLathe s l f).tb = s.tb := rfl
@[simp] theorem State.modLathe_mem {l f} : (State.modLathe s l f).mem = s.mem := rfl
@[simp] theorem State.modLathe_banks {l f} : (State.modLathe s l f).banks = s.banks := rfl
@[simp] theorem State.modLathe_spindles {l f} : (State.modLathe s l f).spindles = s.spindles := rfl
@[simp] theorem State.modLathe_threads {l f} : (State.modLathe s l f).threads = s.threads := rfl
@[simp] theorem State.modLathe_groups {l f} : (State.modLathe s l f).groups = s.groups := rfl
@[simp] theorem State.modLathe_nextGroup {l f} : (State.modLathe s l f).nextGroup = s.nextGroup := rfl
@[simp] theorem State.modLathe_scr {l f} : (State.modLathe s l f).scr = s.scr := rfl
@[simp] theorem State.modLathe_fab {l f} : (State.modLathe s l f).fab = s.fab := rfl
@[simp] theorem State.modLathe_evf {l f} : (State.modLathe s l f).evf = s.evf := rfl
@[simp] theorem State.modLathe_ts {l f} : (State.modLathe s l f).ts = s.ts := rfl
@[simp] theorem State.modLathe_jnl {l f} : (State.modLathe s l f).jnl = s.jnl := rfl
@[simp] theorem State.modLathe_hs {l f} : (State.modLathe s l f).hs = s.hs := rfl
@[simp] theorem State.modLathe_pci {l f} : (State.modLathe s l f).pci = s.pci := rfl
@[simp] theorem State.modLathe_wov {l f} : (State.modLathe s l f).wov = s.wov := rfl
@[simp] theorem State.modLathe_rst {l f} : (State.modLathe s l f).rst = s.rst := rfl
@[simp] theorem State.modLathe_pwr {l f} : (State.modLathe s l f).pwr = s.pwr := rfl
@[simp] theorem State.modLathe_dbg {l f} : (State.modLathe s l f).dbg = s.dbg := rfl
@[simp] theorem State.modLathe_fus {l f} : (State.modLathe s l f).fus = s.fus := rfl
@[simp] theorem State.modLathe_free {l f} : (State.modLathe s l f).free = s.free := rfl

/-! setBank -/

@[simp] theorem State.setBank_pending {n x} : (State.setBank s n x).pending = s.pending := rfl
@[simp] theorem State.setBank_tb {n x} : (State.setBank s n x).tb = s.tb := rfl
@[simp] theorem State.setBank_mem {n x} : (State.setBank s n x).mem = s.mem := rfl
@[simp] theorem State.setBank_spindles {n x} : (State.setBank s n x).spindles = s.spindles := rfl
@[simp] theorem State.setBank_lathes {n x} : (State.setBank s n x).lathes = s.lathes := rfl
@[simp] theorem State.setBank_threads {n x} : (State.setBank s n x).threads = s.threads := rfl
@[simp] theorem State.setBank_groups {n x} : (State.setBank s n x).groups = s.groups := rfl
@[simp] theorem State.setBank_nextGroup {n x} : (State.setBank s n x).nextGroup = s.nextGroup := rfl
@[simp] theorem State.setBank_scr {n x} : (State.setBank s n x).scr = s.scr := rfl
@[simp] theorem State.setBank_fab {n x} : (State.setBank s n x).fab = s.fab := rfl
@[simp] theorem State.setBank_evf {n x} : (State.setBank s n x).evf = s.evf := rfl
@[simp] theorem State.setBank_ts {n x} : (State.setBank s n x).ts = s.ts := rfl
@[simp] theorem State.setBank_jnl {n x} : (State.setBank s n x).jnl = s.jnl := rfl
@[simp] theorem State.setBank_hs {n x} : (State.setBank s n x).hs = s.hs := rfl
@[simp] theorem State.setBank_pci {n x} : (State.setBank s n x).pci = s.pci := rfl
@[simp] theorem State.setBank_wov {n x} : (State.setBank s n x).wov = s.wov := rfl
@[simp] theorem State.setBank_rst {n x} : (State.setBank s n x).rst = s.rst := rfl
@[simp] theorem State.setBank_pwr {n x} : (State.setBank s n x).pwr = s.pwr := rfl
@[simp] theorem State.setBank_dbg {n x} : (State.setBank s n x).dbg = s.dbg := rfl
@[simp] theorem State.setBank_fus {n x} : (State.setBank s n x).fus = s.fus := rfl
@[simp] theorem State.setBank_free {n x} : (State.setBank s n x).free = s.free := rfl

/-! modBank -/

@[simp] theorem State.modBank_pending {n f} : (State.modBank s n f).pending = s.pending := rfl
@[simp] theorem State.modBank_tb {n f} : (State.modBank s n f).tb = s.tb := rfl
@[simp] theorem State.modBank_mem {n f} : (State.modBank s n f).mem = s.mem := rfl
@[simp] theorem State.modBank_spindles {n f} : (State.modBank s n f).spindles = s.spindles := rfl
@[simp] theorem State.modBank_lathes {n f} : (State.modBank s n f).lathes = s.lathes := rfl
@[simp] theorem State.modBank_threads {n f} : (State.modBank s n f).threads = s.threads := rfl
@[simp] theorem State.modBank_groups {n f} : (State.modBank s n f).groups = s.groups := rfl
@[simp] theorem State.modBank_nextGroup {n f} : (State.modBank s n f).nextGroup = s.nextGroup := rfl
@[simp] theorem State.modBank_scr {n f} : (State.modBank s n f).scr = s.scr := rfl
@[simp] theorem State.modBank_fab {n f} : (State.modBank s n f).fab = s.fab := rfl
@[simp] theorem State.modBank_evf {n f} : (State.modBank s n f).evf = s.evf := rfl
@[simp] theorem State.modBank_ts {n f} : (State.modBank s n f).ts = s.ts := rfl
@[simp] theorem State.modBank_jnl {n f} : (State.modBank s n f).jnl = s.jnl := rfl
@[simp] theorem State.modBank_hs {n f} : (State.modBank s n f).hs = s.hs := rfl
@[simp] theorem State.modBank_pci {n f} : (State.modBank s n f).pci = s.pci := rfl
@[simp] theorem State.modBank_wov {n f} : (State.modBank s n f).wov = s.wov := rfl
@[simp] theorem State.modBank_rst {n f} : (State.modBank s n f).rst = s.rst := rfl
@[simp] theorem State.modBank_pwr {n f} : (State.modBank s n f).pwr = s.pwr := rfl
@[simp] theorem State.modBank_dbg {n f} : (State.modBank s n f).dbg = s.dbg := rfl
@[simp] theorem State.modBank_fus {n f} : (State.modBank s n f).fus = s.fus := rfl
@[simp] theorem State.modBank_free {n f} : (State.modBank s n f).free = s.free := rfl

/-! setSpin -/

@[simp] theorem State.setSpin_pending {k x} : (State.setSpin s k x).pending = s.pending := rfl
@[simp] theorem State.setSpin_tb {k x} : (State.setSpin s k x).tb = s.tb := rfl
@[simp] theorem State.setSpin_mem {k x} : (State.setSpin s k x).mem = s.mem := rfl
@[simp] theorem State.setSpin_banks {k x} : (State.setSpin s k x).banks = s.banks := rfl
@[simp] theorem State.setSpin_lathes {k x} : (State.setSpin s k x).lathes = s.lathes := rfl
@[simp] theorem State.setSpin_threads {k x} : (State.setSpin s k x).threads = s.threads := rfl
@[simp] theorem State.setSpin_groups {k x} : (State.setSpin s k x).groups = s.groups := rfl
@[simp] theorem State.setSpin_nextGroup {k x} : (State.setSpin s k x).nextGroup = s.nextGroup := rfl
@[simp] theorem State.setSpin_scr {k x} : (State.setSpin s k x).scr = s.scr := rfl
@[simp] theorem State.setSpin_fab {k x} : (State.setSpin s k x).fab = s.fab := rfl
@[simp] theorem State.setSpin_evf {k x} : (State.setSpin s k x).evf = s.evf := rfl
@[simp] theorem State.setSpin_ts {k x} : (State.setSpin s k x).ts = s.ts := rfl
@[simp] theorem State.setSpin_jnl {k x} : (State.setSpin s k x).jnl = s.jnl := rfl
@[simp] theorem State.setSpin_hs {k x} : (State.setSpin s k x).hs = s.hs := rfl
@[simp] theorem State.setSpin_pci {k x} : (State.setSpin s k x).pci = s.pci := rfl
@[simp] theorem State.setSpin_wov {k x} : (State.setSpin s k x).wov = s.wov := rfl
@[simp] theorem State.setSpin_rst {k x} : (State.setSpin s k x).rst = s.rst := rfl
@[simp] theorem State.setSpin_pwr {k x} : (State.setSpin s k x).pwr = s.pwr := rfl
@[simp] theorem State.setSpin_dbg {k x} : (State.setSpin s k x).dbg = s.dbg := rfl
@[simp] theorem State.setSpin_fus {k x} : (State.setSpin s k x).fus = s.fus := rfl
@[simp] theorem State.setSpin_free {k x} : (State.setSpin s k x).free = s.free := rfl

/-! modSpin -/

@[simp] theorem State.modSpin_pending {k f} : (State.modSpin s k f).pending = s.pending := rfl
@[simp] theorem State.modSpin_tb {k f} : (State.modSpin s k f).tb = s.tb := rfl
@[simp] theorem State.modSpin_mem {k f} : (State.modSpin s k f).mem = s.mem := rfl
@[simp] theorem State.modSpin_banks {k f} : (State.modSpin s k f).banks = s.banks := rfl
@[simp] theorem State.modSpin_lathes {k f} : (State.modSpin s k f).lathes = s.lathes := rfl
@[simp] theorem State.modSpin_threads {k f} : (State.modSpin s k f).threads = s.threads := rfl
@[simp] theorem State.modSpin_groups {k f} : (State.modSpin s k f).groups = s.groups := rfl
@[simp] theorem State.modSpin_nextGroup {k f} : (State.modSpin s k f).nextGroup = s.nextGroup := rfl
@[simp] theorem State.modSpin_scr {k f} : (State.modSpin s k f).scr = s.scr := rfl
@[simp] theorem State.modSpin_fab {k f} : (State.modSpin s k f).fab = s.fab := rfl
@[simp] theorem State.modSpin_evf {k f} : (State.modSpin s k f).evf = s.evf := rfl
@[simp] theorem State.modSpin_ts {k f} : (State.modSpin s k f).ts = s.ts := rfl
@[simp] theorem State.modSpin_jnl {k f} : (State.modSpin s k f).jnl = s.jnl := rfl
@[simp] theorem State.modSpin_hs {k f} : (State.modSpin s k f).hs = s.hs := rfl
@[simp] theorem State.modSpin_pci {k f} : (State.modSpin s k f).pci = s.pci := rfl
@[simp] theorem State.modSpin_wov {k f} : (State.modSpin s k f).wov = s.wov := rfl
@[simp] theorem State.modSpin_rst {k f} : (State.modSpin s k f).rst = s.rst := rfl
@[simp] theorem State.modSpin_pwr {k f} : (State.modSpin s k f).pwr = s.pwr := rfl
@[simp] theorem State.modSpin_dbg {k f} : (State.modSpin s k f).dbg = s.dbg := rfl
@[simp] theorem State.modSpin_fus {k f} : (State.modSpin s k f).fus = s.fus := rfl
@[simp] theorem State.modSpin_free {k f} : (State.modSpin s k f).free = s.free := rfl

/-! setGroup -/

@[simp] theorem State.setGroup_pending {g x} : (State.setGroup s g x).pending = s.pending := rfl
@[simp] theorem State.setGroup_tb {g x} : (State.setGroup s g x).tb = s.tb := rfl
@[simp] theorem State.setGroup_mem {g x} : (State.setGroup s g x).mem = s.mem := rfl
@[simp] theorem State.setGroup_banks {g x} : (State.setGroup s g x).banks = s.banks := rfl
@[simp] theorem State.setGroup_spindles {g x} : (State.setGroup s g x).spindles = s.spindles := rfl
@[simp] theorem State.setGroup_lathes {g x} : (State.setGroup s g x).lathes = s.lathes := rfl
@[simp] theorem State.setGroup_threads {g x} : (State.setGroup s g x).threads = s.threads := rfl
@[simp] theorem State.setGroup_nextGroup {g x} : (State.setGroup s g x).nextGroup = s.nextGroup := rfl
@[simp] theorem State.setGroup_scr {g x} : (State.setGroup s g x).scr = s.scr := rfl
@[simp] theorem State.setGroup_fab {g x} : (State.setGroup s g x).fab = s.fab := rfl
@[simp] theorem State.setGroup_evf {g x} : (State.setGroup s g x).evf = s.evf := rfl
@[simp] theorem State.setGroup_ts {g x} : (State.setGroup s g x).ts = s.ts := rfl
@[simp] theorem State.setGroup_jnl {g x} : (State.setGroup s g x).jnl = s.jnl := rfl
@[simp] theorem State.setGroup_hs {g x} : (State.setGroup s g x).hs = s.hs := rfl
@[simp] theorem State.setGroup_pci {g x} : (State.setGroup s g x).pci = s.pci := rfl
@[simp] theorem State.setGroup_wov {g x} : (State.setGroup s g x).wov = s.wov := rfl
@[simp] theorem State.setGroup_rst {g x} : (State.setGroup s g x).rst = s.rst := rfl
@[simp] theorem State.setGroup_pwr {g x} : (State.setGroup s g x).pwr = s.pwr := rfl
@[simp] theorem State.setGroup_dbg {g x} : (State.setGroup s g x).dbg = s.dbg := rfl
@[simp] theorem State.setGroup_fus {g x} : (State.setGroup s g x).fus = s.fus := rfl
@[simp] theorem State.setGroup_free {g x} : (State.setGroup s g x).free = s.free := rfl

/-! modGroup -/

@[simp] theorem State.modGroup_pending {g f} : (State.modGroup s g f).pending = s.pending := rfl
@[simp] theorem State.modGroup_tb {g f} : (State.modGroup s g f).tb = s.tb := rfl
@[simp] theorem State.modGroup_mem {g f} : (State.modGroup s g f).mem = s.mem := rfl
@[simp] theorem State.modGroup_banks {g f} : (State.modGroup s g f).banks = s.banks := rfl
@[simp] theorem State.modGroup_spindles {g f} : (State.modGroup s g f).spindles = s.spindles := rfl
@[simp] theorem State.modGroup_lathes {g f} : (State.modGroup s g f).lathes = s.lathes := rfl
@[simp] theorem State.modGroup_threads {g f} : (State.modGroup s g f).threads = s.threads := rfl
@[simp] theorem State.modGroup_nextGroup {g f} : (State.modGroup s g f).nextGroup = s.nextGroup := rfl
@[simp] theorem State.modGroup_scr {g f} : (State.modGroup s g f).scr = s.scr := rfl
@[simp] theorem State.modGroup_fab {g f} : (State.modGroup s g f).fab = s.fab := rfl
@[simp] theorem State.modGroup_evf {g f} : (State.modGroup s g f).evf = s.evf := rfl
@[simp] theorem State.modGroup_ts {g f} : (State.modGroup s g f).ts = s.ts := rfl
@[simp] theorem State.modGroup_jnl {g f} : (State.modGroup s g f).jnl = s.jnl := rfl
@[simp] theorem State.modGroup_hs {g f} : (State.modGroup s g f).hs = s.hs := rfl
@[simp] theorem State.modGroup_pci {g f} : (State.modGroup s g f).pci = s.pci := rfl
@[simp] theorem State.modGroup_wov {g f} : (State.modGroup s g f).wov = s.wov := rfl
@[simp] theorem State.modGroup_rst {g f} : (State.modGroup s g f).rst = s.rst := rfl
@[simp] theorem State.modGroup_pwr {g f} : (State.modGroup s g f).pwr = s.pwr := rfl
@[simp] theorem State.modGroup_dbg {g f} : (State.modGroup s g f).dbg = s.dbg := rfl
@[simp] theorem State.modGroup_fus {g f} : (State.modGroup s g f).fus = s.fus := rfl
@[simp] theorem State.modGroup_free {g f} : (State.modGroup s g f).free = s.free := rfl

/-! setInst -/

@[simp] theorem State.setInst_pending {i x} : (State.setInst s i x).pending = s.pending := rfl
@[simp] theorem State.setInst_tb {i x} : (State.setInst s i x).tb = s.tb := rfl
@[simp] theorem State.setInst_mem {i x} : (State.setInst s i x).mem = s.mem := rfl
@[simp] theorem State.setInst_banks {i x} : (State.setInst s i x).banks = s.banks := rfl
@[simp] theorem State.setInst_spindles {i x} : (State.setInst s i x).spindles = s.spindles := rfl
@[simp] theorem State.setInst_lathes {i x} : (State.setInst s i x).lathes = s.lathes := rfl
@[simp] theorem State.setInst_threads {i x} : (State.setInst s i x).threads = s.threads := rfl
@[simp] theorem State.setInst_groups {i x} : (State.setInst s i x).groups = s.groups := rfl
@[simp] theorem State.setInst_nextGroup {i x} : (State.setInst s i x).nextGroup = s.nextGroup := rfl
@[simp] theorem State.setInst_scr {i x} : (State.setInst s i x).scr = s.scr := rfl
@[simp] theorem State.setInst_fab {i x} : (State.setInst s i x).fab = s.fab := rfl
@[simp] theorem State.setInst_evf {i x} : (State.setInst s i x).evf = s.evf := rfl
@[simp] theorem State.setInst_ts {i x} : (State.setInst s i x).ts = s.ts := rfl
@[simp] theorem State.setInst_jnl {i x} : (State.setInst s i x).jnl = s.jnl := rfl
@[simp] theorem State.setInst_pci {i x} : (State.setInst s i x).pci = s.pci := rfl
@[simp] theorem State.setInst_wov {i x} : (State.setInst s i x).wov = s.wov := rfl
@[simp] theorem State.setInst_rst {i x} : (State.setInst s i x).rst = s.rst := rfl
@[simp] theorem State.setInst_pwr {i x} : (State.setInst s i x).pwr = s.pwr := rfl
@[simp] theorem State.setInst_dbg {i x} : (State.setInst s i x).dbg = s.dbg := rfl
@[simp] theorem State.setInst_fus {i x} : (State.setInst s i x).fus = s.fus := rfl
@[simp] theorem State.setInst_free {i x} : (State.setInst s i x).free = s.free := rfl

/-! modInst -/

@[simp] theorem State.modInst_pending {i f} : (State.modInst s i f).pending = s.pending := rfl
@[simp] theorem State.modInst_tb {i f} : (State.modInst s i f).tb = s.tb := rfl
@[simp] theorem State.modInst_mem {i f} : (State.modInst s i f).mem = s.mem := rfl
@[simp] theorem State.modInst_banks {i f} : (State.modInst s i f).banks = s.banks := rfl
@[simp] theorem State.modInst_spindles {i f} : (State.modInst s i f).spindles = s.spindles := rfl
@[simp] theorem State.modInst_lathes {i f} : (State.modInst s i f).lathes = s.lathes := rfl
@[simp] theorem State.modInst_threads {i f} : (State.modInst s i f).threads = s.threads := rfl
@[simp] theorem State.modInst_groups {i f} : (State.modInst s i f).groups = s.groups := rfl
@[simp] theorem State.modInst_nextGroup {i f} : (State.modInst s i f).nextGroup = s.nextGroup := rfl
@[simp] theorem State.modInst_scr {i f} : (State.modInst s i f).scr = s.scr := rfl
@[simp] theorem State.modInst_fab {i f} : (State.modInst s i f).fab = s.fab := rfl
@[simp] theorem State.modInst_evf {i f} : (State.modInst s i f).evf = s.evf := rfl
@[simp] theorem State.modInst_ts {i f} : (State.modInst s i f).ts = s.ts := rfl
@[simp] theorem State.modInst_jnl {i f} : (State.modInst s i f).jnl = s.jnl := rfl
@[simp] theorem State.modInst_pci {i f} : (State.modInst s i f).pci = s.pci := rfl
@[simp] theorem State.modInst_wov {i f} : (State.modInst s i f).wov = s.wov := rfl
@[simp] theorem State.modInst_rst {i f} : (State.modInst s i f).rst = s.rst := rfl
@[simp] theorem State.modInst_pwr {i f} : (State.modInst s i f).pwr = s.pwr := rfl
@[simp] theorem State.modInst_dbg {i f} : (State.modInst s i f).dbg = s.dbg := rfl
@[simp] theorem State.modInst_fus {i f} : (State.modInst s i f).fus = s.fus := rfl
@[simp] theorem State.modInst_free {i f} : (State.modInst s i f).free = s.free := rfl

/-! setSlot -/

@[simp] theorem State.setSlot_pending {r x} : (State.setSlot s r x).pending = s.pending := rfl
@[simp] theorem State.setSlot_tb {r x} : (State.setSlot s r x).tb = s.tb := rfl
@[simp] theorem State.setSlot_mem {r x} : (State.setSlot s r x).mem = s.mem := rfl
@[simp] theorem State.setSlot_banks {r x} : (State.setSlot s r x).banks = s.banks := rfl
@[simp] theorem State.setSlot_spindles {r x} : (State.setSlot s r x).spindles = s.spindles := rfl
@[simp] theorem State.setSlot_lathes {r x} : (State.setSlot s r x).lathes = s.lathes := rfl
@[simp] theorem State.setSlot_threads {r x} : (State.setSlot s r x).threads = s.threads := rfl
@[simp] theorem State.setSlot_groups {r x} : (State.setSlot s r x).groups = s.groups := rfl
@[simp] theorem State.setSlot_nextGroup {r x} : (State.setSlot s r x).nextGroup = s.nextGroup := rfl
@[simp] theorem State.setSlot_scr {r x} : (State.setSlot s r x).scr = s.scr := rfl
@[simp] theorem State.setSlot_fab {r x} : (State.setSlot s r x).fab = s.fab := rfl
@[simp] theorem State.setSlot_evf {r x} : (State.setSlot s r x).evf = s.evf := rfl
@[simp] theorem State.setSlot_ts {r x} : (State.setSlot s r x).ts = s.ts := rfl
@[simp] theorem State.setSlot_jnl {r x} : (State.setSlot s r x).jnl = s.jnl := rfl
@[simp] theorem State.setSlot_pci {r x} : (State.setSlot s r x).pci = s.pci := rfl
@[simp] theorem State.setSlot_wov {r x} : (State.setSlot s r x).wov = s.wov := rfl
@[simp] theorem State.setSlot_rst {r x} : (State.setSlot s r x).rst = s.rst := rfl
@[simp] theorem State.setSlot_pwr {r x} : (State.setSlot s r x).pwr = s.pwr := rfl
@[simp] theorem State.setSlot_dbg {r x} : (State.setSlot s r x).dbg = s.dbg := rfl
@[simp] theorem State.setSlot_fus {r x} : (State.setSlot s r x).fus = s.fus := rfl
@[simp] theorem State.setSlot_free {r x} : (State.setSlot s r x).free = s.free := rfl

/-! modSlot -/

@[simp] theorem State.modSlot_pending {r f} : (State.modSlot s r f).pending = s.pending := rfl
@[simp] theorem State.modSlot_tb {r f} : (State.modSlot s r f).tb = s.tb := rfl
@[simp] theorem State.modSlot_mem {r f} : (State.modSlot s r f).mem = s.mem := rfl
@[simp] theorem State.modSlot_banks {r f} : (State.modSlot s r f).banks = s.banks := rfl
@[simp] theorem State.modSlot_spindles {r f} : (State.modSlot s r f).spindles = s.spindles := rfl
@[simp] theorem State.modSlot_lathes {r f} : (State.modSlot s r f).lathes = s.lathes := rfl
@[simp] theorem State.modSlot_threads {r f} : (State.modSlot s r f).threads = s.threads := rfl
@[simp] theorem State.modSlot_groups {r f} : (State.modSlot s r f).groups = s.groups := rfl
@[simp] theorem State.modSlot_nextGroup {r f} : (State.modSlot s r f).nextGroup = s.nextGroup := rfl
@[simp] theorem State.modSlot_scr {r f} : (State.modSlot s r f).scr = s.scr := rfl
@[simp] theorem State.modSlot_fab {r f} : (State.modSlot s r f).fab = s.fab := rfl
@[simp] theorem State.modSlot_evf {r f} : (State.modSlot s r f).evf = s.evf := rfl
@[simp] theorem State.modSlot_ts {r f} : (State.modSlot s r f).ts = s.ts := rfl
@[simp] theorem State.modSlot_jnl {r f} : (State.modSlot s r f).jnl = s.jnl := rfl
@[simp] theorem State.modSlot_pci {r f} : (State.modSlot s r f).pci = s.pci := rfl
@[simp] theorem State.modSlot_wov {r f} : (State.modSlot s r f).wov = s.wov := rfl
@[simp] theorem State.modSlot_rst {r f} : (State.modSlot s r f).rst = s.rst := rfl
@[simp] theorem State.modSlot_pwr {r f} : (State.modSlot s r f).pwr = s.pwr := rfl
@[simp] theorem State.modSlot_dbg {r f} : (State.modSlot s r f).dbg = s.dbg := rfl
@[simp] theorem State.modSlot_fus {r f} : (State.modSlot s r f).fus = s.fus := rfl
@[simp] theorem State.modSlot_free {r f} : (State.modSlot s r f).free = s.free := rfl

/-! setCtx -/

@[simp] theorem State.setCtx_pending {c x} : (State.setCtx s c x).pending = s.pending := rfl
@[simp] theorem State.setCtx_tb {c x} : (State.setCtx s c x).tb = s.tb := rfl
@[simp] theorem State.setCtx_mem {c x} : (State.setCtx s c x).mem = s.mem := rfl
@[simp] theorem State.setCtx_banks {c x} : (State.setCtx s c x).banks = s.banks := rfl
@[simp] theorem State.setCtx_spindles {c x} : (State.setCtx s c x).spindles = s.spindles := rfl
@[simp] theorem State.setCtx_lathes {c x} : (State.setCtx s c x).lathes = s.lathes := rfl
@[simp] theorem State.setCtx_threads {c x} : (State.setCtx s c x).threads = s.threads := rfl
@[simp] theorem State.setCtx_groups {c x} : (State.setCtx s c x).groups = s.groups := rfl
@[simp] theorem State.setCtx_nextGroup {c x} : (State.setCtx s c x).nextGroup = s.nextGroup := rfl
@[simp] theorem State.setCtx_scr {c x} : (State.setCtx s c x).scr = s.scr := rfl
@[simp] theorem State.setCtx_fab {c x} : (State.setCtx s c x).fab = s.fab := rfl
@[simp] theorem State.setCtx_evf {c x} : (State.setCtx s c x).evf = s.evf := rfl
@[simp] theorem State.setCtx_jnl {c x} : (State.setCtx s c x).jnl = s.jnl := rfl
@[simp] theorem State.setCtx_hs {c x} : (State.setCtx s c x).hs = s.hs := rfl
@[simp] theorem State.setCtx_pci {c x} : (State.setCtx s c x).pci = s.pci := rfl
@[simp] theorem State.setCtx_wov {c x} : (State.setCtx s c x).wov = s.wov := rfl
@[simp] theorem State.setCtx_rst {c x} : (State.setCtx s c x).rst = s.rst := rfl
@[simp] theorem State.setCtx_pwr {c x} : (State.setCtx s c x).pwr = s.pwr := rfl
@[simp] theorem State.setCtx_dbg {c x} : (State.setCtx s c x).dbg = s.dbg := rfl
@[simp] theorem State.setCtx_fus {c x} : (State.setCtx s c x).fus = s.fus := rfl
@[simp] theorem State.setCtx_free {c x} : (State.setCtx s c x).free = s.free := rfl

/-! modCtx -/

@[simp] theorem State.modCtx_pending {c f} : (State.modCtx s c f).pending = s.pending := rfl
@[simp] theorem State.modCtx_tb {c f} : (State.modCtx s c f).tb = s.tb := rfl
@[simp] theorem State.modCtx_mem {c f} : (State.modCtx s c f).mem = s.mem := rfl
@[simp] theorem State.modCtx_banks {c f} : (State.modCtx s c f).banks = s.banks := rfl
@[simp] theorem State.modCtx_spindles {c f} : (State.modCtx s c f).spindles = s.spindles := rfl
@[simp] theorem State.modCtx_lathes {c f} : (State.modCtx s c f).lathes = s.lathes := rfl
@[simp] theorem State.modCtx_threads {c f} : (State.modCtx s c f).threads = s.threads := rfl
@[simp] theorem State.modCtx_groups {c f} : (State.modCtx s c f).groups = s.groups := rfl
@[simp] theorem State.modCtx_nextGroup {c f} : (State.modCtx s c f).nextGroup = s.nextGroup := rfl
@[simp] theorem State.modCtx_scr {c f} : (State.modCtx s c f).scr = s.scr := rfl
@[simp] theorem State.modCtx_fab {c f} : (State.modCtx s c f).fab = s.fab := rfl
@[simp] theorem State.modCtx_evf {c f} : (State.modCtx s c f).evf = s.evf := rfl
@[simp] theorem State.modCtx_jnl {c f} : (State.modCtx s c f).jnl = s.jnl := rfl
@[simp] theorem State.modCtx_hs {c f} : (State.modCtx s c f).hs = s.hs := rfl
@[simp] theorem State.modCtx_pci {c f} : (State.modCtx s c f).pci = s.pci := rfl
@[simp] theorem State.modCtx_wov {c f} : (State.modCtx s c f).wov = s.wov := rfl
@[simp] theorem State.modCtx_rst {c f} : (State.modCtx s c f).rst = s.rst := rfl
@[simp] theorem State.modCtx_pwr {c f} : (State.modCtx s c f).pwr = s.pwr := rfl
@[simp] theorem State.modCtx_dbg {c f} : (State.modCtx s c f).dbg = s.dbg := rfl
@[simp] theorem State.modCtx_fus {c f} : (State.modCtx s c f).fus = s.fus := rfl
@[simp] theorem State.modCtx_free {c f} : (State.modCtx s c f).free = s.free := rfl

/-! setCell -/

@[simp] theorem State.setCell_pending {a v} : (State.setCell s a v).pending = s.pending := rfl
@[simp] theorem State.setCell_tb {a v} : (State.setCell s a v).tb = s.tb := rfl
@[simp] theorem State.setCell_banks {a v} : (State.setCell s a v).banks = s.banks := rfl
@[simp] theorem State.setCell_spindles {a v} : (State.setCell s a v).spindles = s.spindles := rfl
@[simp] theorem State.setCell_lathes {a v} : (State.setCell s a v).lathes = s.lathes := rfl
@[simp] theorem State.setCell_threads {a v} : (State.setCell s a v).threads = s.threads := rfl
@[simp] theorem State.setCell_groups {a v} : (State.setCell s a v).groups = s.groups := rfl
@[simp] theorem State.setCell_nextGroup {a v} : (State.setCell s a v).nextGroup = s.nextGroup := rfl
@[simp] theorem State.setCell_scr {a v} : (State.setCell s a v).scr = s.scr := rfl
@[simp] theorem State.setCell_fab {a v} : (State.setCell s a v).fab = s.fab := rfl
@[simp] theorem State.setCell_evf {a v} : (State.setCell s a v).evf = s.evf := rfl
@[simp] theorem State.setCell_ts {a v} : (State.setCell s a v).ts = s.ts := rfl
@[simp] theorem State.setCell_jnl {a v} : (State.setCell s a v).jnl = s.jnl := rfl
@[simp] theorem State.setCell_hs {a v} : (State.setCell s a v).hs = s.hs := rfl
@[simp] theorem State.setCell_pci {a v} : (State.setCell s a v).pci = s.pci := rfl
@[simp] theorem State.setCell_wov {a v} : (State.setCell s a v).wov = s.wov := rfl
@[simp] theorem State.setCell_rst {a v} : (State.setCell s a v).rst = s.rst := rfl
@[simp] theorem State.setCell_pwr {a v} : (State.setCell s a v).pwr = s.pwr := rfl
@[simp] theorem State.setCell_dbg {a v} : (State.setCell s a v).dbg = s.dbg := rfl
@[simp] theorem State.setCell_fus {a v} : (State.setCell s a v).fus = s.fus := rfl
@[simp] theorem State.setCell_free {a v} : (State.setCell s a v).free = s.free := rfl

/-! modChan -/

@[simp] theorem State.modChan_pending {c f} : (State.modChan s c f).pending = s.pending := rfl
@[simp] theorem State.modChan_tb {c f} : (State.modChan s c f).tb = s.tb := rfl
@[simp] theorem State.modChan_mem {c f} : (State.modChan s c f).mem = s.mem := rfl
@[simp] theorem State.modChan_banks {c f} : (State.modChan s c f).banks = s.banks := rfl
@[simp] theorem State.modChan_spindles {c f} : (State.modChan s c f).spindles = s.spindles := rfl
@[simp] theorem State.modChan_lathes {c f} : (State.modChan s c f).lathes = s.lathes := rfl
@[simp] theorem State.modChan_threads {c f} : (State.modChan s c f).threads = s.threads := rfl
@[simp] theorem State.modChan_groups {c f} : (State.modChan s c f).groups = s.groups := rfl
@[simp] theorem State.modChan_nextGroup {c f} : (State.modChan s c f).nextGroup = s.nextGroup := rfl
@[simp] theorem State.modChan_scr {c f} : (State.modChan s c f).scr = s.scr := rfl
@[simp] theorem State.modChan_fab {c f} : (State.modChan s c f).fab = s.fab := rfl
@[simp] theorem State.modChan_ts {c f} : (State.modChan s c f).ts = s.ts := rfl
@[simp] theorem State.modChan_jnl {c f} : (State.modChan s c f).jnl = s.jnl := rfl
@[simp] theorem State.modChan_hs {c f} : (State.modChan s c f).hs = s.hs := rfl
@[simp] theorem State.modChan_pci {c f} : (State.modChan s c f).pci = s.pci := rfl
@[simp] theorem State.modChan_wov {c f} : (State.modChan s c f).wov = s.wov := rfl
@[simp] theorem State.modChan_rst {c f} : (State.modChan s c f).rst = s.rst := rfl
@[simp] theorem State.modChan_pwr {c f} : (State.modChan s c f).pwr = s.pwr := rfl
@[simp] theorem State.modChan_dbg {c f} : (State.modChan s c f).dbg = s.dbg := rfl
@[simp] theorem State.modChan_fus {c f} : (State.modChan s c f).fus = s.fus := rfl
@[simp] theorem State.modChan_free {c f} : (State.modChan s c f).free = s.free := rfl

/-! modCin -/

@[simp] theorem State.modCin_pending {n f} : (State.modCin s n f).pending = s.pending := rfl
@[simp] theorem State.modCin_tb {n f} : (State.modCin s n f).tb = s.tb := rfl
@[simp] theorem State.modCin_mem {n f} : (State.modCin s n f).mem = s.mem := rfl
@[simp] theorem State.modCin_banks {n f} : (State.modCin s n f).banks = s.banks := rfl
@[simp] theorem State.modCin_spindles {n f} : (State.modCin s n f).spindles = s.spindles := rfl
@[simp] theorem State.modCin_lathes {n f} : (State.modCin s n f).lathes = s.lathes := rfl
@[simp] theorem State.modCin_threads {n f} : (State.modCin s n f).threads = s.threads := rfl
@[simp] theorem State.modCin_groups {n f} : (State.modCin s n f).groups = s.groups := rfl
@[simp] theorem State.modCin_nextGroup {n f} : (State.modCin s n f).nextGroup = s.nextGroup := rfl
@[simp] theorem State.modCin_scr {n f} : (State.modCin s n f).scr = s.scr := rfl
@[simp] theorem State.modCin_fab {n f} : (State.modCin s n f).fab = s.fab := rfl
@[simp] theorem State.modCin_ts {n f} : (State.modCin s n f).ts = s.ts := rfl
@[simp] theorem State.modCin_jnl {n f} : (State.modCin s n f).jnl = s.jnl := rfl
@[simp] theorem State.modCin_hs {n f} : (State.modCin s n f).hs = s.hs := rfl
@[simp] theorem State.modCin_pci {n f} : (State.modCin s n f).pci = s.pci := rfl
@[simp] theorem State.modCin_wov {n f} : (State.modCin s n f).wov = s.wov := rfl
@[simp] theorem State.modCin_rst {n f} : (State.modCin s n f).rst = s.rst := rfl
@[simp] theorem State.modCin_pwr {n f} : (State.modCin s n f).pwr = s.pwr := rfl
@[simp] theorem State.modCin_dbg {n f} : (State.modCin s n f).dbg = s.dbg := rfl
@[simp] theorem State.modCin_fus {n f} : (State.modCin s n f).fus = s.fus := rfl
@[simp] theorem State.modCin_free {n f} : (State.modCin s n f).free = s.free := rfl

/-! modLut -/

@[simp] theorem State.modLut_pending {n f} : (State.modLut s n f).pending = s.pending := rfl
@[simp] theorem State.modLut_tb {n f} : (State.modLut s n f).tb = s.tb := rfl
@[simp] theorem State.modLut_mem {n f} : (State.modLut s n f).mem = s.mem := rfl
@[simp] theorem State.modLut_banks {n f} : (State.modLut s n f).banks = s.banks := rfl
@[simp] theorem State.modLut_spindles {n f} : (State.modLut s n f).spindles = s.spindles := rfl
@[simp] theorem State.modLut_lathes {n f} : (State.modLut s n f).lathes = s.lathes := rfl
@[simp] theorem State.modLut_threads {n f} : (State.modLut s n f).threads = s.threads := rfl
@[simp] theorem State.modLut_groups {n f} : (State.modLut s n f).groups = s.groups := rfl
@[simp] theorem State.modLut_nextGroup {n f} : (State.modLut s n f).nextGroup = s.nextGroup := rfl
@[simp] theorem State.modLut_scr {n f} : (State.modLut s n f).scr = s.scr := rfl
@[simp] theorem State.modLut_fab {n f} : (State.modLut s n f).fab = s.fab := rfl
@[simp] theorem State.modLut_ts {n f} : (State.modLut s n f).ts = s.ts := rfl
@[simp] theorem State.modLut_jnl {n f} : (State.modLut s n f).jnl = s.jnl := rfl
@[simp] theorem State.modLut_hs {n f} : (State.modLut s n f).hs = s.hs := rfl
@[simp] theorem State.modLut_pci {n f} : (State.modLut s n f).pci = s.pci := rfl
@[simp] theorem State.modLut_wov {n f} : (State.modLut s n f).wov = s.wov := rfl
@[simp] theorem State.modLut_rst {n f} : (State.modLut s n f).rst = s.rst := rfl
@[simp] theorem State.modLut_pwr {n f} : (State.modLut s n f).pwr = s.pwr := rfl
@[simp] theorem State.modLut_dbg {n f} : (State.modLut s n f).dbg = s.dbg := rfl
@[simp] theorem State.modLut_fus {n f} : (State.modLut s n f).fus = s.fus := rfl
@[simp] theorem State.modLut_free {n f} : (State.modLut s n f).free = s.free := rfl

/-! modTmr -/

@[simp] theorem State.modTmr_pending {n f} : (State.modTmr s n f).pending = s.pending := rfl
@[simp] theorem State.modTmr_tb {n f} : (State.modTmr s n f).tb = s.tb := rfl
@[simp] theorem State.modTmr_mem {n f} : (State.modTmr s n f).mem = s.mem := rfl
@[simp] theorem State.modTmr_banks {n f} : (State.modTmr s n f).banks = s.banks := rfl
@[simp] theorem State.modTmr_spindles {n f} : (State.modTmr s n f).spindles = s.spindles := rfl
@[simp] theorem State.modTmr_lathes {n f} : (State.modTmr s n f).lathes = s.lathes := rfl
@[simp] theorem State.modTmr_threads {n f} : (State.modTmr s n f).threads = s.threads := rfl
@[simp] theorem State.modTmr_groups {n f} : (State.modTmr s n f).groups = s.groups := rfl
@[simp] theorem State.modTmr_nextGroup {n f} : (State.modTmr s n f).nextGroup = s.nextGroup := rfl
@[simp] theorem State.modTmr_scr {n f} : (State.modTmr s n f).scr = s.scr := rfl
@[simp] theorem State.modTmr_fab {n f} : (State.modTmr s n f).fab = s.fab := rfl
@[simp] theorem State.modTmr_ts {n f} : (State.modTmr s n f).ts = s.ts := rfl
@[simp] theorem State.modTmr_jnl {n f} : (State.modTmr s n f).jnl = s.jnl := rfl
@[simp] theorem State.modTmr_hs {n f} : (State.modTmr s n f).hs = s.hs := rfl
@[simp] theorem State.modTmr_pci {n f} : (State.modTmr s n f).pci = s.pci := rfl
@[simp] theorem State.modTmr_wov {n f} : (State.modTmr s n f).wov = s.wov := rfl
@[simp] theorem State.modTmr_rst {n f} : (State.modTmr s n f).rst = s.rst := rfl
@[simp] theorem State.modTmr_pwr {n f} : (State.modTmr s n f).pwr = s.pwr := rfl
@[simp] theorem State.modTmr_dbg {n f} : (State.modTmr s n f).dbg = s.dbg := rfl
@[simp] theorem State.modTmr_fus {n f} : (State.modTmr s n f).fus = s.fus := rfl
@[simp] theorem State.modTmr_free {n f} : (State.modTmr s n f).free = s.free := rfl

/-! modPin -/

@[simp] theorem State.modPin_pending {n f} : (State.modPin s n f).pending = s.pending := rfl
@[simp] theorem State.modPin_tb {n f} : (State.modPin s n f).tb = s.tb := rfl
@[simp] theorem State.modPin_mem {n f} : (State.modPin s n f).mem = s.mem := rfl
@[simp] theorem State.modPin_banks {n f} : (State.modPin s n f).banks = s.banks := rfl
@[simp] theorem State.modPin_spindles {n f} : (State.modPin s n f).spindles = s.spindles := rfl
@[simp] theorem State.modPin_lathes {n f} : (State.modPin s n f).lathes = s.lathes := rfl
@[simp] theorem State.modPin_threads {n f} : (State.modPin s n f).threads = s.threads := rfl
@[simp] theorem State.modPin_groups {n f} : (State.modPin s n f).groups = s.groups := rfl
@[simp] theorem State.modPin_nextGroup {n f} : (State.modPin s n f).nextGroup = s.nextGroup := rfl
@[simp] theorem State.modPin_scr {n f} : (State.modPin s n f).scr = s.scr := rfl
@[simp] theorem State.modPin_fab {n f} : (State.modPin s n f).fab = s.fab := rfl
@[simp] theorem State.modPin_ts {n f} : (State.modPin s n f).ts = s.ts := rfl
@[simp] theorem State.modPin_jnl {n f} : (State.modPin s n f).jnl = s.jnl := rfl
@[simp] theorem State.modPin_hs {n f} : (State.modPin s n f).hs = s.hs := rfl
@[simp] theorem State.modPin_pci {n f} : (State.modPin s n f).pci = s.pci := rfl
@[simp] theorem State.modPin_wov {n f} : (State.modPin s n f).wov = s.wov := rfl
@[simp] theorem State.modPin_rst {n f} : (State.modPin s n f).rst = s.rst := rfl
@[simp] theorem State.modPin_pwr {n f} : (State.modPin s n f).pwr = s.pwr := rfl
@[simp] theorem State.modPin_dbg {n f} : (State.modPin s n f).dbg = s.dbg := rfl
@[simp] theorem State.modPin_fus {n f} : (State.modPin s n f).fus = s.fus := rfl
@[simp] theorem State.modPin_free {n f} : (State.modPin s n f).free = s.free := rfl

@[simp] theorem State.setInst_hs_slots {i x} : (State.setInst s i x).hs.slots = s.hs.slots := rfl
@[simp] theorem State.setInst_hs_chans {i x} : (State.setInst s i x).hs.chans = s.hs.chans := rfl
@[simp] theorem State.setInst_hs_pool {i x} : (State.setInst s i x).hs.pool = s.hs.pool := rfl
@[simp] theorem State.setInst_hs_arrivals {i x} : (State.setInst s i x).hs.arrivals = s.hs.arrivals := rfl
@[simp] theorem State.setInst_hs_locked {i x} : (State.setInst s i x).hs.locked = s.hs.locked := rfl
@[simp] theorem State.setInst_hs_halted {i x} : (State.setInst s i x).hs.halted = s.hs.halted := rfl
@[simp] theorem State.modInst_hs_slots {i f} : (State.modInst s i f).hs.slots = s.hs.slots := rfl
@[simp] theorem State.modInst_hs_chans {i f} : (State.modInst s i f).hs.chans = s.hs.chans := rfl
@[simp] theorem State.modInst_hs_pool {i f} : (State.modInst s i f).hs.pool = s.hs.pool := rfl
@[simp] theorem State.modInst_hs_arrivals {i f} : (State.modInst s i f).hs.arrivals = s.hs.arrivals := rfl
@[simp] theorem State.modInst_hs_locked {i f} : (State.modInst s i f).hs.locked = s.hs.locked := rfl
@[simp] theorem State.modInst_hs_halted {i f} : (State.modInst s i f).hs.halted = s.hs.halted := rfl
@[simp] theorem State.setSlot_hs_insts {r x} : (State.setSlot s r x).hs.insts = s.hs.insts := rfl
@[simp] theorem State.setSlot_hs_chans {r x} : (State.setSlot s r x).hs.chans = s.hs.chans := rfl
@[simp] theorem State.setSlot_hs_pool {r x} : (State.setSlot s r x).hs.pool = s.hs.pool := rfl
@[simp] theorem State.setSlot_hs_arrivals {r x} : (State.setSlot s r x).hs.arrivals = s.hs.arrivals := rfl
@[simp] theorem State.setSlot_hs_locked {r x} : (State.setSlot s r x).hs.locked = s.hs.locked := rfl
@[simp] theorem State.setSlot_hs_halted {r x} : (State.setSlot s r x).hs.halted = s.hs.halted := rfl
@[simp] theorem State.modSlot_hs_insts {r f} : (State.modSlot s r f).hs.insts = s.hs.insts := rfl
@[simp] theorem State.modSlot_hs_chans {r f} : (State.modSlot s r f).hs.chans = s.hs.chans := rfl
@[simp] theorem State.modSlot_hs_pool {r f} : (State.modSlot s r f).hs.pool = s.hs.pool := rfl
@[simp] theorem State.modSlot_hs_arrivals {r f} : (State.modSlot s r f).hs.arrivals = s.hs.arrivals := rfl
@[simp] theorem State.modSlot_hs_locked {r f} : (State.modSlot s r f).hs.locked = s.hs.locked := rfl
@[simp] theorem State.modSlot_hs_halted {r f} : (State.modSlot s r f).hs.halted = s.hs.halted := rfl

/-! ## Slots of a core -/

/-! addSlot -/

@[simp] theorem addSlot_pending {l} : (addSlot s l).pending = s.pending := rfl
@[simp] theorem addSlot_tb {l} : (addSlot s l).tb = s.tb := rfl
@[simp] theorem addSlot_mem {l} : (addSlot s l).mem = s.mem := rfl
@[simp] theorem addSlot_banks {l} : (addSlot s l).banks = s.banks := rfl
@[simp] theorem addSlot_spindles {l} : (addSlot s l).spindles = s.spindles := rfl
@[simp] theorem addSlot_threads {l} : (addSlot s l).threads = s.threads := rfl
@[simp] theorem addSlot_groups {l} : (addSlot s l).groups = s.groups := rfl
@[simp] theorem addSlot_nextGroup {l} : (addSlot s l).nextGroup = s.nextGroup := rfl
@[simp] theorem addSlot_scr {l} : (addSlot s l).scr = s.scr := rfl
@[simp] theorem addSlot_fab {l} : (addSlot s l).fab = s.fab := rfl
@[simp] theorem addSlot_evf {l} : (addSlot s l).evf = s.evf := rfl
@[simp] theorem addSlot_ts {l} : (addSlot s l).ts = s.ts := rfl
@[simp] theorem addSlot_jnl {l} : (addSlot s l).jnl = s.jnl := rfl
@[simp] theorem addSlot_hs {l} : (addSlot s l).hs = s.hs := rfl
@[simp] theorem addSlot_pci {l} : (addSlot s l).pci = s.pci := rfl
@[simp] theorem addSlot_wov {l} : (addSlot s l).wov = s.wov := rfl
@[simp] theorem addSlot_rst {l} : (addSlot s l).rst = s.rst := rfl
@[simp] theorem addSlot_pwr {l} : (addSlot s l).pwr = s.pwr := rfl
@[simp] theorem addSlot_dbg {l} : (addSlot s l).dbg = s.dbg := rfl
@[simp] theorem addSlot_fus {l} : (addSlot s l).fus = s.fus := rfl
@[simp] theorem addSlot_free {l} : (addSlot s l).free = s.free := rfl

/-! freezeSlots -/

@[simp] theorem freezeSlots_pending {l n} : (freezeSlots s l n).pending = s.pending := rfl
@[simp] theorem freezeSlots_tb {l n} : (freezeSlots s l n).tb = s.tb := rfl
@[simp] theorem freezeSlots_mem {l n} : (freezeSlots s l n).mem = s.mem := rfl
@[simp] theorem freezeSlots_banks {l n} : (freezeSlots s l n).banks = s.banks := rfl
@[simp] theorem freezeSlots_spindles {l n} : (freezeSlots s l n).spindles = s.spindles := rfl
@[simp] theorem freezeSlots_threads {l n} : (freezeSlots s l n).threads = s.threads := rfl
@[simp] theorem freezeSlots_groups {l n} : (freezeSlots s l n).groups = s.groups := rfl
@[simp] theorem freezeSlots_nextGroup {l n} : (freezeSlots s l n).nextGroup = s.nextGroup := rfl
@[simp] theorem freezeSlots_scr {l n} : (freezeSlots s l n).scr = s.scr := rfl
@[simp] theorem freezeSlots_fab {l n} : (freezeSlots s l n).fab = s.fab := rfl
@[simp] theorem freezeSlots_evf {l n} : (freezeSlots s l n).evf = s.evf := rfl
@[simp] theorem freezeSlots_ts {l n} : (freezeSlots s l n).ts = s.ts := rfl
@[simp] theorem freezeSlots_jnl {l n} : (freezeSlots s l n).jnl = s.jnl := rfl
@[simp] theorem freezeSlots_hs {l n} : (freezeSlots s l n).hs = s.hs := rfl
@[simp] theorem freezeSlots_pci {l n} : (freezeSlots s l n).pci = s.pci := rfl
@[simp] theorem freezeSlots_wov {l n} : (freezeSlots s l n).wov = s.wov := rfl
@[simp] theorem freezeSlots_rst {l n} : (freezeSlots s l n).rst = s.rst := rfl
@[simp] theorem freezeSlots_pwr {l n} : (freezeSlots s l n).pwr = s.pwr := rfl
@[simp] theorem freezeSlots_dbg {l n} : (freezeSlots s l n).dbg = s.dbg := rfl
@[simp] theorem freezeSlots_fus {l n} : (freezeSlots s l n).fus = s.fus := rfl
@[simp] theorem freezeSlots_free {l n} : (freezeSlots s l n).free = s.free := rfl

/-! countInstr -/

@[simp] theorem countInstr_pending {th} : (countInstr s th).pending = s.pending := rfl
@[simp] theorem countInstr_tb {th} : (countInstr s th).tb = s.tb := rfl
@[simp] theorem countInstr_mem {th} : (countInstr s th).mem = s.mem := rfl
@[simp] theorem countInstr_banks {th} : (countInstr s th).banks = s.banks := rfl
@[simp] theorem countInstr_spindles {th} : (countInstr s th).spindles = s.spindles := rfl
@[simp] theorem countInstr_lathes {th} : (countInstr s th).lathes = s.lathes := rfl
@[simp] theorem countInstr_groups {th} : (countInstr s th).groups = s.groups := rfl
@[simp] theorem countInstr_nextGroup {th} : (countInstr s th).nextGroup = s.nextGroup := rfl
@[simp] theorem countInstr_scr {th} : (countInstr s th).scr = s.scr := rfl
@[simp] theorem countInstr_fab {th} : (countInstr s th).fab = s.fab := rfl
@[simp] theorem countInstr_evf {th} : (countInstr s th).evf = s.evf := rfl
@[simp] theorem countInstr_ts {th} : (countInstr s th).ts = s.ts := rfl
@[simp] theorem countInstr_jnl {th} : (countInstr s th).jnl = s.jnl := rfl
@[simp] theorem countInstr_hs {th} : (countInstr s th).hs = s.hs := rfl
@[simp] theorem countInstr_pci {th} : (countInstr s th).pci = s.pci := rfl
@[simp] theorem countInstr_wov {th} : (countInstr s th).wov = s.wov := rfl
@[simp] theorem countInstr_rst {th} : (countInstr s th).rst = s.rst := rfl
@[simp] theorem countInstr_pwr {th} : (countInstr s th).pwr = s.pwr := rfl
@[simp] theorem countInstr_dbg {th} : (countInstr s th).dbg = s.dbg := rfl
@[simp] theorem countInstr_fus {th} : (countInstr s th).fus = s.fus := rfl
@[simp] theorem countInstr_free {th} : (countInstr s th).free = s.free := rfl

/-! twoTurns -/

@[simp] theorem twoTurns_pending {th n} : (twoTurns s th n).pending = s.pending := by simp only [twoTurns]; split <;> rfl
@[simp] theorem twoTurns_tb {th n} : (twoTurns s th n).tb = s.tb := by simp only [twoTurns]; split <;> rfl
@[simp] theorem twoTurns_mem {th n} : (twoTurns s th n).mem = s.mem := by simp only [twoTurns]; split <;> rfl
@[simp] theorem twoTurns_banks {th n} : (twoTurns s th n).banks = s.banks := by simp only [twoTurns]; split <;> rfl
@[simp] theorem twoTurns_spindles {th n} : (twoTurns s th n).spindles = s.spindles := by simp only [twoTurns]; split <;> rfl
@[simp] theorem twoTurns_lathes {th n} : (twoTurns s th n).lathes = s.lathes := by simp only [twoTurns]; split <;> rfl
@[simp] theorem twoTurns_groups {th n} : (twoTurns s th n).groups = s.groups := by simp only [twoTurns]; split <;> rfl
@[simp] theorem twoTurns_nextGroup {th n} : (twoTurns s th n).nextGroup = s.nextGroup := by simp only [twoTurns]; split <;> rfl
@[simp] theorem twoTurns_scr {th n} : (twoTurns s th n).scr = s.scr := by simp only [twoTurns]; split <;> rfl
@[simp] theorem twoTurns_fab {th n} : (twoTurns s th n).fab = s.fab := by simp only [twoTurns]; split <;> rfl
@[simp] theorem twoTurns_evf {th n} : (twoTurns s th n).evf = s.evf := by simp only [twoTurns]; split <;> rfl
@[simp] theorem twoTurns_ts {th n} : (twoTurns s th n).ts = s.ts := by simp only [twoTurns]; split <;> rfl
@[simp] theorem twoTurns_jnl {th n} : (twoTurns s th n).jnl = s.jnl := by simp only [twoTurns]; split <;> rfl
@[simp] theorem twoTurns_hs {th n} : (twoTurns s th n).hs = s.hs := by simp only [twoTurns]; split <;> rfl
@[simp] theorem twoTurns_pci {th n} : (twoTurns s th n).pci = s.pci := by simp only [twoTurns]; split <;> rfl
@[simp] theorem twoTurns_wov {th n} : (twoTurns s th n).wov = s.wov := by simp only [twoTurns]; split <;> rfl
@[simp] theorem twoTurns_rst {th n} : (twoTurns s th n).rst = s.rst := by simp only [twoTurns]; split <;> rfl
@[simp] theorem twoTurns_pwr {th n} : (twoTurns s th n).pwr = s.pwr := by simp only [twoTurns]; split <;> rfl
@[simp] theorem twoTurns_dbg {th n} : (twoTurns s th n).dbg = s.dbg := by simp only [twoTurns]; split <;> rfl
@[simp] theorem twoTurns_fus {th n} : (twoTurns s th n).fus = s.fus := by simp only [twoTurns]; split <;> rfl
@[simp] theorem twoTurns_free {th n} : (twoTurns s th n).free = s.free := by simp only [twoTurns]; split <;> rfl

/-! entryTurns -/

@[simp] theorem entryTurns_pending {th} : (entryTurns s th).pending = s.pending := by simp only [entryTurns, twoTurns]; split <;> rfl
@[simp] theorem entryTurns_tb {th} : (entryTurns s th).tb = s.tb := by simp only [entryTurns, twoTurns]; split <;> rfl
@[simp] theorem entryTurns_mem {th} : (entryTurns s th).mem = s.mem := by simp only [entryTurns, twoTurns]; split <;> rfl
@[simp] theorem entryTurns_banks {th} : (entryTurns s th).banks = s.banks := by simp only [entryTurns, twoTurns]; split <;> rfl
@[simp] theorem entryTurns_spindles {th} : (entryTurns s th).spindles = s.spindles := by simp only [entryTurns, twoTurns]; split <;> rfl
@[simp] theorem entryTurns_lathes {th} : (entryTurns s th).lathes = s.lathes := by simp only [entryTurns, twoTurns]; split <;> rfl
@[simp] theorem entryTurns_groups {th} : (entryTurns s th).groups = s.groups := by simp only [entryTurns, twoTurns]; split <;> rfl
@[simp] theorem entryTurns_nextGroup {th} : (entryTurns s th).nextGroup = s.nextGroup := by simp only [entryTurns, twoTurns]; split <;> rfl
@[simp] theorem entryTurns_scr {th} : (entryTurns s th).scr = s.scr := by simp only [entryTurns, twoTurns]; split <;> rfl
@[simp] theorem entryTurns_fab {th} : (entryTurns s th).fab = s.fab := by simp only [entryTurns, twoTurns]; split <;> rfl
@[simp] theorem entryTurns_evf {th} : (entryTurns s th).evf = s.evf := by simp only [entryTurns, twoTurns]; split <;> rfl
@[simp] theorem entryTurns_ts {th} : (entryTurns s th).ts = s.ts := by simp only [entryTurns, twoTurns]; split <;> rfl
@[simp] theorem entryTurns_jnl {th} : (entryTurns s th).jnl = s.jnl := by simp only [entryTurns, twoTurns]; split <;> rfl
@[simp] theorem entryTurns_hs {th} : (entryTurns s th).hs = s.hs := by simp only [entryTurns, twoTurns]; split <;> rfl
@[simp] theorem entryTurns_pci {th} : (entryTurns s th).pci = s.pci := by simp only [entryTurns, twoTurns]; split <;> rfl
@[simp] theorem entryTurns_wov {th} : (entryTurns s th).wov = s.wov := by simp only [entryTurns, twoTurns]; split <;> rfl
@[simp] theorem entryTurns_rst {th} : (entryTurns s th).rst = s.rst := by simp only [entryTurns, twoTurns]; split <;> rfl
@[simp] theorem entryTurns_pwr {th} : (entryTurns s th).pwr = s.pwr := by simp only [entryTurns, twoTurns]; split <;> rfl
@[simp] theorem entryTurns_dbg {th} : (entryTurns s th).dbg = s.dbg := by simp only [entryTurns, twoTurns]; split <;> rfl
@[simp] theorem entryTurns_fus {th} : (entryTurns s th).fus = s.fus := by simp only [entryTurns, twoTurns]; split <;> rfl
@[simp] theorem entryTurns_free {th} : (entryTurns s th).free = s.free := by simp only [entryTurns, twoTurns]; split <;> rfl

end

/-! ## Registers of a thread -/

section
variable (t : Thread)

@[simp] theorem Thread.goto_g {a} : (Thread.goto t a).g = t.g := rfl
@[simp] theorem Thread.goto_f {a} : (Thread.goto t a).f = t.f := rfl
@[simp] theorem Thread.goto_d {a} : (Thread.goto t a).d = t.d := rfl
@[simp] theorem Thread.goto_ph {a} : (Thread.goto t a).ph = t.ph := rfl
@[simp] theorem Thread.goto_pl {a} : (Thread.goto t a).pl = t.pl := rfl
@[simp] theorem Thread.goto_vl {a} : (Thread.goto t a).vl = t.vl := rfl
@[simp] theorem Thread.goto_svl {a} : (Thread.goto t a).svl = t.svl := rfl
@[simp] theorem Thread.goto_pkr {a} : (Thread.goto t a).pkr = t.pkr := rfl
@[simp] theorem Thread.goto_level {a} : (Thread.goto t a).level = t.level := rfl
@[simp] theorem Thread.goto_ften {a} : (Thread.goto t a).ften = t.ften := rfl
@[simp] theorem Thread.goto_fpend {a} : (Thread.goto t a).fpend = t.fpend := rfl
@[simp] theorem Thread.goto_fflags {a} : (Thread.goto t a).fflags = t.fflags := rfl
@[simp] theorem Thread.goto_fpOut {a} : (Thread.goto t a).fpOut = t.fpOut := rfl
@[simp] theorem Thread.goto_trapReq {a} : (Thread.goto t a).trapReq = t.trapReq := rfl
@[simp] theorem Thread.goto_inup {a} : (Thread.goto t a).inup = t.inup := rfl
@[simp] theorem Thread.goto_uie {a} : (Thread.goto t a).uie = t.uie := rfl
@[simp] theorem Thread.goto_uentry {a} : (Thread.goto t a).uentry = t.uentry := rfl
@[simp] theorem Thread.goto_uep {a} : (Thread.goto t a).uep = t.uep := rfl
@[simp] theorem Thread.goto_uee {a} : (Thread.goto t a).uee = t.uee := rfl
@[simp] theorem Thread.goto_usplo {a} : (Thread.goto t a).usplo = t.usplo := rfl
@[simp] theorem Thread.goto_usphi {a} : (Thread.goto t a).usphi = t.usphi := rfl
@[simp] theorem Thread.goto_s {a} : (Thread.goto t a).s = t.s := rfl
@[simp] theorem Thread.goto_cause2 {a} : (Thread.goto t a).cause2 = t.cause2 := rfl
@[simp] theorem Thread.goto_m {a} : (Thread.goto t a).m = t.m := rfl
@[simp] theorem Thread.goto_mwdEn {a} : (Thread.goto t a).mwdEn = t.mwdEn := rfl
@[simp] theorem Thread.goto_mwdCount {a} : (Thread.goto t a).mwdCount = t.mwdCount := rfl
@[simp] theorem Thread.goto_mwdRun {a} : (Thread.goto t a).mwdRun = t.mwdRun := rfl
@[simp] theorem Thread.goto_mwdAsk {a} : (Thread.goto t a).mwdAsk = t.mwdAsk := rfl
@[simp] theorem Thread.goto_mwdJob {a} : (Thread.goto t a).mwdJob = t.mwdJob := rfl
@[simp] theorem Thread.goto_tctlEn {a} : (Thread.goto t a).tctlEn = t.tctlEn := rfl
@[simp] theorem Thread.goto_gran {a} : (Thread.goto t a).gran = t.gran := rfl
@[simp] theorem Thread.goto_root {a} : (Thread.goto t a).root = t.root := rfl
@[simp] theorem Thread.goto_asid {a} : (Thread.goto t a).asid = t.asid := rfl
@[simp] theorem Thread.goto_tfsr {a} : (Thread.goto t a).tfsr = t.tfsr := rfl
@[simp] theorem Thread.goto_products {a} : (Thread.goto t a).products = t.products := rfl
@[simp] theorem Thread.goto_tbh {a} : (Thread.goto t a).tbh = t.tbh := rfl
@[simp] theorem Thread.goto_started {a} : (Thread.goto t a).started = t.started := rfl
@[simp] theorem Thread.goto_waiting {a} : (Thread.goto t a).waiting = t.waiting := rfl
@[simp] theorem Thread.goto_hold {a} : (Thread.goto t a).hold = t.hold := rfl
@[simp] theorem Thread.goto_loads {a} : (Thread.goto t a).loads = t.loads := rfl
@[simp] theorem Thread.goto_fencedAt {a} : (Thread.goto t a).fencedAt = t.fencedAt := rfl
@[simp] theorem Thread.goto_accNum {a} : (Thread.goto t a).accNum = t.accNum := rfl
@[simp] theorem Thread.goto_dead {a} : (Thread.goto t a).dead = t.dead := rfl
@[simp] theorem Thread.goto_lat {a} : (Thread.goto t a).lat = t.lat := rfl
@[simp] theorem Thread.goto_busy {a} : (Thread.goto t a).busy = t.busy := rfl
@[simp] theorem Thread.goto_askTicks {a} : (Thread.goto t a).askTicks = t.askTicks := rfl
@[simp] theorem Thread.goto_groupNum {a} : (Thread.goto t a).groupNum = t.groupNum := rfl
@[simp] theorem Thread.goto_openGrp {a} : (Thread.goto t a).openGrp = t.openGrp := rfl
@[simp] theorem Thread.goto_suspended {a} : (Thread.goto t a).suspended = t.suspended := rfl
@[simp] theorem Thread.goto_halted {a} : (Thread.goto t a).halted = t.halted := rfl
@[simp] theorem Thread.goto_haltReq {a} : (Thread.goto t a).haltReq = t.haltReq := rfl
@[simp] theorem Thread.tickProducts_g : (Thread.tickProducts t).g = t.g := rfl
@[simp] theorem Thread.tickProducts_f : (Thread.tickProducts t).f = t.f := rfl
@[simp] theorem Thread.tickProducts_d : (Thread.tickProducts t).d = t.d := rfl
@[simp] theorem Thread.tickProducts_ph : (Thread.tickProducts t).ph = t.ph := rfl
@[simp] theorem Thread.tickProducts_pl : (Thread.tickProducts t).pl = t.pl := rfl
@[simp] theorem Thread.tickProducts_vl : (Thread.tickProducts t).vl = t.vl := rfl
@[simp] theorem Thread.tickProducts_svl : (Thread.tickProducts t).svl = t.svl := rfl
@[simp] theorem Thread.tickProducts_pkr : (Thread.tickProducts t).pkr = t.pkr := rfl
@[simp] theorem Thread.tickProducts_pc : (Thread.tickProducts t).pc = t.pc := rfl
@[simp] theorem Thread.tickProducts_level : (Thread.tickProducts t).level = t.level := rfl
@[simp] theorem Thread.tickProducts_ften : (Thread.tickProducts t).ften = t.ften := rfl
@[simp] theorem Thread.tickProducts_fpend : (Thread.tickProducts t).fpend = t.fpend := rfl
@[simp] theorem Thread.tickProducts_fflags : (Thread.tickProducts t).fflags = t.fflags := rfl
@[simp] theorem Thread.tickProducts_fpOut : (Thread.tickProducts t).fpOut = t.fpOut := rfl
@[simp] theorem Thread.tickProducts_trapReq : (Thread.tickProducts t).trapReq = t.trapReq := rfl
@[simp] theorem Thread.tickProducts_inup : (Thread.tickProducts t).inup = t.inup := rfl
@[simp] theorem Thread.tickProducts_uie : (Thread.tickProducts t).uie = t.uie := rfl
@[simp] theorem Thread.tickProducts_uentry : (Thread.tickProducts t).uentry = t.uentry := rfl
@[simp] theorem Thread.tickProducts_uep : (Thread.tickProducts t).uep = t.uep := rfl
@[simp] theorem Thread.tickProducts_uee : (Thread.tickProducts t).uee = t.uee := rfl
@[simp] theorem Thread.tickProducts_usplo : (Thread.tickProducts t).usplo = t.usplo := rfl
@[simp] theorem Thread.tickProducts_usphi : (Thread.tickProducts t).usphi = t.usphi := rfl
@[simp] theorem Thread.tickProducts_s : (Thread.tickProducts t).s = t.s := rfl
@[simp] theorem Thread.tickProducts_cause2 : (Thread.tickProducts t).cause2 = t.cause2 := rfl
@[simp] theorem Thread.tickProducts_m : (Thread.tickProducts t).m = t.m := rfl
@[simp] theorem Thread.tickProducts_mwdEn : (Thread.tickProducts t).mwdEn = t.mwdEn := rfl
@[simp] theorem Thread.tickProducts_mwdCount : (Thread.tickProducts t).mwdCount = t.mwdCount := rfl
@[simp] theorem Thread.tickProducts_mwdRun : (Thread.tickProducts t).mwdRun = t.mwdRun := rfl
@[simp] theorem Thread.tickProducts_mwdAsk : (Thread.tickProducts t).mwdAsk = t.mwdAsk := rfl
@[simp] theorem Thread.tickProducts_mwdJob : (Thread.tickProducts t).mwdJob = t.mwdJob := rfl
@[simp] theorem Thread.tickProducts_tctlEn : (Thread.tickProducts t).tctlEn = t.tctlEn := rfl
@[simp] theorem Thread.tickProducts_gran : (Thread.tickProducts t).gran = t.gran := rfl
@[simp] theorem Thread.tickProducts_root : (Thread.tickProducts t).root = t.root := rfl
@[simp] theorem Thread.tickProducts_asid : (Thread.tickProducts t).asid = t.asid := rfl
@[simp] theorem Thread.tickProducts_tfsr : (Thread.tickProducts t).tfsr = t.tfsr := rfl
@[simp] theorem Thread.tickProducts_tbh : (Thread.tickProducts t).tbh = t.tbh := rfl
@[simp] theorem Thread.tickProducts_started : (Thread.tickProducts t).started = t.started := rfl
@[simp] theorem Thread.tickProducts_fetched : (Thread.tickProducts t).fetched = t.fetched := rfl
@[simp] theorem Thread.tickProducts_checked : (Thread.tickProducts t).checked = t.checked := rfl
@[simp] theorem Thread.tickProducts_waiting : (Thread.tickProducts t).waiting = t.waiting := rfl
@[simp] theorem Thread.tickProducts_hold : (Thread.tickProducts t).hold = t.hold := rfl
@[simp] theorem Thread.tickProducts_loads : (Thread.tickProducts t).loads = t.loads := rfl
@[simp] theorem Thread.tickProducts_fencedAt : (Thread.tickProducts t).fencedAt = t.fencedAt := rfl
@[simp] theorem Thread.tickProducts_fetchPend : (Thread.tickProducts t).fetchPend = t.fetchPend := rfl
@[simp] theorem Thread.tickProducts_accNum : (Thread.tickProducts t).accNum = t.accNum := rfl
@[simp] theorem Thread.tickProducts_dead : (Thread.tickProducts t).dead = t.dead := rfl
@[simp] theorem Thread.tickProducts_lat : (Thread.tickProducts t).lat = t.lat := rfl
@[simp] theorem Thread.tickProducts_busy : (Thread.tickProducts t).busy = t.busy := rfl
@[simp] theorem Thread.tickProducts_askTicks : (Thread.tickProducts t).askTicks = t.askTicks := rfl
@[simp] theorem Thread.tickProducts_groupNum : (Thread.tickProducts t).groupNum = t.groupNum := rfl
@[simp] theorem Thread.tickProducts_openGrp : (Thread.tickProducts t).openGrp = t.openGrp := rfl
@[simp] theorem Thread.tickProducts_suspended : (Thread.tickProducts t).suspended = t.suspended := rfl
@[simp] theorem Thread.tickProducts_halted : (Thread.tickProducts t).halted = t.halted := rfl
@[simp] theorem Thread.tickProducts_haltReq : (Thread.tickProducts t).haltReq = t.haltReq := rfl
@[simp] theorem Thread.wf_g {r v} : (Thread.wf t r v).g = t.g := rfl
@[simp] theorem Thread.wf_d {r v} : (Thread.wf t r v).d = t.d := rfl
@[simp] theorem Thread.wf_ph {r v} : (Thread.wf t r v).ph = t.ph := rfl
@[simp] theorem Thread.wf_pl {r v} : (Thread.wf t r v).pl = t.pl := rfl
@[simp] theorem Thread.wf_vl {r v} : (Thread.wf t r v).vl = t.vl := rfl
@[simp] theorem Thread.wf_svl {r v} : (Thread.wf t r v).svl = t.svl := rfl
@[simp] theorem Thread.wf_pkr {r v} : (Thread.wf t r v).pkr = t.pkr := rfl
@[simp] theorem Thread.wf_pc {r v} : (Thread.wf t r v).pc = t.pc := rfl
@[simp] theorem Thread.wf_level {r v} : (Thread.wf t r v).level = t.level := rfl
@[simp] theorem Thread.wf_ften {r v} : (Thread.wf t r v).ften = t.ften := rfl
@[simp] theorem Thread.wf_fpend {r v} : (Thread.wf t r v).fpend = t.fpend := rfl
@[simp] theorem Thread.wf_fflags {r v} : (Thread.wf t r v).fflags = t.fflags := rfl
@[simp] theorem Thread.wf_fpOut {r v} : (Thread.wf t r v).fpOut = t.fpOut := rfl
@[simp] theorem Thread.wf_trapReq {r v} : (Thread.wf t r v).trapReq = t.trapReq := rfl
@[simp] theorem Thread.wf_inup {r v} : (Thread.wf t r v).inup = t.inup := rfl
@[simp] theorem Thread.wf_uie {r v} : (Thread.wf t r v).uie = t.uie := rfl
@[simp] theorem Thread.wf_uentry {r v} : (Thread.wf t r v).uentry = t.uentry := rfl
@[simp] theorem Thread.wf_uep {r v} : (Thread.wf t r v).uep = t.uep := rfl
@[simp] theorem Thread.wf_uee {r v} : (Thread.wf t r v).uee = t.uee := rfl
@[simp] theorem Thread.wf_usplo {r v} : (Thread.wf t r v).usplo = t.usplo := rfl
@[simp] theorem Thread.wf_usphi {r v} : (Thread.wf t r v).usphi = t.usphi := rfl
@[simp] theorem Thread.wf_s {r v} : (Thread.wf t r v).s = t.s := rfl
@[simp] theorem Thread.wf_cause2 {r v} : (Thread.wf t r v).cause2 = t.cause2 := rfl
@[simp] theorem Thread.wf_m {r v} : (Thread.wf t r v).m = t.m := rfl
@[simp] theorem Thread.wf_mwdEn {r v} : (Thread.wf t r v).mwdEn = t.mwdEn := rfl
@[simp] theorem Thread.wf_mwdCount {r v} : (Thread.wf t r v).mwdCount = t.mwdCount := rfl
@[simp] theorem Thread.wf_mwdRun {r v} : (Thread.wf t r v).mwdRun = t.mwdRun := rfl
@[simp] theorem Thread.wf_mwdAsk {r v} : (Thread.wf t r v).mwdAsk = t.mwdAsk := rfl
@[simp] theorem Thread.wf_mwdJob {r v} : (Thread.wf t r v).mwdJob = t.mwdJob := rfl
@[simp] theorem Thread.wf_tctlEn {r v} : (Thread.wf t r v).tctlEn = t.tctlEn := rfl
@[simp] theorem Thread.wf_gran {r v} : (Thread.wf t r v).gran = t.gran := rfl
@[simp] theorem Thread.wf_root {r v} : (Thread.wf t r v).root = t.root := rfl
@[simp] theorem Thread.wf_asid {r v} : (Thread.wf t r v).asid = t.asid := rfl
@[simp] theorem Thread.wf_tfsr {r v} : (Thread.wf t r v).tfsr = t.tfsr := rfl
@[simp] theorem Thread.wf_products {r v} : (Thread.wf t r v).products = t.products := rfl
@[simp] theorem Thread.wf_tbh {r v} : (Thread.wf t r v).tbh = t.tbh := rfl
@[simp] theorem Thread.wf_started {r v} : (Thread.wf t r v).started = t.started := rfl
@[simp] theorem Thread.wf_fetched {r v} : (Thread.wf t r v).fetched = t.fetched := rfl
@[simp] theorem Thread.wf_checked {r v} : (Thread.wf t r v).checked = t.checked := rfl
@[simp] theorem Thread.wf_waiting {r v} : (Thread.wf t r v).waiting = t.waiting := rfl
@[simp] theorem Thread.wf_hold {r v} : (Thread.wf t r v).hold = t.hold := rfl
@[simp] theorem Thread.wf_loads {r v} : (Thread.wf t r v).loads = t.loads := rfl
@[simp] theorem Thread.wf_fencedAt {r v} : (Thread.wf t r v).fencedAt = t.fencedAt := rfl
@[simp] theorem Thread.wf_fetchPend {r v} : (Thread.wf t r v).fetchPend = t.fetchPend := rfl
@[simp] theorem Thread.wf_accNum {r v} : (Thread.wf t r v).accNum = t.accNum := rfl
@[simp] theorem Thread.wf_dead {r v} : (Thread.wf t r v).dead = t.dead := rfl
@[simp] theorem Thread.wf_lat {r v} : (Thread.wf t r v).lat = t.lat := rfl
@[simp] theorem Thread.wf_busy {r v} : (Thread.wf t r v).busy = t.busy := rfl
@[simp] theorem Thread.wf_askTicks {r v} : (Thread.wf t r v).askTicks = t.askTicks := rfl
@[simp] theorem Thread.wf_groupNum {r v} : (Thread.wf t r v).groupNum = t.groupNum := rfl
@[simp] theorem Thread.wf_openGrp {r v} : (Thread.wf t r v).openGrp = t.openGrp := rfl
@[simp] theorem Thread.wf_suspended {r v} : (Thread.wf t r v).suspended = t.suspended := rfl
@[simp] theorem Thread.wf_halted {r v} : (Thread.wf t r v).halted = t.halted := rfl
@[simp] theorem Thread.wf_haltReq {r v} : (Thread.wf t r v).haltReq = t.haltReq := rfl
@[simp] theorem Thread.wd_g {r v} : (Thread.wd t r v).g = t.g := rfl
@[simp] theorem Thread.wd_f {r v} : (Thread.wd t r v).f = t.f := rfl
@[simp] theorem Thread.wd_ph {r v} : (Thread.wd t r v).ph = t.ph := rfl
@[simp] theorem Thread.wd_pl {r v} : (Thread.wd t r v).pl = t.pl := rfl
@[simp] theorem Thread.wd_vl {r v} : (Thread.wd t r v).vl = t.vl := rfl
@[simp] theorem Thread.wd_svl {r v} : (Thread.wd t r v).svl = t.svl := rfl
@[simp] theorem Thread.wd_pkr {r v} : (Thread.wd t r v).pkr = t.pkr := rfl
@[simp] theorem Thread.wd_pc {r v} : (Thread.wd t r v).pc = t.pc := rfl
@[simp] theorem Thread.wd_level {r v} : (Thread.wd t r v).level = t.level := rfl
@[simp] theorem Thread.wd_ften {r v} : (Thread.wd t r v).ften = t.ften := rfl
@[simp] theorem Thread.wd_fpend {r v} : (Thread.wd t r v).fpend = t.fpend := rfl
@[simp] theorem Thread.wd_fflags {r v} : (Thread.wd t r v).fflags = t.fflags := rfl
@[simp] theorem Thread.wd_fpOut {r v} : (Thread.wd t r v).fpOut = t.fpOut := rfl
@[simp] theorem Thread.wd_trapReq {r v} : (Thread.wd t r v).trapReq = t.trapReq := rfl
@[simp] theorem Thread.wd_inup {r v} : (Thread.wd t r v).inup = t.inup := rfl
@[simp] theorem Thread.wd_uie {r v} : (Thread.wd t r v).uie = t.uie := rfl
@[simp] theorem Thread.wd_uentry {r v} : (Thread.wd t r v).uentry = t.uentry := rfl
@[simp] theorem Thread.wd_uep {r v} : (Thread.wd t r v).uep = t.uep := rfl
@[simp] theorem Thread.wd_uee {r v} : (Thread.wd t r v).uee = t.uee := rfl
@[simp] theorem Thread.wd_usplo {r v} : (Thread.wd t r v).usplo = t.usplo := rfl
@[simp] theorem Thread.wd_usphi {r v} : (Thread.wd t r v).usphi = t.usphi := rfl
@[simp] theorem Thread.wd_s {r v} : (Thread.wd t r v).s = t.s := rfl
@[simp] theorem Thread.wd_cause2 {r v} : (Thread.wd t r v).cause2 = t.cause2 := rfl
@[simp] theorem Thread.wd_m {r v} : (Thread.wd t r v).m = t.m := rfl
@[simp] theorem Thread.wd_mwdEn {r v} : (Thread.wd t r v).mwdEn = t.mwdEn := rfl
@[simp] theorem Thread.wd_mwdCount {r v} : (Thread.wd t r v).mwdCount = t.mwdCount := rfl
@[simp] theorem Thread.wd_mwdRun {r v} : (Thread.wd t r v).mwdRun = t.mwdRun := rfl
@[simp] theorem Thread.wd_mwdAsk {r v} : (Thread.wd t r v).mwdAsk = t.mwdAsk := rfl
@[simp] theorem Thread.wd_mwdJob {r v} : (Thread.wd t r v).mwdJob = t.mwdJob := rfl
@[simp] theorem Thread.wd_tctlEn {r v} : (Thread.wd t r v).tctlEn = t.tctlEn := rfl
@[simp] theorem Thread.wd_gran {r v} : (Thread.wd t r v).gran = t.gran := rfl
@[simp] theorem Thread.wd_root {r v} : (Thread.wd t r v).root = t.root := rfl
@[simp] theorem Thread.wd_asid {r v} : (Thread.wd t r v).asid = t.asid := rfl
@[simp] theorem Thread.wd_tfsr {r v} : (Thread.wd t r v).tfsr = t.tfsr := rfl
@[simp] theorem Thread.wd_products {r v} : (Thread.wd t r v).products = t.products := rfl
@[simp] theorem Thread.wd_tbh {r v} : (Thread.wd t r v).tbh = t.tbh := rfl
@[simp] theorem Thread.wd_started {r v} : (Thread.wd t r v).started = t.started := rfl
@[simp] theorem Thread.wd_fetched {r v} : (Thread.wd t r v).fetched = t.fetched := rfl
@[simp] theorem Thread.wd_checked {r v} : (Thread.wd t r v).checked = t.checked := rfl
@[simp] theorem Thread.wd_waiting {r v} : (Thread.wd t r v).waiting = t.waiting := rfl
@[simp] theorem Thread.wd_hold {r v} : (Thread.wd t r v).hold = t.hold := rfl
@[simp] theorem Thread.wd_loads {r v} : (Thread.wd t r v).loads = t.loads := rfl
@[simp] theorem Thread.wd_fencedAt {r v} : (Thread.wd t r v).fencedAt = t.fencedAt := rfl
@[simp] theorem Thread.wd_fetchPend {r v} : (Thread.wd t r v).fetchPend = t.fetchPend := rfl
@[simp] theorem Thread.wd_accNum {r v} : (Thread.wd t r v).accNum = t.accNum := rfl
@[simp] theorem Thread.wd_dead {r v} : (Thread.wd t r v).dead = t.dead := rfl
@[simp] theorem Thread.wd_lat {r v} : (Thread.wd t r v).lat = t.lat := rfl
@[simp] theorem Thread.wd_busy {r v} : (Thread.wd t r v).busy = t.busy := rfl
@[simp] theorem Thread.wd_askTicks {r v} : (Thread.wd t r v).askTicks = t.askTicks := rfl
@[simp] theorem Thread.wd_groupNum {r v} : (Thread.wd t r v).groupNum = t.groupNum := rfl
@[simp] theorem Thread.wd_openGrp {r v} : (Thread.wd t r v).openGrp = t.openGrp := rfl
@[simp] theorem Thread.wd_suspended {r v} : (Thread.wd t r v).suspended = t.suspended := rfl
@[simp] theorem Thread.wd_halted {r v} : (Thread.wd t r v).halted = t.halted := rfl
@[simp] theorem Thread.wd_haltReq {r v} : (Thread.wd t r v).haltReq = t.haltReq := rfl
@[simp] theorem Thread.usable_g {r n} : (Thread.usable t r n).g = t.g := rfl
@[simp] theorem Thread.usable_f {r n} : (Thread.usable t r n).f = t.f := rfl
@[simp] theorem Thread.usable_d {r n} : (Thread.usable t r n).d = t.d := rfl
@[simp] theorem Thread.usable_ph {r n} : (Thread.usable t r n).ph = t.ph := rfl
@[simp] theorem Thread.usable_pl {r n} : (Thread.usable t r n).pl = t.pl := rfl
@[simp] theorem Thread.usable_vl {r n} : (Thread.usable t r n).vl = t.vl := rfl
@[simp] theorem Thread.usable_svl {r n} : (Thread.usable t r n).svl = t.svl := rfl
@[simp] theorem Thread.usable_pkr {r n} : (Thread.usable t r n).pkr = t.pkr := rfl
@[simp] theorem Thread.usable_pc {r n} : (Thread.usable t r n).pc = t.pc := rfl
@[simp] theorem Thread.usable_level {r n} : (Thread.usable t r n).level = t.level := rfl
@[simp] theorem Thread.usable_ften {r n} : (Thread.usable t r n).ften = t.ften := rfl
@[simp] theorem Thread.usable_fpend {r n} : (Thread.usable t r n).fpend = t.fpend := rfl
@[simp] theorem Thread.usable_fflags {r n} : (Thread.usable t r n).fflags = t.fflags := rfl
@[simp] theorem Thread.usable_fpOut {r n} : (Thread.usable t r n).fpOut = t.fpOut := rfl
@[simp] theorem Thread.usable_trapReq {r n} : (Thread.usable t r n).trapReq = t.trapReq := rfl
@[simp] theorem Thread.usable_inup {r n} : (Thread.usable t r n).inup = t.inup := rfl
@[simp] theorem Thread.usable_uie {r n} : (Thread.usable t r n).uie = t.uie := rfl
@[simp] theorem Thread.usable_uentry {r n} : (Thread.usable t r n).uentry = t.uentry := rfl
@[simp] theorem Thread.usable_uep {r n} : (Thread.usable t r n).uep = t.uep := rfl
@[simp] theorem Thread.usable_uee {r n} : (Thread.usable t r n).uee = t.uee := rfl
@[simp] theorem Thread.usable_usplo {r n} : (Thread.usable t r n).usplo = t.usplo := rfl
@[simp] theorem Thread.usable_usphi {r n} : (Thread.usable t r n).usphi = t.usphi := rfl
@[simp] theorem Thread.usable_s {r n} : (Thread.usable t r n).s = t.s := rfl
@[simp] theorem Thread.usable_cause2 {r n} : (Thread.usable t r n).cause2 = t.cause2 := rfl
@[simp] theorem Thread.usable_m {r n} : (Thread.usable t r n).m = t.m := rfl
@[simp] theorem Thread.usable_mwdEn {r n} : (Thread.usable t r n).mwdEn = t.mwdEn := rfl
@[simp] theorem Thread.usable_mwdCount {r n} : (Thread.usable t r n).mwdCount = t.mwdCount := rfl
@[simp] theorem Thread.usable_mwdRun {r n} : (Thread.usable t r n).mwdRun = t.mwdRun := rfl
@[simp] theorem Thread.usable_mwdAsk {r n} : (Thread.usable t r n).mwdAsk = t.mwdAsk := rfl
@[simp] theorem Thread.usable_mwdJob {r n} : (Thread.usable t r n).mwdJob = t.mwdJob := rfl
@[simp] theorem Thread.usable_tctlEn {r n} : (Thread.usable t r n).tctlEn = t.tctlEn := rfl
@[simp] theorem Thread.usable_gran {r n} : (Thread.usable t r n).gran = t.gran := rfl
@[simp] theorem Thread.usable_root {r n} : (Thread.usable t r n).root = t.root := rfl
@[simp] theorem Thread.usable_asid {r n} : (Thread.usable t r n).asid = t.asid := rfl
@[simp] theorem Thread.usable_tfsr {r n} : (Thread.usable t r n).tfsr = t.tfsr := rfl
@[simp] theorem Thread.usable_products {r n} : (Thread.usable t r n).products = t.products := rfl
@[simp] theorem Thread.usable_tbh {r n} : (Thread.usable t r n).tbh = t.tbh := rfl
@[simp] theorem Thread.usable_started {r n} : (Thread.usable t r n).started = t.started := rfl
@[simp] theorem Thread.usable_fetched {r n} : (Thread.usable t r n).fetched = t.fetched := rfl
@[simp] theorem Thread.usable_checked {r n} : (Thread.usable t r n).checked = t.checked := rfl
@[simp] theorem Thread.usable_waiting {r n} : (Thread.usable t r n).waiting = t.waiting := rfl
@[simp] theorem Thread.usable_hold {r n} : (Thread.usable t r n).hold = t.hold := rfl
@[simp] theorem Thread.usable_loads {r n} : (Thread.usable t r n).loads = t.loads := rfl
@[simp] theorem Thread.usable_fencedAt {r n} : (Thread.usable t r n).fencedAt = t.fencedAt := rfl
@[simp] theorem Thread.usable_fetchPend {r n} : (Thread.usable t r n).fetchPend = t.fetchPend := rfl
@[simp] theorem Thread.usable_accNum {r n} : (Thread.usable t r n).accNum = t.accNum := rfl
@[simp] theorem Thread.usable_dead {r n} : (Thread.usable t r n).dead = t.dead := rfl
@[simp] theorem Thread.usable_busy {r n} : (Thread.usable t r n).busy = t.busy := rfl
@[simp] theorem Thread.usable_askTicks {r n} : (Thread.usable t r n).askTicks = t.askTicks := rfl
@[simp] theorem Thread.usable_groupNum {r n} : (Thread.usable t r n).groupNum = t.groupNum := rfl
@[simp] theorem Thread.usable_openGrp {r n} : (Thread.usable t r n).openGrp = t.openGrp := rfl
@[simp] theorem Thread.usable_suspended {r n} : (Thread.usable t r n).suspended = t.suspended := rfl
@[simp] theorem Thread.usable_halted {r n} : (Thread.usable t r n).halted = t.halted := rfl
@[simp] theorem Thread.usable_haltReq {r n} : (Thread.usable t r n).haltReq = t.haltReq := rfl
@[simp] theorem Thread.goto_pc {a} : (t.goto a).pc = a := rfl
@[simp] theorem Thread.goto_fetched {a} : (t.goto a).fetched = [] := rfl
@[simp] theorem Thread.goto_checked {a} : (t.goto a).checked = false := rfl
@[simp] theorem Thread.wg_f {r v} : (Thread.wg t r v).f = t.f := by unfold Thread.wg; split <;> rfl
@[simp] theorem Thread.wg_d {r v} : (Thread.wg t r v).d = t.d := by unfold Thread.wg; split <;> rfl
@[simp] theorem Thread.wg_ph {r v} : (Thread.wg t r v).ph = t.ph := by unfold Thread.wg; split <;> rfl
@[simp] theorem Thread.wg_pl {r v} : (Thread.wg t r v).pl = t.pl := by unfold Thread.wg; split <;> rfl
@[simp] theorem Thread.wg_vl {r v} : (Thread.wg t r v).vl = t.vl := by unfold Thread.wg; split <;> rfl
@[simp] theorem Thread.wg_svl {r v} : (Thread.wg t r v).svl = t.svl := by unfold Thread.wg; split <;> rfl
@[simp] theorem Thread.wg_pkr {r v} : (Thread.wg t r v).pkr = t.pkr := by unfold Thread.wg; split <;> rfl
@[simp] theorem Thread.wg_pc {r v} : (Thread.wg t r v).pc = t.pc := by unfold Thread.wg; split <;> rfl
@[simp] theorem Thread.wg_level {r v} : (Thread.wg t r v).level = t.level := by unfold Thread.wg; split <;> rfl
@[simp] theorem Thread.wg_ften {r v} : (Thread.wg t r v).ften = t.ften := by unfold Thread.wg; split <;> rfl
@[simp] theorem Thread.wg_fpend {r v} : (Thread.wg t r v).fpend = t.fpend := by unfold Thread.wg; split <;> rfl
@[simp] theorem Thread.wg_fflags {r v} : (Thread.wg t r v).fflags = t.fflags := by unfold Thread.wg; split <;> rfl
@[simp] theorem Thread.wg_fpOut {r v} : (Thread.wg t r v).fpOut = t.fpOut := by unfold Thread.wg; split <;> rfl
@[simp] theorem Thread.wg_trapReq {r v} : (Thread.wg t r v).trapReq = t.trapReq := by unfold Thread.wg; split <;> rfl
@[simp] theorem Thread.wg_inup {r v} : (Thread.wg t r v).inup = t.inup := by unfold Thread.wg; split <;> rfl
@[simp] theorem Thread.wg_uie {r v} : (Thread.wg t r v).uie = t.uie := by unfold Thread.wg; split <;> rfl
@[simp] theorem Thread.wg_uentry {r v} : (Thread.wg t r v).uentry = t.uentry := by unfold Thread.wg; split <;> rfl
@[simp] theorem Thread.wg_uep {r v} : (Thread.wg t r v).uep = t.uep := by unfold Thread.wg; split <;> rfl
@[simp] theorem Thread.wg_uee {r v} : (Thread.wg t r v).uee = t.uee := by unfold Thread.wg; split <;> rfl
@[simp] theorem Thread.wg_usplo {r v} : (Thread.wg t r v).usplo = t.usplo := by unfold Thread.wg; split <;> rfl
@[simp] theorem Thread.wg_usphi {r v} : (Thread.wg t r v).usphi = t.usphi := by unfold Thread.wg; split <;> rfl
@[simp] theorem Thread.wg_s {r v} : (Thread.wg t r v).s = t.s := by unfold Thread.wg; split <;> rfl
@[simp] theorem Thread.wg_cause2 {r v} : (Thread.wg t r v).cause2 = t.cause2 := by unfold Thread.wg; split <;> rfl
@[simp] theorem Thread.wg_m {r v} : (Thread.wg t r v).m = t.m := by unfold Thread.wg; split <;> rfl
@[simp] theorem Thread.wg_mwdEn {r v} : (Thread.wg t r v).mwdEn = t.mwdEn := by unfold Thread.wg; split <;> rfl
@[simp] theorem Thread.wg_mwdCount {r v} : (Thread.wg t r v).mwdCount = t.mwdCount := by unfold Thread.wg; split <;> rfl
@[simp] theorem Thread.wg_mwdRun {r v} : (Thread.wg t r v).mwdRun = t.mwdRun := by unfold Thread.wg; split <;> rfl
@[simp] theorem Thread.wg_mwdAsk {r v} : (Thread.wg t r v).mwdAsk = t.mwdAsk := by unfold Thread.wg; split <;> rfl
@[simp] theorem Thread.wg_mwdJob {r v} : (Thread.wg t r v).mwdJob = t.mwdJob := by unfold Thread.wg; split <;> rfl
@[simp] theorem Thread.wg_tctlEn {r v} : (Thread.wg t r v).tctlEn = t.tctlEn := by unfold Thread.wg; split <;> rfl
@[simp] theorem Thread.wg_gran {r v} : (Thread.wg t r v).gran = t.gran := by unfold Thread.wg; split <;> rfl
@[simp] theorem Thread.wg_root {r v} : (Thread.wg t r v).root = t.root := by unfold Thread.wg; split <;> rfl
@[simp] theorem Thread.wg_asid {r v} : (Thread.wg t r v).asid = t.asid := by unfold Thread.wg; split <;> rfl
@[simp] theorem Thread.wg_tfsr {r v} : (Thread.wg t r v).tfsr = t.tfsr := by unfold Thread.wg; split <;> rfl
@[simp] theorem Thread.wg_products {r v} : (Thread.wg t r v).products = t.products := by unfold Thread.wg; split <;> rfl
@[simp] theorem Thread.wg_tbh {r v} : (Thread.wg t r v).tbh = t.tbh := by unfold Thread.wg; split <;> rfl
@[simp] theorem Thread.wg_started {r v} : (Thread.wg t r v).started = t.started := by unfold Thread.wg; split <;> rfl
@[simp] theorem Thread.wg_fetched {r v} : (Thread.wg t r v).fetched = t.fetched := by unfold Thread.wg; split <;> rfl
@[simp] theorem Thread.wg_checked {r v} : (Thread.wg t r v).checked = t.checked := by unfold Thread.wg; split <;> rfl
@[simp] theorem Thread.wg_waiting {r v} : (Thread.wg t r v).waiting = t.waiting := by unfold Thread.wg; split <;> rfl
@[simp] theorem Thread.wg_hold {r v} : (Thread.wg t r v).hold = t.hold := by unfold Thread.wg; split <;> rfl
@[simp] theorem Thread.wg_loads {r v} : (Thread.wg t r v).loads = t.loads := by unfold Thread.wg; split <;> rfl
@[simp] theorem Thread.wg_fencedAt {r v} : (Thread.wg t r v).fencedAt = t.fencedAt := by unfold Thread.wg; split <;> rfl
@[simp] theorem Thread.wg_fetchPend {r v} : (Thread.wg t r v).fetchPend = t.fetchPend := by unfold Thread.wg; split <;> rfl
@[simp] theorem Thread.wg_accNum {r v} : (Thread.wg t r v).accNum = t.accNum := by unfold Thread.wg; split <;> rfl
@[simp] theorem Thread.wg_dead {r v} : (Thread.wg t r v).dead = t.dead := by unfold Thread.wg; split <;> rfl
@[simp] theorem Thread.wg_lat {r v} : (Thread.wg t r v).lat = t.lat := by unfold Thread.wg; split <;> rfl
@[simp] theorem Thread.wg_busy {r v} : (Thread.wg t r v).busy = t.busy := by unfold Thread.wg; split <;> rfl
@[simp] theorem Thread.wg_askTicks {r v} : (Thread.wg t r v).askTicks = t.askTicks := by unfold Thread.wg; split <;> rfl
@[simp] theorem Thread.wg_groupNum {r v} : (Thread.wg t r v).groupNum = t.groupNum := by unfold Thread.wg; split <;> rfl
@[simp] theorem Thread.wg_openGrp {r v} : (Thread.wg t r v).openGrp = t.openGrp := by unfold Thread.wg; split <;> rfl
@[simp] theorem Thread.wg_suspended {r v} : (Thread.wg t r v).suspended = t.suspended := by unfold Thread.wg; split <;> rfl
@[simp] theorem Thread.wg_halted {r v} : (Thread.wg t r v).halted = t.halted := by unfold Thread.wg; split <;> rfl
@[simp] theorem Thread.wg_haltReq {r v} : (Thread.wg t r v).haltReq = t.haltReq := by unfold Thread.wg; split <;> rfl
@[simp] theorem Thread.follow_g {a} : (Thread.follow t a).g = t.g := by unfold Thread.follow; split; rfl; split <;> rfl
@[simp] theorem Thread.follow_f {a} : (Thread.follow t a).f = t.f := by unfold Thread.follow; split; rfl; split <;> rfl
@[simp] theorem Thread.follow_d {a} : (Thread.follow t a).d = t.d := by unfold Thread.follow; split; rfl; split <;> rfl
@[simp] theorem Thread.follow_ph {a} : (Thread.follow t a).ph = t.ph := by unfold Thread.follow; split; rfl; split <;> rfl
@[simp] theorem Thread.follow_pl {a} : (Thread.follow t a).pl = t.pl := by unfold Thread.follow; split; rfl; split <;> rfl
@[simp] theorem Thread.follow_vl {a} : (Thread.follow t a).vl = t.vl := by unfold Thread.follow; split; rfl; split <;> rfl
@[simp] theorem Thread.follow_svl {a} : (Thread.follow t a).svl = t.svl := by unfold Thread.follow; split; rfl; split <;> rfl
@[simp] theorem Thread.follow_pkr {a} : (Thread.follow t a).pkr = t.pkr := by unfold Thread.follow; split; rfl; split <;> rfl
@[simp] theorem Thread.follow_level {a} : (Thread.follow t a).level = t.level := by unfold Thread.follow; split; rfl; split <;> rfl
@[simp] theorem Thread.follow_ften {a} : (Thread.follow t a).ften = t.ften := by unfold Thread.follow; split; rfl; split <;> rfl
@[simp] theorem Thread.follow_fpend {a} : (Thread.follow t a).fpend = t.fpend := by unfold Thread.follow; split; rfl; split <;> rfl
@[simp] theorem Thread.follow_fflags {a} : (Thread.follow t a).fflags = t.fflags := by unfold Thread.follow; split; rfl; split <;> rfl
@[simp] theorem Thread.follow_fpOut {a} : (Thread.follow t a).fpOut = t.fpOut := by unfold Thread.follow; split; rfl; split <;> rfl
@[simp] theorem Thread.follow_trapReq {a} : (Thread.follow t a).trapReq = t.trapReq := by unfold Thread.follow; split; rfl; split <;> rfl
@[simp] theorem Thread.follow_inup {a} : (Thread.follow t a).inup = t.inup := by unfold Thread.follow; split; rfl; split <;> rfl
@[simp] theorem Thread.follow_uie {a} : (Thread.follow t a).uie = t.uie := by unfold Thread.follow; split; rfl; split <;> rfl
@[simp] theorem Thread.follow_uentry {a} : (Thread.follow t a).uentry = t.uentry := by unfold Thread.follow; split; rfl; split <;> rfl
@[simp] theorem Thread.follow_uep {a} : (Thread.follow t a).uep = t.uep := by unfold Thread.follow; split; rfl; split <;> rfl
@[simp] theorem Thread.follow_uee {a} : (Thread.follow t a).uee = t.uee := by unfold Thread.follow; split; rfl; split <;> rfl
@[simp] theorem Thread.follow_usplo {a} : (Thread.follow t a).usplo = t.usplo := by unfold Thread.follow; split; rfl; split <;> rfl
@[simp] theorem Thread.follow_usphi {a} : (Thread.follow t a).usphi = t.usphi := by unfold Thread.follow; split; rfl; split <;> rfl
@[simp] theorem Thread.follow_s {a} : (Thread.follow t a).s = t.s := by unfold Thread.follow; split; rfl; split <;> rfl
@[simp] theorem Thread.follow_cause2 {a} : (Thread.follow t a).cause2 = t.cause2 := by unfold Thread.follow; split; rfl; split <;> rfl
@[simp] theorem Thread.follow_m {a} : (Thread.follow t a).m = t.m := by unfold Thread.follow; split; rfl; split <;> rfl
@[simp] theorem Thread.follow_mwdEn {a} : (Thread.follow t a).mwdEn = t.mwdEn := by unfold Thread.follow; split; rfl; split <;> rfl
@[simp] theorem Thread.follow_mwdCount {a} : (Thread.follow t a).mwdCount = t.mwdCount := by unfold Thread.follow; split; rfl; split <;> rfl
@[simp] theorem Thread.follow_mwdRun {a} : (Thread.follow t a).mwdRun = t.mwdRun := by unfold Thread.follow; split; rfl; split <;> rfl
@[simp] theorem Thread.follow_mwdAsk {a} : (Thread.follow t a).mwdAsk = t.mwdAsk := by unfold Thread.follow; split; rfl; split <;> rfl
@[simp] theorem Thread.follow_mwdJob {a} : (Thread.follow t a).mwdJob = t.mwdJob := by unfold Thread.follow; split; rfl; split <;> rfl
@[simp] theorem Thread.follow_tctlEn {a} : (Thread.follow t a).tctlEn = t.tctlEn := by unfold Thread.follow; split; rfl; split <;> rfl
@[simp] theorem Thread.follow_gran {a} : (Thread.follow t a).gran = t.gran := by unfold Thread.follow; split; rfl; split <;> rfl
@[simp] theorem Thread.follow_root {a} : (Thread.follow t a).root = t.root := by unfold Thread.follow; split; rfl; split <;> rfl
@[simp] theorem Thread.follow_asid {a} : (Thread.follow t a).asid = t.asid := by unfold Thread.follow; split; rfl; split <;> rfl
@[simp] theorem Thread.follow_tfsr {a} : (Thread.follow t a).tfsr = t.tfsr := by unfold Thread.follow; split; rfl; split <;> rfl
@[simp] theorem Thread.follow_products {a} : (Thread.follow t a).products = t.products := by unfold Thread.follow; split; rfl; split <;> rfl
@[simp] theorem Thread.follow_tbh {a} : (Thread.follow t a).tbh = t.tbh := by unfold Thread.follow; split; rfl; split <;> rfl
@[simp] theorem Thread.follow_started {a} : (Thread.follow t a).started = t.started := by unfold Thread.follow; split; rfl; split <;> rfl
@[simp] theorem Thread.follow_waiting {a} : (Thread.follow t a).waiting = t.waiting := by unfold Thread.follow; split; rfl; split <;> rfl
@[simp] theorem Thread.follow_hold {a} : (Thread.follow t a).hold = t.hold := by unfold Thread.follow; split; rfl; split <;> rfl
@[simp] theorem Thread.follow_loads {a} : (Thread.follow t a).loads = t.loads := by unfold Thread.follow; split; rfl; split <;> rfl
@[simp] theorem Thread.follow_fencedAt {a} : (Thread.follow t a).fencedAt = t.fencedAt := by unfold Thread.follow; split; rfl; split <;> rfl
@[simp] theorem Thread.follow_accNum {a} : (Thread.follow t a).accNum = t.accNum := by unfold Thread.follow; split; rfl; split <;> rfl
@[simp] theorem Thread.follow_dead {a} : (Thread.follow t a).dead = t.dead := by unfold Thread.follow; split; rfl; split <;> rfl
@[simp] theorem Thread.follow_lat {a} : (Thread.follow t a).lat = t.lat := by unfold Thread.follow; split; rfl; split <;> rfl
@[simp] theorem Thread.follow_busy {a} : (Thread.follow t a).busy = t.busy := by unfold Thread.follow; split; rfl; split <;> rfl
@[simp] theorem Thread.follow_askTicks {a} : (Thread.follow t a).askTicks = t.askTicks := by unfold Thread.follow; split; rfl; split <;> rfl
@[simp] theorem Thread.follow_groupNum {a} : (Thread.follow t a).groupNum = t.groupNum := by unfold Thread.follow; split; rfl; split <;> rfl
@[simp] theorem Thread.follow_openGrp {a} : (Thread.follow t a).openGrp = t.openGrp := by unfold Thread.follow; split; rfl; split <;> rfl
@[simp] theorem Thread.follow_suspended {a} : (Thread.follow t a).suspended = t.suspended := by unfold Thread.follow; split; rfl; split <;> rfl
@[simp] theorem Thread.follow_halted {a} : (Thread.follow t a).halted = t.halted := by unfold Thread.follow; split; rfl; split <;> rfl
@[simp] theorem Thread.follow_haltReq {a} : (Thread.follow t a).haltReq = t.haltReq := by unfold Thread.follow; split; rfl; split <;> rfl
@[simp] theorem Thread.follow_pc {a} : (t.follow a).pc = a := by unfold Thread.follow; split; rfl; split <;> rfl
end

end Sys2Proof.Machine
end

