-- ==== Sys2Proof/Laws/Tables.lean ====
section
/-! SUPPORT. Laws of sparse tables: what a read answers after a write, and that every table operation keeps the canonical form. -/
namespace Sys2Proof.Machine

set_option Elab.async false

variable {α : Type}

/-! ## Reading after writing -/

theorem tget_terase_self (d : α) (t : Tab α) (k : Nat) : tget d (terase k t) k = d := by
  induction t with
  | nil => rfl
  | cons e r ih =>
    obtain ⟨k', v⟩ := e
    by_cases h : k' = k <;> simp [terase, tget, h, ih]

theorem tget_terase_ne (d : α) (t : Tab α) {k j : Nat} (h : j ≠ k) : tget d (terase k t) j = tget d t j := by
  induction t with
  | nil => rfl
  | cons e r ih =>
    obtain ⟨k', v⟩ := e
    simp only [terase]
    split
    · subst k'; simp [tget, ih, Ne.symm h]
    · simp [tget, ih]

/-- No entry has the key. -/
def tfree (k : Nat) (t : Tab α) : Prop := ∀ e ∈ t, e.1 ≠ k

theorem tfree_terase (t : Tab α) (k : Nat) : tfree k (terase k t) := by
  induction t with
  | nil => simp [tfree, terase]
  | cons e r ih =>
    obtain ⟨k', v⟩ := e
    by_cases h : k' = k
    · simpa [terase, h] using ih
    · intro e he
      simp only [terase, h, if_false, List.mem_cons] at he
      rcases he with rfl | he
      · exact h
      · exact ih e he

theorem tget_tinsert_self (d : α) (t : Tab α) (k : Nat) (v : α) (h : tfree k t) : tget d (tinsert k v t) k = v := by
  induction t with
  | nil => simp [tinsert, tget]
  | cons e r ih =>
    obtain ⟨k', v'⟩ := e
    simp only [tinsert]
    split
    · simp [tget]
    · have hk : k' ≠ k := h (k', v') (by simp)
      simp [tget, hk, ih (fun e he => h e (by simp [he]))]

theorem tget_tinsert_ne (d : α) (t : Tab α) {k j : Nat} (v : α) (h : j ≠ k) : tget d (tinsert k v t) j = tget d t j := by
  induction t with
  | nil => simp [tinsert, tget, Ne.symm h]
  | cons e r ih =>
    obtain ⟨k', v'⟩ := e
    simp only [tinsert]
    split
    · simp [tget, Ne.symm h]
    · simp [tget, ih]

/-- A key reads what was written to it. -/
@[simp] theorem tget_tput_self [DecidableEq α] (d : α) (t : Tab α) (k : Nat) (v : α) : tget d (tput d t k v) k = v := by
  unfold tput
  split
  · next h => rw [tget_terase_self, h]
  · exact tget_tinsert_self _ _ _ _ (tfree_terase _ _)

/-- Every other key reads as before. -/
theorem tget_tput_ne [DecidableEq α] (d : α) (t : Tab α) {k j : Nat} (v : α) (h : j ≠ k) : tget d (tput d t k v) j = tget d t j := by
  unfold tput
  split
  · exact tget_terase_ne _ _ h
  · rw [tget_tinsert_ne _ _ _ h, tget_terase_ne _ _ h]

/-! ## The canonical form -/

theorem terase_of_free {k : Nat} {t : Tab α} (h : tfree k t) : terase k t = t := by
  induction t with
  | nil => rfl
  | cons e r ih =>
    obtain ⟨k', v'⟩ := e
    simp only [tfree, List.mem_cons, forall_eq_or_imp] at h
    simp [terase, h.1, ih h.2]

theorem terase_tinsert (k : Nat) (v : α) (t : Tab α) : terase k (tinsert k v t) = terase k t := by
  induction t with
  | nil => simp [tinsert, terase]
  | cons e r ih =>
    obtain ⟨k', v'⟩ := e
    simp only [tinsert]
    split
    · simp [terase]
    · simp only [terase, ih]

/-- A second write of a key replaces the first. -/
@[simp] theorem tput_tput [DecidableEq α] (d : α) (t : Tab α) (k : Nat) (a b : α) : tput d (tput d t k a) k b = tput d t k b := by
  have h : terase k (tput d t k a) = terase k t := by
    unfold tput
    split
    · exact terase_of_free (tfree_terase t k)
    · rw [terase_tinsert, terase_of_free (tfree_terase t k)]
  show (if b = d then terase k (tput d t k a) else tinsert k b (terase k (tput d t k a))) = _
  rw [h]
  rfl

theorem trising_weaken {t : Tab α} {b c : Nat} (h : trising c t = true) (hb : b ≤ c) : trising b t = true := by
  cases t with
  | nil => rfl
  | cons e r => obtain ⟨k, v⟩ := e; simp_all [trising]; omega

theorem trising_filter (p : Nat × α → Bool) {t : Tab α} {b : Nat} (h : trising b t = true) : trising b (t.filter p) = true := by
  induction t generalizing b with
  | nil => rfl
  | cons e r ih =>
    obtain ⟨k, v⟩ := e
    simp only [trising, Bool.and_eq_true, decide_eq_true_eq] at h
    simp only [List.filter_cons]
    split
    · simp [trising, h.1, ih h.2]
    · exact trising_weaken (ih h.2) (by omega)

theorem terase_eq_filter (k : Nat) (t : Tab α) : terase k t = t.filter (fun e => decide (e.1 ≠ k)) := by
  induction t with
  | nil => rfl
  | cons e r ih => obtain ⟨k', v⟩ := e; by_cases h : k' = k <;> simp [terase, h, ih]

theorem trising_tinsert {t : Tab α} {b k : Nat} (v : α) (h : trising b t = true) (hb : b ≤ k) (hf : tfree k t) :
    trising b (tinsert k v t) = true := by
  induction t generalizing b with
  | nil => simp [tinsert, trising, hb]
  | cons e r ih =>
    obtain ⟨k', v'⟩ := e
    simp only [trising, Bool.and_eq_true, decide_eq_true_eq] at h
    have hk : k' ≠ k := hf (k', v') (by simp)
    have hr : tfree k r := fun e he => hf e (by simp [he])
    simp only [tinsert]
    split
    · simp [trising, hb, h.2]; omega
    · simp only [trising, Bool.and_eq_true, decide_eq_true_eq]
      exact ⟨h.1, ih h.2 (by omega) hr⟩

theorem all_tinsert (p : Nat × α → Bool) (t : Tab α) (k : Nat) (v : α) : (tinsert k v t).all p = (p (k, v) && t.all p) := by
  induction t with
  | nil => rfl
  | cons e r ih =>
    obtain ⟨k', v'⟩ := e
    simp only [tinsert]
    split
    · rfl
    · simp only [List.all_cons, ih]
      rw [Bool.and_left_comm]

theorem twf_filter [DecidableEq α] (d : α) (p : Nat × α → Bool) {t : Tab α} (h : twf d t = true) : twf d (t.filter p) = true := by
  simp only [twf, Bool.and_eq_true, List.all_eq_true] at *
  exact ⟨trising_filter p h.1, fun e he => h.2 e ((List.mem_filter.1 he).1)⟩

theorem twf_terase [DecidableEq α] (d : α) {t : Tab α} (k : Nat) (h : twf d t = true) : twf d (terase k t) = true := by
  rw [terase_eq_filter]; exact twf_filter d _ h

/-- A write keeps the canonical form. -/
theorem twf_tput [DecidableEq α] (d : α) {t : Tab α} (k : Nat) (v : α) (h : twf d t = true) : twf d (tput d t k v) = true := by
  have he := twf_terase d k h
  unfold tput
  split
  · exact he
  · next hv =>
    simp only [twf, Bool.and_eq_true] at *
    exact ⟨trising_tinsert v he.1 (Nat.zero_le _) (tfree_terase _ _), by rw [all_tinsert, he.2]; simp [hv]⟩

theorem trising_tmapKeys [DecidableEq α] (d : α) (f : Nat → α → α) {t : Tab α} {b : Nat} (h : trising b t = true) :
    trising b (tmapKeys d f t) = true := by
  induction t generalizing b with
  | nil => rfl
  | cons e r ih =>
    obtain ⟨k, v⟩ := e
    simp only [trising, Bool.and_eq_true, decide_eq_true_eq] at h
    have he : trising (k + 1) (terase k (tmapKeys d f r)) = true := by rw [terase_eq_filter]; exact trising_filter _ (ih h.2)
    simp only [tmapKeys]
    split
    · exact trising_weaken he (by omega)
    · simp [trising, h.1, he]

theorem ne_of_mem_tmapKeys [DecidableEq α] (d : α) (f : Nat → α → α) (t : Tab α) : ∀ e ∈ tmapKeys d f t, e.2 ≠ d := by
  induction t with
  | nil => simp [tmapKeys]
  | cons e r ih =>
    obtain ⟨k, v⟩ := e
    intro x hx
    simp only [tmapKeys, terase_eq_filter] at hx
    split at hx
    · exact ih x (List.mem_filter.1 hx).1
    · next hne =>
      rcases List.mem_cons.1 hx with rfl | hx
      · exact hne
      · exact ih x (List.mem_filter.1 hx).1

/-- Replacing every entry as its key gives keeps the canonical form. -/
theorem twf_tmapKeys [DecidableEq α] (d : α) (f : Nat → α → α) {t : Tab α} (h : twf d t = true) : twf d (tmapKeys d f t) = true := by
  simp only [twf, Bool.and_eq_true] at h ⊢
  exact ⟨trising_tmapKeys d f h.1, by simpa using fun a b h => ne_of_mem_tmapKeys d f t (a, b) h⟩

/-- Reading after every entry has been replaced. -/
theorem tget_tmapKeys [DecidableEq α] (d : α) (f : Nat → α → α) (t : Tab α) (k : Nat) (h : f k d = d) :
    tget d (tmapKeys d f t) k = f k (tget d t k) := by
  induction t with
  | nil => simp [tmapKeys, tget, h]
  | cons e r ih =>
    obtain ⟨k', v⟩ := e
    by_cases hk : k' = k
    · subst hk
      simp only [tmapKeys, tget, if_true]
      split
      · next hv => rw [tget_terase_self, hv]
      · simp [tget]
    · simp only [tmapKeys, tget, hk, if_false]
      split
      · rw [tget_terase_ne d _ (Ne.symm hk), ih]
      · simp [tget, hk, tget_terase_ne d _ (Ne.symm hk), ih]

theorem tget_tmapVals [DecidableEq α] (d : α) (f : α → α) (t : Tab α) (k : Nat) (h : f d = d) : tget d (tmapVals d f t) k = f (tget d t k) :=
  tget_tmapKeys d _ t k h

theorem twf_tmapVals [DecidableEq α] (d : α) (f : α → α) {t : Tab α} (h : twf d t = true) : twf d (tmapVals d f t) = true :=
  twf_tmapKeys d _ h

theorem trising_append {a b : Tab α} {lo mid : Nat} (ha : trising lo a = true) (hm : ∀ e ∈ a, e.1 < mid) (hb : trising mid b = true)
    (hlo : lo ≤ mid) : trising lo (a ++ b) = true := by
  induction a generalizing lo with
  | nil => exact trising_weaken hb hlo
  | cons e r ih =>
    obtain ⟨k, v⟩ := e
    simp only [trising, Bool.and_eq_true, decide_eq_true_eq, List.cons_append] at ha ⊢
    have hk : k < mid := hm (k, v) (by simp)
    exact ⟨ha.1, ih ha.2 (fun e he => hm e (by simp [he])) hk⟩

theorem trising_shift {t : Tab α} {lo src dst : Nat} (h : trising lo t = true) (hs : ∀ e ∈ t, src ≤ e.1) (hlo : src ≤ lo) :
    trising (lo - src + dst) (t.map (fun x => (x.1 - src + dst, x.2))) = true := by
  induction t generalizing lo with
  | nil => rfl
  | cons e r ih =>
    obtain ⟨k, v⟩ := e
    simp only [trising, Bool.and_eq_true, decide_eq_true_eq, List.map_cons] at h ⊢
    have hk : src ≤ k := hs (k, v) (by simp)
    refine ⟨by omega, ?_⟩
    have := ih h.2 (fun e he => hs e (by simp [he])) (by omega)
    rwa [show k + 1 - src + dst = k - src + dst + 1 by omega] at this

theorem trising_ge {t : Tab α} {lo : Nat} (h : trising lo t = true) : ∀ e ∈ t, lo ≤ e.1 := by
  induction t generalizing lo with
  | nil => simp
  | cons e r ih =>
    obtain ⟨k, v⟩ := e
    simp only [trising, Bool.and_eq_true, decide_eq_true_eq] at h
    intro e he
    rcases List.mem_cons.1 he with rfl | he
    · exact h.1
    · have := ih h.2 e he; omega

theorem trising_raise {t : Tab α} {lo hi : Nat} (h : trising lo t = true) (hg : ∀ e ∈ t, hi ≤ e.1) : trising hi t = true := by
  cases t with
  | nil => rfl
  | cons e r =>
    obtain ⟨k, v⟩ := e
    simp only [trising, Bool.and_eq_true, decide_eq_true_eq] at h ⊢
    exact ⟨hg (k, v) (by simp), h.2⟩

end Sys2Proof.Machine
end

