-- ==== Sys2Proof/Laws/Access.lean ====
section
/-! SUPPORT. Reading a unit after writing one: the unit written holds what was written, every other unit what it held. Registers of a thread
likewise; G0 reads zero and discards writes. -/
namespace Sys2Proof.Machine

set_option Elab.async false

/-! ## Keys -/

theorem thKey_inj {a b : Th} (h : thKey a = thKey b) : a = b := by
  obtain ⟨⟨l, hl⟩, ⟨t, ht⟩⟩ := a
  obtain ⟨⟨l', hl'⟩, ⟨t', ht'⟩⟩ := b
  simp only [thKey] at h
  simp only [Th.mk.injEq, Fin.mk.injEq]
  omega

theorem slotKey_inj {a b : SlotRef} (h : slotKey a = slotKey b) : a = b := by
  obtain ⟨⟨i, hi⟩, ⟨m, hm⟩, ⟨k, hk⟩⟩ := a
  obtain ⟨⟨i', hi'⟩, ⟨m', hm'⟩, ⟨k', hk'⟩⟩ := b
  simp only [slotKey] at h
  simp only [SlotRef.mk.injEq, Fin.mk.injEq]
  omega

/-! ## Units -/

section
variable (s : State)

@[simp] theorem State.thr_setThr (th : Th) (t : Thread) : (s.setThr th t).thr th = t := tget_tput_self _ _ _ _
theorem State.thr_setThr_ne {th u : Th} (t : Thread) (h : u ≠ th) : (s.setThr th t).thr u = s.thr u :=
  tget_tput_ne _ _ _ (fun e => h (thKey_inj e))
@[simp] theorem State.thr_modThr (th : Th) (f : Thread → Thread) : (s.modThr th f).thr th = f (s.thr th) := State.thr_setThr s th _
@[simp] theorem State.setThr_setThr (th : Th) (t u : Thread) : (s.setThr th t).setThr th u = s.setThr th u := by simp [State.setThr]
@[simp] theorem State.modThr_modThr (th : Th) (f g : Thread → Thread) : (s.modThr th f).modThr th g = s.modThr th (fun t => g (f t)) := by
  simp [State.modThr]
theorem State.thr_modThr_ne {th u : Th} (f : Thread → Thread) (h : u ≠ th) : (s.modThr th f).thr u = s.thr u :=
  State.thr_setThr_ne s _ h
@[simp] theorem State.thr_setLathe (th : Th) (l : Fin 16) (x : Lathe) : (s.setLathe l x).thr th = s.thr th := rfl
@[simp] theorem State.thr_modLathe (th : Th) (l : Fin 16) (f : Lathe → Lathe) : (s.modLathe l f).thr th = s.thr th := rfl
@[simp] theorem State.lathe_setThr (l : Fin 16) (th : Th) (t : Thread) : (s.setThr th t).lathe l = s.lathe l := rfl
@[simp] theorem State.lathe_modThr (l : Fin 16) (th : Th) (f : Thread → Thread) : (s.modThr th f).lathe l = s.lathe l := rfl

@[simp] theorem State.lathe_setLathe (l : Fin 16) (x : Lathe) : (s.setLathe l x).lathe l = x := tget_tput_self _ _ _ _
theorem State.lathe_setLathe_ne {l k : Fin 16} (x : Lathe) (h : k ≠ l) : (s.setLathe l x).lathe k = s.lathe k :=
  tget_tput_ne _ _ _ (fun e => h (Fin.ext e))
@[simp] theorem State.lathe_modLathe (l : Fin 16) (f : Lathe → Lathe) : (s.modLathe l f).lathe l = f (s.lathe l) :=
  State.lathe_setLathe s l _
theorem State.lathe_modLathe_ne {l k : Fin 16} (f : Lathe → Lathe) (h : k ≠ l) : (s.modLathe l f).lathe k = s.lathe k :=
  State.lathe_setLathe_ne s _ h

@[simp] theorem State.bank_setBank (n : Nat) (x : Bank) : (s.setBank n x).bank n = x := tget_tput_self _ _ _ _
theorem State.bank_setBank_ne {n k : Nat} (x : Bank) (h : k ≠ n) : (s.setBank n x).bank k = s.bank k := tget_tput_ne _ _ _ h
@[simp] theorem State.bank_modBank (n : Nat) (f : Bank → Bank) : (s.modBank n f).bank n = f (s.bank n) := State.bank_setBank s n _
theorem State.bank_modBank_ne {n k : Nat} (f : Bank → Bank) (h : k ≠ n) : (s.modBank n f).bank k = s.bank k :=
  State.bank_setBank_ne s _ h

@[simp] theorem State.spin_setSpin (n : Nat) (x : Spindle) : (s.setSpin n x).spin n = x := tget_tput_self _ _ _ _
theorem State.spin_setSpin_ne {n k : Nat} (x : Spindle) (h : k ≠ n) : (s.setSpin n x).spin k = s.spin k := tget_tput_ne _ _ _ h
@[simp] theorem State.spin_modSpin (n : Nat) (f : Spindle → Spindle) : (s.modSpin n f).spin n = f (s.spin n) := State.spin_setSpin s n _
theorem State.spin_modSpin_ne {n k : Nat} (f : Spindle → Spindle) (h : k ≠ n) : (s.modSpin n f).spin k = s.spin k :=
  State.spin_setSpin_ne s _ h

@[simp] theorem State.group_setGroup (n : Nat) (x : Option Group) : (s.setGroup n x).group n = x := tget_tput_self _ _ _ _
theorem State.group_setGroup_ne {n k : Nat} (x : Option Group) (h : k ≠ n) : (s.setGroup n x).group k = s.group k :=
  tget_tput_ne _ _ _ h

@[simp] theorem State.inst_setInst (i : Fin 16) (x : Inst) : (s.setInst i x).inst i = x := tget_tput_self _ _ _ _
theorem State.inst_setInst_ne {i k : Fin 16} (x : Inst) (h : k ≠ i) : (s.setInst i x).inst k = s.inst k :=
  tget_tput_ne _ _ _ (fun e => h (Fin.ext e))
@[simp] theorem State.inst_modInst (i : Fin 16) (f : Inst → Inst) : (s.modInst i f).inst i = f (s.inst i) := State.inst_setInst s i _
@[simp] theorem State.inst_setSlot (i : Fin 16) (r : SlotRef) (x : Slot) : (s.setSlot r x).inst i = s.inst i := rfl
@[simp] theorem State.inst_modSlot (i : Fin 16) (r : SlotRef) (f : Slot → Slot) : (s.modSlot r f).inst i = s.inst i := rfl

@[simp] theorem State.slot_setSlot (r : SlotRef) (x : Slot) : (s.setSlot r x).slot r = x := tget_tput_self _ _ _ _
theorem State.slot_setSlot_ne {r q : SlotRef} (x : Slot) (h : q ≠ r) : (s.setSlot r x).slot q = s.slot q :=
  tget_tput_ne _ _ _ (fun e => h (slotKey_inj e))
@[simp] theorem State.slot_modSlot (r : SlotRef) (f : Slot → Slot) : (s.modSlot r f).slot r = f (s.slot r) := State.slot_setSlot s r _
@[simp] theorem State.slot_setInst (i : Fin 16) (r : SlotRef) (x : Inst) : (s.setInst i x).slot r = s.slot r := rfl
@[simp] theorem State.slot_modInst (i : Fin 16) (r : SlotRef) (f : Inst → Inst) : (s.modInst i f).slot r = s.slot r := rfl

@[simp] theorem State.ctx_setCtx (c : Nat) (x : SealCtx) : (s.setCtx c x).ctx c = x := tget_tput_self _ _ _ _
theorem State.ctx_setCtx_ne {c k : Nat} (x : SealCtx) (h : k ≠ c) : (s.setCtx c x).ctx k = s.ctx k := tget_tput_ne _ _ _ h
@[simp] theorem State.ctx_modCtx (c : Nat) (f : SealCtx → SealCtx) : (s.modCtx c f).ctx c = f (s.ctx c) := State.ctx_setCtx s c _

@[simp] theorem State.cell_setCell (a : Nat) (v : Stored) : (s.setCell a v).cell a = v := tget_tput_self _ _ _ _
/-- A write of a nonet leaves every other nonet. -/
theorem State.cell_setCell_ne {a b : Nat} (v : Stored) (h : b ≠ a) : (s.setCell a v).cell b = s.cell b := tget_tput_ne _ _ _ h

@[simp] theorem State.chan_modChan (c : Nat) (f : Channel → Channel) : (s.modChan c f).chan c = f (s.chan c) := by
  simp [State.chan, State.modChan, tmod]
@[simp] theorem State.cin_modCin (c : Nat) (f : Cin → Cin) : (s.modCin c f).cin c = f (s.cin c) := by
  simp [State.cin, State.modCin, tmod]
@[simp] theorem State.lut_modLut (c : Nat) (f : Lut → Lut) : (s.modLut c f).lut c = f (s.lut c) := by
  simp [State.lut, State.modLut, tmod]
@[simp] theorem State.tmr_modTmr (c : Nat) (f : Tmr → Tmr) : (s.modTmr c f).tmr c = f (s.tmr c) := by
  simp [State.tmr, State.modTmr, tmod]
@[simp] theorem State.epin_modPin (c : Nat) (f : Pin → Pin) : (s.modPin c f).epin c = f (s.epin c) := by
  simp [State.epin, State.modPin, tmod]

end

/-! ## Registers of a thread (R192, R194) -/

section
variable (t : Thread)

/-- G0 reads zero. -/
@[simp] theorem Thread.rg_zero : t.rg 0 = 0 := rfl
/-- A write to G0 is discarded. -/
@[simp] theorem Thread.wg_zero (v : Word) : t.wg 0 v = t := rfl
theorem Thread.rg_wg {r : BitVec 5} (v : Word) (h : r ≠ 0) : (t.wg r v).rg r = v := by
  unfold Thread.rg Thread.wg
  rw [if_neg h, if_neg h]
  exact tget_tput_self _ _ _ _
theorem Thread.rg_wg_ne {r q : BitVec 5} (v : Word) (h : q ≠ r) : (t.wg r v).rg q = t.rg q := by
  unfold Thread.rg Thread.wg
  split
  · rfl
  · split
    · rfl
    · exact tget_tput_ne _ _ _ (fun e => h (BitVec.eq_of_toNat_eq e))
@[simp] theorem Thread.rf_wf (r : Nat) (v : Dbl) : (t.wf r v).rf r = v := tget_tput_self _ _ _ _
theorem Thread.rf_wf_ne {r q : Nat} (v : Dbl) (h : q ≠ r) : (t.wf r v).rf q = t.rf q := tget_tput_ne _ _ _ h
@[simp] theorem Thread.rd_wd (r : Nat) (v : Quad) : (t.wd r v).rd r = v := tget_tput_self _ _ _ _
theorem Thread.rd_wd_ne {r q : Nat} (v : Quad) (h : q ≠ r) : (t.wd r v).rd q = t.rd q := tget_tput_ne _ _ _ h
@[simp] theorem Thread.rg_tickProducts (r : BitVec 5) : t.tickProducts.rg r = t.rg r := rfl
@[simp] theorem Thread.rf_tickProducts (r : Nat) : t.tickProducts.rf r = t.rf r := rfl
@[simp] theorem Thread.rd_tickProducts (r : Nat) : t.tickProducts.rd r = t.rd r := rfl

end

end Sys2Proof.Machine
end

