-- ==== Sys2Proof/Laws/Keep.lean ====
section
/-! SUPPORT. The relation `Kept` over record updates and folds: the ground of the lemmas, one for each operation, that say no meaning
touches the queue, the fuses, or the canonical form of memory. -/
namespace Sys2Proof.Machine

set_option Elab.async false

variable {pq : List Instr} {fu : Fus}

/-- An update of any fields but the queue, memory and the fuses. -/
theorem kept_upd {s : State} (h : Kept pq fu s) (tb banks spindles lathes threads groups nextGroup scr fab evf ts jnl hs pci wov rst pwr
    dbg free) : Kept pq fu (State.mk s.pending tb s.mem banks spindles lathes threads groups nextGroup scr fab evf ts jnl hs pci wov rst
      pwr dbg s.fus free) := h

/-- An update of memory as well. -/
theorem kept_updMem {s : State} (h : Kept pq fu s) (mem) (hm : Memory.wf s.mem = true → Memory.wf mem = true)
    (tb banks spindles lathes threads groups nextGroup scr fab evf ts jnl hs pci wov rst pwr dbg free) :
    Kept pq fu (State.mk s.pending tb mem banks spindles lathes threads groups nextGroup scr fab evf ts jnl hs pci wov rst pwr dbg
      s.fus free) := ⟨h.1, h.2.1, hm h.2.2⟩

grind_pattern kept_upd => Kept pq fu s, State.mk s.pending tb s.mem banks spindles lathes threads groups nextGroup scr fab evf ts jnl hs
  pci wov rst pwr dbg s.fus free

/-- Memory cut down to some of its places. -/
theorem kept_filterMem {s : State} (h : Kept pq fu s) (f : Nat × Stored → Bool) (tb banks spindles lathes threads groups nextGroup scr
    fab evf ts jnl hs pci wov rst pwr dbg free) : Kept pq fu (State.mk s.pending tb (s.mem.filter f) banks spindles lathes threads
      groups nextGroup scr fab evf ts jnl hs pci wov rst pwr dbg s.fus free) := ⟨h.1, h.2.1, twf_filter 0 f h.2.2⟩

/-- Memory changed place by place. -/
theorem kept_tmapMem {s : State} (h : Kept pq fu s) (f : Nat → Stored → Stored) (tb banks spindles lathes threads groups nextGroup scr
    fab evf ts jnl hs pci wov rst pwr dbg free) : Kept pq fu (State.mk s.pending tb (tmapKeys 0 f s.mem) banks spindles lathes threads
      groups nextGroup scr fab evf ts jnl hs pci wov rst pwr dbg s.fus free) := ⟨h.1, h.2.1, twf_tmapKeys 0 f h.2.2⟩

grind_pattern kept_filterMem => Kept pq fu s, State.mk s.pending tb (s.mem.filter f) banks spindles lathes threads groups nextGroup
  scr fab evf ts jnl hs pci wov rst pwr dbg s.fus free
grind_pattern kept_tmapMem => Kept pq fu s, State.mk s.pending tb (tmapKeys 0 f s.mem) banks spindles lathes threads groups nextGroup
  scr fab evf ts jnl hs pci wov rst pwr dbg s.fus free

theorem kept_foldl {α : Type} (f : State → α → State) (xs : List α) (s : State) (h : Kept pq fu s)
    (hf : ∀ s x, Kept pq fu s → Kept pq fu (f s x)) : Kept pq fu (xs.foldl f s) := by
  induction xs generalizing s with
  | nil => exact h
  | cons x xs ih => exact ih _ (hf _ _ h)

theorem kept_foldl_fst {α β : Type} (f : State × β → α → State × β) (xs : List α) (s : State) (b : β) (h : Kept pq fu s)
    (hf : ∀ s b x, Kept pq fu s → Kept pq fu (f (s, b) x).1) : Kept pq fu (xs.foldl f (s, b)).1 := by
  induction xs generalizing s b with
  | nil => exact h
  | cons x xs ih =>
    have := ih (f (s, b) x).1 (f (s, b) x).2 (hf _ _ _ h)
    simpa using this

/-- What every turn of a fold keeps, the fold keeps. -/
theorem foldl_keeps {α β : Type} (P : β → Prop) (f : β → α → β) (xs : List α) (b : β) (h : P b) (hf : ∀ b x, P b → P (f b x)) :
    P (xs.foldl f b) := by
  induction xs generalizing b with
  | nil => exact h
  | cons x xs ih => exact ih _ (hf _ _ h)

grind_pattern kept_foldl => Kept pq fu s, xs.foldl f s
grind_pattern kept_foldl_fst => Kept pq fu s, xs.foldl f (s, b)

end Sys2Proof.Machine
end

