-- ==== Sys2Proof/Laws/Issue.lean ====
section
/-! SUPPORT. What the issue of an instruction can do (Cores.lean): one lemma for each end of an operation, and what its slot leaves. -/
namespace Sys2Proof.Machine

set_option Elab.async false

/-! ## What a slot leaves -/

section
variable (s : State) (th : Th) (n : Nat)

/-- A turn of a fold over threads that changes only each thread's own record. -/
theorem foldl_modThr_frame {α : Type} (p : State → α) (hp : ∀ s th f, p (State.modThr s th f) = p s) (f : Thread → Thread) (ts : List Th) :
    p (ts.foldl (fun s u => s.modThr u f) s) = p s := by
  induction ts generalizing s with
  | nil => rfl
  | cons u r ih => exact (ih _).trans (hp _ _ _)

/-- Slots that pass change the core's counters and complete floating-point instructions: every part of the state but the cores and the threads
stands. -/
theorem passSlots_frame {α : Type} (p : State → α) (hp : ∀ s th f, p (State.modThr s th f) = p s) (hl : ∀ s l x, p (State.setLathe s l x) = p s)
    (l : Fin 16) (k : Nat) : p (passSlots s l k) = p s := by
  unfold passSlots
  exact (foldl_modThr_frame _ p hp _ _).trans (hl _ _ _)

/-- The slot of an instruction likewise. -/
theorem inSlot_frame {α : Type} (p : State → α) (hp : ∀ s th f, p (State.modThr s th f) = p s) (hl : ∀ s l x, p (State.setLathe s l x) = p s) :
    p (inSlot s th n) = p s := by
  have ha : p (atIssue s th n) = p s := by
    unfold atIssue
    split
    · exact hl _ _ _
    · exact passSlots_frame _ p hp hl _ _
  unfold inSlot
  split
  · exact (hp _ _ _).trans ha
  · exact (hp _ _ _).trans ((hl _ _ _).trans ((hl _ _ _).trans ha))

@[simp] theorem mem_inSlot : (inSlot s th n).mem = s.mem := inSlot_frame s th n State.mem (fun _ _ _ => rfl) (fun _ _ _ => rfl)
@[simp] theorem banks_inSlot : (inSlot s th n).banks = s.banks := inSlot_frame s th n State.banks (fun _ _ _ => rfl) (fun _ _ _ => rfl)
@[simp] theorem fus_inSlot : (inSlot s th n).fus = s.fus := inSlot_frame s th n State.fus (fun _ _ _ => rfl) (fun _ _ _ => rfl)
@[simp] theorem pending_inSlot : (inSlot s th n).pending = s.pending :=
  inSlot_frame s th n State.pending (fun _ _ _ => rfl) (fun _ _ _ => rfl)

end

/-! ## The slot has its number -/

theorem turnFrom_ge (x : Lathe) (t : Fin 8) (a : Nat) : a ≤ x.turnFrom t a := by
  unfold Lathe.turnFrom
  split <;> omega

theorem nextTurn_ge (s : State) (th : Th) : (s.lathe th.l).clock ≤ nextTurn s th :=
  Nat.le_trans (Nat.le_max_left _ _) (turnFrom_ge _ _ _)

theorem timedTurn_ge {s : State} {th : Th} {n : Nat} (h : timedTurn s th = some n) : (s.lathe th.l).clock ≤ n := by
  simp only [timedTurn] at h
  split at h <;> split at h <;> cases h <;> exact nextTurn_ge s th

theorem readySlot_ge (s : State) (th : Th) (d : Deps) : (s.lathe th.l).clock ≤ readySlot s th d :=
  Nat.le_trans (Nat.le_max_left _ _) (turnFrom_ge _ _ _)

/-- No thread's slot lies before the core's next. -/
theorem slotOf_ge {s : State} {th : Th} {n : Nat} (h : slotOf s th = some n) : (s.lathe th.l).clock ≤ n := by
  simp only [slotOf] at h
  split at h
  · exact timedTurn_ge h
  · split at h
    · split at h
      · cases h; exact Nat.le_max_left _ _
      · split at h
        · cases h
        · cases h; exact readySlot_ge s th _
    · exact timedTurn_ge h

/-- The slot that `firstOf` gives is that of the thread it gives. -/
theorem firstOf_slot {x : Lathe} {slot : Fin 8 → Option Nat} {t : Fin 8} {n : Nat} (h : firstOf x slot = some (t, n)) : slot t = some n := by
  refine foldl_keeps (fun (a : Option (Fin 8 × Nat)) => ∀ b, a = some b → slot b.1 = some b.2) _ _ none (by simp) (fun a k ha b hb => ?_) _ h
  dsimp only at hb
  split at hb
  · exact ha _ hb
  · next hs => cases hb; exact hs
  · next hs =>
    split at hb
    · cases hb; exact hs
    · exact ha _ hb

theorem nextIssuer_ge {s : State} {l : Fin 16} {t : Fin 8} {n : Nat} (h : nextIssuer s l = some (t, n)) : (s.lathe l).clock ≤ n :=
  slotOf_ge (firstOf_slot h)

theorem lathe_foldl_modThr (l : Fin 16) (f : Thread → Thread) (ts : List Th) (s : State) :
    (ts.foldl (fun s u => s.modThr u f) s).lathe l = s.lathe l := foldl_modThr_frame s (fun s => s.lathe l) (fun _ _ _ => rfl) f ts

/-- The core's counters over slots that pass. -/
theorem lathe_passSlots (s : State) (l : Fin 16) (k : Nat) : (passSlots s l k).lathe l =
    { s.lathe l with slotcnt := (s.lathe l).slotcnt + BitVec.ofNat 36 k, clock := (s.lathe l).clock + k,
                     wturn := satAdd (s.lathe l).wturn (if (s.lathe l).detact then waitTurns s l k else 0) } := by
  unfold passSlots
  rw [lathe_foldl_modThr, State.lathe_setLathe]

/-- The instruction that a thread issues next is performed in its slot. -/
theorem slot_inSlot {s : State} {th : Th} {n : Nat} (h : nextSlot s th = some n) : ((inSlot s th n).lathe th.l).slot = n := by
  unfold nextSlot at h
  unfold inSlot atIssue
  split at h
  · next t ht =>
    split at h
    · cases h; simp [ht, countInstr, Lathe.slot]
    · cases h
  · next ht =>
    obtain ⟨⟨t, m⟩, hn, hm⟩ := Option.bind_eq_some_iff.1 h
    have hm' : m = n := by
      dsimp only at hm
      split at hm
      · exact Option.some.inj hm
      · cases hm
    subst hm'
    have hge := nextIssuer_ge hn
    simp only [ht, Option.isSome_none, Bool.false_eq_true, if_false, startSlot, countInstr, addSlot, Lathe.slot, State.lathe_modThr,
      State.lathe_modLathe, lathe_passSlots]
    omega

/-! ## The ends of an operation -/

section
variable {s : State} {th : Th} {w : Word} {n : Nat} {op : State → State × Res}

/-- No instruction pairs with one that the thread does not simply go on from. -/
theorem completes_eq (r : State × Res) (h : r.2 ≠ .seq) :
    completes s th w n r = learn (finish th n (atIssue s th n) (afterOp (inSlot s th n) th w r)) th (s.thr th).pc w r.2 := by
  unfold completes
  exact if_neg (fun e => h (by simpa using (Bool.and_eq_true_iff.1 (Bool.and_eq_true_iff.1 e).1).2))

/-- An exception, and an instruction that holds its thread, supersede nothing. -/
@[simp] theorem afterOp_exc (b s' : State) (v : Word) (e : Exc) : afterOp b th v (s', .exc e) = (s', .exc e) := rfl
@[simp] theorem afterOp_hold (b s' : State) (v : Word) : afterOp b th v (s', .hold) = (s', .hold) := rfl

@[simp] theorem learn_exc (a v : Word) (e : Exc) : learn s th a v (.exc e) = s := by unfold learn; split <;> rfl
@[simp] theorem learn_hold (a v : Word) : learn s th a v .hold = s := by unfold learn; split <;> rfl

/-- An instruction that has its core's next slot is performed in it. -/
theorem issue_eq (h : Issues s th w n) : issue th w op s = completes s th w n (op (inSlot s th n)) := by
  obtain ⟨h1, h2, h3⟩ := h
  simp [issue, issueAt, h1, h2, h3]

/-- An operation on the thread alone, by `issued`. -/
theorem issue_thread (h : Issues s th w n) {f : Thread → Thread} (ho : op (inSlot s th n) = opThread th f (inSlot s th n)) :
    issue th w op s = issued s th w n f := by rw [issue_eq h, ho]; rfl

/-- An operation that transfers control, its thread changed, by `jumped`. -/
theorem issue_jump (h : Issues s th w n) {f : Thread → Thread} {a : Word} (ho : op (inSlot s th n) = ((inSlot s th n).modThr th f, .jump a)) :
    issue th w op s = jumped s th w n f a := by rw [issue_eq h, ho]; rfl

/-- An operation that raises an exception at its own PC and has no other effect, by `raised`. -/
theorem issue_exc (h : Issues s th w n) {e : Exc} (ho : op (inSlot s th n) = (inSlot s th n, .exc e)) :
    issue th w op s = raised s th n e := by
  rw [issue_eq h, ho, completes_eq _ (by simp), learn_exc]
  rfl

/-- An illegal word, by `illegalAt`. -/
theorem issue_illegal (h : Issues s th w n) {v : Word} (ho : op (inSlot s th n) = (inSlot s th n, illegal v)) :
    issue th w op s = illegalAt s th n v := issue_exc h ho

/-- An operation that has issued and holds its thread. -/
theorem issue_hold (h : Issues s th w n) {s' : State} (ho : op (inSlot s th n) = (s', .hold)) : issue th w op s = s' := by
  rw [issue_eq h, ho, completes_eq _ (by simp), learn_hold]
  rfl

/-- An instruction that another thread's comes before leaves the state. -/
theorem issue_other {t : Fin 8} {m : Nat} (h : nextIssuer s th.l = some (t, m)) (ht : t ≠ th.t) (hp : (s.lathe th.l).pair = none) :
    issue th w op s = s := by simp [issue, nextSlot, slotsBefore, h, ht, hp]

/-- An instruction of a thread beside the pair of another leaves the state. -/
theorem issue_besidePair {t : Fin 8} (h : (s.lathe th.l).pair = some t) (ht : t ≠ th.t) : issue th w op s = s := by
  simp [issue, nextSlot, slotsBefore, h, ht]

end

end Sys2Proof.Machine
end

