-- ==== Sys2Proof/Laws/KeepOps.lean ====
section
/-! SUPPORT. No operation of Machine/Ops.lean touches the queue, the fuses, or the canonical form of memory: one lemma each. -/
namespace Sys2Proof.Machine

variable {pq : List Instr} {fu : Fus}

set_option Elab.async false

theorem keeps_setThr (s : State) (th : Th) (t : Thread) (hs : Kept pq fu s) :
    Kept pq fu (State.setThr s th t) := hs
grind_pattern keeps_setThr => Kept pq fu s, State.setThr s th t

theorem keeps_modThr (s : State) (th : Th) (f : Thread → Thread) (hs : Kept pq fu s) :
    Kept pq fu (State.modThr s th f) := hs
grind_pattern keeps_modThr => Kept pq fu s, State.modThr s th f

theorem keeps_setLathe (s : State) (l : Fin 16) (x : Lathe) (hs : Kept pq fu s) :
    Kept pq fu (State.setLathe s l x) := hs
grind_pattern keeps_setLathe => Kept pq fu s, State.setLathe s l x

theorem keeps_modLathe (s : State) (l : Fin 16) (f : Lathe → Lathe) (hs : Kept pq fu s) :
    Kept pq fu (State.modLathe s l f) := hs
grind_pattern keeps_modLathe => Kept pq fu s, State.modLathe s l f

theorem keeps_setBank (s : State) (n : Nat) (x : Bank) (hs : Kept pq fu s) :
    Kept pq fu (State.setBank s n x) := hs
grind_pattern keeps_setBank => Kept pq fu s, State.setBank s n x

theorem keeps_modBank (s : State) (n : Nat) (f : Bank → Bank) (hs : Kept pq fu s) :
    Kept pq fu (State.modBank s n f) := hs
grind_pattern keeps_modBank => Kept pq fu s, State.modBank s n f

theorem keeps_setSpin (s : State) (k : Nat) (x : Spindle) (hs : Kept pq fu s) :
    Kept pq fu (State.setSpin s k x) := hs
grind_pattern keeps_setSpin => Kept pq fu s, State.setSpin s k x

theorem keeps_modSpin (s : State) (k : Nat) (f : Spindle → Spindle) (hs : Kept pq fu s) :
    Kept pq fu (State.modSpin s k f) := hs
grind_pattern keeps_modSpin => Kept pq fu s, State.modSpin s k f

theorem keeps_setGroup (s : State) (g : Nat) (x : Option Group) (hs : Kept pq fu s) :
    Kept pq fu (State.setGroup s g x) := hs
grind_pattern keeps_setGroup => Kept pq fu s, State.setGroup s g x

theorem keeps_modGroup (s : State) (g : Nat) (f : Group → Group) (hs : Kept pq fu s) :
    Kept pq fu (State.modGroup s g f) := hs
grind_pattern keeps_modGroup => Kept pq fu s, State.modGroup s g f

theorem keeps_setInst (s : State) (i : Fin 16) (x : Inst) (hs : Kept pq fu s) :
    Kept pq fu (State.setInst s i x) := hs
grind_pattern keeps_setInst => Kept pq fu s, State.setInst s i x

theorem keeps_modInst (s : State) (i : Fin 16) (f : Inst → Inst) (hs : Kept pq fu s) :
    Kept pq fu (State.modInst s i f) := hs
grind_pattern keeps_modInst => Kept pq fu s, State.modInst s i f

theorem keeps_setSlot (s : State) (r : SlotRef) (x : Slot) (hs : Kept pq fu s) :
    Kept pq fu (State.setSlot s r x) := hs
grind_pattern keeps_setSlot => Kept pq fu s, State.setSlot s r x

theorem keeps_modSlot (s : State) (r : SlotRef) (f : Slot → Slot) (hs : Kept pq fu s) :
    Kept pq fu (State.modSlot s r f) := hs
grind_pattern keeps_modSlot => Kept pq fu s, State.modSlot s r f

theorem keeps_setCtx (s : State) (c : Nat) (x : SealCtx) (hs : Kept pq fu s) :
    Kept pq fu (State.setCtx s c x) := hs
grind_pattern keeps_setCtx => Kept pq fu s, State.setCtx s c x

theorem keeps_modCtx (s : State) (c : Nat) (f : SealCtx → SealCtx) (hs : Kept pq fu s) :
    Kept pq fu (State.modCtx s c f) := hs
grind_pattern keeps_modCtx => Kept pq fu s, State.modCtx s c f

theorem keeps_takeFree (s : State) (hs : Kept pq fu s) :
    Kept pq fu (State.takeFree s).2 := hs
grind_pattern keeps_takeFree => Kept pq fu s, State.takeFree s

theorem keeps_setCell (s : State) (a : Nat) (v : Stored) (hs : Kept pq fu s) :
    Kept pq fu (State.setCell s a v) := ⟨hs.1, hs.2.1, twf_tput 0 a v hs.2.2⟩
grind_pattern keeps_setCell => Kept pq fu s, State.setCell s a v

theorem keeps_writeWord (s : State) (place : Nat) (w : Word) (mask : BitVec 4) (hs : Kept pq fu s) :
    Kept pq fu (State.writeWord s place w mask) := by
  grind -ring -linarith -ac -order -lia [State.writeWord]
grind_pattern keeps_writeWord => Kept pq fu s, State.writeWord s place w mask

theorem keeps_writePoison (s : State) (place : Nat) (mask : BitVec 4) (hs : Kept pq fu s) :
    Kept pq fu (State.writePoison s place mask) := by
  grind -ring -linarith -ac -order -lia [State.writePoison]
grind_pattern keeps_writePoison => Kept pq fu s, State.writePoison s place mask

theorem keeps_lockup (s : State) (th : Th) (fromLevel : BitVec 2) (code : BitVec 6) (hs : Kept pq fu s) :
    Kept pq fu (lockup s th fromLevel code) := by
  grind -ring -linarith -ac -order -lia [lockup]
grind_pattern keeps_lockup => Kept pq fu s, lockup s th fromLevel code

theorem keeps_enterException (s : State) (th : Th) (e : Exc) (xpc : Word) (hs : Kept pq fu s) :
    Kept pq fu (enterException s th e xpc) := by
  grind -ring -linarith -ac -order -lia [enterException]
grind_pattern keeps_enterException => Kept pq fu s, enterException s th e xpc

theorem keeps_takeFpTrap (s : State) (th : Th) (xpc : Word) (hs : Kept pq fu s) :
    Kept pq fu (takeFpTrap s th xpc) := by
  grind -ring -linarith -ac -order -lia [takeFpTrap]
grind_pattern keeps_takeFpTrap => Kept pq fu s, takeFpTrap s th xpc

theorem keeps_takeException (s : State) (th : Th) (e : Exc) (xpc : Word) (hs : Kept pq fu s) :
    Kept pq fu (takeException s th e xpc) := by
  grind -ring -linarith -ac -order -lia [takeException]
grind_pattern keeps_takeException => Kept pq fu s, takeException s th e xpc

theorem keeps_freezeSlots (s : State) (l : Fin 16) (n : Nat) (hs : Kept pq fu s) :
    Kept pq fu (freezeSlots s l n) := by
  grind -ring -linarith -ac -order -lia [freezeSlots]
grind_pattern keeps_freezeSlots => Kept pq fu s, freezeSlots s l n

theorem keeps_takeSlots (s : State) (th : Th) (n : Nat) (hs : Kept pq fu s) :
    Kept pq fu (takeSlots s th n) := by
  grind -ring -linarith -ac -order -lia [takeSlots]
grind_pattern keeps_takeSlots => Kept pq fu s, takeSlots s th n

theorem keeps_twoTurns (s : State) (th : Th) (slot : Nat) (hs : Kept pq fu s) :
    Kept pq fu (twoTurns s th slot) := by
  grind -ring -linarith -ac -order -lia [twoTurns]
grind_pattern keeps_twoTurns => Kept pq fu s, twoTurns s th slot

theorem keeps_entryTurns (s : State) (th : Th) (hs : Kept pq fu s) :
    Kept pq fu (entryTurns s th) := by
  grind -ring -linarith -ac -order -lia [entryTurns]
grind_pattern keeps_entryTurns => Kept pq fu s, entryTurns s th

end Sys2Proof.Machine
end

