-- ==== Sys2Proof/Laws/KeepEvf.lean ====
section
/-! SUPPORT. No operation of Machine/Evf.lean touches the queue, the fuses, or the canonical form of memory: one lemma each. -/
namespace Sys2Proof.Machine

variable {pq : List Instr} {fu : Fus}

set_option Elab.async false

theorem keeps_modChan (s : State) (c : Nat) (f : Channel → Channel) (hs : Kept pq fu s) :
    Kept pq fu (State.modChan s c f) := hs
grind_pattern keeps_modChan => Kept pq fu s, State.modChan s c f

theorem keeps_modCin (s : State) (n : Nat) (f : Cin → Cin) (hs : Kept pq fu s) :
    Kept pq fu (State.modCin s n f) := hs
grind_pattern keeps_modCin => Kept pq fu s, State.modCin s n f

theorem keeps_modLut (s : State) (n : Nat) (f : Lut → Lut) (hs : Kept pq fu s) :
    Kept pq fu (State.modLut s n f) := hs
grind_pattern keeps_modLut => Kept pq fu s, State.modLut s n f

theorem keeps_modTmr (s : State) (n : Nat) (f : Tmr → Tmr) (hs : Kept pq fu s) :
    Kept pq fu (State.modTmr s n f) := hs
grind_pattern keeps_modTmr => Kept pq fu s, State.modTmr s n f

theorem keeps_modPin (s : State) (n : Nat) (f : Pin → Pin) (hs : Kept pq fu s) :
    Kept pq fu (State.modPin s n f) := hs
grind_pattern keeps_modPin => Kept pq fu s, State.modPin s n f

theorem keeps_startCheckpoint (s : State) (hs : Kept pq fu s) :
    Kept pq fu (startCheckpoint s) := by
  unfold startCheckpoint
  split
  · exact hs
  · exact hs
grind_pattern keeps_startCheckpoint => Kept pq fu s, startCheckpoint s

theorem keeps_sendMsg (s : State) (m : WMsg) (hs : Kept pq fu s) :
    Kept pq fu (sendMsg s m) := hs
grind_pattern keeps_sendMsg => Kept pq fu s, sendMsg s m

theorem keeps_transmit (s : State) (t : Tlp) (hs : Kept pq fu s) :
    Kept pq fu (transmit s t) := by
  grind -ring -linarith -ac -order -lia [transmit]
grind_pattern keeps_transmit => Kept pq fu s, transmit s t

theorem keeps_modFn (s : State) (f : Nat) (g : FnCfg → FnCfg) (hs : Kept pq fu s) :
    Kept pq fu (State.modFn s f g) := hs
grind_pattern keeps_modFn => Kept pq fu s, State.modFn s f g

theorem keeps_freeHeader (s : State) (hs : Kept pq fu s) :
    Kept pq fu (freeHeader s).1 := by
  grind -ring -linarith -ac -order -lia [freeHeader]
grind_pattern keeps_freeHeader => Kept pq fu s, freeHeader s

theorem keeps_reportAer (s : State) (fn : Fin 16) (b : Nat) (hs : Kept pq fu s) :
    Kept pq fu (reportAer s fn b) := by
  grind -ring -linarith -ac -order -lia [reportAer]
grind_pattern keeps_reportAer => Kept pq fu s, reportAer s fn b

theorem keeps_ecrcFails (s : State) (fn : Fin 16) (hs : Kept pq fu s) :
    Kept pq fu (ecrcFails s fn) := by
  grind -ring -linarith -ac -order -lia [ecrcFails]
grind_pattern keeps_ecrcFails => Kept pq fu s, ecrcFails s fn

theorem keeps_countCto (s : State) (hs : Kept pq fu s) :
    Kept pq fu (countCto s) := by
  grind -ring -linarith -ac -order -lia [countCto]
grind_pattern keeps_countCto => Kept pq fu s, countCto s

theorem keeps_sendRequest (s : State) (x : Xfer) (hs : Kept pq fu s) :
    Kept pq fu (sendRequest s x) := by
  grind -ring -linarith -ac -order -lia [sendRequest]
grind_pattern keeps_sendRequest => Kept pq fu s, sendRequest s x

theorem keeps_requestRange  (y0 : Nat) (y1 : State) (y2 : Fin 16) (y3 : Nat) (y4 : Nat) (hs : Kept pq fu y1) :
    Kept pq fu (requestRange y0 y1 y2 y3 y4) := by
  fun_induction requestRange y0 y1 y2 y3 y4 <;> grind -ring -linarith -ac -order -lia
grind_pattern keeps_requestRange => Kept pq fu y1, requestRange y0 y1 y2 y3 y4

theorem keeps_deliver (s : State) (n : Nat) (hs : Kept pq fu s) :
    Kept pq fu (deliver s n) := by
  unfold deliver; grind -ring -linarith -ac -order -lia
grind_pattern keeps_deliver => Kept pq fu s, deliver s n

theorem keeps_decideTrigger (s : State) (n : Nat) (hs : Kept pq fu s) :
    Kept pq fu (decideTrigger s n) := by
  grind -ring -linarith -ac -order -lia [decideTrigger]
grind_pattern keeps_decideTrigger => Kept pq fu s, decideTrigger s n

theorem keeps_decideInput (cs : List Nat) (s : State) (n : Nat) (hs : Kept pq fu s) :
    Kept pq fu (decideInput cs s n) := by
  grind -ring -linarith -ac -order -lia [decideInput]
grind_pattern keeps_decideInput => Kept pq fu s, decideInput cs s n

theorem keeps_window (s : State) (cs : List Nat) (hs : Kept pq fu s) :
    Kept pq fu (window s cs) := by
  grind -ring -linarith -ac -order -lia [window]
grind_pattern keeps_window => Kept pq fu s, window s cs

theorem keeps_followPins (s : State) (hs : Kept pq fu s) :
    Kept pq fu (followPins s) := by
  grind -ring -linarith -ac -order -lia [followPins]
grind_pattern keeps_followPins => Kept pq fu s, followPins s

theorem keeps_applyLevel (s : State) (p : Nat) (b : Bool) (hs : Kept pq fu s) :
    Kept pq fu (applyLevel s p b).1 := by
  grind -ring -linarith -ac -order -lia [applyLevel]
grind_pattern keeps_applyLevel => Kept pq fu s, applyLevel s p b

theorem keeps_acceptEvents (s : State) (cs : List Nat) (hs : Kept pq fu s) :
    Kept pq fu (acceptEvents s cs).1 := by
  grind -ring -linarith -ac -order -lia [acceptEvents]
grind_pattern keeps_acceptEvents => Kept pq fu s, acceptEvents s cs

theorem keeps_followLuts (s : State) (hs : Kept pq fu s) :
    Kept pq fu (followLuts s) := by
  grind -ring -linarith -ac -order -lia [followLuts]
grind_pattern keeps_followLuts => Kept pq fu s, followLuts s

theorem keeps_setLutOut (s : State) (n : Nat) (b : Bool) (hs : Kept pq fu s) :
    Kept pq fu (setLutOut s n b).1 := by
  grind -ring -linarith -ac -order -lia [setLutOut]
grind_pattern keeps_setLutOut => Kept pq fu s, setLutOut s n b

theorem keeps_moveLuts (s : State) (ns : List (Nat × Bool)) (hs : Kept pq fu s) :
    Kept pq fu (moveLuts s ns) := by
  grind -ring -linarith -ac -order -lia [moveLuts]
grind_pattern keeps_moveLuts => Kept pq fu s, moveLuts s ns

theorem keeps_settleLuts (loops : List Nat) (y0 : Nat) (y1 : State) (hs : Kept pq fu y1) :
    Kept pq fu (settleLuts loops y0 y1) := by
  fun_induction settleLuts loops y0 y1 <;> grind -ring -linarith -ac -order -lia
grind_pattern keeps_settleLuts => Kept pq fu y1, settleLuts loops y0 y1

theorem keeps_moveLoops (s : State) (loops : List Nat) (hs : Kept pq fu s) :
    Kept pq fu (moveLoops s loops) := by
  grind -ring -linarith -ac -order -lia [moveLoops]
grind_pattern keeps_moveLoops => Kept pq fu s, moveLoops s loops

theorem keeps_settleFabric (s : State) (hs : Kept pq fu s) :
    Kept pq fu (settleFabric s) := by
  grind -ring -linarith -ac -order -lia [settleFabric]
grind_pattern keeps_settleFabric => Kept pq fu s, settleFabric s

theorem keeps_passEvents (s : State) (cs : List Nat) (hs : Kept pq fu s) :
    Kept pq fu (passEvents s cs) := by
  grind -ring -linarith -ac -order -lia [passEvents]
grind_pattern keeps_passEvents => Kept pq fu s, passEvents s cs

theorem keeps_passTogether (s : State) (levels pulses : List Nat) (hs : Kept pq fu s) :
    Kept pq fu (passTogether s levels pulses) := by
  grind -ring -linarith -ac -order -lia [passTogether]
grind_pattern keeps_passTogether => Kept pq fu s, passTogether s levels pulses

theorem keeps_pulseChans (s : State) (cs : List Nat) (hs : Kept pq fu s) :
    Kept pq fu (pulseChans s cs) := by
  grind -ring -linarith -ac -order -lia [pulseChans]
grind_pattern keeps_pulseChans => Kept pq fu s, pulseChans s cs

theorem keeps_firePulse (s : State) (p : Nat) (hs : Kept pq fu s) :
    Kept pq fu (firePulse s p) := by
  grind -ring -linarith -ac -order -lia [firePulse]
grind_pattern keeps_firePulse => Kept pq fu s, firePulse s p

theorem keeps_firePulses (s : State) (p k : Nat) (hs : Kept pq fu s) :
    Kept pq fu (firePulses s p k) := by
  grind -ring -linarith -ac -order -lia [firePulses]
grind_pattern keeps_firePulses => Kept pq fu s, firePulses s p k

theorem keeps_occur (s : State) (moves : List (Nat × Bool)) (pulses : List Nat) (hs : Kept pq fu s) :
    Kept pq fu (occur s moves pulses) := by
  grind -ring -linarith -ac -order -lia [occur]
grind_pattern keeps_occur => Kept pq fu s, occur s moves pulses

theorem keeps_moveLevel (s : State) (p : Nat) (b : Bool) (hs : Kept pq fu s) :
    Kept pq fu (moveLevel s p b) := by
  grind -ring -linarith -ac -order -lia [moveLevel]
grind_pattern keeps_moveLevel => Kept pq fu s, moveLevel s p b

theorem keeps_passHeld (s : State) (c : Nat) (hs : Kept pq fu s) :
    Kept pq fu (passHeld s c) := by
  grind -ring -linarith -ac -order -lia [passHeld]
grind_pattern keeps_passHeld => Kept pq fu s, passHeld s c

theorem keeps_fireChannel (s : State) (c : Nat) (hs : Kept pq fu s) :
    Kept pq fu (fireChannel s c) := by
  grind -ring -linarith -ac -order -lia [fireChannel]
grind_pattern keeps_fireChannel => Kept pq fu s, fireChannel s c

theorem keeps_deliverRemembered (s : State) (n : Nat) (hs : Kept pq fu s) :
    Kept pq fu (deliverRemembered s n) := by
  grind -ring -linarith -ac -order -lia [deliverRemembered]
grind_pattern keeps_deliverRemembered => Kept pq fu s, deliverRemembered s n

theorem keeps_updateJnlFill (s : State) (hs : Kept pq fu s) :
    Kept pq fu (updateJnlFill s) := by
  grind -ring -linarith -ac -order -lia [updateJnlFill]
grind_pattern keeps_updateJnlFill => Kept pq fu s, updateJnlFill s

end Sys2Proof.Machine
end

