-- ==== Sys2Proof/Laws/KeepBackup.lean ====
section
/-! SUPPORT. No operation of Machine/Backup.lean touches the queue, the fuses, or the canonical form of memory: one lemma each. -/
namespace Sys2Proof.Machine

variable {pq : List Instr} {fu : Fus}

set_option Elab.async false

theorem keeps_writeCopy (s : State) (f : OptCopy → OptCopy) (ok : Bool) (hs : Kept pq fu s) :
    Kept pq fu (writeCopy s f ok) := by
  grind -ring -linarith -ac -order -lia [writeCopy]
grind_pattern keeps_writeCopy => Kept pq fu s, writeCopy s f ok

theorem keeps_writeOptions (s : State) (f : OptCopy → OptCopy) (hs : Kept pq fu s) :
    Kept pq fu (writeOptions s f) := by
  grind -ring -linarith -ac -order -lia [writeOptions]
grind_pattern keeps_writeOptions => Kept pq fu s, writeOptions s f

theorem keeps_tornOptions (s : State) (f : OptCopy → OptCopy) (hs : Kept pq fu s) :
    Kept pq fu (tornOptions s f) := by
  grind -ring -linarith -ac -order -lia [tornOptions]
grind_pattern keeps_tornOptions => Kept pq fu s, tornOptions s f

end Sys2Proof.Machine
end

