-- ==== Sys2Proof/Laws/KeepMem.lean ====
section
/-! SUPPORT. No operation of Machine/Mem.lean touches the queue, the fuses, or the canonical form of memory: one lemma each. -/
namespace Sys2Proof.Machine

variable {pq : List Instr} {fu : Fus}

set_option Elab.async false

theorem keeps_recordNown (s : State) (n : Nat) (q : Req) (write : Bool) (row : Nat) (hs : Kept pq fu s) :
    Kept pq fu (recordNown s n q write row) := by
  grind -ring -linarith -ac -order -lia [recordNown]
grind_pattern keeps_recordNown => Kept pq fu s, recordNown s n q write row

theorem keeps_recordStale (s : State) (n : Nat) (q : Req) (hs : Kept pq fu s) :
    Kept pq fu (recordStale s n q) := hs
grind_pattern keeps_recordStale => Kept pq fu s, recordStale s n q

theorem keeps_logErrs (s : State) (es : List ErrEntry) (hs : Kept pq fu s) :
    Kept pq fu (logErrs s es) := by
  grind -ring -linarith -ac -order -lia [logErrs]
grind_pattern keeps_logErrs => Kept pq fu s, logErrs s es

theorem keeps_examine (s : State) (ctl : Bool) (pa : Nat) (mask : BitVec 4) (hs : Kept pq fu s) :
    Kept pq fu (examine s ctl pa mask) := by
  grind -ring -linarith -ac -order -lia [examine]
grind_pattern keeps_examine => Kept pq fu s, examine s ctl pa mask

theorem keeps_readMem (s : State) (q : Req) (ctl : Bool) (pa k : Nat) (mask exam : BitVec 4) (hs : Kept pq fu s) :
    Kept pq fu (readMem s q ctl pa k mask exam).1 := by
  grind -ring -linarith -ac -order -lia [readMem]
grind_pattern keeps_readMem => Kept pq fu s, readMem s q ctl pa k mask exam

theorem keeps_cancelFixes (s : State) (place : Nat) (hs : Kept pq fu s) :
    Kept pq fu (cancelFixes s place) := by
  grind -ring -linarith -ac -order -lia [cancelFixes]
grind_pattern keeps_cancelFixes => Kept pq fu s, cancelFixes s place

theorem keeps_store (s : State) (place : Nat) (w : Word) (mask : BitVec 4) (poison : Bool) (hs : Kept pq fu s) :
    Kept pq fu (State.store s place w mask poison) := by
  grind -ring -linarith -ac -order -lia [State.store]
grind_pattern keeps_store => Kept pq fu s, State.store s place w mask poison

theorem keeps_writeQuad (s : State) (q : Req) (pa : Nat) (ws : List (Word × BitVec 4 × Bool)) (hs : Kept pq fu s) :
    Kept pq fu (writeQuad s q pa ws).1 := by
  grind -ring -linarith -ac -order -lia [writeQuad]
grind_pattern keeps_writeQuad => Kept pq fu s, writeQuad s q pa ws

theorem keeps_writeMem (s : State) (q : Req) (pa : Nat) (w : Word) (mask : BitVec 4) (poison : Bool) (hs : Kept pq fu s) :
    Kept pq fu (writeMem s q pa w mask poison).1 := by
  grind -ring -linarith -ac -order -lia [writeMem]
grind_pattern keeps_writeMem => Kept pq fu s, writeMem s q pa w mask poison

theorem keeps_fabricError (s : State) (m : Master) (timeout write : Bool) (pa : Nat) (hs : Kept pq fu s) :
    Kept pq fu (fabricError s m timeout write pa) := by
  grind -ring -linarith -ac -order -lia [fabricError]
grind_pattern keeps_fabricError => Kept pq fu s, fabricError s m timeout write pa

theorem keeps_haltEngine (s : State) (m : Master) (hs : Kept pq fu s) :
    Kept pq fu (haltEngine s m) := by
  unfold haltEngine; grind -ring -linarith -ac -order -lia
grind_pattern keeps_haltEngine => Kept pq fu s, haltEngine s m

theorem keeps_judgeRead (s : State) (m : Master) (pa : Nat) (ws : List (Word × Bool)) (hs : Kept pq fu s) :
    Kept pq fu (judgeRead s m pa ws).1 := by
  grind -ring -linarith -ac -order -lia [judgeRead]
grind_pattern keeps_judgeRead => Kept pq fu s, judgeRead s m pa ws

end Sys2Proof.Machine
end

