-- ==== Sys2Proof/Laws/KeepMmu.lean ====
section
/-! SUPPORT. No operation of Machine/Mmu.lean touches the queue, the fuses, or the canonical form of memory: one lemma each. -/
namespace Sys2Proof.Machine

variable {pq : List Instr} {fu : Fus}

set_option Elab.async false

theorem keeps_putTlb (s : State) (sel : TlbSel) (es : List TlbEntry) (hs : Kept pq fu s) :
    Kept pq fu (putTlb s sel es) := by
  unfold putTlb; grind -ring -linarith -ac -order -lia
grind_pattern keeps_putTlb => Kept pq fu s, putTlb s sel es

theorem keeps_fillTlb (s : State) (sel : TlbSel) (t : TlbEntry) (old : Option TlbEntry) (hs : Kept pq fu s) :
    Kept pq fu (fillTlb s sel t old) := by
  grind -ring -linarith -ac -order -lia [fillTlb]
grind_pattern keeps_fillTlb => Kept pq fu s, fillTlb s sel t old

theorem keeps_readSteps (s : State) (sel : TlbSel) (y0 : List WalkStep) (y1 : Nat) (hs : Kept pq fu s) :
    Kept pq fu (readSteps s sel y0 y1).1 := by
  fun_induction readSteps s sel y0 y1 <;> grind -ring -linarith -ac -order -lia
grind_pattern keeps_readSteps => Kept pq fu s, readSteps s sel y0 y1

theorem keeps_setAD (s : State) (l : Nat) (addr lv : Nat) (e : Pte) (write : Bool) (hs : Kept pq fu s) :
    Kept pq fu (setAD s l addr lv e write).1 := by
  grind -ring -linarith -ac -order -lia [setAD]
grind_pattern keeps_setAD => Kept pq fu s, setAD s l addr lv e write

theorem keeps_translateMiss (s : State) (c : Ctx) (sel : TlbSel) (acc : AccKind) (va : Word) (dirty : Bool := true) (old : Option TlbEntry := none) (hs : Kept pq fu s) :
    Kept pq fu (translateMiss s c sel acc va dirty old).1 := by
  grind -ring -linarith -ac -order -lia [translateMiss]
grind_pattern keeps_translateMiss => Kept pq fu s, translateMiss s c sel acc va dirty old

theorem keeps_translate (s : State) (c : Ctx) (sel : TlbSel) (acc : AccKind) (va : Word) (dirty : Bool) (hs : Kept pq fu s) :
    Kept pq fu (translate s c sel acc va dirty).1 := by
  grind -ring -linarith -ac -order -lia [translate]
grind_pattern keeps_translate => Kept pq fu s, translate s c sel acc va dirty

theorem keeps_tlbInvalidate (s : State) (l : Fin 16) (va : Word) (hs : Kept pq fu s) :
    Kept pq fu (tlbInvalidate s l va) := by
  grind -ring -linarith -ac -order -lia [tlbInvalidate]
grind_pattern keeps_tlbInvalidate => Kept pq fu s, tlbInvalidate s l va

theorem keeps_tlbInvalidateAll (s : State) (l : Fin 16) (hs : Kept pq fu s) :
    Kept pq fu (tlbInvalidateAll s l) := by
  grind -ring -linarith -ac -order -lia [tlbInvalidateAll]
grind_pattern keeps_tlbInvalidateAll => Kept pq fu s, tlbInvalidateAll s l

end Sys2Proof.Machine
end

