-- ==== Sys2Proof/Laws/KeepOperands.lean ====
section
/-! SUPPORT. No operation of Machine/Operands.lean touches the queue, the fuses, or the canonical form of memory: one lemma each. -/
namespace Sys2Proof.Machine

variable {pq : List Instr} {fu : Fus}

set_option Elab.async false

theorem keeps_addSlot (s : State) (l : Fin 16) (hs : Kept pq fu s) :
    Kept pq fu (addSlot s l) := by
  grind -ring -linarith -ac -order -lia [addSlot]
grind_pattern keeps_addSlot => Kept pq fu s, addSlot s l

theorem keeps_countInstr (s : State) (th : Th) (hs : Kept pq fu s) :
    Kept pq fu (countInstr s th) := by
  grind -ring -linarith -ac -order -lia [countInstr]
grind_pattern keeps_countInstr => Kept pq fu s, countInstr s th

theorem keeps_startSlot (s : State) (th : Th) (hs : Kept pq fu s) :
    Kept pq fu (startSlot s th) := hs
grind_pattern keeps_startSlot => Kept pq fu s, startSlot s th

theorem keeps_finish (th : Th) (slot : Nat) (before : State) (r : State × Res) (hb : Kept pq fu before) (hr : Kept pq fu r.1) :
    Kept pq fu (finish th slot before r) := by
  obtain ⟨s, x⟩ := r
  cases x <;> grind -ring -linarith -ac -order -lia [finish]
grind_pattern keeps_finish => Kept pq fu before, finish th slot before r

theorem keeps_opThread (th : Th) (f : Thread → Thread) (s : State) (hs : Kept pq fu s) :
    Kept pq fu (opThread th f s).1 := hs
grind_pattern keeps_opThread => Kept pq fu s, opThread th f s

theorem keeps_accFault (s s' : State) (th : Th) (p : PendLoad) (e : Exc) (hs : Kept pq fu s) (hs' : Kept pq fu s') :
    Kept pq fu (accFault s s' th p e) := by
  grind -ring -linarith -ac -order -lia [accFault]
grind_pattern keeps_accFault => Kept pq fu s, accFault s s' th p e

end Sys2Proof.Machine
end

