-- ==== Sys2Proof/Laws/KeepRoute.lean ====
section
/-! SUPPORT. No operation of Machine/Route.lean touches the queue, the fuses, or the canonical form of memory: one lemma each. -/
namespace Sys2Proof.Machine

variable {pq : List Instr} {fu : Fus}

set_option Elab.async false

theorem keeps_noPath (s : State) (m : Master) (write : Bool) (pa : Nat) (hs : Kept pq fu s) :
    Kept pq fu (noPath s m write pa) := hs
grind_pattern keeps_noPath => Kept pq fu s, noPath s m write pa

theorem keeps_deliverReply (s : State) (m : Master) (addr : Nat) (ws : List (Word × Bool)) (error : Bool) (hs : Kept pq fu s) :
    Kept pq fu (deliverReply s m addr ws error) := hs
grind_pattern keeps_deliverReply => Kept pq fu s, deliverReply s m addr ws error

theorem keeps_pathError (s : State) (m : Master) (write : Bool) (pa : Nat) (hs : Kept pq fu s) :
    Kept pq fu (pathError s m write pa) := by
  grind -ring -linarith -ac -order -lia [pathError]
grind_pattern keeps_pathError => Kept pq fu s, pathError s m write pa

theorem keeps_intoConv (s : State) (c : Option (Nat × Nat)) (hs : Kept pq fu s) :
    Kept pq fu (intoConv s c) := by
  unfold intoConv; grind -ring -linarith -ac -order -lia
grind_pattern keeps_intoConv => Kept pq fu s, intoConv s c

theorem keeps_sendRemote (s : State) (kind : RKind) (d : BitVec 6) (off : BitVec 26) (write : Bool) (inst : BitVec 4) (ep : BitVec 9) (data : Quad) (mask : BitVec 16) (poison : BitVec 16) (hs : Kept pq fu s) :
    Kept pq fu (sendRemote s kind d off write inst ep data mask poison) := by
  grind -ring -linarith -ac -order -lia [sendRemote]
grind_pattern keeps_sendRemote => Kept pq fu s, sendRemote s kind d off write inst ep data mask poison

theorem keeps_hostReadReq (s : State) (off : BitVec 33) (k : Nat) (hs : Kept pq fu s) :
    Kept pq fu (hostReadReq s off k) := by
  grind -ring -linarith -ac -order -lia [hostReadReq]
grind_pattern keeps_hostReadReq => Kept pq fu s, hostReadReq s off k

theorem keeps_hostWrite (s : State) (off : BitVec 33) (ws : List Word) (hs : Kept pq fu s) :
    Kept pq fu (hostWrite s off ws) := by
  grind -ring -linarith -ac -order -lia [hostWrite]
grind_pattern keeps_hostWrite => Kept pq fu s, hostWrite s off ws

end Sys2Proof.Machine
end

