-- ==== Sys2Proof/Laws/KeepCoreAcc.lean ====
section
/-! SUPPORT. No operation of Machine/CoreAcc.lean touches the queue, the fuses, or the canonical form of memory: one lemma each. -/
namespace Sys2Proof.Machine

variable {pq : List Instr} {fu : Fus}

set_option Elab.async false

theorem keeps_countVar (s : State) (l : Fin 16) (hs : Kept pq fu s) :
    Kept pq fu (countVar s l) := hs
grind_pattern keeps_countVar => Kept pq fu s, countVar s l

theorem keeps_coreTranslate (s : State) (th : Th) (acc : AccKind) (va : Word) (hs : Kept pq fu s) :
    Kept pq fu (coreTranslate s th acc va).1 := by
  grind -ring -linarith -ac -order -lia [coreTranslate]
grind_pattern keeps_coreTranslate => Kept pq fu s, coreTranslate s th acc va

theorem keeps_fillLine (s : State) (l : Fin 16) (ic : Bool) (c : CacheLine) (hs : Kept pq fu s) :
    Kept pq fu (fillLine s l ic c) := by
  grind -ring -linarith -ac -order -lia [fillLine]
grind_pattern keeps_fillLine => Kept pq fu s, fillLine s l ic c

theorem keeps_memWords (s : State) (th : Th) (ic ctl : Bool) (pa k : Nat) (mask : BitVec 4) (hs : Kept pq fu s) :
    Kept pq fu (memWords s th ic ctl pa k mask).1 := by
  grind -ring -linarith -ac -order -lia [memWords]
grind_pattern keeps_memWords => Kept pq fu s, memWords s th ic ctl pa k mask

theorem keeps_tryCache (s : State) (l : Fin 16) (ic : Bool) (pa k : Nat) (mask : BitVec 4) (hs : Kept pq fu s) :
    Kept pq fu (tryCache s l ic pa k mask).1 := by
  grind -ring -linarith -ac -order -lia [tryCache]
grind_pattern keeps_tryCache => Kept pq fu s, tryCache s l ic pa k mask

theorem keeps_dropCache (s : State) (l : Fin 16) (ic : Bool) (hs : Kept pq fu s) :
    Kept pq fu (dropCache s l ic) := hs
grind_pattern keeps_dropCache => Kept pq fu s, dropCache s l ic

theorem keeps_updateLine (s : State) (l : Fin 16) (pa : Nat) (w : Word) (mask : BitVec 4) (hs : Kept pq fu s) :
    Kept pq fu (updateLine s l pa w mask) := by
  grind -ring -linarith -ac -order -lia [updateLine]
grind_pattern keeps_updateLine => Kept pq fu s, updateLine s l pa w mask

theorem keeps_predLearn (s : State) (th : Th) (pc target : Word) (taken : Bool) (hs : Kept pq fu s) :
    Kept pq fu (predLearn s th pc target taken) := by
  grind -ring -linarith -ac -order -lia [predLearn]
grind_pattern keeps_predLearn => Kept pq fu s, predLearn s th pc target taken

theorem keeps_coreWriteArray (s : State) (th : Th) (d : BitVec 6) (off : BitVec 26) (pa : Nat) (ws : List (Word × BitVec 4)) (hs : Kept pq fu s) :
    Kept pq fu (coreWriteArray s th d off pa ws).1 := by
  grind -ring -linarith -ac -order -lia [coreWriteArray]
grind_pattern keeps_coreWriteArray => Kept pq fu s, coreWriteArray s th d off pa ws

theorem keeps_coreWritePlace (s : State) (th : Th) (pa : Nat) (ws : List (Word × BitVec 4)) (hs : Kept pq fu s) :
    Kept pq fu (coreWritePlace s th pa ws).1 := by
  grind -ring -linarith -ac -order -lia [coreWritePlace]
grind_pattern keeps_coreWritePlace => Kept pq fu s, coreWritePlace s th pa ws

theorem keeps_coreWrite (s : State) (th : Th) (pa : Nat) (ws : List (Word × BitVec 4)) (hs : Kept pq fu s) :
    Kept pq fu (coreWrite s th pa ws).1 := by
  unfold coreWrite
  split
  · exact keeps_noPath _ _ _ _ hs
  · generalize areaOf pa = x
    cases x with
    | array d off => exact keeps_coreWriteArray _ _ _ _ _ _ hs
    | host off =>
      dsimp only
      split
      · exact hs
      · split
        · exact hs
        · exact keeps_hostWrite _ _ _ (keeps_intoConv _ _ hs)
    | regs _ => exact hs
    | hsrom => exact hs
    | _ => exact keeps_coreWritePlace _ _ _ _ hs
grind_pattern keeps_coreWrite => Kept pq fu s, coreWrite s th pa ws

theorem keeps_comparatorHit (s : State) (th : Th) (n : Nat) (atOnce : Bool) (hs : Kept pq fu s) :
    Kept pq fu (comparatorHit s th n atOnce) := by
  grind -ring -linarith -ac -order -lia [comparatorHit]
grind_pattern keeps_comparatorHit => Kept pq fu s, comparatorHit s th n atOnce

theorem keeps_dataCompare (s : State) (th : Th) (store : Bool) (va : Word) (values : List Word) (hs : Kept pq fu s) :
    Kept pq fu (dataCompare s th store va values) := by
  grind -ring -linarith -ac -order -lia [dataCompare]
grind_pattern keeps_dataCompare => Kept pq fu s, dataCompare s th store va values

end Sys2Proof.Machine
end

