-- ==== Sys2Proof/Laws/KeepGroupCheck.lean ====
section
/-! SUPPORT. No operation of Machine/GroupCheck.lean touches the queue, the fuses, or the canonical form of memory: one lemma each. -/
namespace Sys2Proof.Machine

variable {pq : List Instr} {fu : Fus}

set_option Elab.async false

theorem keeps_issueAddrs (acc : AccKind) (c : Ctx) (y0 : List IssueEl) (y1 : State) (hs : Kept pq fu y1) :
    Kept pq fu (issueAddrs acc c y0 y1).1 := by
  fun_induction issueAddrs acc c y0 y1 <;> grind -ring -linarith -ac -order -lia
grind_pattern keeps_issueAddrs => Kept pq fu y1, issueAddrs acc c y0 y1

theorem keeps_physChecks (g : Group) (ss : List Str) (y0 : List Str) (y1 : State) (hs : Kept pq fu y1) :
    Kept pq fu (physChecks g ss y0 y1).1 := by
  fun_induction physChecks g ss y0 y1 <;> grind -ring -linarith -ac -order -lia
grind_pattern keeps_physChecks => Kept pq fu y1, physChecks g ss y0 y1

theorem keeps_checkGroup (s : State) (g : Group) (hs : Kept pq fu s) :
    Kept pq fu (checkGroup s g).1 := by
  grind -ring -linarith -ac -order -lia [checkGroup]
grind_pattern keeps_checkGroup => Kept pq fu s, checkGroup s g

end Sys2Proof.Machine
end

