-- ==== Sys2Proof/Laws/KeepElements.lean ====
section
/-! SUPPORT. No operation of Machine/Elements.lean touches the queue, the fuses, or the canonical form of memory: one lemma each. -/
namespace Sys2Proof.Machine

variable {pq : List Instr} {fu : Fus}

set_option Elab.async false

theorem keeps_streamXlate (s : State) (g : Group) (k : Nat) (p : Part) (acc : AccKind) (va : Word) (hs : Kept pq fu s) :
    Kept pq fu (streamXlate s g k p acc va).1 := by
  grind -ring -linarith -ac -order -lia [streamXlate]
grind_pattern keeps_streamXlate => Kept pq fu s, streamXlate s g k p acc va

theorem keeps_streamRead (s : State) (g : Group) (k : Nat) (p : Part) (x : Str) (va : Word) (n : Nat) (mask exam : BitVec 4) (nth : Nat := 0) (hs : Kept pq fu s) :
    Kept pq fu (streamRead s g k p x va n mask exam nth).1 := by
  grind -ring -linarith -ac -order -lia [streamRead]
grind_pattern keeps_streamRead => Kept pq fu s, streamRead s g k p x va n mask exam nth

theorem keeps_gatherOne (ss : List Str) (g : Group) (k : Nat) (p : Part) (i : Nat) (x : Str) (key : Nat × Quad) (wide : Bool) (a : Gather)
    (ha : Kept pq fu a.st) : Kept pq fu (gatherOne ss g k p i x key wide a).st := by
  grind -ring -linarith -ac -order -lia [gatherOne]
grind_pattern keeps_gatherOne => Kept pq fu a.st, gatherOne ss g k p i x key wide a

theorem keeps_gatherPorts (ss : List Str) (g : Group) (k : Nat) (p : Part) (i : Nat) (use : Str → Bool) (s : State) (hs : Kept pq fu s) :
    Kept pq fu (gatherPorts ss g k p i use s).st :=
  foldl_keeps (fun a => Kept pq fu a.st) _ _ _ hs (fun a _ h => keeps_gatherOne _ _ _ _ _ _ _ _ a h)
grind_pattern keeps_gatherPorts => Kept pq fu s, gatherPorts ss g k p i use s

theorem keeps_gatherExpand (ss : List Str) (g : Group) (k : Nat) (p : Part) (i : Nat) (use : Str → Bool) (a : Gather) (ha : Kept pq fu a.st) :
    Kept pq fu (gatherExpand ss g k p i use a).st := by
  refine foldl_keeps (fun (a : Gather) => Kept pq fu a.st) _ _ _ ha (fun a x h => ?_)
  generalize g.members[x.j]? = y
  cases y with
  | none => exact h
  | some m =>
    dsimp only
    split
    all_goals first | exact h | exact keeps_gatherOne _ _ _ _ _ _ _ _ a h | (split <;> first | exact h | exact keeps_gatherOne _ _ _ _ _ _ _ _ a h)
grind_pattern keeps_gatherExpand => Kept pq fu a.st, gatherExpand ss g k p i use a

theorem keeps_evalElement (s : State) (g : Group) (ss : List Str) (k : Nat) (p : Part) (i : Nat) (use : Str → Bool) (hs : Kept pq fu s) :
    (∀ v ev r, evalElement s g ss k p i use = .ok v ev r → Kept pq fu v) ∧
    (∀ v f q, evalElement s g ss k p i use = .fault v f q → Kept pq fu v) := by
  have ha : Kept pq fu (gatherExpand ss g k p i use (gatherPorts ss g k p i use s)).st :=
    keeps_gatherExpand _ _ _ _ _ _ _ (keeps_gatherPorts _ _ _ _ _ _ _ hs)
  unfold evalElement
  grind -ring -linarith -ac -order -lia
grind_pattern keeps_evalElement => Kept pq fu s, evalElement s g ss k p i use

theorem keeps_judgeWrite (s : State) (g : Group) (k : Nat) (p : Part) (x : Str) (va : Word) (hs : Kept pq fu s) :
    Kept pq fu (judgeWrite s g k p x va).1 := by
  grind -ring -linarith -ac -order -lia [judgeWrite]
grind_pattern keeps_judgeWrite => Kept pq fu s, judgeWrite s g k p x va

theorem keeps_storeParts (s : State) (q : Req) (pa : Nat) (ps : List (Nat × Word × BitVec 4 × Bool)) (hs : Kept pq fu s) :
    Kept pq fu (storeParts s q pa ps) := by
  grind -ring -linarith -ac -order -lia [storeParts]
grind_pattern keeps_storeParts => Kept pq fu s, storeParts s q pa ps

theorem keeps_addWrite (ss : List Str) (g : Group) (k : Nat) (p : Part) (a : Prep) (e : Nat) (w : Write) (ha : Kept pq fu a.st) :
    Kept pq fu (addWrite ss g k p a e w).st := by
  have h : (addWrite ss g k p a e w).st = a.st := by
    unfold addWrite
    dsimp only
    generalize replaced a.st g k p w.x w.va w.pa w.stores = r
    cases r with
    | ok pa ws =>
      dsimp only
      generalize remoteGot _ _ _ _ _ _ = q
      split
      · cases q <;> rfl
      · rfl
    | _ => rfl
  rw [h]; exact ha
grind_pattern keeps_addWrite => Kept pq fu a.st, addWrite ss g k p a e w

theorem keeps_prepOne (ss : List Str) (g : Group) (k : Nat) (p : Part) (el : Nat) (a : Prep) (o : Str × Nat × Elem) (ha : Kept pq fu a.st) :
    Kept pq fu (prepOne ss g k p el a o).st := by
  obtain ⟨x, i, e⟩ := o
  have hj := keeps_judgeWrite a.st g k p x (strVa x i) ha
  unfold prepOne
  dsimp only
  split
  · exact ha
  · generalize judgeWrite a.st g k p x (strVa x i) = r at hj ⊢
    obtain ⟨s, r⟩ := r
    cases r with
    | ok pa ws => exact keeps_addWrite _ _ _ _ _ _ _ hj
    | _ => exact hj
grind_pattern keeps_prepOne => Kept pq fu a.st, prepOne ss g k p el a o

theorem keeps_prepMask (ss : List Str) (g : Group) (k : Nat) (p : Part) (i0 i1 : Nat) (fs : List Front) (a : Prep) (x : Str)
    (ha : Kept pq fu a.st) : Kept pq fu (prepMask ss g k p i0 i1 fs a x).st := by
  have h1 : ∀ (c : Prop) [Decidable c] r, (if c then (a.st, Got.ok 0 []) else judgeWrite a.st g k p x (strVa x i0)) = r → Kept pq fu r.1 := by
    rintro c _ r rfl
    split
    · exact ha
    · exact keeps_judgeWrite _ _ _ _ _ _ ha
  have h2 : ∀ (c : Prop) [Decidable c] s pa r, Kept pq fu s →
      (if c then streamRead s g k p x (strVa x i0) 1 0xF 0xF 1 else (s, Got.ok pa [])) = r → Kept pq fu r.1 := by
    rintro c _ s pa r hs rfl
    split
    · exact keeps_streamRead _ _ _ _ _ _ _ _ _ _ hs
    · exact hs
  unfold prepMask
  dsimp only
  split
  · next h => exact h1 _ _ h
  · next h => exact h1 _ _ h
  · next h => exact h1 _ _ h
  · next h =>
    have hs := h1 _ _ h
    split
    · next h => exact h2 _ _ _ _ hs h
    · next h => exact h2 _ _ _ _ hs h
    · next h => exact h2 _ _ _ _ hs h
    · next h =>
      have hs := h2 _ _ _ _ hs h
      split
      · exact hs
      · split
        · exact hs
        · exact keeps_addWrite _ _ _ _ _ _ _ hs
grind_pattern keeps_prepMask => Kept pq fu a.st, prepMask ss g k p i0 i1 fs a x

theorem keeps_formBatch (s : State) (ss : List Str) (g : Group) (k : Nat) (p : Part) (i0 : Nat) (fs : List Front) (hs : Kept pq fu s) :
    Kept pq fu (formBatch s ss g k p i0 fs).st := by
  unfold formBatch
  dsimp only
  refine foldl_keeps (fun (a : Prep) => Kept pq fu a.st) _ _ _ ?_ (fun a x h => keeps_prepMask _ _ _ _ _ _ _ a x h)
  refine foldl_keeps (fun (a : Prep) => Kept pq fu a.st) _ _ _ hs (fun a f h => ?_)
  refine foldl_keeps (fun (a : Prep) => Kept pq fu a.st) _ _ _ h (fun a o h => ?_)
  split
  · split
    · exact h
    · exact keeps_prepOne _ _ _ _ _ _ _ h
  · exact h
grind_pattern keeps_formBatch => Kept pq fu s, formBatch s ss g k p i0 fs

theorem keeps_formWrites (s : State) (ss : List Str) (g : Group) (k : Nat) (p : Part) (i0 : Nat) (y0 : Nat) (y1 : List Front)
    (hs : Kept pq fu s) :
    (∀ v ws n r, formWrites s ss g k p i0 y0 y1 = .ok v ws n r → Kept pq fu v) ∧
    (∀ v f, formWrites s ss g k p i0 y0 y1 = .fault v f → Kept pq fu v) := by
  induction y0 generalizing y1 with
  | zero => constructor <;> (intros; rename_i h; simp [formWrites] at h)
  | succ n ih =>
    have ha := keeps_formBatch s ss g k p i0 y1 hs
    unfold formWrites
    dsimp only
    split
    · simp
    · split
      · split
        · split
          · grind -ring -linarith -ac -order -lia
          · simp
        · exact ih _
      · split <;> grind -ring -linarith -ac -order -lia
grind_pattern keeps_formWrites => Kept pq fu s, formWrites s ss g k p i0 y0 y1

theorem keeps_sealWrite (s : State) (g : Group) (w : Write) (hs : Kept pq fu s) :
    Kept pq fu (sealWrite s g w) := by
  grind -ring -linarith -ac -order -lia [sealWrite]
grind_pattern keeps_sealWrite => Kept pq fu s, sealWrite s g w

theorem keeps_performWrite (k : Nat) (s : State) (g : Group) (w : Write) (hs : Kept pq fu s) :
    Kept pq fu (performWrite k (s, g) w).1 := by
  grind -ring -linarith -ac -order -lia [performWrite]
grind_pattern keeps_performWrite => Kept pq fu s, performWrite k (s, g) w

end Sys2Proof.Machine
end

