-- ==== Sys2Proof/Laws/KeepGroupEnd.lean ====
section
/-! SUPPORT. No operation of Machine/GroupEnd.lean touches the queue, the fuses, or the canonical form of memory: one lemma each. -/
namespace Sys2Proof.Machine

variable {pq : List Instr} {fu : Fus}

set_option Elab.async false

theorem keeps_noteVec (s : State) (l : Fin 16) (code : Nat) (hs : Kept pq fu s) :
    Kept pq fu (noteVec s l code) := by
  grind -ring -linarith -ac -order -lia [noteVec]
grind_pattern keeps_noteVec => Kept pq fu s, noteVec s l code

theorem keeps_faultPart (s : State) (gi : Nat) (g : Group) (i e code sidx : Nat) (fva : Word) (hs : Kept pq fu s) :
    Kept pq fu (faultPart s gi g i e code sidx fva) := by
  grind -ring -linarith -ac -order -lia [faultPart]
grind_pattern keeps_faultPart => Kept pq fu s, faultPart s gi g i e code sidx fva

theorem keeps_sendNeeds (s : State) (g : Group) (gi k : Nat) (ns : List Need) (hs : Kept pq fu s) :
    Kept pq fu (sendNeeds s g gi k ns) := by
  grind -ring -linarith -ac -order -lia [sendNeeds]
grind_pattern keeps_sendNeeds => Kept pq fu s, sendNeeds s g gi k ns

theorem keeps_scratchWrite (s : State) (l : Fin 16) (off : Nat) (w : Word) (po : Bool) (hs : Kept pq fu s) :
    Kept pq fu (scratchWrite s l off w po) := by
  grind -ring -linarith -ac -order -lia [scratchWrite]
grind_pattern keeps_scratchWrite => Kept pq fu s, scratchWrite s l off w po

theorem keeps_writeSpill (s : State) (g : Group) (off : Nat) (hs : Kept pq fu s) :
    Kept pq fu (writeSpill s g off) := by
  grind -ring -linarith -ac -order -lia [writeSpill]
grind_pattern keeps_writeSpill => Kept pq fu s, writeSpill s g off

theorem keeps_writeRecord (s : State) (g : Group) (hs : Kept pq fu s) :
    Kept pq fu (writeRecord s g) := by
  grind -ring -linarith -ac -order -lia [writeRecord]
grind_pattern keeps_writeRecord => Kept pq fu s, writeRecord s g

theorem keeps_saveSeal (g : Group) (aborted : Bool) (s : State) (x : Str) (hs : Kept pq fu s) :
    Kept pq fu (saveSeal g aborted s x) := by
  grind -ring -linarith -ac -order -lia [saveSeal]
grind_pattern keeps_saveSeal => Kept pq fu s, saveSeal g aborted s x

theorem keeps_recordSuspension (g : Group) (s : State) (hs : Kept pq fu s) :
    Kept pq fu (recordSuspension g s) := by
  grind -ring -linarith -ac -order -lia [recordSuspension]
grind_pattern keeps_recordSuspension => Kept pq fu s, recordSuspension g s

theorem keeps_finishGroup (s : State) (gi : Nat) (g : Group) (hs : Kept pq fu s) :
    Kept pq fu (finishGroup s gi g) := by
  grind -ring -linarith -ac -order -lia [finishGroup]
grind_pattern keeps_finishGroup => Kept pq fu s, finishGroup s gi g

theorem keeps_endPart (s : State) (gi : Nat) (i : Nat) (hs : Kept pq fu s) :
    Kept pq fu (endPart s gi i) := by
  grind -ring -linarith -ac -order -lia [endPart]
grind_pattern keeps_endPart => Kept pq fu s, endPart s gi i

theorem keeps_endUnstarted (s : State) (gi : Nat) (hs : Kept pq fu s) :
    Kept pq fu (endUnstarted s gi) := by
  grind -ring -linarith -ac -order -lia [endUnstarted]
grind_pattern keeps_endUnstarted => Kept pq fu s, endUnstarted s gi

theorem keeps_stopGroup (s : State) (gi : Nat) (code : Nat) (hs : Kept pq fu s) :
    Kept pq fu (stopGroup s gi code) := by
  grind -ring -linarith -ac -order -lia [stopGroup]
grind_pattern keeps_stopGroup => Kept pq fu s, stopGroup s gi code

theorem keeps_combineSpan (s : State) (gi : Nat) (g : Group) (hs : Kept pq fu s) : Kept pq fu (combineSpan s gi g).1 := by
  have ha : Kept pq fu ((redOuts (strsOf g.members) g).foldl (prepOne (strsOf g.members) g (g.spindle 0) (redFlags g (g.part 0))
      (redFlags g (g.part 0)).last1) { st := s }).st :=
    foldl_keeps (fun (a : Prep) => Kept pq fu a.st) _ _ _ hs (fun a o h => keeps_prepOne _ _ _ _ _ a o h)
  have hw : ∀ (ws : List Write) (sg : State × Group), Kept pq fu sg.1 → Kept pq fu (ws.foldl (performWrite (g.spindle 0)) sg).1 :=
    fun ws sg h => foldl_keeps (fun (x : State × Group) => Kept pq fu x.1) _ _ _ h (fun x w h => keeps_performWrite _ _ _ _ h)
  unfold combineSpan
  dsimp only
  split
  · exact hs
  · split
    · exact keeps_faultPart _ _ _ _ _ _ _ _ ha
    · split
      · exact keeps_sendNeeds _ _ _ _ _ hs
      · exact keeps_setGroup _ _ _ (hw _ _ ha)
grind_pattern keeps_combineSpan => Kept pq fu s, combineSpan s gi g

theorem keeps_groupEndAt (s : State) (k : Nat) (hs : Kept pq fu s) :
    Kept pq fu (groupEndAt s k) := by
  grind -ring -linarith -ac -order -lia [groupEndAt]
grind_pattern keeps_groupEndAt => Kept pq fu s, groupEndAt s k

end Sys2Proof.Machine
end

