-- ==== Sys2Proof/Laws/KeepGroupRun.lean ====
section
/-! SUPPORT. No operation of Machine/GroupRun.lean touches the queue, the fuses, or the canonical form of memory: one lemma each. -/
namespace Sys2Proof.Machine

variable {pq : List Instr} {fu : Fus}

set_option Elab.async false

theorem keeps_refuseGroup (s : State) (gi : Nat) (g : Group) (f : Fail) (hs : Kept pq fu s) :
    Kept pq fu (refuseGroup s gi g f) := by
  grind -ring -linarith -ac -order -lia [refuseGroup]
grind_pattern keeps_refuseGroup => Kept pq fu s, refuseGroup s gi g f

theorem keeps_loadTable (g : Group) (k : Nat) (p : Part) (x : Str) (y0 : List Nat) (s : State) (y2 : List Word) (hs : Kept pq fu s) :
    Kept pq fu (loadTable g k p x y0 s y2).1 := by
  fun_induction loadTable g k p x y0 s y2 <;> grind -ring -linarith -ac -order -lia
grind_pattern keeps_loadTable => Kept pq fu s, loadTable g k p x y0 s y2

theorem keeps_loadTables (ss : List Str) (g : Group) (k : Nat) (p : Part) (s : State) (hs : Kept pq fu s)
    {out : State × Part × List EFail} (hout : loadTables ss g k p s = some out) : Kept pq fu out.1 := by
  unfold loadTables at hout
  refine foldl_keeps (fun (a : Option (State × Part × List EFail)) => ∀ o, a = some o → Kept pq fu o.1) _ _ _
    (by rintro o ⟨⟩; exact hs) (fun a x h => ?_) _ hout
  cases a with
  | none => simp
  | some a =>
    obtain ⟨s', p', bad⟩ := a
    have h' := h _ rfl
    dsimp only
    split
    · rintro o ⟨⟩; exact h'
    · next y _ =>
      have hl := keeps_loadTable g k p' y (List.range (tableWords x.1.op y.q)) s' [] h'
      split <;> grind -ring -linarith -ac -order -lia
grind_pattern keeps_loadTables => Kept pq fu s, loadTables ss g k p s, some out

theorem keeps_passOver (g : Group) (ss : List Str) (k : Nat) (scans : Bool) (y0 : List Nat) (s : State) (y2 : Part) (y3 : List (Nat × Nat))
    (hs : Kept pq fu s) :
    (∀ v q r, passOver g ss k scans y0 s y2 y3 = .ok v q r → Kept pq fu v) ∧
    (∀ v q e f r, passOver g ss k scans y0 s y2 y3 = .fault v q e f r → Kept pq fu v) := by
  induction y0 generalizing s y2 y3 with
  | nil => grind -ring -linarith -ac -order -lia [passOver]
  | cons i r ih =>
    unfold passOver
    have he := keeps_evalElement s g ss k y2 i (firstPassUse g ss scans) hs
    generalize evalElement s g ss k y2 i (firstPassUse g ss scans) = x at he
    cases x with
    | ok s' ev rr => exact ih _ _ _ (he.1 _ _ _ rfl)
    | fault s' f p => have := he.2 _ _ _ rfl; grind -ring -linarith -ac -order -lia
    | need ns => grind -ring -linarith -ac -order -lia
    | stall => grind -ring -linarith -ac -order -lia
grind_pattern keeps_passOver => Kept pq fu s, passOver g ss k scans y0 s y2 y3

theorem keeps_firstPassPart (g : Group) (ss : List Str) (k : Nat) (p : Part) (c : Carry) (s : State) (hs : Kept pq fu s)
    {out : State × Part × Carry × Option (Nat × EFail) × List (Nat × Nat)} (hout : (firstPassPart g ss k p c s).1 = some out) :
    Kept pq fu out.1 := by
  unfold firstPassPart at hout
  dsimp only at hout
  split at hout
  · cases hout; exact hs
  · split at hout
    · cases hout
    · cases hout
    · next h => cases hout; exact (keeps_passOver _ _ _ _ _ _ _ _ hs).2 _ _ _ _ _ h
    · next h =>
      have h1 := (keeps_passOver _ _ _ _ _ _ _ _ hs).1 _ _ _ h
      split at hout
      · cases hout
      · cases hout
      · next h => cases hout; exact (keeps_passOver _ _ _ _ _ _ _ _ h1).2 _ _ _ _ _ h
      · next h => cases hout; exact (keeps_passOver _ _ _ _ _ _ _ _ h1).1 _ _ _ h
grind_pattern keeps_firstPassPart => Kept pq fu s, firstPassPart g ss k p c s, some out

theorem keeps_passOne (g : Group) (ss : List Str) (i : Nat) (p : Part) (a : Starting) (ha : Kept pq fu a.st) :
    Kept pq fu (passOne g ss i p a).st := by
  unfold passOne
  split
  · exact ha
  · split
    · exact ha
    · exact ha
    · next h => exact keeps_firstPassPart _ _ _ _ _ _ ha (by rw [h])
grind_pattern keeps_passOne => Kept pq fu a.st, passOne g ss i p a

theorem keeps_startOne (g : Group) (ss : List Str) (a : Starting) (i : Nat) (ha : Kept pq fu a.st) :
    Kept pq fu (startOne g ss a i).st := by
  unfold startOne
  dsimp only
  split
  · exact ha
  · split
    · exact ha
    · next s' p' bad hl =>
      have h1 : Kept pq fu s' := by
        split at hl
        · exact keeps_loadTables _ _ _ _ _ ha hl
        · cases hl; exact ha
      exact keeps_passOne _ _ _ _ _ h1
grind_pattern keeps_startOne => Kept pq fu a.st, startOne g ss a i

theorem keeps_placeStreams (g : Group) (n : Str → ET → Nat) (s : State) (hs : Kept pq fu s) :
    Kept pq fu (placeStreams g n s) := by
  grind -ring -linarith -ac -order -lia [placeStreams]
grind_pattern keeps_placeStreams => Kept pq fu s, placeStreams g n s

theorem keeps_claimSlot (g : Group) (s : State) (x : Str) (hs : Kept pq fu s) :
    Kept pq fu (claimSlot g s x) := by
  grind -ring -linarith -ac -order -lia [claimSlot]
grind_pattern keeps_claimSlot => Kept pq fu s, claimSlot g s x

theorem keeps_earlyFault (s : State) (gi : Nat) (x : EarlyFault) (hs : Kept pq fu s) :
    Kept pq fu (earlyFault s gi x) := by
  grind -ring -linarith -ac -order -lia [earlyFault]
grind_pattern keeps_earlyFault => Kept pq fu s, earlyFault s gi x

theorem keeps_startGroup (s : State) (gi : Nat) (g : Group) (hs : Kept pq fu s) :
    Kept pq fu (startGroup s gi g) := by
  have ha : Kept pq fu ((List.range g.parts.length).foldl (startOne g (strsOf g.members))
      { st := s, carry := { ones := List.replicate g.members.length 0, runs := List.replicate g.members.length {} } }).st :=
    foldl_keeps (fun (a : Starting) => Kept pq fu a.st) _ _ _ hs (fun a i h => keeps_startOne g _ a i h)
  unfold startGroup
  dsimp only
  generalize (List.range g.parts.length).foldl (startOne g (strsOf g.members)) _ = a at ha
  split
  · exact foldl_keeps (Kept pq fu) _ _ _ hs (fun s x h => keeps_sendNeeds _ _ _ _ _ h)
  · refine kept_foldl _ _ _ (kept_foldl _ _ _ (keeps_setGroup _ _ _ (kept_foldl _ _ _ (kept_foldl _ _ _ (keeps_placeStreams _ _ _ ha) ?_) ?_)) ?_) ?_
    · exact fun s x h => keeps_claimSlot _ _ _ h
    · exact fun s x h => keeps_modSpin _ _ _ h
    · intro s x h
      split
      · exact h
      · exact keeps_earlyFault _ _ _ h
    · intro s x h
      split
      · exact h
      · split
        · exact keeps_endPart _ _ _ h
        · exact h
grind_pattern keeps_startGroup => Kept pq fu s, startGroup s gi g

theorem keeps_groupStartAt (s : State) (k : Nat) (hs : Kept pq fu s) :
    Kept pq fu (groupStartAt s k) := by
  unfold groupStartAt; grind -ring -linarith -ac -order -lia
grind_pattern keeps_groupStartAt => Kept pq fu s, groupStartAt s k

theorem keeps_pushFront (s : State) (gi : Nat) (g : Group) (i : Nat) (f : Front) (reach : List (Nat × Nat)) (hs : Kept pq fu s) :
    Kept pq fu (pushFront s gi g i f reach) := by
  grind -ring -linarith -ac -order -lia [pushFront]
grind_pattern keeps_pushFront => Kept pq fu s, pushFront s gi g i f reach

theorem keeps_present (s : State) (gi : Nat) (g : Group) (i : Nat) (hs : Kept pq fu s) : Kept pq fu (present s gi g i).1 := by
  have he := keeps_evalElement s g (strsOf g.members) (g.spindle i) (g.part i).front (g.part i).head (fun _ => true) hs
  unfold present
  dsimp only
  split <;> grind -ring -linarith -ac -order -lia
grind_pattern keeps_present => Kept pq fu s, present s gi g i

theorem keeps_advance (s : State) (gi : Nat) (g : Group) (i n : Nat) (ws : List Write) (reach : List (Nat × Nat)) (hs : Kept pq fu s) :
    Kept pq fu (advance s gi g i n ws reach) := by
  have hw : Kept pq fu (ws.foldl (performWrite (g.spindle i)) (s, g)).1 :=
    foldl_keeps (fun (x : State × Group) => Kept pq fu x.1) _ _ _ hs (fun x w h => keeps_performWrite _ _ _ _ h)
  unfold advance
  dsimp only
  split
  · exact keeps_firePulse _ _ (keeps_setGroup _ _ _ hw)
  · exact keeps_setGroup _ _ _ hw
grind_pattern keeps_advance => Kept pq fu s, advance s gi g i n ws reach

theorem keeps_retire (s : State) (gi : Nat) (g : Group) (i : Nat) (fs : List Front) (hs : Kept pq fu s) :
    Kept pq fu (retire s gi g i fs) := by
  have hf := keeps_formWrites s (strsOf g.members) g (g.spindle i) (g.part i) (g.part i).next (fs.length + 1) fs hs
  unfold retire
  dsimp only
  split
  · exact keeps_faultPart _ _ _ _ _ _ _ _ hs
  · split
    · exact hs
    · exact keeps_sendNeeds _ _ _ _ _ hs
    · next h => exact keeps_faultPart _ _ _ _ _ _ _ _ (hf.2 _ _ h)
    · next h => exact keeps_advance _ _ _ _ _ _ _ (hf.1 _ _ _ _ h)
grind_pattern keeps_retire => Kept pq fu s, retire s gi g i fs

theorem keeps_elementStep (s : State) (k : Nat) (hs : Kept pq fu s) :
    Kept pq fu (elementStep s k) := by
  unfold elementStep; grind -ring -linarith -ac -order -lia (splits := 40) (gen := 20)
grind_pattern keeps_elementStep => Kept pq fu s, elementStep s k

end Sys2Proof.Machine
end

