-- ==== Sys2Proof/Laws/KeepInteger.lean ====
section
/-! SUPPORT. No operation of Machine/Integer.lean touches the queue, the fuses, or the canonical form of memory: one lemma each. -/
namespace Sys2Proof.Machine

variable {pq : List Instr} {fu : Fus}

set_option Elab.async false

theorem keeps_opAlu (unary : Bool) (fn : Word → Word → Word) (th : Th) (func : BitVec 7) (f : TFld) (s : State) (hs : Kept pq fu s) :
    Kept pq fu (opAlu unary fn th func f s).1 := by
  grind -ring -linarith -ac -order -lia [opAlu]
grind_pattern keeps_opAlu => Kept pq fu s, opAlu unary fn th func f s

theorem keeps_opImm (fn : Word → BitVec 18 → Word) (th : Th) (f : IFld) (s : State) (hs : Kept pq fu s) :
    Kept pq fu (opImm fn th f s).1 := hs
grind_pattern keeps_opImm => Kept pq fu s, opImm fn th f s

theorem keeps_opAdd (y0 : Th) (y1 : BitVec 7) (y2 : TFld) (s : State) (hs : Kept pq fu s) :
    Kept pq fu (opAdd y0 y1 y2 s).1 := by
  unfold opAdd; grind -ring -linarith -ac -order -lia
grind_pattern keeps_opAdd => Kept pq fu s, opAdd y0 y1 y2 s

theorem keeps_opSub (y0 : Th) (y1 : BitVec 7) (y2 : TFld) (s : State) (hs : Kept pq fu s) :
    Kept pq fu (opSub y0 y1 y2 s).1 := by
  unfold opSub; grind -ring -linarith -ac -order -lia
grind_pattern keeps_opSub => Kept pq fu s, opSub y0 y1 y2 s

theorem keeps_opAnd (y0 : Th) (y1 : BitVec 7) (y2 : TFld) (s : State) (hs : Kept pq fu s) :
    Kept pq fu (opAnd y0 y1 y2 s).1 := by
  unfold opAnd; grind -ring -linarith -ac -order -lia
grind_pattern keeps_opAnd => Kept pq fu s, opAnd y0 y1 y2 s

theorem keeps_opOr (y0 : Th) (y1 : BitVec 7) (y2 : TFld) (s : State) (hs : Kept pq fu s) :
    Kept pq fu (opOr y0 y1 y2 s).1 := by
  unfold opOr; grind -ring -linarith -ac -order -lia
grind_pattern keeps_opOr => Kept pq fu s, opOr y0 y1 y2 s

theorem keeps_opXor (y0 : Th) (y1 : BitVec 7) (y2 : TFld) (s : State) (hs : Kept pq fu s) :
    Kept pq fu (opXor y0 y1 y2 s).1 := by
  unfold opXor; grind -ring -linarith -ac -order -lia
grind_pattern keeps_opXor => Kept pq fu s, opXor y0 y1 y2 s

theorem keeps_opAndn (y0 : Th) (y1 : BitVec 7) (y2 : TFld) (s : State) (hs : Kept pq fu s) :
    Kept pq fu (opAndn y0 y1 y2 s).1 := by
  unfold opAndn; grind -ring -linarith -ac -order -lia
grind_pattern keeps_opAndn => Kept pq fu s, opAndn y0 y1 y2 s

theorem keeps_opShl (y0 : Th) (y1 : BitVec 7) (y2 : TFld) (s : State) (hs : Kept pq fu s) :
    Kept pq fu (opShl y0 y1 y2 s).1 := by
  unfold opShl; grind -ring -linarith -ac -order -lia
grind_pattern keeps_opShl => Kept pq fu s, opShl y0 y1 y2 s

theorem keeps_opShr (y0 : Th) (y1 : BitVec 7) (y2 : TFld) (s : State) (hs : Kept pq fu s) :
    Kept pq fu (opShr y0 y1 y2 s).1 := by
  unfold opShr; grind -ring -linarith -ac -order -lia
grind_pattern keeps_opShr => Kept pq fu s, opShr y0 y1 y2 s

theorem keeps_opShra (y0 : Th) (y1 : BitVec 7) (y2 : TFld) (s : State) (hs : Kept pq fu s) :
    Kept pq fu (opShra y0 y1 y2 s).1 := by
  unfold opShra; grind -ring -linarith -ac -order -lia
grind_pattern keeps_opShra => Kept pq fu s, opShra y0 y1 y2 s

theorem keeps_opRol (y0 : Th) (y1 : BitVec 7) (y2 : TFld) (s : State) (hs : Kept pq fu s) :
    Kept pq fu (opRol y0 y1 y2 s).1 := by
  unfold opRol; grind -ring -linarith -ac -order -lia
grind_pattern keeps_opRol => Kept pq fu s, opRol y0 y1 y2 s

theorem keeps_opSlt (y0 : Th) (y1 : BitVec 7) (y2 : TFld) (s : State) (hs : Kept pq fu s) :
    Kept pq fu (opSlt y0 y1 y2 s).1 := by
  unfold opSlt; grind -ring -linarith -ac -order -lia
grind_pattern keeps_opSlt => Kept pq fu s, opSlt y0 y1 y2 s

theorem keeps_opSltu (y0 : Th) (y1 : BitVec 7) (y2 : TFld) (s : State) (hs : Kept pq fu s) :
    Kept pq fu (opSltu y0 y1 y2 s).1 := by
  unfold opSltu; grind -ring -linarith -ac -order -lia
grind_pattern keeps_opSltu => Kept pq fu s, opSltu y0 y1 y2 s

theorem keeps_opSeq (y0 : Th) (y1 : BitVec 7) (y2 : TFld) (s : State) (hs : Kept pq fu s) :
    Kept pq fu (opSeq y0 y1 y2 s).1 := by
  unfold opSeq; grind -ring -linarith -ac -order -lia
grind_pattern keeps_opSeq => Kept pq fu s, opSeq y0 y1 y2 s

theorem keeps_opMin (y0 : Th) (y1 : BitVec 7) (y2 : TFld) (s : State) (hs : Kept pq fu s) :
    Kept pq fu (opMin y0 y1 y2 s).1 := by
  unfold opMin; grind -ring -linarith -ac -order -lia
grind_pattern keeps_opMin => Kept pq fu s, opMin y0 y1 y2 s

theorem keeps_opMax (y0 : Th) (y1 : BitVec 7) (y2 : TFld) (s : State) (hs : Kept pq fu s) :
    Kept pq fu (opMax y0 y1 y2 s).1 := by
  unfold opMax; grind -ring -linarith -ac -order -lia
grind_pattern keeps_opMax => Kept pq fu s, opMax y0 y1 y2 s

theorem keeps_opMinu (y0 : Th) (y1 : BitVec 7) (y2 : TFld) (s : State) (hs : Kept pq fu s) :
    Kept pq fu (opMinu y0 y1 y2 s).1 := by
  unfold opMinu; grind -ring -linarith -ac -order -lia
grind_pattern keeps_opMinu => Kept pq fu s, opMinu y0 y1 y2 s

theorem keeps_opMaxu (y0 : Th) (y1 : BitVec 7) (y2 : TFld) (s : State) (hs : Kept pq fu s) :
    Kept pq fu (opMaxu y0 y1 y2 s).1 := by
  unfold opMaxu; grind -ring -linarith -ac -order -lia
grind_pattern keeps_opMaxu => Kept pq fu s, opMaxu y0 y1 y2 s

theorem keeps_opClz (y0 : Th) (y1 : BitVec 7) (y2 : TFld) (s : State) (hs : Kept pq fu s) :
    Kept pq fu (opClz y0 y1 y2 s).1 := by
  unfold opClz; grind -ring -linarith -ac -order -lia
grind_pattern keeps_opClz => Kept pq fu s, opClz y0 y1 y2 s

theorem keeps_opPopc (y0 : Th) (y1 : BitVec 7) (y2 : TFld) (s : State) (hs : Kept pq fu s) :
    Kept pq fu (opPopc y0 y1 y2 s).1 := by
  unfold opPopc; grind -ring -linarith -ac -order -lia
grind_pattern keeps_opPopc => Kept pq fu s, opPopc y0 y1 y2 s

theorem keeps_opShifti (th : Th) (f : IFld) (s : State) (hs : Kept pq fu s) :
    Kept pq fu (opShifti th f s).1 := by
  grind -ring -linarith -ac -order -lia [opShifti]
grind_pattern keeps_opShifti => Kept pq fu s, opShifti th f s

theorem keeps_opLui (th : Th) (f : IFld) (s : State) (hs : Kept pq fu s) :
    Kept pq fu (opLui th f s).1 := by
  grind -ring -linarith -ac -order -lia [opLui]
grind_pattern keeps_opLui => Kept pq fu s, opLui th f s

theorem keeps_opAddi (y0 : Th) (y1 : IFld) (s : State) (hs : Kept pq fu s) :
    Kept pq fu (opAddi y0 y1 s).1 := hs
grind_pattern keeps_opAddi => Kept pq fu s, opAddi y0 y1 s

theorem keeps_opAndi (y0 : Th) (y1 : IFld) (s : State) (hs : Kept pq fu s) :
    Kept pq fu (opAndi y0 y1 s).1 := hs
grind_pattern keeps_opAndi => Kept pq fu s, opAndi y0 y1 s

theorem keeps_opOri (y0 : Th) (y1 : IFld) (s : State) (hs : Kept pq fu s) :
    Kept pq fu (opOri y0 y1 s).1 := hs
grind_pattern keeps_opOri => Kept pq fu s, opOri y0 y1 s

theorem keeps_opXori (y0 : Th) (y1 : IFld) (s : State) (hs : Kept pq fu s) :
    Kept pq fu (opXori y0 y1 s).1 := hs
grind_pattern keeps_opXori => Kept pq fu s, opXori y0 y1 s

theorem keeps_opSlti (y0 : Th) (y1 : IFld) (s : State) (hs : Kept pq fu s) :
    Kept pq fu (opSlti y0 y1 s).1 := hs
grind_pattern keeps_opSlti => Kept pq fu s, opSlti y0 y1 s

theorem keeps_opSltiu (y0 : Th) (y1 : IFld) (s : State) (hs : Kept pq fu s) :
    Kept pq fu (opSltiu y0 y1 s).1 := hs
grind_pattern keeps_opSltiu => Kept pq fu s, opSltiu y0 y1 s

end Sys2Proof.Machine
end

