-- ==== Sys2Proof/Laws/KeepSpecialRegs.lean ====
section
/-! SUPPORT. No operation of Machine/SpecialRegs.lean touches the queue, the fuses, or the canonical form of memory: one lemma each. -/
namespace Sys2Proof.Machine

variable {pq : List Instr} {fu : Fus}

set_option Elab.async false

theorem keeps_srRead (s : State) (th : Th) (n : Nat) (hs : Kept pq fu s) :
    Kept pq fu (srRead s th n).1 := by
  unfold srRead; grind -ring -linarith -ac -order -lia
grind_pattern keeps_srRead => Kept pq fu s, srRead s th n

theorem keeps_srWrite (s : State) (th : Th) (n : Nat) (w : Word) (hs : Kept pq fu s) :
    Kept pq fu (srWrite s th n w) := hs
grind_pattern keeps_srWrite => Kept pq fu s, srWrite s th n w

end Sys2Proof.Machine
end

