-- ==== Sys2Proof/Laws/KeepLoads.lean ====
section
/-! SUPPORT. No operation of Machine/Loads.lean touches the queue, the fuses, or the canonical form of memory: one lemma each. -/
namespace Sys2Proof.Machine

variable {pq : List Instr} {fu : Fus}

set_option Elab.async false

theorem keeps_landLoad (s : State) (th : Th) (k : LoadKind) (va : Word) (dead : List Nat) (ws : List (Word × Bool)) (hs : Kept pq fu s) :
    Kept pq fu (landLoad s th k va dead ws).1 := by
  unfold landLoad; grind -ring -linarith -ac -order -lia
grind_pattern keeps_landLoad => Kept pq fu s, landLoad s th k va dead ws

theorem keeps_loadLat (s : State) (th : Th) (k : LoadKind) (slots turns : Nat) (hs : Kept pq fu s) :
    Kept pq fu (loadLat s th k slots turns) := by
  grind -ring -linarith -ac -order -lia [loadLat]
grind_pattern keeps_loadLat => Kept pq fu s, loadLat s th k slots turns

theorem keeps_areaLat (s : State) (th : Th) (k : LoadKind) (pa : Nat) (hs : Kept pq fu s) :
    Kept pq fu (areaLat s th k pa) := by
  grind -ring -linarith -ac -order -lia [areaLat]
grind_pattern keeps_areaLat => Kept pq fu s, areaLat s th k pa

theorem keeps_startAccess (s : State) (th : Th) (k : LoadKind) (va : Word) (pa : Nat) (tag : Option Nat) (hs : Kept pq fu s) :
    Kept pq fu (startAccess s th k va pa tag) := by
  grind -ring -linarith -ac -order -lia [startAccess]
grind_pattern keeps_startAccess => Kept pq fu s, startAccess s th k va pa tag

theorem keeps_startLoad (s : State) (th : Th) (k : LoadKind) (va : Word) (pa : Nat) (hs : Kept pq fu s) :
    Kept pq fu (startLoad s th k va pa).1 := by
  grind -ring -linarith -ac -order -lia [startLoad]
grind_pattern keeps_startLoad => Kept pq fu s, startLoad s th k va pa

theorem keeps_loadAt (s : State) (th : Th) (k : LoadKind) (va : Word) (hs : Kept pq fu s) :
    Kept pq fu (loadAt s th k va).1 := by
  unfold loadAt; grind -ring -linarith -ac -order -lia
grind_pattern keeps_loadAt => Kept pq fu s, loadAt s th k va

theorem keeps_loadAccess (s : State) (th : Th) (p : PendLoad) (resp : LoadResp) (hs : Kept pq fu s) :
    Kept pq fu (loadAccess s th p resp).1 := by
  unfold loadAccess; grind -ring -linarith -ac -order -lia
grind_pattern keeps_loadAccess => Kept pq fu s, loadAccess s th p resp

end Sys2Proof.Machine
end

