-- ==== Sys2Proof/Laws/KeepSystem.lean ====
section
/-! SUPPORT. No operation of Machine/System.lean touches the queue, the fuses, or the canonical form of memory: one lemma each. -/
namespace Sys2Proof.Machine

variable {pq : List Instr} {fu : Fus}

set_option Elab.async false

theorem keeps_opSys (lvl : Level) (legal : TFld → Bool) (body : Th → TFld → State → State × Res) (th : Th) (func : BitVec 7) (f : TFld) (s : State) (hbody : ∀ x0 x1 x2, Kept pq fu x2 → Kept pq fu (body x0 x1 x2).1) (hs : Kept pq fu s) :
    Kept pq fu (opSys lvl legal body th func f s).1 := by
  grind -ring -linarith -ac -order -lia [opSys]
grind_pattern keeps_opSys => Kept pq fu s, opSys lvl legal body th func f s

theorem keeps_opEret (th : Th) (func : BitVec 7) (f : TFld) (s : State) (hs : Kept pq fu s) :
    Kept pq fu (opEret th func f s).1 := by
  grind -ring -linarith -ac -order -lia [opEret]
grind_pattern keeps_opEret => Kept pq fu s, opEret th func f s

theorem keeps_opWait (y0 : Th) (y1 : BitVec 7) (y2 : TFld) (s : State) (hs : Kept pq fu s) :
    Kept pq fu (opWait y0 y1 y2 s).1 := by
  unfold opWait; grind -ring -linarith -ac -order -lia
grind_pattern keeps_opWait => Kept pq fu s, opWait y0 y1 y2 s

theorem keeps_waitWake (s : State) (th : Th) (hs : Kept pq fu s) :
    Kept pq fu (waitWake s th) := by
  grind -ring -linarith -ac -order -lia [waitWake]
grind_pattern keeps_waitWake => Kept pq fu s, waitWake s th

theorem keeps_execWaitWake (th : Th) (s : State) (hs : Kept pq fu s) {out : State} (hout : (execWaitWake th s) = .next out) :
    Kept pq fu out := by
  grind -ring -linarith -ac -order -lia [execWaitWake]

theorem keeps_holdAs (h : Hold) (s : State) (th : Th) (hs : Kept pq fu s) :
    Kept pq fu (holdAs h s th).1 := hs
grind_pattern keeps_holdAs => Kept pq fu s, holdAs h s th

theorem keeps_opFbar (y0 : Th) (y1 : BitVec 7) (y2 : TFld) (s : State) (hs : Kept pq fu s) :
    Kept pq fu (opFbar y0 y1 y2 s).1 := by
  unfold opFbar; grind -ring -linarith -ac -order -lia
grind_pattern keeps_opFbar => Kept pq fu s, opFbar y0 y1 y2 s

theorem keeps_opVfence (y0 : Th) (y1 : BitVec 7) (y2 : TFld) (s : State) (hs : Kept pq fu s) :
    Kept pq fu (opVfence y0 y1 y2 s).1 := by
  unfold opVfence; grind -ring -linarith -ac -order -lia
grind_pattern keeps_opVfence => Kept pq fu s, opVfence y0 y1 y2 s

theorem keeps_memFenceEnd (s : State) (l : Fin 16) (loads code : Bool) (hs : Kept pq fu s) :
    Kept pq fu (memFenceEnd s l loads code).1 := by
  grind -ring -linarith -ac -order -lia [memFenceEnd]
grind_pattern keeps_memFenceEnd => Kept pq fu s, memFenceEnd s l loads code

theorem keeps_opMemFence  (y0 : Bool) (y1 : Bool) (y2 : Bool) (y3 : Th) (y4 : BitVec 7) (y5 : TFld) (y6 : State) (hs : Kept pq fu y6) :
    Kept pq fu (opMemFence y0 y1 y2 y3 y4 y5 y6).1 := by
  unfold opMemFence; grind -ring -linarith -ac -order -lia
grind_pattern keeps_opMemFence => Kept pq fu y6, opMemFence y0 y1 y2 y3 y4 y5 y6

theorem keeps_opFenceR (y0 : Th) (y1 : BitVec 7) (y2 : TFld) (s : State) (hs : Kept pq fu s) :
    Kept pq fu (opFenceR y0 y1 y2 s).1 := by
  unfold opFenceR; grind -ring -linarith -ac -order -lia
grind_pattern keeps_opFenceR => Kept pq fu s, opFenceR y0 y1 y2 s

theorem keeps_opFenceW (y0 : Th) (y1 : BitVec 7) (y2 : TFld) (s : State) (hs : Kept pq fu s) :
    Kept pq fu (opFenceW y0 y1 y2 s).1 := by
  unfold opFenceW; grind -ring -linarith -ac -order -lia
grind_pattern keeps_opFenceW => Kept pq fu s, opFenceW y0 y1 y2 s

theorem keeps_opFenceRW (y0 : Th) (y1 : BitVec 7) (y2 : TFld) (s : State) (hs : Kept pq fu s) :
    Kept pq fu (opFenceRW y0 y1 y2 s).1 := by
  unfold opFenceRW; grind -ring -linarith -ac -order -lia
grind_pattern keeps_opFenceRW => Kept pq fu s, opFenceRW y0 y1 y2 s

theorem keeps_opTlbsync (y0 : Th) (y1 : BitVec 7) (y2 : TFld) (s : State) (hs : Kept pq fu s) :
    Kept pq fu (opTlbsync y0 y1 y2 s).1 := by
  unfold opTlbsync; grind -ring -linarith -ac -order -lia
grind_pattern keeps_opTlbsync => Kept pq fu s, opTlbsync y0 y1 y2 s

theorem keeps_opAfence (y0 : Th) (y1 : BitVec 7) (y2 : TFld) (s : State) (hs : Kept pq fu s) :
    Kept pq fu (opAfence y0 y1 y2 s).1 := by
  unfold opAfence; grind -ring -linarith -ac -order -lia
grind_pattern keeps_opAfence => Kept pq fu s, opAfence y0 y1 y2 s

theorem keeps_opWrpkr (y0 : Th) (y1 : BitVec 7) (y2 : TFld) (s : State) (hs : Kept pq fu s) :
    Kept pq fu (opWrpkr y0 y1 y2 s).1 := by
  unfold opWrpkr; grind -ring -linarith -ac -order -lia
grind_pattern keeps_opWrpkr => Kept pq fu s, opWrpkr y0 y1 y2 s

theorem keeps_opSetvl (y0 : Th) (y1 : BitVec 7) (y2 : TFld) (s : State) (hs : Kept pq fu s) :
    Kept pq fu (opSetvl y0 y1 y2 s).1 := by
  unfold opSetvl; grind -ring -linarith -ac -order -lia
grind_pattern keeps_opSetvl => Kept pq fu s, opSetvl y0 y1 y2 s

theorem keeps_opSetvli (th : Th) (f : IFld) (s : State) (hs : Kept pq fu s) :
    Kept pq fu (opSetvli th f s).1 := by
  grind -ring -linarith -ac -order -lia [opSetvli]
grind_pattern keeps_opSetvli => Kept pq fu s, opSetvli th f s

theorem keeps_opSetsvl (y0 : Th) (y1 : BitVec 7) (y2 : TFld) (s : State) (hs : Kept pq fu s) :
    Kept pq fu (opSetsvl y0 y1 y2 s).1 := by
  unfold opSetsvl; grind -ring -linarith -ac -order -lia
grind_pattern keeps_opSetsvl => Kept pq fu s, opSetsvl y0 y1 y2 s

theorem keeps_opTlbinv (y0 : Th) (y1 : BitVec 7) (y2 : TFld) (s : State) (hs : Kept pq fu s) :
    Kept pq fu (opTlbinv y0 y1 y2 s).1 := by
  unfold opTlbinv; grind -ring -linarith -ac -order -lia
grind_pattern keeps_opTlbinv => Kept pq fu s, opTlbinv y0 y1 y2 s

theorem keeps_opTlbinvall (y0 : Th) (y1 : BitVec 7) (y2 : TFld) (s : State) (hs : Kept pq fu s) :
    Kept pq fu (opTlbinvall y0 y1 y2 s).1 := by
  unfold opTlbinvall; grind -ring -linarith -ac -order -lia
grind_pattern keeps_opTlbinvall => Kept pq fu s, opTlbinvall y0 y1 y2 s

theorem keeps_opMfsr (th : Th) (f : IFld) (s : State) (hs : Kept pq fu s) :
    Kept pq fu (opMfsr th f s).1 := by
  grind -ring -linarith -ac -order -lia [opMfsr]
grind_pattern keeps_opMfsr => Kept pq fu s, opMfsr th f s

theorem keeps_opMtsr (th : Th) (f : IFld) (s : State) (hs : Kept pq fu s) :
    Kept pq fu (opMtsr th f s).1 := by
  grind -ring -linarith -ac -order -lia [opMtsr]
grind_pattern keeps_opMtsr => Kept pq fu s, opMtsr th f s

theorem keeps_atEntry (s : State) (th : Th) (f : State → State) (hs : Kept pq fu s) (hf : ∀ x0, Kept pq fu x0 → Kept pq fu (f x0)) :
    Kept pq fu (atEntry s th f) := by
  grind -ring -linarith -ac -order -lia [atEntry]
grind_pattern keeps_atEntry => Kept pq fu s, atEntry s th f

theorem keeps_interruptEntry (s : State) (th : Th) (hs : Kept pq fu s) :
    Kept pq fu (interruptEntry s th) := by
  grind -ring -linarith -ac -order -lia [interruptEntry]
grind_pattern keeps_interruptEntry => Kept pq fu s, interruptEntry s th

theorem keeps_execInterruptEntry (th : Th) (s : State) (hs : Kept pq fu s) {out : State} (hout : (execInterruptEntry th s) = .next out) :
    Kept pq fu out := by
  grind -ring -linarith -ac -order -lia [execInterruptEntry]

theorem keeps_frameWrite (s : State) (th : Th) (f : Word) (ws : List Word) (hs : Kept pq fu s) :
    Kept pq fu (frameWrite s th f ws).1 := by
  grind -ring -linarith -ac -order -lia [frameWrite]
grind_pattern keeps_frameWrite => Kept pq fu s, frameWrite s th f ws

theorem keeps_upcallDone (s : State) (th : Th) (n : BitVec 6) (f : Word) (hs : Kept pq fu s) :
    Kept pq fu (upcallDone s th n f) := by
  grind -ring -linarith -ac -order -lia [upcallDone]
grind_pattern keeps_upcallDone => Kept pq fu s, upcallDone s th n f

theorem keeps_upcallFails (s : State) (th : Th) (n : BitVec 6) (f : Word) (hs : Kept pq fu s) :
    Kept pq fu (upcallFails s th n f) := by
  grind -ring -linarith -ac -order -lia [upcallFails]
grind_pattern keeps_upcallFails => Kept pq fu s, upcallFails s th n f

theorem keeps_upcall (s : State) (th : Th) (hs : Kept pq fu s) :
    Kept pq fu (upcall s th) := by
  grind -ring -linarith -ac -order -lia [upcall]
grind_pattern keeps_upcall => Kept pq fu s, upcall s th

theorem keeps_execUpcall (th : Th) (s : State) (hs : Kept pq fu s) {out : State} (hout : (execUpcall th s) = .next out) :
    Kept pq fu out := by
  grind -ring -linarith -ac -order -lia [execUpcall]

end Sys2Proof.Machine
end

