-- ==== Sys2Proof/Laws/KeepIssue.lean ====
section
/-! SUPPORT. No operation of Machine/Issue.lean touches the queue, the fuses, or the canonical form of memory: one lemma each. -/
namespace Sys2Proof.Machine

variable {pq : List Instr} {fu : Fus}

set_option Elab.async false

theorem keeps_takeNumber (s : State) (th : Th) (hs : Kept pq fu s) :
    Kept pq fu (takeNumber s th) := hs
grind_pattern keeps_takeNumber => Kept pq fu s, takeNumber s th

theorem keeps_enqueue (s : State) (g : Group) (hs : Kept pq fu s) :
    Kept pq fu (enqueue s g) := by
  unfold enqueue; grind -ring -linarith -ac -order -lia
grind_pattern keeps_enqueue => Kept pq fu s, enqueue s g

theorem keeps_opVector (th : Th) (v : VFld) (s : State) (hs : Kept pq fu s) :
    Kept pq fu (opVector th v s).1 := by
  grind -ring -linarith -ac -order -lia [opVector]
grind_pattern keeps_opVector => Kept pq fu s, opVector th v s

theorem keeps_opVchain (th : Th) (func : BitVec 7) (f : TFld) (s : State) (hs : Kept pq fu s) :
    Kept pq fu (opVchain th func f s).1 := by
  grind -ring -linarith -ac -order -lia [opVchain]
grind_pattern keeps_opVchain => Kept pq fu s, opVchain th func f s

theorem keeps_opVsusp (y0 : Th) (y1 : BitVec 7) (y2 : TFld) (s : State) (hs : Kept pq fu s) :
    Kept pq fu (opVsusp y0 y1 y2 s).1 := by
  unfold opVsusp; grind -ring -linarith -ac -order -lia
grind_pattern keeps_opVsusp => Kept pq fu s, opVsusp y0 y1 y2 s

theorem keeps_readRecord (s : State) (l : Fin 16) (base : Nat) (hs : Kept pq fu s) :
    Kept pq fu (readRecord s l base).1 := by
  grind -ring -linarith -ac -order -lia [readRecord]
grind_pattern keeps_readRecord => Kept pq fu s, readRecord s l base

theorem keeps_refuseResume (s : State) (th : Th) (sp0 : Nat) (hs : Kept pq fu s) :
    Kept pq fu (refuseResume s th sp0).1 := by
  grind -ring -linarith -ac -order -lia [refuseResume]
grind_pattern keeps_refuseResume => Kept pq fu s, refuseResume s th sp0

theorem keeps_readNodes (s : State) (g : Group) (slot : Nat) (hs : Kept pq fu s) :
    Kept pq fu (readNodes s g slot) := by
  grind -ring -linarith -ac -order -lia [readNodes]
grind_pattern keeps_readNodes => Kept pq fu s, readNodes s g slot

theorem keeps_resumeRecord (th : Th) (f : TFld) (s : State) (hs : Kept pq fu s) :
    Kept pq fu (resumeRecord th f s).1 := by
  simp only [resumeRecord]; repeat' split
  all_goals grind -ring -linarith -ac -order -lia
grind_pattern keeps_resumeRecord => Kept pq fu s, resumeRecord th f s

theorem keeps_opVresume (y0 : Th) (y1 : BitVec 7) (y2 : TFld) (s : State) (hs : Kept pq fu s) :
    Kept pq fu (opVresume y0 y1 y2 s).1 := by
  unfold opVresume; grind -ring -linarith -ac -order -lia
grind_pattern keeps_opVresume => Kept pq fu s, opVresume y0 y1 y2 s

end Sys2Proof.Machine
end

