-- ==== Sys2Proof/Laws/KeepBanks.lean ====
section
/-! SUPPORT. No operation of Machine/Banks.lean touches the queue, the fuses, or the canonical form of memory: one lemma each. -/
namespace Sys2Proof.Machine

variable {pq : List Instr} {fu : Fus}

set_option Elab.async false

theorem keeps_dropFixes (s : State) (n : Nat) (hs : Kept pq fu s) :
    Kept pq fu (dropFixes s n) := hs
grind_pattern keeps_dropFixes => Kept pq fu s, dropFixes s n

theorem keeps_bnkOwn (s : State) (n : Nat) (w : Word) (hs : Kept pq fu s) :
    Kept pq fu (bnkOwn s n w) := by
  grind -ring -linarith -ac -order -lia [bnkOwn]
grind_pattern keeps_bnkOwn => Kept pq fu s, bnkOwn s n w

theorem keeps_writeIf (m : Master) (off : Nat) (ok : Bool) (f : State → State) (s : State) (hs : Kept pq fu s) (hf : ∀ x0, Kept pq fu x0 → Kept pq fu (f x0)) :
    Kept pq fu (writeIf m off ok f s) := by
  unfold writeIf
  split <;> grind -ring -linarith -ac -order -lia
grind_pattern keeps_writeIf => Kept pq fu s, writeIf m off ok f s

theorem keeps_giveBanks (s : State) (ns : List Nat) (f : Bank → Bank) (hs : Kept pq fu s) :
    Kept pq fu (giveBanks s ns f) := by
  grind -ring -linarith -ac -order -lia [giveBanks]
grind_pattern keeps_giveBanks => Kept pq fu s, giveBanks s ns f

theorem keeps_takeForTest (s : State) (ns : List Nat) (hs : Kept pq fu s) :
    Kept pq fu (takeForTest s ns) := by
  grind -ring -linarith -ac -order -lia [takeForTest]
grind_pattern keeps_takeForTest => Kept pq fu s, takeForTest s ns

theorem keeps_execBnkOwnWrite (m : Master) (n : Fin 1024) (w : Word) (s : State) (hs : Kept pq fu s) {out : State} (hout : (execBnkOwnWrite m n w s) = .next out) :
    Kept pq fu out := by
  grind -ring -linarith -ac -order -lia [execBnkOwnWrite]

theorem keeps_bnkCfg (s : State) (n : Nat) (w : Word) (hs : Kept pq fu s) :
    Kept pq fu (bnkCfg s n w) := by
  grind -ring -linarith -ac -order -lia [bnkCfg]
grind_pattern keeps_bnkCfg => Kept pq fu s, bnkCfg s n w

theorem keeps_execBnkCfgWrite (m : Master) (n : Fin 1024) (w : Word) (s : State) (hs : Kept pq fu s) {out : State} (hout : (execBnkCfgWrite m n w s) = .next out) :
    Kept pq fu out := by
  grind -ring -linarith -ac -order -lia [execBnkCfgWrite]

theorem keeps_skewEnd (s : State) (k : Nat) (hs : Kept pq fu s) :
    Kept pq fu (skewEnd s k) := by
  grind -ring -linarith -ac -order -lia [skewEnd]
grind_pattern keeps_skewEnd => Kept pq fu s, skewEnd s k

theorem keeps_lockAt (s : State) (n : Nat) (hs : Kept pq fu s) :
    Kept pq fu (lockAt s n) := hs
grind_pattern keeps_lockAt => Kept pq fu s, lockAt s n

theorem keeps_bnkSeal (s : State) (n : Nat) (w : Word) (hs : Kept pq fu s) :
    Kept pq fu (bnkSeal s n w) := by
  grind -ring -linarith -ac -order -lia [bnkSeal]
grind_pattern keeps_bnkSeal => Kept pq fu s, bnkSeal s n w

theorem keeps_execLock (n : Fin 1024) (s : State) (hs : Kept pq fu s) {out : State} (hout : (execLock n s) = .next out) :
    Kept pq fu out := by
  grind -ring -linarith -ac -order -lia [execLock]

theorem keeps_execRelease (n : Fin 1024) (s : State) (hs : Kept pq fu s) {out : State} (hout : (execRelease n s) = .next out) :
    Kept pq fu out := by
  grind -ring -linarith -ac -order -lia [execRelease]

theorem keeps_leaveService (s : State) (k : Nat) (hs : Kept pq fu s) :
    Kept pq fu (leaveService s k) := by
  grind -ring -linarith -ac -order -lia [leaveService]
grind_pattern keeps_leaveService => Kept pq fu s, leaveService s k

theorem keeps_retireBank (s : State) (n : Nat) (hs : Kept pq fu s) :
    Kept pq fu (retireBank s n) := by
  grind -ring -linarith -ac -order -lia [retireBank]
grind_pattern keeps_retireBank => Kept pq fu s, retireBank s n

theorem keeps_stopQueue (s : State) (k code : Nat) (hs : Kept pq fu s) :
    Kept pq fu (stopQueue s k code) := by
  grind -ring -linarith -ac -order -lia [stopQueue]
grind_pattern keeps_stopQueue => Kept pq fu s, stopQueue s k code

theorem keeps_spnCtl (s : State) (k : Nat) (w : Word) (hs : Kept pq fu s) :
    Kept pq fu (spnCtl s k w) := by
  grind -ring -linarith -ac -order -lia [spnCtl]
grind_pattern keeps_spnCtl => Kept pq fu s, spnCtl s k w

theorem keeps_execSpnCtlSusp (m : Master) (k : Fin 128) (s : State) (hs : Kept pq fu s) {out : State} (hout : (execSpnCtlSusp m k s) = .next out) :
    Kept pq fu out := by
  grind -ring -linarith -ac -order -lia [execSpnCtlSusp]

theorem keeps_execSpnCtlAbort (m : Master) (k : Fin 128) (s : State) (hs : Kept pq fu s) {out : State} (hout : (execSpnCtlAbort m k s) = .next out) :
    Kept pq fu out := by
  grind -ring -linarith -ac -order -lia [execSpnCtlAbort]

end Sys2Proof.Machine
end

