-- ==== Sys2Proof/Laws/KeepFrames.lean ====
section
/-! SUPPORT. No operation of Machine/Frames.lean touches the queue, the fuses, or the canonical form of memory: one lemma each. -/
namespace Sys2Proof.Machine

variable {pq : List Instr} {fu : Fus}

set_option Elab.async false

theorem keeps_respond (s : State) (type : Nat) (status : Octet) (payload : List Octet) (hs : Kept pq fu s) :
    Kept pq fu (respond s type status payload) := by
  grind -ring -linarith -ac -order -lia [respond]
grind_pattern keeps_respond => Kept pq fu s, respond s type status payload

theorem keeps_execDone (s : State) (hs : Kept pq fu s) :
    Kept pq fu (execDone s) := hs
grind_pattern keeps_execDone => Kept pq fu s, execDone s

theorem keeps_execExcept (s : State) (e : Cause) (hs : Kept pq fu s) :
    Kept pq fu (execExcept s e) := hs
grind_pattern keeps_execExcept => Kept pq fu s, execExcept s e

end Sys2Proof.Machine
end

