-- ==== Sys2Proof/Laws/KeepRing.lean ====
section
/-! SUPPORT. No operation of Machine/Ring.lean touches the queue, the fuses, or the canonical form of memory: one lemma each. -/
namespace Sys2Proof.Machine

variable {pq : List Instr} {fu : Fus}

set_option Elab.async false

theorem keeps_modMsix (s : State) (f v : Nat) (g : Msix → Msix) (hs : Kept pq fu s) :
    Kept pq fu (State.modMsix s f v g) := hs
grind_pattern keeps_modMsix => Kept pq fu s, State.modMsix s f v g

theorem keeps_signalMsix (s : State) (i : Fin 16) (v : Nat) (hs : Kept pq fu s) :
    Kept pq fu (signalMsix s i v) := by
  grind -ring -linarith -ac -order -lia [signalMsix]
grind_pattern keeps_signalMsix => Kept pq fu s, signalMsix s i v

theorem keeps_linkPulse (s : State) (dev : Nat) (hs : Kept pq fu s) :
    Kept pq fu (linkPulse s dev) := by
  grind -ring -linarith -ac -order -lia [linkPulse]
grind_pattern keeps_linkPulse => Kept pq fu s, linkPulse s dev

theorem keeps_ringWrite (s : State) (i : Fin 16) (e : Entry) (hs : Kept pq fu s) :
    Kept pq fu (ringWrite s i e) := by
  grind -ring -linarith -ac -order -lia [ringWrite]
grind_pattern keeps_ringWrite => Kept pq fu s, ringWrite s i e

theorem keeps_pumpRing (y0 : Nat) (s : State) (y2 : Fin 16) (hs : Kept pq fu s) :
    Kept pq fu (pumpRing y0 s y2) := by
  fun_induction pumpRing y0 s y2 <;> grind -ring -linarith -ac -order -lia
grind_pattern keeps_pumpRing => Kept pq fu s, pumpRing y0 s y2

theorem keeps_pump (s : State) (i : Fin 16) (hs : Kept pq fu s) :
    Kept pq fu (pump s i) := by
  grind -ring -linarith -ac -order -lia [pump]
grind_pattern keeps_pump => Kept pq fu s, pump s i

theorem keeps_postEntry (s : State) (i : Fin 16) (e : Entry) (hs : Kept pq fu s) :
    Kept pq fu (postEntry s i e) := by
  grind -ring -linarith -ac -order -lia [postEntry]
grind_pattern keeps_postEntry => Kept pq fu s, postEntry s i e

theorem keeps_postNotice (s : State) (n : Nat) (granted : Option (Fin 16)) (hs : Kept pq fu s) :
    Kept pq fu (postNotice s n granted) := by
  unfold postNotice; grind -ring -linarith -ac -order -lia
grind_pattern keeps_postNotice => Kept pq fu s, postNotice s n granted

theorem keeps_hostPieces (y0 : Nat) (s : State) (y2 : Fin 16) (y3 : Nat) (y4 : List (Octet × Bool)) (y5 : Bool) (hs : Kept pq fu s) :
    Kept pq fu (hostPieces y0 s y2 y3 y4 y5) := by
  fun_induction hostPieces y0 s y2 y3 y4 y5 <;> grind -ring -linarith -ac -order -lia
grind_pattern keeps_hostPieces => Kept pq fu s, hostPieces y0 s y2 y3 y4 y5

theorem keeps_hostData (s : State) (i : Fin 16) (a : Nat) (o : List (Octet × Bool)) (hs : Kept pq fu s) :
    Kept pq fu (hostData s i a o) := by
  grind -ring -linarith -ac -order -lia [hostData]
grind_pattern keeps_hostData => Kept pq fu s, hostData s i a o

theorem keeps_hostOctets (s : State) (i : Fin 16) (a : Nat) (o : List Octet) (hs : Kept pq fu s) :
    Kept pq fu (hostOctets s i a o) := by
  grind -ring -linarith -ac -order -lia [hostOctets]
grind_pattern keeps_hostOctets => Kept pq fu s, hostOctets s i a o

end Sys2Proof.Machine
end

