-- ==== Sys2Proof/Laws/KeepScrub.lean ====
section
/-! SUPPORT. No operation of Machine/Scrub.lean touches the queue, the fuses, or the canonical form of memory: one lemma each. -/
namespace Sys2Proof.Machine

variable {pq : List Instr} {fu : Fus}

set_option Elab.async false

theorem keeps_saveMap (s : State) (hs : Kept pq fu s) :
    Kept pq fu (saveMap s) := by
  grind -ring -linarith -ac -order -lia [saveMap]
grind_pattern keeps_saveMap => Kept pq fu s, saveMap s

theorem keeps_retireLogged (s : State) (n pa : Nat) (hs : Kept pq fu s) :
    Kept pq fu (retireLogged s n pa) := by
  grind -ring -linarith -ac -order -lia [retireLogged]
grind_pattern keeps_retireLogged => Kept pq fu s, retireLogged s n pa

theorem keeps_hardBank (s : State) (n row col : Nat) (e : ErrEntry) (hs : Kept pq fu s) :
    Kept pq fu (hardBank s n row col e) := by
  grind -ring -linarith -ac -order -lia [hardBank]
grind_pattern keeps_hardBank => Kept pq fu s, hardBank s n row col e

theorem keeps_hardMem (s : State) (tester row : Nat) (e : ErrEntry) (hs : Kept pq fu s) :
    Kept pq fu (hardMem s tester row e) := by
  unfold hardMem; grind -ring -linarith -ac -order -lia
grind_pattern keeps_hardMem => Kept pq fu s, hardMem s tester row e

theorem keeps_hardAt (s : State) (r : Region) (pa j : Nat) (hs : Kept pq fu s) :
    Kept pq fu (hardAt s r pa j) := by
  unfold hardAt; grind -ring -linarith -ac -order -lia
grind_pattern keeps_hardAt => Kept pq fu s, hardAt s r pa j

theorem keeps_setWalk (s : State) (r : Region) (w : Walk) (hs : Kept pq fu s) :
    Kept pq fu (setWalk s r w) := by
  unfold setWalk; grind -ring -linarith -ac -order -lia
grind_pattern keeps_setWalk => Kept pq fu s, setWalk s r w

theorem keeps_scrubNonet (r : Region) (s : State) (paj : Nat × Nat) (hs : Kept pq fu s) :
    Kept pq fu (scrubNonet r s paj) := by
  unfold scrubNonet; grind -ring -linarith -ac -order -lia
grind_pattern keeps_scrubNonet => Kept pq fu s, scrubNonet r s paj

theorem keeps_scrubRead (s : State) (r : Region) (hs : Kept pq fu s) :
    Kept pq fu (scrubRead s r) := by
  grind -ring -linarith -ac -order -lia [scrubRead]
grind_pattern keeps_scrubRead => Kept pq fu s, scrubRead s r

theorem keeps_execScrubRead (r : Region) (s : State) (hs : Kept pq fu s) {out : State} (hout : (execScrubRead r s) = .next out) :
    Kept pq fu out := by
  grind -ring -linarith -ac -order -lia [execScrubRead]

theorem keeps_scrubWriteback (s : State) (r : Region) (hs : Kept pq fu s) :
    Kept pq fu (scrubWriteback s r) := by
  grind -ring -linarith -ac -order -lia [scrubWriteback]
grind_pattern keeps_scrubWriteback => Kept pq fu s, scrubWriteback s r

theorem keeps_execScrubWriteback (r : Region) (s : State) (hs : Kept pq fu s) {out : State} (hout : (execScrubWriteback r s) = .next out) :
    Kept pq fu out := by
  grind -ring -linarith -ac -order -lia [execScrubWriteback]

theorem keeps_marchNext (s : State) (m : March) (g : Nat) (hs : Kept pq fu s) :
    Kept pq fu (marchNext s m g) := by
  grind -ring -linarith -ac -order -lia [marchNext]
grind_pattern keeps_marchNext => Kept pq fu s, marchNext s m g

theorem keeps_marchOver (s : State) (ns : List Nat) (pres repair : Bool) (inst : Option (Fin 16)) (hs : Kept pq fu s) :
    Kept pq fu (marchOver s ns pres repair inst) := by
  grind -ring -linarith -ac -order -lia [marchOver]
grind_pattern keeps_marchOver => Kept pq fu s, marchOver s ns pres repair inst

theorem keeps_scrTcmd (s : State) (w : Word) (hs : Kept pq fu s) :
    Kept pq fu (scrTcmd s w) := by
  grind -ring -linarith -ac -order -lia [scrTcmd]
grind_pattern keeps_scrTcmd => Kept pq fu s, scrTcmd s w

theorem keeps_execMarchGo (m : Master) (w : Word) (s : State) (hs : Kept pq fu s) {out : State} (hout : (execMarchGo m w s) = .next out) :
    Kept pq fu out := by
  grind -ring -linarith -ac -order -lia [execMarchGo]

theorem keeps_marchExamine (s : State) (ns : List Nat) (hs : Kept pq fu s) :
    Kept pq fu (marchExamine s ns) := by
  grind -ring -linarith -ac -order -lia [marchExamine]
grind_pattern keeps_marchExamine => Kept pq fu s, marchExamine s ns

theorem keeps_marchContent (s : State) (ns : List Nat) (pres : Bool) (hs : Kept pq fu s) :
    Kept pq fu (marchContent s ns pres) := by
  grind -ring -linarith -ac -order -lia [marchContent]
grind_pattern keeps_marchContent => Kept pq fu s, marchContent s ns pres

theorem keeps_repairBank (s : State) (n : Nat) (fails : List CellFail) (hs : Kept pq fu s) :
    Kept pq fu (repairBank s n fails) := by
  grind -ring -linarith -ac -order -lia [repairBank]
grind_pattern keeps_repairBank => Kept pq fu s, repairBank s n fails

theorem keeps_marchGroupDone (s : State) (fails : List CellFail) (hs : Kept pq fu s) :
    Kept pq fu (marchGroupDone s fails) := by
  unfold marchGroupDone
  split <;> grind -ring -linarith -ac -order -lia
grind_pattern keeps_marchGroupDone => Kept pq fu s, marchGroupDone s fails

theorem keeps_marchRest  (y0 : Nat) (y1 : State) (hs : Kept pq fu y1) :
    Kept pq fu (marchRest y0 y1) := by
  fun_induction marchRest y0 y1 <;> grind -ring -linarith -ac -order -lia
grind_pattern keeps_marchRest => Kept pq fu y1, marchRest y0 y1

theorem keeps_testerFails (s : State) (t : Nat) (fails : List Nat) (hs : Kept pq fu s) :
    Kept pq fu (testerFails s t fails) := by
  grind -ring -linarith -ac -order -lia [testerFails]
grind_pattern keeps_testerFails => Kept pq fu s, testerFails s t fails

theorem keeps_bgTest (s : State) (t : Nat) (fails : List (Fin 256)) (hs : Kept pq fu s) :
    Kept pq fu (bgTest s t fails) := by
  grind -ring -linarith -ac -order -lia [bgTest]
grind_pattern keeps_bgTest => Kept pq fu s, bgTest s t fails

theorem keeps_execBgTestRegion (t : Fin 18) (fails : List (Fin 256)) (s : State) (hs : Kept pq fu s) {out : State} (hout : (execBgTestRegion t fails s) = .next out) :
    Kept pq fu out := by
  grind -ring -linarith -ac -order -lia [execBgTestRegion]

theorem keeps_popElog (s : State) (hs : Kept pq fu s) :
    Kept pq fu (popElog s) := hs
grind_pattern keeps_popElog => Kept pq fu s, popElog s

theorem keeps_elogPop (s : State) (m : Master) (hs : Kept pq fu s) :
    Kept pq fu (elogPop s m) := by
  grind -ring -linarith -ac -order -lia [elogPop]
grind_pattern keeps_elogPop => Kept pq fu s, elogPop s m

theorem keeps_execElogPop (m : Master) (s : State) (hs : Kept pq fu s) {out : State} (hout : (execElogPop m s) = .next out) :
    Kept pq fu out := by
  grind -ring -linarith -ac -order -lia [execElogPop]

end Sys2Proof.Machine
end

