-- ==== Sys2Proof/Laws/KeepTime.lean ====
section
/-! SUPPORT. No operation of Machine/Time.lean touches the queue, the fuses, or the canonical form of memory: one lemma each. -/
namespace Sys2Proof.Machine

variable {pq : List Instr} {fu : Fus}

set_option Elab.async false

theorem keeps_countTicks (s : State) (k : Nat) (runs : Runs) (hs : Kept pq fu s) :
    Kept pq fu (countTicks s k runs) := by
  grind -ring -linarith -ac -order -lia [countTicks]
grind_pattern keeps_countTicks => Kept pq fu s, countTicks s k runs

end Sys2Proof.Machine
end

