-- ==== Sys2Proof/Laws/KeepEvfOps.lean ====
section
/-! SUPPORT. No operation of Machine/EvfOps.lean touches the queue, the fuses, or the canonical form of memory: one lemma each. -/
namespace Sys2Proof.Machine

variable {pq : List Instr} {fu : Fus}

set_option Elab.async false

theorem keeps_execHeldEventPass (c : Fin 128) (s : State) (hs : Kept pq fu s) {out : State} (hout : (execHeldEventPass c s) = .next out) :
    Kept pq fu out := by
  grind -ring -linarith -ac -order -lia [execHeldEventPass]

theorem keeps_execRememberedTrigger (n : BitVec 10) (s : State) (hs : Kept pq fu s) {out : State} (hout : (execRememberedTrigger n s) = .next out) :
    Kept pq fu out := by
  grind -ring -linarith -ac -order -lia [execRememberedTrigger]

theorem keeps_evfFire (s : State) (m : Master) (w : Word) (hs : Kept pq fu s) :
    Kept pq fu (evfFire s m w) := by
  grind -ring -linarith -ac -order -lia [evfFire]
grind_pattern keeps_evfFire => Kept pq fu s, evfFire s m w

theorem keeps_execEvfFire (m : Master) (w : Word) (s : State) (hs : Kept pq fu s) {out : State} (hout : (execEvfFire m w s) = .next out) :
    Kept pq fu out := by
  grind -ring -linarith -ac -order -lia [execEvfFire]

theorem keeps_ppsTo (s : State) (b : Bool) (hs : Kept pq fu s) :
    Kept pq fu (ppsTo s b) := by
  grind -ring -linarith -ac -order -lia [ppsTo]
grind_pattern keeps_ppsTo => Kept pq fu s, ppsTo s b

theorem keeps_pinTo (s : State) (p : Nat) (b : Bool) (hs : Kept pq fu s) :
    Kept pq fu (pinTo s p b) := by
  grind -ring -linarith -ac -order -lia [pinTo]
grind_pattern keeps_pinTo => Kept pq fu s, pinTo s p b

theorem keeps_evfRead (s : State) (off : Nat) (hs : Kept pq fu s) :
    Kept pq fu (evfRead s off).1 := by
  grind -ring -linarith -ac -order -lia [evfRead]
grind_pattern keeps_evfRead => Kept pq fu s, evfRead s off

theorem keeps_chWrite (s : State) (c : Nat) (w : Word) (hs : Kept pq fu s) :
    Kept pq fu (chWrite s c w) := by
  grind -ring -linarith -ac -order -lia [chWrite]
grind_pattern keeps_chWrite => Kept pq fu s, chWrite s c w

theorem keeps_cinWrite (s : State) (n : Nat) (w : Word) (hs : Kept pq fu s) :
    Kept pq fu (cinWrite s n w) := by
  grind -ring -linarith -ac -order -lia [cinWrite]
grind_pattern keeps_cinWrite => Kept pq fu s, cinWrite s n w

theorem keeps_evfWrite (s : State) (off : Nat) (w : Word) (hs : Kept pq fu s) :
    Kept pq fu (evfWrite s off w) := by
  grind -ring -linarith -ac -order -lia [evfWrite]
grind_pattern keeps_evfWrite => Kept pq fu s, evfWrite s off w

end Sys2Proof.Machine
end

