-- ==== Sys2Proof/Laws/KeepTail.lean ====
section
/-! SUPPORT. No operation of Machine/Tail.lean touches the queue, the fuses, or the canonical form of memory: one lemma each. -/
namespace Sys2Proof.Machine

variable {pq : List Instr} {fu : Fus}

set_option Elab.async false

theorem keeps_commitNow (s : State) (p : JProto) (hs : Kept pq fu s) :
    Kept pq fu (commitNow s p) := by
  grind -ring -linarith -ac -order -lia [commitNow]
grind_pattern keeps_commitNow => Kept pq fu s, commitNow s p

theorem keeps_finishSlot (s : State) (f : Option (SlotRef × Entry)) (hs : Kept pq fu s) :
    Kept pq fu (finishSlot s f) := by
  unfold finishSlot; grind -ring -linarith -ac -order -lia
grind_pattern keeps_finishSlot => Kept pq fu s, finishSlot s f

theorem keeps_commitWith (s : State) (p : JProto) (f : Option (SlotRef × Entry)) (hs : Kept pq fu s) :
    Kept pq fu (commitWith s p f) := by
  grind -ring -linarith -ac -order -lia [commitWith]
grind_pattern keeps_commitWith => Kept pq fu s, commitWith s p f

theorem keeps_commit (s : State) (p : JProto) (hs : Kept pq fu s) :
    Kept pq fu (commit s p) := by
  grind -ring -linarith -ac -order -lia [commit]
grind_pattern keeps_commit => Kept pq fu s, commit s p

theorem keeps_flushWithheld (y0 : Nat) (s : State) (hs : Kept pq fu s) :
    Kept pq fu (flushWithheld y0 s) := by
  fun_induction flushWithheld y0 s <;> grind -ring -linarith -ac -order -lia
grind_pattern keeps_flushWithheld => Kept pq fu s, flushWithheld y0 s

theorem keeps_flushJournal (s : State) (hs : Kept pq fu s) :
    Kept pq fu (flushJournal s) := by
  grind -ring -linarith -ac -order -lia [flushJournal]
grind_pattern keeps_flushJournal => Kept pq fu s, flushJournal s

theorem keeps_writeStaged (s : State) (hs : Kept pq fu s) :
    Kept pq fu (writeStaged s) := by
  grind -ring -linarith -ac -order -lia [writeStaged]
grind_pattern keeps_writeStaged => Kept pq fu s, writeStaged s

theorem keeps_journalWrite (s : State) (hs : Kept pq fu s) :
    Kept pq fu (journalWrite s) := by
  grind -ring -linarith -ac -order -lia [journalWrite]
grind_pattern keeps_journalWrite => Kept pq fu s, journalWrite s

theorem keeps_execJournalWrite (s : State) (hs : Kept pq fu s) {out : State} (hout : (execJournalWrite s) = .next out) :
    Kept pq fu out := by
  grind -ring -linarith -ac -order -lia [execJournalWrite]

theorem keeps_drainStaging (y0 : Nat) (s : State) (hs : Kept pq fu s) :
    Kept pq fu (drainStaging y0 s) := by
  fun_induction drainStaging y0 s <;> grind -ring -linarith -ac -order -lia
grind_pattern keeps_drainStaging => Kept pq fu s, drainStaging y0 s

theorem keeps_drainRing  (y0 : Nat) (y1 : State) (hs : Kept pq fu y1) :
    Kept pq fu (drainRing y0 y1) := by
  fun_induction drainRing y0 y1 <;> grind -ring -linarith -ac -order -lia
grind_pattern keeps_drainRing => Kept pq fu y1, drainRing y0 y1

theorem keeps_settleStaging (s : State) (hs : Kept pq fu s) :
    Kept pq fu (settleStaging s) := by
  grind -ring -linarith -ac -order -lia [settleStaging]
grind_pattern keeps_settleStaging => Kept pq fu s, settleStaging s

theorem keeps_flushStaging (s : State) (hs : Kept pq fu s) :
    Kept pq fu (flushStaging s) := by
  grind -ring -linarith -ac -order -lia [flushStaging]
grind_pattern keeps_flushStaging => Kept pq fu s, flushStaging s

theorem keeps_checkpointWritten (s : State) (hs : Kept pq fu s) :
    Kept pq fu (checkpointWritten s) := by
  grind -ring -linarith -ac -order -lia [checkpointWritten]
grind_pattern keeps_checkpointWritten => Kept pq fu s, checkpointWritten s

theorem keeps_execCheckpointWritten (s : State) (hs : Kept pq fu s) {out : State} (hout : (execCheckpointWritten s) = .next out) :
    Kept pq fu out := by
  grind -ring -linarith -ac -order -lia [execCheckpointWritten]

theorem keeps_modOut (s : State) (c k : Nat) (f : OutSlot → OutSlot) (hs : Kept pq fu s) :
    Kept pq fu (State.modOut s c k f) := hs
grind_pattern keeps_modOut => Kept pq fu s, State.modOut s c k f

theorem keeps_modIn (s : State) (c k : Nat) (f : InSlot → InSlot) (hs : Kept pq fu s) :
    Kept pq fu (State.modIn s c k f) := hs
grind_pattern keeps_modIn => Kept pq fu s, State.modIn s c k f

theorem keeps_countStale (s : State) (hs : Kept pq fu s) :
    Kept pq fu (countStale s) := hs
grind_pattern keeps_countStale => Kept pq fu s, countStale s

theorem keeps_sealMessage (s : State) (c : Nat) (ep : BitVec 9) (dev : Option Nat) (hs : Kept pq fu s) :
    Kept pq fu (sealMessage s c ep dev).2 := by
  unfold sealMessage; grind -ring -linarith -ac -order -lia
grind_pattern keeps_sealMessage => Kept pq fu s, sealMessage s c ep dev

theorem keeps_sendLeaf (c : Nat) (k : Fin 16) (j : Nat) (ep : BitVec 9) (s : State) (home : BitVec 6) (hs : Kept pq fu s) :
    Kept pq fu (sendLeaf c k j ep s home) := by
  grind -ring -linarith -ac -order -lia [sendLeaf]
grind_pattern keeps_sendLeaf => Kept pq fu s, sendLeaf c k j ep s home

theorem keeps_leafDigest (s : State) (c : BitVec 8) (k : Fin 16) (j : Nat) (ep : BitVec 9) (away : Option (BitVec 6 × AwayLeaf)) (hs : Kept pq fu s) :
    Kept pq fu (leafDigest s c k j ep away) := by
  have h0 : Kept pq fu (if away.isNone then (guestsOf s c).foldl (fun s x => sendLeaf x.1 k j ep s x.2) s else s) := by
    grind -ring -linarith -ac -order -lia
  have h1 := keeps_sealMessage _ c.toNat ep (away.map (fun a => a.1.toNat)) h0
  unfold leafDigest
  dsimp only
  split
  · next h => rw [h] at h1; exact h1
  · next h =>
    rw [h] at h1
    cases away <;> grind -ring -linarith -ac -order -lia
grind_pattern keeps_leafDigest => Kept pq fu s, leafDigest s c k j ep away

theorem keeps_execLeafDigest (c : BitVec 8) (k : Fin 16) (j : LeafRef) (ep : BitVec 9) (s : State) (hs : Kept pq fu s) {out : State} (hout : (execLeafDigest c k j ep s) = .next out) :
    Kept pq fu out := by
  grind -ring -linarith -ac -order -lia [execLeafDigest]

theorem keeps_spongeState (s : State) (c : BitVec 8) (ep : BitVec 9) (away : Option (BitVec 6)) (hs : Kept pq fu s) :
    Kept pq fu (spongeState s c ep away) := by
  grind -ring -linarith -ac -order -lia [spongeState]
grind_pattern keeps_spongeState => Kept pq fu s, spongeState s c ep away

theorem keeps_execSpongeState (c : BitVec 8) (k : Fin 16) (ep : BitVec 9) (away : Option (BitVec 6)) (s : State) (hs : Kept pq fu s) {out : State} (hout : (execSpongeState c k ep away s) = .next out) :
    Kept pq fu out := by
  grind -ring -linarith -ac -order -lia [execSpongeState]

theorem keeps_holdRange (s : State) (first n : Nat) (hs : Kept pq fu s) :
    Kept pq fu (holdRange s first n) := by
  grind -ring -linarith -ac -order -lia [holdRange]
grind_pattern keeps_holdRange => Kept pq fu s, holdRange s first n

theorem keeps_freeRange (s : State) (first n : Nat) (hs : Kept pq fu s) :
    Kept pq fu (freeRange s first n) := by
  grind -ring -linarith -ac -order -lia [freeRange]
grind_pattern keeps_freeRange => Kept pq fu s, freeRange s first n

theorem keeps_bindSlot (s : State) (c k first n : Nat) (hs : Kept pq fu s) :
    Kept pq fu (bindSlot s c k first n).1 := by
  grind -ring -linarith -ac -order -lia [bindSlot]
grind_pattern keeps_bindSlot => Kept pq fu s, bindSlot s c k first n

theorem keeps_unbindAll (s : State) (c : Nat) (hs : Kept pq fu s) :
    Kept pq fu (unbindAll s c) := by
  grind -ring -linarith -ac -order -lia [unbindAll]
grind_pattern keeps_unbindAll => Kept pq fu s, unbindAll s c

theorem keeps_dropCtx (s : State) (c : Nat) (hs : Kept pq fu s) :
    Kept pq fu (dropCtx s c) := by
  grind -ring -linarith -ac -order -lia [dropCtx]
grind_pattern keeps_dropCtx => Kept pq fu s, dropCtx s c

theorem keeps_abandonCtxs (s : State) (i : Option (Fin 16)) (hs : Kept pq fu s) :
    Kept pq fu (abandonCtxs s i) := by
  grind -ring -linarith -ac -order -lia [abandonCtxs]
grind_pattern keeps_abandonCtxs => Kept pq fu s, abandonCtxs s i

theorem keeps_freeBufs (s : State) (r : SlotRef) (hs : Kept pq fu s) :
    Kept pq fu (freeBufs s r) := hs
grind_pattern keeps_freeBufs => Kept pq fu s, freeBufs s r

theorem keeps_finishCmd (s : State) (r : SlotRef) (status : BitVec 16) (r0 r1 : BitVec 64) (hs : Kept pq fu s) :
    Kept pq fu (finishCmd s r status r0 r1) := by
  grind -ring -linarith -ac -order -lia [finishCmd]
grind_pattern keeps_finishCmd => Kept pq fu s, finishCmd s r status r0 r1

theorem keeps_closeCtx (s : State) (c : Nat) (r : SlotRef) (hs : Kept pq fu s) :
    Kept pq fu (closeCtx s c r) := by
  grind -ring -linarith -ac -order -lia [closeCtx]
grind_pattern keeps_closeCtx => Kept pq fu s, closeCtx s c r

theorem keeps_requestClose (s : State) (c : Nat) (r : SlotRef) (hs : Kept pq fu s) :
    Kept pq fu (requestClose s c r) := by
  grind -ring -linarith -ac -order -lia [requestClose]
grind_pattern keeps_requestClose => Kept pq fu s, requestClose s c r

theorem keeps_signatureDone (s : State) (hs : Kept pq fu s) :
    Kept pq fu (signatureDone s) := by
  grind -ring -linarith -ac -order -lia [signatureDone]
grind_pattern keeps_signatureDone => Kept pq fu s, signatureDone s

theorem keeps_execSignatureDone (s : State) (hs : Kept pq fu s) {out : State} (hout : (execSignatureDone s) = .next out) :
    Kept pq fu out := by
  grind -ring -linarith -ac -order -lia [execSignatureDone]

theorem keeps_hashCopy (k : Fin 16) (s : State) (g : Nat × BitVec 6) (hs : Kept pq fu s) :
    Kept pq fu (hashCopy k s g) := by
  grind -ring -linarith -ac -order -lia [hashCopy]
grind_pattern keeps_hashCopy => Kept pq fu s, hashCopy k s g

theorem keeps_lockBindingHashDone (s : State) (c : BitVec 8) (k : Fin 16) (hs : Kept pq fu s) :
    Kept pq fu (lockBindingHashDone s c k) := by
  grind -ring -linarith -ac -order -lia [lockBindingHashDone]
grind_pattern keeps_lockBindingHashDone => Kept pq fu s, lockBindingHashDone s c k

theorem keeps_execLockBindingHashDone (c : BitVec 8) (k : Fin 16) (s : State) (hs : Kept pq fu s) {out : State} (hout : (execLockBindingHashDone c k s) = .next out) :
    Kept pq fu out := by
  grind -ring -linarith -ac -order -lia [execLockBindingHashDone]

theorem keeps_copiedRangeRoot (s : State) (c : BitVec 8) (k : Fin 16) (first : BitVec 34) (root : List Octet) (hs : Kept pq fu s) :
    Kept pq fu (copiedRangeRoot s c k first root) := by
  grind -ring -linarith -ac -order -lia [copiedRangeRoot]
grind_pattern keeps_copiedRangeRoot => Kept pq fu s, copiedRangeRoot s c k first root

theorem keeps_execCopiedRangeRoot (c : BitVec 8) (k : Fin 16) (first : BitVec 34) (root : List Octet) (s : State) (hs : Kept pq fu s) {out : State} (hout : (execCopiedRangeRoot c k first root s) = .next out) :
    Kept pq fu out := by
  grind -ring -linarith -ac -order -lia [execCopiedRangeRoot]

theorem keeps_setLive (s : State) (x : Sensor) (b : Bool) (hs : Kept pq fu s) :
    Kept pq fu (setLive s x b) := hs
grind_pattern keeps_setLive => Kept pq fu s, setLive s x b

theorem keeps_tamperLevel (s : State) (hs : Kept pq fu s) :
    Kept pq fu (tamperLevel s) := by
  grind -ring -linarith -ac -order -lia [tamperLevel]
grind_pattern keeps_tamperLevel => Kept pq fu s, tamperLevel s

theorem keeps_lockdownStart (s : State) (x : Sensor) (hs : Kept pq fu s) :
    Kept pq fu (lockdownStart s x) := by
  grind -ring -linarith -ac -order -lia [lockdownStart]
grind_pattern keeps_lockdownStart => Kept pq fu s, lockdownStart s x

theorem keeps_logTamper (s : State) (x : Sensor) (hs : Kept pq fu s) :
    Kept pq fu (logTamper s x) := by
  grind -ring -linarith -ac -order -lia [logTamper]
grind_pattern keeps_logTamper => Kept pq fu s, logTamper s x

theorem keeps_lockdownTamper (s : State) (x : Sensor) (hs : Kept pq fu s) :
    Kept pq fu (lockdownTamper s x) := by
  grind -ring -linarith -ac -order -lia [lockdownTamper]
grind_pattern keeps_lockdownTamper => Kept pq fu s, lockdownTamper s x

theorem keeps_backupTamper (s : State) (x : Sensor) (hs : Kept pq fu s) :
    Kept pq fu (backupTamper s x) := by
  grind -ring -linarith -ac -order -lia [backupTamper]
grind_pattern keeps_backupTamper => Kept pq fu s, backupTamper s x

theorem keeps_execBackupTamper (x : Sensor) (s : State) (hs : Kept pq fu s) {out : State} (hout : (execBackupTamper x s) = .next out) :
    Kept pq fu out := by
  grind -ring -linarith -ac -order -lia [execBackupTamper]

theorem keeps_tamperConditionEnd (s : State) (x : Sensor) (hs : Kept pq fu s) :
    Kept pq fu (tamperConditionEnd s x) := by
  grind -ring -linarith -ac -order -lia [tamperConditionEnd]
grind_pattern keeps_tamperConditionEnd => Kept pq fu s, tamperConditionEnd s x

theorem keeps_execTamperConditionEnd (x : Sensor) (s : State) (hs : Kept pq fu s) {out : State} (hout : (execTamperConditionEnd x s) = .next out) :
    Kept pq fu out := by
  grind -ring -linarith -ac -order -lia [execTamperConditionEnd]

end Sys2Proof.Machine
end

