-- ==== Sys2Proof/Laws/KeepLth.lean ====
section
/-! SUPPORT. No operation of Machine/Lth.lean touches the queue, the fuses, or the canonical form of memory: one lemma each. -/
namespace Sys2Proof.Machine

variable {pq : List Instr} {fu : Fus}

set_option Elab.async false

theorem keeps_startEnabled (s : State) (l : Fin 16) (hs : Kept pq fu s) :
    Kept pq fu (startEnabled s l) := by
  grind -ring -linarith -ac -order -lia [startEnabled]
grind_pattern keeps_startEnabled => Kept pq fu s, startEnabled s l

theorem keeps_coreCfgSet (s : State) (l : Fin 16) (w : Word) (byHead : Bool) (hs : Kept pq fu s) :
    Kept pq fu (coreCfgSet s l w byHead) := by
  grind -ring -linarith -ac -order -lia [coreCfgSet]
grind_pattern keeps_coreCfgSet => Kept pq fu s, coreCfgSet s l w byHead

theorem keeps_execLthCorecfgWrite (m : Master) (l : Fin 16) (w : Word) (s : State) (hs : Kept pq fu s) {out : State} (hout : (execLthCorecfgWrite m l w s) = .next out) :
    Kept pq fu out := by
  grind -ring -linarith -ac -order -lia [execLthCorecfgWrite]

theorem keeps_setDetAll (s : State) (b : Bool) (hs : Kept pq fu s) :
    Kept pq fu (setDetAll s b) := by
  grind -ring -linarith -ac -order -lia [setDetAll]
grind_pattern keeps_setDetAll => Kept pq fu s, setDetAll s b

theorem keeps_changeMode (s : State) (m : BitVec 4) (rung : BitVec 3) (hs : Kept pq fu s) :
    Kept pq fu (changeMode s m rung) := by
  grind -ring -linarith -ac -order -lia [changeMode]
grind_pattern keeps_changeMode => Kept pq fu s, changeMode s m rung

theorem keeps_settleModeset (s : State) (hs : Kept pq fu s) :
    Kept pq fu (settleModeset s) := by
  grind -ring -linarith -ac -order -lia [settleModeset]
grind_pattern keeps_settleModeset => Kept pq fu s, settleModeset s

theorem keeps_corecfgDrainEnd (s : State) (l : Fin 16) (hs : Kept pq fu s) :
    Kept pq fu (corecfgDrainEnd s l) := by
  grind -ring -linarith -ac -order -lia [corecfgDrainEnd]
grind_pattern keeps_corecfgDrainEnd => Kept pq fu s, corecfgDrainEnd s l

theorem keeps_execCorecfgDrainEnd (l : Fin 16) (s : State) (hs : Kept pq fu s) {out : State} (hout : (execCorecfgDrainEnd l s) = .next out) :
    Kept pq fu out := by
  grind -ring -linarith -ac -order -lia [execCorecfgDrainEnd]

end Sys2Proof.Machine
end

