-- ==== Sys2Proof/Laws/KeepPlacement.lean ====
section
/-! SUPPORT. No operation of Machine/Placement.lean touches the queue, the fuses, or the canonical form of memory: one lemma each. -/
namespace Sys2Proof.Machine

variable {pq : List Instr} {fu : Fus}

set_option Elab.async false

/-- A rising list of entries that have each been rewritten in place rises as well. -/
theorem trising_revalue {α β : Type} (f : Nat × α → β) {t : Tab α} {b : Nat} (h : trising b t = true) :
    trising b (t.map (fun x => (x.1, f x))) = true := by
  induction t generalizing b with
  | nil => rfl
  | cons e r ih =>
    obtain ⟨k, v⟩ := e
    simp only [trising, Bool.and_eq_true, List.map_cons] at *
    exact ⟨h.1, ih h.2⟩

/-- Copying a range of places keeps the canonical form. -/
theorem wf_copyCells {mem old : Tab Stored} (src dst n : Nat) (hm : Memory.wf mem = true) (ho : Memory.wf old = true) :
    Memory.wf (copyCells mem old src dst n) = true := by
  simp only [Memory.wf, twf, Bool.and_eq_true] at *
  have hge : ∀ e ∈ old.filter (fun x => src ≤ x.1 && x.1 < src + n), src ≤ e.1 ∧ e.1 < src + n := by
    intro e he
    simpa using (List.mem_filter.1 he).2
  have h1 := trising_filter (fun x => decide (x.1 < dst)) hm.1
  have h3 := trising_filter (fun x => decide (x.1 ≥ dst + n)) hm.1
  have h3' : trising (dst + n) (mem.filter (fun x => decide (x.1 ≥ dst + n))) = true :=
    trising_raise h3 (fun e he => by simpa using (List.mem_filter.1 he).2)
  have h2 : trising dst ((old.filter (fun x => src ≤ x.1 && x.1 < src + n)).map (fun x => (x.1 - src + dst, savedNonet x.2))) = true := by
    have := trising_shift (dst := dst) (trising_raise (trising_filter _ ho.1) (fun e he => (hge e he).1))
      (fun e he => (hge e he).1) (Nat.le_refl src)
    rw [Nat.sub_self, Nat.zero_add] at this
    have h := trising_revalue (fun x => savedNonet x.2) this
    rwa [List.map_map] at h
  constructor
  · unfold copyCells
    dsimp only
    rw [List.append_assoc]
    refine trising_append h1 (fun e he => by simpa using (List.mem_filter.1 he).2)
      (trising_append (trising_filter _ h2) ?_ h3' (by omega)) (Nat.zero_le _)
    intro e he
    obtain ⟨x, hx, rfl⟩ := List.mem_map.1 (List.mem_filter.1 he).1
    have := hge x hx
    dsimp only
    omega
  · simp only [copyCells, List.all_append, Bool.and_eq_true]
    refine ⟨⟨?_, ?_⟩, ?_⟩
    · exact List.all_eq_true.2 (fun e he => List.all_eq_true.1 hm.2 e (List.mem_filter.1 he).1)
    · exact List.all_eq_true.2 (fun e he => by simpa using (List.mem_filter.1 he).2)
    · exact List.all_eq_true.2 (fun e he => List.all_eq_true.1 hm.2 e (List.mem_filter.1 he).1)

/-- Filling a scratchpad keeps the canonical form. -/
theorem wf_fillPad {mem : Tab Stored} (l : Fin 16) (cells : Tab Stored) (hm : Memory.wf mem = true) :
    Memory.wf (fillPad mem l cells) = true :=
  foldl_keeps (fun m => Memory.wf m = true) _ _ _ (twf_filter 0 _ hm) (fun m x h => twf_tput 0 (scratchBase l + x.1) x.2 h)

theorem keeps_grantBank (s : State) (i : Fin 16) (n : Nat) (hs : Kept pq fu s) :
    Kept pq fu (grantBank s i n) := by
  grind -ring -linarith -ac -order -lia [grantBank]
grind_pattern keeps_grantBank => Kept pq fu s, grantBank s i n

theorem keeps_placeBanks (s : State) (i : Fin 16) (l : Fin 16) (hs : Kept pq fu s) :
    Kept pq fu (placeBanks s i l) := by
  grind -ring -linarith -ac -order -lia [placeBanks]
grind_pattern keeps_placeBanks => Kept pq fu s, placeBanks s i l

theorem keeps_examineLathe (s : State) (l : Fin 16) (hs : Kept pq fu s) :
    Kept pq fu (examineLathe s l) := by
  grind -ring -linarith -ac -order -lia [examineLathe]
grind_pattern keeps_examineLathe => Kept pq fu s, examineLathe s l

theorem keeps_wovasBanks (s : State) (i : Fin 16) (l : Fin 16) (hs : Kept pq fu s) :
    Kept pq fu (wovasBanks s i l) := by
  grind -ring -linarith -ac -order -lia [wovasBanks]
grind_pattern keeps_wovasBanks => Kept pq fu s, wovasBanks s i l

theorem keeps_oldBanksBack (s : State) (i : Fin 16) (ps : List (Fin 16 × Fin 16)) (hs : Kept pq fu s) :
    Kept pq fu (oldBanksBack s i ps) := by
  grind -ring -linarith -ac -order -lia [oldBanksBack]
grind_pattern keeps_oldBanksBack => Kept pq fu s, oldBanksBack s i ps

theorem keeps_handOnStopped (s : State) (d : BitVec 6) (c : Nat) (hs : Kept pq fu s) :
    Kept pq fu (handOnStopped s d c) := by
  grind -ring -linarith -ac -order -lia [handOnStopped]
grind_pattern keeps_handOnStopped => Kept pq fu s, handOnStopped s d c

theorem keeps_migrateEnd (s : State) (r : SlotRef) (hs : Kept pq fu s) :
    Kept pq fu (migrateEnd s r) := by
  grind -ring -linarith -ac -order -lia [migrateEnd]
grind_pattern keeps_migrateEnd => Kept pq fu s, migrateEnd s r

theorem keeps_migrateFails (s : State) (r : SlotRef) (status : BitVec 16) (hs : Kept pq fu s) :
    Kept pq fu (migrateFails s r status) := by
  grind -ring -linarith -ac -order -lia [migrateFails]
grind_pattern keeps_migrateFails => Kept pq fu s, migrateFails s r status

theorem keeps_placeHere (s : State) (i : Fin 16) (lathes : BitVec 16) (skews : List (Nat × Bool)) (pads : List (Fin 16 × Tab Stored))
    (hs : Kept pq fu s) : Kept pq fu (placeHere s i lathes skews pads) := by
  unfold placeHere
  dsimp only
  refine kept_foldl _ _ _ ?_ (fun s x h => kept_updMem h _ (fun hm => wf_fillPad x.1 x.2 hm) s.tb s.banks s.spindles s.lathes s.threads
    s.groups s.nextGroup s.scr s.fab s.evf s.ts s.jnl s.hs s.pci s.wov s.rst s.pwr s.dbg s.free)
  grind -ring -linarith -ac -order -lia
grind_pattern keeps_placeHere => Kept pq fu s, placeHere s i lathes skews pads

theorem keeps_takeCtx (i : Fin 16) (home : BitVec 6) (s : State) (m : MovedCtx) (hs : Kept pq fu s) :
    Kept pq fu (takeCtx i home s m) := by
  grind -ring -linarith -ac -order -lia [takeCtx]
grind_pattern keeps_takeCtx => Kept pq fu s, takeCtx i home s m

theorem keeps_placedHere (s : State) (r : SlotRef) (home : BitVec 6) (m : MovedJob) (locked : List Nat) (cs : List MovedCtx) (hs : Kept pq fu s) :
    Kept pq fu (placedHere s r home m locked cs) := by
  grind -ring -linarith -ac -order -lia [placedHere]
grind_pattern keeps_placedHere => Kept pq fu s, placedHere s r home m locked cs

theorem keeps_endGuest (s : State) (g : Guest) (status : BitVec 16) (r0 : BitVec 64) (hs : Kept pq fu s) :
    Kept pq fu (endGuest s g status r0) := by
  grind -ring -linarith -ac -order -lia [endGuest]
grind_pattern keeps_endGuest => Kept pq fu s, endGuest s g status r0

end Sys2Proof.Machine
end

