-- ==== Sys2Proof/Laws/KeepRemote.lean ====
section
/-! SUPPORT. No operation of Machine/Remote.lean touches the queue, the fuses, or the canonical form of memory: one lemma each. -/
namespace Sys2Proof.Machine

variable {pq : List Instr} {fu : Fus}

set_option Elab.async false

theorem keeps_dropOp (s : State) (o : ROp) (hs : Kept pq fu s) :
    Kept pq fu (dropOp s o) := hs
grind_pattern keeps_dropOp => Kept pq fu s, dropOp s o

theorem keeps_answerLoad (s : State) (th : Th) (tag : Nat) (res : Option RemoteResult) (hs : Kept pq fu s) :
    Kept pq fu (answerLoad s th tag res) := by
  grind -ring -linarith -ac -order -lia [answerLoad]
grind_pattern keeps_answerLoad => Kept pq fu s, answerLoad s th tag res

theorem keeps_answerStore (s : State) (th : Th) (tag : Nat) (res : Option RemoteResult) (hs : Kept pq fu s) :
    Kept pq fu (answerStore s th tag res) := by
  grind -ring -linarith -ac -order -lia [answerStore]
grind_pattern keeps_answerStore => Kept pq fu s, answerStore s th tag res

theorem keeps_answerStream (s : State) (k gi : Nat) (key : RKey) (res : Option RemoteResult) (hs : Kept pq fu s) :
    Kept pq fu (answerStream s k gi key res) := by
  grind -ring -linarith -ac -order -lia [answerStream]
grind_pattern keeps_answerStream => Kept pq fu s, answerStream s k gi key res

theorem keeps_answerCommand (s : State) (r : SlotRef) (res : Option RemoteResult) (hs : Kept pq fu s) :
    Kept pq fu (answerCommand s r res) := by
  grind -ring -linarith -ac -order -lia [answerCommand]
grind_pattern keeps_answerCommand => Kept pq fu s, answerCommand s r res

theorem keeps_endOp (s : State) (o : ROp) (res : Option RemoteResult) (hs : Kept pq fu s) :
    Kept pq fu (endOp s o res) := by
  grind -ring -linarith -ac -order -lia [endOp]
grind_pattern keeps_endOp => Kept pq fu s, endOp s o res

theorem keeps_endOps (s : State) (p : ROp → Bool) (res : RemoteResult) (hs : Kept pq fu s) :
    Kept pq fu (endOps s p res) := by
  grind -ring -linarith -ac -order -lia [endOps]
grind_pattern keeps_endOps => Kept pq fu s, endOps s p res

end Sys2Proof.Machine
end

