-- ==== Sys2Proof/Laws/KeepHead.lean ====
section
/-! SUPPORT. No operation of Machine/Head.lean touches the queue, the fuses, or the canonical form of memory: one lemma each. -/
namespace Sys2Proof.Machine

variable {pq : List Instr} {fu : Fus}

set_option Elab.async false

theorem keeps_admitEntry (s : State) (r : SlotRef) (hs : Kept pq fu s) :
    Kept pq fu (admitEntry s r) := by
  grind -ring -linarith -ac -order -lia [admitEntry]
grind_pattern keeps_admitEntry => Kept pq fu s, admitEntry s r

theorem keeps_acceptCmd (s : State) (r : SlotRef) (o : List Octet) (hs : Kept pq fu s) :
    Kept pq fu (acceptCmd s r o) := by
  grind [acceptCmd]
grind_pattern keeps_acceptCmd => Kept pq fu s, acceptCmd s r o

theorem keeps_evaluate (s : State) (r : SlotRef) (hs : Kept pq fu s) :
    Kept pq fu (evaluate s r) := by
  grind -ring -linarith -ac -order -lia [evaluate]
grind_pattern keeps_evaluate => Kept pq fu s, evaluate s r

theorem keeps_ringSlot (r : SlotRef) (s : State) (hs : Kept pq fu s) :
    Kept pq fu (ringSlot r s) := by
  grind -ring -linarith -ac -order -lia [ringSlot]
grind_pattern keeps_ringSlot => Kept pq fu s, ringSlot r s

theorem keeps_ringSlots (s : State) (i : Fin 16) (m : Fin 4) (bits : BitVec 64) (hs : Kept pq fu s) :
    Kept pq fu (ringSlots s i m bits) := by
  grind -ring -linarith -ac -order -lia [ringSlots]
grind_pattern keeps_ringSlots => Kept pq fu s, ringSlots s i m bits

theorem keeps_refuseFetch (s : State) (r : SlotRef) (hs : Kept pq fu s) :
    Kept pq fu (refuseFetch s r) := by
  grind -ring -linarith -ac -order -lia [refuseFetch]
grind_pattern keeps_refuseFetch => Kept pq fu s, refuseFetch s r

theorem keeps_keepChannel (s : State) (r : SlotRef) (d : BitVec 6) (hs : Kept pq fu s) :
    Kept pq fu (keepChannel s r d) := by
  grind -ring -linarith -ac -order -lia [keepChannel]
grind_pattern keeps_keepChannel => Kept pq fu s, keepChannel s r d

theorem keeps_forwardTo (s : State) (r : SlotRef) (d : BitVec 6) (hs : Kept pq fu s) :
    Kept pq fu (forwardTo s r d) := by
  grind -ring -linarith -ac -order -lia [forwardTo]
grind_pattern keeps_forwardTo => Kept pq fu s, forwardTo s r d

theorem keeps_freeChannel (s : State) (r : SlotRef) (hs : Kept pq fu s) :
    Kept pq fu (freeChannel s r) := by
  grind -ring -linarith -ac -order -lia [freeChannel]
grind_pattern keeps_freeChannel => Kept pq fu s, freeChannel s r

theorem keeps_retryForwarded (s : State) (hs : Kept pq fu s) :
    Kept pq fu (retryForwarded s) := by
  grind -ring -linarith -ac -order -lia [retryForwarded]
grind_pattern keeps_retryForwarded => Kept pq fu s, retryForwarded s

theorem keeps_commandAdmission (s : State) (r : SlotRef) (hs : Kept pq fu s) :
    Kept pq fu (commandAdmission s r) := by
  grind -ring -linarith -ac -order -lia [commandAdmission]
grind_pattern keeps_commandAdmission => Kept pq fu s, commandAdmission s r

theorem keeps_execCommandAdmission (r : SlotRef) (s : State) (hs : Kept pq fu s) {out : State} (hout : (execCommandAdmission r s) = .next out) :
    Kept pq fu out := by
  grind -ring -linarith -ac -order -lia [execCommandAdmission]

theorem keeps_delayedReevaluation (s : State) (hs : Kept pq fu s) :
    Kept pq fu (delayedReevaluation s) := by
  grind -ring -linarith -ac -order -lia [delayedReevaluation]
grind_pattern keeps_delayedReevaluation => Kept pq fu s, delayedReevaluation s

theorem keeps_execDelayedReevaluation (s : State) (hs : Kept pq fu s) {out : State} (hout : (execDelayedReevaluation s) = .next out) :
    Kept pq fu out := by
  grind -ring -linarith -ac -order -lia [execDelayedReevaluation]

theorem keeps_ringCfg (s : State) (i : Fin 16) (v : BitVec 32) (hs : Kept pq fu s) :
    Kept pq fu (ringCfg s i v) := by
  grind -ring -linarith -ac -order -lia [ringCfg]
grind_pattern keeps_ringCfg => Kept pq fu s, ringCfg s i v

theorem keeps_ringHeadWrite (s : State) (i : Fin 16) (v : BitVec 32) (hs : Kept pq fu s) :
    Kept pq fu (ringHeadWrite s i v) := by
  grind -ring -linarith -ac -order -lia [ringHeadWrite]
grind_pattern keeps_ringHeadWrite => Kept pq fu s, ringHeadWrite s i v

theorem keeps_runDown (y0 : Nat) (s : State) (y2 : Nat) (hs : Kept pq fu s) :
    Kept pq fu (runDown y0 s y2) := by
  fun_induction runDown y0 s y2 <;> grind -ring -linarith -ac -order -lia
grind_pattern keeps_runDown => Kept pq fu s, runDown y0 s y2

theorem keeps_suspendAll (s : State) (w : BitVec 16) (hs : Kept pq fu s) :
    Kept pq fu (suspendAll s w) := by
  grind -ring -linarith -ac -order -lia [suspendAll]
grind_pattern keeps_suspendAll => Kept pq fu s, suspendAll s w

theorem keeps_applyEpoch (s : State) (i : Fin 16) (e : BitVec 9) (hs : Kept pq fu s) :
    Kept pq fu (applyEpoch s i e) := by
  grind -ring -linarith -ac -order -lia [applyEpoch]
grind_pattern keeps_applyEpoch => Kept pq fu s, applyEpoch s i e

theorem keeps_advanceEpoch (s : State) (i : Fin 16) (hs : Kept pq fu s) :
    Kept pq fu (advanceEpoch s i) := by
  simp only [advanceEpoch]; repeat' split
  all_goals grind -ring -linarith -ac -order -lia
grind_pattern keeps_advanceEpoch => Kept pq fu s, advanceEpoch s i

theorem keeps_breakOuts (s : State) (c : Nat) (hs : Kept pq fu s) :
    Kept pq fu (breakOuts s c) := hs
grind_pattern keeps_breakOuts => Kept pq fu s, breakOuts s c

theorem keeps_returnOwners (s : State) (x : Xfer) (hs : Kept pq fu s) :
    Kept pq fu (returnOwners s x) := by
  grind -ring -linarith -ac -order -lia [returnOwners]
grind_pattern keeps_returnOwners => Kept pq fu s, returnOwners s x

theorem keeps_dropXfer (s : State) (r : SlotRef) (hs : Kept pq fu s) :
    Kept pq fu (dropXfer s r) := by
  grind -ring -linarith -ac -order -lia [dropXfer]
grind_pattern keeps_dropXfer => Kept pq fu s, dropXfer s r

theorem keeps_stopLathes (s : State) (w : BitVec 16) (code : Nat) (hs : Kept pq fu s) :
    Kept pq fu (stopLathes s w code) := by
  grind -ring -linarith -ac -order -lia [stopLathes]
grind_pattern keeps_stopLathes => Kept pq fu s, stopLathes s w code

theorem keeps_dropHashing (s : State) (r : SlotRef) (hs : Kept pq fu s) :
    Kept pq fu (dropHashing s r) := by
  grind -ring -linarith -ac -order -lia [dropHashing]
grind_pattern keeps_dropHashing => Kept pq fu s, dropHashing s r

theorem keeps_stopCmd (s : State) (r : SlotRef) (status : BitVec 16) (code : Nat) (hs : Kept pq fu s) :
    Kept pq fu (stopCmd s r status code) := by
  unfold stopCmd; grind -ring -linarith -ac -order -lia (splits := 40) (gen := 20)
grind_pattern keeps_stopCmd => Kept pq fu s, stopCmd s r status code

theorem keeps_deadlineActs (s : State) (r : SlotRef) (hs : Kept pq fu s) :
    Kept pq fu (deadlineActs s r) := by
  grind -ring -linarith -ac -order -lia [deadlineActs]
grind_pattern keeps_deadlineActs => Kept pq fu s, deadlineActs s r

theorem keeps_stopGuest (s : State) (g : Guest) (code : Nat) (hs : Kept pq fu s) :
    Kept pq fu (stopGuest s g code) := by
  grind -ring -linarith -ac -order -lia [stopGuest]
grind_pattern keeps_stopGuest => Kept pq fu s, stopGuest s g code

theorem keeps_settleJobs (s : State) (hs : Kept pq fu s) :
    Kept pq fu (settleJobs s) := by
  grind -ring -linarith -ac -order -lia [settleJobs]
grind_pattern keeps_settleJobs => Kept pq fu s, settleJobs s

theorem keeps_guestEnd (s : State) (l : Fin 16) (status : Word) (hs : Kept pq fu s) :
    Kept pq fu (guestEnd s l status) := by
  grind -ring -linarith -ac -order -lia [guestEnd]
grind_pattern keeps_guestEnd => Kept pq fu s, guestEnd s l status

theorem keeps_jobEnd (s : State) (l : Fin 16) (status : Word) (hs : Kept pq fu s) :
    Kept pq fu (jobEnd s l status) := by
  grind -ring -linarith -ac -order -lia [jobEnd]
grind_pattern keeps_jobEnd => Kept pq fu s, jobEnd s l status

theorem keeps_dropRemote (s : State) (i : Fin 16) (hs : Kept pq fu s) :
    Kept pq fu (dropRemote s i) := by
  grind -ring -linarith -ac -order -lia [dropRemote]
grind_pattern keeps_dropRemote => Kept pq fu s, dropRemote s i

theorem keeps_loseCommand (s : State) (r : SlotRef) (status : BitVec 16) (hs : Kept pq fu s) :
    Kept pq fu (loseCommand s r status) := by
  grind -ring -linarith -ac -order -lia [loseCommand]
grind_pattern keeps_loseCommand => Kept pq fu s, loseCommand s r status

theorem keeps_instReset (s : State) (i : Fin 16) (by_ : Option SlotRef) (hs : Kept pq fu s) :
    Kept pq fu (instReset s i by_) := by
  unfold instReset
  split
  · grind -ring -linarith -ac -order -lia
  · dsimp only
    have h1 := keeps_modInst s i (fun x => { x with resetting := true, zeroing := false, resetCmds := by_.toList }) hs
    generalize s.modInst i _ = s1 at h1
    have h2 := kept_foldl (fun s r => (freeChannel s r).setSlot r {})
      (slotsOf s1 i (fun x => x.st = 1 || x.st = 2 || (x.fwdTo.isSome && x.fst ≠ 3))) s1 h1 (fun s r h => keeps_setSlot _ _ _ (keeps_freeChannel _ _ h))
    generalize List.foldl _ s1 _ = s2 at h2
    have h3 := kept_foldl (fun s r => loseCommand s r ceABORTED) (slotsOf s2 i (fun x => x.fwdTo.isSome)) s2 h2
      (fun s r h => keeps_loseCommand _ _ _ h)
    generalize List.foldl _ s2 _ = s3 at h3
    have h4 := kept_foldl (fun s r => stopCmd s r ceABORTED stABORTED) ((slotsOf s3 i (fun x => x.st = 3)).filter (fun r => some r ≠ by_)) s3 h3
      (fun s r h => keeps_stopCmd _ _ _ _ h)
    generalize List.foldl _ s3 _ = s4 at h4
    grind -ring -linarith -ac -order -lia
grind_pattern keeps_instReset => Kept pq fu s, instReset s i by_

theorem keeps_flr (s : State) (fn : Fin 16) (hs : Kept pq fu s) :
    Kept pq fu (flr s fn) := by
  grind -ring -linarith -ac -order -lia [flr]
grind_pattern keeps_flr => Kept pq fu s, flr s fn

theorem keeps_execFlr (fn : Fin 16) (s : State) (hs : Kept pq fu s) {out : State} (hout : (execFlr fn s) = .next out) :
    Kept pq fu out := by
  grind -ring -linarith -ac -order -lia [execFlr]

theorem keeps_dropScratchFixes (s : State) (w : BitVec 16) (hs : Kept pq fu s) :
    Kept pq fu (dropScratchFixes s w) := by
  grind -ring -linarith -ac -order -lia [dropScratchFixes]
grind_pattern keeps_dropScratchFixes => Kept pq fu s, dropScratchFixes s w

theorem keeps_zeroScratch (s : State) (w : BitVec 16) (hs : Kept pq fu s) :
    Kept pq fu (zeroScratch s w) := by
  grind -ring -linarith -ac -order -lia [zeroScratch]
grind_pattern keeps_zeroScratch => Kept pq fu s, zeroScratch s w

theorem keeps_instanceZeroing (s : State) (i : Fin 16) (hs : Kept pq fu s) :
    Kept pq fu (instanceZeroing s i) := by
  grind -ring -linarith -ac -order -lia [instanceZeroing]
grind_pattern keeps_instanceZeroing => Kept pq fu s, instanceZeroing s i

theorem keeps_execInstanceZeroing (i : Fin 16) (s : State) (hs : Kept pq fu s) {out : State} (hout : (execInstanceZeroing i s) = .next out) :
    Kept pq fu out := by
  grind -ring -linarith -ac -order -lia [execInstanceZeroing]

theorem keeps_zeroingDone (s : State) (i : Fin 16) (hs : Kept pq fu s) :
    Kept pq fu (zeroingDone s i) := by
  grind -ring -linarith -ac -order -lia [zeroingDone]
grind_pattern keeps_zeroingDone => Kept pq fu s, zeroingDone s i

theorem keeps_execZeroingDone (i : Fin 16) (s : State) (hs : Kept pq fu s) {out : State} (hout : (execZeroingDone i s) = .next out) :
    Kept pq fu out := by
  grind -ring -linarith -ac -order -lia [execZeroingDone]

end Sys2Proof.Machine
end

