-- ==== Sys2Proof/Laws/KeepCmds.lean ====
section
/-! SUPPORT. No operation of Machine/Cmds.lean touches the queue, the fuses, or the canonical form of memory: one lemma each. -/
namespace Sys2Proof.Machine

variable {pq : List Instr} {fu : Fus}

set_option Elab.async false

theorem keeps_runCmd (opc : Nat) (r : SlotRef) (f : List Octet → State → State) (s : State) (hf : ∀ x0 x1, Kept pq fu x1 → Kept pq fu (f x0 x1)) (hs : Kept pq fu s) :
    Kept pq fu (runCmd opc r f s) := by
  grind -ring -linarith -ac -order -lia [runCmd]
grind_pattern keeps_runCmd => Kept pq fu s, runCmd opc r f s

theorem keeps_execNop (r : SlotRef) (s : State) (hs : Kept pq fu s) {out : State} (hout : (execNop r s) = .next out) :
    Kept pq fu out := by
  grind -ring -linarith -ac -order -lia [execNop]

theorem keeps_instCfg (s : State) (r : SlotRef) (o : List Octet) (hs : Kept pq fu s) :
    Kept pq fu (instCfg s r o) := by
  grind -ring -linarith -ac -order -lia [instCfg]
grind_pattern keeps_instCfg => Kept pq fu s, instCfg s r o

theorem keeps_execInstcfg (r : SlotRef) (s : State) (hs : Kept pq fu s) {out : State} (hout : (execInstcfg r s) = .next out) :
    Kept pq fu out := by
  grind -ring -linarith -ac -order -lia [execInstcfg]

theorem keeps_grantRun (s : State) (r : SlotRef) (o : List Octet) (hs : Kept pq fu s) :
    Kept pq fu (grantRun s r o) := by
  grind -ring -linarith -ac -order -lia [grantRun]
grind_pattern keeps_grantRun => Kept pq fu s, grantRun s r o

theorem keeps_execGrant (r : SlotRef) (s : State) (hs : Kept pq fu s) {out : State} (hout : (execGrant r s) = .next out) :
    Kept pq fu out := by
  grind -ring -linarith -ac -order -lia [execGrant]

theorem keeps_grantRevoke (s : State) (r : SlotRef) (o : List Octet) (hs : Kept pq fu s) :
    Kept pq fu (grantRevoke s r o) := by
  grind -ring -linarith -ac -order -lia [grantRevoke]
grind_pattern keeps_grantRevoke => Kept pq fu s, grantRevoke s r o

theorem keeps_execGrantRevoke (r : SlotRef) (s : State) (hs : Kept pq fu s) {out : State} (hout : (execGrantRevoke r s) = .next out) :
    Kept pq fu out := by
  grind -ring -linarith -ac -order -lia [execGrantRevoke]

theorem keeps_instresetRun (s : State) (r : SlotRef) (o : List Octet) (hs : Kept pq fu s) :
    Kept pq fu (instresetRun s r o) := by
  grind -ring -linarith -ac -order -lia [instresetRun]
grind_pattern keeps_instresetRun => Kept pq fu s, instresetRun s r o

theorem keeps_execInstreset (r : SlotRef) (s : State) (hs : Kept pq fu s) {out : State} (hout : (execInstreset r s) = .next out) :
    Kept pq fu out := by
  grind -ring -linarith -ac -order -lia [execInstreset]

theorem keeps_deliverOctets (s : State) (r : SlotRef) (o : List Octet) (count : Nat) (data : List Octet) (hs : Kept pq fu s) :
    Kept pq fu (deliverOctets s r o count data) := by
  grind -ring -linarith -ac -order -lia [deliverOctets]
grind_pattern keeps_deliverOctets => Kept pq fu s, deliverOctets s r o count data

theorem keeps_queryRun (s : State) (r : SlotRef) (o : List Octet) (hs : Kept pq fu s) :
    Kept pq fu (queryRun s r o) := by
  grind -ring -linarith -ac -order -lia [queryRun]
grind_pattern keeps_queryRun => Kept pq fu s, queryRun s r o

theorem keeps_execQuery (r : SlotRef) (s : State) (hs : Kept pq fu s) {out : State} (hout : (execQuery r s) = .next out) :
    Kept pq fu out := by
  grind -ring -linarith -ac -order -lia [execQuery]

theorem keeps_abortRun (s : State) (r : SlotRef) (o : List Octet) (hs : Kept pq fu s) :
    Kept pq fu (abortRun s r o) := by
  grind -ring -linarith -ac -order -lia [abortRun]
grind_pattern keeps_abortRun => Kept pq fu s, abortRun s r o

theorem keeps_execAbort (r : SlotRef) (s : State) (hs : Kept pq fu s) {out : State} (hout : (execAbort r s) = .next out) :
    Kept pq fu out := by
  grind -ring -linarith -ac -order -lia [execAbort]

theorem keeps_dmaStart (s : State) (r : SlotRef) (o : List Octet) (out : Bool) (c : Nat) (hs : Kept pq fu s) :
    Kept pq fu (dmaStart s r o out c) := by
  grind -ring -linarith -ac -order -lia [dmaStart]
grind_pattern keeps_dmaStart => Kept pq fu s, dmaStart s r o out c

theorem keeps_dmaRow (opc : Nat) (r : SlotRef) (out : Bool) (s : State) (hs : Kept pq fu s) :
    Kept pq fu (dmaRow opc r out s) := by
  grind -ring -linarith -ac -order -lia [dmaRow]
grind_pattern keeps_dmaRow => Kept pq fu s, dmaRow opc r out s

theorem keeps_execDmain (r : SlotRef) (s : State) (hs : Kept pq fu s) {out : State} (hout : (execDmain r s) = .next out) :
    Kept pq fu out := by
  grind -ring -linarith -ac -order -lia [execDmain]

theorem keeps_execDmaout (r : SlotRef) (s : State) (hs : Kept pq fu s) {out : State} (hout : (execDmaout r s) = .next out) :
    Kept pq fu out := by
  grind -ring -linarith -ac -order -lia [execDmaout]

theorem keeps_dmaWrite (q : Req) (y0 : List (Word × Bool)) (y1 : Nat) (y2 : Nat) (y3 : State) (hs : Kept pq fu y3) {out : (State × Nat × Bool)} (hout : (dmaWrite q y0 y1 y2 y3) = some out) :
    Kept pq fu out.1 := by
  fun_induction dmaWrite q y0 y1 y2 y3 <;> grind -ring -linarith -ac -order -lia
grind_pattern keeps_dmaWrite => Kept pq fu y3, dmaWrite q y0 y1 y2 y3, some out

theorem keeps_setChan (s : State) (c : Nat) (x : Option Xfer) (hs : Kept pq fu s) :
    Kept pq fu (State.setChan s c x) := hs
grind_pattern keeps_setChan => Kept pq fu s, State.setChan s c x

theorem keeps_countEp (s : State) (ep : Bool) (hs : Kept pq fu s) :
    Kept pq fu (countEp s ep) := by
  grind -ring -linarith -ac -order -lia [countEp]
grind_pattern keeps_countEp => Kept pq fu s, countEp s ep

theorem keeps_farCompletion (s : State) (c : Nat) (x : Xfer) (d : BitVec 6) (cpl : HostCpl) (hs : Kept pq fu s) :
    Kept pq fu (farCompletion s c x d cpl) := by
  unfold farCompletion; grind -ring -linarith -ac -order -lia
grind_pattern keeps_farCompletion => Kept pq fu s, farCompletion s c x d cpl

theorem keeps_dmaReadCompletion (s : State) (c : Nat) (cpl : HostCpl) (hs : Kept pq fu s) :
    Kept pq fu (dmaReadCompletion s c cpl) := by
  unfold dmaReadCompletion; grind -ring -linarith -ac -order -lia (splits := 40) (gen := 20)
grind_pattern keeps_dmaReadCompletion => Kept pq fu s, dmaReadCompletion s c cpl

theorem keeps_execDmaReadCompletion (c : Fin 8) (cpl : HostCpl) (s : State) (hs : Kept pq fu s) {out : State} (hout : (execDmaReadCompletion c cpl s) = .next out) :
    Kept pq fu out := by
  grind -ring -linarith -ac -order -lia [execDmaReadCompletion]

theorem keeps_dmaRead (q : Req) (y0 : Bool) (y1 : Nat) (y2 : Nat) (s : State) (hs : Kept pq fu s)
    {out : State × List (Word × Bool) × Bool} (hout : dmaRead q y0 y1 y2 s = some out) : Kept pq fu out.1 := by
  induction y1 generalizing y0 y2 s out with
  | zero => cases hout; exact hs
  | succ n ih =>
    unfold dmaRead at hout
    have h := keeps_readMem s q false y2 1 0xF 0 hs
    split at hout
    · next s' ws e =>
      rw [e] at h
      obtain ⟨x, hx, rfl⟩ := Option.map_eq_some_iff.1 hout
      refine ih _ _ _ ?_ (out := x) hx
      split
      · exact kept_foldl _ _ _ h (fun s i hs => keeps_examine _ _ _ _ hs)
      · exact h
    · next e => rw [e] at h; cases hout; exact h
    · cases hout
grind_pattern keeps_dmaRead => Kept pq fu s, dmaRead q y0 y1 y2 s, some out

theorem keeps_endXfer (s : State) (c : Nat) (x : Xfer) (st : BitVec 16) (r0 r1 : BitVec 64) (hs : Kept pq fu s) :
    Kept pq fu (endXfer s c x st r0 r1) := by
  grind -ring -linarith -ac -order -lia [endXfer]
grind_pattern keeps_endXfer => Kept pq fu s, endXfer s c x st r0 r1

theorem keeps_endIngress (s : State) (c : Nat) (x : Xfer) (hs : Kept pq fu s) :
    Kept pq fu (endIngress s c x) := by
  grind -ring -linarith -ac -order -lia [endIngress]
grind_pattern keeps_endIngress => Kept pq fu s, endIngress s c x

theorem keeps_egress (s : State) (c : Nat) (x : Xfer) (hs : Kept pq fu s) :
    Kept pq fu (egress s c x) := by
  grind -ring -linarith -ac -order -lia [egress]
grind_pattern keeps_egress => Kept pq fu s, egress s c x

theorem keeps_dmaTransferDone (s : State) (c : Nat) (hs : Kept pq fu s) :
    Kept pq fu (dmaTransferDone s c) := by
  grind -ring -linarith -ac -order -lia [dmaTransferDone]
grind_pattern keeps_dmaTransferDone => Kept pq fu s, dmaTransferDone s c

theorem keeps_execDmaTransferDone (c : Fin 8) (s : State) (hs : Kept pq fu s) {out : State} (hout : (execDmaTransferDone c s) = .next out) :
    Kept pq fu out := by
  grind -ring -linarith -ac -order -lia [execDmaTransferDone]

theorem keeps_completionTimeout (s : State) (c : Nat) (hs : Kept pq fu s) :
    Kept pq fu (completionTimeout s c) := by
  grind -ring -linarith -ac -order -lia [completionTimeout]
grind_pattern keeps_completionTimeout => Kept pq fu s, completionTimeout s c

theorem keeps_execCompletionTimeout (c : Fin 8) (s : State) (hs : Kept pq fu s) {out : State} (hout : (execCompletionTimeout c s) = .next out) :
    Kept pq fu out := by
  grind -ring -linarith -ac -order -lia [execCompletionTimeout]

theorem keeps_runRun (s : State) (r : SlotRef) (o : List Octet) (hs : Kept pq fu s) :
    Kept pq fu (runRun s r o) := by
  grind -ring -linarith -ac -order -lia [runRun]
grind_pattern keeps_runRun => Kept pq fu s, runRun s r o

theorem keeps_execRun (r : SlotRef) (s : State) (hs : Kept pq fu s) {out : State} (hout : (execRun r s) = .next out) :
    Kept pq fu out := by
  grind -ring -linarith -ac -order -lia [execRun]

theorem keeps_migrateLocal (s : State) (r q : SlotRef) (ps : List (Fin 16 × Fin 16)) (new : BitVec 16) (hs : Kept pq fu s) :
    Kept pq fu (migrateLocal s r q ps new) := by
  have hc : ∀ (m0 m : Tab Stored), Memory.wf m0 = true → Memory.wf m = true →
      Memory.wf (ps.foldl (fun m (a, b) => copyCells (copyCells m m0 (lathePlaces a) (lathePlaces b) latheSpan) m0
        (scratchBase a) (scratchBase b) scratchSpan) m) = true := by
    intro m0 m h0 h
    exact foldl_keeps (fun m => Memory.wf m = true) _ _ _ h (fun m x h => wf_copyCells _ _ _ (wf_copyCells _ _ _ h h0) h0)
  have ha : Kept pq fu (ps.foldl (fun s p => examineLathe s p.1) s) := by grind -ring -linarith -ac -order -lia
  unfold migrateLocal
  dsimp only
  generalize ps.foldl (fun s p => examineLathe s p.1) s = s1 at ha
  have hm := kept_updMem ha _ (fun h => hc _ _ h h)
    s1.tb s1.banks s1.spindles s1.lathes s1.threads s1.groups s1.nextGroup s1.scr s1.fab s1.evf s1.ts s1.jnl s1.hs s1.pci s1.wov s1.rst
    s1.pwr s1.dbg s1.free
  grind -ring -linarith -ac -order -lia
grind_pattern keeps_migrateLocal => Kept pq fu s, migrateLocal s r q ps new

theorem keeps_sendLathe (r : SlotRef) (d : BitVec 6) (s : State) (p : Fin 16 × Fin 16) (hs : Kept pq fu s) :
    Kept pq fu (sendLathe r d s p) := by
  grind -ring -linarith -ac -order -lia [sendLathe]
grind_pattern keeps_sendLathe => Kept pq fu s, sendLathe r d s p

theorem keeps_migrateRemote (s : State) (r : SlotRef) (q : SlotRef) (ps : List (Fin 16 × Fin 16)) (new : BitVec 16) (d : BitVec 6) (hs : Kept pq fu s) :
    Kept pq fu (migrateRemote s r q ps new d) := by
  grind -ring -linarith -ac -order -lia [migrateRemote]
grind_pattern keeps_migrateRemote => Kept pq fu s, migrateRemote s r q ps new d

theorem keeps_migrateRun (s : State) (r : SlotRef) (hs : Kept pq fu s) :
    Kept pq fu (migrateRun s r) := by
  grind -ring -linarith -ac -order -lia [migrateRun]
grind_pattern keeps_migrateRun => Kept pq fu s, migrateRun s r

theorem keeps_execMigrate (r : SlotRef) (s : State) (hs : Kept pq fu s) {out : State} (hout : (execMigrate r s) = .next out) :
    Kept pq fu out := by
  grind -ring -linarith -ac -order -lia [execMigrate]

theorem keeps_sealopenRun (s : State) (r : SlotRef) (o : List Octet) (hs : Kept pq fu s) :
    Kept pq fu (sealopenRun s r o) := by
  grind -ring -linarith -ac -order -lia [sealopenRun]
grind_pattern keeps_sealopenRun => Kept pq fu s, sealopenRun s r o

theorem keeps_execSealopen (r : SlotRef) (s : State) (hs : Kept pq fu s) {out : State} (hout : (execSealopen r s) = .next out) :
    Kept pq fu out := by
  grind -ring -linarith -ac -order -lia [execSealopen]

theorem keeps_sealslotRun (s : State) (r : SlotRef) (o : List Octet) (hs : Kept pq fu s) :
    Kept pq fu (sealslotRun s r o) := by
  grind -ring -linarith -ac -order -lia [sealslotRun]
grind_pattern keeps_sealslotRun => Kept pq fu s, sealslotRun s r o

theorem keeps_execSealslot (r : SlotRef) (s : State) (hs : Kept pq fu s) {out : State} (hout : (execSealslot r s) = .next out) :
    Kept pq fu out := by
  grind -ring -linarith -ac -order -lia [execSealslot]

theorem keeps_execSealclose (r : SlotRef) (s : State) (hs : Kept pq fu s) {out : State} (hout : (execSealclose r s) = .next out) :
    Kept pq fu out := by
  grind -ring -linarith -ac -order -lia [execSealclose]

theorem keeps_recfetchRun (s : State) (r : SlotRef) (o : List Octet) (hs : Kept pq fu s) :
    Kept pq fu (recfetchRun s r o) := by
  grind -ring -linarith -ac -order -lia [recfetchRun]
grind_pattern keeps_recfetchRun => Kept pq fu s, recfetchRun s r o

theorem keeps_execRecfetch (r : SlotRef) (s : State) (hs : Kept pq fu s) {out : State} (hout : (execRecfetch r s) = .next out) :
    Kept pq fu out := by
  grind -ring -linarith -ac -order -lia [execRecfetch]

theorem keeps_jnlreadRun (s : State) (r : SlotRef) (o : List Octet) (hs : Kept pq fu s) :
    Kept pq fu (jnlreadRun s r o) := by
  grind -ring -linarith -ac -order -lia [jnlreadRun]
grind_pattern keeps_jnlreadRun => Kept pq fu s, jnlreadRun s r o

theorem keeps_execJnlread (r : SlotRef) (s : State) (hs : Kept pq fu s) {out : State} (hout : (execJnlread r s) = .next out) :
    Kept pq fu out := by
  grind -ring -linarith -ac -order -lia [execJnlread]

theorem keeps_jnldrainRun (s : State) (r : SlotRef) (o : List Octet) (hs : Kept pq fu s) :
    Kept pq fu (jnldrainRun s r o) := by
  grind -ring -linarith -ac -order -lia [jnldrainRun]
grind_pattern keeps_jnldrainRun => Kept pq fu s, jnldrainRun s r o

theorem keeps_execJnldrain (r : SlotRef) (s : State) (hs : Kept pq fu s) {out : State} (hout : (execJnldrain r s) = .next out) :
    Kept pq fu out := by
  grind -ring -linarith -ac -order -lia [execJnldrain]

theorem keeps_certreadRun (s : State) (r : SlotRef) (o : List Octet) (hs : Kept pq fu s) :
    Kept pq fu (certreadRun s r o) := by
  grind -ring -linarith -ac -order -lia [certreadRun]
grind_pattern keeps_certreadRun => Kept pq fu s, certreadRun s r o

theorem keeps_execCertread (r : SlotRef) (s : State) (hs : Kept pq fu s) {out : State} (hout : (execCertread r s) = .next out) :
    Kept pq fu out := by
  grind -ring -linarith -ac -order -lia [execCertread]

theorem keeps_timesetEnds (s : State) (r : SlotRef) (o : List Octet) (hs : Kept pq fu s) :
    Kept pq fu (timesetEnds s r o) := by
  grind -ring -linarith -ac -order -lia [timesetEnds]
grind_pattern keeps_timesetEnds => Kept pq fu s, timesetEnds s r o

end Sys2Proof.Machine
end

