-- ==== Sys2Proof/Laws/KeepWovas.lean ====
section
/-! SUPPORT. No operation of Machine/Wovas.lean touches the queue, the fuses, or the canonical form of memory: one lemma each. -/
namespace Sys2Proof.Machine

variable {pq : List Instr} {fu : Fus}

set_option Elab.async false

theorem keeps_modWlink (s : State) (k : Nat) (f : WLink → WLink) (hs : Kept pq fu s) :
    Kept pq fu (State.modWlink s k f) := hs
grind_pattern keeps_modWlink => Kept pq fu s, State.modWlink s k f

theorem keeps_modBar (s : State) (i : Nat) (f : Bar → Bar) (hs : Kept pq fu s) :
    Kept pq fu (State.modBar s i f) := hs
grind_pattern keeps_modBar => Kept pq fu s, State.modBar s i f

theorem keeps_releaseBarrier (s : State) (i : Fin 16) (broken : Bool) (hs : Kept pq fu s) :
    Kept pq fu (releaseBarrier s i broken) := by
  unfold releaseBarrier; grind -ring -linarith -ac -order -lia
grind_pattern keeps_releaseBarrier => Kept pq fu s, releaseBarrier s i broken

theorem keeps_checkBarrier (s : State) (i : Fin 16) (hs : Kept pq fu s) :
    Kept pq fu (checkBarrier s i) := by
  grind -ring -linarith -ac -order -lia [checkBarrier]
grind_pattern keeps_checkBarrier => Kept pq fu s, checkBarrier s i

theorem keeps_reportBarrier (s : State) (i : Fin 16) (here gone : List Nat) (hs : Kept pq fu s) :
    Kept pq fu (reportBarrier s i here gone) := by
  grind -ring -linarith -ac -order -lia [reportBarrier]
grind_pattern keeps_reportBarrier => Kept pq fu s, reportBarrier s i here gone

theorem keeps_barrierArrive (s : State) (i : Fin 16) (codes : List Nat) (hs : Kept pq fu s) :
    Kept pq fu (barrierArrive s i codes) := by
  grind -ring -linarith -ac -order -lia [barrierArrive]
grind_pattern keeps_barrierArrive => Kept pq fu s, barrierArrive s i codes

theorem keeps_removeParticipants (s : State) (i : Fin 16) (codes told : List Nat) (hs : Kept pq fu s) :
    Kept pq fu (removeParticipants s i codes told) := by
  grind -ring -linarith -ac -order -lia [removeParticipants]
grind_pattern keeps_removeParticipants => Kept pq fu s, removeParticipants s i codes told

theorem keeps_barrierArrival (s : State) (i : Fin 16) (dev about : BitVec 6) (w gone : BitVec 16) (hs : Kept pq fu s) :
    Kept pq fu (barrierArrival s i dev about w gone) := by
  grind -ring -linarith -ac -order -lia [barrierArrival]
grind_pattern keeps_barrierArrival => Kept pq fu s, barrierArrival s i dev about w gone

theorem keeps_execBarrierArrival (i : Fin 16) (report : ReportFrom) (w gone : BitVec 16) (s : State) (hs : Kept pq fu s) {out : State} (hout : (execBarrierArrival i report w gone s) = .next out) :
    Kept pq fu out := by
  grind -ring -linarith -ac -order -lia [execBarrierArrival]

theorem keeps_barrierRelease (s : State) (i : Fin 16) (b : Bool) (hs : Kept pq fu s) :
    Kept pq fu (barrierRelease s i b) := by
  grind -ring -linarith -ac -order -lia [barrierRelease]
grind_pattern keeps_barrierRelease => Kept pq fu s, barrierRelease s i b

theorem keeps_execBarrierRelease (i : Fin 16) (b : Bool) (s : State) (hs : Kept pq fu s) {out : State} (hout : (execBarrierRelease i b s) = .next out) :
    Kept pq fu out := by
  grind -ring -linarith -ac -order -lia [execBarrierRelease]

theorem keeps_loseForwarded (s : State) (hs : Kept pq fu s) :
    Kept pq fu (loseForwarded s) := by
  grind -ring -linarith -ac -order -lia [loseForwarded]
grind_pattern keeps_loseForwarded => Kept pq fu s, loseForwarded s

theorem keeps_noteMoved (s0 s : State) (hs : Kept pq fu s) :
    Kept pq fu (noteMoved s0 s) := hs
grind_pattern keeps_noteMoved => Kept pq fu s, noteMoved s0 s

theorem keeps_rerouteBarrier (s0 s : State) (gone : List Nat) (i : Fin 16) (hs : Kept pq fu s) :
    Kept pq fu (rerouteBarrier s0 s gone i) := by
  grind -ring -linarith -ac -order -lia [rerouteBarrier]
grind_pattern keeps_rerouteBarrier => Kept pq fu s, rerouteBarrier s0 s gone i

theorem keeps_rerouteBarriers (s0 s : State) (gone : List Nat) (hs : Kept pq fu s) :
    Kept pq fu (rerouteBarriers s0 s gone) := by
  grind -ring -linarith -ac -order -lia [rerouteBarriers]
grind_pattern keeps_rerouteBarriers => Kept pq fu s, rerouteBarriers s0 s gone

theorem keeps_advanceOn (s : State) (ds : List Nat) (hs : Kept pq fu s) :
    Kept pq fu (advanceOn s ds) := by
  grind -ring -linarith -ac -order -lia [advanceOn]
grind_pattern keeps_advanceOn => Kept pq fu s, advanceOn s ds

theorem keeps_dropAcks (s : State) (gone : List Nat) (hs : Kept pq fu s) :
    Kept pq fu (dropAcks s gone) := by
  grind -ring -linarith -ac -order -lia [dropAcks]
grind_pattern keeps_dropAcks => Kept pq fu s, dropAcks s gone

theorem keeps_loseMoved (s : State) (ds : List Nat) (status : BitVec 16) (hs : Kept pq fu s) :
    Kept pq fu (loseMoved s ds status) := by
  grind -ring -linarith -ac -order -lia [loseMoved]
grind_pattern keeps_loseMoved => Kept pq fu s, loseMoved s ds status

theorem keeps_afterRoutes (s0 s : State) (lost : Bool) (hs : Kept pq fu s0) (hs : Kept pq fu s) :
    Kept pq fu (afterRoutes s0 s lost) := by
  grind -ring -linarith -ac -order -lia [afterRoutes]
grind_pattern keeps_afterRoutes => Kept pq fu s0, afterRoutes s0 s lost

theorem keeps_linkTrained (s : State) (k : Fin 6) (lanes : Nat) (nbr : BitVec 6) (nbrLink : BitVec 3) (inc : BitVec 8) (hs : Kept pq fu s) :
    Kept pq fu (linkTrained s k lanes nbr nbrLink inc) := by
  grind -ring -linarith -ac -order -lia [linkTrained]
grind_pattern keeps_linkTrained => Kept pq fu s, linkTrained s k lanes nbr nbrLink inc

theorem keeps_execWovasLinkTrained (k : Fin 6) (lanes : Fin 5) (nbr : BitVec 6) (nbrLink : BitVec 3) (inc : BitVec 8) (s : State) (hs : Kept pq fu s) {out : State} (hout : (execWovasLinkTrained k lanes nbr nbrLink inc s) = .next out) :
    Kept pq fu out := by
  grind -ring -linarith -ac -order -lia [execWovasLinkTrained]

theorem keeps_linkLost (s : State) (k : Fin 6) (notice : Bool) (hs : Kept pq fu s) :
    Kept pq fu (linkLost s k notice) := by
  grind -ring -linarith -ac -order -lia [linkLost]
grind_pattern keeps_linkLost => Kept pq fu s, linkLost s k notice

theorem keeps_execWovasLinkDown (k : Fin 6) (s : State) (hs : Kept pq fu s) {out : State} (hout : (execWovasLinkDown k s) = .next out) :
    Kept pq fu out := by
  grind -ring -linarith -ac -order -lia [execWovasLinkDown]

theorem keeps_execLinkIdleTimeout (k : Fin 6) (s : State) (hs : Kept pq fu s) {out : State} (hout : (execLinkIdleTimeout k s) = .next out) :
    Kept pq fu out := by
  grind -ring -linarith -ac -order -lia [execLinkIdleTimeout]

theorem keeps_execDownNotice (k : Fin 6) (s : State) (hs : Kept pq fu s) {out : State} (hout : (execDownNotice k s) = .next out) :
    Kept pq fu out := by
  grind -ring -linarith -ac -order -lia [execDownNotice]

theorem keeps_linkStateMessage (s : State) (dev : BitVec 6) (k : Fin 6) (up notice : Bool) (hs : Kept pq fu s) :
    Kept pq fu (linkStateMessage s dev k up notice) := by
  grind -ring -linarith -ac -order -lia [linkStateMessage]
grind_pattern keeps_linkStateMessage => Kept pq fu s, linkStateMessage s dev k up notice

theorem keeps_execLinkStateMessage (dev : BitVec 6) (k : Fin 6) (news : LinkNews) (s : State) (hs : Kept pq fu s) {out : State} (hout : (execLinkStateMessage dev k news s) = .next out) :
    Kept pq fu out := by
  grind -ring -linarith -ac -order -lia [execLinkStateMessage]

theorem keeps_incarnationAnnouncement (s : State) (k : Fin 6) (inc : BitVec 8) (hs : Kept pq fu s) :
    Kept pq fu (incarnationAnnouncement s k inc) := by
  grind -ring -linarith -ac -order -lia [incarnationAnnouncement]
grind_pattern keeps_incarnationAnnouncement => Kept pq fu s, incarnationAnnouncement s k inc

theorem keeps_execIncarnationAnnouncement (k : Fin 6) (inc : BitVec 8) (s : State) (hs : Kept pq fu s) {out : State} (hout : (execIncarnationAnnouncement k inc s) = .next out) :
    Kept pq fu out := by
  grind -ring -linarith -ac -order -lia [execIncarnationAnnouncement]

theorem keeps_serveRemote (s : State) (q : RemoteReq) (hs : Kept pq fu s) {out : (State × RemoteResult)} (hout : (serveRemote s q) = some out) :
    Kept pq fu out.1 := by
  grind -ring -linarith -ac -order -lia [serveRemote]
grind_pattern keeps_serveRemote => Kept pq fu s, serveRemote s q, some out

theorem keeps_takeRequest (s : State) (q : RemoteReq) (hs : Kept pq fu s) :
    Kept pq fu (takeRequest s q) := by
  grind -ring -linarith -ac -order -lia [takeRequest]
grind_pattern keeps_takeRequest => Kept pq fu s, takeRequest s q

theorem keeps_resumeRemote (s : State) (hs : Kept pq fu s) :
    Kept pq fu (resumeRemote s) := by
  grind -ring -linarith -ac -order -lia [resumeRemote]
grind_pattern keeps_resumeRemote => Kept pq fu s, resumeRemote s

theorem keeps_remoteRequest (s : State) (q : RemoteReq) (hs : Kept pq fu s) :
    Kept pq fu (remoteRequest s q) := by
  grind -ring -linarith -ac -order -lia [remoteRequest]
grind_pattern keeps_remoteRequest => Kept pq fu s, remoteRequest s q

theorem keeps_execRemoteRequest (z1 : Fin 7) (q : RemoteReq) (s : State) (hs : Kept pq fu s) {out : State} (hout : (execRemoteRequest z1 q s) = .next out) :
    Kept pq fu out := by
  grind -ring -linarith -ac -order -lia [execRemoteRequest]

theorem keeps_countLate (s : State) (hs : Kept pq fu s) :
    Kept pq fu (countLate s) := hs
grind_pattern keeps_countLate => Kept pq fu s, countLate s

theorem keeps_remoteReply (s : State) (dest : BitVec 6) (tag : Nat) (inc : BitVec 8) (res : RemoteResult) (hs : Kept pq fu s) :
    Kept pq fu (remoteReply s dest tag inc res) := by
  grind -ring -linarith -ac -order -lia [remoteReply]
grind_pattern keeps_remoteReply => Kept pq fu s, remoteReply s dest tag inc res

theorem keeps_execRemoteReply (addr : ReplyTo) (inc : BitVec 8) (res : RemoteResult) (s : State) (hs : Kept pq fu s) {out : State} (hout : (execRemoteReply addr inc res s) = .next out) :
    Kept pq fu out := by
  grind -ring -linarith -ac -order -lia [execRemoteReply]

theorem keeps_remoteTimeout (s : State) (tag : Nat) (hs : Kept pq fu s) :
    Kept pq fu (remoteTimeout s tag) := by
  grind -ring -linarith -ac -order -lia [remoteTimeout]
grind_pattern keeps_remoteTimeout => Kept pq fu s, remoteTimeout s tag

theorem keeps_takeForwarded (s : State) (r : SlotRef) (copy : List Octet) (arrival : BitVec 72) (num : Nat) (chan : Option (Fin 8)) (hs : Kept pq fu s) :
    Kept pq fu (takeForwarded s r copy arrival num chan) := by
  grind -ring -linarith -ac -order -lia [takeForwarded]
grind_pattern keeps_takeForwarded => Kept pq fu s, takeForwarded s r copy arrival num chan

theorem keeps_forwardedCommand (s : State) (r : SlotRef) (copy : List Octet) (arrival : BitVec 72) (cargo : Cargo) (hs : Kept pq fu s) :
    Kept pq fu (forwardedCommand s r copy arrival cargo) := by
  unfold forwardedCommand; grind -ring -linarith -ac -order -lia
grind_pattern keeps_forwardedCommand => Kept pq fu s, forwardedCommand s r copy arrival cargo

theorem keeps_execForwardedCommand (r : SlotRef) (parcel : Parcel) (arrival : BitVec 72) (s : State) (hs : Kept pq fu s) {out : State} (hout : (execForwardedCommand r parcel arrival s) = .next out) :
    Kept pq fu out := by
  grind -ring -linarith -ac -order -lia [execForwardedCommand]

theorem keeps_startFar (s : State) (r : SlotRef) (hs : Kept pq fu s) :
    Kept pq fu (startFar s r) := by
  grind -ring -linarith -ac -order -lia [startFar]
grind_pattern keeps_startFar => Kept pq fu s, startFar s r

theorem keeps_endFar (s : State) (r : SlotRef) (finish : Bool) (hs : Kept pq fu s) :
    Kept pq fu (endFar s r finish) := by
  grind -ring -linarith -ac -order -lia [endFar]
grind_pattern keeps_endFar => Kept pq fu s, endFar s r finish

theorem keeps_relayEntry (s : State) (r : SlotRef) (e : Entry) (data : List (Octet × Bool)) (hs : Kept pq fu s) :
    Kept pq fu (relayEntry s r e data) := by
  grind -ring -linarith -ac -order -lia [relayEntry]
grind_pattern keeps_relayEntry => Kept pq fu s, relayEntry s r e data

theorem keeps_forwardedEntry (s : State) (i : Fin 16) (dev : BitVec 6) (e : Entry) (data : List (Octet × Bool)) (hs : Kept pq fu s) :
    Kept pq fu (forwardedEntry s i dev e data) := by
  grind -ring -linarith -ac -order -lia [forwardedEntry]
grind_pattern keeps_forwardedEntry => Kept pq fu s, forwardedEntry s i dev e data

theorem keeps_execForwardedEntry (i : Fin 16) (dev : BitVec 6) (sent : SentEntry) (s : State) (hs : Kept pq fu s) {out : State} (hout : (execForwardedEntry i dev sent s) = .next out) :
    Kept pq fu out := by
  grind -ring -linarith -ac -order -lia [execForwardedEntry]

theorem keeps_epochMessage (s : State) (i : Fin 16) (e : BitVec 9) (hs : Kept pq fu s) :
    Kept pq fu (epochMessage s i e) := by
  grind -ring -linarith -ac -order -lia [epochMessage]
grind_pattern keeps_epochMessage => Kept pq fu s, epochMessage s i e

theorem keeps_execEpochMessage (i : Fin 16) (e : BitVec 9) (s : State) (hs : Kept pq fu s) {out : State} (hout : (execEpochMessage i e s) = .next out) :
    Kept pq fu out := by
  grind -ring -linarith -ac -order -lia [execEpochMessage]

theorem keeps_epochAck (s : State) (i : Fin 16) (dev : BitVec 6) (ask : Bool) (hs : Kept pq fu s) :
    Kept pq fu (epochAck s i dev ask) := by
  grind -ring -linarith -ac -order -lia [epochAck]
grind_pattern keeps_epochAck => Kept pq fu s, epochAck s i dev ask

theorem keeps_execEpochAcknowledgement (i : Fin 16) (sender : EpochFrom) (s : State) (hs : Kept pq fu s) {out : State} (hout : (execEpochAcknowledgement i sender s) = .next out) :
    Kept pq fu out := by
  grind -ring -linarith -ac -order -lia [execEpochAcknowledgement]

theorem keeps_wovRead (s : State) (off : Nat) (hs : Kept pq fu s) :
    Kept pq fu (wovRead s off).1 := by
  grind -ring -linarith -ac -order -lia [wovRead]
grind_pattern keeps_wovRead => Kept pq fu s, wovRead s off

theorem keeps_wovWrite (s : State) (m : Master) (off : Nat) (w : Word) (hs : Kept pq fu s) {out : State} (hout : (wovWrite s m off w) = some out) :
    Kept pq fu out := by
  grind -ring -linarith -ac -order -lia [wovWrite]
grind_pattern keeps_wovWrite => Kept pq fu s, wovWrite s m off w, some out

end Sys2Proof.Machine
end

