-- ==== Sys2Proof/Laws/KeepReset.lean ====
section
/-! SUPPORT. No operation of Machine/Reset.lean touches the queue, the fuses, or the canonical form of memory: one lemma each. -/
namespace Sys2Proof.Machine

variable {pq : List Instr} {fu : Fus}

set_option Elab.async false

theorem keeps_loadMonitor (s : State) (l : Fin 16) (hs : Kept pq fu s) :
    Kept pq fu (loadMonitor s l) := by
  grind -ring -linarith -ac -order -lia [loadMonitor]
grind_pattern keeps_loadMonitor => Kept pq fu s, loadMonitor s l

theorem keeps_clearCore (s : State) (hs : Kept pq fu s) :
    Kept pq fu (clearCore s) := by
  grind -ring -linarith -ac -order -lia [clearCore]
grind_pattern keeps_clearCore => Kept pq fu s, clearCore s

theorem keeps_clearSystem (s : State) (lv : RstLevel) (hs : Kept pq fu s) :
    Kept pq fu (clearSystem s lv) := by
  grind -ring -linarith -ac -order -lia [clearSystem]
grind_pattern keeps_clearSystem => Kept pq fu s, clearSystem s lv

theorem keeps_clearPowerOn (s : State) (hs : Kept pq fu s) :
    Kept pq fu (clearPowerOn s) := by
  grind -ring -linarith -ac -order -lia [clearPowerOn]
grind_pattern keeps_clearPowerOn => Kept pq fu s, clearPowerOn s

theorem keeps_markHist (s : State) (cause : Nat) (hs : Kept pq fu s) :
    Kept pq fu (markHist s cause) := hs
grind_pattern keeps_markHist => Kept pq fu s, markHist s cause

theorem keeps_announce (s : State) (hs : Kept pq fu s) :
    Kept pq fu (announce s) := by
  grind -ring -linarith -ac -order -lia [announce]
grind_pattern keeps_announce => Kept pq fu s, announce s

theorem keeps_beginReset (s : State) (lv : RstLevel) (cause : Nat) (hs : Kept pq fu s) :
    Kept pq fu (beginReset s lv cause) := by
  unfold beginReset; grind -ring -linarith -ac -order -lia
grind_pattern keeps_beginReset => Kept pq fu s, beginReset s lv cause

theorem keeps_startReset (s : State) (lv : RstLevel) (cause : Nat) (hs : Kept pq fu s) :
    Kept pq fu (startReset s lv cause) := by
  grind -ring -linarith -ac -order -lia [startReset]
grind_pattern keeps_startReset => Kept pq fu s, startReset s lv cause

theorem keeps_dropCoreOps (s : State) (l : Fin 16) (hs : Kept pq fu s) :
    Kept pq fu (dropCoreOps s l) := hs
grind_pattern keeps_dropCoreOps => Kept pq fu s, dropCoreOps s l

theorem keeps_clearLathe (s : State) (l : Fin 16) (hs : Kept pq fu s) :
    Kept pq fu (clearLathe s l) := by
  grind -ring -linarith -ac -order -lia [clearLathe]
grind_pattern keeps_clearLathe => Kept pq fu s, clearLathe s l

theorem keeps_endLathe (s : State) (l : Fin 16) (hs : Kept pq fu s) :
    Kept pq fu (endLathe s l) := by
  grind -ring -linarith -ac -order -lia [endLathe]
grind_pattern keeps_endLathe => Kept pq fu s, endLathe s l

theorem keeps_leaveInstance (s : State) (l : Fin 16) (i : Option (Fin 16)) (hs : Kept pq fu s) :
    Kept pq fu (leaveInstance s l i) := by
  unfold leaveInstance; grind -ring -linarith -ac -order -lia
grind_pattern keeps_leaveInstance => Kept pq fu s, leaveInstance s l i

theorem keeps_latheReset (s : State) (l : Fin 16) (cause : Nat) (hs : Kept pq fu s) :
    Kept pq fu (latheReset s l cause) := by
  unfold latheReset
  split
  · exact hs
  · split
    · grind -ring -linarith -ac -order -lia
    · exact keeps_loadMonitor _ _ (keeps_clearLathe _ _ (keeps_leaveInstance _ _ _ (keeps_endLathe _ _ (keeps_commit _ _
        (keeps_markHist _ _ hs)))))
grind_pattern keeps_latheReset => Kept pq fu s, latheReset s l cause

theorem keeps_por (s : State) (hs : Kept pq fu s) :
    Kept pq fu (por s) := by
  grind -ring -linarith -ac -order -lia [por]
grind_pattern keeps_por => Kept pq fu s, por s

theorem keeps_execPor (s : State) (hs : Kept pq fu s) {out : State} (hout : (execPor s) = .next out) :
    Kept pq fu out := by
  grind -ring -linarith -ac -order -lia [execPor]

theorem keeps_loseCtr (s : State) (get : Rst → Ctr) (set : Rst → Ctr → Rst) (bits : Nat) (hs : Kept pq fu s) :
    Kept pq fu (loseCtr s get set bits) := hs
grind_pattern keeps_loseCtr => Kept pq fu s, loseCtr s get set bits

theorem keeps_loseBackup (s : State) (hs : Kept pq fu s) :
    Kept pq fu (loseBackup s) := by
  grind -ring -linarith -ac -order -lia [loseBackup]
grind_pattern keeps_loseBackup => Kept pq fu s, loseBackup s

theorem keeps_undrive (s : State) (hs : Kept pq fu s) :
    Kept pq fu (undrive s) := by
  grind -ring -linarith -ac -order -lia [undrive]
grind_pattern keeps_undrive => Kept pq fu s, undrive s

theorem keeps_brownout (s : State) (hs : Kept pq fu s) :
    Kept pq fu (brownout s) := by
  grind -ring -linarith -ac -order -lia [brownout]
grind_pattern keeps_brownout => Kept pq fu s, brownout s

theorem keeps_execBrownout (s : State) (hs : Kept pq fu s) {out : State} (hout : (execBrownout s) = .next out) :
    Kept pq fu out := by
  grind -ring -linarith -ac -order -lia [execBrownout]

theorem keeps_backupRise (s : State) (hs : Kept pq fu s) :
    Kept pq fu (backupRise s) := by
  grind -ring -linarith -ac -order -lia [backupRise]
grind_pattern keeps_backupRise => Kept pq fu s, backupRise s

theorem keeps_execBackupSupplyRise (s : State) (hs : Kept pq fu s) {out : State} (hout : (execBackupSupplyRise s) = .next out) :
    Kept pq fu out := by
  grind -ring -linarith -ac -order -lia [execBackupSupplyRise]

theorem keeps_backupLoss (s : State) (hs : Kept pq fu s) :
    Kept pq fu (backupLoss s) := by
  grind -ring -linarith -ac -order -lia [backupLoss]
grind_pattern keeps_backupLoss => Kept pq fu s, backupLoss s

theorem keeps_execBackupSupplyLoss (s : State) (hs : Kept pq fu s) {out : State} (hout : (execBackupSupplyLoss s) = .next out) :
    Kept pq fu out := by
  grind -ring -linarith -ac -order -lia [execBackupSupplyLoss]

theorem keeps_tempReading (s : State) (c : Int) (hs : Kept pq fu s) :
    Kept pq fu (tempReading s c) := by
  grind -ring -linarith -ac -order -lia [tempReading]
grind_pattern keeps_tempReading => Kept pq fu s, tempReading s c

theorem keeps_execTemp (c : Int) (s : State) (hs : Kept pq fu s) {out : State} (hout : (execTemp c s) = .next out) :
    Kept pq fu out := by
  grind -ring -linarith -ac -order -lia [execTemp]

theorem keeps_overtemp (s : State) (c : Int) (hs : Kept pq fu s) :
    Kept pq fu (overtemp s c) := by
  grind -ring -linarith -ac -order -lia [overtemp]
grind_pattern keeps_overtemp => Kept pq fu s, overtemp s c

theorem keeps_execOvertemp (c : Int) (s : State) (hs : Kept pq fu s) {out : State} (hout : (execOvertemp c s) = .next out) :
    Kept pq fu out := by
  grind -ring -linarith -ac -order -lia [execOvertemp]

theorem keeps_dropFrame (s : State) (hs : Kept pq fu s) :
    Kept pq fu (dropFrame s) := hs
grind_pattern keeps_dropFrame => Kept pq fu s, dropFrame s

theorem keeps_framingError (s : State) (hs : Kept pq fu s) :
    Kept pq fu (framingError s) := hs
grind_pattern keeps_framingError => Kept pq fu s, framingError s

theorem keeps_execFramingError (s : State) (hs : Kept pq fu s) {out : State} (hout : (execFramingError s) = .next out) :
    Kept pq fu out := by
  grind -ring -linarith -ac -order -lia [execFramingError]

theorem keeps_execBrk (s : State) (hs : Kept pq fu s) {out : State} (hout : (execBrk s) = .next out) :
    Kept pq fu out := by
  grind -ring -linarith -ac -order -lia [execBrk]

theorem keeps_pinPulse (s : State) (n : Nat) (hs : Kept pq fu s) :
    Kept pq fu (pinPulse s n) := by
  grind -ring -linarith -ac -order -lia [pinPulse]
grind_pattern keeps_pinPulse => Kept pq fu s, pinPulse s n

theorem keeps_perst (s : State) (asserted : Bool) (hs : Kept pq fu s) :
    Kept pq fu (perst s asserted) := by
  grind -ring -linarith -ac -order -lia [perst]
grind_pattern keeps_perst => Kept pq fu s, perst s asserted

theorem keeps_execPerst (asserted : Bool) (s : State) (hs : Kept pq fu s) {out : State} (hout : (execPerst asserted s) = .next out) :
    Kept pq fu out := by
  grind -ring -linarith -ac -order -lia [execPerst]

theorem keeps_execHotrst (s : State) (hs : Kept pq fu s) {out : State} (hout : (execHotrst s) = .next out) :
    Kept pq fu out := by
  grind -ring -linarith -ac -order -lia [execHotrst]

theorem keeps_hswdExpire (s : State) (hs : Kept pq fu s) :
    Kept pq fu (hswdExpire s) := by
  grind -ring -linarith -ac -order -lia [hswdExpire]
grind_pattern keeps_hswdExpire => Kept pq fu s, hswdExpire s

theorem keeps_execTsfault (s : State) (hs : Kept pq fu s) {out : State} (hout : (execTsfault s) = .next out) :
    Kept pq fu out := by
  grind -ring -linarith -ac -order -lia [execTsfault]

theorem keeps_execUpdate (s : State) (hs : Kept pq fu s) {out : State} (hout : (execUpdate s) = .next out) :
    Kept pq fu out := by
  grind -ring -linarith -ac -order -lia [execUpdate]

theorem keeps_rstCmd (s : State) (level lathe : Nat) (hs : Kept pq fu s) :
    Kept pq fu (rstCmd s level lathe) := by
  unfold rstCmd; grind -ring -linarith -ac -order -lia
grind_pattern keeps_rstCmd => Kept pq fu s, rstCmd s level lathe

theorem keeps_execSwsys (m : Master) (s : State) (hs : Kept pq fu s) {out : State} (hout : (execSwsys m s) = .next out) :
    Kept pq fu out := by
  grind -ring -linarith -ac -order -lia [execSwsys]

theorem keeps_execSwcore (m : Master) (s : State) (hs : Kept pq fu s) {out : State} (hout : (execSwcore m s) = .next out) :
    Kept pq fu out := by
  grind -ring -linarith -ac -order -lia [execSwcore]

theorem keeps_execSwlathe (m : Master) (l : Fin 16) (s : State) (hs : Kept pq fu s) {out : State} (hout : (execSwlathe m l s) = .next out) :
    Kept pq fu out := by
  grind -ring -linarith -ac -order -lia [execSwlathe]

theorem keeps_headLockup (s : State) (hs : Kept pq fu s) :
    Kept pq fu (headLockup s) := by
  grind -ring -linarith -ac -order -lia [headLockup]
grind_pattern keeps_headLockup => Kept pq fu s, headLockup s

theorem keeps_execHeadstockLockup (s : State) (hs : Kept pq fu s) {out : State} (hout : (execHeadstockLockup s) = .next out) :
    Kept pq fu out := by
  grind -ring -linarith -ac -order -lia [execHeadstockLockup]

theorem keeps_kick (s : State) (hs : Kept pq fu s) :
    Kept pq fu (kick s) := by
  grind -ring -linarith -ac -order -lia [kick]
grind_pattern keeps_kick => Kept pq fu s, kick s

theorem keeps_execKick (m : Master) (s : State) (hs : Kept pq fu s) {out : State} (hout : (execKick m s) = .next out) :
    Kept pq fu out := by
  grind -ring -linarith -ac -order -lia [execKick]

end Sys2Proof.Machine
end

