-- ==== Sys2Proof/Laws/KeepBoot.lean ====
section
/-! SUPPORT. No operation of Machine/Boot.lean touches the queue, the fuses, or the canonical form of memory: one lemma each. -/
namespace Sys2Proof.Machine

variable {pq : List Instr} {fu : Fus}

set_option Elab.async false

theorem keeps_setMin (s : State) (c : BitVec 6) (detail : Nat) (hs : Kept pq fu s) :
    Kept pq fu (setMin s c detail) := by
  grind -ring -linarith -ac -order -lia [setMin]
grind_pattern keeps_setMin => Kept pq fu s, setMin s c detail

theorem keeps_loadMap (s : State) (c : MapCopy) (hs : Kept pq fu s) :
    Kept pq fu (loadMap s c) := by
  grind -ring -linarith -ac -order -lia [loadMap]
grind_pattern keeps_loadMap => Kept pq fu s, loadMap s c

theorem keeps_bootOptions (s : State) (hs : Kept pq fu s) :
    Kept pq fu (bootOptions s) := by
  grind -ring -linarith -ac -order -lia [bootOptions]
grind_pattern keeps_bootOptions => Kept pq fu s, bootOptions s

theorem keeps_bootCheck (s : State) (c : ChkFail) (hs : Kept pq fu s) :
    Kept pq fu (bootCheck s c) := by
  unfold bootCheck
  cases c <;> dsimp only <;> grind -ring -linarith -ac -order -lia
grind_pattern keeps_bootCheck => Kept pq fu s, bootCheck s c

theorem keeps_latheOut (s : State) (l : Fin 16) (hs : Kept pq fu s) :
    Kept pq fu (latheOut s l) := by
  grind -ring -linarith -ac -order -lia [latheOut]
grind_pattern keeps_latheOut => Kept pq fu s, latheOut s l

theorem keeps_memExhausted (s : State) (t : Nat) (hs : Kept pq fu s) :
    Kept pq fu (memExhausted s t) := by
  grind -ring -linarith -ac -order -lia [memExhausted]
grind_pattern keeps_memExhausted => Kept pq fu s, memExhausted s t

theorem keeps_repairMem (s : State) (t : Nat) (hs : Kept pq fu s) :
    Kept pq fu (repairMem s t) := by
  grind -ring -linarith -ac -order -lia [repairMem]
grind_pattern keeps_repairMem => Kept pq fu s, repairMem s t

theorem keeps_bootTesters (s : State) (f : BootFindings) (hs : Kept pq fu s) :
    Kept pq fu (bootTesters s f) := by
  grind -ring -linarith -ac -order -lia [bootTesters]
grind_pattern keeps_bootTesters => Kept pq fu s, bootTesters s f

theorem keeps_bootChecks (s : State) (f : BootFindings) (hs : Kept pq fu s) :
    Kept pq fu (bootChecks s f) := by
  unfold bootChecks; grind -ring -linarith -ac -order -lia
grind_pattern keeps_bootChecks => Kept pq fu s, bootChecks s f

theorem keeps_bootMarch (s : State) (f : BootFindings) (hs : Kept pq fu s) :
    Kept pq fu (bootMarch s f) := by
  grind -ring -linarith -ac -order -lia [bootMarch]
grind_pattern keeps_bootMarch => Kept pq fu s, bootMarch s f

theorem keeps_clearFails (s : State) (hs : Kept pq fu s) :
    Kept pq fu (clearFails s) := by
  grind -ring -linarith -ac -order -lia [clearFails]
grind_pattern keeps_clearFails => Kept pq fu s, clearFails s

theorem keeps_revert (s : State) (hs : Kept pq fu s) :
    Kept pq fu (revert s) := hs
grind_pattern keeps_revert => Kept pq fu s, revert s

theorem keeps_countStart (s : State) (hs : Kept pq fu s) :
    Kept pq fu (countStart s).1 := by
  grind -ring -linarith -ac -order -lia [countStart]
grind_pattern keeps_countStart => Kept pq fu s, countStart s

theorem keeps_headStart (s : State) (hs : Kept pq fu s) :
    Kept pq fu (headStart s).1 := by
  grind -ring -linarith -ac -order -lia [headStart]
grind_pattern keeps_headStart => Kept pq fu s, headStart s

theorem keeps_resolveHead (s : State) (hs : Kept pq fu s) :
    Kept pq fu (resolveHead s) := by
  grind -ring -linarith -ac -order -lia [resolveHead]
grind_pattern keeps_resolveHead => Kept pq fu s, resolveHead s

theorem keeps_closeAccepts (s : State) (hs : Kept pq fu s) :
    Kept pq fu (closeAccepts s) := by
  grind -ring -linarith -ac -order -lia [closeAccepts]
grind_pattern keeps_closeAccepts => Kept pq fu s, closeAccepts s

theorem keeps_bootJournal (s : State) (reverted : Bool) (hs : Kept pq fu s) :
    Kept pq fu (bootJournal s reverted) := by
  unfold bootJournal; grind -ring -linarith -ac -order -lia (splits := 40) (gen := 20)
grind_pattern keeps_bootJournal => Kept pq fu s, bootJournal s reverted

theorem keeps_bootFirmware (s : State) (hs : Kept pq fu s) :
    Kept pq fu (bootFirmware s) := by
  grind -ring -linarith -ac -order -lia [bootFirmware]
grind_pattern keeps_bootFirmware => Kept pq fu s, bootFirmware s

theorem keeps_bootBank (s : State) (n : Nat) (hs : Kept pq fu s) :
    Kept pq fu (bootBank s n) := by
  grind -ring -linarith -ac -order -lia [bootBank]
grind_pattern keeps_bootBank => Kept pq fu s, bootBank s n

theorem keeps_bootDet (s : State) (hs : Kept pq fu s) :
    Kept pq fu (bootDet s) := by
  grind -ring -linarith -ac -order -lia [bootDet]
grind_pattern keeps_bootDet => Kept pq fu s, bootDet s

theorem keeps_presentFns (s : State) (only : Bool) (hs : Kept pq fu s) :
    Kept pq fu (presentFns s only) := by
  unfold presentFns
  have h := kept_foldl (fun s (k : Nat) => State.modFn s (k + 1) (fun f => { f with present := !only })) (List.range 15) s hs
    (fun s x h => keeps_modFn _ _ _ h)
  dsimp only
  generalize List.foldl _ s (List.range 15) = s2 at h ⊢
  grind -ring -linarith -ac -order -lia
grind_pattern keeps_presentFns => Kept pq fu s, presentFns s only

theorem keeps_bootOwner (s : State) (hs : Kept pq fu s) :
    Kept pq fu (bootOwner s) := kept_foldl _ _ _ (keeps_modInst _ _ _ hs) (fun s x h => keeps_bootBank s x h)
grind_pattern keeps_bootOwner => Kept pq fu s, bootOwner s

theorem keeps_bootTimer (s : State) (m : BitVec 4) (hs : Kept pq fu s) :
    Kept pq fu (bootTimer s m) := by
  grind -ring -linarith -ac -order -lia [bootTimer]
grind_pattern keeps_bootTimer => Kept pq fu s, bootTimer s m

theorem keeps_bootPresent (s : State) (hs : Kept pq fu s) :
    Kept pq fu (bootPresent s) := by
  grind -ring -linarith -ac -order -lia [bootPresent]
grind_pattern keeps_bootPresent => Kept pq fu s, bootPresent s

theorem keeps_boot (s : State) (f : BootFindings) (hs : Kept pq fu s) :
    Kept pq fu (boot s f) := by
  unfold boot; repeat' split
  all_goals grind -ring -linarith -ac -order -lia
grind_pattern keeps_boot => Kept pq fu s, boot s f

theorem keeps_execBoot (f : BootFindings) (s : State) (hs : Kept pq fu s) {out : State} (hout : (execBoot f s) = .next out) :
    Kept pq fu out := by
  grind -ring -linarith -ac -order -lia [execBoot]

theorem keeps_advanceArc (s : State) (hs : Kept pq fu s) :
    Kept pq fu (advanceArc s) := hs
grind_pattern keeps_advanceArc => Kept pq fu s, advanceArc s

theorem keeps_confirmed (s : State) (hs : Kept pq fu s) :
    Kept pq fu (confirmed s) := hs
grind_pattern keeps_confirmed => Kept pq fu s, confirmed s

theorem keeps_confirmStart (s : State) (hs : Kept pq fu s) :
    Kept pq fu (confirmStart s) := by
  grind -ring -linarith -ac -order -lia [confirmStart]
grind_pattern keeps_confirmStart => Kept pq fu s, confirmStart s

theorem keeps_execConfirm (m : Master) (s : State) (hs : Kept pq fu s) {out : State} (hout : (execConfirm m s) = .next out) :
    Kept pq fu out := by
  grind -ring -linarith -ac -order -lia [execConfirm]

theorem keeps_setInactive (s : State) (x : FwSlot) (hs : Kept pq fu s) :
    Kept pq fu (setInactive s x) := by
  grind -ring -linarith -ac -order -lia [setInactive]
grind_pattern keeps_setInactive => Kept pq fu s, setInactive s x

theorem keeps_updateEntry (s : State) (stage : Nat) (hs : Kept pq fu s) :
    Kept pq fu (updateEntry s stage) := by
  grind -ring -linarith -ac -order -lia [updateEntry]
grind_pattern keeps_updateEntry => Kept pq fu s, updateEntry s stage

theorem keeps_updloadRun (s : State) (r : SlotRef) (o : List Octet) (cpl : HostCpl) (hs : Kept pq fu s) :
    Kept pq fu (updloadRun s r o cpl) := by
  unfold updloadRun; grind -ring -linarith -ac -order -lia
grind_pattern keeps_updloadRun => Kept pq fu s, updloadRun s r o cpl

theorem keeps_execUpdload (r : SlotRef) (cpl : HostCpl) (s : State) (hs : Kept pq fu s) {out : State} (hout : (execUpdload r cpl s) = .next out) :
    Kept pq fu out := by
  grind -ring -linarith -ac -order -lia [execUpdload]

theorem keeps_verifyInactive (s : State) (hs : Kept pq fu s) :
    Kept pq fu (verifyInactive s).1 := by
  grind -ring -linarith -ac -order -lia [verifyInactive]
grind_pattern keeps_verifyInactive => Kept pq fu s, verifyInactive s

theorem keeps_updverifyRun (s : State) (r : SlotRef) (hs : Kept pq fu s) :
    Kept pq fu (updverifyRun s r) := by
  grind -ring -linarith -ac -order -lia [updverifyRun]
grind_pattern keeps_updverifyRun => Kept pq fu s, updverifyRun s r

theorem keeps_execUpdverify (r : SlotRef) (s : State) (hs : Kept pq fu s) {out : State} (hout : (execUpdverify r s) = .next out) :
    Kept pq fu out := by
  grind -ring -linarith -ac -order -lia [execUpdverify]

theorem keeps_updactivateRun (s : State) (r : SlotRef) (hs : Kept pq fu s) :
    Kept pq fu (updactivateRun s r) := by
  unfold updactivateRun; grind -ring -linarith -ac -order -lia
grind_pattern keeps_updactivateRun => Kept pq fu s, updactivateRun s r

theorem keeps_execUpdactivate (r : SlotRef) (s : State) (hs : Kept pq fu s) {out : State} (hout : (execUpdactivate r s) = .next out) :
    Kept pq fu out := by
  grind -ring -linarith -ac -order -lia [execUpdactivate]

theorem keeps_updconfirmRun (s : State) (r : SlotRef) (hs : Kept pq fu s) :
    Kept pq fu (updconfirmRun s r) := by
  unfold updconfirmRun; grind -ring -linarith -ac -order -lia
grind_pattern keeps_updconfirmRun => Kept pq fu s, updconfirmRun s r

theorem keeps_execUpdconfirm (r : SlotRef) (s : State) (hs : Kept pq fu s) {out : State} (hout : (execUpdconfirm r s) = .next out) :
    Kept pq fu out := by
  grind -ring -linarith -ac -order -lia [execUpdconfirm]

theorem keeps_writeIncomplete (s : State) (o : List Octet) (hs : Kept pq fu s) :
    Kept pq fu (writeIncomplete s o) := by
  grind -ring -linarith -ac -order -lia [writeIncomplete]
grind_pattern keeps_writeIncomplete => Kept pq fu s, writeIncomplete s o

theorem keeps_commandWriteFails (s : State) (r : SlotRef) (hs : Kept pq fu s) :
    Kept pq fu (commandWriteFails s r) := by
  grind -ring -linarith -ac -order -lia [commandWriteFails]
grind_pattern keeps_commandWriteFails => Kept pq fu s, commandWriteFails s r

theorem keeps_backgroundSlotCheck (s : State) (hs : Kept pq fu s) :
    Kept pq fu (backgroundSlotCheck s) := by
  grind -ring -linarith -ac -order -lia [backgroundSlotCheck]
grind_pattern keeps_backgroundSlotCheck => Kept pq fu s, backgroundSlotCheck s

theorem keeps_execBackgroundSlotCheck (s : State) (hs : Kept pq fu s) {out : State} (hout : (execBackgroundSlotCheck s) = .next out) :
    Kept pq fu out := by
  grind -ring -linarith -ac -order -lia [execBackgroundSlotCheck]

end Sys2Proof.Machine
end

