-- ==== Sys2Proof/Laws/KeepControl.lean ====
section
/-! SUPPORT. No operation of Machine/Control.lean touches the queue, the fuses, or the canonical form of memory: one lemma each. -/
namespace Sys2Proof.Machine

variable {pq : List Instr} {fu : Fus}

set_option Elab.async false

theorem keeps_opBranch (c : Word → Word → Bool) (th : Th) (f : IFld) (s : State) (hs : Kept pq fu s) :
    Kept pq fu (opBranch c th f s).1 := hs
grind_pattern keeps_opBranch => Kept pq fu s, opBranch c th f s

theorem keeps_opBeq (y0 : Th) (y1 : IFld) (s : State) (hs : Kept pq fu s) :
    Kept pq fu (opBeq y0 y1 s).1 := hs
grind_pattern keeps_opBeq => Kept pq fu s, opBeq y0 y1 s

theorem keeps_opBne (y0 : Th) (y1 : IFld) (s : State) (hs : Kept pq fu s) :
    Kept pq fu (opBne y0 y1 s).1 := hs
grind_pattern keeps_opBne => Kept pq fu s, opBne y0 y1 s

theorem keeps_opBlt (y0 : Th) (y1 : IFld) (s : State) (hs : Kept pq fu s) :
    Kept pq fu (opBlt y0 y1 s).1 := hs
grind_pattern keeps_opBlt => Kept pq fu s, opBlt y0 y1 s

theorem keeps_opBge (y0 : Th) (y1 : IFld) (s : State) (hs : Kept pq fu s) :
    Kept pq fu (opBge y0 y1 s).1 := hs
grind_pattern keeps_opBge => Kept pq fu s, opBge y0 y1 s

theorem keeps_opBltu (y0 : Th) (y1 : IFld) (s : State) (hs : Kept pq fu s) :
    Kept pq fu (opBltu y0 y1 s).1 := hs
grind_pattern keeps_opBltu => Kept pq fu s, opBltu y0 y1 s

theorem keeps_opBgeu (y0 : Th) (y1 : IFld) (s : State) (hs : Kept pq fu s) :
    Kept pq fu (opBgeu y0 y1 s).1 := hs
grind_pattern keeps_opBgeu => Kept pq fu s, opBgeu y0 y1 s

theorem keeps_opDbnz (th : Th) (f : IFld) (s : State) (hs : Kept pq fu s) :
    Kept pq fu (opDbnz th f s).1 := by
  grind -ring -linarith -ac -order -lia [opDbnz]
grind_pattern keeps_opDbnz => Kept pq fu s, opDbnz th f s

theorem keeps_opJal (th : Th) (off : BitVec 28) (s : State) (hs : Kept pq fu s) :
    Kept pq fu (opJal th off s).1 := hs
grind_pattern keeps_opJal => Kept pq fu s, opJal th off s

theorem keeps_opJ (th : Th) (off : BitVec 28) (s : State) (hs : Kept pq fu s) :
    Kept pq fu (opJ th off s).1 := hs
grind_pattern keeps_opJ => Kept pq fu s, opJ th off s

theorem keeps_opJalr (th : Th) (f : IFld) (s : State) (hs : Kept pq fu s) :
    Kept pq fu (opJalr th f s).1 := hs
grind_pattern keeps_opJalr => Kept pq fu s, opJalr th f s

end Sys2Proof.Machine
end

