-- ==== Sys2Proof/Laws/KeepFp.lean ====
section
/-! SUPPORT. No operation of Machine/Fp.lean touches the queue, the fuses, or the canonical form of memory: one lemma each. -/
namespace Sys2Proof.Machine

variable {pq : List Instr} {fu : Fus}

set_option Elab.async false

theorem keeps_fpIssue (s : State) (th : Th) (slots lat : Nat) (p : FpPend) (hs : Kept pq fu s) :
    Kept pq fu (fpIssue s th slots lat p) := by
  grind -ring -linarith -ac -order -lia [fpIssue]
grind_pattern keeps_fpIssue => Kept pq fu s, fpIssue s th slots lat p

theorem keeps_opFpK (rounds unary : Bool) (fn : FpFn) (th : Th) (func : BitVec 7) (f : TFld) (s : State) (hs : Kept pq fu s) :
    Kept pq fu (opFpK rounds unary fn th func f s).1 := by
  grind -ring -linarith -ac -order -lia [opFpK]
grind_pattern keeps_opFpK => Kept pq fu s, opFpK rounds unary fn th func f s

theorem keeps_opFpLong (unary : Bool) (fn : FpFn) (slots36 slots72 : Nat) (th : Th) (func : BitVec 7) (f : TFld) (s : State) (hs : Kept pq fu s) :
    Kept pq fu (opFpLong unary fn slots36 slots72 th func f s).1 := by
  grind -ring -linarith -ac -order -lia [opFpLong]
grind_pattern keeps_opFpLong => Kept pq fu s, opFpLong unary fn slots36 slots72 th func f s

theorem keeps_opFadd (y0 : Th) (y1 : BitVec 7) (y2 : TFld) (s : State) (hs : Kept pq fu s) :
    Kept pq fu (opFadd y0 y1 y2 s).1 := by
  unfold opFadd; grind -ring -linarith -ac -order -lia
grind_pattern keeps_opFadd => Kept pq fu s, opFadd y0 y1 y2 s

theorem keeps_opFsub (y0 : Th) (y1 : BitVec 7) (y2 : TFld) (s : State) (hs : Kept pq fu s) :
    Kept pq fu (opFsub y0 y1 y2 s).1 := by
  unfold opFsub; grind -ring -linarith -ac -order -lia
grind_pattern keeps_opFsub => Kept pq fu s, opFsub y0 y1 y2 s

theorem keeps_opFmul (y0 : Th) (y1 : BitVec 7) (y2 : TFld) (s : State) (hs : Kept pq fu s) :
    Kept pq fu (opFmul y0 y1 y2 s).1 := by
  unfold opFmul; grind -ring -linarith -ac -order -lia
grind_pattern keeps_opFmul => Kept pq fu s, opFmul y0 y1 y2 s

theorem keeps_opFma (y0 : Th) (y1 : BitVec 7) (y2 : TFld) (s : State) (hs : Kept pq fu s) :
    Kept pq fu (opFma y0 y1 y2 s).1 := by
  unfold opFma; grind -ring -linarith -ac -order -lia
grind_pattern keeps_opFma => Kept pq fu s, opFma y0 y1 y2 s

theorem keeps_opFms (y0 : Th) (y1 : BitVec 7) (y2 : TFld) (s : State) (hs : Kept pq fu s) :
    Kept pq fu (opFms y0 y1 y2 s).1 := by
  unfold opFms; grind -ring -linarith -ac -order -lia
grind_pattern keeps_opFms => Kept pq fu s, opFms y0 y1 y2 s

theorem keeps_opFnma (y0 : Th) (y1 : BitVec 7) (y2 : TFld) (s : State) (hs : Kept pq fu s) :
    Kept pq fu (opFnma y0 y1 y2 s).1 := by
  unfold opFnma; grind -ring -linarith -ac -order -lia
grind_pattern keeps_opFnma => Kept pq fu s, opFnma y0 y1 y2 s

theorem keeps_opFdiv (y0 : Th) (y1 : BitVec 7) (y2 : TFld) (s : State) (hs : Kept pq fu s) :
    Kept pq fu (opFdiv y0 y1 y2 s).1 := by
  unfold opFdiv; grind -ring -linarith -ac -order -lia
grind_pattern keeps_opFdiv => Kept pq fu s, opFdiv y0 y1 y2 s

theorem keeps_opFsqrt (y0 : Th) (y1 : BitVec 7) (y2 : TFld) (s : State) (hs : Kept pq fu s) :
    Kept pq fu (opFsqrt y0 y1 y2 s).1 := by
  unfold opFsqrt; grind -ring -linarith -ac -order -lia
grind_pattern keeps_opFsqrt => Kept pq fu s, opFsqrt y0 y1 y2 s

theorem keeps_opFmin (y0 : Th) (y1 : BitVec 7) (y2 : TFld) (s : State) (hs : Kept pq fu s) :
    Kept pq fu (opFmin y0 y1 y2 s).1 := by
  unfold opFmin; grind -ring -linarith -ac -order -lia
grind_pattern keeps_opFmin => Kept pq fu s, opFmin y0 y1 y2 s

theorem keeps_opFmax (y0 : Th) (y1 : BitVec 7) (y2 : TFld) (s : State) (hs : Kept pq fu s) :
    Kept pq fu (opFmax y0 y1 y2 s).1 := by
  unfold opFmax; grind -ring -linarith -ac -order -lia
grind_pattern keeps_opFmax => Kept pq fu s, opFmax y0 y1 y2 s

theorem keeps_opFabs (y0 : Th) (y1 : BitVec 7) (y2 : TFld) (s : State) (hs : Kept pq fu s) :
    Kept pq fu (opFabs y0 y1 y2 s).1 := by
  unfold opFabs; grind -ring -linarith -ac -order -lia
grind_pattern keeps_opFabs => Kept pq fu s, opFabs y0 y1 y2 s

theorem keeps_opFneg (y0 : Th) (y1 : BitVec 7) (y2 : TFld) (s : State) (hs : Kept pq fu s) :
    Kept pq fu (opFneg y0 y1 y2 s).1 := by
  unfold opFneg; grind -ring -linarith -ac -order -lia
grind_pattern keeps_opFneg => Kept pq fu s, opFneg y0 y1 y2 s

theorem keeps_opFmov (y0 : Th) (y1 : BitVec 7) (y2 : TFld) (s : State) (hs : Kept pq fu s) :
    Kept pq fu (opFmov y0 y1 y2 s).1 := by
  unfold opFmov; grind -ring -linarith -ac -order -lia
grind_pattern keeps_opFmov => Kept pq fu s, opFmov y0 y1 y2 s

theorem keeps_opFrint (y0 : Th) (y1 : BitVec 7) (y2 : TFld) (s : State) (hs : Kept pq fu s) :
    Kept pq fu (opFrint y0 y1 y2 s).1 := by
  unfold opFrint; grind -ring -linarith -ac -order -lia
grind_pattern keeps_opFrint => Kept pq fu s, opFrint y0 y1 y2 s

theorem keeps_opFcmpK (c : Cmp) (th : Th) (func : BitVec 7) (f : TFld) (s : State) (hs : Kept pq fu s) :
    Kept pq fu (opFcmpK c th func f s).1 := by
  grind -ring -linarith -ac -order -lia [opFcmpK]
grind_pattern keeps_opFcmpK => Kept pq fu s, opFcmpK c th func f s

theorem keeps_opFcmpeq (y0 : Th) (y1 : BitVec 7) (y2 : TFld) (s : State) (hs : Kept pq fu s) :
    Kept pq fu (opFcmpeq y0 y1 y2 s).1 := by
  unfold opFcmpeq; grind -ring -linarith -ac -order -lia
grind_pattern keeps_opFcmpeq => Kept pq fu s, opFcmpeq y0 y1 y2 s

theorem keeps_opFcmplt (y0 : Th) (y1 : BitVec 7) (y2 : TFld) (s : State) (hs : Kept pq fu s) :
    Kept pq fu (opFcmplt y0 y1 y2 s).1 := by
  unfold opFcmplt; grind -ring -linarith -ac -order -lia
grind_pattern keeps_opFcmplt => Kept pq fu s, opFcmplt y0 y1 y2 s

theorem keeps_opFcmple (y0 : Th) (y1 : BitVec 7) (y2 : TFld) (s : State) (hs : Kept pq fu s) :
    Kept pq fu (opFcmple y0 y1 y2 s).1 := by
  unfold opFcmple; grind -ring -linarith -ac -order -lia
grind_pattern keeps_opFcmple => Kept pq fu s, opFcmple y0 y1 y2 s

theorem keeps_opFcmpun (y0 : Th) (y1 : BitVec 7) (y2 : TFld) (s : State) (hs : Kept pq fu s) :
    Kept pq fu (opFcmpun y0 y1 y2 s).1 := by
  unfold opFcmpun; grind -ring -linarith -ac -order -lia
grind_pattern keeps_opFcmpun => Kept pq fu s, opFcmpun y0 y1 y2 s

theorem keeps_opCvtK (rounds : Bool) (lat : Nat) (fn : Thread → TFld → FpPend) (th : Th) (func : BitVec 7) (f : TFld) (s : State) (hs : Kept pq fu s) :
    Kept pq fu (opCvtK rounds lat fn th func f s).1 := by
  grind -ring -linarith -ac -order -lia [opCvtK]
grind_pattern keeps_opCvtK => Kept pq fu s, opCvtK rounds lat fn th func f s

theorem keeps_opFcvtsd (y0 : Th) (y1 : BitVec 7) (y2 : TFld) (s : State) (hs : Kept pq fu s) :
    Kept pq fu (opFcvtsd y0 y1 y2 s).1 := by
  unfold opFcvtsd; grind -ring -linarith -ac -order -lia
grind_pattern keeps_opFcvtsd => Kept pq fu s, opFcvtsd y0 y1 y2 s

theorem keeps_opFcvtds (y0 : Th) (y1 : BitVec 7) (y2 : TFld) (s : State) (hs : Kept pq fu s) :
    Kept pq fu (opFcvtds y0 y1 y2 s).1 := by
  unfold opFcvtds; grind -ring -linarith -ac -order -lia
grind_pattern keeps_opFcvtds => Kept pq fu s, opFcvtds y0 y1 y2 s

theorem keeps_opFcvtis (y0 : Th) (y1 : BitVec 7) (y2 : TFld) (s : State) (hs : Kept pq fu s) :
    Kept pq fu (opFcvtis y0 y1 y2 s).1 := by
  unfold opFcvtis; grind -ring -linarith -ac -order -lia
grind_pattern keeps_opFcvtis => Kept pq fu s, opFcvtis y0 y1 y2 s

theorem keeps_opFcvtid (y0 : Th) (y1 : BitVec 7) (y2 : TFld) (s : State) (hs : Kept pq fu s) :
    Kept pq fu (opFcvtid y0 y1 y2 s).1 := by
  unfold opFcvtid; grind -ring -linarith -ac -order -lia
grind_pattern keeps_opFcvtid => Kept pq fu s, opFcvtid y0 y1 y2 s

theorem keeps_opFcvtsi (y0 : Th) (y1 : BitVec 7) (y2 : TFld) (s : State) (hs : Kept pq fu s) :
    Kept pq fu (opFcvtsi y0 y1 y2 s).1 := by
  unfold opFcvtsi; grind -ring -linarith -ac -order -lia
grind_pattern keeps_opFcvtsi => Kept pq fu s, opFcvtsi y0 y1 y2 s

theorem keeps_opFcvtdi (y0 : Th) (y1 : BitVec 7) (y2 : TFld) (s : State) (hs : Kept pq fu s) :
    Kept pq fu (opFcvtdi y0 y1 y2 s).1 := by
  unfold opFcvtdi; grind -ring -linarith -ac -order -lia
grind_pattern keeps_opFcvtdi => Kept pq fu s, opFcvtdi y0 y1 y2 s

theorem keeps_opFmvgfL (y0 : Th) (y1 : BitVec 7) (y2 : TFld) (s : State) (hs : Kept pq fu s) :
    Kept pq fu (opFmvgfL y0 y1 y2 s).1 := by
  unfold opFmvgfL; grind -ring -linarith -ac -order -lia
grind_pattern keeps_opFmvgfL => Kept pq fu s, opFmvgfL y0 y1 y2 s

theorem keeps_opFmvgfH (y0 : Th) (y1 : BitVec 7) (y2 : TFld) (s : State) (hs : Kept pq fu s) :
    Kept pq fu (opFmvgfH y0 y1 y2 s).1 := by
  unfold opFmvgfH; grind -ring -linarith -ac -order -lia
grind_pattern keeps_opFmvgfH => Kept pq fu s, opFmvgfH y0 y1 y2 s

theorem keeps_opFmvfgL (y0 : Th) (y1 : BitVec 7) (y2 : TFld) (s : State) (hs : Kept pq fu s) :
    Kept pq fu (opFmvfgL y0 y1 y2 s).1 := by
  unfold opFmvfgL; grind -ring -linarith -ac -order -lia
grind_pattern keeps_opFmvfgL => Kept pq fu s, opFmvfgL y0 y1 y2 s

theorem keeps_opFmvfgH (y0 : Th) (y1 : BitVec 7) (y2 : TFld) (s : State) (hs : Kept pq fu s) :
    Kept pq fu (opFmvfgH y0 y1 y2 s).1 := by
  unfold opFmvfgH; grind -ring -linarith -ac -order -lia
grind_pattern keeps_opFmvfgH => Kept pq fu s, opFmvfgH y0 y1 y2 s

theorem keeps_fpComplete (s : State) (th : Th) (hs : Kept pq fu s) :
    Kept pq fu (fpComplete s th) := hs
grind_pattern keeps_fpComplete => Kept pq fu s, fpComplete s th

theorem keeps_execFpCompletion (th : Th) (s : State) (hs : Kept pq fu s) {out : State} (hout : (execFpCompletion th s) = .next out) :
    Kept pq fu out := by
  grind -ring -linarith -ac -order -lia [execFpCompletion]

theorem keeps_execFptrap (th : Th) (s : State) (hs : Kept pq fu s) {out : State} (hout : (execFptrap th s) = .next out) :
    Kept pq fu out := by
  grind -ring -linarith -ac -order -lia [execFptrap]

end Sys2Proof.Machine
end

