-- ==== Sys2Proof/Laws/KeepMulDiv.lean ====
section
/-! SUPPORT. No operation of Machine/MulDiv.lean touches the queue, the fuses, or the canonical form of memory: one lemma each. -/
namespace Sys2Proof.Machine

variable {pq : List Instr} {fu : Fus}

set_option Elab.async false

theorem keeps_opMulK (acc : Bool) (fn : Word → Word → Dbl) (th : Th) (func : BitVec 7) (f : TFld) (s : State) (hs : Kept pq fu s) :
    Kept pq fu (opMulK acc fn th func f s).1 := by
  grind -ring -linarith -ac -order -lia [opMulK]
grind_pattern keeps_opMulK => Kept pq fu s, opMulK acc fn th func f s

theorem keeps_opMul (y0 : Th) (y1 : BitVec 7) (y2 : TFld) (s : State) (hs : Kept pq fu s) :
    Kept pq fu (opMul y0 y1 y2 s).1 := by
  unfold opMul; grind -ring -linarith -ac -order -lia
grind_pattern keeps_opMul => Kept pq fu s, opMul y0 y1 y2 s

theorem keeps_opMulu (y0 : Th) (y1 : BitVec 7) (y2 : TFld) (s : State) (hs : Kept pq fu s) :
    Kept pq fu (opMulu y0 y1 y2 s).1 := by
  unfold opMulu; grind -ring -linarith -ac -order -lia
grind_pattern keeps_opMulu => Kept pq fu s, opMulu y0 y1 y2 s

theorem keeps_opMadd (y0 : Th) (y1 : BitVec 7) (y2 : TFld) (s : State) (hs : Kept pq fu s) :
    Kept pq fu (opMadd y0 y1 y2 s).1 := by
  unfold opMadd; grind -ring -linarith -ac -order -lia
grind_pattern keeps_opMadd => Kept pq fu s, opMadd y0 y1 y2 s

theorem keeps_opMaddu (y0 : Th) (y1 : BitVec 7) (y2 : TFld) (s : State) (hs : Kept pq fu s) :
    Kept pq fu (opMaddu y0 y1 y2 s).1 := by
  unfold opMaddu; grind -ring -linarith -ac -order -lia
grind_pattern keeps_opMaddu => Kept pq fu s, opMaddu y0 y1 y2 s

theorem keeps_execProductWrite (th : Th) (s : State) (hs : Kept pq fu s) {out : State} (hout : (execProductWrite th s) = .next out) :
    Kept pq fu out := by
  grind -ring -linarith -ac -order -lia [execProductWrite]

theorem keeps_opDivK (fn : Word → Word → Word) (th : Th) (func : BitVec 7) (f : TFld) (s : State) (hs : Kept pq fu s) :
    Kept pq fu (opDivK fn th func f s).1 := by
  grind -ring -linarith -ac -order -lia [opDivK]
grind_pattern keeps_opDivK => Kept pq fu s, opDivK fn th func f s

theorem keeps_opDiv (y0 : Th) (y1 : BitVec 7) (y2 : TFld) (s : State) (hs : Kept pq fu s) :
    Kept pq fu (opDiv y0 y1 y2 s).1 := by
  unfold opDiv; grind -ring -linarith -ac -order -lia
grind_pattern keeps_opDiv => Kept pq fu s, opDiv y0 y1 y2 s

theorem keeps_opDivu (y0 : Th) (y1 : BitVec 7) (y2 : TFld) (s : State) (hs : Kept pq fu s) :
    Kept pq fu (opDivu y0 y1 y2 s).1 := by
  unfold opDivu; grind -ring -linarith -ac -order -lia
grind_pattern keeps_opDivu => Kept pq fu s, opDivu y0 y1 y2 s

theorem keeps_opRem (y0 : Th) (y1 : BitVec 7) (y2 : TFld) (s : State) (hs : Kept pq fu s) :
    Kept pq fu (opRem y0 y1 y2 s).1 := by
  unfold opRem; grind -ring -linarith -ac -order -lia
grind_pattern keeps_opRem => Kept pq fu s, opRem y0 y1 y2 s

theorem keeps_opRemu (y0 : Th) (y1 : BitVec 7) (y2 : TFld) (s : State) (hs : Kept pq fu s) :
    Kept pq fu (opRemu y0 y1 y2 s).1 := by
  unfold opRemu; grind -ring -linarith -ac -order -lia
grind_pattern keeps_opRemu => Kept pq fu s, opRemu y0 y1 y2 s

theorem keeps_divideDone (s : State) (l : Fin 16) (hs : Kept pq fu s) :
    Kept pq fu (divideDone s l) := by
  grind -ring -linarith -ac -order -lia [divideDone]
grind_pattern keeps_divideDone => Kept pq fu s, divideDone s l

theorem keeps_execDivideDone (l : Fin 16) (s : State) (hs : Kept pq fu s) {out : State} (hout : (execDivideDone l s) = .next out) :
    Kept pq fu out := by
  grind -ring -linarith -ac -order -lia [execDivideDone]

end Sys2Proof.Machine
end

