-- ==== Sys2Proof/Laws/KeepPower.lean ====
section
/-! SUPPORT. No operation of Machine/Power.lean touches the queue, the fuses, or the canonical form of memory: one lemma each. -/
namespace Sys2Proof.Machine

variable {pq : List Instr} {fu : Fus}

set_option Elab.async false

theorem keeps_linkSleep (s : State) (k : Fin 6) (hs : Kept pq fu s) :
    Kept pq fu (linkSleep s k) := by
  grind -ring -linarith -ac -order -lia [linkSleep]
grind_pattern keeps_linkSleep => Kept pq fu s, linkSleep s k

theorem keeps_loseState (s : State) (hs : Kept pq fu s) :
    Kept pq fu (loseState s) := by
  grind -ring -linarith -ac -order -lia [loseState]
grind_pattern keeps_loseState => Kept pq fu s, loseState s

theorem keeps_enterRest (s : State) (hs : Kept pq fu s) :
    Kept pq fu (enterRest s) := by
  grind -ring -linarith -ac -order -lia [enterRest]
grind_pattern keeps_enterRest => Kept pq fu s, enterRest s

theorem keeps_restoreRecord (s : State) (x : RestRec) (hs : Kept pq fu s) :
    Kept pq fu (restoreRecord s x) := by
  grind -ring -linarith -ac -order -lia [restoreRecord]
grind_pattern keeps_restoreRecord => Kept pq fu s, restoreRecord s x

theorem keeps_wakeLathe (s : State) (l : Fin 16) (hs : Kept pq fu s) :
    Kept pq fu (wakeLathe s l) := by
  grind -ring -linarith -ac -order -lia [wakeLathe]
grind_pattern keeps_wakeLathe => Kept pq fu s, wakeLathe s l

theorem keeps_returnBanks (s : State) (x : RestRec) (hs : Kept pq fu s) :
    Kept pq fu (returnBanks s x) := by
  grind -ring -linarith -ac -order -lia [returnBanks]
grind_pattern keeps_returnBanks => Kept pq fu s, returnBanks s x

theorem keeps_wakeLost (s : State) (x : RestRec) (hs : Kept pq fu s) :
    Kept pq fu (wakeLost s x) := by
  grind -ring -linarith -ac -order -lia [wakeLost]
grind_pattern keeps_wakeLost => Kept pq fu s, wakeLost s x

theorem keeps_wakeUp (s : State) (src : WakeSrc) (hs : Kept pq fu s) :
    Kept pq fu (wakeUp s src) := by
  grind -ring -linarith -ac -order -lia [wakeUp]
grind_pattern keeps_wakeUp => Kept pq fu s, wakeUp s src

theorem keeps_wake (s : State) (src : WakeSrc) (hs : Kept pq fu s) :
    Kept pq fu (wake s src) := by
  unfold wake; grind -ring -linarith -ac -order -lia
grind_pattern keeps_wake => Kept pq fu s, wake s src

theorem keeps_execWake (src : WakeSrc) (s : State) (hs : Kept pq fu s) {out : State} (hout : (execWake src s) = .next out) :
    Kept pq fu out := by
  grind -ring -linarith -ac -order -lia [execWake]

theorem keeps_settleZeroing (s : State) (hs : Kept pq fu s) :
    Kept pq fu (settleZeroing s) := by
  grind -ring -linarith -ac -order -lia [settleZeroing]
grind_pattern keeps_settleZeroing => Kept pq fu s, settleZeroing s

theorem keeps_execMarchGroupDone (fails : List CellFail) (s : State) (hs : Kept pq fu s) {out : State} (hout : (execMarchGroupDone fails s) = .next out) :
    Kept pq fu out := by
  grind -ring -linarith -ac -order -lia [execMarchGroupDone]

theorem keeps_modesetRun (s : State) (r : SlotRef) (o : List Octet) (hs : Kept pq fu s) :
    Kept pq fu (modesetRun s r o) := by
  grind -ring -linarith -ac -order -lia [modesetRun]
grind_pattern keeps_modesetRun => Kept pq fu s, modesetRun s r o

theorem keeps_execModeset (r : SlotRef) (s : State) (hs : Kept pq fu s) {out : State} (hout : (execModeset r s) = .next out) :
    Kept pq fu out := by
  grind -ring -linarith -ac -order -lia [execModeset]

theorem keeps_execLogTamper (x : Sensor) (s : State) (hs : Kept pq fu s) {out : State} (hout : (execLogTamper x s) = .next out) :
    Kept pq fu out := by
  grind -ring -linarith -ac -order -lia [execLogTamper]

theorem keeps_execLockdownTamper (x : Sensor) (s : State) (hs : Kept pq fu s) {out : State} (hout : (execLockdownTamper x s) = .next out) :
    Kept pq fu out := by
  grind -ring -linarith -ac -order -lia [execLockdownTamper]

theorem keeps_execBondTest (broken : Bool) (s : State) (hs : Kept pq fu s) {out : State} (hout : (execBondTest broken s) = .next out) :
    Kept pq fu out := by
  grind -ring -linarith -ac -order -lia [execBondTest]

theorem keeps_wrapKeyZeroise (s : State) (hs : Kept pq fu s) :
    Kept pq fu (wrapKeyZeroise s) := by
  grind -ring -linarith -ac -order -lia [wrapKeyZeroise]
grind_pattern keeps_wrapKeyZeroise => Kept pq fu s, wrapKeyZeroise s

end Sys2Proof.Machine
end

