-- ==== Sys2Proof/Laws/KeepRegs.lean ====
section
/-! SUPPORT. No operation of Machine/Regs.lean touches the queue, the fuses, or the canonical form of memory: one lemma each. -/
namespace Sys2Proof.Machine

variable {pq : List Instr} {fu : Fus}

set_option Elab.async false

theorem keeps_bnkRead (s : State) (n off : Nat) (hs : Kept pq fu s) :
    Kept pq fu (bnkRead s n off).1 := by
  unfold bnkRead; grind -ring -linarith -ac -order -lia
grind_pattern keeps_bnkRead => Kept pq fu s, bnkRead s n off

theorem keeps_bnkWrite (s : State) (m : Master) (n off : Nat) (w : Word) (hs : Kept pq fu s) {out : State} (hout : (bnkWrite s m n off w) = some out) :
    Kept pq fu out := by
  unfold bnkWrite at hout; grind -ring -linarith -ac -order -lia
grind_pattern keeps_bnkWrite => Kept pq fu s, bnkWrite s m n off w, some out

theorem keeps_strRead (s : State) (k off : Nat) (hs : Kept pq fu s) :
    Kept pq fu (strRead s k off).1 := by
  unfold strRead; grind -ring -linarith -ac -order -lia
grind_pattern keeps_strRead => Kept pq fu s, strRead s k off

theorem keeps_strWrite (s : State) (k off : Nat) (w : Word) (hs : Kept pq fu s) {out : State} (hout : (strWrite s k off w) = some out) :
    Kept pq fu out := by
  grind -ring -linarith -ac -order -lia [strWrite]
grind_pattern keeps_strWrite => Kept pq fu s, strWrite s k off w, some out

theorem keeps_spnRead (s : State) (k off : Nat) (hs : Kept pq fu s) :
    Kept pq fu (spnRead s k off).1 := by
  unfold spnRead; grind -ring -linarith -ac -order -lia
grind_pattern keeps_spnRead => Kept pq fu s, spnRead s k off

theorem keeps_spnWrite (s : State) (m : Master) (k off : Nat) (w : Word) (hs : Kept pq fu s) {out : State} (hout : (spnWrite s m k off w) = some out) :
    Kept pq fu out := by
  unfold spnWrite at hout; grind -ring -linarith -ac -order -lia
grind_pattern keeps_spnWrite => Kept pq fu s, spnWrite s m k off w, some out

theorem keeps_lthRead (s : State) (l : Fin 16) (off : Nat) (hs : Kept pq fu s) :
    Kept pq fu (lthRead s l off).1 := by
  unfold lthRead; grind -ring -linarith -ac -order -lia
grind_pattern keeps_lthRead => Kept pq fu s, lthRead s l off

theorem keeps_lthWrite (s : State) (m : Master) (l : Fin 16) (off : Nat) (w : Word) (hs : Kept pq fu s) {out : State} (hout : (lthWrite s m l off w) = some out) :
    Kept pq fu out := by
  grind -ring -linarith -ac -order -lia [lthWrite]
grind_pattern keeps_lthWrite => Kept pq fu s, lthWrite s m l off w, some out

theorem keeps_tsRead (s : State) (off : Nat) (hs : Kept pq fu s) :
    Kept pq fu (tsRead s off).1 := by
  unfold tsRead; grind -ring -linarith -ac -order -lia
grind_pattern keeps_tsRead => Kept pq fu s, tsRead s off

theorem keeps_jnlRead (s : State) (m : Master) (off : Nat) (hs : Kept pq fu s) :
    Kept pq fu (jnlRead s m off).1 := by
  unfold jnlRead; grind -ring -linarith -ac -order -lia
grind_pattern keeps_jnlRead => Kept pq fu s, jnlRead s m off

theorem keeps_jnlWrite (s : State) (m : Master) (off : Nat) (w : Word) (hs : Kept pq fu s) {out : State} (hout : (jnlWrite s m off w) = some out) :
    Kept pq fu out := by
  unfold jnlWrite at hout; grind -ring -linarith -ac -order -lia
grind_pattern keeps_jnlWrite => Kept pq fu s, jnlWrite s m off w, some out

theorem keeps_fabRead (s : State) (off : Nat) (hs : Kept pq fu s) :
    Kept pq fu (fabRead s off).1 := by
  unfold fabRead; grind -ring -linarith -ac -order -lia
grind_pattern keeps_fabRead => Kept pq fu s, fabRead s off

theorem keeps_fabWrite (s : State) (m : Master) (off : Nat) (w : Word) (hs : Kept pq fu s) {out : State} (hout : (fabWrite s m off w) = some out) :
    Kept pq fu out := by
  unfold fabWrite at hout; grind -ring -linarith -ac -order -lia
grind_pattern keeps_fabWrite => Kept pq fu s, fabWrite s m off w, some out

theorem keeps_scrRead (s : State) (off : Nat) (hs : Kept pq fu s) :
    Kept pq fu (scrRead s off).1 := by
  unfold scrRead; grind -ring -linarith -ac -order -lia
grind_pattern keeps_scrRead => Kept pq fu s, scrRead s off

theorem keeps_scrWrite (s : State) (m : Master) (off : Nat) (w : Word) (hs : Kept pq fu s) {out : State} (hout : (scrWrite s m off w) = some out) :
    Kept pq fu out := by
  unfold scrWrite at hout; grind -ring -linarith -ac -order -lia
grind_pattern keeps_scrWrite => Kept pq fu s, scrWrite s m off w, some out

theorem keeps_pciRead (s : State) (off : Nat) (hs : Kept pq fu s) :
    Kept pq fu (pciRead s off).1 := by
  unfold pciRead; grind -ring -linarith -ac -order -lia
grind_pattern keeps_pciRead => Kept pq fu s, pciRead s off

theorem keeps_pciWrite (s : State) (m : Master) (off : Nat) (w : Word) (hs : Kept pq fu s) {out : State} (hout : (pciWrite s m off w) = some out) :
    Kept pq fu out := by
  grind -ring -linarith -ac -order -lia [pciWrite]
grind_pattern keeps_pciWrite => Kept pq fu s, pciWrite s m off w, some out

theorem keeps_dbgRead (s : State) (off : Nat) (hs : Kept pq fu s) :
    Kept pq fu (dbgRead s off).1 := by
  grind -ring -linarith -ac -order -lia [dbgRead]
grind_pattern keeps_dbgRead => Kept pq fu s, dbgRead s off

theorem keeps_dbgWrite (s : State) (m : Master) (off : Nat) (w : Word) (hs : Kept pq fu s) {out : State} (hout : (dbgWrite s m off w) = some out) :
    Kept pq fu out := by
  grind -ring -linarith -ac -order -lia [dbgWrite]
grind_pattern keeps_dbgWrite => Kept pq fu s, dbgWrite s m off w, some out

theorem keeps_rstRead (s : State) (off : Nat) (hs : Kept pq fu s) :
    Kept pq fu (rstRead s off).1 := by
  unfold rstRead; grind -ring -linarith -ac -order -lia
grind_pattern keeps_rstRead => Kept pq fu s, rstRead s off

theorem keeps_rstWrite (s : State) (m : Master) (off : Nat) (w : Word) (hs : Kept pq fu s) {out : State} (hout : (rstWrite s m off w) = some out) :
    Kept pq fu out := by
  grind -ring -linarith -ac -order -lia [rstWrite]
grind_pattern keeps_rstWrite => Kept pq fu s, rstWrite s m off w, some out

theorem keeps_optRead (s : State) (off : Nat) (hs : Kept pq fu s) :
    Kept pq fu (optRead s off).1 := by
  unfold optRead; grind -ring -linarith -ac -order -lia
grind_pattern keeps_optRead => Kept pq fu s, optRead s off

theorem keeps_pwrRead (s : State) (off : Nat) (hs : Kept pq fu s) :
    Kept pq fu (pwrRead s off).1 := by
  unfold pwrRead; grind -ring -linarith -ac -order -lia
grind_pattern keeps_pwrRead => Kept pq fu s, pwrRead s off

theorem keeps_pwrWrite (s : State) (m : Master) (off : Nat) (w : Word) (hs : Kept pq fu s) {out : State} (hout : (pwrWrite s m off w) = some out) :
    Kept pq fu out := by
  unfold pwrWrite at hout; grind -ring -linarith -ac -order -lia
grind_pattern keeps_pwrWrite => Kept pq fu s, pwrWrite s m off w, some out

theorem keeps_fusRead (s : State) (off : Nat) (hs : Kept pq fu s) :
    Kept pq fu (fusRead s off).1 := hs
grind_pattern keeps_fusRead => Kept pq fu s, fusRead s off

theorem keeps_regRead (s : State) (m : Master) (off : Nat) (hs : Kept pq fu s) :
    Kept pq fu (regRead s m off).1 := by
  unfold regRead; grind -ring -linarith -ac -order -lia (splits := 40) (gen := 20)
grind_pattern keeps_regRead => Kept pq fu s, regRead s m off

theorem keeps_regWrite (s : State) (m : Master) (off : Nat) (w : Word) (hs : Kept pq fu s) {out : State} (hout : (regWrite s m off w) = some out) :
    Kept pq fu out := by
  unfold regWrite at hout; grind -ring -linarith -ac -order -lia
grind_pattern keeps_regWrite => Kept pq fu s, regWrite s m off w, some out

theorem keeps_regStore (s : State) (m : Master) (off : Nat) (mask : BitVec 4) (w : Word) (hs : Kept pq fu s) {out : State} (hout : (regStore s m off mask w) = some out) :
    Kept pq fu out := by
  grind -ring -linarith -ac -order -lia [regStore]
grind_pattern keeps_regStore => Kept pq fu s, regStore s m off mask w, some out

theorem keeps_registerWrite (s : State) (m : Master) (addr : BitVec 34) (mask : BitVec 4) (w : Word) (hs : Kept pq fu s) :
    Kept pq fu (registerWrite s m addr mask w) := by
  grind -ring -linarith -ac -order -lia [registerWrite]
grind_pattern keeps_registerWrite => Kept pq fu s, registerWrite s m addr mask w

theorem keeps_execRegisterWrite (m : Master) (addr : BitVec 34) (mask : BitVec 4) (w : Word) (s : State) (hs : Kept pq fu s) {out : State} (hout : (execRegisterWrite m addr mask w s) = .next out) :
    Kept pq fu out := by
  grind -ring -linarith -ac -order -lia [execRegisterWrite]

theorem keeps_jnlLowRead (s : State) (m : Master) (drained : Bool) (hs : Kept pq fu s) :
    Kept pq fu (jnlLowRead s m drained) := by
  grind -ring -linarith -ac -order -lia [jnlLowRead]
grind_pattern keeps_jnlLowRead => Kept pq fu s, jnlLowRead s m drained

theorem keeps_execJnlHeadlRead (m : Master) (drained : Bool) (s : State) (hs : Kept pq fu s) {out : State} (hout : (execJnlHeadlRead m drained s) = .next out) :
    Kept pq fu out := by
  grind -ring -linarith -ac -order -lia [execJnlHeadlRead]

end Sys2Proof.Machine
end

