-- ==== Sys2Proof/Laws/KeepCoreMem.lean ====
section
/-! SUPPORT. No operation of Machine/CoreMem.lean touches the queue, the fuses, or the canonical form of memory: one lemma each. -/
namespace Sys2Proof.Machine

variable {pq : List Instr} {fu : Fus}

set_option Elab.async false

theorem keeps_opLoad (k : IFld → LoadKind) (ea : Thread → IFld → Word) (th : Th) (f : IFld) (s : State) (hs : Kept pq fu s) :
    Kept pq fu (opLoad k ea th f s).1 := by
  grind -ring -linarith -ac -order -lia [opLoad]
grind_pattern keeps_opLoad => Kept pq fu s, opLoad k ea th f s

theorem keeps_opLw (y0 : Th) (y1 : IFld) (s : State) (hs : Kept pq fu s) :
    Kept pq fu (opLw y0 y1 s).1 := by
  unfold opLw; grind -ring -linarith -ac -order -lia
grind_pattern keeps_opLw => Kept pq fu s, opLw y0 y1 s

theorem keeps_opLn (y0 : Th) (y1 : IFld) (s : State) (hs : Kept pq fu s) :
    Kept pq fu (opLn y0 y1 s).1 := by
  unfold opLn; grind -ring -linarith -ac -order -lia
grind_pattern keeps_opLn => Kept pq fu s, opLn y0 y1 s

theorem keeps_opLfs (y0 : Th) (y1 : IFld) (s : State) (hs : Kept pq fu s) :
    Kept pq fu (opLfs y0 y1 s).1 := by
  unfold opLfs; grind -ring -linarith -ac -order -lia
grind_pattern keeps_opLfs => Kept pq fu s, opLfs y0 y1 s

theorem keeps_opLf (y0 : Th) (y1 : IFld) (s : State) (hs : Kept pq fu s) :
    Kept pq fu (opLf y0 y1 s).1 := by
  unfold opLf; grind -ring -linarith -ac -order -lia
grind_pattern keeps_opLf => Kept pq fu s, opLf y0 y1 s

theorem keeps_opLdd (th : Th) (f : IFld) (s : State) (hs : Kept pq fu s) :
    Kept pq fu (opLdd th f s).1 := by
  grind -ring -linarith -ac -order -lia [opLdd]
grind_pattern keeps_opLdd => Kept pq fu s, opLdd th f s

theorem keeps_regWords (s : State) (m : Master) (off : Nat) (y0 : Nat) (hs : Kept pq fu s) :
    Kept pq fu (regWords s m off y0).1 := by
  fun_induction regWords s m off y0 <;> grind -ring -linarith -ac -order -lia
grind_pattern keeps_regWords => Kept pq fu s, regWords s m off y0

theorem keeps_loadResult (s : State) (th : Th) (p : PendLoad) (resp : LoadResp) (hs : Kept pq fu s) {out : (State × Option (List (Word × Bool)))} (hout : (loadResult s th p resp) = some out) :
    Kept pq fu out.1 := by
  grind -ring -linarith -ac -order -lia [loadResult]
grind_pattern keeps_loadResult => Kept pq fu s, loadResult s th p resp, some out

theorem keeps_landResult (s : State) (th : Th) (p : PendLoad) (ws : Option (List (Word × Bool))) (hs : Kept pq fu s) :
    Kept pq fu (landResult s th p ws).1 := by
  unfold landResult; grind -ring -linarith -ac -order -lia
grind_pattern keeps_landResult => Kept pq fu s, landResult s th p ws

theorem keeps_endLoad (s : State) (th : Th) (p : PendLoad) (ws : Option (List (Word × Bool))) (hs : Kept pq fu s) :
    Kept pq fu (endLoad s th p ws) := by
  grind -ring -linarith -ac -order -lia [endLoad]
grind_pattern keeps_endLoad => Kept pq fu s, endLoad s th p ws

theorem keeps_endDebugLoad (s : State) (th : Th) (p : PendLoad) (ws : Option (List (Word × Bool))) (hs : Kept pq fu s) :
    Kept pq fu (endDebugLoad s th p ws) := by
  grind -ring -linarith -ac -order -lia [endDebugLoad]
grind_pattern keeps_endDebugLoad => Kept pq fu s, endDebugLoad s th p ws

theorem keeps_fetchOut (s : State) (th : Th) (va : Word) (pa : Nat) (hs : Kept pq fu s) :
    Kept pq fu (fetchOut s th va pa).1 := by
  grind -ring -linarith -ac -order -lia [fetchOut]
grind_pattern keeps_fetchOut => Kept pq fu s, fetchOut s th va pa

theorem keeps_fetchAt (s : State) (th : Th) (va : Word) (hs : Kept pq fu s) :
    Kept pq fu (fetchAt s th va).1 := by
  grind -ring -linarith -ac -order -lia [fetchAt]
grind_pattern keeps_fetchAt => Kept pq fu s, fetchAt s th va

theorem keeps_pushFetched (s : State) (th : Th) (va w : Word) (hs : Kept pq fu s) :
    Kept pq fu (pushFetched s th va w) := by
  grind -ring -linarith -ac -order -lia [pushFetched]
grind_pattern keeps_pushFetched => Kept pq fu s, pushFetched s th va w

theorem keeps_fetchStep (s : State) (th : Th) (hs : Kept pq fu s) :
    Kept pq fu (fetchStep s th) := by
  grind -ring -linarith -ac -order -lia [fetchStep]
grind_pattern keeps_fetchStep => Kept pq fu s, fetchStep s th

theorem keeps_endFetch (s : State) (th : Th) (p : PendLoad) (resp : LoadResp) (hs : Kept pq fu s) :
    Kept pq fu (endFetch s th p resp) := by
  grind -ring -linarith -ac -order -lia [endFetch]
grind_pattern keeps_endFetch => Kept pq fu s, endFetch s th p resp

theorem keeps_dropCpl (s : State) (pa : Nat) (resp : LoadResp) (hs : Kept pq fu s) {out : State} (hout : (dropCpl s pa resp) = some out) :
    Kept pq fu out := by
  unfold dropCpl at hout
  split at hout
  · obtain ⟨x, -, rfl⟩ := Option.map_eq_some_iff.1 hout
    exact keeps_ecrcFails _ _ hs
  · cases hout
grind_pattern keeps_dropCpl => Kept pq fu s, dropCpl s pa resp, some out

theorem keeps_loadComplete (s : State) (th : Th) (resp : LoadResp) (hs : Kept pq fu s) :
    Kept pq fu (loadComplete s th resp) := by
  have hd : ∀ pa s', Kept pq fu s' → Kept pq fu ((dropCpl s pa resp).getD s') := by
    intro pa s' h
    cases e : dropCpl s pa resp with
    | none => exact h
    | some out => exact keeps_dropCpl s pa resp hs e
  unfold loadComplete
  dsimp only
  split
  · exact hs
  · split
    · split
      · split
        · exact hd _ _ (keeps_endFetch _ _ _ _ hs)
        · exact hs
      · exact hs
    · grind -ring -linarith -ac -order -lia
grind_pattern keeps_loadComplete => Kept pq fu s, loadComplete s th resp

theorem keeps_execLoadComplete (th : Th) (resp : LoadResp) (s : State) (hs : Kept pq fu s) {out : State} (hout : (execLoadComplete th resp s) = .next out) :
    Kept pq fu out := by
  grind -ring -linarith -ac -order -lia [execLoadComplete]

theorem keeps_regStores (s : State) (m : Master) (off : Nat) (y0 : List (Word × BitVec 4)) (hs : Kept pq fu s) {out : State} (hout : (regStores s m off y0) = some out) :
    Kept pq fu out := by
  induction y0 generalizing s off with
  | nil => unfold regStores at hout; cases hout; exact hs
  | cons x r ih =>
    unfold regStores at hout
    obtain ⟨s1, h1, h2⟩ := Option.bind_eq_some_iff.1 hout
    exact ih _ _ (keeps_regStore _ _ _ _ _ hs h1) h2
grind_pattern keeps_regStores => Kept pq fu s, regStores s m off y0, some out

theorem keeps_storeAt (s : State) (th : Th) (va : Word) (ws : List (Word × BitVec 4)) (hs : Kept pq fu s) :
    Kept pq fu (storeAt s th va ws).1 := by
  unfold storeAt; grind -ring -linarith -ac -order -lia
grind_pattern keeps_storeAt => Kept pq fu s, storeAt s th va ws

theorem keeps_opStore (words : Thread → IFld → List (Word × BitVec 4)) (ea : Thread → IFld → Word) (th : Th) (f : IFld) (s : State) (hs : Kept pq fu s) :
    Kept pq fu (opStore words ea th f s).1 := by
  grind -ring -linarith -ac -order -lia [opStore]
grind_pattern keeps_opStore => Kept pq fu s, opStore words ea th f s

theorem keeps_opSw (y0 : Th) (y1 : IFld) (s : State) (hs : Kept pq fu s) :
    Kept pq fu (opSw y0 y1 s).1 := by
  unfold opSw; grind -ring -linarith -ac -order -lia
grind_pattern keeps_opSw => Kept pq fu s, opSw y0 y1 s

theorem keeps_opSn (y0 : Th) (y1 : IFld) (s : State) (hs : Kept pq fu s) :
    Kept pq fu (opSn y0 y1 s).1 := by
  unfold opSn; grind -ring -linarith -ac -order -lia
grind_pattern keeps_opSn => Kept pq fu s, opSn y0 y1 s

theorem keeps_opSfs (y0 : Th) (y1 : IFld) (s : State) (hs : Kept pq fu s) :
    Kept pq fu (opSfs y0 y1 s).1 := by
  unfold opSfs; grind -ring -linarith -ac -order -lia
grind_pattern keeps_opSfs => Kept pq fu s, opSfs y0 y1 s

theorem keeps_opSf (y0 : Th) (y1 : IFld) (s : State) (hs : Kept pq fu s) :
    Kept pq fu (opSf y0 y1 s).1 := by
  unfold opSf; grind -ring -linarith -ac -order -lia
grind_pattern keeps_opSf => Kept pq fu s, opSf y0 y1 s

theorem keeps_opSwm (y0 : Th) (y1 : IFld) (s : State) (hs : Kept pq fu s) :
    Kept pq fu (opSwm y0 y1 s).1 := by
  unfold opSwm; grind -ring -linarith -ac -order -lia
grind_pattern keeps_opSwm => Kept pq fu s, opSwm y0 y1 s

theorem keeps_opStdd (th : Th) (f : IFld) (s : State) (hs : Kept pq fu s) :
    Kept pq fu (opStdd th f s).1 := by
  grind -ring -linarith -ac -order -lia [opStdd]
grind_pattern keeps_opStdd => Kept pq fu s, opStdd th f s

theorem keeps_opMtd (th : Th) (f : IFld) (s : State) (hs : Kept pq fu s) :
    Kept pq fu (opMtd th f s).1 := by
  grind -ring -linarith -ac -order -lia [opMtd]
grind_pattern keeps_opMtd => Kept pq fu s, opMtd th f s

theorem keeps_opMfd (th : Th) (f : IFld) (s : State) (hs : Kept pq fu s) :
    Kept pq fu (opMfd th f s).1 := by
  grind -ring -linarith -ac -order -lia [opMfd]
grind_pattern keeps_opMfd => Kept pq fu s, opMfd th f s

theorem keeps_opSyscall (th : Th) (f : IFld) (s : State) (hs : Kept pq fu s) :
    Kept pq fu (opSyscall th f s).1 := by
  grind -ring -linarith -ac -order -lia [opSyscall]
grind_pattern keeps_opSyscall => Kept pq fu s, opSyscall th f s

theorem keeps_unhold (s : State) (th : Th) (hs : Kept pq fu s) :
    Kept pq fu (unhold s th) := hs
grind_pattern keeps_unhold => Kept pq fu s, unhold s th

theorem keeps_fenceComplete (s : State) (th : Th) (hs : Kept pq fu s) :
    Kept pq fu (fenceComplete s th) := by
  unfold fenceComplete; grind -ring -linarith -ac -order -lia
grind_pattern keeps_fenceComplete => Kept pq fu s, fenceComplete s th

theorem keeps_execFenceComplete (th : Th) (s : State) (hs : Kept pq fu s) {out : State} (hout : (execFenceComplete th s) = .next out) :
    Kept pq fu out := by
  grind -ring -linarith -ac -order -lia [execFenceComplete]

end Sys2Proof.Machine
end

