-- ==== Sys2Proof/Laws/KeepFabric.lean ====
section
/-! SUPPORT. No operation of Machine/Fabric.lean touches the queue, the fuses, or the canonical form of memory: one lemma each. -/
namespace Sys2Proof.Machine

variable {pq : List Instr} {fu : Fus}

set_option Elab.async false

theorem keeps_walkFails (s : State) (th : Th) (lv : Option Nat) (hs : Kept pq fu s) :
    Kept pq fu (walkFails s th lv) := by
  unfold walkFails; grind -ring -linarith -ac -order -lia
grind_pattern keeps_walkFails => Kept pq fu s, walkFails s th lv

theorem keeps_endAccess (s : State) (th : Th) (p : PendLoad) (hs : Kept pq fu s) :
    Kept pq fu (endAccess s th p) := by
  grind -ring -linarith -ac -order -lia [endAccess]
grind_pattern keeps_endAccess => Kept pq fu s, endAccess s th p

theorem keeps_coreBusError (s : State) (th : Th) (hit : Nat → Bool) (hs : Kept pq fu s) :
    Kept pq fu (coreBusError s th hit) := by
  grind -ring -linarith -ac -order -lia [coreBusError]
grind_pattern keeps_coreBusError => Kept pq fu s, coreBusError s th hit

theorem keeps_streamBusError (s : State) (k : Nat) (write : Option Bool) (hit : Nat → Bool) (hs : Kept pq fu s) :
    Kept pq fu (streamBusError s k write hit) := by
  grind -ring -linarith -ac -order -lia [streamBusError]
grind_pattern keeps_streamBusError => Kept pq fu s, streamBusError s k write hit

theorem keeps_dmaBusError (s : State) (c : Nat) (hit : Nat → Bool) (hs : Kept pq fu s) :
    Kept pq fu (dmaBusError s c hit) := by
  grind -ring -linarith -ac -order -lia [dmaBusError]
grind_pattern keeps_dmaBusError => Kept pq fu s, dmaBusError s c hit

theorem keeps_ownBusError (s : State) (write : Option Bool) (hit : Nat → Bool) (hs : Kept pq fu s) :
    Kept pq fu (ownBusError s write hit) := by
  grind -ring -linarith -ac -order -lia [ownBusError]
grind_pattern keeps_ownBusError => Kept pq fu s, ownBusError s write hit

theorem keeps_masterBusError (s : State) (m : Master) (addr : Nat) (write : Option Bool) (hit : Nat → Bool) (hs : Kept pq fu s) :
    Kept pq fu (masterBusError s m addr write hit) := by
  unfold masterBusError; grind -ring -linarith -ac -order -lia
grind_pattern keeps_masterBusError => Kept pq fu s, masterBusError s m addr write hit

theorem keeps_memQuad (s : State) (m : Master) (q : Req) (pa : Nat) (d : Option (Quad × BitVec 16)) (hs : Kept pq fu s) :
    Kept pq fu (memQuad s m q pa d).1 := by
  unfold memQuad; grind -ring -linarith -ac -order -lia
grind_pattern keeps_memQuad => Kept pq fu s, memQuad s m q pa d

theorem keeps_cplWord (s : State) (fn : Fin 16) (c : HostCpl) (hs : Kept pq fu s) :
    Kept pq fu (cplWord s fn c).1 := by
  unfold cplWord; grind -ring -linarith -ac -order -lia
grind_pattern keeps_cplWord => Kept pq fu s, cplWord s fn c

theorem keeps_hostQuadRead (s : State) (m : Master) (off : BitVec 33) (cs : List HostCpl) (hs : Kept pq fu s) :
    Kept pq fu (hostQuadRead s m off cs).1 := by
  grind -ring -linarith -ac -order -lia [hostQuadRead]
grind_pattern keeps_hostQuadRead => Kept pq fu s, hostQuadRead s m off cs

theorem keeps_hostQuadWrite (s : State) (off : BitVec 33) (d : Quad × BitVec 16) (hs : Kept pq fu s) :
    Kept pq fu (hostQuadWrite s off d).1 := by
  grind -ring -linarith -ac -order -lia [hostQuadWrite]
grind_pattern keeps_hostQuadWrite => Kept pq fu s, hostQuadWrite s off d

theorem keeps_outQuad (s : State) (b : Burst) (pa : Nat) (d : Option (Quad × BitVec 16)) (hs : Kept pq fu s) :
    Kept pq fu (outQuad s b pa d).1 := by
  grind -ring -linarith -ac -order -lia [outQuad]
grind_pattern keeps_outQuad => Kept pq fu s, outQuad s b pa d

theorem keeps_regBurst (s : State) (b : Burst) (off : Nat) (hs : Kept pq fu s) :
    Kept pq fu (regBurst s b off).1 := by
  grind -ring -linarith -ac -order -lia [regBurst]
grind_pattern keeps_regBurst => Kept pq fu s, regBurst s b off

theorem keeps_mramWords (s : State) (a : Nat) (hs : Kept pq fu s) :
    Kept pq fu (mramWords s a).1 := by
  grind -ring -linarith -ac -order -lia [mramWords]
grind_pattern keeps_mramWords => Kept pq fu s, mramWords s a

theorem keeps_mramQuad (s : State) (b : Burst) (hs : Kept pq fu s) :
    Kept pq fu (mramQuad s b).1 := by
  grind -ring -linarith -ac -order -lia [mramQuad]
grind_pattern keeps_mramQuad => Kept pq fu s, mramQuad s b

theorem keeps_firstQuad (s : State) (tgt : Target) (b : Burst) (hs : Kept pq fu s) :
    Kept pq fu (firstQuad s tgt b).1 := by
  unfold firstQuad; grind -ring -linarith -ac -order -lia
grind_pattern keeps_firstQuad => Kept pq fu s, firstQuad s tgt b

theorem keeps_setArbiter (s : State) (tgt : Target) (a : Arbiter) (hs : Kept pq fu s) :
    Kept pq fu (setArbiter s tgt a) := by
  grind -ring -linarith -ac -order -lia [setArbiter]
grind_pattern keeps_setArbiter => Kept pq fu s, setArbiter s tgt a

theorem keeps_setHeld (s : State) (tgt : Target) (t : Option Transfer) (hs : Kept pq fu s) :
    Kept pq fu (setHeld s tgt t) := by
  grind -ring -linarith -ac -order -lia [setHeld]
grind_pattern keeps_setHeld => Kept pq fu s, setHeld s tgt t

theorem keeps_transferDone (s : State) (tgt : Target) (t : Transfer) (hs : Kept pq fu s) :
    Kept pq fu (transferDone s tgt t) := by
  grind -ring -linarith -ac -order -lia [transferDone]
grind_pattern keeps_transferDone => Kept pq fu s, transferDone s tgt t

theorem keeps_transferFails (s : State) (tgt : Target) (t : Transfer) (hs : Kept pq fu s) :
    Kept pq fu (transferFails s tgt t) := by
  grind -ring -linarith -ac -order -lia [transferFails]
grind_pattern keeps_transferFails => Kept pq fu s, transferFails s tgt t

theorem keeps_moveQuads (tgt : Target) (y0 : Nat) (y1 : State) (y2 : Transfer) (hs : Kept pq fu y1) :
    Kept pq fu (moveQuads tgt y0 y1 y2) := by
  fun_induction moveQuads tgt y0 y1 y2 <;> grind -ring -linarith -ac -order -lia
grind_pattern keeps_moveQuads => Kept pq fu y1, moveQuads tgt y0 y1 y2

theorem keeps_goOn (s : State) (tgt : Target) (t : Transfer) (fresh : Bool) (hs : Kept pq fu s) :
    Kept pq fu (goOn s tgt t fresh) := by
  unfold goOn; grind -ring -linarith -ac -order -lia
grind_pattern keeps_goOn => Kept pq fu s, goOn s tgt t fresh

theorem keeps_burstRefused (s : State) (b : Burst) (hs : Kept pq fu s) :
    Kept pq fu (burstRefused s b) := by
  grind -ring -linarith -ac -order -lia [burstRefused]
grind_pattern keeps_burstRefused => Kept pq fu s, burstRefused s b

theorem keeps_queueRest (s : State) (tgt : Target) (b : Burst) (hs : Kept pq fu s) :
    Kept pq fu (queueRest s tgt b) := by
  unfold queueRest; grind -ring -linarith -ac -order -lia
grind_pattern keeps_queueRest => Kept pq fu s, queueRest s tgt b

theorem keeps_grantOne (s : State) (tgt : Target) (bs : List Burst) (hs : Kept pq fu s) :
    Kept pq fu (grantOne s tgt bs) := by
  grind -ring -linarith -ac -order -lia [grantOne]
grind_pattern keeps_grantOne => Kept pq fu s, grantOne s tgt bs

theorem keeps_fabricGrant (s : State) (tgt : Target) (waiting : List Burst) (hs : Kept pq fu s) :
    Kept pq fu (fabricGrant s tgt waiting) := by
  grind -ring -linarith -ac -order -lia [fabricGrant]
grind_pattern keeps_fabricGrant => Kept pq fu s, fabricGrant s tgt waiting

theorem keeps_execFabricGrant (tgt : Target) (waiting : List Burst) (s : State) (hs : Kept pq fu s) {out : State} (hout : (execFabricGrant tgt waiting s) = .next out) :
    Kept pq fu out := by
  grind -ring -linarith -ac -order -lia [execFabricGrant]

theorem keeps_requestTimesOut (s : State) (m : Master) (addr : Nat) (write : Bool) (hs : Kept pq fu s) :
    Kept pq fu (requestTimesOut s m addr write) := by
  grind -ring -linarith -ac -order -lia [requestTimesOut]
grind_pattern keeps_requestTimesOut => Kept pq fu s, requestTimesOut s m addr write

theorem keeps_execLateAck (s : State) (hs : Kept pq fu s) {out : State} (hout : (execLateAck s) = .next out) :
    Kept pq fu out := by
  grind -ring -linarith -ac -order -lia [execLateAck]

theorem keeps_endAnyDrain (s : State) (n : Nat) (hs : Kept pq fu s) :
    Kept pq fu (endAnyDrain s n) := by
  grind -ring -linarith -ac -order -lia [endAnyDrain]
grind_pattern keeps_endAnyDrain => Kept pq fu s, endAnyDrain s n

theorem keeps_heldFails (s : State) (n : Nat) (hs : Kept pq fu s) :
    Kept pq fu (heldFails s n) := by
  grind -ring -linarith -ac -order -lia [heldFails]
grind_pattern keeps_heldFails => Kept pq fu s, heldFails s n

theorem keeps_waitingFail (s : State) (n : Nat) (hs : Kept pq fu s) :
    Kept pq fu (waitingFail s n) := by
  grind -ring -linarith -ac -order -lia [waitingFail]
grind_pattern keeps_waitingFail => Kept pq fu s, waitingFail s n

theorem keeps_bankExpires (s : State) (n : Nat) (outstanding : List Master) (hs : Kept pq fu s) :
    Kept pq fu (bankExpires s n outstanding) := by
  grind -ring -linarith -ac -order -lia [bankExpires]
grind_pattern keeps_bankExpires => Kept pq fu s, bankExpires s n outstanding

theorem keeps_drainTimesOut (s : State) (n : Nat) (outstanding : List Master) (hs : Kept pq fu s) :
    Kept pq fu (drainTimesOut s n outstanding) := by
  grind -ring -linarith -ac -order -lia [drainTimesOut]
grind_pattern keeps_drainTimesOut => Kept pq fu s, drainTimesOut s n outstanding

theorem keeps_execGroupStart (k : Fin 128) (s : State) (hs : Kept pq fu s) {out : State} (hout : (execGroupStart k s) = .next out) :
    Kept pq fu out := by
  grind -ring -linarith -ac -order -lia [execGroupStart]

theorem keeps_execGroupEnd (k : Fin 128) (s : State) (hs : Kept pq fu s) {out : State} (hout : (execGroupEnd k s) = .next out) :
    Kept pq fu out := by
  grind -ring -linarith -ac -order -lia [execGroupEnd]

end Sys2Proof.Machine
end

