-- ==== Sys2Proof/Laws/KeepPcie.lean ====
section
/-! SUPPORT. No operation of Machine/Pcie.lean touches the queue, the fuses, or the canonical form of memory: one lemma each. -/
namespace Sys2Proof.Machine

variable {pq : List Instr} {fu : Fus}

set_option Elab.async false

theorem keeps_toFunction (s : State) (fn : Fin 16) (read : Bool) (f : State → State) (src : WakeSrc) (hs : Kept pq fu s) (hf : ∀ x0, Kept pq fu x0 → Kept pq fu (f x0)) :
    Kept pq fu (toFunction s fn read f src) := by
  grind -ring -linarith -ac -order -lia [toFunction]
grind_pattern keeps_toFunction => Kept pq fu s, toFunction s fn read f src

theorem keeps_countDisc (s : State) (hs : Kept pq fu s) :
    Kept pq fu (countDisc s) := hs
grind_pattern keeps_countDisc => Kept pq fu s, countDisc s

theorem keeps_flushVector (s : State) (i : Fin 16) (v : Nat) (hs : Kept pq fu s) :
    Kept pq fu (flushVector s i v) := by
  grind -ring -linarith -ac -order -lia [flushVector]
grind_pattern keeps_flushVector => Kept pq fu s, flushVector s i v

theorem keeps_msixUnmask (s : State) (i : Fin 16) (v : Nat) (hs : Kept pq fu s) :
    Kept pq fu (msixUnmask s i v) := by
  grind -ring -linarith -ac -order -lia [msixUnmask]
grind_pattern keeps_msixUnmask => Kept pq fu s, msixUnmask s i v

theorem keeps_writeSlots (s : State) (i : Fin 16) (a : Nat) (o : List Octet) (hs : Kept pq fu s) :
    Kept pq fu (writeSlots s i a o) := hs
grind_pattern keeps_writeSlots => Kept pq fu s, writeSlots s i a o

theorem keeps_writeWindowRegs (s : State) (i : Fin 16) (a : Nat) (o : List Octet) (hs : Kept pq fu s) :
    Kept pq fu (writeWindowRegs s i a o) := by
  grind -ring -linarith -ac -order -lia [writeWindowRegs]
grind_pattern keeps_writeWindowRegs => Kept pq fu s, writeWindowRegs s i a o

theorem keeps_writeMsix (s : State) (i : Fin 16) (a : Nat) (o : List Octet) (hs : Kept pq fu s) :
    Kept pq fu (writeMsix s i a o) := by
  grind -ring -linarith -ac -order -lia [writeMsix]
grind_pattern keeps_writeMsix => Kept pq fu s, writeMsix s i a o

theorem keeps_hostRegRead (s : State) (pa : Nat) (hs : Kept pq fu s) :
    Kept pq fu (hostRegRead s pa) := by
  unfold hostRegRead
  split
  · exact keeps_transmit _ _ (keeps_regRead _ _ _ hs)
  · exact keeps_transmit _ _ (keeps_noPath _ _ _ _ hs)
grind_pattern keeps_hostRegRead => Kept pq fu s, hostRegRead s pa

theorem keeps_hostRegWrite (s : State) (pa : Nat) (w : Word) (hs : Kept pq fu s) :
    Kept pq fu (hostRegWrite s pa w) := by
  grind -ring -linarith -ac -order -lia [hostRegWrite]
grind_pattern keeps_hostRegWrite => Kept pq fu s, hostRegWrite s pa w

theorem keeps_apertureRead (s : State) (off size : Nat) (hs : Kept pq fu s) :
    Kept pq fu (apertureRead s off size) := by
  grind -ring -linarith -ac -order -lia [apertureRead]
grind_pattern keeps_apertureRead => Kept pq fu s, apertureRead s off size

theorem keeps_apertureWrite (s : State) (off : Nat) (o : List Octet) (hs : Kept pq fu s) :
    Kept pq fu (apertureWrite s off o) := by
  simp only [apertureWrite]; repeat' split
  all_goals grind -ring -linarith -ac -order -lia
grind_pattern keeps_apertureWrite => Kept pq fu s, apertureWrite s off o

theorem keeps_hostBar0Read (s : State) (fn : Fin 16) (off size : Nat) (hs : Kept pq fu s) :
    Kept pq fu (hostBar0Read s fn off size) := by
  grind -ring -linarith -ac -order -lia [hostBar0Read]
grind_pattern keeps_hostBar0Read => Kept pq fu s, hostBar0Read s fn off size

theorem keeps_hostBar0Write (s : State) (fn : Fin 16) (off : Nat) (o : List Octet) (ep : Bool) (hs : Kept pq fu s) :
    Kept pq fu (hostBar0Write s fn off o ep) := by
  grind -ring -linarith -ac -order -lia [hostBar0Write]
grind_pattern keeps_hostBar0Write => Kept pq fu s, hostBar0Write s fn off o ep

theorem keeps_hostBar2Read (s : State) (off size : Nat) (hs : Kept pq fu s) {out : State} (hout : (hostBar2Read s off size) = some out) :
    Kept pq fu out := by
  grind -ring -linarith -ac -order -lia [hostBar2Read]
grind_pattern keeps_hostBar2Read => Kept pq fu s, hostBar2Read s off size, some out

theorem keeps_hostBar2Write (s : State) (off : Nat) (o : List Octet) (ep : Bool) (hs : Kept pq fu s) {out : State} (hout : (hostBar2Write s off o ep) = some out) :
    Kept pq fu out := by
  grind -ring -linarith -ac -order -lia [hostBar2Write]
grind_pattern keeps_hostBar2Write => Kept pq fu s, hostBar2Write s off o ep, some out

theorem keeps_clearVfs (s : State) (hs : Kept pq fu s) :
    Kept pq fu (clearVfs s) := by
  grind -ring -linarith -ac -order -lia [clearVfs]
grind_pattern keeps_clearVfs => Kept pq fu s, clearVfs s

theorem keeps_configWrite (s : State) (fn : Fin 16) (reg : BitVec 12) (v : BitVec 32) (hs : Kept pq fu s) :
    Kept pq fu (configWrite s fn reg v) := by
  unfold configWrite; grind -ring -linarith -ac -order -lia
grind_pattern keeps_configWrite => Kept pq fu s, configWrite s fn reg v

theorem keeps_configRequest (s : State) (fn : Fin 16) (write : Bool) (reg : BitVec 12) (v : BitVec 32) (hs : Kept pq fu s) :
    Kept pq fu (configRequest s fn write reg v) := by
  grind -ring -linarith -ac -order -lia [configRequest]
grind_pattern keeps_configRequest => Kept pq fu s, configRequest s fn write reg v

theorem keeps_performHost (q : HostReq) (s : State) (hs : Kept pq fu s) {out : State} (hout : performHost q s = some out) : Kept pq fu out := by
  cases q <;> simp only [performHost] at hout <;> grind -ring -linarith -ac -order -lia
grind_pattern keeps_performHost => Kept pq fu s, performHost q s, some out

theorem keeps_setStalled (s : State) (qs : List HostReq) (hs : Kept pq fu s) :
    Kept pq fu (setStalled s qs) := by
  grind -ring -linarith -ac -order -lia [setStalled]
grind_pattern keeps_setStalled => Kept pq fu s, setStalled s qs

theorem keeps_performInOrder (y0 : List HostReq) (s : State) (hs : Kept pq fu s) : Kept pq fu (performInOrder y0 s) := by
  induction y0 generalizing s with
  | nil => exact keeps_setStalled _ _ hs
  | cons q r ih =>
    unfold performInOrder
    split
    · next h => exact ih _ (keeps_performHost _ _ hs h)
    · exact keeps_setStalled _ _ hs
grind_pattern keeps_performInOrder => Kept pq fu s, performInOrder y0 s

theorem keeps_resumeHost (s : State) (hs : Kept pq fu s) :
    Kept pq fu (resumeHost s) := by
  grind -ring -linarith -ac -order -lia [resumeHost]
grind_pattern keeps_resumeHost => Kept pq fu s, resumeHost s

theorem keeps_resumeWaiting (s : State) (hs : Kept pq fu s) :
    Kept pq fu (resumeWaiting s) := by
  grind -ring -linarith -ac -order -lia [resumeWaiting]
grind_pattern keeps_resumeWaiting => Kept pq fu s, resumeWaiting s

theorem keeps_inOrder (s : State) (fn : Fin 16) (q : HostReq) (f : State → State) (hs : Kept pq fu s) (hf : ∀ x0, Kept pq fu x0 → Kept pq fu (f x0)) :
    Kept pq fu (inOrder s fn q f) := by
  grind -ring -linarith -ac -order -lia [inOrder]
grind_pattern keeps_inOrder => Kept pq fu s, inOrder s fn q f

theorem keeps_checked (s : State) (fn : Fin 16) (bad : Bool) (f : State → State) (hs : Kept pq fu s) (hf : ∀ x0, Kept pq fu x0 → Kept pq fu (f x0)) :
    Kept pq fu (checked s fn bad f) := by
  grind -ring -linarith -ac -order -lia [checked]
grind_pattern keeps_checked => Kept pq fu s, checked s fn bad f

theorem keeps_execMsixUnmask (fn : Fin 16) (vec : Fin 64) (s : State) (hs : Kept pq fu s) {out : State} (hout : (execMsixUnmask fn vec s) = .next out) :
    Kept pq fu out := by
  grind -ring -linarith -ac -order -lia [execMsixUnmask]

theorem keeps_execHostBar0Read (fn : Fin 16) (off : BitVec 20) (ask : HostRead) (s : State) (hs : Kept pq fu s) {out : State} (hout : (execHostBar0Read fn off ask s) = .next out) :
    Kept pq fu out := by
  grind -ring -linarith -ac -order -lia [execHostBar0Read]

theorem keeps_execHostBar0Write (fn : Fin 16) (off : BitVec 20) (o : List Octet) (mark : TlpMark) (s : State) (hs : Kept pq fu s) {out : State} (hout : (execHostBar0Write fn off o mark s) = .next out) :
    Kept pq fu out := by
  grind -ring -linarith -ac -order -lia [execHostBar0Write]

theorem keeps_execHostBar2Read (off : BitVec 28) (ask : HostRead) (s : State) (hs : Kept pq fu s) {out : State} (hout : (execHostBar2Read off ask s) = .next out) :
    Kept pq fu out := by
  grind -ring -linarith -ac -order -lia [execHostBar2Read]

theorem keeps_execHostBar2Write (off : BitVec 28) (o : List Octet) (mark : TlpMark) (s : State) (hs : Kept pq fu s) {out : State} (hout : (execHostBar2Write off o mark s) = .next out) :
    Kept pq fu out := by
  grind -ring -linarith -ac -order -lia [execHostBar2Write]

theorem keeps_doorbell (s : State) (i : Fin 16) (m : Fin 4) (bits : BitVec 64) (hs : Kept pq fu s) :
    Kept pq fu (doorbell s i m bits) := by
  grind -ring -linarith -ac -order -lia [doorbell]
grind_pattern keeps_doorbell => Kept pq fu s, doorbell s i m bits

theorem keeps_execDoorbell (i : Fin 16) (m : Fin 4) (bits : BitVec 64) (s : State) (hs : Kept pq fu s) {out : State} (hout : (execDoorbell i m bits s) = .next out) :
    Kept pq fu out := by
  grind -ring -linarith -ac -order -lia [execDoorbell]

theorem keeps_execRingcfg (i : Fin 16) (v : BitVec 32) (s : State) (hs : Kept pq fu s) {out : State} (hout : (execRingcfg i v s) = .next out) :
    Kept pq fu out := by
  grind -ring -linarith -ac -order -lia [execRingcfg]

theorem keeps_execRinghead (i : Fin 16) (v : BitVec 32) (s : State) (hs : Kept pq fu s) {out : State} (hout : (execRinghead i v s) = .next out) :
    Kept pq fu out := by
  grind -ring -linarith -ac -order -lia [execRinghead]

theorem keeps_configurationRequest (s : State) (fn : Fin 16) (write : Bool) (reg : BitVec 12) (v : BitVec 32) (hs : Kept pq fu s) :
    Kept pq fu (configurationRequest s fn write reg v) := by
  grind -ring -linarith -ac -order -lia [configurationRequest]
grind_pattern keeps_configurationRequest => Kept pq fu s, configurationRequest s fn write reg v

theorem keeps_execConfigurationRequest (fn : Fin 16) (write : Bool) (reg : BitVec 12) (tlp : ConfigTlp) (s : State) (hs : Kept pq fu s) {out : State} (hout : (execConfigurationRequest fn write reg tlp s) = .next out) :
    Kept pq fu out := by
  grind -ring -linarith -ac -order -lia [execConfigurationRequest]

theorem keeps_execHandoverDrainEnd (n : Fin 1024) (s : State) (hs : Kept pq fu s) {out : State} (hout : (execHandoverDrainEnd n s) = .next out) :
    Kept pq fu out := by
  grind -ring -linarith -ac -order -lia [execHandoverDrainEnd]

theorem keeps_execSkewDrainEnd (k : Fin 128) (s : State) (hs : Kept pq fu s) {out : State} (hout : (execSkewDrainEnd k s) = .next out) :
    Kept pq fu out := by
  grind -ring -linarith -ac -order -lia [execSkewDrainEnd]

theorem keeps_execSealLockDrainEnd (n : Fin 1024) (s : State) (hs : Kept pq fu s) {out : State} (hout : (execSealLockDrainEnd n s) = .next out) :
    Kept pq fu out := by
  grind -ring -linarith -ac -order -lia [execSealLockDrainEnd]

theorem keeps_dataLinkDown (s : State) (hs : Kept pq fu s) :
    Kept pq fu (dataLinkDown s) := by
  unfold dataLinkDown; grind -ring -linarith -ac -order -lia
grind_pattern keeps_dataLinkDown => Kept pq fu s, dataLinkDown s

theorem keeps_execDataLinkDown (s : State) (hs : Kept pq fu s) {out : State} (hout : (execDataLinkDown s) = .next out) :
    Kept pq fu out := by
  grind -ring -linarith -ac -order -lia [execDataLinkDown]

theorem keeps_pcieTrained (s : State) (speed : BitVec 3) (width : BitVec 5) (hs : Kept pq fu s) :
    Kept pq fu (pcieTrained s speed width) := by
  grind -ring -linarith -ac -order -lia [pcieTrained]
grind_pattern keeps_pcieTrained => Kept pq fu s, pcieTrained s speed width

theorem keeps_execPcieLinkTraining (speed : BitVec 3) (width : BitVec 5) (s : State) (hs : Kept pq fu s) {out : State} (hout : (execPcieLinkTraining speed width s) = .next out) :
    Kept pq fu out := by
  grind -ring -linarith -ac -order -lia [execPcieLinkTraining]

end Sys2Proof.Machine
end

