-- ==== Sys2Proof/Laws/KeepCoreOps.lean ====
section
/-! SUPPORT. No operation of Machine/CoreOps.lean touches the queue, the fuses, or the canonical form of memory: one lemma each. -/
namespace Sys2Proof.Machine

variable {pq : List Instr} {fu : Fus}

set_option Elab.async false

theorem keeps_coreOp {i : Instr} {op : State → State × Res} (ho : coreOp i = some op) (s : State) (hs : Kept pq fu s) :
    Kept pq fu (op s).1 := by
  cases i <;> simp only [coreOp, Option.some.injEq, reduceCtorEq] at ho <;> subst ho <;> grind -ring -linarith -ac -order -lia

end Sys2Proof.Machine
end

