-- ==== Sys2Proof/Laws/KeepCores.lean ====
section
/-! SUPPORT. No operation of Machine/Cores.lean touches the queue, the fuses, or the canonical form of memory: one lemma each. -/
namespace Sys2Proof.Machine

variable {pq : List Instr} {fu : Fus}

set_option Elab.async false

theorem keeps_wordRun (th : Th) (w : Word) (s : State) (hs : Kept pq fu s) : Kept pq fu (wordRun th w s).1 := by
  unfold wordRun
  split
  · next op h =>
    obtain ⟨i, -, ho⟩ := Option.bind_eq_some_iff.1 h
    exact keeps_coreOp ho _ hs
  · exact hs
grind_pattern keeps_wordRun => Kept pq fu s, wordRun th w s

theorem keeps_atSlot (s : State) (th : Th) (n : Nat) (hs : Kept pq fu s) :
    Kept pq fu (atSlot s th n) := by
  grind -ring -linarith -ac -order -lia [atSlot]
grind_pattern keeps_atSlot => Kept pq fu s, atSlot s th n

theorem keeps_passSlots (s : State) (l : Fin 16) (k : Nat) (hs : Kept pq fu s) : Kept pq fu (passSlots s l k) := by
  unfold passSlots
  exact kept_foldl _ _ _ (keeps_setLathe _ _ _ hs) (fun s th h => keeps_modThr _ _ _ h)
grind_pattern keeps_passSlots => Kept pq fu s, passSlots s l k

theorem keeps_idleSlots (s : State) (th : Th) (hs : Kept pq fu s) :
    Kept pq fu (idleSlots s th) := by
  grind -ring -linarith -ac -order -lia [idleSlots]
grind_pattern keeps_idleSlots => Kept pq fu s, idleSlots s th

theorem keeps_fetchHalt (s : State) (th : Th) (n : Nat) (hs : Kept pq fu s) :
    Kept pq fu (fetchHalt s th n) := by
  grind -ring -linarith -ac -order -lia [fetchHalt]
grind_pattern keeps_fetchHalt => Kept pq fu s, fetchHalt s th n

theorem keeps_learn (s : State) (th : Th) (pc w : Word) (r : Res) (hs : Kept pq fu s) : Kept pq fu (learn s th pc w r) := by
  unfold learn
  split
  · cases r <;> first | exact hs | exact keeps_predLearn _ _ _ _ _ hs
  · exact hs
grind_pattern keeps_learn => Kept pq fu s, learn s th pc w r

theorem keeps_atIssue (s : State) (th : Th) (n : Nat) (hs : Kept pq fu s) :
    Kept pq fu (atIssue s th n) := by
  grind -ring -linarith -ac -order -lia [atIssue]
grind_pattern keeps_atIssue => Kept pq fu s, atIssue s th n

theorem keeps_inSlot (s : State) (th : Th) (n : Nat) (hs : Kept pq fu s) :
    Kept pq fu (inSlot s th n) := by
  grind -ring -linarith -ac -order -lia [inSlot]
grind_pattern keeps_inSlot => Kept pq fu s, inSlot s th n

theorem keeps_afterOp (before : State) (th : Th) (w : Word) (r : State × Res) (hr : Kept pq fu r.1) : Kept pq fu (afterOp before th w r).1 := by
  unfold afterOp
  dsimp only
  split <;> first | exact hr | exact keeps_modThr _ _ _ hr
grind_pattern keeps_afterOp => Kept pq fu r.1, afterOp before th w r

theorem keeps_completes (s : State) (th : Th) (w : Word) (n : Nat) (r : State × Res) (hs : Kept pq fu s) (hr : Kept pq fu r.1) :
    Kept pq fu (completes s th w n r) := by
  have h := keeps_learn _ th (s.thr th).pc w r.2
    (keeps_finish th n (atIssue s th n) _ (keeps_atIssue _ _ _ hs) (keeps_afterOp (inSlot s th n) th w r hr))
  unfold completes
  dsimp only
  split
  · exact keeps_modLathe _ _ _ h
  · exact h
grind_pattern keeps_completes => Kept pq fu s, completes s th w n r

theorem keeps_issueAt (s : State) (th : Th) (w : Word) (op : State → State × Res) (n : Nat) (hs : Kept pq fu s)
    (hop : ∀ x0, Kept pq fu x0 → Kept pq fu (op x0).1) : Kept pq fu (issueAt s th w op n) := by
  unfold issueAt
  split
  · exact keeps_fetchHalt _ _ _ (keeps_atIssue _ _ _ hs)
  · exact keeps_completes _ _ _ _ _ hs (hop _ (keeps_inSlot _ _ _ hs))
grind_pattern keeps_issueAt => Kept pq fu s, issueAt s th w op n

theorem keeps_slotsBefore (s : State) (th : Th) (hs : Kept pq fu s) :
    Kept pq fu (slotsBefore s th) := by
  grind -ring -linarith -ac -order -lia [slotsBefore]
grind_pattern keeps_slotsBefore => Kept pq fu s, slotsBefore s th

theorem keeps_issue (th : Th) (w : Word) (op : State → State × Res) (s : State) (hs : Kept pq fu s)
    (hop : ∀ x0, Kept pq fu x0 → Kept pq fu (op x0).1) : Kept pq fu (issue th w op s) := by
  unfold issue
  split
  · split
    · exact keeps_issueAt _ _ _ _ _ hs hop
    · exact hs
  · exact keeps_slotsBefore _ _ hs
grind_pattern keeps_issue => Kept pq fu s, issue th w op s

theorem keeps_fetchArrives (s : State) (th : Th) (p : PendLoad) (hs : Kept pq fu s) :
    Kept pq fu (fetchArrives s th p) := by
  grind -ring -linarith -ac -order -lia [fetchArrives]
grind_pattern keeps_fetchArrives => Kept pq fu s, fetchArrives s th p

theorem keeps_fetchComplete (s : State) (th : Th) (hs : Kept pq fu s) : Kept pq fu (fetchComplete s th) := by
  unfold fetchComplete
  dsimp only
  split
  · exact hs
  · split
    · exact keeps_issue _ _ _ _ hs (fun s h => h)
    · exact keeps_fetchArrives _ _ _ hs
    · exact keeps_fetchStep _ _ hs
grind_pattern keeps_fetchComplete => Kept pq fu s, fetchComplete s th

theorem keeps_execInstructionFetchComplete (th : Th) (s : State) (hs : Kept pq fu s) {out : State} (hout : (execInstructionFetchComplete th s) = .next out) :
    Kept pq fu out := by
  grind -ring -linarith -ac -order -lia [execInstructionFetchComplete]

end Sys2Proof.Machine
end

