-- ==== Sys2Proof/Laws/KeepDebug.lean ====
section
/-! SUPPORT. No operation of Machine/Debug.lean touches the queue, the fuses, or the canonical form of memory: one lemma each. -/
namespace Sys2Proof.Machine

variable {pq : List Instr} {fu : Fus}

set_option Elab.async false

theorem keeps_ok (s : State) (payload : List Octet) (hs : Kept pq fu s) :
    Kept pq fu (ok s payload).1 := hs
grind_pattern keeps_ok => Kept pq fu s, ok s payload

theorem keeps_no (s : State) (status : Octet) (hs : Kept pq fu s) :
    Kept pq fu (no s status).1 := hs
grind_pattern keeps_no => Kept pq fu s, no s status

theorem keeps_openRequest (type : Nat) (f : State → Answer) (s : State) (hf : ∀ x0, Kept pq fu x0 → Kept pq fu (f x0).1) (hs : Kept pq fu s) :
    Kept pq fu (openRequest type f s) := by
  grind -ring -linarith -ac -order -lia [openRequest]
grind_pattern keeps_openRequest => Kept pq fu s, openRequest type f s

theorem keeps_heldRequest (type : Nat) (f : State → Option Answer) (s : State) (hf : ∀ x0, Kept pq fu x0 → ∀ out, (f x0) = some out → Kept pq fu out.1) (hs : Kept pq fu s) :
    Kept pq fu (heldRequest type f s) := by
  grind -ring -linarith -ac -order -lia [heldRequest]
grind_pattern keeps_heldRequest => Kept pq fu s, heldRequest type f s

theorem keeps_request (type : Nat) (f : State → Answer) (s : State) (hf : ∀ x0, Kept pq fu x0 → Kept pq fu (f x0).1) (hs : Kept pq fu s) :
    Kept pq fu (request type f s) := by
  grind -ring -linarith -ac -order -lia [request]
grind_pattern keeps_request => Kept pq fu s, request type f s

theorem keeps_onLathe (l : Fin 16) (f : State → Answer) (s : State) (hf : ∀ x0, Kept pq fu x0 → Kept pq fu (f x0).1) (hs : Kept pq fu s) :
    Kept pq fu (onLathe l f s).1 := by
  grind -ring -linarith -ac -order -lia [onLathe]
grind_pattern keeps_onLathe => Kept pq fu s, onLathe l f s

theorem keeps_onHalted (th : Th) (f : State → Answer) (s : State) (hf : ∀ x0, Kept pq fu x0 → Kept pq fu (f x0).1) (hs : Kept pq fu s) :
    Kept pq fu (onHalted th f s).1 := by
  grind -ring -linarith -ac -order -lia [onHalted]
grind_pattern keeps_onHalted => Kept pq fu s, onHalted th f s

theorem keeps_execHello (s : State) (hs : Kept pq fu s) {out : State} (hout : (execHello s) = .next out) :
    Kept pq fu out := by
  grind -ring -linarith -ac -order -lia [execHello]

theorem keeps_chalRun (s : State) (hs : Kept pq fu s) :
    Kept pq fu (chalRun s).1 := hs
grind_pattern keeps_chalRun => Kept pq fu s, chalRun s

theorem keeps_execChal (s : State) (hs : Kept pq fu s) {out : State} (hout : (execChal s) = .next out) :
    Kept pq fu out := by
  grind -ring -linarith -ac -order -lia [execChal]

theorem keeps_openSession (s : State) (i : Nat) (nonce : List Octet) (t : Token) (hs : Kept pq fu s) :
    Kept pq fu (openSession s i nonce t) := by
  grind -ring -linarith -ac -order -lia [openSession]
grind_pattern keeps_openSession => Kept pq fu s, openSession s i nonce t

theorem keeps_authRun (t : Token) (s : State) (hs : Kept pq fu s) :
    Kept pq fu (authRun t s).1 := by
  grind -ring -linarith -ac -order -lia [authRun]
grind_pattern keeps_authRun => Kept pq fu s, authRun t s

theorem keeps_execAuth (t : Token) (s : State) (hs : Kept pq fu s) {out : State} (hout : (execAuth t s) = .next out) :
    Kept pq fu out := by
  grind -ring -linarith -ac -order -lia [execAuth]

theorem keeps_execHalt (l : Fin 16) (mask : BitVec 8) (s : State) (hs : Kept pq fu s) {out : State} (hout : (execHalt l mask s) = .next out) :
    Kept pq fu out := by
  grind -ring -linarith -ac -order -lia [execHalt]

theorem keeps_haltTakesEffect (s : State) (th : Th) (hs : Kept pq fu s) :
    Kept pq fu (haltTakesEffect s th) := by
  grind -ring -linarith -ac -order -lia [haltTakesEffect]
grind_pattern keeps_haltTakesEffect => Kept pq fu s, haltTakesEffect s th

theorem keeps_execHaltTakesEffect (th : Th) (s : State) (hs : Kept pq fu s) {out : State} (hout : (execHaltTakesEffect th s) = .next out) :
    Kept pq fu out := by
  grind -ring -linarith -ac -order -lia [execHaltTakesEffect]

theorem keeps_resumeThread (s : State) (th : Th) (hs : Kept pq fu s) :
    Kept pq fu (resumeThread s th) := hs
grind_pattern keeps_resumeThread => Kept pq fu s, resumeThread s th

theorem keeps_execResume (l : Fin 16) (mask : BitVec 8) (s : State) (hs : Kept pq fu s) {out : State} (hout : (execResume l mask s) = .next out) :
    Kept pq fu out := by
  grind -ring -linarith -ac -order -lia [execResume]

theorem keeps_stepIssue (s : State) (th : Th) (hs : Kept pq fu s) {out : State} (hout : stepIssue s th = some out) :
    Kept pq fu out := by
  unfold stepIssue at hout
  dsimp only at hout
  split at hout
  · split at hout
    · cases hout; exact keeps_fetchStep _ _ hs
    · cases hout
  · obtain ⟨n, -, rfl⟩ := Option.map_eq_some_iff.1 hout
    exact keeps_modLathe _ _ _ (keeps_issueAt _ _ _ _ _ hs (fun x hx => keeps_wordRun _ _ _ hx))
grind_pattern keeps_stepIssue => Kept pq fu s, stepIssue s th, some out

theorem keeps_stepFetch (s : State) (th : Th) (hs : Kept pq fu s) : Kept pq fu (stepFetch s th) := by
  have h1 := keeps_modThr s th (fun t => { t with halted := false, haltReq := false }) hs
  unfold stepFetch
  dsimp only
  split
  · split
    · exact hs
    · exact keeps_modThr _ _ _ (keeps_fetchStep _ _ h1)
  · exact hs
grind_pattern keeps_stepFetch => Kept pq fu s, stepFetch s th

theorem keeps_stepThread (s : State) (th : Th) (hs : Kept pq fu s) {out : State} (hout : stepThread s th = some out) :
    Kept pq fu out := by
  unfold stepThread at hout
  dsimp only at hout
  split at hout
  · cases hout; grind -ring -linarith -ac -order -lia
  split at hout
  · cases hout; grind -ring -linarith -ac -order -lia
  split at hout
  · cases hout; grind -ring -linarith -ac -order -lia
  split at hout
  · cases hout; grind -ring -linarith -ac -order -lia
  split at hout
  · cases hout; grind -ring -linarith -ac -order -lia
  · exact keeps_stepIssue _ _ hs hout
grind_pattern keeps_stepThread => Kept pq fu s, stepThread s th, some out

theorem keeps_stepRun (th : Th) (s : State) (hs : Kept pq fu s) {out : Answer} (hout : stepRun th s = some out) :
    Kept pq fu out.1 := by
  unfold stepRun at hout
  split at hout
  · cases hout; grind -ring -linarith -ac -order -lia
  split at hout
  · cases hout
  · obtain ⟨x, hx, rfl⟩ := Option.map_eq_some_iff.1 hout
    have := keeps_stepThread _ _ (keeps_resumeThread s th hs) hx
    grind -ring -linarith -ac -order -lia
grind_pattern keeps_stepRun => Kept pq fu s, stepRun th s, some out

theorem keeps_execStep (th : Th) (s : State) (hs : Kept pq fu s) {out : State} (hout : (execStep th s) = .next out) :
    Kept pq fu out := by
  grind -ring -linarith -ac -order -lia [execStep]

theorem keeps_rdreg (th : Th) (x : RegSel) (s : State) (hs : Kept pq fu s) :
    Kept pq fu (rdreg th x s).1 := by
  grind -ring -linarith -ac -order -lia [rdreg]
grind_pattern keeps_rdreg => Kept pq fu s, rdreg th x s

theorem keeps_execRdreg (th : Th) (x : RegSel) (s : State) (hs : Kept pq fu s) {out : State} (hout : (execRdreg th x s) = .next out) :
    Kept pq fu out := by
  grind -ring -linarith -ac -order -lia [execRdreg]

theorem keeps_wrreg (th : Th) (x : RegSel) (v : List Word) (s : State) (hs : Kept pq fu s) :
    Kept pq fu (wrreg th x v s).1 := by
  grind -ring -linarith -ac -order -lia [wrreg]
grind_pattern keeps_wrreg => Kept pq fu s, wrreg th x v s

theorem keeps_execWrreg (th : Th) (x : RegSel) (v : List Word) (s : State) (hs : Kept pq fu s) {out : State} (hout : (execWrreg th x v s) = .next out) :
    Kept pq fu out := by
  grind -ring -linarith -ac -order -lia [execWrreg]

theorem keeps_execAccess (s' : State) (th : Th) (p : PendLoad) (hs : Kept pq fu s') {out : State} (hout : execAccess s' th p = some out) :
    Kept pq fu out := by
  have h2 : (loadResult s' th p .error).map (fun (s'', ws) => endDebugLoad s'' th p ws) = some out → Kept pq fu out := by
    intro h
    obtain ⟨x, hx, rfl⟩ := Option.map_eq_some_iff.1 h
    exact keeps_endDebugLoad _ _ _ _ (keeps_loadResult _ _ _ _ hs hx)
  unfold execAccess at hout
  dsimp only at hout
  repeat' split at hout
  all_goals first | exact h2 hout | (cases hout; exact keeps_modThr _ _ _ hs)
grind_pattern keeps_execAccess => Kept pq fu s', execAccess s' th p, some out

theorem keeps_execFence (s s' : State) (th : Th) (_hs : Kept pq fu s) (hs' : Kept pq fu s') {out : State} (hout : (execFence s s' th) = some out) :
    Kept pq fu out := by
  grind -ring -linarith -ac -order -lia [execFence]
grind_pattern keeps_execFence => Kept pq fu s, execFence s s' th, some out

theorem keeps_execInstr (s : State) (th : Th) (w : Word) (op : State → State × Res) (n : Nat) (hs : Kept pq fu s)
    (hop : ∀ x0, Kept pq fu x0 → Kept pq fu (op x0).1) {out : State} (hout : (execInstr s th w op n) = some out) : Kept pq fu out := by
  have h0 := keeps_startSlot _ th (keeps_passSlots s th.l (n - (s.lathe th.l).clock) hs)
  have ho := keeps_afterOp (startSlot (passSlots s th.l (n - (s.lathe th.l).clock)) th) th w _ (hop _ h0)
  unfold execInstr at hout
  dsimp only at hout
  generalize afterOp _ th w _ = r at ho hout
  obtain ⟨s', r⟩ := r
  dsimp only at hout
  have ha : ∀ p, execAccess s' th p = some out → Kept pq fu out := fun p h => keeps_execAccess _ _ _ ho h
  cases r with
  | seq =>
    dsimp only at hout
    split at hout
    · exact ha _ hout
    · cases hout; exact keeps_execDone _ ho
  | refetch => cases hout; exact keeps_execDone _ (keeps_modThr _ _ _ ho)
  | jump a => cases hout; exact keeps_respond _ _ _ _ hs
  | exc e => cases hout; exact keeps_execExcept _ _ hs
  | excNext e => cases hout; exact keeps_execExcept _ _ hs
  | wait => cases hout
  | hold =>
    dsimp only at hout
    split at hout
    · exact ha _ hout
    · exact keeps_execFence _ _ _ hs ho hout

theorem keeps_execWord (s : State) (th : Th) (w : Word) (hs : Kept pq fu s) {out : State} (hout : (execWord s th w) = some out) :
    Kept pq fu out := by
  unfold execWord at hout
  split at hout
  · cases hout
  split at hout
  · cases hout; grind -ring -linarith -ac -order -lia
  split at hout
  · cases hout; grind -ring -linarith -ac -order -lia
  split at hout
  · cases hout; grind -ring -linarith -ac -order -lia
  · next ho =>
    obtain ⟨n, -, h⟩ := Option.bind_eq_some_iff.1 hout
    exact keeps_execInstr _ _ _ _ _ hs (fun x hx => keeps_coreOp ho x hx) h
grind_pattern keeps_execWord => Kept pq fu s, execWord s th w, some out

theorem keeps_execRun1 (s : State) (th : Th) (w : Word) (hs : Kept pq fu s) :
    Kept pq fu (execRun1 s th w) := by
  have h1 : Kept pq fu { s with dbg := { s.dbg with frame := false, idle := 0, reqno := s.dbg.reqno + 1 } } := hs
  unfold execRun1
  split
  · exact hs
  split
  · exact keeps_respond _ _ _ _ hs
  dsimp only
  split
  · exact keeps_respond _ _ _ _ h1
  split
  · exact keeps_respond _ _ _ _ h1
  · generalize he : execWord _ th w = o
    cases o with
    | none => exact hs
    | some x => exact keeps_execWord _ _ _ h1 he
grind_pattern keeps_execRun1 => Kept pq fu s, execRun1 s th w

theorem keeps_execExec (th : Th) (w : Word) (s : State) (hs : Kept pq fu s) {out : State} (hout : (execExec th w s) = .next out) :
    Kept pq fu out := by
  grind -ring -linarith -ac -order -lia [execExec]

theorem keeps_rdcsr (a : Word) (s : State) (hs : Kept pq fu s) :
    Kept pq fu (rdcsr a s).1 := by
  grind -ring -linarith -ac -order -lia [rdcsr]
grind_pattern keeps_rdcsr => Kept pq fu s, rdcsr a s

theorem keeps_execRdcsr (a : Word) (s : State) (hs : Kept pq fu s) {out : State} (hout : (execRdcsr a s) = .next out) :
    Kept pq fu out := by
  grind -ring -linarith -ac -order -lia [execRdcsr]

theorem keeps_wrcsr (a w : Word) (s : State) (hs : Kept pq fu s) :
    Kept pq fu (wrcsr a w s).1 := by
  grind -ring -linarith -ac -order -lia [wrcsr]
grind_pattern keeps_wrcsr => Kept pq fu s, wrcsr a w s

theorem keeps_execWrcsr (a w : Word) (s : State) (hs : Kept pq fu s) {out : State} (hout : (execWrcsr a w s) = .next out) :
    Kept pq fu out := by
  grind -ring -linarith -ac -order -lia [execWrcsr]

theorem keeps_execResetreq (level : BitVec 8) (s : State) (hs : Kept pq fu s) {out : State} (hout : (execResetreq level s) = .next out) :
    Kept pq fu out := by
  grind -ring -linarith -ac -order -lia [execResetreq]

theorem keeps_endSession (s : State) (hs : Kept pq fu s) :
    Kept pq fu (endSession s) := by
  grind -ring -linarith -ac -order -lia [endSession]
grind_pattern keeps_endSession => Kept pq fu s, endSession s

theorem keeps_execClose (s : State) (hs : Kept pq fu s) {out : State} (hout : (execClose s) = .next out) :
    Kept pq fu out := by
  grind -ring -linarith -ac -order -lia [execClose]

theorem keeps_badRequest (s : State) (why : BadFrame) (hs : Kept pq fu s) :
    Kept pq fu (badRequest s why) := by
  unfold badRequest; grind -ring -linarith -ac -order -lia
grind_pattern keeps_badRequest => Kept pq fu s, badRequest s why

theorem keeps_execBadRequestFrame (why : BadFrame) (s : State) (hs : Kept pq fu s) {out : State} (hout : (execBadRequestFrame why s) = .next out) :
    Kept pq fu out := by
  grind -ring -linarith -ac -order -lia [execBadRequestFrame]

end Sys2Proof.Machine
end

