-- ==== Sys2Proof/Laws/KeepClock.lean ====
section
/-! SUPPORT. No operation of Machine/Clock.lean touches the queue, the fuses, or the canonical form of memory: one lemma each. -/
namespace Sys2Proof.Machine

variable {pq : List Instr} {fu : Fus}

set_option Elab.async false

theorem keeps_captureAsks (s : State) (hs : Kept pq fu s) :
    Kept pq fu (captureAsks s) := by
  grind -ring -linarith -ac -order -lia [captureAsks]
grind_pattern keeps_captureAsks => Kept pq fu s, captureAsks s

theorem keeps_timersReload (s : State) (hs : Kept pq fu s) :
    Kept pq fu (timersReload s) := by
  grind -ring -linarith -ac -order -lia [timersReload]
grind_pattern keeps_timersReload => Kept pq fu s, timersReload s

theorem keeps_levelsFollow (cells pins : List (Nat × Bool)) (pps : Option Bool) (s : State) (hs : Kept pq fu s) :
    Kept pq fu (levelsFollow cells pins pps s) := by
  unfold levelsFollow; grind -ring -linarith -ac -order -lia
grind_pattern keeps_levelsFollow => Kept pq fu s, levelsFollow cells pins pps s

theorem keeps_producersAct (fires : List Nat) (s : State) (hs : Kept pq fu s) :
    Kept pq fu (producersAct fires s) := by
  grind -ring -linarith -ac -order -lia [producersAct]
grind_pattern keeps_producersAct => Kept pq fu s, producersAct fires s

theorem keeps_pulsesAct (s : State) (hs : Kept pq fu s) :
    Kept pq fu (pulsesAct s) := by
  grind -ring -linarith -ac -order -lia [pulsesAct]
grind_pattern keeps_pulsesAct => Kept pq fu s, pulsesAct s

theorem keeps_ppsLost (s : State) (hs : Kept pq fu s) :
    Kept pq fu (ppsLost s) := by
  grind -ring -linarith -ac -order -lia [ppsLost]
grind_pattern keeps_ppsLost => Kept pq fu s, ppsLost s

theorem keeps_watchdogsAct (s : State) (hs : Kept pq fu s) :
    Kept pq fu (watchdogsAct s) := by
  grind -ring -linarith -ac -order -lia [watchdogsAct]
grind_pattern keeps_watchdogsAct => Kept pq fu s, watchdogsAct s

theorem keeps_heldAct (s : State) (hs : Kept pq fu s) :
    Kept pq fu (heldAct s) := by
  grind -ring -linarith -ac -order -lia [heldAct]
grind_pattern keeps_heldAct => Kept pq fu s, heldAct s

theorem keeps_asksAct (s : State) (hs : Kept pq fu s) :
    Kept pq fu (asksAct s) := by
  grind -ring -linarith -ac -order -lia [asksAct]
grind_pattern keeps_asksAct => Kept pq fu s, asksAct s

theorem keeps_drainsAct (s : State) (hs : Kept pq fu s) :
    Kept pq fu (drainsAct s) := by
  grind -ring -linarith -ac -order -lia [drainsAct]
grind_pattern keeps_drainsAct => Kept pq fu s, drainsAct s

theorem keeps_remotesAct (s : State) (hs : Kept pq fu s) :
    Kept pq fu (remotesAct s) := by
  grind -ring -linarith -ac -order -lia [remotesAct]
grind_pattern keeps_remotesAct => Kept pq fu s, remotesAct s

theorem keeps_deadlinesAct (s : State) (hs : Kept pq fu s) :
    Kept pq fu (deadlinesAct s) := by
  grind -ring -linarith -ac -order -lia [deadlinesAct]
grind_pattern keeps_deadlinesAct => Kept pq fu s, deadlinesAct s

theorem keeps_lockupsAct (s : State) (hs : Kept pq fu s) :
    Kept pq fu (lockupsAct s) := by
  grind -ring -linarith -ac -order -lia [lockupsAct]
grind_pattern keeps_lockupsAct => Kept pq fu s, lockupsAct s

theorem keeps_sessionAct (s : State) (hs : Kept pq fu s) :
    Kept pq fu (sessionAct s) := by
  grind -ring -linarith -ac -order -lia [sessionAct]
grind_pattern keeps_sessionAct => Kept pq fu s, sessionAct s

theorem keeps_bootAct (s : State) (hs : Kept pq fu s) :
    Kept pq fu (bootAct s) := by
  grind -ring -linarith -ac -order -lia [bootAct]
grind_pattern keeps_bootAct => Kept pq fu s, bootAct s

theorem keeps_headWatchAct (kept : Bool) (s : State) (hs : Kept pq fu s) :
    Kept pq fu (headWatchAct kept s) := by
  grind -ring -linarith -ac -order -lia [headWatchAct]
grind_pattern keeps_headWatchAct => Kept pq fu s, headWatchAct kept s

theorem keeps_mramRetries (s : State) (hs : Kept pq fu s) :
    Kept pq fu (mramRetries s) := by
  grind -ring -linarith -ac -order -lia [mramRetries]
grind_pattern keeps_mramRetries => Kept pq fu s, mramRetries s

theorem keeps_lockdownAct (s : State) (hs : Kept pq fu s) :
    Kept pq fu (lockdownAct s) := by
  grind -ring -linarith -ac -order -lia [lockdownAct]
grind_pattern keeps_lockdownAct => Kept pq fu s, lockdownAct s

theorem keeps_frameAct (s : State) (hs : Kept pq fu s) :
    Kept pq fu (frameAct s) := by
  grind -ring -linarith -ac -order -lia [frameAct]
grind_pattern keeps_frameAct => Kept pq fu s, frameAct s

theorem keeps_actDue (kept : Bool) (fires : List Nat) (s : State) (hs : Kept pq fu s) : Kept pq fu (actDue kept fires s) :=
  keeps_headWatchAct _ _ (keeps_bootAct _ (keeps_lockdownAct _ (keeps_frameAct _ (keeps_sessionAct _ (keeps_lockupsAct _ (keeps_deadlinesAct _
    (keeps_settleJobs _ (keeps_remotesAct _ (keeps_drainsAct _ (keeps_asksAct _ (keeps_heldAct _ (keeps_watchdogsAct _ (keeps_ppsLost _
      (keeps_mramRetries _ (keeps_pulsesAct _ (keeps_producersAct _ _ hs))))))))))))))))
grind_pattern keeps_actDue => Kept pq fu s, actDue kept fires s

theorem keeps_ticksTo (kept : Bool) (k : Nat) (f : State → State) (s : State) (hf : ∀ x0, Kept pq fu x0 → Kept pq fu (f x0))
    (hs : Kept pq fu s) : Kept pq fu (ticksTo kept k f s) :=
  keeps_actDue _ _ _ (hf _ (keeps_captureAsks _ (keeps_countTicks _ _ _ hs)))
grind_pattern keeps_ticksTo => Kept pq fu s, ticksTo kept k f s

theorem keeps_passTicks (kept : Bool) (y0 y1 : Nat) (s : State) (hs : Kept pq fu s) : Kept pq fu (passTicks kept y0 y1 s) := by
  induction y0 generalizing y1 s with
  | zero => exact hs
  | succ n ih =>
    cases y1 with
    | zero => exact hs
    | succ k => exact ih _ _ (keeps_ticksTo _ _ _ _ (fun _ h => h) hs)
grind_pattern keeps_passTicks => Kept pq fu s, passTicks kept y0 y1 s

theorem keeps_pass (k : Nat) (s : State) (hs : Kept pq fu s) : Kept pq fu (pass k s) := by
  unfold pass
  split
  · exact keeps_passTicks _ _ _ _ hs
  · exact hs
grind_pattern keeps_pass => Kept pq fu s, pass k s

theorem keeps_captureNow (s : State) (hs : Kept pq fu s) :
    Kept pq fu (captureNow s) := by
  grind -ring -linarith -ac -order -lia [captureNow]
grind_pattern keeps_captureNow => Kept pq fu s, captureNow s

theorem keeps_timerExpire (s : State) (t : Nat) (hs : Kept pq fu s) :
    Kept pq fu (timerExpire s t) := by
  grind -ring -linarith -ac -order -lia [timerExpire]
grind_pattern keeps_timerExpire => Kept pq fu s, timerExpire s t

theorem keeps_execTimer (t : Fin 16) (s : State) (hs : Kept pq fu s) {out : State} (hout : (execTimer t s) = .next out) :
    Kept pq fu out := by
  grind -ring -linarith -ac -order -lia [execTimer]

theorem keeps_lutFilterExpiry (s : State) (n : Nat) (hs : Kept pq fu s) :
    Kept pq fu (lutFilterExpiry s n) := by
  grind -ring -linarith -ac -order -lia [lutFilterExpiry]
grind_pattern keeps_lutFilterExpiry => Kept pq fu s, lutFilterExpiry s n

theorem keeps_execLutFilterExpiry (n : Fin 32) (s : State) (hs : Kept pq fu s) {out : State} (hout : (execLutFilterExpiry n s) = .next out) :
    Kept pq fu out := by
  grind -ring -linarith -ac -order -lia [execLutFilterExpiry]

theorem keeps_eventPin (s : State) (p : Nat) (b : Bool) (hs : Kept pq fu s) :
    Kept pq fu (eventPin s p b) := by
  grind -ring -linarith -ac -order -lia [eventPin]
grind_pattern keeps_eventPin => Kept pq fu s, eventPin s p b

theorem keeps_execEventPin (p : Fin 16) (b : Bool) (s : State) (hs : Kept pq fu s) {out : State} (hout : (execEventPin p b s) = .next out) :
    Kept pq fu out := by
  grind -ring -linarith -ac -order -lia [execEventPin]

theorem keeps_pinPulseEnd (s : State) (p : Nat) (hs : Kept pq fu s) :
    Kept pq fu (pinPulseEnd s p) := by
  grind -ring -linarith -ac -order -lia [pinPulseEnd]
grind_pattern keeps_pinPulseEnd => Kept pq fu s, pinPulseEnd s p

theorem keeps_execPinPulseEnd (p : Fin 16) (s : State) (hs : Kept pq fu s) {out : State} (hout : (execPinPulseEnd p s) = .next out) :
    Kept pq fu out := by
  grind -ring -linarith -ac -order -lia [execPinPulseEnd]

theorem keeps_ppsLevel (s : State) (b : Bool) (hs : Kept pq fu s) :
    Kept pq fu (ppsLevel s b) := by
  grind -ring -linarith -ac -order -lia [ppsLevel]
grind_pattern keeps_ppsLevel => Kept pq fu s, ppsLevel s b

theorem keeps_execPps (b : Bool) (s : State) (hs : Kept pq fu s) {out : State} (hout : (execPps b s) = .next out) :
    Kept pq fu out := by
  grind -ring -linarith -ac -order -lia [execPps]

theorem keeps_ppsTimeout (s : State) (hs : Kept pq fu s) :
    Kept pq fu (ppsTimeout s) := by
  grind -ring -linarith -ac -order -lia [ppsTimeout]
grind_pattern keeps_ppsTimeout => Kept pq fu s, ppsTimeout s

theorem keeps_execPpsTimeout (s : State) (hs : Kept pq fu s) {out : State} (hout : (execPpsTimeout s) = .next out) :
    Kept pq fu out := by
  grind -ring -linarith -ac -order -lia [execPpsTimeout]

theorem keeps_mwdogExpire (s : State) (th : Th) (hs : Kept pq fu s) :
    Kept pq fu (mwdogExpire s th) := by
  grind -ring -linarith -ac -order -lia [mwdogExpire]
grind_pattern keeps_mwdogExpire => Kept pq fu s, mwdogExpire s th

theorem keeps_execMwdog (th : Th) (s : State) (hs : Kept pq fu s) {out : State} (hout : (execMwdog th s) = .next out) :
    Kept pq fu out := by
  grind -ring -linarith -ac -order -lia [execMwdog]

theorem keeps_lockupReset (s : State) (l : Fin 16) (hs : Kept pq fu s) :
    Kept pq fu (lockupReset s l) := by
  grind -ring -linarith -ac -order -lia [lockupReset]
grind_pattern keeps_lockupReset => Kept pq fu s, lockupReset s l

theorem keeps_execLockup (l : Fin 16) (s : State) (hs : Kept pq fu s) {out : State} (hout : (execLockup l s) = .next out) :
    Kept pq fu out := by
  grind -ring -linarith -ac -order -lia [execLockup]

theorem keeps_hswdog (s : State) (hs : Kept pq fu s) : Kept pq fu (hswdog s) := by
  unfold hswdog
  dsimp only
  split
  · exact keeps_passTicks _ _ _ _ (keeps_captureNow _ hs)
  · exact keeps_captureNow _ hs
grind_pattern keeps_hswdog => Kept pq fu s, hswdog s

theorem keeps_execHswdog (s : State) (hs : Kept pq fu s) {out : State} (hout : (execHswdog s) = .next out) :
    Kept pq fu out := by
  grind -ring -linarith -ac -order -lia [execHswdog]

theorem keeps_execHslock (s : State) (hs : Kept pq fu s) {out : State} (hout : (execHslock s) = .next out) :
    Kept pq fu out := by
  grind -ring -linarith -ac -order -lia [execHslock]

theorem keeps_bootTimeout (s : State) (hs : Kept pq fu s) :
    Kept pq fu (bootTimeout s) := by
  grind -ring -linarith -ac -order -lia [bootTimeout]
grind_pattern keeps_bootTimeout => Kept pq fu s, bootTimeout s

theorem keeps_execBoottmo (s : State) (hs : Kept pq fu s) {out : State} (hout : (execBoottmo s) = .next out) :
    Kept pq fu out := by
  grind -ring -linarith -ac -order -lia [execBoottmo]

theorem keeps_commandDeadline (s : State) (r : SlotRef) (hs : Kept pq fu s) :
    Kept pq fu (commandDeadline s r) := by
  grind -ring -linarith -ac -order -lia [commandDeadline]
grind_pattern keeps_commandDeadline => Kept pq fu s, commandDeadline s r

theorem keeps_execCommandDeadline (r : SlotRef) (s : State) (hs : Kept pq fu s) {out : State} (hout : (execCommandDeadline r s) = .next out) :
    Kept pq fu out := by
  grind -ring -linarith -ac -order -lia [execCommandDeadline]

theorem keeps_remoteExpire (s : State) (tag : Nat) (hs : Kept pq fu s) :
    Kept pq fu (remoteExpire s tag) := by
  grind -ring -linarith -ac -order -lia [remoteExpire]
grind_pattern keeps_remoteExpire => Kept pq fu s, remoteExpire s tag

theorem keeps_execRemoteTimeout (tag : Nat) (s : State) (hs : Kept pq fu s) {out : State} (hout : (execRemoteTimeout tag s) = .next out) :
    Kept pq fu out := by
  grind -ring -linarith -ac -order -lia [execRemoteTimeout]

theorem keeps_sessionExpiry (s : State) (hs : Kept pq fu s) :
    Kept pq fu (sessionExpiry s) := by
  grind -ring -linarith -ac -order -lia [sessionExpiry]
grind_pattern keeps_sessionExpiry => Kept pq fu s, sessionExpiry s

theorem keeps_execSessionExpiry (s : State) (hs : Kept pq fu s) {out : State} (hout : (execSessionExpiry s) = .next out) :
    Kept pq fu out := by
  grind -ring -linarith -ac -order -lia [execSessionExpiry]

theorem keeps_frameTimeout (s : State) (hs : Kept pq fu s) :
    Kept pq fu (frameTimeout s) := by
  grind -ring -linarith -ac -order -lia [frameTimeout]
grind_pattern keeps_frameTimeout => Kept pq fu s, frameTimeout s

theorem keeps_execFrameTimeout (s : State) (hs : Kept pq fu s) {out : State} (hout : (execFrameTimeout s) = .next out) :
    Kept pq fu out := by
  grind -ring -linarith -ac -order -lia [execFrameTimeout]

theorem keeps_pinTicks (s : State) (n : Nat) (hs : Kept pq fu s) :
    Kept pq fu (pinTicks s n) := by
  grind -ring -linarith -ac -order -lia [pinTicks]
grind_pattern keeps_pinTicks => Kept pq fu s, pinTicks s n

theorem keeps_execPin (n : Nat) (s : State) (hs : Kept pq fu s) {out : State} (hout : (execPin n s) = .next out) :
    Kept pq fu out := by
  grind -ring -linarith -ac -order -lia [execPin]

theorem keeps_zeroiseDue (s : State) (hs : Kept pq fu s) :
    Kept pq fu (zeroiseDue s) := by
  grind -ring -linarith -ac -order -lia [zeroiseDue]
grind_pattern keeps_zeroiseDue => Kept pq fu s, zeroiseDue s

theorem keeps_execWrapKeyZeroise (s : State) (hs : Kept pq fu s) {out : State} (hout : (execWrapKeyZeroise s) = .next out) :
    Kept pq fu out := by
  grind -ring -linarith -ac -order -lia [execWrapKeyZeroise]

theorem keeps_timesetRun (s : State) (r : SlotRef) (o : List Octet) (hs : Kept pq fu s) :
    Kept pq fu (timesetRun s r o) := by
  grind -ring -linarith -ac -order -lia [timesetRun]
grind_pattern keeps_timesetRun => Kept pq fu s, timesetRun s r o

theorem keeps_execTimeset (r : SlotRef) (s : State) (hs : Kept pq fu s) {out : State} (hout : (execTimeset r s) = .next out) :
    Kept pq fu out := by
  grind -ring -linarith -ac -order -lia [execTimeset]

theorem keeps_mramTimeout (s : State) (op : MramOp) (hs : Kept pq fu s) :
    Kept pq fu (mramTimeout s op) := by
  unfold mramTimeout; grind -ring -linarith -ac -order -lia
grind_pattern keeps_mramTimeout => Kept pq fu s, mramTimeout s op

theorem keeps_execMramTimeout (op : MramOp) (s : State) (hs : Kept pq fu s) {out : State} (hout : (execMramTimeout op s) = .next out) :
    Kept pq fu out := by
  grind -ring -linarith -ac -order -lia [execMramTimeout]

theorem keeps_fabricTimeout (s : State) (m : Master) (addr : Nat) (write : Bool) (hs : Kept pq fu s) :
    Kept pq fu (fabricTimeout s m addr write) := by
  grind -ring -linarith -ac -order -lia [fabricTimeout]
grind_pattern keeps_fabricTimeout => Kept pq fu s, fabricTimeout s m addr write

theorem keeps_execFabricTimeout (m : Master) (addr : BitVec 34) (write : Bool) (s : State) (hs : Kept pq fu s) {out : State} (hout : (execFabricTimeout m addr write s) = .next out) :
    Kept pq fu out := by
  grind -ring -linarith -ac -order -lia [execFabricTimeout]

theorem keeps_bankWatchdog (s : State) (n : Nat) (outstanding : List Master) (hs : Kept pq fu s) : Kept pq fu (bankWatchdog s n outstanding) := by
  unfold bankWatchdog
  split
  · exact hs
  · exact keeps_ticksTo _ _ _ _ (fun _ h => keeps_drainTimesOut _ _ _ h) (keeps_pass _ _ hs)
grind_pattern keeps_bankWatchdog => Kept pq fu s, bankWatchdog s n outstanding

theorem keeps_execBankWatchdog (n : Fin 1024) (outstanding : List Master) (s : State) (hs : Kept pq fu s) {out : State} (hout : (execBankWatchdog n outstanding s) = .next out) :
    Kept pq fu out := by
  grind -ring -linarith -ac -order -lia [execBankWatchdog]

end Sys2Proof.Machine
end

