-- ==== Sys2Proof/Laws/KeepInstrs.lean ====
section
/-! SUPPORT. No operation of Machine/Instrs.lean touches the queue, the fuses, or the canonical form of memory: one lemma each. -/
namespace Sys2Proof.Machine

variable {pq : List Instr} {fu : Fus}

set_option Elab.async false

theorem keeps_issueT (op : BitVec 8) (func : BitVec 7) (body : Th → BitVec 7 → TFld → State → State × Res) (th : Th) (f : TFld) (s : State) (hbody : ∀ x0 x1 x2 x3, Kept pq fu x3 → Kept pq fu (body x0 x1 x2 x3).1) (hs : Kept pq fu s) {out : State} (hout : (issueT op func body th f s) = .next out) :
    Kept pq fu out := by
  grind -ring -linarith -ac -order -lia [issueT]
grind_pattern keeps_issueT => Kept pq fu s, issueT op func body th f s, Host.Outcome.next (φ := Fault) (ρ := Refusal) out

theorem keeps_issueI (op : BitVec 8) (body : Th → IFld → State → State × Res) (th : Th) (f : IFld) (s : State) (hbody : ∀ x0 x1 x2, Kept pq fu x2 → Kept pq fu (body x0 x1 x2).1) (hs : Kept pq fu s) {out : State} (hout : (issueI op body th f s) = .next out) :
    Kept pq fu out := by
  grind -ring -linarith -ac -order -lia [issueI]
grind_pattern keeps_issueI => Kept pq fu s, issueI op body th f s, Host.Outcome.next (φ := Fault) (ρ := Refusal) out

theorem keeps_execAdd (th : Th) (f : TFld) (s : State) (hs : Kept pq fu s) {out : State} (hout : (execAdd th f s) = .next out) :
    Kept pq fu out := by
  unfold execAdd at hout; grind -ring -linarith -ac -order -lia

theorem keeps_execSub (th : Th) (f : TFld) (s : State) (hs : Kept pq fu s) {out : State} (hout : (execSub th f s) = .next out) :
    Kept pq fu out := by
  unfold execSub at hout; grind -ring -linarith -ac -order -lia

theorem keeps_execAndG (th : Th) (f : TFld) (s : State) (hs : Kept pq fu s) {out : State} (hout : (execAndG th f s) = .next out) :
    Kept pq fu out := by
  unfold execAndG at hout; grind -ring -linarith -ac -order -lia

theorem keeps_execOrG (th : Th) (f : TFld) (s : State) (hs : Kept pq fu s) {out : State} (hout : (execOrG th f s) = .next out) :
    Kept pq fu out := by
  unfold execOrG at hout; grind -ring -linarith -ac -order -lia

theorem keeps_execXorG (th : Th) (f : TFld) (s : State) (hs : Kept pq fu s) {out : State} (hout : (execXorG th f s) = .next out) :
    Kept pq fu out := by
  unfold execXorG at hout; grind -ring -linarith -ac -order -lia

theorem keeps_execAndn (th : Th) (f : TFld) (s : State) (hs : Kept pq fu s) {out : State} (hout : (execAndn th f s) = .next out) :
    Kept pq fu out := by
  unfold execAndn at hout; grind -ring -linarith -ac -order -lia

theorem keeps_execShl (th : Th) (f : TFld) (s : State) (hs : Kept pq fu s) {out : State} (hout : (execShl th f s) = .next out) :
    Kept pq fu out := by
  unfold execShl at hout; grind -ring -linarith -ac -order -lia

theorem keeps_execShr (th : Th) (f : TFld) (s : State) (hs : Kept pq fu s) {out : State} (hout : (execShr th f s) = .next out) :
    Kept pq fu out := by
  unfold execShr at hout; grind -ring -linarith -ac -order -lia

theorem keeps_execShra (th : Th) (f : TFld) (s : State) (hs : Kept pq fu s) {out : State} (hout : (execShra th f s) = .next out) :
    Kept pq fu out := by
  unfold execShra at hout; grind -ring -linarith -ac -order -lia

theorem keeps_execRol (th : Th) (f : TFld) (s : State) (hs : Kept pq fu s) {out : State} (hout : (execRol th f s) = .next out) :
    Kept pq fu out := by
  unfold execRol at hout; grind -ring -linarith -ac -order -lia

theorem keeps_execSlt (th : Th) (f : TFld) (s : State) (hs : Kept pq fu s) {out : State} (hout : (execSlt th f s) = .next out) :
    Kept pq fu out := by
  unfold execSlt at hout; grind -ring -linarith -ac -order -lia

theorem keeps_execSltu (th : Th) (f : TFld) (s : State) (hs : Kept pq fu s) {out : State} (hout : (execSltu th f s) = .next out) :
    Kept pq fu out := by
  unfold execSltu at hout; grind -ring -linarith -ac -order -lia

theorem keeps_execSeq (th : Th) (f : TFld) (s : State) (hs : Kept pq fu s) {out : State} (hout : (execSeq th f s) = .next out) :
    Kept pq fu out := by
  unfold execSeq at hout; grind -ring -linarith -ac -order -lia

theorem keeps_execMinG (th : Th) (f : TFld) (s : State) (hs : Kept pq fu s) {out : State} (hout : (execMinG th f s) = .next out) :
    Kept pq fu out := by
  unfold execMinG at hout; grind -ring -linarith -ac -order -lia

theorem keeps_execMaxG (th : Th) (f : TFld) (s : State) (hs : Kept pq fu s) {out : State} (hout : (execMaxG th f s) = .next out) :
    Kept pq fu out := by
  unfold execMaxG at hout; grind -ring -linarith -ac -order -lia

theorem keeps_execMinu (th : Th) (f : TFld) (s : State) (hs : Kept pq fu s) {out : State} (hout : (execMinu th f s) = .next out) :
    Kept pq fu out := by
  unfold execMinu at hout; grind -ring -linarith -ac -order -lia

theorem keeps_execMaxu (th : Th) (f : TFld) (s : State) (hs : Kept pq fu s) {out : State} (hout : (execMaxu th f s) = .next out) :
    Kept pq fu out := by
  unfold execMaxu at hout; grind -ring -linarith -ac -order -lia

theorem keeps_execClz (th : Th) (f : TFld) (s : State) (hs : Kept pq fu s) {out : State} (hout : (execClz th f s) = .next out) :
    Kept pq fu out := by
  unfold execClz at hout; grind -ring -linarith -ac -order -lia

theorem keeps_execPopc (th : Th) (f : TFld) (s : State) (hs : Kept pq fu s) {out : State} (hout : (execPopc th f s) = .next out) :
    Kept pq fu out := by
  unfold execPopc at hout; grind -ring -linarith -ac -order -lia

theorem keeps_execAddi (th : Th) (f : IFld) (s : State) (hs : Kept pq fu s) {out : State} (hout : (execAddi th f s) = .next out) :
    Kept pq fu out := by
  unfold execAddi at hout; grind -ring -linarith -ac -order -lia

theorem keeps_execAndi (th : Th) (f : IFld) (s : State) (hs : Kept pq fu s) {out : State} (hout : (execAndi th f s) = .next out) :
    Kept pq fu out := by
  unfold execAndi at hout; grind -ring -linarith -ac -order -lia

theorem keeps_execOri (th : Th) (f : IFld) (s : State) (hs : Kept pq fu s) {out : State} (hout : (execOri th f s) = .next out) :
    Kept pq fu out := by
  unfold execOri at hout; grind -ring -linarith -ac -order -lia

theorem keeps_execXori (th : Th) (f : IFld) (s : State) (hs : Kept pq fu s) {out : State} (hout : (execXori th f s) = .next out) :
    Kept pq fu out := by
  unfold execXori at hout; grind -ring -linarith -ac -order -lia

theorem keeps_execSlti (th : Th) (f : IFld) (s : State) (hs : Kept pq fu s) {out : State} (hout : (execSlti th f s) = .next out) :
    Kept pq fu out := by
  unfold execSlti at hout; grind -ring -linarith -ac -order -lia

theorem keeps_execSltiu (th : Th) (f : IFld) (s : State) (hs : Kept pq fu s) {out : State} (hout : (execSltiu th f s) = .next out) :
    Kept pq fu out := by
  unfold execSltiu at hout; grind -ring -linarith -ac -order -lia

theorem keeps_execShifti (th : Th) (f : IFld) (s : State) (hs : Kept pq fu s) {out : State} (hout : (execShifti th f s) = .next out) :
    Kept pq fu out := by
  unfold execShifti at hout; grind -ring -linarith -ac -order -lia

theorem keeps_execLui (th : Th) (f : IFld) (s : State) (hs : Kept pq fu s) {out : State} (hout : (execLui th f s) = .next out) :
    Kept pq fu out := by
  unfold execLui at hout; grind -ring -linarith -ac -order -lia

theorem keeps_execMul (th : Th) (f : TFld) (s : State) (hs : Kept pq fu s) {out : State} (hout : (execMul th f s) = .next out) :
    Kept pq fu out := by
  unfold execMul at hout; grind -ring -linarith -ac -order -lia

theorem keeps_execMulu (th : Th) (f : TFld) (s : State) (hs : Kept pq fu s) {out : State} (hout : (execMulu th f s) = .next out) :
    Kept pq fu out := by
  unfold execMulu at hout; grind -ring -linarith -ac -order -lia

theorem keeps_execMadd (th : Th) (f : TFld) (s : State) (hs : Kept pq fu s) {out : State} (hout : (execMadd th f s) = .next out) :
    Kept pq fu out := by
  unfold execMadd at hout; grind -ring -linarith -ac -order -lia

theorem keeps_execMaddu (th : Th) (f : TFld) (s : State) (hs : Kept pq fu s) {out : State} (hout : (execMaddu th f s) = .next out) :
    Kept pq fu out := by
  unfold execMaddu at hout; grind -ring -linarith -ac -order -lia

theorem keeps_execDiv (th : Th) (f : TFld) (s : State) (hs : Kept pq fu s) {out : State} (hout : (execDiv th f s) = .next out) :
    Kept pq fu out := by
  unfold execDiv at hout; grind -ring -linarith -ac -order -lia

theorem keeps_execDivu (th : Th) (f : TFld) (s : State) (hs : Kept pq fu s) {out : State} (hout : (execDivu th f s) = .next out) :
    Kept pq fu out := by
  unfold execDivu at hout; grind -ring -linarith -ac -order -lia

theorem keeps_execRem (th : Th) (f : TFld) (s : State) (hs : Kept pq fu s) {out : State} (hout : (execRem th f s) = .next out) :
    Kept pq fu out := by
  unfold execRem at hout; grind -ring -linarith -ac -order -lia

theorem keeps_execRemu (th : Th) (f : TFld) (s : State) (hs : Kept pq fu s) {out : State} (hout : (execRemu th f s) = .next out) :
    Kept pq fu out := by
  unfold execRemu at hout; grind -ring -linarith -ac -order -lia

theorem keeps_execLw (th : Th) (f : IFld) (s : State) (hs : Kept pq fu s) {out : State} (hout : (execLw th f s) = .next out) :
    Kept pq fu out := by
  unfold execLw at hout; grind -ring -linarith -ac -order -lia

theorem keeps_execLn (th : Th) (f : IFld) (s : State) (hs : Kept pq fu s) {out : State} (hout : (execLn th f s) = .next out) :
    Kept pq fu out := by
  unfold execLn at hout; grind -ring -linarith -ac -order -lia

theorem keeps_execLfs (th : Th) (f : IFld) (s : State) (hs : Kept pq fu s) {out : State} (hout : (execLfs th f s) = .next out) :
    Kept pq fu out := by
  unfold execLfs at hout; grind -ring -linarith -ac -order -lia

theorem keeps_execLf (th : Th) (f : IFld) (s : State) (hs : Kept pq fu s) {out : State} (hout : (execLf th f s) = .next out) :
    Kept pq fu out := by
  unfold execLf at hout; grind -ring -linarith -ac -order -lia

theorem keeps_execLdd (th : Th) (f : IFld) (s : State) (hs : Kept pq fu s) {out : State} (hout : (execLdd th f s) = .next out) :
    Kept pq fu out := by
  unfold execLdd at hout; grind -ring -linarith -ac -order -lia

theorem keeps_execSw (th : Th) (f : IFld) (s : State) (hs : Kept pq fu s) {out : State} (hout : (execSw th f s) = .next out) :
    Kept pq fu out := by
  unfold execSw at hout; grind -ring -linarith -ac -order -lia

theorem keeps_execSn (th : Th) (f : IFld) (s : State) (hs : Kept pq fu s) {out : State} (hout : (execSn th f s) = .next out) :
    Kept pq fu out := by
  unfold execSn at hout; grind -ring -linarith -ac -order -lia

theorem keeps_execSfs (th : Th) (f : IFld) (s : State) (hs : Kept pq fu s) {out : State} (hout : (execSfs th f s) = .next out) :
    Kept pq fu out := by
  unfold execSfs at hout; grind -ring -linarith -ac -order -lia

theorem keeps_execSf (th : Th) (f : IFld) (s : State) (hs : Kept pq fu s) {out : State} (hout : (execSf th f s) = .next out) :
    Kept pq fu out := by
  unfold execSf at hout; grind -ring -linarith -ac -order -lia

theorem keeps_execSwm (th : Th) (f : IFld) (s : State) (hs : Kept pq fu s) {out : State} (hout : (execSwm th f s) = .next out) :
    Kept pq fu out := by
  unfold execSwm at hout; grind -ring -linarith -ac -order -lia

theorem keeps_execStdd (th : Th) (f : IFld) (s : State) (hs : Kept pq fu s) {out : State} (hout : (execStdd th f s) = .next out) :
    Kept pq fu out := by
  unfold execStdd at hout; grind -ring -linarith -ac -order -lia

theorem keeps_execMtd (th : Th) (f : IFld) (s : State) (hs : Kept pq fu s) {out : State} (hout : (execMtd th f s) = .next out) :
    Kept pq fu out := by
  unfold execMtd at hout; grind -ring -linarith -ac -order -lia

theorem keeps_execMfd (th : Th) (f : IFld) (s : State) (hs : Kept pq fu s) {out : State} (hout : (execMfd th f s) = .next out) :
    Kept pq fu out := by
  unfold execMfd at hout; grind -ring -linarith -ac -order -lia

theorem keeps_execSyscall (th : Th) (f : IFld) (s : State) (hs : Kept pq fu s) {out : State} (hout : (execSyscall th f s) = .next out) :
    Kept pq fu out := by
  unfold execSyscall at hout; grind -ring -linarith -ac -order -lia

theorem keeps_execBeq (th : Th) (f : IFld) (s : State) (hs : Kept pq fu s) {out : State} (hout : (execBeq th f s) = .next out) :
    Kept pq fu out := by
  unfold execBeq at hout; grind -ring -linarith -ac -order -lia

theorem keeps_execBne (th : Th) (f : IFld) (s : State) (hs : Kept pq fu s) {out : State} (hout : (execBne th f s) = .next out) :
    Kept pq fu out := by
  unfold execBne at hout; grind -ring -linarith -ac -order -lia

theorem keeps_execBlt (th : Th) (f : IFld) (s : State) (hs : Kept pq fu s) {out : State} (hout : (execBlt th f s) = .next out) :
    Kept pq fu out := by
  unfold execBlt at hout; grind -ring -linarith -ac -order -lia

theorem keeps_execBge (th : Th) (f : IFld) (s : State) (hs : Kept pq fu s) {out : State} (hout : (execBge th f s) = .next out) :
    Kept pq fu out := by
  unfold execBge at hout; grind -ring -linarith -ac -order -lia

theorem keeps_execBltu (th : Th) (f : IFld) (s : State) (hs : Kept pq fu s) {out : State} (hout : (execBltu th f s) = .next out) :
    Kept pq fu out := by
  unfold execBltu at hout; grind -ring -linarith -ac -order -lia

theorem keeps_execBgeu (th : Th) (f : IFld) (s : State) (hs : Kept pq fu s) {out : State} (hout : (execBgeu th f s) = .next out) :
    Kept pq fu out := by
  unfold execBgeu at hout; grind -ring -linarith -ac -order -lia

theorem keeps_execDbnz (th : Th) (f : IFld) (s : State) (hs : Kept pq fu s) {out : State} (hout : (execDbnz th f s) = .next out) :
    Kept pq fu out := by
  unfold execDbnz at hout; grind -ring -linarith -ac -order -lia

theorem keeps_execJal (th : Th) (off : BitVec 28) (s : State) (hs : Kept pq fu s) {out : State} (hout : (execJal th off s) = .next out) :
    Kept pq fu out := by
  grind -ring -linarith -ac -order -lia [execJal]

theorem keeps_execJ (th : Th) (off : BitVec 28) (s : State) (hs : Kept pq fu s) {out : State} (hout : (execJ th off s) = .next out) :
    Kept pq fu out := by
  grind -ring -linarith -ac -order -lia [execJ]

theorem keeps_execJalr (th : Th) (f : IFld) (s : State) (hs : Kept pq fu s) {out : State} (hout : (execJalr th f s) = .next out) :
    Kept pq fu out := by
  unfold execJalr at hout; grind -ring -linarith -ac -order -lia

theorem keeps_execFadd (th : Th) (f : TFld) (s : State) (hs : Kept pq fu s) {out : State} (hout : (execFadd th f s) = .next out) :
    Kept pq fu out := by
  unfold execFadd at hout; grind -ring -linarith -ac -order -lia

theorem keeps_execFsub (th : Th) (f : TFld) (s : State) (hs : Kept pq fu s) {out : State} (hout : (execFsub th f s) = .next out) :
    Kept pq fu out := by
  unfold execFsub at hout; grind -ring -linarith -ac -order -lia

theorem keeps_execFmul (th : Th) (f : TFld) (s : State) (hs : Kept pq fu s) {out : State} (hout : (execFmul th f s) = .next out) :
    Kept pq fu out := by
  unfold execFmul at hout; grind -ring -linarith -ac -order -lia

theorem keeps_execFma (th : Th) (f : TFld) (s : State) (hs : Kept pq fu s) {out : State} (hout : (execFma th f s) = .next out) :
    Kept pq fu out := by
  unfold execFma at hout; grind -ring -linarith -ac -order -lia

theorem keeps_execFms (th : Th) (f : TFld) (s : State) (hs : Kept pq fu s) {out : State} (hout : (execFms th f s) = .next out) :
    Kept pq fu out := by
  unfold execFms at hout; grind -ring -linarith -ac -order -lia

theorem keeps_execFnma (th : Th) (f : TFld) (s : State) (hs : Kept pq fu s) {out : State} (hout : (execFnma th f s) = .next out) :
    Kept pq fu out := by
  unfold execFnma at hout; grind -ring -linarith -ac -order -lia

theorem keeps_execFdiv (th : Th) (f : TFld) (s : State) (hs : Kept pq fu s) {out : State} (hout : (execFdiv th f s) = .next out) :
    Kept pq fu out := by
  unfold execFdiv at hout; grind -ring -linarith -ac -order -lia

theorem keeps_execFsqrt (th : Th) (f : TFld) (s : State) (hs : Kept pq fu s) {out : State} (hout : (execFsqrt th f s) = .next out) :
    Kept pq fu out := by
  unfold execFsqrt at hout; grind -ring -linarith -ac -order -lia

theorem keeps_execFmin (th : Th) (f : TFld) (s : State) (hs : Kept pq fu s) {out : State} (hout : (execFmin th f s) = .next out) :
    Kept pq fu out := by
  unfold execFmin at hout; grind -ring -linarith -ac -order -lia

theorem keeps_execFmax (th : Th) (f : TFld) (s : State) (hs : Kept pq fu s) {out : State} (hout : (execFmax th f s) = .next out) :
    Kept pq fu out := by
  unfold execFmax at hout; grind -ring -linarith -ac -order -lia

theorem keeps_execFabs (th : Th) (f : TFld) (s : State) (hs : Kept pq fu s) {out : State} (hout : (execFabs th f s) = .next out) :
    Kept pq fu out := by
  unfold execFabs at hout; grind -ring -linarith -ac -order -lia

theorem keeps_execFneg (th : Th) (f : TFld) (s : State) (hs : Kept pq fu s) {out : State} (hout : (execFneg th f s) = .next out) :
    Kept pq fu out := by
  unfold execFneg at hout; grind -ring -linarith -ac -order -lia

theorem keeps_execFmov (th : Th) (f : TFld) (s : State) (hs : Kept pq fu s) {out : State} (hout : (execFmov th f s) = .next out) :
    Kept pq fu out := by
  unfold execFmov at hout; grind -ring -linarith -ac -order -lia

theorem keeps_execFrint (th : Th) (f : TFld) (s : State) (hs : Kept pq fu s) {out : State} (hout : (execFrint th f s) = .next out) :
    Kept pq fu out := by
  unfold execFrint at hout; grind -ring -linarith -ac -order -lia

theorem keeps_execFcmpeq (th : Th) (f : TFld) (s : State) (hs : Kept pq fu s) {out : State} (hout : (execFcmpeq th f s) = .next out) :
    Kept pq fu out := by
  unfold execFcmpeq at hout; grind -ring -linarith -ac -order -lia

theorem keeps_execFcmplt (th : Th) (f : TFld) (s : State) (hs : Kept pq fu s) {out : State} (hout : (execFcmplt th f s) = .next out) :
    Kept pq fu out := by
  unfold execFcmplt at hout; grind -ring -linarith -ac -order -lia

theorem keeps_execFcmple (th : Th) (f : TFld) (s : State) (hs : Kept pq fu s) {out : State} (hout : (execFcmple th f s) = .next out) :
    Kept pq fu out := by
  unfold execFcmple at hout; grind -ring -linarith -ac -order -lia

theorem keeps_execFcmpun (th : Th) (f : TFld) (s : State) (hs : Kept pq fu s) {out : State} (hout : (execFcmpun th f s) = .next out) :
    Kept pq fu out := by
  unfold execFcmpun at hout; grind -ring -linarith -ac -order -lia

theorem keeps_execFcvtsd (th : Th) (f : TFld) (s : State) (hs : Kept pq fu s) {out : State} (hout : (execFcvtsd th f s) = .next out) :
    Kept pq fu out := by
  unfold execFcvtsd at hout; grind -ring -linarith -ac -order -lia

theorem keeps_execFcvtds (th : Th) (f : TFld) (s : State) (hs : Kept pq fu s) {out : State} (hout : (execFcvtds th f s) = .next out) :
    Kept pq fu out := by
  unfold execFcvtds at hout; grind -ring -linarith -ac -order -lia

theorem keeps_execFcvtis (th : Th) (f : TFld) (s : State) (hs : Kept pq fu s) {out : State} (hout : (execFcvtis th f s) = .next out) :
    Kept pq fu out := by
  unfold execFcvtis at hout; grind -ring -linarith -ac -order -lia

theorem keeps_execFcvtid (th : Th) (f : TFld) (s : State) (hs : Kept pq fu s) {out : State} (hout : (execFcvtid th f s) = .next out) :
    Kept pq fu out := by
  unfold execFcvtid at hout; grind -ring -linarith -ac -order -lia

theorem keeps_execFcvtsi (th : Th) (f : TFld) (s : State) (hs : Kept pq fu s) {out : State} (hout : (execFcvtsi th f s) = .next out) :
    Kept pq fu out := by
  unfold execFcvtsi at hout; grind -ring -linarith -ac -order -lia

theorem keeps_execFcvtdi (th : Th) (f : TFld) (s : State) (hs : Kept pq fu s) {out : State} (hout : (execFcvtdi th f s) = .next out) :
    Kept pq fu out := by
  unfold execFcvtdi at hout; grind -ring -linarith -ac -order -lia

theorem keeps_execFmvgfL (th : Th) (f : TFld) (s : State) (hs : Kept pq fu s) {out : State} (hout : (execFmvgfL th f s) = .next out) :
    Kept pq fu out := by
  unfold execFmvgfL at hout; grind -ring -linarith -ac -order -lia

theorem keeps_execFmvgfH (th : Th) (f : TFld) (s : State) (hs : Kept pq fu s) {out : State} (hout : (execFmvgfH th f s) = .next out) :
    Kept pq fu out := by
  unfold execFmvgfH at hout; grind -ring -linarith -ac -order -lia

theorem keeps_execFmvfgL (th : Th) (f : TFld) (s : State) (hs : Kept pq fu s) {out : State} (hout : (execFmvfgL th f s) = .next out) :
    Kept pq fu out := by
  unfold execFmvfgL at hout; grind -ring -linarith -ac -order -lia

theorem keeps_execFmvfgH (th : Th) (f : TFld) (s : State) (hs : Kept pq fu s) {out : State} (hout : (execFmvfgH th f s) = .next out) :
    Kept pq fu out := by
  unfold execFmvfgH at hout; grind -ring -linarith -ac -order -lia

theorem keeps_execEret (th : Th) (f : TFld) (s : State) (hs : Kept pq fu s) {out : State} (hout : (execEret th f s) = .next out) :
    Kept pq fu out := by
  unfold execEret at hout; grind -ring -linarith -ac -order -lia

theorem keeps_execWait (th : Th) (f : TFld) (s : State) (hs : Kept pq fu s) {out : State} (hout : (execWait th f s) = .next out) :
    Kept pq fu out := by
  unfold execWait at hout; grind -ring -linarith -ac -order -lia

theorem keeps_execFbar (th : Th) (f : TFld) (s : State) (hs : Kept pq fu s) {out : State} (hout : (execFbar th f s) = .next out) :
    Kept pq fu out := by
  unfold execFbar at hout; grind -ring -linarith -ac -order -lia

theorem keeps_execVfence (th : Th) (f : TFld) (s : State) (hs : Kept pq fu s) {out : State} (hout : (execVfence th f s) = .next out) :
    Kept pq fu out := by
  unfold execVfence at hout; grind -ring -linarith -ac -order -lia

theorem keeps_execFenceR (th : Th) (f : TFld) (s : State) (hs : Kept pq fu s) {out : State} (hout : (execFenceR th f s) = .next out) :
    Kept pq fu out := by
  unfold execFenceR at hout; grind -ring -linarith -ac -order -lia

theorem keeps_execFenceW (th : Th) (f : TFld) (s : State) (hs : Kept pq fu s) {out : State} (hout : (execFenceW th f s) = .next out) :
    Kept pq fu out := by
  unfold execFenceW at hout; grind -ring -linarith -ac -order -lia

theorem keeps_execFenceRW (th : Th) (f : TFld) (s : State) (hs : Kept pq fu s) {out : State} (hout : (execFenceRW th f s) = .next out) :
    Kept pq fu out := by
  unfold execFenceRW at hout; grind -ring -linarith -ac -order -lia

theorem keeps_execTlbsync (th : Th) (f : TFld) (s : State) (hs : Kept pq fu s) {out : State} (hout : (execTlbsync th f s) = .next out) :
    Kept pq fu out := by
  unfold execTlbsync at hout; grind -ring -linarith -ac -order -lia

theorem keeps_execAfence (th : Th) (f : TFld) (s : State) (hs : Kept pq fu s) {out : State} (hout : (execAfence th f s) = .next out) :
    Kept pq fu out := by
  unfold execAfence at hout; grind -ring -linarith -ac -order -lia

theorem keeps_execWrpkr (th : Th) (f : TFld) (s : State) (hs : Kept pq fu s) {out : State} (hout : (execWrpkr th f s) = .next out) :
    Kept pq fu out := by
  unfold execWrpkr at hout; grind -ring -linarith -ac -order -lia

theorem keeps_execSetvl (th : Th) (f : TFld) (s : State) (hs : Kept pq fu s) {out : State} (hout : (execSetvl th f s) = .next out) :
    Kept pq fu out := by
  unfold execSetvl at hout; grind -ring -linarith -ac -order -lia

theorem keeps_execSetvli (th : Th) (f : IFld) (s : State) (hs : Kept pq fu s) {out : State} (hout : (execSetvli th f s) = .next out) :
    Kept pq fu out := by
  unfold execSetvli at hout; grind -ring -linarith -ac -order -lia

theorem keeps_execSetsvl (th : Th) (f : TFld) (s : State) (hs : Kept pq fu s) {out : State} (hout : (execSetsvl th f s) = .next out) :
    Kept pq fu out := by
  unfold execSetsvl at hout; grind -ring -linarith -ac -order -lia

theorem keeps_execTlbinv (th : Th) (f : TFld) (s : State) (hs : Kept pq fu s) {out : State} (hout : (execTlbinv th f s) = .next out) :
    Kept pq fu out := by
  unfold execTlbinv at hout; grind -ring -linarith -ac -order -lia

theorem keeps_execTlbinvall (th : Th) (f : TFld) (s : State) (hs : Kept pq fu s) {out : State} (hout : (execTlbinvall th f s) = .next out) :
    Kept pq fu out := by
  unfold execTlbinvall at hout; grind -ring -linarith -ac -order -lia

theorem keeps_execMfsr (th : Th) (f : IFld) (s : State) (hs : Kept pq fu s) {out : State} (hout : (execMfsr th f s) = .next out) :
    Kept pq fu out := by
  unfold execMfsr at hout; grind -ring -linarith -ac -order -lia

theorem keeps_execMtsr (th : Th) (f : IFld) (s : State) (hs : Kept pq fu s) {out : State} (hout : (execMtsr th f s) = .next out) :
    Kept pq fu out := by
  unfold execMtsr at hout; grind -ring -linarith -ac -order -lia

theorem keeps_execVectorIssue (th : Th) (v : VFld) (s : State) (hs : Kept pq fu s) {out : State} (hout : (execVectorIssue th v s) = .next out) :
    Kept pq fu out := by
  grind -ring -linarith -ac -order -lia [execVectorIssue]

theorem keeps_execVchain (th : Th) (f : TFld) (s : State) (hs : Kept pq fu s) {out : State} (hout : (execVchain th f s) = .next out) :
    Kept pq fu out := by
  unfold execVchain at hout; grind -ring -linarith -ac -order -lia

theorem keeps_execVsusp (th : Th) (f : TFld) (s : State) (hs : Kept pq fu s) {out : State} (hout : (execVsusp th f s) = .next out) :
    Kept pq fu out := by
  unfold execVsusp at hout; grind -ring -linarith -ac -order -lia

theorem keeps_execVresume (th : Th) (f : TFld) (s : State) (hs : Kept pq fu s) {out : State} (hout : (execVresume th f s) = .next out) :
    Kept pq fu out := by
  unfold execVresume at hout; grind -ring -linarith -ac -order -lia

end Sys2Proof.Machine
end

