-- ==== Sys2Proof/Laws/KeepPorts.lean ====
section
/-! SUPPORT. No operation of Machine/Ports.lean touches the queue, the fuses, or the canonical form of memory: one lemma each. -/
namespace Sys2Proof.Machine

variable {pq : List Instr} {fu : Fus}

set_option Elab.async false

theorem keeps_askDone (s : State) (n : Nat) (a : Asked) (ws : List (Word × Bool)) (hs : Kept pq fu s) :
    Kept pq fu (askDone s n a ws) := by
  grind -ring -linarith -ac -order -lia [askDone]
grind_pattern keeps_askDone => Kept pq fu s, askDone s n a ws

theorem keeps_askFails (s : State) (n : Nat) (write : Bool) (a : Asked) (hs : Kept pq fu s) :
    Kept pq fu (askFails s n write a) := by
  grind -ring -linarith -ac -order -lia [askFails]
grind_pattern keeps_askFails => Kept pq fu s, askFails s n write a

theorem keeps_refuseAsk (n : Nat) (write : Bool) (s : State) (a : Asked) (hs : Kept pq fu s) :
    Kept pq fu (refuseAsk n write s a) := by
  grind -ring -linarith -ac -order -lia [refuseAsk]
grind_pattern keeps_refuseAsk => Kept pq fu s, refuseAsk n write s a

theorem keeps_portPerform (s : State) (n : Nat) (write : Bool) (a : Asked) (hs : Kept pq fu s) :
    Kept pq fu (portPerform s n write a) := by
  grind -ring -linarith -ac -order -lia [portPerform]
grind_pattern keeps_portPerform => Kept pq fu s, portPerform s n write a

theorem keeps_portArbitrate (s : State) (n : Nat) (write : Bool) (rs : List PortReq) (hs : Kept pq fu s) :
    Kept pq fu (portArbitrate s n write rs).1 := by
  grind -ring -linarith -ac -order -lia [portArbitrate]
grind_pattern keeps_portArbitrate => Kept pq fu s, portArbitrate s n write rs

theorem keeps_bankCycle (s : State) (n : Nat) (reads writes : List PortReq) (hs : Kept pq fu s) :
    Kept pq fu (bankCycle s n reads writes) := by
  grind -ring -linarith -ac -order -lia [bankCycle]
grind_pattern keeps_bankCycle => Kept pq fu s, bankCycle s n reads writes

theorem keeps_bankAccess (op : BankOp) (s : State) (hs : Kept pq fu s) :
    Kept pq fu (bankAccess op s) := by
  unfold bankAccess; grind -ring -linarith -ac -order -lia
grind_pattern keeps_bankAccess => Kept pq fu s, bankAccess op s

theorem keeps_execBankAccess (op : BankOp) (s : State) (hs : Kept pq fu s) {out : State} (hout : (execBankAccess op s) = .next out) :
    Kept pq fu out := by
  grind -ring -linarith -ac -order -lia [execBankAccess]

theorem keeps_starvationPromotion (n : Fin 1024) (write : Bool) (req : PortReq) (others : List PortReq) (s : State) (hs : Kept pq fu s) :
    Kept pq fu (starvationPromotion n write req others s) := by
  grind -ring -linarith -ac -order -lia [starvationPromotion]
grind_pattern keeps_starvationPromotion => Kept pq fu s, starvationPromotion n write req others s

theorem keeps_execStarvationPromotion (n : Fin 1024) (write : Bool) (req : PortReq) (others : List PortReq) (s : State) (hs : Kept pq fu s) {out : State} (hout : (execStarvationPromotion n write req others s) = .next out) :
    Kept pq fu out := by
  grind -ring -linarith -ac -order -lia [execStarvationPromotion]

end Sys2Proof.Machine
end

