-- ==== Sys2Proof/Laws/KeepTick.lean ====
section
/-! SUPPORT. No operation of Machine/Tick.lean touches the queue, the fuses, or the canonical form of memory: one lemma each. -/
namespace Sys2Proof.Machine

variable {pq : List Instr} {fu : Fus}

set_option Elab.async false

theorem keeps_emptySlots (s : State) (l : Fin 16) (hs : Kept pq fu s) :
    Kept pq fu (emptySlots s l) := by
  grind -ring -linarith -ac -order -lia [emptySlots]
grind_pattern keeps_emptySlots => Kept pq fu s, emptySlots s l

theorem keeps_tick (s : State) (hs : Kept pq fu s) : Kept pq fu (tick s) := by
  unfold tick
  split
  · exact kept_foldl _ _ _ (keeps_resumeWaiting _ (keeps_passTicks _ _ _ _ hs)) (fun s l h => keeps_emptySlots _ _ h)
  · exact hs
grind_pattern keeps_tick => Kept pq fu s, tick s

end Sys2Proof.Machine
end

