-- ==== Sys2Proof/Laws/PerInstr.lean ====
section
/-! SUPPORT. One family over all commands: an instruction that some word spells is well formed, so that whatever a core reads from memory may be
commanded. -/
namespace Sys2Proof.Laws.Spelled
open Sys2Proof Sys2Proof.Machine

set_option Elab.async false

/-- An instruction that a word spells is a well-formed command (R195, R198). -/
def Statement (i : Instr) : Prop := ∀ p, instrWord i = some p → i.wf = true

theorem add : ∀ x0 x1, Statement (.add x0 x1) := fun _ _ _ _ => rfl
theorem sub : ∀ x0 x1, Statement (.sub x0 x1) := fun _ _ _ _ => rfl
theorem andG : ∀ x0 x1, Statement (.andG x0 x1) := fun _ _ _ _ => rfl
theorem orG : ∀ x0 x1, Statement (.orG x0 x1) := fun _ _ _ _ => rfl
theorem xorG : ∀ x0 x1, Statement (.xorG x0 x1) := fun _ _ _ _ => rfl
theorem andn : ∀ x0 x1, Statement (.andn x0 x1) := fun _ _ _ _ => rfl
theorem shl : ∀ x0 x1, Statement (.shl x0 x1) := fun _ _ _ _ => rfl
theorem shr : ∀ x0 x1, Statement (.shr x0 x1) := fun _ _ _ _ => rfl
theorem shra : ∀ x0 x1, Statement (.shra x0 x1) := fun _ _ _ _ => rfl
theorem rol : ∀ x0 x1, Statement (.rol x0 x1) := fun _ _ _ _ => rfl
theorem slt : ∀ x0 x1, Statement (.slt x0 x1) := fun _ _ _ _ => rfl
theorem sltu : ∀ x0 x1, Statement (.sltu x0 x1) := fun _ _ _ _ => rfl
theorem seq : ∀ x0 x1, Statement (.seq x0 x1) := fun _ _ _ _ => rfl
theorem minG : ∀ x0 x1, Statement (.minG x0 x1) := fun _ _ _ _ => rfl
theorem maxG : ∀ x0 x1, Statement (.maxG x0 x1) := fun _ _ _ _ => rfl
theorem minu : ∀ x0 x1, Statement (.minu x0 x1) := fun _ _ _ _ => rfl
theorem maxu : ∀ x0 x1, Statement (.maxu x0 x1) := fun _ _ _ _ => rfl
theorem clz : ∀ x0 x1, Statement (.clz x0 x1) := fun _ _ _ _ => rfl
theorem popc : ∀ x0 x1, Statement (.popc x0 x1) := fun _ _ _ _ => rfl
theorem addi : ∀ x0 x1, Statement (.addi x0 x1) := fun _ _ _ _ => rfl
theorem andi : ∀ x0 x1, Statement (.andi x0 x1) := fun _ _ _ _ => rfl
theorem ori : ∀ x0 x1, Statement (.ori x0 x1) := fun _ _ _ _ => rfl
theorem xori : ∀ x0 x1, Statement (.xori x0 x1) := fun _ _ _ _ => rfl
theorem slti : ∀ x0 x1, Statement (.slti x0 x1) := fun _ _ _ _ => rfl
theorem sltiu : ∀ x0 x1, Statement (.sltiu x0 x1) := fun _ _ _ _ => rfl
theorem shifti : ∀ x0 x1, Statement (.shifti x0 x1) := fun _ _ _ _ => rfl
theorem lui : ∀ x0 x1, Statement (.lui x0 x1) := fun _ _ _ _ => rfl
theorem mul : ∀ x0 x1, Statement (.mul x0 x1) := fun _ _ _ _ => rfl
theorem mulu : ∀ x0 x1, Statement (.mulu x0 x1) := fun _ _ _ _ => rfl
theorem madd : ∀ x0 x1, Statement (.madd x0 x1) := fun _ _ _ _ => rfl
theorem maddu : ∀ x0 x1, Statement (.maddu x0 x1) := fun _ _ _ _ => rfl
theorem productWrite : ∀ x0, Statement (.productWrite x0) := fun _ _ _ => rfl
theorem div : ∀ x0 x1, Statement (.div x0 x1) := fun _ _ _ _ => rfl
theorem divu : ∀ x0 x1, Statement (.divu x0 x1) := fun _ _ _ _ => rfl
theorem rem : ∀ x0 x1, Statement (.rem x0 x1) := fun _ _ _ _ => rfl
theorem remu : ∀ x0 x1, Statement (.remu x0 x1) := fun _ _ _ _ => rfl
theorem divideDone : ∀ x0, Statement (.divideDone x0) := fun _ _ _ => rfl
theorem lw : ∀ x0 x1, Statement (.lw x0 x1) := fun _ _ _ _ => rfl
theorem ln : ∀ x0 x1, Statement (.ln x0 x1) := fun _ _ _ _ => rfl
theorem lfs : ∀ x0 x1, Statement (.lfs x0 x1) := fun _ _ _ _ => rfl
theorem lf : ∀ x0 x1, Statement (.lf x0 x1) := fun _ _ _ _ => rfl
theorem sw : ∀ x0 x1, Statement (.sw x0 x1) := fun _ _ _ _ => rfl
theorem sn : ∀ x0 x1, Statement (.sn x0 x1) := fun _ _ _ _ => rfl
theorem sfs : ∀ x0 x1, Statement (.sfs x0 x1) := fun _ _ _ _ => rfl
theorem sf : ∀ x0 x1, Statement (.sf x0 x1) := fun _ _ _ _ => rfl
theorem swm : ∀ x0 x1, Statement (.swm x0 x1) := fun _ _ _ _ => rfl
theorem ldd : ∀ x0 x1, Statement (.ldd x0 x1) := fun _ _ _ _ => rfl
theorem stdd : ∀ x0 x1, Statement (.stdd x0 x1) := fun _ _ _ _ => rfl
theorem mtd : ∀ x0 x1, Statement (.mtd x0 x1) := fun _ _ _ _ => rfl
theorem mfd : ∀ x0 x1, Statement (.mfd x0 x1) := fun _ _ _ _ => rfl
theorem loadComplete : ∀ x0 x1, Statement (.loadComplete x0 x1) := fun _ _ _ h => nomatch h
theorem beq : ∀ x0 x1, Statement (.beq x0 x1) := fun _ _ _ _ => rfl
theorem bne : ∀ x0 x1, Statement (.bne x0 x1) := fun _ _ _ _ => rfl
theorem blt : ∀ x0 x1, Statement (.blt x0 x1) := fun _ _ _ _ => rfl
theorem bge : ∀ x0 x1, Statement (.bge x0 x1) := fun _ _ _ _ => rfl
theorem bltu : ∀ x0 x1, Statement (.bltu x0 x1) := fun _ _ _ _ => rfl
theorem bgeu : ∀ x0 x1, Statement (.bgeu x0 x1) := fun _ _ _ _ => rfl
theorem dbnz : ∀ x0 x1, Statement (.dbnz x0 x1) := fun _ _ _ _ => rfl
theorem jal : ∀ x0 x1, Statement (.jal x0 x1) := fun _ _ _ _ => rfl
theorem j : ∀ x0 x1, Statement (.j x0 x1) := fun _ _ _ _ => rfl
theorem jalr : ∀ x0 x1, Statement (.jalr x0 x1) := fun _ _ _ _ => rfl
theorem fadd : ∀ x0 x1, Statement (.fadd x0 x1) := fun _ _ _ _ => rfl
theorem fsub : ∀ x0 x1, Statement (.fsub x0 x1) := fun _ _ _ _ => rfl
theorem fmul : ∀ x0 x1, Statement (.fmul x0 x1) := fun _ _ _ _ => rfl
theorem fma : ∀ x0 x1, Statement (.fma x0 x1) := fun _ _ _ _ => rfl
theorem fms : ∀ x0 x1, Statement (.fms x0 x1) := fun _ _ _ _ => rfl
theorem fnma : ∀ x0 x1, Statement (.fnma x0 x1) := fun _ _ _ _ => rfl
theorem fdiv : ∀ x0 x1, Statement (.fdiv x0 x1) := fun _ _ _ _ => rfl
theorem fsqrt : ∀ x0 x1, Statement (.fsqrt x0 x1) := fun _ _ _ _ => rfl
theorem fmin : ∀ x0 x1, Statement (.fmin x0 x1) := fun _ _ _ _ => rfl
theorem fmax : ∀ x0 x1, Statement (.fmax x0 x1) := fun _ _ _ _ => rfl
theorem fabs : ∀ x0 x1, Statement (.fabs x0 x1) := fun _ _ _ _ => rfl
theorem fneg : ∀ x0 x1, Statement (.fneg x0 x1) := fun _ _ _ _ => rfl
theorem fmov : ∀ x0 x1, Statement (.fmov x0 x1) := fun _ _ _ _ => rfl
theorem frint : ∀ x0 x1, Statement (.frint x0 x1) := fun _ _ _ _ => rfl
theorem fcmpeq : ∀ x0 x1, Statement (.fcmpeq x0 x1) := fun _ _ _ _ => rfl
theorem fcmplt : ∀ x0 x1, Statement (.fcmplt x0 x1) := fun _ _ _ _ => rfl
theorem fcmple : ∀ x0 x1, Statement (.fcmple x0 x1) := fun _ _ _ _ => rfl
theorem fcmpun : ∀ x0 x1, Statement (.fcmpun x0 x1) := fun _ _ _ _ => rfl
theorem fcvtsd : ∀ x0 x1, Statement (.fcvtsd x0 x1) := fun _ _ _ _ => rfl
theorem fcvtds : ∀ x0 x1, Statement (.fcvtds x0 x1) := fun _ _ _ _ => rfl
theorem fcvtis : ∀ x0 x1, Statement (.fcvtis x0 x1) := fun _ _ _ _ => rfl
theorem fcvtid : ∀ x0 x1, Statement (.fcvtid x0 x1) := fun _ _ _ _ => rfl
theorem fcvtsi : ∀ x0 x1, Statement (.fcvtsi x0 x1) := fun _ _ _ _ => rfl
theorem fcvtdi : ∀ x0 x1, Statement (.fcvtdi x0 x1) := fun _ _ _ _ => rfl
theorem fmvgfL : ∀ x0 x1, Statement (.fmvgfL x0 x1) := fun _ _ _ _ => rfl
theorem fmvgfH : ∀ x0 x1, Statement (.fmvgfH x0 x1) := fun _ _ _ _ => rfl
theorem fmvfgL : ∀ x0 x1, Statement (.fmvfgL x0 x1) := fun _ _ _ _ => rfl
theorem fmvfgH : ∀ x0 x1, Statement (.fmvfgH x0 x1) := fun _ _ _ _ => rfl
theorem fpCompletion : ∀ x0, Statement (.fpCompletion x0) := fun _ _ _ => rfl
theorem fptrap : ∀ x0, Statement (.fptrap x0) := fun _ _ _ => rfl
theorem eret : ∀ x0 x1, Statement (.eret x0 x1) := fun _ _ _ _ => rfl
theorem wait : ∀ x0 x1, Statement (.wait x0 x1) := fun _ _ _ _ => rfl
theorem waitWake : ∀ x0, Statement (.waitWake x0) := fun _ _ _ => rfl
theorem fbar : ∀ x0 x1, Statement (.fbar x0 x1) := fun _ _ _ _ => rfl
theorem vfence : ∀ x0 x1, Statement (.vfence x0 x1) := fun _ _ _ _ => rfl
theorem fenceR : ∀ x0 x1, Statement (.fenceR x0 x1) := fun _ _ _ _ => rfl
theorem fenceW : ∀ x0 x1, Statement (.fenceW x0 x1) := fun _ _ _ _ => rfl
theorem fenceRW : ∀ x0 x1, Statement (.fenceRW x0 x1) := fun _ _ _ _ => rfl
theorem tlbsync : ∀ x0 x1, Statement (.tlbsync x0 x1) := fun _ _ _ _ => rfl
theorem afence : ∀ x0 x1, Statement (.afence x0 x1) := fun _ _ _ _ => rfl
theorem fenceComplete : ∀ x0, Statement (.fenceComplete x0) := fun _ _ _ => rfl
theorem wrpkr : ∀ x0 x1, Statement (.wrpkr x0 x1) := fun _ _ _ _ => rfl
theorem setvl : ∀ x0 x1, Statement (.setvl x0 x1) := fun _ _ _ _ => rfl
theorem setvli : ∀ x0 x1, Statement (.setvli x0 x1) := fun _ _ _ _ => rfl
theorem setsvl : ∀ x0 x1, Statement (.setsvl x0 x1) := fun _ _ _ _ => rfl
theorem vchain : ∀ x0 x1, Statement (.vchain x0 x1) := fun _ _ _ _ => rfl
theorem vsusp : ∀ x0 x1, Statement (.vsusp x0 x1) := fun _ _ _ _ => rfl
theorem vresume : ∀ x0 x1, Statement (.vresume x0 x1) := fun _ _ _ _ => rfl
theorem tlbinv : ∀ x0 x1, Statement (.tlbinv x0 x1) := fun _ _ _ _ => rfl
theorem tlbinvall : ∀ x0 x1, Statement (.tlbinvall x0 x1) := fun _ _ _ _ => rfl
theorem mfsr : ∀ x0 x1, Statement (.mfsr x0 x1) := fun _ _ _ _ => rfl
theorem mtsr : ∀ x0 x1, Statement (.mtsr x0 x1) := fun _ _ _ _ => rfl
theorem syscall : ∀ x0 x1, Statement (.syscall x0 x1) := fun _ _ _ _ => rfl
theorem vectorIssue : ∀ x0 x1, Statement (.vectorIssue x0 x1) := fun _ _ _ _ => rfl
theorem interruptEntry : ∀ x0, Statement (.interruptEntry x0) := fun _ _ _ => rfl
theorem upcall : ∀ x0, Statement (.upcall x0) := fun _ _ _ => rfl
theorem mwdog : ∀ x0, Statement (.mwdog x0) := fun _ _ _ => rfl
theorem lthCorecfgWrite : ∀ x0 x1 x2, Statement (.lthCorecfgWrite x0 x1 x2) := fun _ _ _ _ _ => rfl
theorem corecfgDrainEnd : ∀ x0, Statement (.corecfgDrainEnd x0) := fun _ _ _ => rfl
theorem groupStart : ∀ x0, Statement (.groupStart x0) := fun _ _ _ => rfl
theorem groupEnd : ∀ x0, Statement (.groupEnd x0) := fun _ _ _ => rfl
theorem spnCtlSusp : ∀ x0 x1, Statement (.spnCtlSusp x0 x1) := fun _ _ _ _ => rfl
theorem spnCtlAbort : ∀ x0 x1, Statement (.spnCtlAbort x0 x1) := fun _ _ _ _ => rfl
theorem bankAccess : ∀ x0, Statement (.bankAccess x0) := fun _ _ h => nomatch h
theorem starvationPromotion : ∀ x0 x1 x2 x3, Statement (.starvationPromotion x0 x1 x2 x3) := fun _ _ _ _ _ h => nomatch h
theorem bnkOwnWrite : ∀ x0 x1 x2, Statement (.bnkOwnWrite x0 x1 x2) := fun _ _ _ _ _ => rfl
theorem handoverDrainEnd : ∀ x0, Statement (.handoverDrainEnd x0) := fun _ _ _ => rfl
theorem bankWatchdog : ∀ x0 x1, Statement (.bankWatchdog x0 x1) := fun _ _ _ _ => rfl
theorem bnkCfgWrite : ∀ x0 x1 x2, Statement (.bnkCfgWrite x0 x1 x2) := fun _ _ _ _ _ => rfl
theorem skewDrainEnd : ∀ x0, Statement (.skewDrainEnd x0) := fun _ _ _ => rfl
theorem lock : ∀ x0, Statement (.lock x0) := fun _ _ _ => rfl
theorem release : ∀ x0, Statement (.release x0) := fun _ _ _ => rfl
theorem sealLockDrainEnd : ∀ x0, Statement (.sealLockDrainEnd x0) := fun _ _ _ => rfl
theorem scrubRead : ∀ x0, Statement (.scrubRead x0) := fun _ _ _ => rfl
theorem scrubWriteback : ∀ x0, Statement (.scrubWriteback x0) := fun _ _ _ => rfl
theorem marchGo : ∀ x0 x1, Statement (.marchGo x0 x1) := fun _ _ _ _ => rfl
theorem marchGroupDone : ∀ x0, Statement (.marchGroupDone x0) := fun _ _ h => nomatch h
theorem bgTestRegion : ∀ x0 x1, Statement (.bgTestRegion x0 x1) := fun _ _ _ _ => rfl
theorem elogPop : ∀ x0, Statement (.elogPop x0) := fun _ _ _ => rfl
theorem fabricGrant : ∀ x0 x1, Statement (.fabricGrant x0 x1) := fun _ _ _ h => nomatch h
theorem fabricTimeout : ∀ x0 x1 x2, Statement (.fabricTimeout x0 x1 x2) := fun _ _ _ _ _ => rfl
theorem lateAck : Statement .lateAck := fun _ _ => rfl
theorem heldEventPass : ∀ x0, Statement (.heldEventPass x0) := fun _ _ _ => rfl
theorem rememberedTrigger : ∀ x0, Statement (.rememberedTrigger x0) := fun _ _ _ => rfl
theorem evfFire : ∀ x0 x1, Statement (.evfFire x0 x1) := fun _ _ _ _ => rfl
theorem lutFilterExpiry : ∀ x0, Statement (.lutFilterExpiry x0) := fun _ _ _ => rfl
theorem timer : ∀ x0, Statement (.timer x0) := fun _ _ _ => rfl
theorem eventPin : ∀ x0 x1, Statement (.eventPin x0 x1) := fun _ _ _ _ => rfl
theorem pinPulseEnd : ∀ x0, Statement (.pinPulseEnd x0) := fun _ _ _ => rfl
theorem pps : ∀ x0, Statement (.pps x0) := fun _ _ _ => rfl
theorem ppsTimeout : Statement .ppsTimeout := fun _ _ => rfl
theorem temp : ∀ x0, Statement (.temp x0) := fun _ _ h => nomatch h
theorem overtemp : ∀ x0, Statement (.overtemp x0) := fun _ _ h => nomatch h
theorem leafDigest : ∀ x0 x1 x2 x3, Statement (.leafDigest x0 x1 x2 x3) := fun _ _ _ _ _ h => nomatch h
theorem spongeState : ∀ x0 x1 x2 x3, Statement (.spongeState x0 x1 x2 x3) := fun _ _ _ _ _ _ => rfl
theorem signatureDone : Statement .signatureDone := fun _ _ => rfl
theorem journalWrite : Statement .journalWrite := fun _ _ => rfl
theorem checkpointWritten : Statement .checkpointWritten := fun _ _ => rfl
theorem mramTimeout : ∀ x0, Statement (.mramTimeout x0) := fun _ _ _ => rfl
theorem logTamper : ∀ x0, Statement (.logTamper x0) := fun _ _ _ => rfl
theorem lockdownTamper : ∀ x0, Statement (.lockdownTamper x0) := fun _ _ _ => rfl
theorem wrapKeyZeroise : Statement .wrapKeyZeroise := fun _ _ => rfl
theorem backupTamper : ∀ x0, Statement (.backupTamper x0) := fun _ _ _ => rfl
theorem bondTest : ∀ x0, Statement (.bondTest x0) := fun _ _ _ => rfl
theorem doorbell : ∀ x0 x1 x2, Statement (.doorbell x0 x1 x2) := fun _ _ _ _ _ => rfl
theorem commandAdmission : ∀ x0, Statement (.commandAdmission x0) := fun _ _ _ => rfl
theorem delayedReevaluation : Statement .delayedReevaluation := fun _ _ => rfl
theorem ringcfg : ∀ x0 x1, Statement (.ringcfg x0 x1) := fun _ _ _ _ => rfl
theorem ringhead : ∀ x0 x1, Statement (.ringhead x0 x1) := fun _ _ _ _ => rfl
theorem commandDeadline : ∀ x0, Statement (.commandDeadline x0) := fun _ _ _ => rfl
theorem nop : ∀ x0, Statement (.nop x0) := fun _ _ _ => rfl
theorem instcfg : ∀ x0, Statement (.instcfg x0) := fun _ _ _ => rfl
theorem grant : ∀ x0, Statement (.grant x0) := fun _ _ _ => rfl
theorem grantRevoke : ∀ x0, Statement (.grantRevoke x0) := fun _ _ _ => rfl
theorem instreset : ∀ x0, Statement (.instreset x0) := fun _ _ _ => rfl
theorem query : ∀ x0, Statement (.query x0) := fun _ _ _ => rfl
theorem abort : ∀ x0, Statement (.abort x0) := fun _ _ _ => rfl
theorem dmain : ∀ x0, Statement (.dmain x0) := fun _ _ _ => rfl
theorem dmaout : ∀ x0, Statement (.dmaout x0) := fun _ _ _ => rfl
theorem dmaReadCompletion : ∀ x0 x1, Statement (.dmaReadCompletion x0 x1) := fun _ _ _ h => nomatch h
theorem dmaTransferDone : ∀ x0, Statement (.dmaTransferDone x0) := fun _ _ _ => rfl
theorem run : ∀ x0, Statement (.run x0) := fun _ _ _ => rfl
theorem migrate : ∀ x0, Statement (.migrate x0) := fun _ _ _ => rfl
theorem sealopen : ∀ x0, Statement (.sealopen x0) := fun _ _ _ => rfl
theorem sealslot : ∀ x0, Statement (.sealslot x0) := fun _ _ _ => rfl
theorem sealclose : ∀ x0, Statement (.sealclose x0) := fun _ _ _ => rfl
theorem recfetch : ∀ x0, Statement (.recfetch x0) := fun _ _ _ => rfl
theorem jnlread : ∀ x0, Statement (.jnlread x0) := fun _ _ _ => rfl
theorem jnldrain : ∀ x0, Statement (.jnldrain x0) := fun _ _ _ => rfl
theorem certread : ∀ x0, Statement (.certread x0) := fun _ _ _ => rfl
theorem timeset : ∀ x0, Statement (.timeset x0) := fun _ _ _ => rfl
theorem modeset : ∀ x0, Statement (.modeset x0) := fun _ _ _ => rfl
theorem updload : ∀ x0 x1, Statement (.updload x0 x1) := fun _ _ _ h => nomatch h
theorem updverify : ∀ x0, Statement (.updverify x0) := fun _ _ _ => rfl
theorem updactivate : ∀ x0, Statement (.updactivate x0) := fun _ _ _ => rfl
theorem updconfirm : ∀ x0, Statement (.updconfirm x0) := fun _ _ _ => rfl
theorem flr : ∀ x0, Statement (.flr x0) := fun _ _ _ => rfl
theorem instanceZeroing : ∀ x0, Statement (.instanceZeroing x0) := fun _ _ _ => rfl
theorem zeroingDone : ∀ x0, Statement (.zeroingDone x0) := fun _ _ _ => rfl
theorem hostBar0Read : ∀ x0 x1 x2, Statement (.hostBar0Read x0 x1 x2) := fun _ _ _ _ h => nomatch h
theorem hostBar0Write : ∀ x0 x1 x2 x3, Statement (.hostBar0Write x0 x1 x2 x3) := fun _ _ _ _ _ h => nomatch h
theorem hostBar2Read : ∀ x0 x1, Statement (.hostBar2Read x0 x1) := fun _ _ _ h => nomatch h
theorem hostBar2Write : ∀ x0 x1 x2, Statement (.hostBar2Write x0 x1 x2) := fun _ _ _ _ h => nomatch h
theorem msixUnmask : ∀ x0 x1, Statement (.msixUnmask x0 x1) := fun _ _ _ _ => rfl
theorem completionTimeout : ∀ x0, Statement (.completionTimeout x0) := fun _ _ _ => rfl
theorem dataLinkDown : Statement .dataLinkDown := fun _ _ => rfl
theorem pcieLinkTraining : ∀ x0 x1, Statement (.pcieLinkTraining x0 x1) := fun _ _ _ h => nomatch h
theorem wovasLinkTrained : ∀ x0 x1 x2 x3 x4, Statement (.wovasLinkTrained x0 x1 x2 x3 x4) := fun _ _ _ _ _ _ h => nomatch h
theorem wovasLinkDown : ∀ x0, Statement (.wovasLinkDown x0) := fun _ _ _ => rfl
theorem linkIdleTimeout : ∀ x0, Statement (.linkIdleTimeout x0) := fun _ _ _ => rfl
theorem linkStateMessage : ∀ x0 x1 x2, Statement (.linkStateMessage x0 x1 x2) := fun _ _ _ _ _ => rfl
theorem downNotice : ∀ x0, Statement (.downNotice x0) := fun _ _ _ => rfl
theorem remoteRequest : ∀ x0 x1, Statement (.remoteRequest x0 x1) := fun _ _ _ _ => rfl
theorem remoteReply : ∀ x0 x1 x2, Statement (.remoteReply x0 x1 x2) := fun _ _ _ _ _ => rfl
theorem remoteTimeout : ∀ x0, Statement (.remoteTimeout x0) := fun _ _ _ => rfl
theorem forwardedCommand : ∀ x0 x1 x2, Statement (.forwardedCommand x0 x1 x2) := fun _ _ _ _ h => nomatch h
theorem forwardedEntry : ∀ x0 x1 x2, Statement (.forwardedEntry x0 x1 x2) := fun _ _ _ _ _ => rfl
theorem barrierArrival : ∀ x0 x1 x2 x3, Statement (.barrierArrival x0 x1 x2 x3) := fun _ _ _ _ _ _ => rfl
theorem barrierRelease : ∀ x0 x1, Statement (.barrierRelease x0 x1) := fun _ _ _ _ => rfl
theorem epochMessage : ∀ x0 x1, Statement (.epochMessage x0 x1) := fun _ _ _ _ => rfl
theorem por : Statement .por := fun _ _ => rfl
theorem brownout : Statement .brownout := fun _ _ => rfl
theorem backupSupplyRise : Statement .backupSupplyRise := fun _ _ => rfl
theorem pin : ∀ x0, Statement (.pin x0) := fun _ _ _ => rfl
theorem perst : ∀ x0, Statement (.perst x0) := fun _ _ _ => rfl
theorem hotrst : Statement .hotrst := fun _ _ => rfl
theorem hswdog : Statement .hswdog := fun _ _ => rfl
theorem hslock : Statement .hslock := fun _ _ => rfl
theorem tsfault : Statement .tsfault := fun _ _ => rfl
theorem boottmo : Statement .boottmo := fun _ _ => rfl
theorem update : Statement .update := fun _ _ => rfl
theorem swsys : ∀ x0, Statement (.swsys x0) := fun _ _ _ => rfl
theorem swcore : ∀ x0, Statement (.swcore x0) := fun _ _ _ => rfl
theorem swlathe : ∀ x0 x1, Statement (.swlathe x0 x1) := fun _ _ _ _ => rfl
theorem lockup : ∀ x0, Statement (.lockup x0) := fun _ _ _ => rfl
theorem boot : ∀ x0, Statement (.boot x0) := fun _ _ h => nomatch h
theorem confirm : ∀ x0, Statement (.confirm x0) := fun _ _ _ => rfl
theorem kick : ∀ x0, Statement (.kick x0) := fun _ _ _ => rfl
theorem wake : ∀ x0, Statement (.wake x0) := fun _ _ _ => rfl
theorem jnlHeadlRead : ∀ x0 x1, Statement (.jnlHeadlRead x0 x1) := fun _ _ _ _ => rfl
theorem hello : Statement .hello := fun _ _ => rfl
theorem chal : Statement .chal := fun _ _ => rfl
theorem auth : ∀ x0, Statement (.auth x0) := fun _ _ h => nomatch h
theorem halt : ∀ x0 x1, Statement (.halt x0 x1) := fun _ _ _ _ => rfl
theorem haltTakesEffect : ∀ x0, Statement (.haltTakesEffect x0) := fun _ _ _ => rfl
theorem resume : ∀ x0 x1, Statement (.resume x0 x1) := fun _ _ _ _ => rfl
theorem step : ∀ x0, Statement (.step x0) := fun _ _ _ => rfl
theorem rdreg : ∀ x0 x1, Statement (.rdreg x0 x1) := fun _ _ _ _ => rfl
theorem wrreg : ∀ x0 x1 x2, Statement (.wrreg x0 x1 x2) := fun _ _ _ _ h => nomatch h
theorem exec : ∀ x0 x1, Statement (.exec x0 x1) := fun _ _ _ _ => rfl
theorem rdcsr : ∀ x0, Statement (.rdcsr x0) := fun _ _ _ => rfl
theorem wrcsr : ∀ x0 x1, Statement (.wrcsr x0 x1) := fun _ _ _ _ => rfl
theorem resetreq : ∀ x0, Statement (.resetreq x0) := fun _ _ _ => rfl
theorem close : Statement .close := fun _ _ => rfl
theorem frameTimeout : Statement .frameTimeout := fun _ _ => rfl
theorem sessionExpiry : Statement .sessionExpiry := fun _ _ => rfl
theorem registerWrite : ∀ x0 x1 x2 x3, Statement (.registerWrite x0 x1 x2 x3) := fun _ _ _ _ _ _ => rfl
theorem backupSupplyLoss : Statement .backupSupplyLoss := fun _ _ => rfl
theorem tamperConditionEnd : ∀ x0, Statement (.tamperConditionEnd x0) := fun _ _ _ => rfl
theorem headstockLockup : Statement .headstockLockup := fun _ _ => rfl
theorem instructionFetchComplete : ∀ x0, Statement (.instructionFetchComplete x0) := fun _ _ _ => rfl
theorem lockBindingHashDone : ∀ x0 x1, Statement (.lockBindingHashDone x0 x1) := fun _ _ _ _ => rfl
theorem copiedRangeRoot : ∀ x0 x1 x2 x3, Statement (.copiedRangeRoot x0 x1 x2 x3) := fun _ _ _ _ _ h => nomatch h
theorem epochAcknowledgement : ∀ x0 x1, Statement (.epochAcknowledgement x0 x1) := fun _ _ _ _ => rfl
theorem incarnationAnnouncement : ∀ x0 x1, Statement (.incarnationAnnouncement x0 x1) := fun _ _ _ _ => rfl
theorem framingError : Statement .framingError := fun _ _ => rfl
theorem brk : Statement .brk := fun _ _ => rfl
theorem badRequestFrame : ∀ x0, Statement (.badRequestFrame x0) := fun _ _ _ => rfl
theorem configurationRequest : ∀ x0 x1 x2 x3, Statement (.configurationRequest x0 x1 x2 x3) := fun _ _ _ _ _ h => nomatch h
theorem backgroundSlotCheck : Statement .backgroundSlotCheck := fun _ _ => rfl

end Sys2Proof.Laws.Spelled
end

