-- ==== Sys2Proof/Tests/Slice0.lean ====
section
/-! SUPPORT. Small tests of the model: commands that are ill formed, words of the manual, one step of some commands, and for every obligation with
hypotheses a state and operands that meet them (theorems `witness_...`; where an obligation has clauses, one conjunct for each). -/
namespace Sys2Proof.Tests
open Sys2Proof Sys2Proof.Machine

set_option Elab.async false

/-! ## Small states -/

/-- A device that has booted into Open mode, its link up and its journal taking entries. -/
def up : State :=
  { pwr := { mode := 6 }, rst := { conf := true, hswdEn := true, hswdCount := 1000, inProgress := none }, jnl := { resolved := true },
    pci := { up := true, functionsUp := true, vfEnable := true } }

def th : Th := ⟨3, 2⟩
def r : SlotRef := ⟨2, 0, 1⟩

/-- Thread 2 of lathe 3 of a device changed, with the threads of its lathe enabled and its caches off. -/
def withThr (f : Thread → Thread) (s : State := up) : State :=
  (s.modLathe 3 (fun x => { x with ten := 0xFF, icoff := true, dcoff := true })).modThr th (fun t => { f t with started := true })

/-- That thread about to issue a word. -/
def about (w : Word) (f : Thread → Thread := id) (s : State := up) : State := withThr (fun t => { f t with fetched := [((f t).pc, w)] }) s

def outcome (o : Host.Outcome State Fault Refusal) : State :=
  match o with
  | .next t => t
  | _ => {}

/-- Whether that thread issues a word next. -/
def readyIn (s : State) (w : Word) : Bool := (nextSlot s th).isSome && (s.thr th).word = some w && (fetchHit s th).isNone
def issues (w : Word) (f : Thread → Thread := id) : Bool := readyIn (about w f) w

theorem issues_slot (s : State) (w : Word) : readyIn s w = true ↔ ∃ n, Issues s th w n := by
  simp [readyIn, Issues, Option.isSome_iff_exists, and_assoc]

/-- The state in which its operation is performed. -/
def slotted (s : State) : State := inSlot s th ((nextSlot s th).getD 0)

def k8 (n : Nat) (ws : List Nat) : List Octet := ws.flatMap (fun v => (List.range n).map (fun j => BitVec.ofNat 8 (v / 256 ^ j)))

/-- The 64 octets of a command: opcode, no flags, a tag, a deadline of 1000 ms, the arguments. -/
def cmdWith (opc : Nat) (args : List Nat) : List Octet :=
  let o := [BitVec.ofNat 8 opc, 0, 0x34, 0x12] ++ k8 4 [1000] ++ k8 8 args
  o ++ List.replicate (64 - o.length) 0

/-- A device with one RUNNING command. -/
def doing (opc : Nat) (args : List Nat) (s : State := up) (q : SlotRef := r) : State :=
  s.setSlot q { st := 3, status := 1, copy := cmdWith opc args, tag := 0x1234, jseq := 7, order := 1 }

/-! ## Ill-formed commands: one for each check -/

theorem test_wf_load : Instr.wf (.loadComplete th (.words (List.replicate 5 (0, false)))) = false := by decide
theorem test_wf_port : Instr.wf (.bankAccess (.cycle 0 [{ who := .writer }] [])) = false := by decide
theorem test_wf_march : Instr.wf (.marchGroupDone [⟨0, 0, 0⟩, ⟨0, 0, 0⟩]) = false := by decide
theorem test_wf_dma : Instr.wf (.dmaReadCompletion 0 (.data (List.replicate 4097 0) false)) = false := by decide +kernel
theorem test_wf_upd : Instr.wf (.updload r (.data (List.replicate 4097 0) false)) = false := by decide +kernel
theorem test_wf_promo : Instr.wf (.starvationPromotion 0 false { who := .writer } []) = false := by decide
theorem test_wf_burst : Instr.wf (.fabricGrant .mram [{ m := .head, addr := 0, quads := 65 }]) = false := by decide
theorem test_wf_temp : Instr.wf (.temp 1001) = false ∧ Instr.wf (.overtemp (-274)) = false := by decide
theorem test_wf_read : Instr.wf (.hostBar0Read 0 0 ⟨0, false⟩) = false ∧ Instr.wf (.hostBar2Read 0 ⟨4097, false⟩) = false := by decide
theorem test_wf_write : Instr.wf (.hostBar0Write 0 0 [] .good) = false ∧ Instr.wf (.hostBar2Write 0 [] .good) = false := by decide
theorem test_wf_link : Instr.wf (.pcieLinkTraining 6 16) = false ∧ Instr.wf (.wovasLinkTrained 0 4 1 6 0) = false := by decide
theorem test_wf_copy : Instr.wf (.forwardedCommand r ⟨[0], .command 0 none⟩ 0) = false ∧ Instr.wf (.wrreg th 0 [1, 2, 3]) = false := by decide
theorem test_wf_token : Instr.wf (.auth { pub := [], scope := 1, expiry := 1, sig := [] }) = false := by decide
theorem test_wf_root : Instr.wf (.copiedRangeRoot 0 0 0 [1]) = false ∧ Instr.wf (.configurationRequest 0 false 2 ⟨0, false⟩) = false := by decide
theorem test_wf_boot : Instr.wf (.boot { mems := [⟨0, 2 ^ 20⟩] }) = false ∧ Instr.wf (.boot { cells := [⟨0, 0, 0⟩, ⟨0, 0, 0⟩] }) = false ∧
    Instr.wf (.boot { mems := [⟨16, 2 ^ 20⟩] }) = true := by decide
theorem test_wf_fine : Instr.wf (.temp 25) = true ∧ Instr.wf (.hostBar0Read 0 0 ⟨4, false⟩) = true ∧ Instr.wf (.wrreg th 0 [1, 2]) = true := by decide

/-! ## Words of the manual (R210's LUI and ORI example among them) -/

theorem test_words : readInstr th 0o036240000450 = some (.lui th { rd := 5, ra := 0, imm := 0o450 }) ∧
    readInstr th 0o024245200000 = some (.ori th { rd := 5, ra := 5, imm := 0o200000 }) ∧
    readInstr th (packT 1 0o177 {}) = none := by decide

/-! ## Integer instructions, multiply, divide, branches -/

def f5 : TFld := { rd := 5, ra := 6, rb := 7 }
def g5 : IFld := { rd := 5, ra := 6, imm := 3 }

theorem witness_IntegerRegisterResults :
    (∀ func ∈ [0o000, 0o001, 0o002, 0o003, 0o004, 0o005, 0o010, 0o011, 0o012, 0o013, 0o020, 0o021, 0o022, 0o023, 0o024, 0o025, 0o026],
      issues (packT 1 func f5) = true) ∧
    issues (packT 1 0o030 { f5 with rb := 0 }) = true ∧ issues (packT 1 0o031 { f5 with rb := 0 }) = true := by decide +kernel

theorem witness_IntegerImmediateResults :
    (∀ op ∈ [0o010, 0o011, 0o012, 0o013, 0o014, 0o015], issues (packI op g5) = true) ∧
    issues (packI 0o016 { g5 with imm := 35 }) = true ∧ issues (packI 0o016 { g5 with imm := BitVec.ofNat 18 (2 ^ 16 + 0) }) = true ∧
    issues (packI 0o016 { g5 with imm := BitVec.ofNat 18 (2 * 2 ^ 16 + 35) }) = true ∧
    issues (packI 0o017 { rd := 5, ra := 0, imm := 0o450 }) = true := by decide +kernel

theorem witness_RegisterZeroDiscardsWrites : (1 : BitVec 5) ≠ 0 ∧ (31 : BitVec 5) ≠ 1 := by decide

theorem witness_AnIssueTouchesItsThreadAndCore :
    let s := about (packT 1 0 f5)
    readyIn s (packT 1 0 f5) = true ∧ (s.lathe 3).pair = none ∧
    (let u := s.modLathe 3 (fun x => { x with pair := some 2, lastThr := 2, clock := 9 })
     readyIn u (packT 1 0 f5) = true ∧ (u.lathe 3).pair ≠ none) := by decide +kernel

theorem witness_PairsShareOneSlot :
    let a := packT 1 0 f5
    let pairs_ (det : Bool) (b : Word) : Prop :=
      let s := (withThr (fun t => { t with fetched := [(0, a), (1, b)] })).modLathe 3 (fun x => { x with dual := true, detact := det })
      let t0 := (slotted s).thr th
      let s1 := ((slotted s).modThr th (fun t => t.supersede t0 a (depsOf t0 a))).modThr th (fun t => t.follow (t.pc + 1))
      let t1 := s1.thr th
      let db := depsOf t1 b
      readyIn s a = true ∧ (s.lathe 3).pair = none ∧ (s.lathe 3).stall = none ∧ (s.lathe 3).cmps = [] ∧ t1.word = some b ∧
      t1.halted = false ∧ t1.clearOf db = true ∧ t1.regsFrom db ≤ (nextSlot s th).getD 0 ∧
      opHolds t1 (wordRun th b s1).2 = false
    let other := packT 1 1 { f5 with rd := 9 }
    pairs_ false other ∧ pairs_ true other ∧ pairs_ false (packT 2 0o010 { f5 with rd := 9 }) ∧ (9 : BitVec 5) ≠ f5.rd := by decide +kernel

theorem witness_ProductsAreQueuedAndLand :
    (∀ func ∈ [0o000, 0o001, 0o002, 0o003],
      issues (packT 2 func { f5 with rd := 0 }) (fun t => { t with products := [{ value := 9, left := 1 }] }) = true) ∧
    (let s := withThr (fun t => { t with products := [{ value := 1, left := 2 }, { value := 5, left := 0 }, { value := 6, left := 3 }] })
     (s.thr th).products = [{ value := 1, left := 2 }] ++ { value := 5, left := 0 } :: [{ value := 6, left := 3 }] ∧
     ∀ q ∈ [({ value := 6, left := 3 } : Product)], q.left ≠ 0) := by decide +kernel

theorem witness_DivideStallsThenWrites :
    (∀ func ∈ [0o010, 0o011, 0o012, 0o013], issues (packT 2 func f5) = true ∧ issues (packT 2 func { f5 with rb := 0 }) = true) ∧
    (let p : DivPend := { t := 2, gw := some (5, 9) }
     (((up.modLathe 3 (fun x => { x with stall := some p })).lathe 3).stall = some p ∧ p.gw = some (5, 9) ∧ (up.thr ⟨3, p.t⟩).fpOut = [])) ∧
    (up.lathe 3).pair = none := by
  decide +kernel

theorem test_div_most_negative : let t := outcome (exec (.div th f5) (about (packT 2 0o010 f5) (fun t => (t.wg 6 0o400000000000).wg 7 0o777777777777)))
    (t.lathe 3).stall = some { t := 2, gw := some (5, 0o400000000000) } := by decide +kernel

theorem witness_BranchesAndJumpsTransferControl :
    (∀ op ∈ [0o040, 0o041, 0o042, 0o043, 0o044, 0o045], issues (packI op { g5 with imm := 0o777777 }) = true ∧
      issues (packI op g5) (fun t => (t.wg 5 1).wg 6 0o777777777777) = true) ∧
    (issues (packI 0o046 { g5 with ra := 0 }) (fun t => t.wg 5 1) = true ∧ issues (packI 0o046 { g5 with ra := 0 }) = true) ∧
    (issues (packI 0o046 g5) = true ∧ issues (packI 0o046 { rd := 0, ra := 0, imm := 3 }) = true) ∧
    issues (packJ 0o050 0o777777777) = true ∧ issues (packJ 0o051 5) = true ∧ issues (packI 0o052 g5) = true := by decide +kernel

/-! ## The step -/

theorem witness_StepRunsFrontCommand :
    ({ up with pending := [.kick .head, .hotrst] } : State).pending = .kick .head :: [.hotrst] ∧ up.pending = [] := ⟨rfl, rfl⟩

theorem witness_EveryStepKeepsQueueFusesMemory : Memory.wf up.mem = true ∧ ∃ t, step { up with pending := [.kick .head] } = .next t :=
  ⟨rfl, _, rfl⟩

/-! ## One step of some commands; each result is computed by hand from the rule named -/

/-- R199: a sum that wraps. -/
theorem test_add_wraps : ((outcome (exec (.add th f5) (about (packT 1 0 f5) (fun t => (t.wg 6 0o377777777777).wg 7 1)))).thr th).rg 5 =
    0o400000000000 := by decide +kernel

/-- R199: an arithmetic shift by more than the width leaves copies of the sign. -/
theorem test_shra_far : ((outcome (exec (.shra th f5) (about (packT 1 0o012 f5) (fun t => (t.wg 6 0o400000000000).wg 7 40)))).thr th).rg 5 =
    0o777777777777 := by decide +kernel

/-- R200: the immediate of SLTIU is sign-extended and compared unsigned. -/
theorem test_sltiu : ((outcome (exec (.sltiu th { g5 with imm := 0o777777 })
    (about (packI 0o015 { g5 with imm := 0o777777 }) (fun t => t.wg 6 5)))).thr th).rg 5 = 1 := by decide +kernel

/-- R210: a branch backward by one word. -/
theorem test_bne_taken : ((outcome (exec (.bne th { rd := 5, ra := 6, imm := 0o777777 })
    (about (packI 0o041 { rd := 5, ra := 6, imm := 0o777777 }) (fun t => { t.wg 6 1 with pc := 100 })))).thr th).pc = 99 := by decide +kernel

/-- R202: the exact product, queued for PH:PL. -/
theorem test_mulu_product : ((outcome (exec (.mulu th { f5 with rd := 0 }) (about (packT 2 1 { f5 with rd := 0 })
    (fun t => (t.wg 6 0o777777777777).wg 7 0o777777777777)))).thr th).products = [{ value := 0o777777777776000000000001, left := 4 }] := by
  decide +kernel

/-- R505: a kick reloads the watchdog at the next tick. -/
theorem test_kick : (pass 1 (outcome (exec (.kick .head) up))).rst.hswdCount = 100000 := by decide +kernel

/-- R206: a divide by zero gives all ones and the core goes on once DIVIDE_DONE comes. -/
theorem test_divu_zero : ((outcome (exec (.divideDone 3) (outcome (exec (.divu th f5) (about (packT 2 0o011 f5) (fun t => t.wg 6 9)))))).thr th).rg 5 =
    0o777777777777 := by decide +kernel

/-- R257: an undefined field raises ILLEGAL at the supervisor, with the word in XINFO. -/
theorem test_illegal : let t := (outcome (exec (.lui th g5) (about (packI 0o017 g5) (fun t => { t with level := .user, pc := 7 })))).thr th
    t.level = .supervisor ∧ t.s.xpc = 7 ∧ t.s.info = packI 0o017 g5 ∧ t.s.busy = true := by decide +kernel

/-- R312: a nonet of zero is stored as zero, and poison reads as poison. -/
theorem test_nonet : encNonet 0 = 0 ∧ classify poisonNonet = .poison := by decide +kernel

/-! ## Loads and stores -/

/-- The first word of lathe 3's scratchpad. -/
def pad : Nat := 0o000400000000 + 262144 * 3
def padReg (n : Nat) : Thread → Thread := fun t => t.wg 6 (BitVec.ofNat 36 (pad + n))

/-- A load or store of the pad through its base register. -/
def reaches (op : BitVec 8) (f : IFld) (k : Nat) (a : AccKind) : Bool :=
  let s := about (packI op f) (padReg 0)
  let va : Word := BitVec.ofNat 36 (pad + k)
  readyIn s (packI op f) && decide (coreTranslate (slotted s) th a va = (slotted s, .ok (pad + k))) &&
    decide (areaOf (pad + k) = .scratch 3) && !pathBusy (slotted s) (reqCore (slotted s) 3) (pad + k) && !cacheOn (s.lathe 3) false &&
    (s.lathe 3).cmps.isEmpty && inTurn (slotted s) th (pad + k) 4

theorem cleanAt_empty (s : State) (h : s.mem = []) (p k : Nat) : CleanAt s p k := by
  intro a _ _
  have : s.cell a = 0 := by simp [State.cell, h, tget]
  rw [this]; decide

theorem witness_ScratchpadLoadsReachRegisters :
    (∀ e ∈ [((0o020 : BitVec 8), 3), (0o022, 3), (0o023, 2), (0o031, 4)],
      reaches e.1 { g5 with imm := BitVec.ofNat 18 e.2 } e.2 .read = true ∧
      eaI ((about 0 (padReg 0)).thr th) { g5 with imm := BitVec.ofNat 18 e.2 } = BitVec.ofNat 36 (pad + e.2)) ∧
    (reaches 0o021 { g5 with imm := 7 } 1 .read = true ∧ eaN ((about 0 (padReg 0)).thr th) { g5 with imm := 7 } = BitVec.ofNat 36 (pad + 1)) ∧
    (5 : BitVec 5).toNat < 16 ∧ (pad + 4) % 4 = 0 ∧ (pad + 2) % 2 = 0 ∧ CleanAt (about 0 (padReg 0)) (pad + 3) 4 := by
  refine ⟨?_, ?_, ?_, ?_, ?_, cleanAt_empty _ rfl _ _⟩ <;> decide +kernel

theorem witness_ScratchpadStoresWriteTheirNonets :
    (∀ e ∈ [((0o024 : BitVec 8), 3), (0o026, 3), (0o027, 2), (0o032, 4)],
      reaches e.1 { g5 with imm := BitVec.ofNat 18 e.2 } e.2 .write = true) ∧
    reaches 0o025 { g5 with imm := 7 } 1 .write = true ∧
    (reaches 0o030 { g5 with imm := BitVec.ofNat 18 (2 ^ 14 * 10 + 2) } 2 .write = true ∧
      eaM ((about 0 (padReg 0)).thr th) { g5 with imm := BitVec.ofNat 18 (2 ^ 14 * 10 + 2) } = BitVec.ofNat 36 (pad + 2)) := by decide +kernel

theorem witness_DescriptorWordsMoveAndTransfersAlign :
    let odd (k : Nat) := (eaI ((about 0 (padReg 0)).thr th) { g5 with imm := BitVec.ofNat 18 k }).toNat
    (issues (packI 0o033 { rd := 15, ra := 6, imm := 3 }) = true ∧ issues (packI 0o034 { rd := 5, ra := 15, imm := 3 }) = true) ∧
    (issues (packI 0o033 { rd := 16, ra := 6, imm := 3 }) = true ∧ issues (packI 0o033 { rd := 15, ra := 6, imm := 4 }) = true) ∧
    (issues (packI 0o034 { rd := 5, ra := 16, imm := 3 }) = true ∧ issues (packI 0o034 { rd := 5, ra := 15, imm := 4 }) = true) ∧
    issues (packI 0o031 { rd := 16, ra := 6, imm := 0 }) = true ∧ issues (packI 0o032 { rd := 16, ra := 6, imm := 0 }) = true ∧
    odd 1 % 2 ≠ 0 ∧ odd 2 % 4 ≠ 0 ∧ (5 : BitVec 5).toNat < 16 ∧
    issues (packI 0o023 { g5 with imm := 1 }) (padReg 0) = true ∧ issues (packI 0o027 { g5 with imm := 1 }) (padReg 0) = true ∧
    issues (packI 0o031 { g5 with imm := 2 }) (padReg 0) = true ∧ issues (packI 0o032 { g5 with imm := 2 }) (padReg 0) = true := by decide +kernel

/-- A word of bank 192, of a spindle of lathe 3, handed over to that lathe. -/
def bankWord : Nat := 2 ^ 19 * 24
def owned (s : State) : State := s.modBank 192 (fun b => { b with ownCl := 3, ownId := 3, lend := 2 })

theorem witness_BankLoadIsOutstandingThenCompletes :
    let f : IFld := { g5 with imm := 0 }
    let va : Word := BitVec.ofNat 36 bankWord
    let p : PendLoad := { kind := .lw f.rd, va := va, pa := bankWord, num := 4 }
    let s := about (packI 0o020 f) (fun t => t.wg 6 va)
    let u := owned (withThr (fun t => { t with loads := [p] }))
    (readyIn s (packI 0o020 f) = true ∧ eaI (s.thr th) f = va ∧ coreTranslate (slotted s) th .read va = (slotted s, .ok bankWord) ∧
      areaOf bankWord = .bank ∧ cacheOn (s.lathe 3) false = false ∧ (s.lathe 3).detact = false) ∧
    ((u.thr th).loads = [p] ∧ cacheOn (u.lathe 3) false = false ∧ pathBusy u (reqCore u 3) bankWord = false ∧ judge u (bankOf u bankWord) (reqCore u 3) false = .granted ∧
      (u.lathe 3).locked = false ∧ (u.lathe 3).stall = none ∧ (u.lathe 3).pair = none ∧ (u.lathe 3).cmps = []) ∧
    CleanAt u (placeOf u bankWord) 1 := by
  refine ⟨?_, ?_, cleanAt_empty _ rfl _ _⟩ <;> decide +kernel

theorem witness_InstructionFetchBringsTheWord :
    let s (m : Tab Stored) : State := { withThr (fun t => { t with pc := BitVec.ofNat 36 pad }) with mem := m }
    let good := s [(4 * pad, 0x2510), (4 * pad + 2, 0x1406), (4 * pad + 3, 0x03dd)]
    let bad := about (packT 1 0o177 {})
    (fetching good th = true ∧ (good.thr th).word = none ∧ coreTranslate good th .fetch (nextFetch good th) = (good, .ok pad) ∧
      areaOf pad = .scratch 3 ∧ pathBusy good (reqCore good 3) pad = false ∧ cacheOn (good.lathe 3) true = false ∧ (∀ j ∈ List.range 4, classify (good.cell (4 * pad + j)) = .clean)) ∧
    (good.readWord pad).1 = 0o036240000450 ∧ (readInstr th 0o036240000450).isSome = true ∧
    readyIn bad (packT 1 0o177 {}) = true ∧ readInstr th (packT 1 0o177 {}) = none ∧ (bad.lathe 3).locked = false := by decide +kernel

/-! ## Floating point -/

def v8 : TFld := { rd := 8, ra := 16, rb := 24, mod := 4, form := 7 }

theorem witness_ShortVectorArithmeticResults :
    v8.rd.toNat % formRegs v8.form = 0 ∧ v8.ra.toNat % formRegs v8.form = 0 ∧ v8.rb.toNat % formRegs v8.form = 0 ∧ v8.mod.toNat < 5 ∧
    (∀ func ∈ [0o000, 0o001, 0o002, 0o003, 0o004, 0o005], issues (packT 3 func v8) (fun t => { t with svl := 3 }) = true) ∧
    issues (packT 3 0o025 { v8 with rb := 0 }) = true ∧ (0 : BitVec 5).toNat % formRegs v8.form = 0 ∧
    (∀ func ∈ [0o020, 0o021], issues (packT 3 func { v8 with mod := 0 }) = true) ∧ v8.rd.toNat < 32 ∧
    (∀ func ∈ [0o022, 0o023, 0o024], issues (packT 3 func { v8 with mod := 0, rb := 0 }) = true) := by decide +kernel

theorem witness_ShortVectorDivideStallsThenWrites :
    v8.mod.toNat < 5 ∧ v8.rd.toNat % formRegs v8.form = 0 ∧ v8.ra.toNat % formRegs v8.form = 0 ∧ v8.rb.toNat % formRegs v8.form = 0 ∧
    issues (packT 3 0o010 v8) = true ∧ issues (packT 3 0o011 { v8 with rb := 0 }) (fun t => { t with svl := 2 }) = true ∧
    (0 : BitVec 5).toNat % formRegs v8.form = 0 ∧
    (let s := about (packT 3 0o010 v8) (fun t => { t with fpOut := [{ flags := 1, due := some 90 }] })
     readyIn s (packT 3 0o010 v8) = true ∧ ∀ q ∈ ((slotted s).thr th).fpOut, q.due ≠ none) := by decide +kernel

theorem witness_FloatingPointComparesAndConversions :
    (∀ func ∈ [0o000, 0o001, 0o002, 0o003], issues (packT 4 func { v8 with mod := 0 }) = true) ∧
    (∀ func ∈ [0o010, 0o012, 0o013, 0o014], issues (packT 4 func { rd := 5, ra := 6, mod := 4 }) = true) ∧
    (∀ func ∈ [0o011, 0o015, 0o020, 0o021, 0o022, 0o023], issues (packT 4 func { rd := 5, ra := 6 }) = true) ∧
    v8.ra.toNat % formRegs v8.form = 0 ∧ v8.rb.toNat % formRegs v8.form = 0 := by decide +kernel

theorem witness_ReservedFieldsAreIllegal :
    let odd (q : TFld) (x : BitVec 5) : Prop := x.toNat % formRegs q.form ≠ 0
    (∀ func ∈ [0o000, 0o001, 0o002, 0o003, 0o004, 0o005, 0o010, 0o011, 0o012, 0o013, 0o020, 0o021, 0o022, 0o023, 0o024, 0o025, 0o026, 0o030, 0o031],
      issues (packT 1 func { f5 with mod := 1 }) = true ∧ issues (packT 1 func { f5 with form := 7 }) = true) ∧
    (issues (packT 1 0o030 f5) = true ∧ issues (packT 1 0o031 f5) = true ∧ f5.rb ≠ 0) ∧
    (∀ n ∈ [36, 64, 65536 * 3], issues (packI 0o016 { g5 with imm := BitVec.ofNat 18 n }) = true) ∧
    issues (packI 0o017 g5) = true ∧ g5.ra ≠ 0 ∧
    (∀ func ∈ [0o000, 0o001, 0o002, 0o003, 0o004, 0o005, 0o010, 0o011, 0o025], issues (packT 3 func { v8 with mod := 5 }) = true ∧
      issues (packT 3 func { v8 with rd := 31 }) = true) ∧
    (∀ func ∈ [0o020, 0o021, 0o022, 0o023, 0o024], issues (packT 3 func { v8 with ra := 1, mod := 0 }) = true) ∧
    (∀ func ∈ [0o011, 0o022, 0o023, 0o024, 0o025], issues (packT 3 func v8) = true) ∧ v8.rb ≠ 0 ∧ odd v8 31 ∧ odd v8 1 ∧
    (∀ func ∈ [0o000, 0o001, 0o002, 0o003], issues (packT 4 func v8) = true) ∧ v8.mod ≠ 0 ∧
    (∀ func ∈ [0o010, 0o012, 0o013, 0o014, 0o011, 0o015, 0o020, 0o021, 0o022, 0o023], issues (packT 4 func { f5 with form := 1 }) = true) := by
  decide +kernel

theorem witness_FloatingPointResultsAreRoundedOnce :
    let F := fmt36
    let unit : Int := min 0 (1 - (F.bias : Int) - F.fb)
    let x := F.largest false
    (1 : BitVec 3).toNat < 5 ∧ (4 : BitVec 3).toNat < 5 ∧ 0 < 3 ∧ x < F.expMax * 2 ^ F.fb ∧
    3 * 2 ^ (0 - unit).toNat ≤ (2 ^ F.fb + F.frac x) * 2 ^ ((max (F.exp x) 1 : Nat) - (F.bias : Int) - F.fb - unit).toNat := by decide +kernel

theorem witness_FloatingPointTrapsAreRequestedAndTaken :
    let p : FpPend := { gw := some (5, 9), flags := 3, due := some 7 }
    let s := withThr (fun t => { t with fpOut := [p], ften := 1 })
    let u := withThr (fun t => { t with trapReq := true, fpend := 3, level := .user, fetched := [(0, 0)] })
    ((s.thr th).fpOut = p :: [] ∧ p.due ≠ none ∧ p.flags &&& (s.thr th).ften ≠ 0) ∧
    (u.thr th).trapReq = true ∧ u.between th = true ∧ (u.thr th).fpOut = [] ∧ (u.thr th).products = [] ∧ (u.thr th).level ≠ .machine ∧
    (u.thr th).s.busy = false := by decide +kernel

/-! ## Exceptions, waits, special registers -/

theorem witness_ExceptionEntrySavesAndTransfers :
    let g : IFld := { rd := 0, ra := 0, imm := 0o777777 }
    let busy (t : Thread) : Thread := { t with level := .user, s := { t.s with busy := true } }
    let locked (t : Thread) : Thread := { t with level := .machine, m := { t.m with busy := true } }
    let trap (t : Thread) : Thread := { t with fpOut := [{ flags := 1, due := some 40 }], ften := 1 }
    let sup (t : Thread) : Thread := { t with level := .supervisor }
    issues (packI 0o063 g) = true ∧ issues (packI 0o063 { g with imm := 1 }) trap = true ∧ issues (packI 0o063 { g with rd := 1 }) = true ∧
    issues (packI 0o063 g) sup = true ∧ g.imm ≠ 1 ∧
    (withThr (fun t => { t with products := [{ value := 9, left := 2 }] }) |>.thr th).products.getLast? = some { value := 9, left := 2 } ∧
    ((withThr locked).thr th).settle.m.busy = true ∧ ((withThr locked).thr th).settle.level = .machine ∧
    ((withThr id).thr th).settle.m.busy = false ∧
    ((withThr busy).thr th).settle.s.busy = true ∧ ((withThr busy).thr th).settle.trapReq = false ∧ ((withThr busy).thr th).settle.m.busy = false ∧
    ((withThr (fun t => { t with level := .user })).thr th).settle.s.busy = false ∧
    ((withThr trap).thr th).settle.trapReq = true := by decide +kernel

theorem witness_ReturnRestoresWhatEntrySaved :
    let w := packT 0o060 0o001 {}
    let user (up : Bool) (a : Nat) (t : Thread) : Thread := { t.wg 30 (BitVec.ofNat 36 a) with level := .user, inup := up }
    let s := about w (user true pad)
    issues w (fun t => { t with level := .machine }) = true ∧ issues w (fun t => { t with level := .supervisor }) = true ∧
    issues w (user false 0) = true ∧ (issues w (user true (pad + 2)) = true ∧ (BitVec.ofNat 36 (pad + 2)).toNat % 4 ≠ 0) ∧
    (readyIn s w = true ∧ (((slotted s).thr th).rg 30).toNat % 4 = 0 ∧
      coreTranslate (slotted s) th .read (((slotted s).thr th).rg 30) = (slotted s, .ok pad) ∧ areaOf pad = .scratch 3 ∧
      pathBusy (slotted s) (reqCore (slotted s) 3) pad = false ∧
      cacheOn (s.lathe 3) false = false ∧ (∀ j ∈ List.range 16, classify (s.cell (4 * pad + j)) = .clean)) := by decide +kernel

theorem witness_InterruptsEnterByLevelAndLine :
    let m (f : Thread → Thread) : State := withThr (fun t => f { t with m := { t.m with ip := 0x8000 }, level := .supervisor })
    let u := withThr (fun t => { t with s := { t.s with ip := 0x0102, ien := 0x0100 }, level := .user })
    ((m id).atBoundary th = true ∧ ((m id).thr th).settle.trapReq = false ∧ ((m id).thr th).m.busy = false ∧
      ((m id).thr th).m.ip.getLsbD 15 = true ∧ (∀ k ∈ List.range 15, ((m id).thr th).m.ip.getLsbD k = false)) ∧
    (u.atBoundary th = true ∧ (u.thr th).settle.trapReq = false ∧ (∀ k ∈ List.range 16, (u.thr th).m.ip.getLsbD k = false) ∧
      (u.thr th).s.busy = false ∧ (u.thr th).level = .user ∧ ((u.thr th).s.ip &&& (u.thr th).s.ien).getLsbD 8 = true ∧
      (∀ k ∈ List.range 8, ((u.thr th).s.ip &&& (u.thr th).s.ien).getLsbD k = false)) := by decide +kernel

theorem witness_UpcallsPushTheirFrame :
    let s (sp : Nat) : State := withThr (fun t => { t.wg 30 (BitVec.ofNat 36 sp) with
      level := .user, uie := true, uep := 0x8000, uee := 0x8000, usplo := BitVec.ofNat 36 pad, usphi := BitVec.ofNat 36 (pad + 3) })
    (∀ sp ∈ [pad + 4, pad + 6, pad], (s sp).atBoundary th = true ∧ ((s sp).thr th).pick = none ∧ ((s sp).thr th).settle.trapReq = false ∧
      ((s sp).thr th).settle.level = .user ∧ ((s sp).thr th).settle.uie = true ∧ ((s sp).thr th).settle.inup = false ∧
      ((s sp).thr th).settle.uep.getLsbD 15 = true ∧ ((s sp).thr th).settle.uee.getLsbD 15 = true ∧
      (∀ k ∈ List.range 15, ((s sp).thr th).settle.uep.getLsbD k = false) ∧ ((s sp).thr th).settle.s.busy = false) ∧
    (let s1 := (s (pad + 4)).setThr th ((s (pad + 4)).thr th).settle
     let frame := ((s (pad + 4)).thr th).settle.rg 30 - 4
     coreTranslate s1 th .write frame = (s1, .ok pad) ∧ pathBusy s1 (reqCore s1 3) pad = false ∧ frame.toNat % 4 = 0 ∧ frame.toNat = pad) ∧ areaOf pad = .scratch 3 := by decide +kernel

theorem witness_WaitsAndFencesHoldTheirThread :
    let user (t : Thread) : Thread := { t with level := .user }
    let held (h : Hold) (o : List ROp := []) : State := { withThr (fun t => { t with hold := h }) with wov := { ops := o } }
    let ld : PendLoad := { kind := .lw 5, va := 0, pa := 0, num := 3 }
    (∀ func ∈ [0o002, 0o010, 0o011, 0o012, 0o013, 0o014], issues (packT 0o060 func {}) user = true) ∧
    (∀ func ∈ [0o015, 0o016], issues (packT 0o060 func {}) (fun t => { t with level := .supervisor }) = true) ∧
    (let t := (withThr (fun t => { t with waiting := true, uep := 4 })).thr th
     t.waiting = true ∧ t.halted = false ∧ t.uep ≠ 0) ∧
    (let t := (held .fbar).thr th; t.halted = false ∧ t.hold = .fbar ∧ t.fpOut = [] ∧ t.trapReq = false) ∧
    (let t := (withThr (fun t => { t with hold := .fbar, fpOut := [{ due := some 9 }] })).thr th; t.hold = .fbar ∧ t.fpOut ≠ []) ∧
    (let t := (withThr (fun t => { t with hold := .fbar, trapReq := true })).thr th; t.hold = .fbar ∧ t.fpOut = [] ∧ t.trapReq = true) ∧
    (let s := held (.vfence [3]); (s.thr th).hold = .vfence [3] ∧ (s.thr th).loads = [] ∧ ∀ g ∈ [3], s.group g = none) ∧
    (let s := { held (.vfence [3]) with groups := [(3, some { th := th })] }
     (s.thr th).hold = .vfence [3] ∧ ∃ g ∈ [3], s.group g ≠ none) ∧
    (let s := held (.tlbsync [4] [(7, 0)] []) [{ tag := 5, kind := .store th, dev := 6, inc := 9 }]
     (s.thr th).hold = .tlbsync [4] [(7, 0)] [] ∧ (∀ o ∈ s.wov.ops, o.tag ∉ [4]) ∧ 0 ∉ (s.thr ⟨3, Fin.ofNat 8 7⟩).accNums) ∧
    (let s := held (.tlbsync [4] [] []) [{ tag := 4, kind := .store th, dev := 6, inc := 9 }]
     (s.thr th).hold = .tlbsync [4] [] [] ∧ ∃ o ∈ s.wov.ops, o.tag ∈ [4]) ∧
    (let s := withThr (fun t => { t with hold := .tlbsync [] [(2, 3)] [], loads := [ld] })
     (s.thr th).hold = .tlbsync [] [(2, 3)] [] ∧ 3 ∈ (s.thr ⟨3, Fin.ofNat 8 2⟩).accNums) ∧
    (up.lathe 3).locked = false := by decide +kernel

theorem witness_WaitsAndFencesHoldTheirThread_accesses :
    let ld : PendLoad := { kind := .lw 5, va := 0, pa := 0, num := 3 }
    let st : PendLoad := { kind := .store, va := 0, pa := 0, num := 4 }
    let held (h : Hold) (p : List PendLoad) : State := withThr (fun t => { t with hold := h, loads := p })
    (∀ func ∈ [0o012, 0o013, 0o014], issues (packT 0o060 func {}) (fun t => { t with loads := [ld, st] }) = true) ∧
    (ld.kind.isStore = false ∧ st.kind.isStore = true) ∧
    (∀ h ∈ [Hold.mem true false false, .mem false true false, .mem true true true], ∀ p ∈ [[], [ld, st]],
      ((held h p).thr th).hold = h ∧ ((held h p).thr th).loads = p) ∧
    (let t := (withThr (fun t => { t with hold := .afence false [3], fencedAt := some (t.pc, true) })).thr th
     t.hold = .afence false [3] ∧ t.loads = [] ∧ t.fencedAt = some (t.pc, true) ∧ up.group 3 = none) ∧
    (let g : Group := { th := th, started := true, parts := [{ last1 := 16, next := 5 }] }
     let s := { held (.tlbsync [] [] [(24, 0, 9)]) [] with groups := [(0, some g)] }
     (s.thr th).hold = .tlbsync [] [] [(24, 0, 9)] ∧ elemsLeft s (24, 0, 9) = true ∧ elemsLeft s (24, 0, 5) = false) := by decide +kernel

theorem witness_LengthsAndKeysAreSet :
    issues (packT 0o060 0o021 { rd := 5, ra := 6 }) (fun t => t.wg 6 0o777777777777) = true ∧ issues (packT 0o060 0o022 { rd := 5, ra := 6 }) = true ∧
    issues (packI 0o064 { rd := 5, ra := 0, imm := 0o777777 }) = true ∧ issues (packT 0o060 0o020 { ra := 5, rb := 6 }) = true := by decide +kernel

theorem witness_TlbInvalidationActsOnItsLathe :
    let sup (t : Thread) : Thread := { t with level := .supervisor }
    issues (packT 0o060 0o040 { ra := 5 }) sup = true ∧ issues (packT 0o060 0o041 {}) sup = true ∧
    ((about 0 sup).thr th).level ≠ .user := by decide +kernel

/-- Every assigned special register, read and written by the lowest level that may. -/
theorem witness_SpecialRegistersReadAndWrite :
    let lowest (n : Nat) : Level := if n < 0o100 then .user else if n < 0o140 ∨ 0o200 ≤ n then .supervisor else .machine
    (∀ n ∈ [0o000, 0o001, 0o002, 0o003, 0o004, 0o005, 0o006, 0o007, 0o010, 0o011, 0o040, 0o041, 0o042, 0o043, 0o044, 0o045, 0o100, 0o101, 0o102, 0o103,
        0o104, 0o105, 0o106, 0o107, 0o110, 0o111, 0o112, 0o140, 0o141, 0o142, 0o143, 0o144, 0o145, 0o146, 0o147, 0o150, 0o151, 0o152, 0o200, 0o201,
        0o202, 0o203],
      issues (packI 0o061 { rd := 5, ra := 0, imm := BitVec.ofNat 18 n }) (fun t => { t with level := lowest n }) = true ∧
      issues (packI 0o062 { rd := 0, ra := 5, imm := BitVec.ofNat 18 n }) (fun t => { t with level := lowest n }) = true) ∧
    ((about 0).thr th).products = [] ∧ ((about 0).thr th).fpOut = [] ∧ ((about 0).thr th).tbh = none ∧
    ((about 0 (fun t => { t with tbh := some 5 })).thr th).tbh = some 5 := by decide +kernel

theorem witness_PrivilegeAndAssignmentAreChecked :
    let user (t : Thread) : Thread := { t with level := .user }
    let sup (t : Thread) : Thread := { t with level := .supervisor }
    let sr (f : Thread → Thread) (n : Nat) : Prop := issues (packI 0o061 { rd := 5, ra := 0, imm := BitVec.ofNat 18 n }) f = true ∧
      issues (packI 0o062 { rd := 0, ra := 5, imm := BitVec.ofNat 18 n }) f = true
    (∀ func ∈ [0o015, 0o016, 0o041], issues (packT 0o060 func {}) user = true) ∧ issues (packT 0o060 0o040 { ra := 5 }) user = true ∧
    issues (packT 0o060 0o031 { mod := 3 }) user = true ∧ issues (packT 0o060 0o032 { ra := 5, rb := 6 }) user = true ∧
    sr user 0o100 ∧ sr user 0o203 ∧ sr sup 0o140 ∧ sr sup 0o152 ∧ srAssigned 0o100 = true ∧ srAssigned 0o203 = true ∧ srAssigned 0o140 = true ∧
    srAssigned 0o152 = true ∧ srAssigned 0o012 = false ∧ sr id 0o012 ∧ sr id 0o153 ∧ srAssigned 0o153 = false ∧
    issues (packI 0o061 { rd := 5, ra := 1, imm := 0 }) = true ∧ issues (packI 0o062 { rd := 5, ra := 1, imm := 2 }) = true ∧
    (∀ n ∈ [0o000, 0o001, 0o005, 0o006, 0o007, 0o010, 0o011], sr user n) := by
  simp only [issues]
  decide +kernel

/-! ## Groups -/

theorem tget_clean : ∀ (m : Tab Stored) (a : Nat), m.all (fun e => decide (classify e.2 = .clean)) = true → classify (tget 0 m a) = .clean
  | [], _, _ => by simp [tget]; decide
  | (k, v) :: m, a, h => by
    simp only [List.all_cons, Bool.and_eq_true, decide_eq_true_eq] at h
    unfold tget
    split
    · exact h.1
    · exact tget_clean m a h.2

theorem cleanAt_listed (s : State) (p k : Nat) (h : s.mem.all (fun e => decide (classify e.2 = .clean)) = true) : CleanAt s p k :=
  fun a _ _ => tget_clean s.mem a h

theorem unheard_none (s : State) (p : Nat) (h : s.evf.ch = []) : Unheard s p := by simp [Unheard, h]
theorem noQueue_none (s : State) (h : s.spindles = []) : NoQueue s := by intro k; simp [State.spin, h, tget]

/-- A MOV between scratchpad streams. -/
def mov : VFld := { vfunc := 0o40, dw := 1, da := 2 }
def padStr (b : Nat) : Quad := { w0 := BitVec.ofNat 36 b, w1 := 4416 }
def movGroup (da : Quad) (f : Group → Group := id) : Group :=
  f { th := th, ctx := { level := .machine }, vl := 1, members := [{ v := mov, dw := padStr 100, da := da }], parts := [{ last1 := 1 }] }
def queuedUp (g : Group) (w : Word := 0) (f : Thread → Thread := id) : State :=
  { about w f with nextGroup := 1, groups := [(0, some g)], spindles := [(24, { queue := [0] })], hs := { insts := [(0, { lathes := 0xFFFF })] } }

theorem witness_VectorIssueFormsAndQueuesGroups :
    let opened (want n : Nat) (t : Thread) : Thread :=
      { t with openGrp := some { want := want, level := t.level, members := List.replicate n { v := mov } } }
    (issues (packV { mov with rsv := 1 }) = true ∧ vLegal { mov with rsv := 1 } = false) ∧
    (issues (packV mov) = true ∧ vLegal mov = true ∧ ((about (packV mov)).thr th).openGrp = none ∧
      (about (packV mov)).groups.countP (fun _ => true) < 4 ∧ (∀ k ∈ List.range 8, ((about (packV mov)).spin (24 + k)).queue.length < 4)) ∧
    (let s := { about (packV mov) with spindles := [(24, { queue := [0, 1, 2, 3] })] }
     (s.thr th).word = some (packV mov) ∧ (s.lathe 3).pair = none ∧ (s.thr th).openGrp = none ∧ ¬ (s.spin (8 * 3 + 0)).queue.length < 4 ∧ (s.thr th).fpOut = [] ∧ (s.thr th).trapReq = false) ∧
    issues (packV mov) (opened 3 1) = true ∧ issues (packV mov) (opened 6 5) = true ∧
    issues (packT 0o060 0o030 { mod := 7 }) = true ∧ issues (packT 0o060 0o030 { mod := 1 }) (opened 2 1) = true ∧
    issues (packT 0o060 0o030 {}) (opened 2 1) = true := by decide +kernel

theorem noJob_none (s : State) (h : s.hs.slots = []) (g : s.hs.guests = []) : NoJob s := ⟨by simp [h], g⟩

theorem witness_GroupsStartOrAreRefused :
    let good := movGroup (padStr 0)
    let bad := movGroup { padStr 0 with w1 := 4417 }
    (∀ g ∈ [good, bad], ((queuedUp g).spin 24).queue.head? = some 0 ∧ (queuedUp g).group 0 = some g ∧
      g.started = false ∧ g.members ≠ [] ∧ (∀ k ∈ g.spindles, ((queuedUp g).spin k).queue.head? = some 0 ∧ ((queuedUp g).cin k).en = false) ∧
      g.spindle 0 ∈ g.spindles) ∧
    (∀ g, NoJob (queuedUp g)) ∧ Unheard (queuedUp bad) (pselSpnEnd 24) ∧
    (checkGroup (queuedUp bad) bad).1 = queuedUp bad ∧ (checkGroup (queuedUp bad) bad).2.map Prod.fst = some (some { code := stDESCRSV, rank := 0, sidx := 0 }) ∧
    (checkGroup (queuedUp good) good).1 = queuedUp good ∧ (checkGroup (queuedUp good) good).2.map Prod.fst = some none ∧
    (good.twoPass = false ∧ good.resumed = false ∧ (∀ x ∈ strsOf good.members, x.role ≠ .table) ∧ sealedDsts good = [] ∧
      (∀ p ∈ good.parts, p.first < p.last1 ∧ p.next = p.first ∧ p.ended = false)) := by
  refine ⟨?_, fun g => noJob_none _ rfl rfl, unheard_none _ _ rfl, ?_, ?_, ?_, ?_, ?_⟩ <;> decide +kernel

theorem witness_GroupsEndWithTheirStatus :
    let g (p : Part) : Group := movGroup (padStr 0) (fun g => { g with
      scnt := 1, vl := 32, started := true, parts := [p, { first := 16, last1 := 32, next := 16 }] })
    (∀ p ∈ [({ last1 := 16, next := 16 } : Part), { last1 := 16, next := 16, poisoned := true, pcnt := 1 },
        { last1 := 16, next := 8, stop := some 8, cause := 0o51 }, { last1 := 16, next := 15, stop := some 15, cause := 0o11, faulted := true },
        { last1 := 16, next := 8 }, { last1 := 16, next := 8, stop := some 9, cause := 2 }],
      ((queuedUp (g p)).spin 24).queue = 0 :: [] ∧ (queuedUp (g p)).group 0 = some (g p) ∧ (g p).started = true ∧
      (g p).spindle 0 ≤ 24 ∧ (g p).parts[24 - (g p).spindle 0]? = some p ∧ p.ended = false ∧ (∀ m ∈ (g p).members, m.op.isRed = false) ∧
      writesOut (queuedUp (g p)) 24 0 = false ∧ (g p).parts[1]? = some { first := 16, last1 := 32, next := 16 }) ∧
    (∀ p, NoJob (queuedUp (g p))) ∧ (1 < (0o51 : BitVec 6).toNat ∧ 1 < (0o11 : BitVec 6).toNat) ∧ Unheard (queuedUp (g {})) (pselSpnEnd 24) := by
  refine ⟨?_, fun p => noJob_none _ rfl rfl, ?_, unheard_none _ _ rfl⟩ <;> decide +kernel

theorem witness_StopRequestsFixWhereAGroupStops :
    let g : Group := movGroup (padStr 0) (fun g => { g with started := true, vl := 40, parts := [{ last1 := 40, next := 17 }] })
    let w := packT 0o060 0o031 { mod := 2 }
    let s := queuedUp g w
    let held := { queuedUp { g with parts := [{ last1 := 40, next := 17, stop := some 32, cause := 2 }] } w with nextGroup := 2 }
    s.group 0 = some g ∧ g.started = true ∧ s.wov.ops = [] ∧ (s.spin 24).queue = [0] ∧ (s.thr ⟨3, 2⟩).level = .machine ∧ 24 / 8 = 3 ∧
    groupsOf s ⟨3, Fin.ofNat 8 (2 : BitVec 3).toNat⟩ = [0] ∧ readyIn s w = true ∧ (held.group 0).isSome = true ∧
    (∀ p ∈ g.parts, p.ended = false ∧ p.stop = none ∧ g.blockDone 0 = false) := by decide +kernel

/-- A suspended MOV of one element, at the start of lathe 3's scratchpad. -/
def suspended : List (Nat × Stored) := [(4 * pad, 0x0033), (4 * pad + 3, 0x0c44), (4 * pad + 10, 0x090c), (4 * pad + 11, 0x2806)]

def resumeWord : Word := packT 0o060 0o032 { ra := 5, rb := 6 }
def resumer (m : Tab Stored) : State := { about resumeWord with mem := m, hs := { insts := [(0, { lathes := 0xFFFF })] } }

theorem witness_ResumeReadsTheSuspendRecord_issues :
    readyIn (resumer []) resumeWord = true ∧ readyIn (resumer suspended) resumeWord = true ∧
    (recGroup (slotted (resumer suspended)) th 0 0).isSome = true := by decide +kernel

theorem witness_ResumeReadsTheSuspendRecord :
    (((slotted (resumer [])).thr th).level ≠ .user ∧ (groupsOf (resumer []) th).length < 4 ∧ epochAwaited (resumer []) 3 = false ∧
      ((resumer []).readWord pad).1.getLsbD 32 = false ∧ ((resumer suspended).readWord pad).1.getLsbD 32 = true ∧
      (∀ k ∈ List.range 8, ((resumer suspended).spin (24 + k)).queue.length < 4)) ∧
    CleanAt (resumer []) pad 592 ∧ CleanAt (resumer suspended) pad 592 ∧ Unheard (resumer []) (pselSpnEnd 24) :=
  ⟨by decide +kernel, cleanAt_empty _ rfl _ _, cleanAt_listed _ _ _ (by decide +kernel), unheard_none _ _ rfl⟩

/-! ## Elements, banks, seal locks, the core's control register -/

/-- A stream over I36: broadcast of a word, and LOCAL words of spindle 24. -/
def bcast (w : Word) : Quad := { w0 := w, w1 := BitVec.ofNat 36 (32 * 3) }
def localStr : Quad := { w0 := BitVec.ofNat 36 bankWord, w1 := 4096 }
def addGroup (func : BitVec 6) : Group :=
  { th := th, vl := 16, started := true, members := [{ v := { vfunc := func }, dw := localStr, da := bcast 3, db := bcast 4 }],
    parts := [{ last1 := 16, next := 5 }] }
def held24 (s : State) : State := (s.modBank 193 (fun b => { b with ownCl := 0, ownId := 24, lend := 0 }))

theorem witness_ElementStepsComputeAndWrite :
    let s (func : BitVec 6) : State := queuedUp (addGroup func)
    let m : Member := { v := { vfunc := 0 }, dw := localStr, da := bcast 3, db := bcast 4 }
    let pa := (BitVec.ofInt 36 ((localStr.w0.toNat : Int) + 5 * dStride localStr)).toNat
    let f : Front := { outs := [(0, false, 5, { bits := 7 })] }
    (∀ func ∈ [(0o00 : BitVec 6), 0o01, 0o02, 0o20, 0o21, 0o22], (s func).hs.slots = [] ∧
      ((s func).spin 24).queue.head? = some 0 ∧ (s func).group 0 = some (addGroup func) ∧ (addGroup func).spindle 0 ≤ 24 ∧
      (addGroup func).parts[24 - (addGroup func).spindle 0]? = some { last1 := 16, next := 5 } ∧ (addGroup func).ctx.translates = false) ∧
    (dEt m.da = some .i36 ∧ dEt m.db = some .i36 ∧ dEt m.dw = some .i36 ∧ dSpace m.da = spBcast ∧ dSpace m.db = spBcast ∧ dSpace m.dw = spLocal) ∧
    (dMen m.dw = false ∧ dS m.dw = false ∧ m.op ≠ .compress ∧ m.op ≠ .expand) ∧
    (let p : Part := { last1 := 6, next := 5, ahead := [f] }
     p.ahead = [f] ∧ p.stop = none ∧ p.remote = [] ∧ p.bound = [] ∧ p.next + 1 = p.last1 ∧ f.fault = none ∧
       f.outs = [(0, false, p.next, { bits := 7 })]) ∧
    (pa < 0o000400000000 ∧ pa / 2 ^ 19 = 24 ∧ ((s 0).bank 192).skew = dK m.dw) ∧
    judge (held24 (s 0)) (bankOf (s 0) pa) (reqStream 24 0 0) true = .granted ∧
    judge ((s 0).modBank 193 (fun b => { b with ownCl := 6 })) (bankOf (s 0) pa) (reqStream 24 0 0) true = .nonOwner ∧
    Unheard (s 0) (pselSpnStrip 24) := by
  refine ⟨?_, ?_, ?_, ?_, ?_, ?_, ?_, unheard_none _ _ rfl⟩ <;> decide +kernel

/-- A bank changed. -/
def withBank (n : Nat) (f : Bank → Bank) (s : State := up) : State := s.modBank n f

theorem witness_BanksJudgeEveryRequest :
    let s := withBank 5 (fun b => { b with ownCl := 2, ownId := 1, lend := 1, lscope := 1, epoch := 3 })
    let dma : Req := reqDma 1 0
    let core : Req := { cl := 1, id := 0, inst := 0, lathe := some 0, epoch := some 4 }
    ({ cl := 5, scrub := true } : Req).scrub = true ∧ (s.bank 5).retired = false ∧ ((withBank 5 (fun b => { b with retired := true })).bank 5).retired = true ∧
    judge s 5 dma true = .granted ∧ judge s 5 core false = .granted ∧ judge s 5 core true = .nonOwner ∧
    judge (withBank 5 (fun b => { b with march := true }) s) 5 dma true = .stalls ∧
    judge (withBank 5 (fun b => { b with drain := some .skew }) s) 5 dma false = .stalls ∧
    judge (withBank 5 (fun b => { b with lend := 2 }) s) 5 core true = .stale := by decide +kernel

theorem witness_BankCyclesGrantByPriority :
    let s := withBank 192 (fun b => { b with ownCl := 0, ownId := 24, lend := 2, lscope := 1 })
    let rd : PortReq := { who := .remote (.core th), row := 7 }
    let wr : PortReq := { who := .writer, row := 16383, mask := 0xFFFF }
    CleanAt s (65536 * 192 + 4 * rd.row.toNat) 4 ∧
    s.hs.slots = [] ∧ heldAt s 192 = none ∧ judge s 192 (portAsk 192 rd).q false = .granted ∧ judge s 192 (portAsk 192 wr).q true = .granted ∧
    (s.bank 192).stallRmtR < 255 ∧ judge s 192 (portAsk 192 { who := .readStream 2, row := 7, inst := 0, epoch := 0 }).q false = .granted ∧
    (let u := withBank 192 (fun b => { b with stallRmtW := 255 }) s
     255 ≤ (u.bank 192).stallRmtW ∧ judge u 192 (portAsk 192 { wr with who := .remote (.core th) }).q true = .granted) :=
  ⟨cleanAt_empty _ rfl _ _, by decide +kernel⟩

theorem witness_OwnershipPassesByHandover :
    let own (cl id : Nat) : Word := BitVec.ofNat 36 (cl * 2 ^ 30 + id * 2 ^ 23)
    let b0 : Bank := up.bank 192
    let group : List Nat := (List.range 8).map (fun j => 8 * 24 + j)
    let skewing : State := group.foldl (fun s j => withBank j (fun b => { b with drain := some .skew, skewNext := true }) s) up
    (up.pci.stalled = [] ∧ up.wov.waiting = []) ∧ (Master.tail ≠ .head ∧ (∀ t, Master.tail ≠ .core t) ∧ ∀ f, Master.tail ≠ .pciein f) ∧
    (((withThr (fun t => { t with level := .machine })).thr th).level = .machine ∧ (3 : Fin 16).val = 192 / 64) ∧ up.pwr.mode = 6 ∧
    (b0.drain = none ∧ b0.march = false ∧ b0.sealed = false ∧ b0.retired = false) ∧ (BitVec.ofNat 3 ((own 1 24).toNat / 2 ^ 30) = 1) ∧
    (let b : Bank := (withBank 192 (fun b => { b with ownCl := 6, ownId := 0, inst := 0, lend := 0, lscope := 0, epoch := 0 })).bank 192
     let w := own 6 0
     { b with ownCl := BitVec.ofNat 3 (w.toNat / 2 ^ 30), ownId := BitVec.ofNat 7 (w.toNat / 2 ^ 23), inst := BitVec.ofNat 4 (w.toNat / 2 ^ 19),
              lend := BitVec.ofNat 2 (w.toNat / 2 ^ 17), lscope := BitVec.ofNat 2 (w.toNat / 2 ^ 15), epoch := BitVec.ofNat 9 w.toNat } = b ∧ b.ownCl ≠ 7) ∧
    (BitVec.ofNat 7 ((own 0 23).toNat / 2 ^ 23)).toNat ≠ 192 / 8 ∧ BitVec.ofNat 3 ((own 7 0).toNat / 2 ^ 30) = 7 ∧
    ((withBank 192 (fun b => { b with drain := some .handover })).bank 192).drain = some .handover ∧
    (((withBank 192 (fun b => { b with sealed := true })).bank 192).sealed = true ∧ BitVec.ofNat 9 (own 6 0).toNat = b0.epoch ∧
      BitVec.ofNat 9 (own 6 0 + 1).toNat ≠ b0.epoch) ∧ 192 = 8 * 24 ∧ (1 : Word).getLsbD 0 ≠ b0.skew ∧
    (∀ j ∈ group, (up.bank j).drain = none ∧ (up.bank j).march = false ∧ (up.bank j).sealed = false) ∧
    (∃ j ∈ group, ((withBank 199 (fun b => { b with sealed := true })).bank j).sealed = true) ∧ 193 % 8 ≠ 0 ∧ (0 : Word).getLsbD 0 = b0.skew ∧
    (∀ j ∈ group, (skewing.bank j).drain = some .skew ∧ (skewing.bank j).heldLock = false ∧ (skewing.bank j).newEpoch = none ∧
      (skewing.bank j).march = false) := by
  and_intros <;> first | decide +kernel | simp

theorem witness_SealLocksDrainAndRelease :
    let b (f : Bank → Bank) : Bank := (withBank 1023 f).bank 1023
    (up.pci.stalled = [] ∧ up.wov.waiting = []) ∧ ((b id).sealed = false ∧ (b id).drain = none ∧ (b id).march = false ∧ (b id).heldLock = false) ∧
    (∀ d ∈ [Drain.handover, .cancelled, .sealLock], (b (fun x => { x with drain := some d })).drain = some d ∧
      (b (fun x => { x with drain := some d })).sealed = false ∧ (b (fun x => { x with drain := some d })).heldLock = false ∧
      (b (fun x => { x with drain := some d })).newEpoch = none) ∧
    (b (fun x => { x with sealed := true })).sealed = true ∧ (b (fun x => { x with heldLock := true, drain := some .handover })).heldLock = true := by
  decide +kernel

theorem witness_NonetCodeCorrectsOneAndDetectsTwo : (13 : Nat) < 14 ∧ (12 : Nat) < 13 ∧ (0 : Nat) < 4 ∧ (3 : Nat) < 4 := by decide

theorem witness_CoreConfigurationDrainsAndApplies :
    let drained : State := (withThr (fun t => { t with fpOut := [{ flags := 1, due := some 40 }] })).modLathe 3 (fun x =>
      { x with drain := true, det := true })
    (((withThr id).thr th).level = .machine ∧ (Master.tail ≠ .head ∧ ∀ t, Master.tail ≠ .core t)) ∧
    ((drained.lathe 3).drain = true ∧ (drained.lathe 3).stall = none ∧ (drained.lathe 3).pair = none ∧
      (∀ u : Fin 8, (drained.thr ⟨3, u⟩).loads = []) ∧ (∀ e ∈ drained.hs.slots, e.2.st ≠ 3)) ∧
    (up.lathe 3).drain = false ∧ ((withThr (fun t => { t with loads := [{ kind := .lw 5, va := 0, pa := 0 }] })).thr th).loads ≠ [] := by
  refine ⟨⟨by decide +kernel, by simp⟩, by decide +kernel, by decide +kernel, by decide +kernel⟩

/-! ## Times -/

/-- A device in which no time runs. -/
def still : State := { up with rst := { up.rst with hswdEn := false } }

theorem due_of (s : State) (a b c : List Nat) (h : (s.hs.slots = [] ∧ s.hs.guests = []) ∧ s.pwr.main12 = true ∧ asksWait s = false ∧
    (∀ x ∈ s.evf.lut, x.2.filt = 0 → x.2.out = x.2.stored ∨ lutLoops s x.1 = true) ∧ fabricTimes s = a ∧ accessTimes s = b ∧ tailTimes s = [] ∧
    watchTimes s = c) : Due s a b c :=
  ⟨h.2.1, noJob_none s h.1.1 h.1.2, h.2.2⟩

/-- The same where commands stand in the slots and none of them runs a job. -/
theorem due_slots (s : State) (a b t c : List Nat) (h : (s.hs.slots.all (fun e => e.2.job.isNone) = true ∧ s.hs.guests = []) ∧ s.pwr.main12 = true ∧
    asksWait s = false ∧ (∀ x ∈ s.evf.lut, x.2.filt = 0 → x.2.out = x.2.stored ∨ lutLoops s x.1 = true) ∧ fabricTimes s = a ∧ accessTimes s = b ∧
    tailTimes s = t ∧ watchTimes s = c) : DueAll s a b t c :=
  ⟨h.2.1, ⟨by simpa [List.all_eq_true, Option.isNone_iff_eq_none] using h.1.1, h.1.2⟩, h.2.2⟩

/-! ## Scrubber, tests, fabric, event fabric, timers -/

theorem witness_ScrubberCorrectsItsQuads :
    let s (m : Tab Stored) (w : Walk) : State := { up with mem := m, scr := { rateHsram := 1, walkHsram := w } }
    let a := 4 * 0o000440000000
    let due (u : State) : Prop := (walkOf u .hsram).reads < 10 * (scrubRate u .hsram).toNat ∧ (walkOf u .hsram).next + 1 < (regionSpan .hsram).2 ∧
      scrubSkips u .hsram 0o000440000000 = false
    (walkOf (s [] { reads := 10 }) .hsram).window = (s [] {}).tb.toNat / 1000 ∧ 10 * (scrubRate (s [] {}) .hsram).toNat ≤ 10 ∧
    (let u := s [] {}
     due u ∧ (∀ i ∈ List.range 16, classify (u.cell (4 * placeOf u (0o000440000000 + i / 4) + i % 4)) = .clean)) ∧
    (let u := s [(a + 5, 1)] {}
     due u ∧ scrubMayWrite u .hsram 0o000440000000 = true ∧ u.scr.logce = false ∧ classify (u.cell (a + 5)) = .correctable ∧
     4 * placeOf u (0o000440000000 + 5 / 4) + 5 % 4 = a + 5 ∧ (walkOf u .hsram).lastPass.contains (a + 5) = false ∧
     (∀ i ∈ List.range 16, i ≠ 5 → classify (u.cell (4 * placeOf u (0o000440000000 + i / 4) + i % 4)) = .clean)) ∧
    (walkOf (s [] { fixes := [(a + 5, 0)] }) .hsram).fixes = [(a + 5, 0)] ∧ Region.hsram ≠ .banks := by decide +kernel

theorem witness_MemoryTestsAndErrorLog :
    let go (first count : Nat) : Word := BitVec.ofNat 36 (2 ^ 35 + count * 1024 + first)
    let testers : State := [8, 9].foldl (fun s n => withBank n (fun b => { b with ownCl := 5 }) s) up
    let entry : ErrEntry := { code := 1, pa := 5 }
    let d : March := { first := 8, last := 15, pres := false, repair := false, group := 1, inst := none }
    let marching : State := { up with scr := { march := some d } }
    ((Master.tail ≠ .head ∧ ∀ f, Master.tail ≠ .pciein f) ∧ (Master.stream 5 ≠ .head ∧ ∀ f, Master.stream 5 ≠ .pciein f)) ∧
    (hasPath up .tail (regBase + 0o520005) = true ∧ hasPath up (.stream 5) (regBase + 0o520005) = false) ∧
    (0 : Word).getLsbD 35 = false ∧ (go 8 1).getLsbD 35 = true ∧
    marching.scr.march ≠ none ∧ 1023 < 1023 + (go 1023 1).toNat / 1024 % 1024 ∧ ((up.bank 8).retired = false ∧ (up.bank 8).ownCl ≠ 5) ∧
    (testers.scr.march = none ∧ (go 8 1).toNat % 1024 = 8 ∧ (go 8 1).toNat / 1024 % 1024 = 1 ∧ ∀ n ∈ [8, 9], (testers.bank n).ownCl = 5 ∧
      (testers.bank n).drain = none ∧ (testers.bank n).march = false ∧ (testers.bank n).sealed = false) ∧
    (marching.scr.march = some d ∧ marching.pwr.zeroBusy = false ∧ marching.banks = [] ∧ (({} : Bank).heldLock = false ∧ ({} : Bank).newEpoch = none)) ∧
    (let s (l : Tab (Option (BitVec 72))) : State := { up with tb := 150, scr := { bgint := 1, bgLast := l } }
     (s []).scr.bgint ≠ 0 ∧ tget none (s []).scr.bgLast 17 = none ∧ tget none (s [(17, some 50)]).scr.bgLast 17 = some 50 ∧
     100 * (s []).scr.bgint.toNat ≤ ((s []).tb - 50).toNat ∧ ¬ 100 * (s []).scr.bgint.toNat ≤ ((s []).tb - 51).toNat) ∧ ({ up with scr := { log := [entry] } } : State).scr.log = entry :: [] := by
  refine ⟨by simp, ?_⟩
  decide +kernel

theorem witness_FabricGrantsBurstsAndReportsErrors :
    let a : BitVec 34 := BitVec.ofNat 34 pad
    let rd (c : Fin 8) : Burst := { m := .dma c, addr := a }
    let last (c : Nat) : State := { up with fab := { arb := [(1027, { last := some (256 + c), firstRun := 0, waited := true })] } }
    let p : PendLoad := { kind := .lw 5, va := 5, pa := bankWord, ticks := 30 }
    let waits := withThr (fun t => { t with loads := [p] }) still
    let draining := withBank 1023 (fun b => { b with drain := some .handover, drainTicks := 40 }) still
    (up.hs.slots = [] ∧ areaOf a.toNat = .scratch 3 ∧ a.toNat % 4 = 0 ∧ (rd 7).write = false ∧ (rd 7).quads = 1) ∧
    (let b : Burst := { m := .dma 0, addr := a, write := true, data := [({}, 0x8001)] }; b.write = true ∧ b.data = [({}, 0x8001)]) ∧
    ((tget {} up.fab.arb 1027).held = none ∧ (tget {} up.fab.arb 1027).waited = false ∧ (2 : Fin 8) < 5 ∧ up.fab.rest = [] ∧
      (tget {} (last 5).fab.arb 1027).held = none ∧ (tget {} (last 5).fab.arb 1027).waited = true ∧
      (tget {} (last 5).fab.arb 1027).last = some (256 + 5) ∧ (tget {} (last 2).fab.arb 1027).last = some (256 + 2)) ∧
    (areaOf (0o000600000000 : Nat) = .reserved ∧ (∀ z ∈ (last 5).fab.arb, z.2.held = none)) ∧
    ((waits.thr th).started = true ∧ (waits.thr th).halted = false ∧ (waits.lathe 3).locked = false ∧ (waits.lathe 3).lockTicks < 1000 ∧
      (waits.thr th).loads = [p] ∧ p.asks waits.devId = true ∧ p.pa < 2 ^ 34 ∧ (∀ line, p.kind ≠ .upframe line) ∧ midInstr waits th = false ∧
      waits.fab.arb = []) ∧
    (askAt up (.core th) pad true = none ∧ askAt up .head pad false = none) ∧
    ((draining.bank 1023).drain = some .handover ∧ (draining.bank 1023).heldLock = false ∧ (draining.bank 1023).newEpoch = none ∧
      draining.scr.log.length < 64 ∧ draining.pci.stalled = [] ∧ draining.wov.waiting = [] ∧ draining.pwr.main12 = true) ∧ (up.bank 1023).drain = none ∧
    CleanAt up pad 4 ∧ Due draining [] [60] [] ∧ Due waits [] [rest waits.fab.tmo.toNat 30] [] := by
  refine ⟨?_, ?_, ?_, ?_, ?_, ?_, ?_, ?_, cleanAt_empty _ rfl _ _, due_of _ _ _ _ ?_, due_of _ _ _ _ ?_⟩
  case refine_5 => refine ⟨?_, ?_, ?_, ?_, ?_, ?_, ?_, by simp, ?_, ?_⟩ <;> decide +kernel
  all_goals decide +kernel

theorem witness_EventsReachTheirConsumers :
    let s (x : Cin) (f : Thread → Thread := id) (c : Channel := {}) : State :=
      { withThr f with evf := { ch := [(5, c)], cin := [(0o300 + 48 * 3 + 47, x)] } }
    let x : Cin := { en := true, tmask := 0xFF, ch := 5 }
    let busy (t : Thread) : Thread := { t with uep := 0x8000 }
    ((s x).evf.lut = [] ∧ (0o205 : Word).toNat % 128 = 5 ∧ producerLevel (s x) ((s x).chan 5).psel.toNat = none ∧ ((s x).chan 5).held = false) ∧
    ((s x id { held := true }).chan 5).held = true ∧ consumerOf (0o300 + 48 * 3 + 47) = .line 3 47 ∧ x.en = true ∧ x.ch = BitVec.ofFin (5 : Fin 128) ∧
    x.cen = false ∧ (∀ t : Fin 8, lineBit ((s x).thr ⟨3, t⟩) 47 = false) ∧ lineBit ((s x busy).thr th) 47 = true ∧ x.tmask.getLsbD 2 = true ∧
    ({ x with mode := true } : Cin).mode = true ∧ x.pend = false ∧ x.mode = false ∧
    (({ x with cen := true, cch := 5 } : Cin).cen = true ∧ ({ x with cen := true, cch := 5 } : Cin).cch = BitVec.ofFin (5 : Fin 128)) ∧
    ((s { x with pend := true }).cin (0o300 + 48 * 3 + 47)).pend = true ∧ up.rst.inProgress = none ∧
    ({ up with rst := { inProgress := some .core } } : State).rst.inProgress ≠ none := by decide +kernel

theorem witness_TimersPinsAndCellsMove :
    let ev (f : Evf) : State := { still with evf := f }
    let timed : Tmr := { run := true, per := true, count := 9, reload := 4 }
    let waiting : Pin := { filt := 7, raw := true, diff := 3 }
    let cell : Lut := { stored := true, filt := 5, diff := 2 }
    (let s := ev { tmr := [(15, timed)] }; (s.tmr 15).run = true ∧ (s.tmr 15).per = true ∧ asksWait s = false) ∧
    (let t := (withThr (fun t => { t with mwdRun := true, mwdCount := 7 }) still).thr th; t.mwdRun = true ∧ t.halted = false ∧ t.mwdCount = 7) ∧
    Settled (ev { tmr := [(15, timed)] }) ∧
    (up.pwr.mode ≠ 9 ∧ (up.epin 15).raw ≠ true ∧ (up.epin 15).dir = false ∧ (up.epin 15).level ≠ true ∧ (up.epin 15).filt = 0 ∧ up.evf.lut = []) ∧
    (let s := ev { pins := [(4, waiting)] }; (s.epin 4).raw = true ∧ (s.epin 4).level ≠ true ∧ (s.epin 4).filt ≠ 0) ∧
    (let s := ev { pins := [(0, { dir := true, pulsing := true, left := 30 })] }; (s.epin 0).dir = true ∧ (s.epin 0).pulsing = true) ∧
    (let s := ev { lut := [(31, cell)] }; (s.lut 31).out ≠ (s.lut 31).stored ∧ (s.lut 31).filt ≠ 0 ∧ (s.lut 0).out = (s.lut 0).stored) ∧
    Unheard (ev { tmr := [(15, timed)] }) (pselTimer 15) ∧ Due (ev { tmr := [(15, timed)] }) [9] [] [] ∧
    Due (withThr (fun t => { t with mwdRun := true, mwdCount := 7 }) still) [] [] [7] ∧ Due (ev { pins := [(4, waiting)] }) [4] [] [] ∧
    Due (ev { pins := [(4, { filt := 7 })] }) [] [] [] ∧ Due (ev { pins := [(0, { dir := true, pulsing := true, left := 30 })] }) [30] [] [] ∧
    Due (ev { lut := [(31, cell)] }) [3] [] [] := by
  refine ⟨?_, ?_, by simp [Settled], ?_, ?_, ?_, ?_, unheard_none _ _ rfl, due_of _ _ _ _ ?_, due_of _ _ _ _ ?_, due_of _ _ _ _ ?_, due_of _ _ _ _ ?_,
    due_of _ _ _ _ ?_, due_of _ _ _ _ ?_⟩ <;> decide +kernel

/-! ## Sensors, seals, journal -/

theorem witness_SensorsDisciplineWarnAndLockDown :
    let seen (ticks : Nat) : State := { still with ts := { ticks := BitVec.ofNat 72 ticks, ppsLast := some 5 }, evf := { ppsRaw := true } }
    let locking (frozen : Bool) : State :=
      { still with ts := { pendingLock := some .mesh, lockTicks := 400 }, jnl := { still.jnl with frozen := frozen } }
    let half : State := { still with ts := { ppsLast := some 5, ticks := 105, ppsGood := 2 }, evf := { pps := true, ppsRaw := false, ppsDiff := 3 } }
    let asleep : State := { up with pwr := { mode := 1, main12 := false } }
    (∀ n ∈ [100000000, 100000003, 100003000], (seen n).evf.pps = false ∧ (seen n).evf.ppsRaw = true ∧ (seen n).ts.ppsLast = some 5 ∧ 5 < rest 300000000 (sincePps (seen n).ts)) ∧
    (half.evf.pps = true ∧ half.evf.ppsRaw = false ∧ rest 5 half.evf.ppsDiff = 2 ∧ sincePps half.ts ≤ 300000000) ∧ (101 : Int) > 100 ∧ (94 : Int) < 95 ∧ (116 : Int) > 115 ∧
    (up.pwr.main12 = true ∧ up.pwr.hot = false ∧ up.pwr.mode ≠ 9 ∧ up.ts.lockdn = false ∧ up.ts.pendingLock = none ∧ up.rst.inProgress = none) ∧
    (up.jnl.frozen = false ∧ up.jnl.resolved = true ∧ canCommit up = true) ∧
    (asleep.pwr.main12 = false ∧ asleep.pwr.mode ≠ 9 ∧ asleep.pwr.vbat = true ∧ asleep.ts.lockdn = false) ∧
    ({ up with fus := { xmesh := true } } : State).fus.xmesh = true ∧
    (∀ frozen, (locking frozen).ts.pendingLock = some .mesh ∧ (locking frozen).pwr.main12 = true ∧ (locking frozen).rst.inProgress = none ∧
      (locking frozen).jnl.frozen = frozen) ∧ DueAll (locking false) [] [] [4600] [] ∧
    Due (seen 100000000) [5] [] [] ∧ Due half [2, 299999900] [] [] ∧ Due { half with evf := {} } [299999900] [] [] := by
  refine ⟨?_, ?_, ?_, ?_, ?_, ?_, ?_, ?_, ?_, ?_, due_slots _ _ _ _ _ ?_, due_of _ _ _ _ ?_, due_of _ _ _ _ ?_, due_of _ _ _ _ ?_⟩ <;> decide +kernel

theorem journalling_up : Journalling up := ⟨rfl, rfl, by decide +kernel⟩

theorem witness_SealsAndJournalAdvance :
    let open_ (f : SealCtx → SealCtx := id) : State := up.setCtx 3 (f { st := .opened, epoch := 2 })
    let bound (b : InSlot) : State := open_ (fun x => { x with ins := [(15, b)] })
    let full : State := { up with jnl := { up.jnl with head := 300, written := 44, withheld := [({ kind := 9 }, none)] }, pwr := { mode := 6 } }
    let ck : Ckpt := { seqno := 5, hash := [], time := 0, mode := 5 }
    let x : SealRec := { jseq := 4, inst := 0, body := [1] }
    let sealed := banksOfRange up 0 8 |>.foldl (fun s n => withBank n (fun b => { b with sealed := true }) s) (bound { hashing := true, words := 8, owner := some r })
    ((open_.ctx 3).st ≠ .closed ∧ (open_.ctx 3).epoch = 2 ∧ (3 : BitVec 9) ≠ (open_.ctx 3).epoch ∧ (up.ctx 3).st = .closed) ∧
    (let s := { up with ts := { unsigned := [x], closeWait := [(3, r)] } }; s.ts.unsigned = x :: [] ∧ keyOk s = true ∧ s.ts.pendingLock = none ∧
      s.ts.closeWait = (3, r) :: []) ∧
    (let s := { up with ts := { unsigned := [x] } }; s.ts.unsigned = x :: [] ∧ keyOk s = true ∧ s.ts.closeWait = []) ∧
    keyOk { up with ts := { wrapKey := false } } = false ∧
    (let s := { up with jnl := { up.jnl with head := 5, written := 4 } }; s.jnl.written < s.jnl.head ∧ s.jnl.withheld = []) ∧
    up.jnl.head ≤ up.jnl.written ∧ (full.jnl.head = full.jnl.written + 256 ∧ full.jnl.withheld = [({ kind := 9 }, none)] ∧ full.pwr.mode ≠ 5 ∧ full.pwr.mode ≠ 7) ∧
    (let s := { up with pwr := { mode := 5 }, jnl := { up.jnl with head := 786434, written := 786433 } }; s.pwr.mode = 5 ∧ ¬ s.jnl.written + 1 ≤ 786432 + s.jnl.drained) ∧
    (let s := { up with jnl := { up.jnl with ckptBusy := [ck] } }; s.jnl.ckptBusy = ck :: [] ∧ keyOk s = true ∧ canCommit s = true) ∧
    (((doing 0o050 [6]).slot r).st = 3 ∧ ((doing 0o050 [6]).slot r).ended = false) ∧
    ((sealed.inSlot 3 15).hashing = true ∧ (sealed.inSlot 3 15).owner = some r ∧
      ∀ b ∈ banksOfRange sealed (sealed.inSlot 3 15).first (sealed.inSlot 3 15).words, (sealed.bank b).sealed = true) ∧
    (up.inSlot 3 15).hashing = false ∧ (let i := (bound { bound := true, root := [1] }).inSlot 3 15; i.bound = true ∧ [2] ≠ i.root ∧ [1] = i.root) ∧
    (up.inSlot 3 15).bound = false ∧ hasPath up .head (jnlLowAddr false) = true ∧ hasPath up .head (jnlLowAddr true) = true := by
  decide +kernel

theorem witness_SealsAndJournalAdvance_leaves :
    let open_ (f : SealCtx → SealCtx := id) : State := up.setCtx 3 (f { st := .opened, epoch := 2 })
    guestsOf up 3 = [] ∧
    (let o := (open_ (fun x => { x with outs := [(0, { spans := [(0, 2)], words := [(0, some 5), (1, some 6)] })] })).outSlot 3 0
     ((o.leaf 0).filterMap id).length = (o.leaf 0).length ∧ (o.leaf 0).filterMap id ≠ [] ∧ o.ready 0 = true) ∧
    (let s := up.setCtx 1027 { st := .opened, epoch := 2, home := some 3, outs := [(0, { spans := [(0, 1)], words := [(0, some 5)] })],
                               ins := [(15, { hashing := true, first := 0, words := 8 })] }
     let s := banksOfRange s 0 8 |>.foldl (fun s n => withBank n (fun b => { b with sealed := true }) s) s
     guestsOf s 3 = [(1027, 3)] ∧ (s.ctx 1027).epoch = 2 ∧ (s.outSlot 1027 0).ready 0 = true ∧ (s.inSlot 3 15).hashing = false ∧
     (s.inSlot 1027 15).hashing = true ∧ ∀ b ∈ banksOfRange s 0 8, (s.bank b).sealed = true) := by
  decide +kernel

theorem witness_SealsAndJournalAdvance_times :
    let writes : State := { still with jnl := { still.jnl with head := 5, written := 4, wrTicks := 700 } }
    let stores : State := { still with jnl := { still.jnl with ckptBusy := [{ seqno := 5, hash := [], time := 0, mode := 5 }], ckTicks := 9999 } }
    writes.jnl.written < writes.jnl.head ∧ stores.jnl.ckptBusy ≠ [] ∧ DueAll writes [] [] [rest 10000 700] [] ∧
    DueAll stores [] [] [rest 10000 9999] [] ∧ Due still [] [] [] := by
  refine ⟨?_, ?_, due_slots _ _ _ _ _ ?_, due_slots _ _ _ _ _ ?_, due_of _ _ _ _ ?_⟩ <;> decide +kernel

/-- A command runs on while the time of an access at the MRAM port passes. -/
theorem witness_SealsAndJournalAdvance_command : let s := doing 0o060 [] still
    (s.slot r).st = 3 ∧ ((pass 10000 s).slot r).st = 3 ∧ ((pass 10000 s).slot r).ended = false ∧ canCommit (pass 10000 s) = true ∧
    (pass 10000 s).jnl.frozen = false ∧ (pass 10000 s).jnl.resolved = true := by decide +kernel

/-! ## Commands -/

/-- A device whose window holds a command in a slot that has been rung. -/
def rung (o : List Octet) (fl : State → State := id) : State :=
  fl ((up.setSlot r { st := 1, order := 5 }).setInst 2 { en := true, win := (List.range 64).map (fun j => (64 + j, o.getD j 0)) })

theorem witness_CommandsAreAdmittedRunAndAnswered :
    let on : State := up.setInst 2 { en := true }
    let nop := rung (cmdWith 1 [])
    let ring := doing 1 [] ({ up with pci := { up.pci with fns := [(2, { msixEn := true })], msix := [(64 * 2 + 4, { mask := false })] } }.setInst 2 { en := true, vec := 4 })
    let e : Entry := { jseq := 9, status := 0o300, kind := 1 }
    let q : SlotRef := ⟨15, 3, 63⟩
    (on.pci.stalled = [] ∧ on.pwr.main12 = true ∧ on.isRoot = true ∧ on.pwr.mode ≠ 9 ∧ (on.inst 2).en = true ∧ (on.inst 2).resetting = false ∧
      (on.slot r).st = 0 ∧ ((doing 1 []).slot r).st = 3) ∧
    ((0x21 : BitVec 64).getLsbD 0 = true ∧ (0x21 : BitVec 64).getLsbD 1 = false ∧ (up.inst 2).en = false) ∧
    ({ up with pwr := { main12 := false } } : State).pwr.main12 = false ∧
    ((nop.slot r).st = 1 ∧ headRuns nop = true ∧ (nop.inst 2).held = [] ∧ nop.isRoot = true ∧ (forwardTarget nop r).toNat = nop.devId) ∧
    ((nop.slot r).st = 1 ∧ slotOctets nop r = cmdWith 1 [] ∧ slotBad nop r = []) ∧
    slotBad (nop.setInst 2 { en := true, winBad := [(64 + 7, true)] }) r = [7] ∧
    (let d : State := up.setSlot r { st := 2, status := 0o101, copy := cmdWith 1 [] }
     headRuns d = true ∧ d.hs.slots.filter (fun z => decide (z.2.st = 2)) = [(slotKey r, d.slot r)] ∧ (d.slot r).st = 2) ∧
    headRuns { up with hs := { locked := true } } = false ∧ (0x80050010 : BitVec 32).getLsbD 31 = true ∧ (0 : BitVec 32).getLsbD 31 = false ∧
    ((on.inst 2).held = [] ∧ ((up.setInst 2 { en := true, held := [e] }).inst 2).held = [e] ∧
      ringOpen { en := true, held := [e], ringHead := 77 } = true ∧ up.pci.up = true ∧ (up.fnCfg 2).msixEn = false) ∧
    ((up.slot r).st ≠ 2 ∧ (up.slot r).st ≠ 3) ∧
    (((doing 1 []).slot r).st = 3 ∧ cmdOpc ((doing 1 []).slot r).copy = 1 ∧ ((doing 1 []).slot r).begun = false) ∧
    ((ring.slot r).st = 3 ∧ ring.evf.lut = [] ∧ ring.evf.ch = [] ∧ ring.isRoot = true ∧ (ring.inst 2).held = [] ∧ ringOpen (ring.inst 2) = true ∧
      (ring.fnCfg 2).msixEn = true ∧ (ring.fnCfg 2).fmask = false ∧ (ring.msixOf 2 4).mask = false ∧ (ring.inst 2).vec.toNat = 4) ∧
    (cmdOpc ((doing 5 [0x16A]).slot r).copy = 5 ∧ cmdArg ((doing 5 [0x16A]).slot r).copy 0 % 512 ≤ 362) ∧
    (let s := (doing 6 [55]).setSlot q { st := 3, jseq := 55 }
     cmdOpc (s.slot r).copy = 6 ∧ s.jnl.head + 2 ≤ s.jnl.written + 256 ∧ (s.slot q).st = 3 ∧
     (s.slot q).jseq.toNat = cmdArg (s.slot r).copy 0 ∧
     (∀ z ∈ s.hs.slots, z.2.jseq.toNat = cmdArg (s.slot r).copy 0 → z.1 = slotKey q) ∧ r ≠ q) := by decide +kernel

theorem witness_CommandsAreAdmittedRunAndAnswered_deadlines :
    ∀ st ∈ [(2 : BitVec 8), 3], let s := (doing 1 [] still).modSlot r (fun z => { z with st := st, ticks := 90 })
      ((s.slot r).st = st ∧ headRuns s = true ∧ canCommit s = true) ∧
      Due s [] [] [rest (100 * cmdDeadline (s.slot r).copy) (s.slot r).ticks] := by
  intro st h
  simp only [List.mem_cons, List.not_mem_nil, or_false] at h
  obtain rfl | rfl := h <;> exact ⟨by decide +kernel, due_slots _ _ _ _ _ (by decide +kernel)⟩

theorem witness_CommandsAreAdmittedRunAndAnswered_forwarded :
    let net (links : Tab WLink) : State :=
      { rung (cmdWith 1 []) with rst := { up.rst with opt0 := { topo := 3 } }, wov := { fwd := [(2, 1)], links := links } }
    ∀ p ∈ [true, false], let s := net (if p then [(0, { up := true, nbr := 1, nbrLink := 1 })] else [])
      (s.slot r).st = 1 ∧ headRuns s = true ∧ (s.inst 2).held = [] ∧ s.isRoot = true ∧ (forwardTarget s r).toNat = 1 ∧ s.devId = 0 ∧
      devicePresent s 1 = p := by decide +kernel

theorem witness_CommandsAreAdmittedRunAndAnswered_transfers :
    let copy := cmdWith 0o10 [0, 0, 4]
    let net (f : State → State := id) : State :=
      { rung copy f with rst := { up.rst with opt0 := { topo := 3 } }, wov := { fwd := [(2, 1)], links := [(0, { up := true, nbr := 1, nbrLink := 1 })] } }
    let full (s : State) : State := { s with hs := { s.hs with pool := 255 } }
    let sent (pool : Nat) : State := { up with hs := { pool := pool, slots := [(slotKey r, { fst := 2, fwdTo := some 1, copy := copy })] } }
    (∀ p ∈ [(net, false), (net full, true)], (p.1.slot r).st = 1 ∧ headRuns p.1 = true ∧ (p.1.inst 2).held = [] ∧ p.1.isRoot = true ∧
      (forwardTarget p.1 r).toNat ≠ p.1.devId ∧ devicePresent p.1 (forwardTarget p.1 r).toNat = true ∧ slotBad p.1 r = [] ∧ isDma copy = true ∧
      slotOctets p.1 r = copy ∧ (p.1.slot r).chan = none ∧ chansBusy p.1 r copy = false ∧ decide (254 < p.1.hs.pool) = p.2 ∧ p.1.hs.chans.length = 8) ∧
    (∀ n ∈ [0, 255], headRuns (sent n) = true ∧ (sent n).isRoot = true ∧ ((sent n).slot r).st = 0 ∧ ((sent n).slot r).fwdTo = some 1 ∧
      ((sent n).slot r).fst = 2 ∧ ((sent n).slot r).chan = none ∧ chansBusy (sent n) r copy = false ∧ (sent n).hs.slots = [(slotKey r, (sent n).slot r)]) ∧
    (let d : State := up.setSlot r { st := 2, status := 0o101, copy := cmdWith 1 [] }; ∀ z ∈ d.hs.slots, z.2.fwdTo = none) ∧
    ((up.fnCfg 2).d3 = false ∧ ((doing 1 []).slot r).ended = false) := by decide +kernel

theorem witness_InstancesAreConfiguredRunAndReset :
    let q : SlotRef := ⟨2, 0, 0⟩
    let jb : Job := { lathes := 2, left := 2, ctx := 4, sealed := false }
    let base : State := up.setInst 2 { lathes := 3, epoch := 7 }
    let cmd (opc : Nat) (args : List Nat) : State := doing opc args base
    let jobs (dev : Nat) (links : Tab WLink := []) : State :=
      (doing 0o21 [55, 8, dev] { base with rst := { up.rst with opt0 := { topo := 3 } }, wov := { links := links } }).setSlot q
        { st := 3, jseq := 55, job := some jb }
    let zeroed : State := ((cmd 4 [2]).setInst 2 { resetting := true, zeroing := true, resetCmds := [r] })
    let arg (s : State) (k : Nat) : Nat := cmdArg (s.slot r).copy k
    (∀ e ∈ [(2, [2, 3, 5, 9]), (2, [2, 12, 5, 9]), (3, [2, 62, 3]), (3, [258, 62, 3]), (4, [2]), (0o20, [3, 5, 6, 7])],
      ((cmd e.1 e.2).slot r).st = 3 ∧ cmdOpc ((cmd e.1 e.2).slot r).copy = e.1 ∧ ((cmd e.1 e.2).slot r).begun = false ∧ canCommit (cmd e.1 e.2) = true ∧
      (cmd e.1 e.2).wov.ops = [] ∧ (cmd e.1 e.2).spindles = []) ∧
    (arg (cmd 2 [2, 3, 5, 9]) 0 = 2 ∧ BitVec.ofNat 16 (arg (cmd 2 [2, 3, 5, 9]) 1) = ((cmd 2 []).inst 2).lathes ∧
      BitVec.ofNat 16 (arg (cmd 2 [2, 12, 5, 9]) 1) ≠ ((cmd 2 []).inst 2).lathes) ∧
    (arg (cmd 3 [258, 62, 3]) 0 = 2 + 256 ∧ (base.inst 2).resetting = false ∧ (2 : Fin 16) ≠ 0) ∧
    ((zeroed.inst 2).zeroing = true ∧ (zeroed.inst 2).resetCmds = [r] ∧ ((zeroed.setInst 5 { zeroing := true }).inst 5).resetCmds = []) ∧
    (let z := (doing 4 [3] (base.setInst 3 { resetting := true, zeroing := true, resetCmds := [r] }))
     (z.inst 3).zeroing = true ∧ (z.inst 3).resetCmds = [r] ∧ r.i ≠ 3 ∧ (z.slot r).st = 3 ∧ canCommit z = true) ∧
    (let s := jobs 0
     ((s.slot r).st = 3 ∧ cmdOpc (s.slot r).copy = 0o21) ∧ (s.slot q).st = 3 ∧ (s.slot q).jseq.toNat = arg s 0 ∧ (s.slot q).job = some jb ∧ r ≠ q ∧
     (∀ z ∈ s.hs.slots, z.2.jseq.toNat = arg s 0 → z.1 = slotKey q) ∧ arg s 2 = s.devId ∧ jb.lathes = BitVec.ofNat 16 (2 ^ 1) ∧
     BitVec.ofNat 16 (arg s 1) = BitVec.ofNat 16 (2 ^ 3) ∧ s.spindles = [] ∧ canCommit s = true) ∧
    (let s := jobs 1 [(0, { up := true, nbr := 1, nbrLink := 1 })]
     arg s 2 ≠ s.devId ∧ arg s 2 < 64 ∧ devicePresent s (arg s 2) = true ∧ s.spindles = [] ∧ devicePresent (jobs 1) 1 = false) ∧
    (let s := cmd 0o21 [55, 8, 0]; ∀ z ∈ s.hs.slots, z.2.jseq.toNat ≠ arg s 0) := by decide +kernel

theorem witness_InstancesAreConfiguredRunAndReset_banks :
    let base : State := up.setInst 2 { lathes := 3, epoch := 7 }
    let cmd (opc : Nat) (args : List Nat) : State := doing opc args base
    let d : March := { first := 8, last := 15, pres := false, repair := false, group := 1, inst := some 2 }
    let run : State := withBank 8 (fun b => { b with granted := some 2, ownCl := 5, march := true })
      ({ up with scr := { march := some d } }.setInst 2 { resetting := true, zeroing := true })
    (let s := withBank 63 (fun b => { b with sealed := true }) (withBank 64 (fun b => { b with retired := true }) (cmd 3 [2, 62, 3]))
     (s.bank 62).isPending = false ∧ (s.bank 62).sealed = false ∧ (s.bank 62).retired = false ∧ (s.bank 63).isPending = false ∧ (s.bank 63).sealed = true ∧
     (s.bank 63).retired = false ∧ (s.bank 64).retired = true) ∧
    (({ base with scr := { march := some d } } : State).scr.march ≠ none ∧ (cmd 3 [258, 62, 3]).scr.march = none ∧ 62 + 3 ≤ 1023 ∧
      (cmd 3 [258, 62, 3]).banks = [] ∧ ({} : Bank).march = false) ∧
    (let s := base.setInst 2 { resetting := true }
     (s.inst 2).resetting = true ∧ (s.inst 2).zeroing = false ∧ s.groups = [] ∧ s.scr.march = none) ∧
    ((run.inst 2).zeroing = true ∧ (run.inst 2).resetCmds = [] ∧ run.scr.march = some d ∧ d.inst = some 2 ∧ d.pres = false ∧ d.repair = false ∧
      (run.bank 8).granted = some 2 ∧ (run.bank 8).retired = false ∧ (run.bank 8).march = true ∧ (run.bank 8).heldLock = false ∧
      (run.bank 8).newEpoch = none ∧ d.group ≤ 8 / 8 ∧ d.first ≤ 8 ∧ 8 ≤ d.last) := by decide +kernel

theorem witness_InstancesAreConfiguredRunAndReset_handovers :
    let base : State := up.setInst 2 { lathes := 3, epoch := 7 }
    let cmd (opc : Nat) (args : List Nat) (s : State := base) : State := doing opc args s
    let pending (s : State) : State := withBank 63 (fun b => { b with drain := some .handover }) s
    let tested (s : State) : State := [62, 63, 64, 65].foldl (fun s n => withBank n (fun b => { b with ownCl := 5, granted := some 2 }) s) s
    let far : State := { base with rst := { up.rst with opt0 := { topo := 3 } }, fus := { straps := 5 }, wov := { ackWait := [(2, [6])] } }
    (let s := pending (cmd 3 [2, 62, 3])
     62 ≤ 63 ∧ 63 ≤ 62 + 3 ∧ (s.bank 63).isPending = true ∧ (s.slot r).st = 3 ∧ (s.slot r).ended = false) ∧
    (let s := cmd 3 [258, 62, 3]
     s.scr.march = none ∧ (s.bank 62).retired = false ∧ (s.bank 62).ownCl ≠ 5 ∧ (s.bank 62).isPending = false ∧ (s.bank 62).sealed = false) ∧
    (let s := tested (cmd 3 [258, 62, 3])
     62 + 3 ≤ 1023 ∧ (∀ x ∈ s.banks, x.2.march = false) ∧ ∀ n ∈ [62, 63, 64, 65], (s.bank n).retired = false ∧ (s.bank n).ownCl = 5 ∧ (s.bank n).isPending = false ∧
       (s.bank n).sealed = false ∧ (s.bank n).newEpoch = none ∧ (s.bank n).heldLock = false) ∧
    (let s := (cmd 4 [2]).setInst 2 { lathes := 3, resetting := true, resetCmds := [⟨1, 0, 0⟩] }
     (s.slot r).st = 3 ∧ (s.inst 2).resetting = true) ∧
    (let s := tested (base.setInst 2 { resetting := true })
     (∀ n ∈ [62, 63, 64, 65], (s.bank n).granted = some 2 ∧ (s.bank n).ownCl = 5 ∧ (s.bank n).isPending = false ∧ (s.bank n).sealed = false) ∧
     s.groups = [] ∧ s.scr.march = none ∧ (s.inst 2).resetting = true ∧ (s.inst 2).zeroing = false) ∧
    (let s := withBank 62 (fun b => { b with granted := some 2 }) (base.setInst 2 { resetting := true })
     (s.bank 62).granted = some 2 ∧ (s.bank 62).ownCl ≠ 5 ∧ (s.bank 62).isPending = false ∧ (s.bank 62).sealed = false) ∧
    (let s := cmd 0o20 [3, 5, 6, 7]
     100 * cmdDeadline (s.slot r).copy - (s.slot r).ticks ≠ 0 ∧ 100 * cmdDeadline (s.slot r).copy - (s.slot r).ticks < 2 ^ 30) ∧
    (let s := withBank 64 (fun b => { b with granted := some 2 }) base
     64 / 64 = (1 : Fin 16).val ∧ (s.bank 64).granted = some 2 ∧ (s.bank 64).isPending = false ∧ (s.bank 64).sealed = false ∧ (s.bank 64).retired = false ∧
     (s.bank 64).newEpoch = none ∧ (s.bank 64).heldLock = false ∧ (s.bank 64).lend ≠ 3 ∧ (s.bank 64).lscope ≠ 3) ∧
    (let s := cmd 0o21 [55, 8, 0] far
     s.isRoot = false ∧ (s.slot r).asked = false ∧ r.i = 2 ∧ s.spindles = [] ∧ tget [] s.wov.ackWait 2 ≠ []) := by decide +kernel

theorem witness_TransfersAndHostAccessesAreServed :
    let arg (s : State) (k : Nat) : Nat := cmdArg (s.slot r).copy k
    let cmd (opc : Nat) (a2 : Nat) : State := doing opc [0x1F00, pad, a2]
    let x : Xfer := { ref := r, out := false, host := 0x1000, dev := pad, count := 5, packing := 0, ctx := 0, slot := 0, running := true, armed := false }
    let moving (y : Xfer) : State := (doing 8 []).setChan 2 (some y)
    let busyBank (f : Bank → Bank) : State := withBank 192 f (moving { x with dev := bankWord })
    let host : State := { up with pci := { up.pci with fns := [(5, { present := false })] } }
    let bar : State := withBank 192 (fun b => { b with ownCl := 2, ownId := 0 })
    (∀ e ∈ [(8, 300), (8, 300 + 2 ^ 47 + 2 ^ 48 * 6), (8, 8 + 2 ^ 46), (9, 300)], ((cmd e.1 e.2).slot r).st = 3 ∧
      cmdOpc ((cmd e.1 e.2).slot r).copy = e.1 ∧ ((cmd e.1 e.2).slot r).begun = false ∧ (cmd e.1 e.2).hs.chans.length = 8 ∧
      (cmd e.1 e.2).hs.chans.getD 0 none = none ∧ arg (cmd e.1 e.2) 2 = e.2) ∧
    (300 / 2 ^ 46 % 2 = 0 ∧ 300 / 2 ^ 47 % 2 = 0 ∧ 0 < 300 % 2 ^ 32 ∧ (8 + 2 ^ 46) / 2 ^ 46 % 2 = 1 ∧ (300 + 2 ^ 47 + 2 ^ 48 * 6) / 2 ^ 48 % 8 = 6) ∧
    (let s := doing 8 [0x1F00, bankWord, 8 + 2 ^ 46]
     ∀ n ∈ banksOfRange s (arg s 1) (arg s 2 % 2 ^ 32), (s.bank n).isPending = false ∧ (s.bank n).sealed = false ∧ (s.bank n).retired = false) ∧
    ((moving x).hs.chans.getD 2 none = some x ∧ x.failed = none ∧ x.packing = 0 ∧ x.octets = [] ∧ x.done < x.count ∧ areaOf (x.dev + x.done) = .scratch 3 ∧
      2 < (moving x).hs.chans.length ∧ ((moving x).slot x.ref).st = 3 ∧ canCommit (moving x) = true) ∧
    (let s := busyBank (fun b => { b with ownCl := 2, ownId := 2, inst := 2 })
     judge s (bankOf s bankWord) (reqDma 2 2) true = .granted ∧ areaOf bankWord = .bank ∧
     judge (busyBank (fun b => { b with ownCl := 6 })) 192 (reqDma 2 2) true = .nonOwner) ∧
    2 ^ 36 ≤ octetsToNat [0, 0, 0, 0, 0x10, 0, 0, 0] ∧ (moving { x with done := 5 }).hs.chans.getD 2 none = some { x with done := 5 } ∧
    (moving { x with failed := some (0o302, 7, 0) }).hs.chans.getD 2 none = some { x with failed := some (0o302, 7, 0) } ∧
    (moving { x with out := true, count := 1, host := 0x11F8 }).hs.chans.getD 2 none = some { x with out := true, count := 1, host := 0x11F8 } ∧
    0x11F8 % 512 ≤ 504 ∧ (moving x).hs.chans.getD 7 none = none ∧
    (host.pwr.main12 = true ∧ host.pci.up = true ∧ host.isRoot = true ∧ host.pwr.mode = 6 ∧ host.pci.functionsUp = true ∧ host.pci.vfEnable = true ∧
      (host.fnCfg 15).present = true ∧ (host.fnCfg 5).present = false) ∧
    (0x3FFC + 4 ≤ 0x4000 ∧ (0x4018 : BitVec 20).toNat = 0x4000 + 8 * 3) ∧
    (judge bar (bankOf bar bankWord) (reqDma 0 0) false = .granted ∧ judge bar (bankOf bar bankWord) (reqDma 0 0) true = .granted ∧
      (BitVec.ofNat 28 (8 * bankWord)).toNat / 8 = bankWord ∧ (BitVec.ofNat 28 (8 * bankWord)).toNat % 8 = 0 ∧ bar.pci.half = false) ∧
    (let s : State := { up with pci := { up.pci with fns := [(2, { msixEn := true })], msix := [(64 * 2 + 63, { pend := true })] } }
     (s.fnCfg 2).msixEn = true ∧ (s.fnCfg 2).fmask = false ∧ (s.msixOf 2 63).pend = true ∧ (s.msixOf 2 0).pend = false) ∧
    (∀ k ∈ List.range 8, up.hs.chans.getD k none = none) ∧
    (∀ k ∈ List.range 8, k ≠ 2 → (moving x).hs.chans.getD k none = none) ∧ ({ up with pci := {} } : State).pci.up = false ∧ up.rst.perstLow = false ∧
    ({ up with pci := { up := true } } : State).pci.functionsUp = false := by decide +kernel

theorem witness_TransfersAndHostAccessesAreServed_waits :
    let x : Xfer := { ref := r, out := false, host := 0x1000, dev := pad, count := 5, packing := 0, ctx := 0, slot := 0, running := true, armed := false }
    let moving (y : Xfer) : State := (doing 8 []).setChan 2 (some y)
    let busyBank (f : Bank → Bank) : State := withBank 192 f (moving { x with dev := bankWord })
    (x.owners = [] ∧ (moving x).groups = [] ∧ up.pci.stalled = []) ∧
    (let u : State := { moving { x with out := true } with groups := [(0, some (movGroup (padStr 0) (fun g =>
       { g with members := [{ v := mov, dw := { w0 := BitVec.ofNat 36 pad, w1 := 4416 }, da := padStr 0 }] })))] }
     u.hs.chans.getD 2 none = some { x with out := true } ∧ resultsDue u { x with out := true } = true) ∧
    (let u := busyBank (fun b => { b with ownCl := 2, ownId := 0, drain := some .handover })
     judge u (bankOf u bankWord) (reqDma 0 0) true = .stalls ∧ performHost (.bar2Write (BitVec.ofNat 28 (8 * bankWord)) (k8 8 [5]) false) u = none) := by decide +kernel

theorem witness_TransfersAndHostAccessesAreServed_forwarded :
    let x : Xfer := { ref := r, out := false, host := 0x1000, dev := pad, count := 5, packing := 0, running := true }
    let far (s : State) : State := { s with rst := { up.rst with opt0 := { topo := 3 } }, fus := { straps := 5 } }
    let moving (y : Xfer) : State := (doing 8 []).setChan 2 (some y)
    (∀ opc ∈ [0o10, 0o11], let s := far ((doing opc [0x1F00, pad, 300]).modSlot r (fun z => { z with chan := some 7 }))
     (s.slot r).st = 3 ∧ s.isRoot = false ∧ (s.slot r).chan = some 7 ∧ s.hs.chans.length = 8 ∧ 300 / 2 ^ 46 % 2 = 0 ∧ s.hs.chans.getD 7 none = none) ∧
    (let s := doing 8 [0x1F00, pad, 300]; s.isRoot = true ∧ ∀ z ∈ s.hs.slots, z.2.st = 3 → z.2.begun = false → z = (slotKey r, s.slot r)) ∧
    (let s := moving { x with far := some 6 }
     s.hs.chans.getD 2 none = some { x with far := some 6 } ∧ s.hs.chans.length = 8 ∧ octetLen 0 x.count > x.got ∧ ∀ k ∈ List.range 8, k ≠ 2 → s.hs.chans.getD k none = none) ∧
    (let s := moving x
     s.hs.chans.getD 2 none = some x ∧ x.far = none ∧ x.failed = none ∧ pathBusy s (xferReq s 2 r.i) pad = false ∧ (s.slot r).ended = false) ∧
    (let s := far (moving { x with out := true, count := 1, host := 0x11F8 })
     s.isRoot = false ∧ s.groups = [] ∧ areaOf pad = .scratch 3 ∧ pathBusy s (xferReq s 2 r.i) pad = false) ∧
    ((up.fnCfg 5).d3 = false ∧ (up.fnCfg 0).d3 = false ∧ pathBusy up (reqDma 0 0) bankWord = false ∧ ({ up with pci := {} } : State).pci.up = false) := by decide +kernel

theorem witness_CommandsActOnSealsJournalAndFirmware :
    let arg (s : State) (k : Nat) : Nat := cmdArg (s.slot r).copy k
    let room2 (s : State) : Prop := canCommit s = true ∧ s.jnl.head + 2 ≤ s.jnl.written + 256
    let rec_ : SealRec := { jseq := 77, inst := 2, body := [1, 2, 3] }
    let e : JEntry := { body := { kind := 9 }, time := 33, link := [] }
    let sealOpen : State := doing 0o30 [] (up.setCtx 0 { st := .opened })
    (∀ q ∈ [(0o30, [0]), (0o31, [5 + 256 * 15 + 4096, 4, 99]), (0o31, [5, 0, 8]), (0o32, [5]), (0o33, [0, 77]), (0o40, [0, 7, 1]), (0o40, [0, 3, 0x10001]),
        (0o42, [0, 1]), (0o41, [2]), (0o43, [9, 5]), (0o50, [8]), (0o50, [7]), (0o50, [9]), (0o60, [0, 0, 5]), (0o61, []), (0o62, []), (0o63, [])],
      ((doing q.1 q.2).slot r).st = 3 ∧ cmdOpc ((doing q.1 q.2).slot r).copy = q.1 ∧ ((doing q.1 q.2).slot r).begun = false ∧ room2 (doing q.1 q.2) ∧
      (∀ j ∈ List.range q.2.length, arg (doing q.1 q.2) j = q.2.getD j 0)) ∧
    (sealOpen.ts.pendingLock = none ∧ (sealOpen.ctx 1).st = .closed ∧ (∀ c ∈ List.range 1, (sealOpen.ctx c).st ≠ .closed)) ∧
    (∀ q ∈ [(0o31, [5 + 256 * 15 + 4096, 4, 99]), (0o31, [5, 0, 8]), (0o32, [5])], let s := (doing q.1 q.2).setCtx 5 { st := .opened, inst := 2 }
      (s.ctx 5).st = .opened ∧ (s.ctx 5).inst.toNat = r.i.val ∧ (up.ctx 5).st ≠ .opened) ∧
    (let u := doing 0o43 [9, 5] still
     u.rst.inProgress = none ∧ headRuns u = true ∧ 1 < rest (100 * cmdDeadline (u.slot r).copy) (u.slot r).ticks) ∧
    ({ up with ts := { pendingLock := some .light } } : State).ts.pendingLock ≠ none ∧
    (5 + 256 * 15 + 4096) / 256 % 16 = 15 ∧ (5 + 256 * 15 + 4096) / 4096 % 2 = 1 ∧ 5 / 4096 % 2 = 0 ∧
    (∀ b ∈ banksOfRange up 0 8, tget 0 up.ts.lockCnt b = 0 ∧ (up.bank b).isPending = false ∧ (up.bank b).sealed = false ∧ (up.bank b).heldLock = false) ∧
    up.ts.unsigned.length < 64 ∧ 64 ≤ ({ up with ts := { unsigned := List.replicate 64 rec_ } } : State).ts.unsigned.length ∧
    (rec_.jseq.toNat = 77 ∧ rec_.inst.toNat = r.i.val ∧ rec_.body ++ fit 96 rec_.sig ≠ [] ∧ 0 % 512 + (rec_.body ++ fit 96 rec_.sig).length ≤ 512) ∧
    (([(7, e)] : Tab JEntry).find? (fun z => decide (z.1 = 7)) = some (7, e) ∧ 256 + (entryBytes 7 e).length ≤ 512 ∧ entryBytes 7 e ≠ [] ∧
      (fit 256 [1] : List Octet) ≠ [] ∧ (fit 256 [1] : List Octet).length ≤ 512) ∧
    (let s : State := { up with jnl := { up.jnl with head := 5, written := 5, drained := 1 } }; room2 s ∧ s.jnl.drained ≤ 2 ∧ 2 ≤ s.jnl.head) ∧
    ({ up with jnl := { frozen := true } } : State).jnl.frozen = true ∧ up.pwr.mode = 6 ∧
    ((∀ z ∈ (doing 0o50 [7]).hs.slots, z.2.st = 3 → z.1 = slotKey r) ∧ (up.lathe 15).inSvc = true ∧ (up.lathe 15).det = false) ∧
    (({ up with pwr := { mode := 6, cfgRung := 1 } } : State).pwr.cfgRung.toNat < 2 ∧ 4 ≤ ({ up with pwr := { mode := 6, cfgRung := 5 } } : State).pwr.cfgRung.toNat ∧
      up.wov.ops = []) ∧ up.opt.active = false ∧ up.rst.slotB.len = 0 ∧
    ({ up with rst := { slotB := { st := .loaded } } } : State).rst.slotB.st = .loaded ∧ up.rst.slotB.st ≠ .loaded := by decide +kernel

theorem witness_CommandsActOnSealsJournalAndFirmware_time : let u := doing 0o43 [9, 5] still
    DueAll u [] [] [] [rest (100 * cmdDeadline (u.slot r).copy) (u.slot r).ticks] := due_slots _ _ _ _ _ (by decide +kernel)

theorem witness_LinksCarryOperationsAndMessages :
    let net (dev : BitVec 6) (f : Wov → Wov := id) (g : State → State := id) : State :=
      g { up with rst := { up.rst with opt0 := { topo := 3 } }, fus := { straps := dev }, wov := f {} }
    let linked (w : Wov) : Wov := { w with links := [(0, { up := true, width := 2, nbr := 6, nbrLink := 1 })] }
    let s := net 5
    let a := 2 ^ 19 * 24
    let lent (d : BitVec 2) (s : State) : State := withBank 192 (fun b => { b with lend := d, lscope := 2 }) s
    let req (inc : BitVec 8) : RemoteReq := { dest := 5, dev := 6, cl := 1, id := 3, tag := 3, inst := 0, epoch := 0, inc := inc, addr := BitVec.ofNat 26 a, write := false }
    let waiting (k : RKind) : State := net 5 (fun w => { w with ops := [⟨44, k, 6, 9, 0⟩] }) (fun s => withThr (fun t => { t with loads := [{ kind := .store, va := 5, pa := a + 2, tag := some 44 }] }) s)
    (neighbour s.shape s.ringSize s.devId 0 = some (6, 1) ∧ neighbour s.shape s.ringSize s.devId 5 = some (53, 4) ∧ neighbour up.shape up.ringSize up.devId 0 = none) ∧
    ((s.wlink 0).up = false ∧ ((net 5 linked).wlink 0).up = true) ∧
    (let u := doing 1 [] (net 5 (fun w => { linked w with ops := [⟨44, .command r, 6, 9, 0⟩] }))
     (u.wlink 0).up = true ∧ u.wov.ops = [⟨44, .command r, (u.wlink 0).nbr, 9, 0⟩] ∧ (u.wlink 0).nbr.toNat < shapeSize u.shape u.ringSize ∧
     (routeTo u (u.wlink 0).nbr.toNat).map Prod.fst = some 0 ∧ (∀ z ∈ u.hs.slots, z.2.fwdTo = none) ∧ (u.slot r).st = 3 ∧ canCommit u = true) ∧
    ((9 : BitVec 6).toNat ≠ s.devId ∧ 8 * 9 + 5 ∉ s.wov.deadLinks ∧ 8 * 9 + 5 ∈ (net 5 (fun w => { w with deadLinks := [77] })).wov.deadLinks ∧ (5 : BitVec 6).toNat = s.devId) ∧
    ((req 1).inc ≠ s.incarnation ∧ (req 0).inc = s.incarnation ∧ s.rst.inProgress = none) ∧
    (judge (lent 1 s) (bankOf (lent 1 s) a) (reqWovas 0 none) false = .granted ∧ judge (lent 2 s) (bankOf (lent 2 s) a) (reqWovas 0 (some 0)) true = .granted ∧
      judge (lent 1 s) (bankOf (lent 1 s) a) (reqWovas 0 (some 0)) true = .nonOwner ∧ (BitVec.ofNat 26 a).toNat % 4 = 0) ∧
    ((∀ o ∈ s.wov.ops, o.tag ≠ 9) ∧ (waiting (.load th)).wov.ops = [⟨44, .load th, 6, 9, 0⟩] ∧ (8 : BitVec 8) ≠ 9 ∧
      ((waiting (.store th)).thr th).loads = [{ kind := .store, va := 5, pa := a + 2, tag := some 44 }] ∧ (waiting (.store th)).wov.ops = [⟨44, .store th, 6, 9, 0⟩]) := by
  decide +kernel

theorem witness_LinksCarryOperationsAndMessages_rest :
    let net (dev : BitVec 6) (ops : List ROp := []) : State :=
      { up with rst := { up.rst with opt0 := { topo := 3 } }, fus := { straps := dev }, wov := { ops := ops } }
    let s := net 5
    let root := net 0
    let e : Entry := { kind := 1, mbx := 3, slot := 63 }
    (let u := doing 1 [] (net 5 [⟨44, .command r, 6, 9, 0⟩]); u.wov.ops = [⟨44, .command r, 6, 9, 0⟩] ∧ (u.slot r).st = 3 ∧ canCommit u = true ∧
      placementOf u r = none) ∧
    (s.isRoot = false ∧ (cmdWith 0o377 []).length = 64 ∧ headRuns s = true ∧ headRuns { s with hs := { s.hs with locked := true } } = false ∧
      fieldsOk (cmdWith 0o377 []) = false) ∧
    (let f := root.setSlot ⟨15, 3, 63⟩ { fst := 3, fwdTo := some 7 }
     f.isRoot = true ∧ e.kind = 1 ∧ (f.slot ⟨15, e.mbx, e.slot⟩).fwdTo = some 7 ∧ (f.inst 15).en = false ∧ e.kind ≠ 2 ∧ (root.slot ⟨15, e.mbx, e.slot⟩).fwdTo ≠ some 7) ∧
    (let b := up.setInst 3 { lathes := 3 }
     barrierHead b 3 = b.devId ∧ (∃ c ∈ participants b 3, c ∉ (b.bar 3).removed ∧ c ∉ (b.bar 3).arrived ++ [0]) ∧
     (¬ ∃ c ∈ participants b 3, c ∉ (b.bar 3).removed ∧ c ∉ (b.bar 3).arrived ++ [0, 1]) ∧
     (let b := up.setInst 3 { lathes := 7 }; ∃ c ∈ participants b 3, c ∉ (b.bar 3).removed ++ [1] ∧ c ∉ (b.bar 3).arrived ++ [0])) ∧
    (let t := withThr (fun t => { t with hold := .afence true [7] }) (up.setInst 3 { lathes := 8 })
     (t.thr th).hold = .afence true [7] ∧ (ownLathes t 3).getLsbD 3 = true) ∧ s.spindles = [] := by decide +kernel

theorem witness_LinksCarryOperationsAndMessages_time :
    let u := { doing 1 [] { up with fus := { straps := 5 }, wov := { ops := [⟨44, .command r, 6, 9, 30⟩] } } with
      rst := { still.rst with opt0 := { topo := 3 } } }
    ((u.slot r).st = 3 ∧ (u.slot r).ended = false ∧ canCommit u = true ∧ rest 400 30 < rest (100 * cmdDeadline (u.slot r).copy) (u.slot r).ticks ∧
      headRuns u = true) ∧
    Due u [] [rest 400 30] [rest (100 * cmdDeadline (u.slot r).copy) (u.slot r).ticks] :=
  ⟨by decide +kernel, due_slots _ _ _ _ _ (by decide +kernel)⟩

theorem witness_LinksCarryOperationsAndMessages_transit :
    let net (dev : BitVec 6) (w : Wov := {}) (f : State → State := id) : State :=
      f { up with rst := { up.rst with opt0 := { topo := 3 } }, fus := { straps := dev }, wov := w }
    let a := 2 ^ 19 * 24
    let near : Wov := { links := [(0, { up := true, width := 2, nbr := 6, nbrLink := 1 })] }
    let req (dest : BitVec 6) (write : Bool) : RemoteReq :=
      { dest := dest, dev := 6, cl := 1, id := 3, tag := 3, inst := 0, epoch := 0, inc := 0, addr := BitVec.ofNat 26 a, write := write, mask := 0xFFFF, poison := 0 }
    let busy : State := net 5 {} (fun s => withBank 192 (fun b => { b with lend := 2, lscope := 2, drain := some .handover }) s)
    (∀ w ∈ [{}, near], (req 6 false).dest.toNat ≠ (net 5 w).devId) ∧ devicePresent (net 5 near) 6 = true ∧ devicePresent (net 5) 6 = false ∧
    (let s := net 5 { waiting := [req 5 false] }
     (req 5 true).dest.toNat = s.devId ∧ s.wov.waiting.any (sameSender (req 5 true)) = true) ∧
    ((req 5 true).inc = busy.incarnation ∧ busy.rst.inProgress = none ∧ busy.wov.waiting = [] ∧ (req 5 true).mask ≠ 0 ∧ (req 5 true).poison = 0 ∧
      judge busy (bankOf busy a) (reqWovas 0 none) false = .stalls ∧ judge busy (bankOf busy a) (reqWovas 0 (some 0)) true = .stalls) ∧
    (let s := net 5 {} (fun s => withBank 192 (fun b => { b with lend := 2, lscope := 2 }) s)
     pathBusy s (reqWovas 0 none) a = false ∧ pathBusy s (reqWovas 0 (some 0)) a = false) ∧ (5 : BitVec 6).toNat = (net 5).devId ∧
    (neighbour (net 5).shape (net 5).ringSize 6 0 = some (7, 1) ∧ 8 * 6 + 0 ∉ (net 5).wov.deadLinks) := by decide +kernel

theorem witness_LinksCarryOperationsAndMessages_slots :
    let jb : Job := { lathes := 2, left := 2, ctx := 4, sealed := false }
    let q : SlotRef := ⟨2, 0, 0⟩
    let moves : State := (doing 0o21 [55, 8, 6] { up with wov := { ops := [⟨44, .command r, 6, 9, 0⟩] } }).setSlot q { st := 3, jseq := 55, job := some jb }
    let e : Entry := { kind := 1, mbx := 3, slot := 63, fwd := 9 }
    let root (z : Slot) : State := up.setSlot ⟨15, 3, 63⟩ z
    let far (z : Slot) : State := { up.setSlot r z with rst := { up.rst with opt0 := { topo := 3 } }, fus := { straps := 5 } }
    let b := up.setInst 3 { lathes := 7 }
    (placementOf moves r = some (q, lathePairs 2 8) ∧ q ≠ r ∧ (moves.slot q).job = some jb ∧ (moves.slot r).st = 3 ∧ (moves.slot r).ended = false) ∧
    ((far { st := 2, fwd := 9 }).isRoot = false ∧ ((far { st := 2, fwd := 9 }).slot r).fwd = 9 ∧ ((far { st := 2, fwd := 9 }).slot r).st = 2 ∧
      ((far { st := 2, fwd := 8 }).slot r).fwd ≠ 9) ∧
    (let s := root { fst := 3, fwdTo := some 7, fwd := 9 }
     s.isRoot = true ∧ (s.slot ⟨15, e.mbx, e.slot⟩).fwdTo = some 7 ∧ (s.slot ⟨15, e.mbx, e.slot⟩).fwd = e.fwd ∧ (s.slot ⟨15, e.mbx, e.slot⟩).st ≠ 3) ∧
    (let s := root { fst := 3, fwdTo := some 7, fwd := 8 }; (s.slot ⟨15, e.mbx, e.slot⟩).fwd ≠ e.fwd) ∧
    (let s := root { st := 3, job := some { jb with moved := some 7 } }
     e.kind = 1 ∧ (s.slot ⟨15, e.mbx, e.slot⟩).st = 3 ∧ (s.slot ⟨15, e.mbx, e.slot⟩).job = some { jb with moved := some 7 } ∧
     (s.slot ⟨15, e.mbx, e.slot⟩).ended = false ∧ canCommit s = true) ∧
    (barrierHead b 3 = b.devId ∧ (∃ c ∈ participants b 3, c ∉ (b.bar 3).removed ++ [1] ∧ c ∉ (b.bar 3).arrived ++ [0]) ∧ (b.bar 3).arrived ++ [0] ≠ []) := by
  decide +kernel

/-! ## Resets, debug -/

theorem witness_ResetsBootAndWakesFollowTheirSources :
    let resting (rung : BitVec 3) : State := { up with pwr := { mode := 9, rung := rung, rfrom := 6, pinwake := 8 } }
    let begun : State := { up with rst := { hswdEn := true, inProgress := some .powerOn } }
    ({ up with pwr := { main12 := false } } : State).pwr.main12 = false ∧ (up.pwr.main12 = true ∧ up.rst.inProgress = none ∧ up.isRoot = true) ∧
    (begun.pwr.main12 = true ∧ begun.rst.inProgress = some .powerOn ∧ begun.rst.perstLow = false ∧ begun.pwr.hot = false) ∧
    (2000 ≤ 2000 ∧ (50 ≤ 50 ∧ 50 ≤ 150) ∧ (700 ≤ 900 ∧ 900 ≤ 900) ∧ (1200 ≤ 1600 ∧ 1600 ≤ 1600) ∧ (1600 < 1999 ∧ 1999 < 2000)) ∧
    ({ up with rst := { opt0 := { topo := 3 } }, fus := { straps := 5 } } : State).isRoot = false ∧
    (up.rst.hswdEn = true ∧ up.hs.locked = false ∧ ({ up with hs := { locked := true } } : State).hs.locked = true) ∧
    (let s : State := { up with rst := { up.rst with conf := false } }
     s.rst.conf = false ∧ s.rst.min = false ∧ s.opt.trial = false ∧ s.pci.functionsUp = true ∧ s.rst.inProgress = none) ∧ up.rst.conf = true ∧
    (({ up with rst := { activated := true, inProgress := none } } : State).rst.activated = true ∧ up.rst.activated = false ∧
      ({ begun with rst := { begun.rst with activated := true } } : State).rst.activated = true) ∧
    (up.spindles = [] ∧ canCommit up = true ∧ Master.tail ≠ .head ∧ hasPath up .tail (regBase + 0o610003) = true ∧
      hasPath up (.stream 5) (regBase + 0o610003) = false) ∧
    (((up.modLathe 15 (fun x => { x with locked := true })).lathe 15).locked = true ∧ (up.lathe 15).locked = false) ∧
    ({ begun with rst := { begun.rst with opt0 := { ok := false } } } : State).optInForce = none ∧
    (up.opt.trial = false ∧ up.pci.functionsUp = true ∧ up.pwr.mode = 6) ∧
    ((resting 3).pwr.mode = 9 ∧ (resting 3).pwr.rung.toNat < 4 ∧ (resting 3).pwr.rest = none ∧ (resting 3).pwr.pinwake.getLsbD 3 = true ∧
      (resting 3).pwr.pinwake.getLsbD 4 = false ∧ up.pwr.mode ≠ 9) ∧
    (let u := outcome (exec (.modeset r) (doing 0o50 [9] { up with pwr := { mode := 6, cfgRung := 4 } }))
     u.pwr.mode = 9 ∧ u.pwr.rung = 4 ∧ u.pwr.rest.isSome = true) ∧
    (let a : BitVec 34 := 0o000450440005
     hasPath up .head a.toNat = true ∧ areaOf a.toNat = .regs 0o440005 ∧ (regWrite up .head 0o440005 0).isSome = true ∧
     regWrite up .tail 0o440005 0 = none ∧ hasPath up .tail a.toNat = true ∧ hasPath up .tail pad = false) := by decide +kernel

theorem witness_ResetsBootAndWakesFollowTheirSources_times :
    let slow : State := { up with rst := { up.rst with conf := false, remain := 0, hswdCount := 1000 } }
    let locked : State := still.modLathe 15 (fun x => { x with locked := true, lockTicks := 400 })
    (rest still.rst.hswdCount.toNat 0 = 1000 ∧ rest (100000 * slow.rst.remain.toNat) slow.rst.remainSub < rest slow.rst.hswdCount.toNat 0) ∧
    (still.spindles = [] ∧ canCommit locked = true ∧ (locked.lathe 15).locked = true ∧ rest 1000 (locked.lathe 15).lockTicks = 600) ∧
    Due up [] [] [1000] ∧ Due { up with hs := { locked := true } } [] [] [1000] ∧
    Due slow [] [] [rest slow.rst.hswdCount.toNat 0, rest (100000 * slow.rst.remain.toNat) slow.rst.remainSub] ∧ Due locked [] [] [600] ∧
    Due still [] [] [] := by
  refine ⟨?_, ?_, due_of _ _ _ _ ?_, due_of _ _ _ _ ?_, due_of _ _ _ _ ?_, due_of _ _ _ _ ?_, due_of _ _ _ _ ?_⟩ <;> decide +kernel

theorem witness_DebugRequestsAreAnsweredAndPerformed :
    let f : TFld := f5
    let w := packT 1 0 f
    let session (t : Thread → Thread) (o : Bool := true) : State :=
      { about w (fun x => t { x with halted := true }) with dbg := { opened := o, scope := 8, reqno := 4, key := [1] } }
    let s := session id
    let run : State := { s with dbg := { s.dbg with frame := false, idle := 0, reqno := s.dbg.reqno + 1 } }.modThr th (fun t =>
      { t with halted := false, haltReq := false })
    (portOn s = true ∧ s.dbg.opened = true ∧ (session id false).dbg.opened = false ∧ portOn (session id false) = true) ∧
    (s.pwr.mode ≠ 10 ∧ s.pwr.mode ≠ 1 ∧ s.fus.dbgdis = false ∧ ({ s with dbg := { chal := some (7, [1]) } } : State).dbg.chal = some (7, [1]) ∧
      s.dbg.chal = none ∧ 1 ≤ (86400 : BitVec 32).toNat ∧ (86400 : BitVec 32).toNat ≤ 86400 ∧ canCommit s = true) ∧
    (s.dbg.scope.getLsbD 3 = true ∧ s.dbg.scope.getLsbD 4 = false ∧ (0x04 : BitVec 8).getLsbD 2 = true) ∧
    (let u := session (fun t => { t with halted := false, haltReq := true }); (u.thr th).haltReq = true ∧ u.atBoundary th = true) ∧
    (s.thr th).haltReq = false ∧ ((session (fun t => { t with halted := false })).thr th).halted = false ∧ coreFree s 3 = true ∧
    coreFree (s.modLathe 3 (fun x => { x with stall := some { t := 2 } })) 3 = false ∧
    ((s.thr th).halted = true ∧ (s.thr th).loads = [] ∧ (s.thr th).trapReq = false ∧ (s.thr th).pick = none ∧ (s.thr th).pickUser = none ∧
      (s.thr th).waiting = false ∧ (s.thr th).hold = .free ∧ (s.thr th).word = some w ∧ readInstr th w = some (.add th f) ∧ f.mod = 0 ∧ f.form = 0 ∧
      f.rd ≠ 0 ∧ (nextSlot run th).isSome = true ∧ fetchHit run th = none) ∧
    ((31 : RegSel).toNat / 256 = 16 * 0 ∧ (31 : RegSel).toNat % 256 < 32 ∧ (31 : RegSel).toNat % 256 ≠ 0 ∧ (0 : RegSel).toNat % 256 = 0 ∧
      (0x101F : RegSel).toNat / 256 = 16 * 1 ∧ (0x3000 : RegSel).toNat / 256 = 16 * 3 ∧ 5 ≤ (0x5000 : RegSel).toNat / 4096) ∧
    (execRefused (.j th 5) = true ∧ readInstr th (packJ 0o051 5) = some (.j th 5) ∧ readInstr th (packT 1 0o177 {}) = none) ∧
    (areaOf (0o000450440005 : Word).toNat = .regs 0o440005 ∧ areaOf (5 : Word).toNat = .bank) ∧
    (let s1 : State := { s with dbg := { s.dbg with frame := false, idle := 0, reqno := s.dbg.reqno + 1 } }
     (regRead s1 .debugPort 0o440005).1.dbg.opened = true ∧ regWrite s1 .debugPort 0o440005 0 = none ∧
     (regWrite s1 .debugPort 0o600100 0).map (fun u => decide (u.dbg = s1.dbg)) = some true) ∧
    (s.pwr.main12 = true ∧ s.rst.inProgress = none ∧ (3 : BitVec 8) ≠ 1 ∧ (3 : BitVec 8) ≠ 2) ∧
    portOn { up with pwr := { main12 := false } } = false := by decide +kernel

/-- A word has a slot in a halted thread, and none before another thread's turn has come (R220, R541). -/
theorem witness_DebugRequestsAreAnsweredAndPerformed_exec :
    let w := packT 1 0 f5
    let s : State := { withThr (fun x => { x with halted := true }) with dbg := { opened := true, scope := 8 } }
    let u := s.modThr ⟨3, 3⟩ (fun t => { t with started := true, fetched := [(0, w)] })
    (execSlot s th w).isSome = true ∧ execSlot (u.modLathe 3 (fun x => { x with lastThr := 2 })) th w = none ∧ coreFree u 3 = true ∧
    readInstr th w = some (.add th f5) ∧ execRefused (.add th f5) = false := by decide +kernel

theorem witness_DebugRequestsAreAnsweredAndPerformed_times :
    let s : State := { still with dbg := { opened := true, expiry := 500, idle := 100 } }
    (s.dbg.opened = true ∧ still.dbg.opened = false ∧ ({ still with dbg := { frame := true } } : State).dbg.frame = true) ∧
    Due s [] [] [rest s.dbg.expiry 0, rest 1000000000 s.dbg.idle] ∧ Due { still with dbg := { frame := true, gap := 9 } } [] [] [rest 100001 9] := by
  refine ⟨?_, due_of _ _ _ _ ?_, due_of _ _ _ _ ?_⟩ <;> decide +kernel

/-- What the debug authority signs verifies. -/
theorem witness_token (octets : List Octet) : Config.tokenSignatureOk octets (Config.authoritySignature octets) = true := by
  simp [Config.tokenSignatureOk]

/-- The control words of a function are different words. -/
theorem witness_control_words : Config.msixCap ≠ Config.pcieControl ∧ Config.pcieControl.toNat ≠ Config.pmAt + 4 := by
  have a := (Config.lowGap 0).isLt
  have b := (Config.lowGap 1).isLt
  have c := (Config.lowGap 2).isLt
  have h1 : Config.pcieControl.toNat = Config.pcieAt + 8 := by
    rw [Config.pcieControl, BitVec.toNat_ofNat]
    simp only [Config.pcieAt, Config.pmAt]
    omega
  have h2 : Config.msixCap.toNat = Config.msixAt := by
    rw [Config.msixCap, BitVec.toNat_ofNat]
    simp only [Config.msixAt, Config.pcieAt, Config.pmAt]
    omega
  refine ⟨fun h => ?_, ?_⟩
  · have := congrArg BitVec.toNat h
    simp only [h1, h2, Config.msixAt] at this
    omega
  · rw [h1]; simp only [Config.pcieAt]; omega

end Sys2Proof.Tests
end

section
/-! PROOFS. The scope of the model (spec 00_scope.md): every command has a meaning in every state. -/
namespace Sys2Proof.Machine

/-- A meaning that answers a next state goes on. -/
@[simp] theorem goesOn_next (t : State) : GoesOn (.next t) := ⟨t, rfl⟩

/-- The issue of a format T word goes on, whatever its operation does: an exception or a stall is part of the next state. -/
theorem goesOn_issueT (op : BitVec 8) (func : BitVec 7) (body : Th → BitVec 7 → TFld → State → State × Res) (th : Th) (f : TFld)
    (s : State) : GoesOn (issueT op func body th f s) :=
  goesOn_next _

/-- The issue of a format I word goes on, whatever its operation does. -/
theorem goesOn_issueI (op : BitVec 8) (body : Th → IFld → State → State × Res) (th : Th) (f : IFld) (s : State) :
    GoesOn (issueI op body th f s) :=
  goesOn_next _

/-- Settles O2, by the three ways in which a row of the dispatch reaches a next state: the issue of a format T word, the issue of a
format I word, and a meaning that is written as a next state itself. -/
theorem everyCommandGoesOn : Obligations.EveryCommandGoesOn := by
  intro c s
  cases c with
  | add | sub | andG | orG | xorG | andn | shl | shr | shra | rol | slt | sltu | seq | minG | maxG | minu | maxu | clz | popc
  | mul | mulu | madd | maddu | div | divu | rem | remu
  | fadd | fsub | fmul | fma | fms | fnma | fdiv | fsqrt | fmin | fmax | fabs | fneg | fmov | frint
  | fcmpeq | fcmplt | fcmple | fcmpun | fcvtsd | fcvtds | fcvtis | fcvtid | fcvtsi | fcvtdi | fmvgfL | fmvgfH | fmvfgL | fmvfgH
  | eret | wait | fbar | vfence | fenceR | fenceW | fenceRW | tlbsync | afence | wrpkr | setvl | setsvl
  | vchain | vsusp | vresume | tlbinv | tlbinvall => exact goesOn_issueT ..
  | addi | andi | ori | xori | slti | sltiu | shifti | lui
  | lw | ln | lfs | lf | ldd | sw | sn | sfs | sf | swm | stdd | mtd | mfd
  | beq | bne | blt | bge | bltu | bgeu | dbnz | jalr | setvli | mfsr | mtsr | syscall => exact goesOn_issueI ..
  | _ => exact goesOn_next _

end Sys2Proof.Machine
end

section
/-! PROOFS. What every step keeps (spec 01_architecture.md, R9 to R22; 14_check_bits_scrub_test.md, R312): the queue behind the front, the fuses
and straps, and the canonical form of memory. -/
namespace Sys2Proof.Machine

/-- The idle step (the model's choice, log entry 2). -/
theorem step_of_idle {s : State} (h : s.pending = []) : step s = .next (tick s) := by
  simp only [step, h]

/-- The step of the command at the front of the queue: the command is gone from the queue before its meaning runs. -/
theorem step_of_command {s : State} {c : Instr} {rest : List Instr} (h : s.pending = c :: rest) :
    step s = exec c { s with pending := rest } := by
  simp only [step, h]

/-- No command touches the queue it was given, the fuses, or the canonical form of memory: arm by arm of the dispatch, each by the lemma of its
meaning. -/
theorem kept_exec {pq : List Instr} {fu : Fus} {s t : State} (hs : Kept pq fu s) : ∀ c : Instr, exec c s = .next t → Kept pq fu t
  | .add th f, h => keeps_execAdd th f s hs h
  | .sub th f, h => keeps_execSub th f s hs h
  | .andG th f, h => keeps_execAndG th f s hs h
  | .orG th f, h => keeps_execOrG th f s hs h
  | .xorG th f, h => keeps_execXorG th f s hs h
  | .andn th f, h => keeps_execAndn th f s hs h
  | .shl th f, h => keeps_execShl th f s hs h
  | .shr th f, h => keeps_execShr th f s hs h
  | .shra th f, h => keeps_execShra th f s hs h
  | .rol th f, h => keeps_execRol th f s hs h
  | .slt th f, h => keeps_execSlt th f s hs h
  | .sltu th f, h => keeps_execSltu th f s hs h
  | .seq th f, h => keeps_execSeq th f s hs h
  | .minG th f, h => keeps_execMinG th f s hs h
  | .maxG th f, h => keeps_execMaxG th f s hs h
  | .minu th f, h => keeps_execMinu th f s hs h
  | .maxu th f, h => keeps_execMaxu th f s hs h
  | .clz th f, h => keeps_execClz th f s hs h
  | .popc th f, h => keeps_execPopc th f s hs h
  | .addi th f, h => keeps_execAddi th f s hs h
  | .andi th f, h => keeps_execAndi th f s hs h
  | .ori th f, h => keeps_execOri th f s hs h
  | .xori th f, h => keeps_execXori th f s hs h
  | .slti th f, h => keeps_execSlti th f s hs h
  | .sltiu th f, h => keeps_execSltiu th f s hs h
  | .shifti th f, h => keeps_execShifti th f s hs h
  | .lui th f, h => keeps_execLui th f s hs h
  | .mul th f, h => keeps_execMul th f s hs h
  | .mulu th f, h => keeps_execMulu th f s hs h
  | .madd th f, h => keeps_execMadd th f s hs h
  | .maddu th f, h => keeps_execMaddu th f s hs h
  | .productWrite th, h => keeps_execProductWrite th s hs h
  | .div th f, h => keeps_execDiv th f s hs h
  | .divu th f, h => keeps_execDivu th f s hs h
  | .rem th f, h => keeps_execRem th f s hs h
  | .remu th f, h => keeps_execRemu th f s hs h
  | .divideDone l, h => keeps_execDivideDone l s hs h
  | .lw th f, h => keeps_execLw th f s hs h
  | .ln th f, h => keeps_execLn th f s hs h
  | .lfs th f, h => keeps_execLfs th f s hs h
  | .lf th f, h => keeps_execLf th f s hs h
  | .sw th f, h => keeps_execSw th f s hs h
  | .sn th f, h => keeps_execSn th f s hs h
  | .sfs th f, h => keeps_execSfs th f s hs h
  | .sf th f, h => keeps_execSf th f s hs h
  | .swm th f, h => keeps_execSwm th f s hs h
  | .ldd th f, h => keeps_execLdd th f s hs h
  | .stdd th f, h => keeps_execStdd th f s hs h
  | .mtd th f, h => keeps_execMtd th f s hs h
  | .mfd th f, h => keeps_execMfd th f s hs h
  | .loadComplete th resp, h => keeps_execLoadComplete th resp s hs h
  | .beq th f, h => keeps_execBeq th f s hs h
  | .bne th f, h => keeps_execBne th f s hs h
  | .blt th f, h => keeps_execBlt th f s hs h
  | .bge th f, h => keeps_execBge th f s hs h
  | .bltu th f, h => keeps_execBltu th f s hs h
  | .bgeu th f, h => keeps_execBgeu th f s hs h
  | .dbnz th f, h => keeps_execDbnz th f s hs h
  | .jal th off, h => keeps_execJal th off s hs h
  | .j th off, h => keeps_execJ th off s hs h
  | .jalr th f, h => keeps_execJalr th f s hs h
  | .fadd th f, h => keeps_execFadd th f s hs h
  | .fsub th f, h => keeps_execFsub th f s hs h
  | .fmul th f, h => keeps_execFmul th f s hs h
  | .fma th f, h => keeps_execFma th f s hs h
  | .fms th f, h => keeps_execFms th f s hs h
  | .fnma th f, h => keeps_execFnma th f s hs h
  | .fdiv th f, h => keeps_execFdiv th f s hs h
  | .fsqrt th f, h => keeps_execFsqrt th f s hs h
  | .fmin th f, h => keeps_execFmin th f s hs h
  | .fmax th f, h => keeps_execFmax th f s hs h
  | .fabs th f, h => keeps_execFabs th f s hs h
  | .fneg th f, h => keeps_execFneg th f s hs h
  | .fmov th f, h => keeps_execFmov th f s hs h
  | .frint th f, h => keeps_execFrint th f s hs h
  | .fcmpeq th f, h => keeps_execFcmpeq th f s hs h
  | .fcmplt th f, h => keeps_execFcmplt th f s hs h
  | .fcmple th f, h => keeps_execFcmple th f s hs h
  | .fcmpun th f, h => keeps_execFcmpun th f s hs h
  | .fcvtsd th f, h => keeps_execFcvtsd th f s hs h
  | .fcvtds th f, h => keeps_execFcvtds th f s hs h
  | .fcvtis th f, h => keeps_execFcvtis th f s hs h
  | .fcvtid th f, h => keeps_execFcvtid th f s hs h
  | .fcvtsi th f, h => keeps_execFcvtsi th f s hs h
  | .fcvtdi th f, h => keeps_execFcvtdi th f s hs h
  | .fmvgfL th f, h => keeps_execFmvgfL th f s hs h
  | .fmvgfH th f, h => keeps_execFmvgfH th f s hs h
  | .fmvfgL th f, h => keeps_execFmvfgL th f s hs h
  | .fmvfgH th f, h => keeps_execFmvfgH th f s hs h
  | .fpCompletion th, h => keeps_execFpCompletion th s hs h
  | .fptrap th, h => keeps_execFptrap th s hs h
  | .eret th f, h => keeps_execEret th f s hs h
  | .wait th f, h => keeps_execWait th f s hs h
  | .waitWake th, h => keeps_execWaitWake th s hs h
  | .fbar th f, h => keeps_execFbar th f s hs h
  | .vfence th f, h => keeps_execVfence th f s hs h
  | .fenceR th f, h => keeps_execFenceR th f s hs h
  | .fenceW th f, h => keeps_execFenceW th f s hs h
  | .fenceRW th f, h => keeps_execFenceRW th f s hs h
  | .tlbsync th f, h => keeps_execTlbsync th f s hs h
  | .afence th f, h => keeps_execAfence th f s hs h
  | .fenceComplete th, h => keeps_execFenceComplete th s hs h
  | .wrpkr th f, h => keeps_execWrpkr th f s hs h
  | .setvl th f, h => keeps_execSetvl th f s hs h
  | .setvli th f, h => keeps_execSetvli th f s hs h
  | .setsvl th f, h => keeps_execSetsvl th f s hs h
  | .vchain th f, h => keeps_execVchain th f s hs h
  | .vsusp th f, h => keeps_execVsusp th f s hs h
  | .vresume th f, h => keeps_execVresume th f s hs h
  | .tlbinv th f, h => keeps_execTlbinv th f s hs h
  | .tlbinvall th f, h => keeps_execTlbinvall th f s hs h
  | .mfsr th f, h => keeps_execMfsr th f s hs h
  | .mtsr th f, h => keeps_execMtsr th f s hs h
  | .syscall th f, h => keeps_execSyscall th f s hs h
  | .vectorIssue th v, h => keeps_execVectorIssue th v s hs h
  | .interruptEntry th, h => keeps_execInterruptEntry th s hs h
  | .upcall th, h => keeps_execUpcall th s hs h
  | .mwdog th, h => keeps_execMwdog th s hs h
  | .lthCorecfgWrite m l w, h => keeps_execLthCorecfgWrite m l w s hs h
  | .corecfgDrainEnd l, h => keeps_execCorecfgDrainEnd l s hs h
  | .groupStart x, h => keeps_execGroupStart x s hs h
  | .groupEnd x, h => keeps_execGroupEnd x s hs h
  | .spnCtlSusp m x, h => keeps_execSpnCtlSusp m x s hs h
  | .spnCtlAbort m x, h => keeps_execSpnCtlAbort m x s hs h
  | .bankAccess op, h => keeps_execBankAccess op s hs h
  | .starvationPromotion n write req others, h => keeps_execStarvationPromotion n write req others s hs h
  | .bnkOwnWrite m n w, h => keeps_execBnkOwnWrite m n w s hs h
  | .handoverDrainEnd n, h => keeps_execHandoverDrainEnd n s hs h
  | .bankWatchdog n outstanding, h => keeps_execBankWatchdog n outstanding s hs h
  | .bnkCfgWrite m n w, h => keeps_execBnkCfgWrite m n w s hs h
  | .skewDrainEnd x, h => keeps_execSkewDrainEnd x s hs h
  | .lock n, h => keeps_execLock n s hs h
  | .release n, h => keeps_execRelease n s hs h
  | .sealLockDrainEnd n, h => keeps_execSealLockDrainEnd n s hs h
  | .scrubRead r, h => keeps_execScrubRead r s hs h
  | .scrubWriteback r, h => keeps_execScrubWriteback r s hs h
  | .marchGo m w, h => keeps_execMarchGo m w s hs h
  | .marchGroupDone fails, h => keeps_execMarchGroupDone fails s hs h
  | .bgTestRegion tester fails, h => keeps_execBgTestRegion tester fails s hs h
  | .elogPop m, h => keeps_execElogPop m s hs h
  | .fabricGrant tgt waiting, h => keeps_execFabricGrant tgt waiting s hs h
  | .fabricTimeout m addr write, h => keeps_execFabricTimeout m addr write s hs h
  | .lateAck, h => keeps_execLateAck s hs h
  | .heldEventPass c, h => keeps_execHeldEventPass c s hs h
  | .rememberedTrigger n, h => keeps_execRememberedTrigger n s hs h
  | .evfFire m w, h => keeps_execEvfFire m w s hs h
  | .lutFilterExpiry n, h => keeps_execLutFilterExpiry n s hs h
  | .timer t, h => keeps_execTimer t s hs h
  | .eventPin p level, h => keeps_execEventPin p level s hs h
  | .pinPulseEnd p, h => keeps_execPinPulseEnd p s hs h
  | .pps level, h => keeps_execPps level s hs h
  | .ppsTimeout, h => keeps_execPpsTimeout s hs h
  | .temp celsius, h => keeps_execTemp celsius s hs h
  | .overtemp celsius, h => keeps_execOvertemp celsius s hs h
  | .leafDigest ctx slot leaf epoch, h => keeps_execLeafDigest ctx slot leaf epoch s hs h
  | .spongeState ctx slot epoch away, h => keeps_execSpongeState ctx slot epoch away s hs h
  | .signatureDone, h => keeps_execSignatureDone s hs h
  | .journalWrite, h => keeps_execJournalWrite s hs h
  | .checkpointWritten, h => keeps_execCheckpointWritten s hs h
  | .mramTimeout op, h => keeps_execMramTimeout op s hs h
  | .logTamper x, h => keeps_execLogTamper x s hs h
  | .lockdownTamper x, h => keeps_execLockdownTamper x s hs h
  | .wrapKeyZeroise, h => keeps_execWrapKeyZeroise s hs h
  | .backupTamper x, h => keeps_execBackupTamper x s hs h
  | .bondTest broken, h => keeps_execBondTest broken s hs h
  | .doorbell n m bits, h => keeps_execDoorbell n m bits s hs h
  | .commandAdmission r, h => keeps_execCommandAdmission r s hs h
  | .delayedReevaluation, h => keeps_execDelayedReevaluation s hs h
  | .ringcfg n v, h => keeps_execRingcfg n v s hs h
  | .ringhead n v, h => keeps_execRinghead n v s hs h
  | .commandDeadline r, h => keeps_execCommandDeadline r s hs h
  | .nop r, h => keeps_execNop r s hs h
  | .instcfg r, h => keeps_execInstcfg r s hs h
  | .grant r, h => keeps_execGrant r s hs h
  | .grantRevoke r, h => keeps_execGrantRevoke r s hs h
  | .instreset r, h => keeps_execInstreset r s hs h
  | .query r, h => keeps_execQuery r s hs h
  | .abort r, h => keeps_execAbort r s hs h
  | .dmain r, h => keeps_execDmain r s hs h
  | .dmaout r, h => keeps_execDmaout r s hs h
  | .dmaReadCompletion c cpl, h => keeps_execDmaReadCompletion c cpl s hs h
  | .dmaTransferDone c, h => keeps_execDmaTransferDone c s hs h
  | .run r, h => keeps_execRun r s hs h
  | .migrate r, h => keeps_execMigrate r s hs h
  | .sealopen r, h => keeps_execSealopen r s hs h
  | .sealslot r, h => keeps_execSealslot r s hs h
  | .sealclose r, h => keeps_execSealclose r s hs h
  | .recfetch r, h => keeps_execRecfetch r s hs h
  | .jnlread r, h => keeps_execJnlread r s hs h
  | .jnldrain r, h => keeps_execJnldrain r s hs h
  | .certread r, h => keeps_execCertread r s hs h
  | .timeset r, h => keeps_execTimeset r s hs h
  | .modeset r, h => keeps_execModeset r s hs h
  | .updload r cpl, h => keeps_execUpdload r cpl s hs h
  | .updverify r, h => keeps_execUpdverify r s hs h
  | .updactivate r, h => keeps_execUpdactivate r s hs h
  | .updconfirm r, h => keeps_execUpdconfirm r s hs h
  | .flr fn, h => keeps_execFlr fn s hs h
  | .instanceZeroing n, h => keeps_execInstanceZeroing n s hs h
  | .zeroingDone n, h => keeps_execZeroingDone n s hs h
  | .hostBar0Read fn off ask, h => keeps_execHostBar0Read fn off ask s hs h
  | .hostBar0Write fn off octets mark, h => keeps_execHostBar0Write fn off octets mark s hs h
  | .hostBar2Read off ask, h => keeps_execHostBar2Read off ask s hs h
  | .hostBar2Write off octets mark, h => keeps_execHostBar2Write off octets mark s hs h
  | .msixUnmask fn vec, h => keeps_execMsixUnmask fn vec s hs h
  | .completionTimeout c, h => keeps_execCompletionTimeout c s hs h
  | .dataLinkDown, h => keeps_execDataLinkDown s hs h
  | .pcieLinkTraining speed width, h => keeps_execPcieLinkTraining speed width s hs h
  | .wovasLinkTrained k lanes nbr nbrLink inc, h => keeps_execWovasLinkTrained k lanes nbr nbrLink inc s hs h
  | .wovasLinkDown k, h => keeps_execWovasLinkDown k s hs h
  | .linkIdleTimeout k, h => keeps_execLinkIdleTimeout k s hs h
  | .linkStateMessage dev k news, h => keeps_execLinkStateMessage dev k news s hs h
  | .downNotice k, h => keeps_execDownNotice k s hs h
  | .remoteRequest k q, h => keeps_execRemoteRequest k q s hs h
  | .remoteReply addr inc res, h => keeps_execRemoteReply addr inc res s hs h
  | .remoteTimeout tag, h => keeps_execRemoteTimeout tag s hs h
  | .forwardedCommand r parcel arrival, h => keeps_execForwardedCommand r parcel arrival s hs h
  | .forwardedEntry n dev sent, h => keeps_execForwardedEntry n dev sent s hs h
  | .barrierArrival n report lathes gone, h => keeps_execBarrierArrival n report lathes gone s hs h
  | .barrierRelease n broken, h => keeps_execBarrierRelease n broken s hs h
  | .epochMessage n epoch, h => keeps_execEpochMessage n epoch s hs h
  | .por, h => keeps_execPor s hs h
  | .brownout, h => keeps_execBrownout s hs h
  | .backupSupplyRise, h => keeps_execBackupSupplyRise s hs h
  | .pin ticks, h => keeps_execPin ticks s hs h
  | .perst asserted, h => keeps_execPerst asserted s hs h
  | .hotrst, h => keeps_execHotrst s hs h
  | .hswdog, h => keeps_execHswdog s hs h
  | .hslock, h => keeps_execHslock s hs h
  | .tsfault, h => keeps_execTsfault s hs h
  | .boottmo, h => keeps_execBoottmo s hs h
  | .update, h => keeps_execUpdate s hs h
  | .swsys m, h => keeps_execSwsys m s hs h
  | .swcore m, h => keeps_execSwcore m s hs h
  | .swlathe m l, h => keeps_execSwlathe m l s hs h
  | .lockup l, h => keeps_execLockup l s hs h
  | .boot found, h => keeps_execBoot found s hs h
  | .confirm m, h => keeps_execConfirm m s hs h
  | .kick m, h => keeps_execKick m s hs h
  | .wake src, h => keeps_execWake src s hs h
  | .jnlHeadlRead m drained, h => keeps_execJnlHeadlRead m drained s hs h
  | .hello, h => keeps_execHello s hs h
  | .chal, h => keeps_execChal s hs h
  | .auth tok, h => keeps_execAuth tok s hs h
  | .halt l mask, h => keeps_execHalt l mask s hs h
  | .haltTakesEffect th, h => keeps_execHaltTakesEffect th s hs h
  | .resume l mask, h => keeps_execResume l mask s hs h
  | .step th, h => keeps_execStep th s hs h
  | .rdreg th sel, h => keeps_execRdreg th sel s hs h
  | .wrreg th sel value, h => keeps_execWrreg th sel value s hs h
  | .exec th w, h => keeps_execExec th w s hs h
  | .rdcsr addr, h => keeps_execRdcsr addr s hs h
  | .wrcsr addr w, h => keeps_execWrcsr addr w s hs h
  | .resetreq level, h => keeps_execResetreq level s hs h
  | .close, h => keeps_execClose s hs h
  | .frameTimeout, h => keeps_execFrameTimeout s hs h
  | .sessionExpiry, h => keeps_execSessionExpiry s hs h
  | .registerWrite m addr mask w, h => keeps_execRegisterWrite m addr mask w s hs h
  | .backupSupplyLoss, h => keeps_execBackupSupplyLoss s hs h
  | .tamperConditionEnd x, h => keeps_execTamperConditionEnd x s hs h
  | .headstockLockup, h => keeps_execHeadstockLockup s hs h
  | .instructionFetchComplete th, h => keeps_execInstructionFetchComplete th s hs h
  | .lockBindingHashDone ctx slot, h => keeps_execLockBindingHashDone ctx slot s hs h
  | .copiedRangeRoot ctx slot first root, h => keeps_execCopiedRangeRoot ctx slot first root s hs h
  | .epochAcknowledgement n sender, h => keeps_execEpochAcknowledgement n sender s hs h
  | .incarnationAnnouncement k inc, h => keeps_execIncarnationAnnouncement k inc s hs h
  | .framingError, h => keeps_execFramingError s hs h
  | .brk, h => keeps_execBrk s hs h
  | .badRequestFrame why, h => keeps_execBadRequestFrame why s hs h
  | .configurationRequest fn write reg tlp, h => keeps_execConfigurationRequest fn write reg tlp s hs h
  | .backgroundSlotCheck, h => keeps_execBackgroundSlotCheck s hs h

/-- A step from canonical memory keeps the queue behind the front, the fuses, and canonical memory. -/
theorem kept_step {s t : State} (hm : Memory.wf s.mem = true) (h : step s = .next t) : Kept s.pending.tail s.fus t := by
  cases hp : s.pending with
  | nil =>
    have hs : Kept [] s.fus s := ⟨hp, rfl, hm⟩
    rw [step_of_idle hp, Host.Outcome.next.injEq] at h
    exact h ▸ keeps_tick s hs
  | cons c rest =>
    have hs : Kept rest s.fus { s with pending := rest } := ⟨rfl, rfl, hm⟩
    exact kept_exec hs c (step_of_command hp ▸ h)

/-- Settles O3, by the two kinds of step: an idle tick, and the command at the front of the queue, which is run on a state whose queue is the
rest. -/
theorem everyStepKeepsQueueFusesMemory : Obligations.EveryStepKeepsQueueFusesMemory :=
  fun _ _ hm h => kept_step hm h

end Sys2Proof.Machine
end

section
/-! PROOFS. Vector issue and VCHAIN (spec 04_streams.md, R74, R87 to R89; 05_spindles_and_chaining.md, R113 to R120): the word of a vector issue,
what entering the queues changes, the ways in which a vector issue ends, and the slot that one without room does not get. -/
namespace Sys2Proof.Machine

/-! ## The word of a vector issue (R113) -/

section
variable (v : VFld)

theorem extract_packV (a k : Nat) : (packV v).extractLsb' a k =
    ((0b10 : BitVec 2) ++ v.vfunc ++ v.dw ++ v.da ++ v.db ++ v.dc ++ v.sp0 ++ v.scnt ++ v.rm ++ v.rsv).extractLsb' a k := rfl

theorem vectorBits_packV : (packV v).extractLsb' 34 2 = 0b10 := by
  simp (disch := decide) only [extract_packV, BitVec.extractLsb'_append_eq_of_le, -Nat.reduceAdd]
  rfl

theorem wordV_packV : wordV (packV v) = v := by
  simp (disch := decide) only [wordV, extract_packV, BitVec.extractLsb'_append_eq_of_le, BitVec.extractLsb'_append_eq_of_add_le,
    BitVec.extractLsb'_eq_self, Nat.reduceSub, -Nat.reduceAdd]

/-- The two bits of a vector issue put its major opcode above every other one. -/
theorem wordOp_packV : 128 ≤ (wordOp (packV v)).toNat := by
  have h : ((packV v).extractLsb' 34 2).toNat = 2 := by rw [vectorBits_packV]; rfl
  simp only [wordOp, BitVec.extractLsb'_toNat, Nat.shiftRight_eq_div_pow] at h ⊢
  omega

theorem wordRun_packV (th : Th) : wordRun th (packV v) = opVector th v := by
  funext s
  simp [wordRun, readInstr, vectorBits_packV, wordV_packV, coreOp]

theorem neverPairs_packV : neverPairs (packV v) = true := by simp [neverPairs, vectorBits_packV]

theorem predBranch_packV : predBranch (packV v) = false := by
  have h := wordOp_packV v
  simp only [predBranch, Bool.or_eq_false_iff, Bool.and_eq_false_iff, decide_eq_false_iff_not]
  omega

/-- A vector issue writes no register. -/
theorem depsOf_packV_writes (t : Thread) : (depsOf t (packV v)).writes = [] := by simp [depsOf, vectorBits_packV]

end

/-! ## Entering the queues (R118, R119) -/

/-- Placing the streams of sealed destinations changes the seal contexts alone. -/
theorem placeStreams_frame {α : Type} (p : State → α) (hp : ∀ s c f, p (State.modCtx s c f) = p s) (g : Group) (n : Str → ET → Nat)
    (s : State) : p (placeStreams g n s) = p s := by
  unfold placeStreams
  split
  · rfl
  · refine foldl_keeps (fun t => p t = p s) _ _ s rfl (fun t x ht => ?_)
    dsimp only
    split
    · exact ht
    · split
      · exact ht
      · exact (hp _ _ _).trans ht

/-- One change of several spindles leaves everything beside the spindles. -/
theorem foldl_modSpin_frame {α : Type} (p : State → α) (hp : ∀ s k f, p (State.modSpin s k f) = p s) (f : Spindle → Spindle) (ks : List Nat)
    (s : State) : p (ks.foldl (fun s k => s.modSpin k f) s) = p s :=
  foldl_keeps (fun t => p t = p s) _ ks s rfl (fun _ _ ht => (hp _ _ _).trans ht)

/-- One change of several spindles, each named once. -/
theorem spin_foldl_modSpin (f : Spindle → Spindle) (k : Nat) : ∀ (ks : List Nat) (s : State), ks.Nodup →
    (ks.foldl (fun s k => s.modSpin k f) s).spin k = if k ∈ ks then f (s.spin k) else s.spin k
  | [], _, _ => rfl
  | j :: ks, s, h => by
    obtain ⟨hj, hks⟩ := List.nodup_cons.1 h
    rw [List.foldl_cons, spin_foldl_modSpin f k ks _ hks]
    by_cases hk : k = j
    · subst hk; simp [hj]
    · simp [hk, State.spin_modSpin_ne _ _ hk]

theorem Group.nodup_spindles (g : Group) : g.spindles.Nodup :=
  List.Pairwise.map g.spindle (fun a b hne he => by simp only [Group.spindle] at he; omega) (List.Pairwise.filter _ List.nodup_range)

/-- The spindles of a span, by their place in the lathe (R90, R114). -/
theorem Group.mem_spindles (g : Group) {k : Nat} (hk : k < 8) :
    8 * g.th.l.val + k ∈ g.spindles ↔ g.sp0 ≤ k ∧ k ≤ g.sp0 + g.scnt := by
  simp only [Group.spindles, Group.span, Group.spindle, List.mem_map, List.mem_filter, List.mem_range, decide_eq_true_eq]
  constructor
  · rintro ⟨j, hj, he⟩
    omega
  · intro h
    exact ⟨k - g.sp0, by omega, by omega⟩

/-- An entry of the table of groups is one of a thread's. -/
def ofThread (th : Th) (e : Nat × Option Group) : Bool :=
  match e.2 with
  | some g => decide (g.th = th)
  | none => false

theorem groupsOf_length (s : State) (th : Th) : (groupsOf s th).length = s.groups.countP (ofThread th) := by
  rw [groupsOf, List.length_filterMap_eq_countP]
  refine List.countP_congr (fun e _ => ?_)
  rcases e with ⟨k, _ | g⟩
  · rfl
  · by_cases h : g.th = th <;> simp [h, ofThread]

/-- A group has room where its thread has fewer than four groups outstanding and no queue of its span holds four (R118, R119). -/
theorem hasRoom_iff (s : State) (g : Group) : hasRoom s g = true ↔ (groupsOf s g.th).length < 4 ∧
    ∀ k, k < 8 → g.sp0 ≤ k ∧ k ≤ g.sp0 + g.scnt → (s.spin (8 * g.th.l.val + k)).queue.length < 4 := by
  simp only [hasRoom, Bool.and_eq_true, decide_eq_true_eq, List.all_eq_true]
  refine and_congr_right (fun _ => ?_)
  constructor
  · intro h k hk hs
    exact h _ ((g.mem_spindles hk).2 hs)
  · intro h j hj
    obtain ⟨i, hi, rfl⟩ := List.mem_map.1 hj
    have hi8 : g.sp0 + i < 8 := of_decide_eq_true (List.mem_filter.1 hi).2
    simp only [Group.spindle, Nat.add_assoc] at hj ⊢
    exact h _ hi8 ((g.mem_spindles hi8).1 hj)

/-- A group as its queues hold it: its sealed words have their place in the order of issue (R377). -/
def queuedAs (s : State) (g : Group) : Group := { g with sealKey := sealKeyOf s s.nextGroup g }

/-- What `enqueue` leaves of a part of the state that it does not write. -/
theorem enqueue_frame {α : Type} (p : State → α) (hc : ∀ s c f, p (State.modCtx s c f) = p s) (hs : ∀ s k f, p (State.modSpin s k f) = p s)
    (s : State) (g : Group) :
    p (enqueue s g) = p ((takeNumber { s with nextGroup := s.nextGroup + 1 } g.th).setGroup s.nextGroup (some (queuedAs s g))) :=
  (foldl_modSpin_frame p hs _ _ _).trans (placeStreams_frame p hc _ _ _)

section
variable (s : State) (g : Group)

@[simp] theorem enqueue_mem : (enqueue s g).mem = s.mem := enqueue_frame State.mem (fun _ _ _ => rfl) (fun _ _ _ => rfl) s g

@[simp] theorem enqueue_nextGroup : (enqueue s g).nextGroup = s.nextGroup + 1 :=
  enqueue_frame State.nextGroup (fun _ _ _ => rfl) (fun _ _ _ => rfl) s g

@[simp] theorem group_enqueue : (enqueue s g).group s.nextGroup = some (queuedAs s g) :=
  (enqueue_frame (fun t => t.group s.nextGroup) (fun _ _ _ => rfl) (fun _ _ _ => rfl) s g).trans (State.group_setGroup _ _ _)

/-- The thread has given a number (R118). -/
@[simp] theorem thr_enqueue : (enqueue s g).thr g.th = { s.thr g.th with groupNum := (s.thr g.th).groupNum + 1 } :=
  (enqueue_frame (fun t => t.thr g.th) (fun _ _ _ => rfl) (fun _ _ _ => rfl) s g).trans
    (State.thr_modThr s g.th (fun t => { t with groupNum := t.groupNum + 1 }))

/-- The group stands last in every queue of its span, and in no other (R119). -/
theorem spin_enqueue (k : Nat) : (enqueue s g).spin k =
    if k ∈ g.spindles then { s.spin k with queue := (s.spin k).queue ++ [s.nextGroup] } else s.spin k := by
  have hp : ∀ u, (placeStreams (queuedAs s g) (queuedAs s g).streamWords u).spin k = u.spin k :=
    placeStreams_frame (fun t => t.spin k) (fun _ _ _ => rfl) _ _
  refine (spin_foldl_modSpin (fun x => { x with queue := x.queue ++ [s.nextGroup] }) k g.spindles
    (placeStreams (queuedAs s g) (queuedAs s g).streamWords _) g.nodup_spindles).trans ?_
  rw [hp]
  rfl

end

/-- The place of a group in issue order is its number where it has no sealed destination (R377). -/
theorem sealKey_queuedAs {s : State} {g : Group} (h : sealedDsts g = []) : (queuedAs s g).sealKey = s.nextGroup := by
  simp [queuedAs, sealKeyOf, h]

/-- Each part of a fresh group is its spindle's block, of which nothing is written (R89). -/
theorem freshParts_block {g : Group} {k : Nat} {p : Part} (h : (freshParts g)[k]? = some p) :
    p.first = (blockOf (qOf (strsOf g.members)) g.vl g.span k).1 ∧ p.last1 = (blockOf (qOf (strsOf g.members)) g.vl g.span k).2 ∧
      p.next = p.first := by
  simp only [freshParts, List.getElem?_map, Option.map_eq_some_iff] at h
  obtain ⟨j, hj, rfl⟩ := h
  obtain ⟨_, rfl⟩ := List.getElem?_eq_some_iff.1 hj
  simp

/-! ## The ways in which a vector issue ends (R113 to R118) -/

/-- The thread has no open group any more. -/
def unchained (s : State) (th : Th) : State := s.modThr th (fun t => { t with openGrp := none })

/-- The group that members complete enters its queues and leaves no open group, or waits for room. -/
def submitted (th : Th) (s : State) (ms : List Member) : State × Res :=
  if hasRoom s (formGroup s th ms) then (enqueue (unchained s th) (formGroup s th ms), .seq) else (s, .wait)

section
variable {s : State} {th : Th} {v : VFld}

theorem opVector_illegal (h : vLegal v = false) : opVector th v s = (s, illegal (packV v)) := by
  simp [opVector, h]

/-- Outside an open group a member is a group of its own. -/
theorem opVector_alone (h : vLegal v = true) (ho : (s.thr th).openGrp = none) :
    opVector th v s = submitted th s [captureMember (s.thr th) v] := by
  simp [opVector, h, ho, submitted, unchained]

/-- The last member of an open group completes it. -/
theorem opVector_last (h : vLegal v = true) {o : OpenGroup} (ho : (s.thr th).openGrp = some o) (hl : o.level = (s.thr th).level)
    (hw : o.members.length + 1 = o.want) :
    opVector th v s = submitted th s (o.members ++ [captureMember (s.thr th) v]) := by
  simp [opVector, h, ho, hl, hw, submitted, unchained]

/-- Every other member of an open group waits for the others. -/
theorem opVector_joins (h : vLegal v = true) {o : OpenGroup} (ho : (s.thr th).openGrp = some o) (hl : o.level = (s.thr th).level)
    (hw : o.members.length + 1 < o.want) : opVector th v s =
      opThread th (fun t => { t with openGrp := some { o with members := o.members ++ [captureMember (s.thr th) v] } }) s := by
  simp [opVector, h, ho, hl, Nat.not_le.2 hw, opThread]

end

/-- A vector issue supersedes nothing that older instructions are still to write: it writes no register (R221). -/
theorem supersede_packV {t t0 : Thread} (v : VFld) (h : t.fpOut = t0.fpOut) :
    t.supersede t0 (packV v) (depsOf t0 (packV v)) = t := by
  have hp : t.partsPut t0.fpOut.length (packV v) (depsOf t0 (packV v)) = [] := by
    simp [Thread.partsPut, h, depsOf_packV_writes, vectorBits_packV]
  unfold Thread.supersede
  rw [hp]
  exact if_pos (by simp)

/-- A vector issue that goes on leaves what its operation has left, at the next instruction: it teaches the predictor nothing and issues in no
pair (R222, R225). -/
theorem completes_packV {s s' : State} {th : Th} (v : VFld) {n : Nat} (h : (s'.thr th).fpOut = ((inSlot s th n).thr th).fpOut) :
    completes s th (packV v) n (s', .seq) = s'.modThr th (fun t => t.follow (t.pc + 1)) := by
  have hu := supersede_packV v h
  have hl : ∀ (u : State) (a : Word), learn u th a (packV v) .seq = u := fun u a => by
    unfold learn
    rw [predBranch_packV]
    exact if_neg Bool.false_ne_true
  have hp : ∀ (u : State) (d : Deps), pairs u th (packV v) d n = false := fun u d => by
    simp only [pairs, pairFits, neverPairs_packV]
    split <;> simp
  have hf : finish th n (atIssue s th n) (afterOp (inSlot s th n) th (packV v) (s', .seq)) = s'.modThr th (fun t => t.follow (t.pc + 1)) := by
    simp only [afterOp, finish, State.modThr_modThr]
    simp only [State.modThr, hu]
  simp only [completes, hl, hp, hf, Bool.and_false, Bool.false_eq_true, if_false]

/-! ## Room in the state and in the slot -/

section
variable (s : State) (th : Th) (n : Nat)

@[simp] theorem groups_inSlot : (inSlot s th n).groups = s.groups := inSlot_frame s th n State.groups (fun _ _ _ => rfl) (fun _ _ _ => rfl)
@[simp] theorem spindles_inSlot : (inSlot s th n).spindles = s.spindles :=
  inSlot_frame s th n State.spindles (fun _ _ _ => rfl) (fun _ _ _ => rfl)
theorem spin_inSlot (k : Nat) : (inSlot s th n).spin k = s.spin k := by simp [State.spin]
@[simp] theorem nextGroup_inSlot : (inSlot s th n).nextGroup = s.nextGroup :=
  inSlot_frame s th n State.nextGroup (fun _ _ _ => rfl) (fun _ _ _ => rfl)

/-- The slot of an instruction leaves the epoch of its core. -/
@[simp] theorem epoch_inSlot : ((inSlot s th n).lathe th.l).epoch = (s.lathe th.l).epoch := by
  have ha : ((atIssue s th n).lathe th.l).epoch = (s.lathe th.l).epoch := by
    unfold atIssue
    split
    · rw [State.lathe_modLathe]
    · rw [lathe_passSlots]
  unfold inSlot
  split
  · exact ha
  · simpa [startSlot, countInstr, addSlot] using ha

end

/-- A group of the span of a vector issue would have room (R118, R119). -/
def RoomFor (s : State) (th : Th) (v : VFld) : Prop :=
  (groupsOf s th).length < 4 ∧
    ∀ k, k < 8 → v.sp0.toNat ≤ k ∧ k ≤ v.sp0.toNat + v.scnt.toNat → (s.spin (8 * th.l.val + k)).queue.length < 4

/-- The span and VL of a group are those of its first member (R115). -/
theorem formGroup_head (s : State) (th : Th) {ms : List Member} (h : ms ≠ []) (m : Member) :
    (formGroup s th ms).vl = (ms.headD m).vl ∧ (formGroup s th ms).sp0 = (ms.headD m).v.sp0.toNat ∧
      (formGroup s th ms).scnt = (ms.headD m).v.scnt.toNat := by
  cases ms with
  | nil => exact absurd rfl h
  | cons a r => exact ⟨rfl, rfl, rfl⟩

theorem hasRoom_formGroup (s : State) (th : Th) {ms : List Member} (h : ms ≠ []) (m : Member) :
    hasRoom s (formGroup s th ms) = true ↔ RoomFor s th (ms.headD m).v := by
  obtain ⟨_, hsp, hsc⟩ := formGroup_head s th h m
  rw [hasRoom_iff, hsp, hsc]
  rfl

theorem roomFor_inSlot (s : State) (th : Th) (n : Nat) (v : VFld) : RoomFor (inSlot s th n) th v ↔ RoomFor s th v := by
  simp only [RoomFor, groupsOf, State.spin, groups_inSlot, spindles_inSlot]

/-! ## A group is queued (R115 to R119) -/

/-- The state after a vector issue that completes a group. -/
def queuedAt (s : State) (th : Th) (n : Nat) (ms : List Member) : State :=
  (enqueue (unchained (inSlot s th n) th) (formGroup (inSlot s th n) th ms)).modThr th (fun t => t.follow (t.pc + 1))

/-- The group that it queues. -/
def queuedGroup (s : State) (th : Th) (n : Nat) (ms : List Member) : Group :=
  queuedAs (unchained (inSlot s th n) th) (formGroup (inSlot s th n) th ms)

section
variable (s : State) (th : Th) (n : Nat) (ms : List Member)

/-- The thread before its PC moves: it has given a number and has no open group. -/
theorem thr_enqueue_formGroup :
    (enqueue (unchained (inSlot s th n) th) (formGroup (inSlot s th n) th ms)).thr th =
      { (inSlot s th n).thr th with groupNum := ((inSlot s th n).thr th).groupNum + 1, openGrp := none } := by
  refine (thr_enqueue _ (formGroup (inSlot s th n) th ms)).trans ?_
  rw [show (formGroup (inSlot s th n) th ms).th = th from rfl, unchained, State.thr_modThr]

theorem thr_queuedAt : (queuedAt s th n ms).thr th =
    Thread.follow { (inSlot s th n).thr th with groupNum := ((inSlot s th n).thr th).groupNum + 1, openGrp := none }
      (((inSlot s th n).thr th).pc + 1) := by
  rw [queuedAt, State.thr_modThr, thr_enqueue_formGroup]

theorem mem_queuedAt : (queuedAt s th n ms).mem = s.mem := by simp [queuedAt, unchained]

theorem nextGroup_queuedAt : (queuedAt s th n ms).nextGroup = s.nextGroup + 1 := by simp [queuedAt, unchained]

theorem group_queuedAt : (queuedAt s th n ms).group s.nextGroup = some (queuedGroup s th n ms) := by
  have h := group_enqueue (unchained (inSlot s th n) th) (formGroup (inSlot s th n) th ms)
  rw [unchained, State.modThr_nextGroup, nextGroup_inSlot] at h
  exact h

/-- The queues of the span, and no other, end with the group (R119). -/
theorem spin_queuedAt {k : Nat} (hk : k < 8) (hms : ms ≠ []) (m : Member) : (queuedAt s th n ms).spin (8 * th.l.val + k) =
    if (ms.headD m).v.sp0.toNat ≤ k ∧ k ≤ (ms.headD m).v.sp0.toNat + (ms.headD m).v.scnt.toNat then
      { s.spin (8 * th.l.val + k) with queue := (s.spin (8 * th.l.val + k)).queue ++ [s.nextGroup] }
    else s.spin (8 * th.l.val + k) := by
  obtain ⟨_, hsp, hsc⟩ := formGroup_head (inSlot s th n) th hms m
  have hm := (formGroup (inSlot s th n) th ms).mem_spindles hk
  rw [hsp, hsc] at hm
  have hs : (unchained (inSlot s th n) th).spin (8 * th.l.val + k) = s.spin (8 * th.l.val + k) := spin_inSlot s th n _
  have h := spin_enqueue (unchained (inSlot s th n) th) (formGroup (inSlot s th n) th ms) (8 * th.l.val + k)
  rw [hs, unchained, State.modThr_nextGroup, nextGroup_inSlot] at h
  exact h.trans (ite_congr (propext hm) (fun _ => rfl) (fun _ => rfl))

end

theorem exec_vectorIssue (th : Th) (v : VFld) (s : State) : exec (.vectorIssue th v) s = .next (issue th (packV v) (opVector th v) s) := rfl

theorem exec_vchain (th : Th) (f : TFld) (s : State) :
    exec (.vchain th f) s = .next (issue th (packT 0o060 0o030 f) (opVchain th 0o030 f) s) := rfl

/-- A vector issue that completes a group with room ends in `queuedAt`. -/
theorem issue_queues {s : State} {th : Th} {v : VFld} {n : Nat} {ms : List Member} (h : Issues s th (packV v) n)
    (ho : opVector th v (inSlot s th n) = submitted th (inSlot s th n) ms)
    (hr : hasRoom (inSlot s th n) (formGroup (inSlot s th n) th ms) = true) :
    issue th (packV v) (opVector th v) s = queuedAt s th n ms := by
  rw [issue_eq h, ho, submitted, if_pos hr, completes_packV v (by rw [thr_enqueue_formGroup])]
  rfl

/-! ## Without room (R118, R119) -/

theorem Thread.fpEnd_openGrp (t : Thread) (p : FpPend) : (t.fpEnd p).openGrp = t.openGrp := by
  have hd : ∀ (u : Thread) (fl : Flags5), (u.fpDone fl).openGrp = u.openGrp := fun u fl => by unfold Thread.fpDone; split <;> rfl
  have hf : (p.fw.foldl (fun t x => t.wHalf x.1 x.2) t).openGrp = t.openGrp :=
    foldl_keeps (fun u : Thread => u.openGrp = t.openGrp) (fun u (x : Nat × Word) => u.wHalf x.1 x.2) _ t rfl (fun _ _ h => h)
  unfold Thread.fpEnd
  rw [hd]
  split
  · rw [Thread.wg_openGrp, hf]
  · exact hf

/-- Floating-point instructions that complete leave the open group. -/
@[simp] theorem Thread.fpBy_openGrp (t : Thread) (c : Nat) : (t.fpBy c).openGrp = t.openGrp :=
  foldl_keeps (fun u : Thread => u.openGrp = t.openGrp) Thread.fpEnd _ _ rfl (fun u p h => (u.fpEnd_openGrp p).trans h)

section
variable {s : State} {th : Th} {w : Word} {m : Nat} (hw : (s.thr th).word = some w)
include hw

/-- A thread with its instruction at hand takes a turn of its own only for an event. -/
theorem eventDue_of_timedTurn (h : timedTurn s th = some m) : eventDue s th = true := by
  cases he : eventDue s th with
  | true => rfl
  | false => simp [timedTurn, hw, he] at h

variable (ht : ∀ c, (s.thr th).trapBy c = false) (hh : ∀ c, opHolds (s.thr th) (wordRun th w (atSlot s th c)).2 = true)
include ht hh

/-- A thread whose instruction is held by what it does, with no trap on its way, has a slot only for an event. -/
theorem eventDue_of_slotOf (h : slotOf s th = some m) : eventDue s th = true := by
  simp only [slotOf, hw, ht, hh, Bool.false_eq_true, if_false, if_true] at h
  split at h
  · cases h
  · exact eventDue_of_timedTurn hw h

/-- Such a thread's instruction has no slot. -/
theorem nextSlot_of_held (hp : (s.lathe th.l).pair = none) : nextSlot s th = none := by
  simp only [nextSlot, hp, Option.bind_eq_none_iff]
  rintro ⟨t, m⟩ hn
  by_cases hth : t = th.t
  · subst hth
    simp [issuesIn, eventDue_of_slotOf hw ht hh (firstOf_slot hn)]
  · simp [hth]

/-- Its row lets slots pass where no thread of the core issues, and else does nothing (the model's choice, log entries 4 and 10). -/
theorem issue_held (hp : (s.lathe th.l).pair = none) (op : State → State × Res) :
    issue th w op s = if (nextIssuer s th.l).isSome then s else idleSlots s th := by
  simp only [issue, nextSlot_of_held hw ht hh hp, slotsBefore, hp, Option.isSome_none, Bool.false_eq_true, if_false]
  cases nextIssuer s th.l with
  | none => rfl
  | some x => simp [ht]

end

/-- A vector issue outside an open group is held while its group has no room, at whatever slot it is judged. -/
theorem vectorIssue_held {s : State} {th : Th} {v : VFld} (hl : vLegal v = true) (ho : (s.thr th).openGrp = none) (hr : ¬ RoomFor s th v)
    (c : Nat) : opHolds (s.thr th) (wordRun th (packV v) (atSlot s th c)).2 = true := by
  have ho' : ((atSlot s th c).thr th).openGrp = none := by rw [atSlot, State.thr_modThr, Thread.fpBy_openGrp, ho]
  have hn : hasRoom (atSlot s th c) (formGroup (atSlot s th c) th [captureMember ((atSlot s th c).thr th) v]) = false :=
    Bool.eq_false_iff.2 (fun e => hr ((hasRoom_formGroup _ _ (List.cons_ne_nil _ _) (captureMember (s.thr th) v)).1 e))
  rw [wordRun_packV, opVector_alone hl ho', submitted, hn]
  rfl

/-! ## VCHAIN (R116, R117) -/

section
variable {s : State} {th : Th} {func : BitVec 7} {f : TFld} (hrd : f.rd = 0) (hra : f.ra = 0) (hrb : f.rb = 0) (hfm : f.form = 0)
include hrd hra hrb hfm

theorem opVchain_opens (hm : f.mod ≠ 0) (ho : (s.thr th).openGrp = none) : opVchain th func f s =
    opThread th (fun t => { t with openGrp := some { want := f.mod.toNat, level := t.level } }) s := by
  have hn : f.mod.toNat ≠ 0 := fun e => hm (BitVec.eq_of_toNat_eq e)
  simp [opVchain, hrd, hra, hrb, hfm, hn, ho]

theorem opVchain_nested (hm : f.mod ≠ 0) (ho : (s.thr th).openGrp ≠ none) :
    opVchain th func f s = (s, illegal (packT 0o060 func f)) := by
  have hn : f.mod.toNat ≠ 0 := fun e => hm (BitVec.eq_of_toNat_eq e)
  simp [opVchain, hrd, hra, hrb, hfm, hn, Option.isSome_iff_ne_none.2 ho]

theorem opVchain_discards (hm : f.mod = 0) {o : OpenGroup} (ho : (s.thr th).openGrp = some o) (hl : o.level = (s.thr th).level) :
    opVchain th func f s = opThread th (fun t => { t with openGrp := none }) s := by
  simp [opVchain, hrd, hra, hrb, hfm, hm, ho, hl]

end

/-- Settles O35: a legal vector issue either joins its open group or submits one, which `queuedAt` queues where there is room; without room its
operation waits, so that its thread has no slot; VCHAIN changes the open group alone. That slots pass meanwhile where no thread issues is the model's
choice (log entries 4 and 10). -/
theorem vectorIssueFormsAndQueuesGroups : Obligations.VectorIssueFormsAndQueuesGroups := by
  intro th v f s n t0 dw m mine spans room queued opens chains
  have hroom : ∀ v0, room v0 ↔ RoomFor s th v0 := fun v0 => by
    have hmine : (groupsOf s th).length = mine := groupsOf_length s th
    simp only [room, spans, RoomFor, hmine, decide_eq_true_eq]
  have hqueued : ∀ ms, Issues s th (packV v) n → ms ≠ [] → opVector th v (inSlot s th n) = submitted th (inSlot s th n) ms →
      room (ms.headD m).v → queued ms := by
    intro ms hi hms ho hr
    have hr' := (hasRoom_formGroup (inSlot s th n) th hms m).2 ((roomFor_inSlot s th n _).2 ((hroom _).1 hr))
    obtain ⟨hvl, hsp, hsc⟩ := formGroup_head (inSlot s th n) th hms m
    refine ⟨queuedAt s th n ms, queuedGroup s th n ms, ?_, group_queuedAt s th n ms, nextGroup_queuedAt s th n ms, rfl, rfl, hvl, hsp, hsc, rfl,
      epoch_inSlot s th n, rfl, rfl, ?_, rfl, ?_, ?_, thr_queuedAt s th n ms, mem_queuedAt s th n ms⟩
    · exact (exec_vectorIssue th v s).trans (congrArg _ (issue_queues hi ho hr'))
    · intro hd
      exact (sealKey_queuedAs hd).trans (nextGroup_inSlot s th n)
    · intro q b k p hp
      exact freshParts_block hp
    · intro k hk
      simp only [spans, decide_eq_true_eq]
      exact spin_queuedAt s th n ms hk hms m
  refine ⟨fun hi => ⟨?illegal, fun hl => ⟨?alone, ?joins, ?last⟩⟩, ?held, fun hi ⟨hrd, hra, hrb, hfm⟩ => ⟨?opens, ?nested, ?discards⟩⟩
  case illegal =>
    intro hl
    exact (exec_vectorIssue th v s).trans (congrArg _ (issue_illegal hi (opVector_illegal hl)))
  case alone =>
    intro ho hr
    exact hqueued [m] hi (List.cons_ne_nil _ _) (opVector_alone hl ho) hr
  case joins =>
    intro o ho hlv hw
    exact (exec_vectorIssue th v s).trans (congrArg _ (issue_thread hi (opVector_joins hl ho hlv hw)))
  case last =>
    intro o ho hlv hw hr
    exact hqueued (o.members ++ [m]) hi (by simp) (opVector_last hl ho hlv hw) hr
  case held =>
    intro hw hl ho hr hp ht
    exact (exec_vectorIssue th v s).trans (congrArg _ (issue_held hw ht (vectorIssue_held hl ho (fun e => hr ((hroom v).2 e))) hp _))
  case opens =>
    intro hm ho
    exact (exec_vchain th f s).trans (congrArg _ (issue_thread hi (opVchain_opens hrd hra hrb hfm hm ho)))
  case nested =>
    intro hm ho
    exact (exec_vchain th f s).trans (congrArg _ (issue_illegal hi (opVchain_nested hrd hra hrb hfm hm ho)))
  case discards =>
    intro o hm ho hlv
    exact (exec_vchain th f s).trans (congrArg _ (issue_thread hi (opVchain_discards hrd hra hrb hfm hm ho hlv)))

end Sys2Proof.Machine
end

section
/-! PROOFS. One element of a running group (spec 06_vector_operations.md, R145 to R153, R169; 05_spindles_and_chaining.md, R102, R128): a group
whose second destination is a MASK stream in memory, which the writer reads before it writes the first. -/
namespace Sys2Proof.Machine

/-! ## A group whose d2 faults -/

/-- A MASK stream of space LOCAL and STRIDE 1 whose words lie in the bank group of spindle 1. -/
def strayMask : Quad := { w0 := BitVec.ofNat 36 (2 ^ 19), w1 := BitVec.ofNat 36 (2 ^ 12 + 6 * 2 ^ 8) }

/-- SPROJ, one of the three operations with a second destination (R145): d is word 0 of the device as I36, d2 the stray mask. -/
def strayMember : Member := { v := { vfunc := 0o55 }, dc := strayMask }

/-- A block of one element, which the readers have presented with a result for d alone. -/
def strayPart : Part := { last1 := 1, ahead := [{ outs := [(0, false, 0, {})] }] }

def strayGroup : Group := { th := ⟨0, 0⟩, vl := 1, started := true, members := [strayMember], parts := [strayPart] }

/-- The group runs in spindle 0, which owns bank 0. -/
def strayState : State :=
  { groups := [(0, some strayGroup)], spindles := [(0, { queue := [0] })], banks := [(0, { ownCl := 0 })] }

theorem judge_strayState : judge strayState 0 (reqStream 0 0 0) true = .granted := by decide +kernel

/-- The writer judges d, then reads the word of d2, in which no result stands, to merge it (R95); the read is outside the spindle's banks
(R81), and the block ends at its element with that fault (R102). -/
theorem bankAccess_strayState :
    ((settleJobs (bankAccess (.element 0) strayState)).group 0).map (fun g => g.parts.map (fun p => (p.next, p.stop, p.cause.toNat))) =
      some [(0, some 0, stLOCALITY)] := by
  decide +kernel

/-- Refutes O40: nothing in the clause of a granted write keeps the member's d2 from being a MASK stream in memory, since the clause does not
ask that the group passed its issue checks (STYPE refuses this one, R169). The writer reads a word of such a stream too, and a fault of
that read ends the group at the element, which is not written though the bank grants the write of d. -/
theorem not_elementStepsComputeAndWrite : ¬ Obligations.ElementStepsComputeAndWrite := by
  unfold Obligations.ElementStepsComputeAndWrite
  intro h
  have noJob : NoJob strayState := ⟨List.forall_mem_nil _, rfl⟩
  have unheard : Unheard strayState (pselSpnStrip 0) := List.forall_mem_nil _
  obtain ⟨-, writes⟩ := h 0 strayState 0 strayGroup strayMember strayPart noJob unheard rfl rfl rfl (by decide) rfl rfl rfl rfl (by decide)
    rfl rfl rfl rfl rfl rfl rfl
  obtain ⟨granted, -⟩ := writes _ {} rfl rfl rfl rfl rfl (by decide) (by decide) (by decide) (by decide) rfl
  obtain ⟨t, g', p', hexec, hgroup, hpart, -, -, -, -, -, hnext, -⟩ := granted judge_strayState
  obtain rfl : settleJobs (bankAccess (.element 0) strayState) = t := Host.Outcome.next.inj hexec
  have stays : g'.parts.map (fun p => (p.next, p.stop, p.cause.toNat)) = [(0, some 0, stLOCALITY)] := by
    simpa only [hgroup, Option.map_some, Option.some.injEq] using bankAccess_strayState
  have moved : (1, p'.stop, p'.cause.toNat) ∈ g'.parts.map (fun p => (p.next, p.stop, p.cause.toNat)) :=
    List.mem_map.2 ⟨p', List.mem_of_getElem? hpart, by rw [hnext]; rfl⟩
  simp [stays] at moved

end Sys2Proof.Machine
end

section
/-! PROOFS. Two instructions in one slot (spec 09_threads_and_pipeline.md, R222, R225, R240): what a slot and the predictor leave of the core's
record, the conditions of R222, and the end of an instruction that changes only its thread. -/
namespace Sys2Proof.Machine

/-! ## What a slot and the predictor leave of the core's record -/

/-- The core's record in the slot of an instruction that is not the second of a pair: its counters and the thread that issued last move, nothing
else of it (R220, R232, R240). -/
theorem lathe_inSlot_of_unpaired {s : State} {th : Th} (n : Nat) (h : (s.lathe th.l).pair = none) :
    ∃ slots clock turns, (inSlot s th n).lathe th.l =
      { s.lathe th.l with slotcnt := slots, clock := clock, wturn := turns, lastThr := th.t } := by
  simp only [inSlot, atIssue, h, Option.isSome_none, Bool.false_eq_true, if_false, startSlot, countInstr, addSlot, State.lathe_modThr,
    State.lathe_modLathe, lathe_passSlots]
  exact ⟨_, _, _, rfl⟩

/-- What the predictor learns stands in its entries, in no other part of the core's record (R225). -/
theorem lathe_predLearn (s : State) (th : Th) (pc target : Word) (taken : Bool) :
    ∃ entries, (predLearn s th pc target taken).lathe th.l = { s.lathe th.l with predictor := entries } := by
  unfold predLearn
  extract_lets x
  split
  · exact ⟨x.predictor, rfl⟩
  · split
    · exact ⟨_, State.lathe_setLathe ..⟩
    · split
      · exact ⟨x.predictor, rfl⟩
      · split
        · exact ⟨_, State.lathe_setLathe ..⟩
        · exact ⟨_, State.lathe_setLathe s.takeFree.2 th.l _⟩

/-- Of an instruction that is not a branch the predictor learns nothing. -/
theorem learn_of_not_branch {s : State} {th : Th} {pc w : Word} {r : Res} (h : predBranch w = false) : learn s th pc w r = s := by
  unfold learn
  exact if_neg (by simp [h])

/-- The end of an instruction changes no more of the core's record, whatever its operation came to. -/
theorem lathe_learn (s : State) (th : Th) (pc w : Word) (r : Res) :
    ∃ entries, (learn s th pc w r).lathe th.l = { s.lathe th.l with predictor := entries } := by
  unfold learn
  split
  · cases r with
    | seq => exact lathe_predLearn ..
    | jump => exact lathe_predLearn ..
    | _ => exact ⟨(s.lathe th.l).predictor, rfl⟩
  · exact ⟨(s.lathe th.l).predictor, rfl⟩

/-! ## The conditions of R222 -/

/-- A core without comparators halts no thread before its next instruction (R537). -/
theorem fetchHit_of_no_cmps {s : State} {th : Th} (h : (s.lathe th.l).cmps = []) : fetchHit s th = none := by
  simp [fetchHit, comparatorMatch, h, tget]

/-- The conditions of R222 on two words and their registers. -/
theorem pairFits_iff (a b : Word) (da db : Deps) : pairFits a b da db = true ↔
    (∀ r ∈ da.writes, r ≠ 0 → r ∉ db.reads ∧ r ∉ db.writes) ∧ ¬ (da.mem = true ∧ db.mem = true) ∧
      endsPair a = false ∧ neverPairs a = false ∧ neverPairs b = false := by
  have hreg : ∀ r, r ≠ 0 → r ∉ db.reads ∧ r ∉ db.writes ↔
      (decide (r = 0) || (!db.reads.contains r && !db.writes.contains r)) = true := fun r => by
    by_cases h : r = 0
    · simp only [h, ne_eq, not_true_eq_false, false_implies, decide_true, Bool.true_or]
    · simp only [h, ne_eq, not_false_eq_true, forall_const, decide_false, Bool.false_or, Bool.and_eq_true, Bool.not_eq_true',
        List.contains_eq_mem, decide_eq_false_iff_not]
  have hregs : (∀ r ∈ da.writes, r ≠ 0 → r ∉ db.reads ∧ r ∉ db.writes) ↔
      da.writes.all (fun r => decide (r = 0) || (!db.reads.contains r && !db.writes.contains r)) = true := by
    simp only [List.all_eq_true, hreg]
  rw [hregs]
  simp only [pairFits, Bool.and_eq_true, Bool.not_eq_true']
  constructor
  · rintro ⟨⟨⟨⟨hea, hna⟩, hnb⟩, hmem⟩, hw⟩
    exact ⟨hw, by rw [← Bool.and_eq_true, hmem]; exact Bool.false_ne_true, hea, hna, hnb⟩
  · rintro ⟨hw, hmem, hea, hna, hnb⟩
    exact ⟨⟨⟨⟨hea, hna⟩, hnb⟩, Bool.eq_false_iff.2 (fun e => hmem (Bool.and_eq_true_iff.1 e))⟩, hw⟩

/-- The instruction at the PC follows in the slot of the one before it where DUAL and R222's conditions say so, if nothing else keeps it from
issuing. -/
theorem pairs_iff {s : State} {th : Th} {a b : Word} {da : Deps} {n : Nat} (hcmps : (s.lathe th.l).cmps = [])
    (hstall : (s.lathe th.l).stall = none) (hword : (s.thr th).word = some b) (hhalted : (s.thr th).halted = false)
    (hclear : (s.thr th).clearOf (depsOf (s.thr th) b) = true) (hregs : (s.thr th).regsFrom (depsOf (s.thr th) b) ≤ n)
    (hholds : opHolds (s.thr th) (wordRun th b s).2 = false) :
    pairs s th a da n = true ↔ (s.lathe th.l).dual = true ∧ (s.lathe th.l).detact = false ∧ pairFits a b da (depsOf (s.thr th) b) = true := by
  simp [pairs, hword, hstall, hhalted, hclear, hregs, hholds, fetchHit_of_no_cmps hcmps, and_assoc]

/-- Every instruction of which the predictor learns ends its pair (R222, R225). -/
theorem endsPair_of_predBranch {w : Word} (h : predBranch w = true) : endsPair w = true := by
  simp only [predBranch, endsPair, Bool.or_eq_true, Bool.and_eq_true, decide_eq_true_eq] at h ⊢
  omega

/-- Nothing follows a branch in its slot. -/
theorem pairs_of_endsPair {s : State} {th : Th} {a : Word} {da : Deps} {n : Nat} (h : endsPair a = true) : pairs s th a da n = false := by
  simp only [pairs, pairFits, h]
  split <;> simp

/-- What the predictor learns has no part in whether a second instruction follows in the slot. -/
theorem pairs_learn (s : State) (th : Th) (pc a : Word) (da : Deps) (n : Nat) (r : Res) :
    pairs (learn s th pc a r) th a da n = pairs s th a da n := by
  cases h : predBranch a with
  | false => rw [learn_of_not_branch h]
  | true => rw [pairs_of_endsPair (endsPair_of_predBranch h), pairs_of_endsPair (endsPair_of_predBranch h)]

/-! ## The end of an instruction that changes only its thread -/

/-- The state that such an instruction leaves at the next one, before it is judged whether that one follows in the slot. -/
def advanced (s : State) (th : Th) (w : Word) (n : Nat) (f : Thread → Thread) : State :=
  (((inSlot s th n).modThr th f).modThr th
    (fun t => t.supersede ((inSlot s th n).thr th) w (depsOf ((inSlot s th n).thr th) w))).modThr th (fun t => t.follow (t.pc + 1))

section
variable {s : State} {th : Th} {n : Nat} (w : Word) (f : Thread → Thread)

@[simp] theorem lathe_advanced (l : Fin 16) : (advanced s th w n f).lathe l = (inSlot s th n).lathe l := rfl

/-- Unless it is itself the second of a pair, the next instruction follows in its slot just where `pairs` says so of the state that it leaves. -/
theorem issued_of_unpaired (h : (s.lathe th.l).pair = none) : issued s th w n f =
    if pairs (advanced s th w n f) th w (depsOf ((atIssue s th n).thr th) w) n then
      (learn (advanced s th w n f) th (s.thr th).pc w .seq).modLathe th.l (fun x => { x with pair := some th.t })
    else learn (advanced s th w n f) th (s.thr th).pc w .seq := by
  rw [← pairs_learn (advanced s th w n f) th (s.thr th).pc w _ n .seq]
  unfold issued completes
  simp only [h, Option.isNone_none, Bool.true_and, decide_true]
  rfl

/-- The thread has the core's next issue in the same slot just where the next instruction follows. -/
theorem pair_issued (h : (s.lathe th.l).pair = none) : ((issued s th w n f).lathe th.l).pair =
    if pairs (advanced s th w n f) th w (depsOf ((atIssue s th n).thr th) w) n then some th.t else none := by
  obtain ⟨_, _, _, hslot⟩ := lathe_inSlot_of_unpaired n h
  obtain ⟨_, hlearn⟩ := lathe_learn (advanced s th w n f) th (s.thr th).pc w .seq
  rw [issued_of_unpaired w f h]
  split
  · rw [State.lathe_modLathe]
  · rw [hlearn, lathe_advanced, hslot]
    exact h

/-- The slot of its core is then still its own (R222). -/
theorem slot_issued (hi : Issues s th w n) (h : (s.lathe th.l).pair = none) : ((issued s th w n f).lathe th.l).slot = n := by
  obtain ⟨_, hlearn⟩ := lathe_learn (advanced s th w n f) th (s.thr th).pc w .seq
  have hslot : ((learn (advanced s th w n f) th (s.thr th).pc w .seq).lathe th.l).slot = n := by
    simp only [hlearn, Lathe.slot]
    exact slot_inSlot hi.1
  rw [issued_of_unpaired w f h]
  split
  · rw [State.lathe_modLathe]
    exact hslot
  · exact hslot

end

/-- Settles O8: nothing but `pairs` decides whether the second instruction follows, and with nothing else to keep it from issuing `pairs` says what
R222 says; the core's slot stays the one that the first had. -/
theorem pairsShareOneSlot : Obligations.PairsShareOneSlot := by
  intro th s a b n f hi x s0 s1 t1 t da db hpair hstall hcmps hword hhalted hclear hregs hholds fits
  obtain ⟨_, _, _, hslot⟩ := lathe_inSlot_of_unpaired n hpair
  have hcore : s1.lathe th.l = (inSlot s th n).lathe th.l := rfl
  rw [hslot] at hcore
  have hfits : pairs s1 th a da n = true ↔ fits := by
    rw [pairs_iff (by rw [hcore]; exact hcmps) (by rw [hcore]; exact hstall) hword hhalted hclear hregs hholds, hcore, pairFits_iff]
  have hp : (t.lathe th.l).pair = if pairs s1 th a da n then some th.t else none := pair_issued a f hpair
  refine ⟨fun hf => ?_, fun hf => ?_⟩
  · rw [if_pos (hfits.2 hf)] at hp
    refine ⟨hp, ?_⟩
    simp only [nextSlot, hp, if_true]
    exact congrArg some (slot_issued a f hi hpair)
  · rw [hp, if_neg (fun e => hf (hfits.1 e))]

end Sys2Proof.Machine
end

section
/-! PROOFS. The core's control register (spec 09_threads_and_pipeline.md, R231, R237, R238; 11_privilege_and_exceptions.md, R256): who may write
it, the threads that a write starts, and the end of a drain. -/
namespace Sys2Proof.Machine

/-! ## Writes of the register region (R21, R346) -/

/-- A write that its master may not make changes the fabric's part of the state alone and is a bus error, with a path to the register or
without (R21, R346). -/
theorem writeIf_denied {m : Master} {off : Nat} {ok : Bool} (f : State → State) (s : State) (h : ok = false) :
    Denied s (writeIf m off ok f s) m off := by
  unfold writeIf
  split
  · exact ⟨rfl, tget_tput_self ..⟩
  · rw [h]
    exact ⟨rfl, tget_tput_self ..⟩

/-- A write that its master may make and has a path for is made. -/
theorem writeIf_granted {m : Master} {off : Nat} {ok : Bool} (f : State → State) {s : State} (hp : hasPath s m (regBase + off) = true)
    (h : ok = true) : writeIf m off ok f s = f s := by
  simp only [writeIf, hp, h, Bool.not_true, Bool.false_eq_true, if_false, if_true]

/-- The registers stand in the region of their blocks (R16). -/
theorem areaOf_reg {off : Nat} (h : off < 0o650000) : areaOf (regBase + off) = .regs off := by
  have hb : regBase = 0o000450000000 := rfl
  unfold areaOf
  rw [if_neg (by omega), if_neg (by omega), if_neg (by omega), if_neg (by omega), if_neg (by omega), if_neg (by omega), if_pos (by omega),
    if_pos (by omega), hb, Nat.add_sub_cancel_left]

/-! ## A change of every thread of a core -/

theorem mem_threadsOf {l : Fin 16} {th : Th} : th ∈ threadsOf l ↔ th.l = l := by
  simp only [threadsOf, List.mem_map, List.mem_finRange, true_and]
  constructor
  · rintro ⟨t, rfl⟩
    rfl
  · rintro rfl
    exact ⟨th.t, rfl⟩

theorem nodup_threadsOf (l : Fin 16) : (threadsOf l).Nodup :=
  List.Pairwise.map (fun t => (⟨l, t⟩ : Th)) (fun _ _ hne he => hne (congrArg Th.t he)) (List.nodup_finRange 8)

/-- Turns that each change one thread, by the core's record, which they leave: every thread named once changes once. -/
theorem thr_foldl_once {l : Fin 16} {g : State → Th → State} {h : Lathe → Th → Thread → Thread}
    (hself : ∀ s u, (g s u).thr u = h (s.lathe l) u (s.thr u)) (hother : ∀ s u v, v ≠ u → (g s u).thr v = s.thr v)
    (hcore : ∀ s u, (g s u).lathe l = s.lathe l) (th : Th) : ∀ (ts : List Th) (s : State), ts.Nodup →
    (ts.foldl g s).thr th = if th ∈ ts then h (s.lathe l) th (s.thr th) else s.thr th
  | [], _, _ => rfl
  | u :: ts, s, hnd => by
    obtain ⟨hu, hts⟩ := List.nodup_cons.1 hnd
    rw [List.foldl_cons, thr_foldl_once hself hother hcore th ts _ hts, hcore]
    by_cases he : th = u
    · subst he; simp [hu, hself]
    · simp [he, hother _ _ _ he]

/-! ## Who may write LTH_CORECFG, and what a write does (R231, R237, R238, R256) -/

/-- The headstock and machine-level code of the lathe may write the register (R238). -/
theorem mayCoreCfg_iff (s : State) (m : Master) (l : Fin 16) :
    mayCoreCfg s m l = true ↔ m = .head ∨ ∃ th, m = .core th ∧ th.l = l ∧ (s.thr th).level = .machine := by
  cases m <;> simp [mayCoreCfg, isMachineOn, Fin.ext_iff]

/-- Both have a path to it (R346). -/
theorem hasPath_of_mayCoreCfg {s : State} {m : Master} {l : Fin 16} (h : mayCoreCfg s m l = true) :
    hasPath s m (regBase + (0o300000 + 0o2000 * l.val)) = true := by
  have ha : areaOf (regBase + (0o300000 + 0o2000 * l.val)) = .regs (0o300000 + 0o2000 * l.val) := areaOf_reg (by omega)
  rw [hasPath, ha]
  obtain rfl | ⟨th, rfl, -⟩ := (mayCoreCfg_iff s m l).1 h
  · rfl
  · rfl

/-- Whether a write of TEN enables a thread for the first time (R256). -/
def startsNow (x : Lathe) (th : Th) (t : Thread) : Bool := x.ten.getLsbD th.t.val && !t.started

/-- One turn of `startEnabled`: a thread enabled for the first time starts. -/
def startIfEnabled (l : Fin 16) (s : State) (th : Th) : State :=
  if startsNow (s.lathe l) th (s.thr th) then s.modThr th (startThread (s.lathe l)) else s

theorem startEnabled_eq_foldl (s : State) (l : Fin 16) : startEnabled s l = (threadsOf l).foldl (startIfEnabled l) s := rfl

/-- Starting threads changes the threads alone. -/
theorem startEnabled_frame {α : Type} (p : State → α) (hp : ∀ s th f, p (State.modThr s th f) = p s) (s : State) (l : Fin 16) :
    p (startEnabled s l) = p s := by
  rw [startEnabled_eq_foldl]
  refine foldl_keeps (fun t => p t = p s) _ _ s rfl (fun t th ht => ?_)
  unfold startIfEnabled
  split
  · exact (hp _ _ _).trans ht
  · exact ht

/-- The threads after it (R256). -/
theorem thr_startEnabled (s : State) (l : Fin 16) (th : Th) : (startEnabled s l).thr th =
    if th.l = l ∧ startsNow (s.lathe l) th (s.thr th) = true then startThread (s.lathe l) (s.thr th) else s.thr th := by
  have hturn := thr_foldl_once (g := startIfEnabled l) (l := l)
    (h := fun x th t => if startsNow x th t then startThread x t else t) ?self ?other ?core th (threadsOf l) s (nodup_threadsOf l)
  · rw [startEnabled_eq_foldl, hturn]
    by_cases hl : th.l = l
    · simp only [mem_threadsOf, hl, true_and, if_true]
    · simp only [mem_threadsOf, hl, false_and, if_false]
  case self =>
    intro s u
    unfold startIfEnabled
    split
    · exact State.thr_modThr ..
    · rfl
  case other =>
    intro s u v hv
    unfold startIfEnabled
    split
    · exact State.thr_modThr_ne _ _ hv
    · rfl
  case core =>
    intro s u
    unfold startIfEnabled
    split <;> rfl

/-- The core's record after a write of its control register: its fields, and a drain where an operating field changed (R237, R238). -/
def configured (x : Lathe) (w : Word) (det : Bool) : Lathe :=
  { x with det := det, dual := w.getLsbD 11, pred := w.getLsbD 10, icoff := w.getLsbD 9, dcoff := w.getLsbD 8, ten := BitVec.ofNat 8 w.toNat,
           drain := x.drain || (det != x.det || w.getLsbD 11 != x.dual || w.getLsbD 10 != x.pred || w.getLsbD 9 != x.icoff ||
             w.getLsbD 8 != x.dcoff) }

/-- DET as a write leaves it: in Deterministic mode only the headstock clears it (R231). -/
def detAfter (s : State) (l : Fin 16) (w : Word) (byHead : Bool) : Bool :=
  w.getLsbD 12 || ((s.lathe l).det && !byHead && decide (s.pwr.mode = 7))

theorem coreCfgSet_eq (s : State) (l : Fin 16) (w : Word) (byHead : Bool) :
    coreCfgSet s l w byHead = startEnabled (s.setLathe l (configured (s.lathe l) w (detAfter s l w byHead))) l := by
  have hten : w.extractLsb' 0 8 = BitVec.ofNat 8 w.toNat := by simp [BitVec.extractLsb']
  unfold coreCfgSet configured detAfter
  rw [← hten]

/-- A write leaves what is beside the core's record and the threads. -/
theorem coreCfgSet_frame {α : Type} (p : State → α) (hp : ∀ s th f, p (State.modThr s th f) = p s) (s : State) (l : Fin 16) (w : Word)
    (byHead : Bool) (hl : ∀ s x, p (State.setLathe s l x) = p s) : p (coreCfgSet s l w byHead) = p s := by
  rw [coreCfgSet_eq]
  exact (startEnabled_frame p hp _ _).trans (hl _ _)

theorem lathe_coreCfgSet (s : State) (l : Fin 16) (w : Word) (byHead : Bool) :
    (coreCfgSet s l w byHead).lathe l = configured (s.lathe l) w (detAfter s l w byHead) := by
  rw [coreCfgSet_eq]
  exact (startEnabled_frame (fun t => t.lathe l) (fun _ _ _ => rfl) _ _).trans (State.lathe_setLathe ..)

/-- The threads of the lathe whose bit of TEN is set, and which had not started, start (R256). -/
theorem thr_coreCfgSet (s : State) (l : Fin 16) (w : Word) (byHead : Bool) (th : Th) : (coreCfgSet s l w byHead).thr th =
    if th.l = l ∧ w.getLsbD th.t.val = true ∧ (s.thr th).started = false
    then startThread (s.lathe l) (s.thr th) else s.thr th := by
  have hten : (BitVec.ofNat 8 w.toNat).getLsbD th.t.val = w.getLsbD th.t.val := by
    simp [th.t.isLt]
  rw [coreCfgSet_eq, thr_startEnabled]
  simp only [State.lathe_setLathe, State.thr_setLathe, startsNow, configured, hten, Bool.and_eq_true, Bool.not_eq_true']
  rfl

/-! ## The end of a drain (R237, R250) -/

/-- A completion writes registers, which are not its flags nor an outstanding instruction, and then records its flags. -/
theorem fpEnd_eq_fpDone (t : Thread) (q : FpPend) : ∃ u : Thread, t.fpEnd q = u.fpDone q.flags ∧ u.fflags = t.fflags ∧ u.fpOut = t.fpOut := by
  have hw : (q.fw.foldl (fun t x => t.wHalf x.1 x.2) t).fflags = t.fflags ∧ (q.fw.foldl (fun t x => t.wHalf x.1 x.2) t).fpOut = t.fpOut :=
    foldl_keeps (fun u : Thread => u.fflags = t.fflags ∧ u.fpOut = t.fpOut) (fun u (x : Nat × Word) => u.wHalf x.1 x.2) _ t ⟨rfl, rfl⟩
      (fun _ _ h => h)
  unfold Thread.fpEnd
  refine ⟨_, rfl, ?_⟩
  split
  · rw [Thread.wg_fflags, Thread.wg_fpOut]
    exact hw
  · exact hw

theorem fpEnd_fflags (t : Thread) (q : FpPend) : (t.fpEnd q).fflags = t.fflags ||| q.flags := by
  obtain ⟨u, he, hf, -⟩ := fpEnd_eq_fpDone t q
  rw [he, ← hf, Thread.fpDone]
  split <;> rfl

theorem fpEnd_fpOut (t : Thread) (q : FpPend) : (t.fpEnd q).fpOut = t.fpOut := by
  obtain ⟨u, he, -, ho⟩ := fpEnd_eq_fpDone t q
  rw [he, ← ho, Thread.fpDone]
  split <;> rfl

/-- After all completions no floating-point instruction is outstanding. -/
theorem fpAll_fpOut (t : Thread) : t.fpAll.fpOut = [] :=
  foldl_keeps (fun u : Thread => u.fpOut = []) Thread.fpEnd _ _ rfl (fun u q h => (fpEnd_fpOut u q).trans h)

/-- The flags of completions are recorded, every one. -/
theorem foldl_fpEnd_fflags (j : Nat) : ∀ (qs : List FpPend) (t : Thread), (qs.foldl Thread.fpEnd t).fflags.getLsbD j = true ↔
    t.fflags.getLsbD j = true ∨ ∃ q ∈ qs, q.flags.getLsbD j = true
  | [], t => by simp
  | q :: qs, t => by
    rw [List.foldl_cons, foldl_fpEnd_fflags j qs, fpEnd_fflags, BitVec.getLsbD_or, Bool.or_eq_true, or_assoc]
    simp only [List.mem_cons, exists_eq_or_imp]

theorem fpAll_fflags (t : Thread) (j : Nat) : t.fpAll.fflags.getLsbD j = true ↔
    t.fflags.getLsbD j = true ∨ ∃ q ∈ t.fpOut, q.flags.getLsbD j = true :=
  foldl_fpEnd_fflags j t.fpOut { t with fpOut := [] }

/-- Without a RUNNING command no MODESET waits for the cores (R513). -/
theorem settleModeset_of_none_running {s : State} (h : ∀ e ∈ s.hs.slots, e.2.st ≠ 3) : settleModeset s = s := by
  have hf : s.hs.slots.find? (fun (_, x) => x.st = 3 && x.begun && x.copy.head? = some 0o50) = none := by
    refine List.find?_eq_none.2 (fun e he hc => h e he ?_)
    simp only [Bool.and_eq_true, decide_eq_true_eq] at hc
    exact hc.1.1
  unfold settleModeset
  rw [hf]

/-- A drain waits for a divide, the second half of a pair, and every load (R237). -/
theorem corecfgDrainEnd_waits {s : State} {l : Fin 16} (h : (s.lathe l).drain = false ∨ (s.lathe l).stall ≠ none ∨ (s.lathe l).pair ≠ none ∨
    ∃ u : Fin 8, (s.thr ⟨l, u⟩).loads ≠ []) : corecfgDrainEnd s l = s := by
  refine if_pos ?_
  simpa [threadsOf, Option.isSome_iff_ne_none, or_assoc] using h

/-- The core's record at the end of a drain: the caches are empty and the setting applies, its slots counted anew where deterministic operation
begins (R232, R237, R240). -/
def applied (x : Lathe) : Lathe :=
  { x with drain := false, icache := [], dcache := [], detact := x.det, slotcnt := if x.det && !x.detact then 0 else x.slotcnt
           clock := if x.det && !x.detact then 0 else x.clock }

/-- The state at the end of a drain. -/
def drainedState (s : State) (l : Fin 16) : State :=
  ((threadsOf l).foldl (fun s th => s.modThr th Thread.drained) s).modLathe l applied

/-- The end of a drain changes the core's record and its threads alone. -/
theorem drainedState_frame {α : Type} (p : State → α) (hp : ∀ s th f, p (State.modThr s th f) = p s)
    (hl : ∀ s l f, p (State.modLathe s l f) = p s) (s : State) (l : Fin 16) : p (drainedState s l) = p s :=
  (hl _ _ _).trans (foldl_modThr_frame s p hp _ _)

/-- With nothing left to wait for a drain ends, if no command waits for the cores. -/
theorem corecfgDrainEnd_ends {s : State} {l : Fin 16} (hd : (s.lathe l).drain = true) (hst : (s.lathe l).stall = none)
    (hp : (s.lathe l).pair = none) (hl : ∀ u : Fin 8, (s.thr ⟨l, u⟩).loads = []) (hs : ∀ e ∈ s.hs.slots, e.2.st ≠ 3) :
    corecfgDrainEnd s l = drainedState s l := by
  have hhs : (drainedState s l).hs = s.hs := drainedState_frame State.hs (fun _ _ _ => rfl) (fun _ _ _ => rfl) s l
  have hsettled : settleModeset (drainedState s l) = drainedState s l := settleModeset_of_none_running (by rw [hhs]; exact hs)
  have hcore := lathe_foldl_modThr l Thread.drained (threadsOf l) s
  have hready : ¬ (!(s.lathe l).drain || (s.lathe l).stall.isSome || (s.lathe l).pair.isSome ||
      (threadsOf l).any (fun th => !(s.thr th).loads.isEmpty)) = true := by
    simp [threadsOf, hd, hst, hp, hl]
  rw [← hsettled]
  refine (if_neg hready).trans ?_
  simp only [drainedState, State.modLathe, hcore, applied]

theorem lathe_drainedState (s : State) (l : Fin 16) : (drainedState s l).lathe l = applied (s.lathe l) := by
  rw [drainedState, State.lathe_modLathe, lathe_foldl_modThr]

theorem thr_drainedState (s : State) (l : Fin 16) (th : Th) :
    (drainedState s l).thr th = if th.l = l then (s.thr th).drained else s.thr th := by
  have h := thr_foldl_once (l := l) (g := fun s th => s.modThr th Thread.drained) (h := fun _ _ t => t.drained)
    (fun s u => State.thr_modThr s u _) (fun s _ _ hv => State.thr_modThr_ne s _ hv) (fun _ _ => rfl) th (threadsOf l) s (nodup_threadsOf l)
  rw [drainedState, State.thr_modLathe, h]
  simp only [mem_threadsOf]

/-! ## The register and its drain -/

theorem exec_lthCorecfgWrite (m : Master) (l : Fin 16) (w : Word) (s : State) : exec (.lthCorecfgWrite m l w) s =
    .next (writeIf m (0o300000 + 0o2000 * l.val) (mayCoreCfg s m l) (fun s => coreCfgSet s l w (m = .head)) s) := rfl

theorem exec_corecfgDrainEnd (l : Fin 16) (s : State) : exec (.corecfgDrainEnd l) s = .next (corecfgDrainEnd s l) := rfl

/-- Settles O46, by the two outcomes of a write and the two of a drain's end. -/
theorem coreConfigurationDrainsAndApplies : Obligations.CoreConfigurationDrainsAndApplies := by
  intro m l w s x may det changed
  have hmay : mayCoreCfg s m l = true ↔ may := mayCoreCfg_iff s m l
  have hdet : detAfter s l w (decide (m = .head)) = det := by
    simp only [detAfter, det, x, decide_not]
  refine ⟨fun hn => ?denied, fun hm => ?written, fun hd hst hp hl hs => ?ends, fun h => ?waits⟩
  case denied =>
    exact ⟨_, exec_lthCorecfgWrite m l w s, writeIf_denied _ s (Bool.eq_false_iff.2 (fun e => hn (hmay.1 e)))⟩
  case written =>
    have hm' := hmay.2 hm
    refine ⟨coreCfgSet s l w (m = .head), ?_, ?_, thr_coreCfgSet s l w _, fun k hk => ?_, ?_, ?_⟩
    · exact (exec_lthCorecfgWrite m l w s).trans (congrArg _ (writeIf_granted _ (hasPath_of_mayCoreCfg hm') hm'))
    · rw [lathe_coreCfgSet, hdet]
      rfl
    · exact coreCfgSet_frame (fun t => t.lathe k) (fun _ _ _ => rfl) s l w _ (fun _ _ => State.lathe_setLathe_ne _ _ hk)
    · exact coreCfgSet_frame State.mem (fun _ _ _ => rfl) s l w _ (fun _ _ => rfl)
    · exact coreCfgSet_frame State.banks (fun _ _ _ => rfl) s l w _ (fun _ _ => rfl)
  case ends =>
    refine ⟨drainedState s l, ?_, lathe_drainedState s l, fun th hth => ?_, fun th hth => ?_, ?_⟩
    · exact (exec_corecfgDrainEnd l s).trans (congrArg _ (corecfgDrainEnd_ends hd hst hp hl hs))
    · have ht : (drainedState s l).thr th = (s.thr th).drained := by rw [thr_drainedState, if_pos hth]
      rw [ht]
      exact ⟨rfl, fpAll_fpOut _, fun j _ => fpAll_fflags _ j⟩
    · rw [thr_drainedState, if_neg hth]
    · exact drainedState_frame State.mem (fun _ _ _ => rfl) (fun _ _ _ => rfl) s l
  case waits =>
    exact (exec_corecfgDrainEnd l s).trans (congrArg _ (corecfgDrainEnd_waits h))

end Sys2Proof.Machine
end

section
/-! PROOFS. Floating-point completion and its trap (spec 10_short_vectors_and_fp.md, R249 to R253; 11_privilege_and_exceptions.md, R258): what a
completion writes and records, and how the supervisor is entered for a trap request. -/
namespace Sys2Proof.Machine

/-! ## What a completion writes (R245, R250) -/

/-- A double is its high word times 2^36 and its low word. -/
theorem mkD_eq_ofNat (hi lo : Word) : mkD hi lo = BitVec.ofNat 72 (hi.toNat * 2 ^ 36 + lo.toNat) := by
  have hhi := hi.isLt
  have hlo := lo.isLt
  apply BitVec.eq_of_toNat_eq
  simp only [mkD, BitVec.toNat_or, BitVec.toNat_shiftLeft, BitVec.toNat_setWidth, BitVec.toNat_ofNat]
  rw [Nat.mod_eq_of_lt (by omega : hi.toNat < 2 ^ 72), Nat.mod_eq_of_lt (by omega : lo.toNat < 2 ^ 72), Nat.shiftLeft_eq,
    Nat.mod_eq_of_lt (by omega : hi.toNat * 2 ^ 36 < 2 ^ 72), Nat.mod_eq_of_lt (by omega), Nat.mul_comm, Nat.two_pow_add_eq_or_of_lt hlo]

theorem toNat_dHi (d : Dbl) : (dHi d).toNat = d.toNat / 2 ^ 36 := by
  have hd := d.isLt
  simp only [dHi, BitVec.toNat_setWidth, BitVec.toNat_ushiftRight, Nat.shiftRight_eq_div_pow]
  omega

theorem toNat_dLo (d : Dbl) : (dLo d).toNat = d.toNat % 2 ^ 36 := BitVec.toNat_setWidth 36 d

/-- The F registers after a write of one half, named as `FpPend.fw` names it. -/
def putHalf (f : Tab Dbl) (x : Nat × Word) : Tab Dbl :=
  let old := (tget 0 f (x.1 / 2)).toNat
  tput 0 f (x.1 / 2) (BitVec.ofNat 72 (if x.1 % 2 = 0 then old / 2 ^ 36 * 2 ^ 36 + x.2.toNat else x.2.toNat * 2 ^ 36 + old % 2 ^ 36))

theorem Thread.wHalf_eq_putHalf (t : Thread) (x : Nat × Word) : t.wHalf x.1 x.2 = { t with f := putHalf t.f x } := by
  simp only [Thread.wHalf, Thread.wf, Thread.rf, putHalf, mkD_eq_ofNat, toNat_dHi, toNat_dLo, apply_ite (BitVec.ofNat 72)]

/-- Writes of halves change the F registers alone. -/
theorem Thread.foldl_wHalf : ∀ (fw : List (Nat × Word)) (t : Thread),
    fw.foldl (fun t x => t.wHalf x.1 x.2) t = { t with f := fw.foldl putHalf t.f }
  | [], _ => rfl
  | x :: fw, t => by rw [List.foldl_cons, Thread.wHalf_eq_putHalf, Thread.foldl_wHalf fw]; rfl

/-- The general registers after a result for one of them, as `FpPend.gw` gives it; G0 stays zero (R194). -/
def putResult (g : Tab Word) : Option (BitVec 5 × Word) → Tab Word
  | some (r, v) => if r = 0 then g else tput 0 g r.toNat v
  | none => g

theorem Thread.wg_eq_putResult (t : Thread) (r : BitVec 5) (v : Word) : t.wg r v = { t with g := putResult t.g (some (r, v)) } := by
  by_cases h : r = 0 <;> simp only [Thread.wg, putResult, h, if_true, if_false]

/-- Whether flags of a completion have their trap enabled. -/
def Thread.traps (t : Thread) (fl : Flags5) : Bool := decide (fl &&& t.ften ≠ 0)

/-- The flags of a completion are recorded; where one has its trap enabled they are pending and a trap is requested (R250). -/
theorem Thread.fpDone_eq (t : Thread) (fl : Flags5) : t.fpDone fl =
    { t with fflags := t.fflags ||| fl, fpend := if t.traps fl then t.fpend ||| fl else t.fpend, trapReq := t.trapReq || t.traps fl } := by
  unfold Thread.fpDone
  by_cases h : fl &&& t.ften = 0
  · have ht : t.traps fl = false := decide_eq_false (fun hne => hne h)
    rw [if_pos h, ht, Bool.or_false, if_neg Bool.false_ne_true]
  · have ht : t.traps fl = true := decide_eq_true h
    rw [if_neg h, ht, Bool.or_true, if_pos rfl]

theorem Thread.fpEnd_eq (t : Thread) (p : FpPend) : t.fpEnd p =
    { t with f := p.fw.foldl putHalf t.f, g := putResult t.g p.gw, fflags := t.fflags ||| p.flags
             fpend := if t.traps p.flags then t.fpend ||| p.flags else t.fpend, trapReq := t.trapReq || t.traps p.flags } := by
  obtain ⟨fw, gw, flags, due⟩ := p
  rw [Thread.fpEnd, Thread.foldl_wHalf]
  cases gw with
  | none => exact Thread.fpDone_eq _ _
  | some result => exact (congrArg (Thread.fpDone · flags) (Thread.wg_eq_putResult _ _ _)).trans (Thread.fpDone_eq _ _)

/-- The oldest instruction completes unless it is a divide or square root of which the stall goes on (R226, R250). -/
theorem fpComplete_of_due {s : State} {th : Th} {p : FpPend} {rest : List FpPend} (h : (s.thr th).fpOut = p :: rest) (hd : p.due ≠ none) :
    fpComplete s th = s.setThr th ({ s.thr th with fpOut := rest }.fpEnd p) := by
  have hn : ¬ p.due.isNone = true := fun hnone => hd (Option.isNone_iff_eq_none.1 hnone)
  simp only [fpComplete, State.modThr, h]
  exact congrArg (s.setThr th) (if_neg hn)

/-! ## Entry to the supervisor (R257, R258) -/

/-- The number of a level below machine level (R255). -/
theorem lvNum_of_ne_machine {l : Level} (h : l ≠ .machine) : lvNum l = if l = .user then 0 else 1 := by
  cases l with
  | user => rfl
  | supervisor => rfl
  | machine => exact absurd rfl h

/-- Below machine level and with the supervisor free, what neither asks for machine level nor is a SYSCALL enters the supervisor. -/
theorem enterException_supervisor {s : State} {th : Th} {e : Exc} (xpc : Word) (hl : (s.thr th).level ≠ .machine)
    (hb : (s.thr th).s.busy = false) (hm : e.toMachine = false) (hc : e.cause ≠ .syscall) : enterException s th e xpc =
    s.setThr th ((s.thr th).enter false { fromLevel := lvNum (s.thr th).level, code := causeCode e.cause } e.info xpc) := by
  have ht : targetMachine (s.thr th) e = false := by simp [targetMachine, hm, hl, hc]
  simp only [enterException, ht, hb, Bool.false_eq_true, if_false]

/-- What entry to the supervisor from below machine level saves and sets (R258). -/
theorem Thread.enter_supervisor {t : Thread} (c : CauseReg) (info xpc : Word) (hl : t.level ≠ .machine) : t.enter false c info xpc =
    { t.released with
      level := .supervisor, pc := t.s.entry, fetched := [], fetchPend := none, checked := false
      s := { t.s with xpc := xpc, plv := if t.level = .user then 0 else 1, pie := if t.level = .user then t.uie else t.s.ie, cause := c
                      info := info, busy := true, ie := false } } := by
  unfold Thread.enter LevelRegs.saved Thread.ieOf
  cases h : t.level with
  | user => rfl
  | supervisor => rfl
  | machine => exact absurd h hl

/-- Without an outstanding floating-point instruction and without a product on its way an entry has nothing to complete (R205, R252). -/
theorem Thread.settle_of_none {t : Thread} (hf : t.fpOut = []) (hp : t.products = []) : t.settle = t := by
  have hall : t.fpAll = t := by
    unfold Thread.fpAll
    rw [hf]
    exact congrArg (fun o => { t with fpOut := o }) hf.symm
  rw [Thread.settle, hall, Thread.landAll, hp]
  rfl

/-- The trap of a thread with nothing to complete: the request is consumed and the supervisor entered with PEND (R251, R258). -/
theorem takeFpTrap_supervisor {s : State} {th : Th} (xpc : Word) (hf : (s.thr th).fpOut = []) (hp : (s.thr th).products = [])
    (hl : (s.thr th).level ≠ .machine) (hb : (s.thr th).s.busy = false) : takeFpTrap s th xpc =
    s.setThr th ({ s.thr th with trapReq := false }.enter false { fromLevel := lvNum (s.thr th).level, code := causeCode .fptrap }
      ((s.thr th).fpend.setWidth 36) xpc) := by
  have hst : s.modThr th (fun t => { t.settle with trapReq := false }) = s.setThr th { s.thr th with trapReq := false } := by
    rw [State.modThr, Thread.settle_of_none hf hp]
  unfold takeFpTrap
  rw [hst, enterException_supervisor] <;> simp [hl, hb]

/-! ## The turns of an entry (R235) -/

theorem thr_entryTurns (s : State) (th : Th) : (entryTurns s th).thr th =
    { s.thr th with busy := if (s.lathe th.l).detact then nextTurn s th + 16 else (s.thr th).busy } := by
  unfold entryTurns twoTurns
  split
  · exact State.thr_modThr ..
  · rfl

theorem thr_entryTurns_ne (s : State) {th u : Th} (h : u ≠ th) : (entryTurns s th).thr u = s.thr u := by
  unfold entryTurns twoTurns
  split
  · exact State.thr_modThr_ne s _ h
  · rfl

/-- The turns of an entry change the threads alone. -/
theorem entryTurns_eq_threads (s : State) (th : Th) : entryTurns s th = { s with threads := (entryTurns s th).threads } := by
  unfold entryTurns twoTurns
  split <;> rfl

/-! ## The completion and the trap -/

theorem exec_fpCompletion (th : Th) (s : State) : exec (.fpCompletion th) s = .next (fpComplete s th) := rfl

theorem exec_fptrap (th : Th) (s : State) : exec (.fptrap th) s =
    .next (if (s.thr th).trapReq && s.between th then takeFpTrap (entryTurns s th) th (s.thr th).pc else s) := rfl

/-- Settles O25, by what one completion writes and records, and by the entry to the supervisor of a thread that has nothing left to complete. -/
theorem floatingPointTrapsAreRequestedAndTaken : Obligations.FloatingPointTrapsAreRequestedAndTaken := by
  intro th s p rest t0 traps
  refine ⟨fun hq hd => ?completes, fun hreq hbet hf hp hl hb => ?taken⟩
  case completes =>
    rw [exec_fpCompletion, fpComplete_of_due hq hd, Thread.fpEnd_eq]
    rfl
  case taken =>
    have ht := thr_entryTurns s th
    have hlv : lvNum t0.level = if t0.level = .user then 0 else 1 := lvNum_of_ne_machine hl
    have htrap := takeFpTrap_supervisor (s := entryTurns s th) (th := th) t0.pc (by rw [ht]; exact hf) (by rw [ht]; exact hp)
      (by rw [ht]; exact hl) (by rw [ht]; exact hb)
    refine ⟨takeFpTrap (entryTurns s th) th t0.pc, (exec_fptrap th s).trans (congrArg _ (if_pos ?_)), ?_, fun u hu => ?_, ?_⟩
    · exact Bool.and_eq_true_iff.2 ⟨hreq, hbet⟩
    · rw [htrap, entryTurns_eq_threads]
      rfl
    · rw [htrap, State.thr_setThr_ne _ _ hu, thr_entryTurns_ne s hu]
    · rw [htrap, State.thr_setThr, Thread.enter_supervisor _ _ _ (by rw [ht]; exact hl), ht, hlv, ← BitVec.ofNat_toNat]
      rfl

end Sys2Proof.Machine
end
